-- ==== Sys2Proof/Word.lean ====
section
/-! DEFINITION. The words of the machine: bytes, 32-bit words, 64-bit pairs, lane sets. -/
namespace Sys2Proof

/-- A byte of memory. -/
abbrev Byte := BitVec 8

/-- A 32-bit word: a register value of one lane, a scalar register, an instruction word. -/
abbrev Word := BitVec 32

/-- The value of an even-odd register pair, and a 64-bit virtual address. -/
abbrev Dword := BitVec 64

/-- A set of lanes: bit l is lane l. -/
abbrev Lanes := BitVec 32

end Sys2Proof
end

