-- ==== Sys2Proof/Config.lean ====
section
/-! DEFINITION. What the specification leaves open (opaque, so that no proof can lean on a value), and the figures of the
shipped part (R1). -/
namespace Sys2Proof.Config

/-- A free value: the n-th value that the specification does not state (log entry 7). -/
opaque freeValue : Nat → Nat

/-- The L2 set of a superblock in its die, taken modulo the number of sets (R1, R13, R177); the specification gives no index (log entry 9). -/
opaque l2Index : Nat → Nat

/-- Sets of a die's L2: 1 GiB of 512-byte superblocks in 16 ways (R1, R13). -/
def l2Sets : Nat := 131072

/-- Ways of a set of the L2 (R1). -/
def l2Ways : Nat := 16

/-- A byte of a near- or far-tier line read through a key that it was not enciphered under (R384): of the bytes that were stored, the key
pair they were stored under, the key pair they are read with, the line and the place in it (log entry 27). -/
opaque decipher : List Byte → List Byte → List Byte → Nat → Nat → Byte

/-- The two signature schemes of a firmware image, each with the public key fused at manufacture: whether a signature verifies over a digest
and a security version (R471); log entry 8. -/
opaque ecdsaVerify : List Byte → List Byte → Nat → List Byte → Bool
opaque lmsVerify : List Byte → List Byte → Nat → List Byte → Bool
opaque ecdsaKey : List Byte
opaque lmsKey : List Byte

/-- The ECDSA P-384 and the LMS signature in a firmware image's header (R471); log entry 8. -/
opaque ecdsaSig : List Byte → List Byte
opaque lmsSig : List Byte → List Byte

/-- The security version in a firmware image's header (R471); log entry 8. -/
opaque imageSvn : List Byte → Nat

/-- The SHA-384 digest of the boot ROM, and the fuse configuration (R473); log entry 8. -/
opaque romDigest : List Byte
opaque fuseConfig : List Byte

/-- Whether the boot ROM reads the fuses and the flash at a package reset (R470, steps 1 and 2), a fresh value for each (log entry 85). -/
opaque bootReads : Nat → Bool

/-- The digest of bytes that an attestation object carries (R471, R473); log entry 8. -/
opaque digest : List Byte → List Byte

/-- A certificate chain, a signature or a key-exchange share of the SPDM responder (R473); log entry 8. -/
opaque attest : Nat → List Byte → List Byte

/-- Whether the requester's proof in FINISH verifies against the session (R473); log entry 8. -/
opaque finishValid : List Byte → Bool

/-- The voltage that a frequency in MHz is run with (R476); log entry 8. -/
opaque voltage : Nat → Nat

/-- A byte that the device defines in a save area (R443): of the outstanding entries and the gang sections, by the team's or
group's place and the offset (log entry 21). -/
opaque saveByte : Nat → Nat → Byte

/-- The virtual address in a peer's context of what a remote store goes to (R458, R461, R467), where this package does not hold it: of a
page of the peer's pool (peer, context, pool, page), or of a rank's data in a collective (log entry 83). -/
opaque remoteAddr : List Nat → BitVec 64

/-- Where the checkpoint area of a sequence lies, in units of 16 bytes, by context and admission count: the specification names no setter of CKPT (R346, R370);
log entry 67. -/
opaque ckptArea : Nat → Nat → Nat

/-- Group slots of a core (R1). -/
def groupSlots : Nat := 48

/-- Blocks of the extended pool of a core (R92). -/
def extBlocks : Nat := 192

/-- Cores and clusters of the package (R10). -/
def cores : Nat := 512
def clusters : Nat := 128

/-- Bytes of a cluster's boarding buffer (R153). -/
def bbBytes : Nat := 2097152

end Sys2Proof.Config
end

