-- ==== Sys2Proof/Machine/Bits.lean ====
section
/-! DEFINITION. Bit counting, sign extension and byte order, over words and natural numbers. -/
namespace Sys2Proof.Machine

/-- A two's-complement value of `w` bits as an integer. -/
def sx (w : Nat) (n : Nat) : Int :=
  let m := n % 2 ^ w
  if 2 ^ (w - 1) ≤ m then (m : Int) - 2 ^ w else m

/-- The `w` low bits of an integer. -/
def wrapN (w : Nat) (z : Int) : Nat := (z % (2 ^ w : Nat)).toNat

/-- The number of 1 bits among the `w` low bits. -/
def popN : Nat → Nat → Nat
  | 0, _ => 0
  | w + 1, n => n % 2 + popN w (n / 2)

/-- The number of significant bits: the length of the binary form, 0 for 0. -/
def bitLen (n : Nat) : Nat := if n = 0 then 0 else n.log2 + 1

/-- Leading zeros in a word of `w` bits (R128). -/
def clzN (w n : Nat) : Nat := w - bitLen (n % 2 ^ w)

/-- The `w` low bits in reverse order (R128). -/
def brevN : Nat → Nat → Nat
  | 0, _ => 0
  | w + 1, n => (n % 2) * 2 ^ w + brevN w (n / 2)

/-- The lowest set bit's place among the bits `k ..`, looking at `w` bits; `k + w` if none. -/
def lowest : Nat → Nat → Nat → Nat
  | 0, k, _ => k
  | w + 1, k, n => if n % 2 = 1 then k else lowest w (k + 1) (n / 2)

/-- The highest lane of a set, if any. -/
def highest (s : Lanes) : Option Nat := if s = 0#32 then none else some s.toNat.log2

/-- The number of lanes of a set. -/
def card (s : Lanes) : Nat := popN 32 s.toNat

/-- The lanes of a set in ascending order. -/
def lanesOf (s : Lanes) : List (Fin 32) := (List.finRange 32).filter fun l => s.getLsbD l

/-- The lanes that satisfy a test. -/
def lanesWhere (p : Fin 32 → Bool) : Lanes :=
  BitVec.ofNat 32 ((List.finRange 32).foldl (fun n l => if p l then n + 2 ^ l.val else n) 0)

/-- The one lane `l`. -/
def lane1 (l : Nat) : Lanes := BitVec.ofNat 32 (2 ^ l)

/-- The least lane of a set, 32 if none. -/
def leastLane (s : Lanes) : Nat := lowest 32 0 s.toNat

/-- Little-endian bytes of a number, `n` of them (R3). -/
def toBytes : Nat → Nat → List Byte
  | 0, _ => []
  | n + 1, v => BitVec.ofNat 8 v :: toBytes n (v / 256)

/-- The number that little-endian bytes stand for (R3). -/
def ofBytes : List Byte → Nat
  | [] => 0
  | b :: bs => b.toNat + 256 * ofBytes bs

/-- Bits `[hi:lo]` of a number. -/
def fld (n hi lo : Nat) : Nat := n / 2 ^ lo % 2 ^ (hi - lo + 1)

/-- A number with bits `[hi:lo]` replaced. -/
def setFld (n hi lo v : Nat) : Nat :=
  n % 2 ^ lo + (v % 2 ^ (hi - lo + 1)) * 2 ^ lo + n / 2 ^ (hi + 1) * 2 ^ (hi + 1)

/-- The two words of a pair as one value, the low word first (R60). -/
def pair (lo hi : Word) : Dword := hi ++ lo

/-- The low word of a 64-bit value. -/
def lowW (x : Dword) : Word := x.extractLsb' 0 32

/-- The high word of a 64-bit value. -/
def highW (x : Dword) : Word := x.extractLsb' 32 32

/-- The integer square root, one bit at a time from bit `k - 1` down. -/
def isqrtStep : Nat → Nat → Nat → Nat
  | 0, _, r => r
  | k + 1, n, r => let t := r + 2 ^ k; isqrtStep k n (if t * t ≤ n then t else r)

/-- The largest r with r * r at most n. -/
def isqrt (n : Nat) : Nat := isqrtStep (bitLen n / 2 + 1) n 0

/-- A value put in a sorted list, before its equals. -/
def insertLe {α : Type} (le : α → α → Bool) (x : α) : List α → List α
  | [] => [x]
  | y :: ys => if le x y then x :: y :: ys else y :: insertLe le x ys

/-- A list sorted by `le`; equals keep their order. -/
def sortLe {α : Type} (le : α → α → Bool) (l : List α) : List α := l.foldr (insertLe le) []

/-- Sets entry `i` of a list, growing nothing. -/
def updAt {α : Type} (l : List α) (i : Nat) (f : α → α) : List α :=
  match l, i with
  | [], _ => []
  | a :: as, 0 => f a :: as
  | a :: as, i + 1 => a :: updAt as i f

end Sys2Proof.Machine
end

