-- ==== Sys2Proof/Machine/Float.lean ====
section
/-! DEFINITION. The chapter Number: element formats, rounding, flags, conversions, dither, the quantiser, anchored cells
and Haar steps (R57 to R83).

A code stands for an exact value; every operation computes the exact value and rounds once. An exact value that is no
finite binary fraction is held as its leading bits and a mark that something non-zero lies below them. -/
namespace Sys2Proof.Machine

/-- The element formats of R57 that have a floating-point code. -/
inductive Fmt where
  | f32 | bf16 | f16 | e5m2 | e4m3 | e3m2 | e2m3 | e2m1 | e3m5
  deriving DecidableEq, Repr

/-- Width of the exponent field (R57). -/
def Fmt.ew : Fmt → Nat
  | .f32 => 8 | .bf16 => 8 | .f16 => 5 | .e5m2 => 5 | .e4m3 => 4 | .e3m2 => 3 | .e2m3 => 2 | .e2m1 => 2 | .e3m5 => 3

/-- Width of the mantissa field (R57). -/
def Fmt.mw : Fmt → Nat
  | .f32 => 23 | .bf16 => 7 | .f16 => 10 | .e5m2 => 2 | .e4m3 => 3 | .e3m2 => 2 | .e2m3 => 3 | .e2m1 => 1 | .e3m5 => 5

/-- Bias (R57). -/
def Fmt.bias : Fmt → Nat
  | .f32 => 127 | .bf16 => 127 | .f16 => 15 | .e5m2 => 15 | .e4m3 => 7 | .e3m2 => 3 | .e2m3 => 1 | .e2m1 => 1 | .e3m5 => 4

/-- Formats with an infinity (R57). -/
def Fmt.hasInf : Fmt → Bool
  | .f32 => true | .bf16 => true | .f16 => true | .e5m2 => true | _ => false

/-- Formats with a NaN code (R57). -/
def Fmt.hasNan : Fmt → Bool
  | .e4m3 => true | f => f.hasInf

/-- Bits of a code. -/
def Fmt.width (f : Fmt) : Nat := (if f = .e3m5 then 0 else 1) + f.ew + f.mw

/-- The canonical NaN of a format that has one (R64). -/
def Fmt.nan : Fmt → Nat
  | .f32 => 0x7fc00000 | .bf16 => 0x7fc0 | .f16 => 0x7e00 | .e5m2 => 0x7e | .e4m3 => 0x7f | _ => 0

/-- The code of the largest finite magnitude (R57). -/
def Fmt.maxCode : Fmt → Nat
  | .f32 => 0x7f7fffff | .bf16 => 0x7f7f | .f16 => 0x7bff | .e5m2 => 0x7b | .e4m3 => 0x7e
  | .e3m2 => 0x1f | .e2m3 => 0x1f | .e2m1 => 0x7 | .e3m5 => 0xff

/-- The code of +infinity in a format that has it. -/
def Fmt.inf (f : Fmt) : Nat := (2 ^ f.ew - 1) * 2 ^ f.mw

/-- The sign bit of a code set when `neg`. -/
def Fmt.signed (f : Fmt) (neg : Bool) (c : Nat) : Nat := if neg then c + 2 ^ (f.width - 1) else c

/-- A value that a code stands for: NaN (signalling or quiet), an infinity, or (-1)^neg * m * 2^e, with `st` when
something non-zero and below one unit of m is added to the magnitude. -/
inductive Val where
  | nan (sig : Bool)
  | inf (neg : Bool)
  | fin (neg : Bool) (m : Nat) (e : Int) (st : Bool)
  deriving DecidableEq, Repr

/-- The value of a code (R58, R64). -/
def Fmt.val (f : Fmt) (c : Nat) : Val :=
  let neg := f ≠ .e3m5 && c / 2 ^ (f.width - 1) % 2 = 1
  let E := c / 2 ^ f.mw % 2 ^ f.ew
  let M := c % 2 ^ f.mw
  if f.hasInf && E = 2 ^ f.ew - 1 then
    if M = 0 then .inf neg else .nan (M < 2 ^ (f.mw - 1))
  else if f = .e4m3 && E = 15 && M = 7 then .nan false
  else if E = 0 then .fin neg M (1 - (f.bias : Int) - f.mw) false
  else .fin neg (2 ^ f.mw + M) ((E : Int) - f.bias - f.mw) false

/-- Rounding modes (R65). -/
inductive Rm where
  | rne | rz | rdn | rup
  deriving DecidableEq, Repr

/-- The mode of a field (R65). -/
def Rm.of (b : BitVec 2) : Rm :=
  match b.toNat with | 0 => .rne | 1 => .rz | 2 => .rdn | _ => .rup

/-- The flags of `xf` bits 4 to 0 (R66). -/
def fNV : BitVec 5 := 1#5
def fDZ : BitVec 5 := 2#5
def fOF : BitVec 5 := 4#5
def fUF : BitVec 5 := 8#5
def fNX : BitVec 5 := 16#5

/-- A flag when a condition holds. -/
def flagIf (b : Bool) (f : BitVec 5) : BitVec 5 := if b then f else 0#5

/-- The magnitude m * 2^e (with `st`) rounded to a multiple of 2^q: the multiple, and whether it changed (R64, R65). -/
def roundAt (rm : Rm) (neg : Bool) (m : Nat) (e : Int) (st : Bool) (q : Int) : Nat × Bool :=
  if q ≤ e then
    let h := m * 2 ^ (e - q).toNat
    if st then
      (match rm with | .rdn => if neg then h + 1 else h | .rup => if neg then h else h + 1 | _ => h, true)
    else (h, false)
  else
    let k := (q - e).toNat
    let h := m / 2 ^ k
    let r := m % 2 ^ k
    let half := 2 ^ (k - 1)
    let inexact := r ≠ 0 || st
    let up :=
      match rm with
      | .rne => half < r || (r = half && (st || h % 2 = 1))
      | .rz => false
      | .rdn => neg && inexact
      | .rup => !neg && inexact
    (if up then h + 1 else h, inexact)

/-- The exponent of the last place of a magnitude in a format with unbounded exponent range. -/
def ulpExp (f : Fmt) (m : Nat) (e : Int) : Int := (bitLen m : Int) + e - (f.mw + 1)

/-- The exponent of the last place of a subnormal (R57). -/
def Fmt.qmin (f : Fmt) : Int := 1 - (f.bias : Int) - f.mw

/-- A magnitude at or above another: m1 * 2^e1 ≥ m2 * 2^e2. -/
def leMag (m2 : Nat) (e2 : Int) (m1 : Nat) (e1 : Int) : Bool :=
  let e := min e1 e2
  m2 * 2 ^ (e2 - e).toNat ≤ m1 * 2 ^ (e1 - e).toNat

/-- The code of h * 2^q, a value of the format; `q` at least the last place of a subnormal. -/
def Fmt.pack (f : Fmt) (h : Nat) (q : Int) : Nat :=
  if h = 0 then 0
  else
    let x := (bitLen h : Int) - 1 + q
    if x < 1 - (f.bias : Int) then h * 2 ^ (q - f.qmin).toNat
    else
      let n := if bitLen h ≤ f.mw + 1 then h * 2 ^ (f.mw + 1 - bitLen h) else h / 2 ^ (bitLen h - (f.mw + 1))
      (x + f.bias).toNat * 2 ^ f.mw + (n - 2 ^ f.mw)

/-- The largest finite magnitude of a format as m * 2^e. -/
def Fmt.maxMag (f : Fmt) : Nat × Int :=
  match f.val f.maxCode with
  | .fin _ m e _ => (m, e)
  | _ => (0, 0)

/-- What rounding a non-zero finite magnitude into a format gives. -/
structure Rounded where
  code : Nat
  ovf : Bool
  tiny : Bool
  inexact : Bool
  deriving DecidableEq, Repr

/-- A finite magnitude rounded into a format (R64, R68): its code without sign, whether the value rounded with unbounded
exponent exceeds the largest finite magnitude, whether the result is tiny after rounding, and whether it is inexact. -/
def roundMag (f : Fmt) (rm : Rm) (neg : Bool) (m : Nat) (e : Int) (st : Bool) : Rounded :=
  if m = 0 && !st then ⟨0, false, false, false⟩
  else
    let u := ulpExp f m e
    let r := roundAt rm neg m e st u
    let big := f.maxMag
    let ovf := !leMag r.1 u big.1 big.2
    let tiny := !leMag 1 (1 - (f.bias : Int)) r.1 u
    let q := max u f.qmin
    let s := roundAt rm neg m e st q
    ⟨f.pack s.1 q, ovf, tiny, s.2⟩

/-- IEEE 754 rounding of an exact value into a format with infinities, with its flags (R64): overflow follows the
rounding mode. -/
def roundIeee (f : Fmt) (rm : Rm) : Val → Nat × BitVec 5
  | .nan _ => (f.nan, 0#5)
  | .inf neg => (f.signed neg f.inf, 0#5)
  | .fin neg m e st =>
    let r := roundMag f rm neg m e st
    if r.ovf then
      let toInf := match rm with | .rne => true | .rz => false | .rdn => neg | .rup => !neg
      (f.signed neg (if toInf then f.inf else f.maxCode), fOF ||| fNX)
    else (f.signed neg r.code, flagIf r.inexact fNX ||| flagIf (r.tiny && r.inexact) fUF)

/-! ### Exact operations on values -/

/-- A value is a NaN. -/
def Val.isNan : Val → Bool
  | .nan _ => true | _ => false

/-- A value is a signalling NaN. -/
def Val.isSig : Val → Bool
  | .nan s => s | _ => false

/-- The sign of a value that is not NaN. -/
def Val.neg : Val → Bool
  | .nan _ => false | .inf n => n | .fin n _ _ _ => n

/-- A value is zero. -/
def Val.isZero : Val → Bool
  | .fin _ m _ st => m = 0 && !st | _ => false

/-- A value is an infinity. -/
def Val.isInf : Val → Bool
  | .inf _ => true | _ => false

/-- The value with its sign changed when `b`. -/
def Val.flip (b : Bool) : Val → Val
  | .nan s => .nan s
  | .inf n => .inf (n != b)
  | .fin n m e st => .fin (n != b) m e st

/-- m * 2^e as an integer multiple of 2^q, for q at most e. -/
def scaled (neg : Bool) (m : Nat) (e q : Int) : Int :=
  let v : Int := (m * 2 ^ (e - q).toNat : Nat)
  if neg then -v else v

/-- The exact sum of two values (exact ones: no mark below), with NV for an invalid operation or a signalling NaN. An
exact zero sum of unlike signs is -0 only when rounding toward minus infinity (R64). -/
def addV (rm : Rm) (a b : Val) : Val × BitVec 5 :=
  if a.isNan || b.isNan then (.nan false, flagIf (a.isSig || b.isSig) fNV)
  else
    match a, b with
    | .inf x, .inf y => if x = y then (.inf x, 0#5) else (.nan false, fNV)
    | .inf x, _ => (.inf x, 0#5)
    | _, .inf y => (.inf y, 0#5)
    | .fin x m e _, .fin y n f _ =>
      let q := min e f
      let z := scaled x m e q + scaled y n f q
      if z = 0 then (.fin (if m = 0 && n = 0 && x = y then x else rm = .rdn) 0 q false, 0#5)
      else (.fin (z < 0) z.natAbs q false, 0#5)
    | _, _ => (.nan false, 0#5)

/-- The exact product of two values, with NV for 0 times an infinity or a signalling NaN (R64). -/
def mulV (a b : Val) : Val × BitVec 5 :=
  if a.isNan || b.isNan then (.nan false, flagIf (a.isSig || b.isSig) fNV)
  else
    let s := a.neg != b.neg
    if (a.isInf && b.isZero) || (a.isZero && b.isInf) then (.nan false, fNV)
    else
      match a, b with
      | .inf _, _ => (.inf s, 0#5)
      | _, .inf _ => (.inf s, 0#5)
      | .fin _ m e _, .fin _ n f _ => (.fin s (m * n) (e + f) false, 0#5)
      | _, _ => (.nan false, 0#5)

/-- a times 2^n, exactly. -/
def scaleV (a : Val) (n : Int) : Val :=
  match a with
  | .fin s m e st => .fin s m (e + n) st
  | v => v

/-- a < b for two values that are not NaN. -/
def ltV (a b : Val) : Bool :=
  match a, b with
  | .inf x, .inf y => x && !y
  | .inf x, _ => x
  | _, .inf y => !y
  | .fin x m e _, .fin y n f _ => let q := min e f; scaled x m e q < scaled y n f q
  | _, _ => false

/-- a = b for two values that are not NaN, with +0 = -0. -/
def eqV (a b : Val) : Bool :=
  match a, b with
  | .inf x, .inf y => x == y
  | .fin x m e _, .fin y n f _ => let q := min e f; scaled x m e q == scaled y n f q
  | _, _ => false

/-! ### The FALU operations on codes of a format (R136 to R138) -/

/-- A code of a format. -/
abbrev Code := Nat

/-- `fadd`, `fsub`, `fmul`: exact, rounded once (R136). -/
def fAdd (f : Fmt) (rm : Rm) (a b : Code) : Code × BitVec 5 :=
  let r := addV rm (f.val a) (f.val b)
  let c := roundIeee f rm r.1
  (c.1, r.2 ||| c.2)

def fSub (f : Fmt) (rm : Rm) (a b : Code) : Code × BitVec 5 :=
  let r := addV rm (f.val a) ((f.val b).flip true)
  let c := roundIeee f rm r.1
  (c.1, r.2 ||| c.2)

def fMul (f : Fmt) (rm : Rm) (a b : Code) : Code × BitVec 5 :=
  let r := mulV (f.val a) (f.val b)
  let c := roundIeee f rm r.1
  (c.1, r.2 ||| c.2)

/-- `ffma`: (±a × b) + (±c) with one rounding; an invalid product is NV even beside a quiet NaN (R138). -/
def fFma (f : Fmt) (rm : Rm) (np na : Bool) (a b c : Code) : Code × BitVec 5 :=
  let va := f.val a
  let vb := f.val b
  let vc := (f.val c).flip na
  let p := mulV va vb
  let r := addV rm (p.1.flip np) vc
  let o := roundIeee f rm r.1
  (o.1, p.2 ||| r.2 ||| o.2)

/-- `fmin`, `fmax`: minimumNumber and maximumNumber, with -0 below +0 (R136). -/
def fMinMax (f : Fmt) (big : Bool) (a b : Code) : Code × BitVec 5 :=
  let va := f.val a
  let vb := f.val b
  let nv := flagIf (va.isSig || vb.isSig) fNV
  if va.isNan && vb.isNan then (f.nan, nv)
  else if va.isNan then (b, nv)
  else if vb.isNan then (a, nv)
  else
    let aLess := ltV va vb || (eqV va vb && va.neg && !vb.neg)
    (if aLess == big then b else a, nv)

/-- `fneg` and `fabs` (R136). -/
def fSign (f : Fmt) (abs : Bool) (a : Code) : Code × BitVec 5 :=
  let v := f.val a
  if v.isNan then (f.nan, flagIf v.isSig fNV)
  else
    let mag := a % 2 ^ (f.width - 1)
    (f.signed (!abs && !v.neg) mag, 0#5)

/-- `fscl`: a × 2^n with one rounding (R136). -/
def fScl (f : Fmt) (a : Code) (n : Int) : Code × BitVec 5 :=
  let v := f.val a
  let n' := max (-100000) (min 100000 n)
  let c := roundIeee f .rne (scaleV v n')
  (c.1, flagIf v.isSig fNV ||| c.2)

/-- `fclass`: one bit for the class of a (R136). -/
def fClass (f : Fmt) (a : Code) : Nat :=
  match f.val a with
  | .nan s => if s then 2 ^ 8 else 2 ^ 9
  | .inf n => if n then 2 ^ 0 else 2 ^ 7
  | .fin n m _ _ =>
    let sub := a / 2 ^ f.mw % 2 ^ f.ew = 0
    if m = 0 then (if n then 2 ^ 3 else 2 ^ 4)
    else if sub then (if n then 2 ^ 2 else 2 ^ 5)
    else (if n then 2 ^ 1 else 2 ^ 6)

/-- `frnd`: rounded to an integral value, never NX (R136). -/
def fRnd (f : Fmt) (rm : Rm) (a : Code) : Code × BitVec 5 :=
  match f.val a with
  | .nan s => (f.nan, flagIf s fNV)
  | .inf n => (f.signed n f.inf, 0#5)
  | .fin n m e _ =>
    if 0 ≤ e then (a, 0#5)
    else
      let r := roundAt rm n m e false 0
      ((roundIeee f .rne (.fin n r.1 0 false)).1, 0#5)

/-- The conditions of `fcmp` (R135). -/
inductive FCond where
  | eq | ne | lt | le | gt | ge | un | ord
  deriving DecidableEq, Repr

/-- `fcmp` on FP32 codes: the result, and whether NV is set (R135). -/
def fCmp (k : FCond) (a b : Code) : Bool × BitVec 5 :=
  let va := Fmt.f32.val a
  let vb := Fmt.f32.val b
  let nan := va.isNan || vb.isNan
  let sig := va.isSig || vb.isSig
  let lt := ltV va vb
  let eq := eqV va vb
  match k with
  | .eq => (!nan && eq, flagIf sig fNV)
  | .ne => (nan || !eq, flagIf sig fNV)
  | .lt => (!nan && lt, flagIf nan fNV)
  | .le => (!nan && (lt || eq), flagIf nan fNV)
  | .gt => (!nan && !(lt || eq), flagIf nan fNV)
  | .ge => (!nan && !lt, flagIf nan fNV)
  | .un => (nan, flagIf sig fNV)
  | .ord => (!nan, flagIf sig fNV)

/-! ### Conversions (R68 to R74) -/

/-- The targets of a conversion: a float format, or an integer of a width, signed or not (R59). -/
inductive Tgt where
  | flt (f : Fmt)
  | int (w : Nat) (signed : Bool)
  deriving DecidableEq, Repr

/-- How a conversion rounds: by a mode, or by the dither offset (2k + 1)/16 of R73. -/
inductive Rounder where
  | mode (rm : Rm)
  | dither (k : Nat)
  deriving DecidableEq, Repr

/-- What one converted element gives: its code, its flags, and its adds to SATC, FTZC and NANC under the counting rule
(R68, R69). -/
structure Conv where
  code : Nat
  flags : BitVec 5
  sat : Nat
  ftz : Nat
  nan : Nat
  deriving DecidableEq, Repr

/-- The pattern D of R73, in sixteenths. -/
def ditherD (i : Nat) : Nat :=
  match i % 8 with | 0 => 1 | 1 => 9 | 2 => 5 | 3 => 13 | 4 => 3 | 5 => 11 | 6 => 7 | _ => 15

/-- The dither offset of an element at position j with phase PH, in sixteenths (R73). -/
def ditherOff (j ph : Nat) : Nat := ditherD ((j % 8 + ph) % 8)

/-- A magnitude rounded by the dither of R73 to a multiple of 2^q: lo + g when f ≥ 1 - d. -/
def ditherAt (d : Nat) (m : Nat) (e q : Int) : Nat × Bool :=
  if q ≤ e then (m * 2 ^ (e - q).toNat, false)
  else
    let k := (q - e).toNat
    let h := m / 2 ^ k
    let r := m % 2 ^ k
    if r = 0 then (h, false)
    else (if (16 - d) * 2 ^ k ≤ 16 * r then h + 1 else h, true)

/-- A magnitude rounded into a format by a rounder, as `roundMag`. -/
def roundBy (f : Fmt) (how : Rounder) (neg : Bool) (m : Nat) (e : Int) (st : Bool) : Rounded :=
  match how with
  | .mode rm => roundMag f rm neg m e st
  | .dither d =>
    if m = 0 then ⟨0, false, false, false⟩
    else
      let u := ulpExp f m e
      let r := ditherAt d m e u
      let big := f.maxMag
      let q := max u f.qmin
      let s := ditherAt d m e q
      ⟨f.pack s.1 q, !leMag s.1 q big.1 big.2, !leMag 1 (1 - (f.bias : Int)) r.1 u, s.2⟩

/-- A conversion into a float format (R68): `cnt` is the counting rule of `nmode.OVP`; `inv` when the conversion itself
formed the NaN. -/
def convFlt (f : Fmt) (how : Rounder) (cnt inv : Bool) (v : Val) : Conv :=
  let c1 : Nat := if cnt then 1 else 0
  match v with
  | .nan s =>
    let nv := inv || s || !f.hasNan
    ⟨f.nan, flagIf nv fNV, 0, 0, c1⟩
  | .inf neg =>
    if f.hasInf then ⟨f.signed neg (if cnt then f.maxCode else f.inf), 0#5, c1, 0, 0⟩
    else if f = .e4m3 && !cnt then ⟨f.nan, fNV, 0, 0, 0⟩
    else ⟨f.signed neg f.maxCode, fNV, c1, 0, 0⟩
  | .fin neg m e st =>
    let r := roundBy f how neg m e st
    if r.ovf then
      let code :=
        if f.hasInf && !cnt then f.signed neg f.inf
        else if f = .e4m3 && !cnt then f.nan
        else f.signed neg f.maxCode
      ⟨code, fOF ||| fNX, c1, 0, 0⟩
    else
      let ftz := if cnt && r.code = 0 && (m ≠ 0 || st) then 1 else 0
      ⟨f.signed neg r.code, flagIf r.inexact fNX ||| flagIf (r.tiny && r.inexact) fUF, 0, ftz, 0⟩

/-- A conversion into an integer type (R68, R69, R141): rounded by the mode, saturated with NV. A negative input of an unsigned type counts
as saturated and, its result being 0, as flushed. -/
def convInt (w : Nat) (sg : Bool) (rm : Rm) (cnt inv : Bool) (v : Val) : Conv :=
  let c1 : Nat := if cnt then 1 else 0
  let hi : Int := if sg then 2 ^ (w - 1) - 1 else 2 ^ w - 1
  let lo : Int := if sg then -(2 ^ (w - 1)) else 0
  match v with
  | .nan _ => ⟨0, flagIf (inv || true) fNV, 0, 0, c1⟩
  | .inf neg => ⟨wrapN w (if neg then lo else hi), fNV, c1, 0, 0⟩
  | .fin neg m e st =>
    let r := roundAt rm neg m e st 0
    let z : Int := if neg then -(r.1 : Int) else r.1
    if hi < z then ⟨wrapN w hi, fNV, c1, 0, 0⟩
    else if z < lo then ⟨wrapN w lo, fNV, c1, if sg then 0 else c1, 0⟩
    else
      let ftz := if cnt && z = 0 && (m ≠ 0 || st) then 1 else 0
      ⟨wrapN w z, flagIf r.2 fNX, 0, ftz, 0⟩

/-- A conversion into any target; integers take no dither. -/
def conv (t : Tgt) (how : Rounder) (cnt inv : Bool) (v : Val) : Conv :=
  match t with
  | .flt f => convFlt f how cnt inv v
  | .int w sg => convInt w sg (match how with | .mode rm => rm | .dither _ => .rne) cnt inv v

/-- The value of an integer code as an exact value. -/
def intVal (z : Int) : Val := .fin (z < 0) z.natAbs 0 false

/-! ### The quantiser (R75) -/

/-- The largest finite magnitude of a quantiser format as m * 2^e (R75). -/
def qntMax (f : Fmt) : Nat × Int := f.maxMag

/-- The magnitude of a finite value as an integer multiple of 2^q. -/
def magAt (v : Val) (q : Int) : Nat :=
  match v with
  | .fin _ m e _ => m * 2 ^ (e - q).toNat
  | _ => 0

/-- The exponent of a finite value. -/
def expOf : Val → Int
  | .fin _ _ e _ => e | _ => 0

/-- The least exponent among the values of a block. -/
def blockExp (xs : List Val) : Int := xs.foldl (fun q v => min q (expOf v)) 0

/-- The least integer x with M * 2^q at most fmax * 2^x: a start at or above it, brought down one at a time. -/
def leastScale : Nat → Nat → Int → Nat × Int → Int → Int
  | 0, _, _, _, x => x
  | k + 1, M, q, big, x => if leMag M q big.1 (big.2 + (x - 1)) then leastScale k M q big (x - 1) else x

/-- The scale exponent clipped to [-8, 3] (R75). -/
def clampC (e : Int) : Int := max (-8) (min 3 e)

/-- One candidate of the quantiser: its exponent, the converted elements, and the exact squared error in units of
2^(2q), none for infinite. -/
structure Cand where
  c : Int
  els : List Conv
  err : Option Nat
  deriving DecidableEq, Repr

/-- The elements of a block under the scale 2^c, and their error. -/
def candidate (f : Fmt) (how : Nat → Rounder) (cnt : Bool) (xs : List Val) (c : Int) : Cand :=
  let els := xs.mapIdx fun j x => convFlt f (how j) cnt false (scaleV x (-c))
  let vals := els.map fun k => scaleV (f.val k.code) c
  let q := min (blockExp xs) (blockExp vals)
  let sq := fun (x v : Val) =>
    let d : Int := (if x.neg then -(magAt x q : Int) else magAt x q) - (if v.neg then -(magAt v q : Int) else magAt v q)
    d.natAbs * d.natAbs
  let bad := vals.any fun v => v.isNan || v.isInf
  let sum := (xs.zipWith sq vals).foldl (· + ·) 0
  -- errors of different candidates are compared in one unit: 2^(2 * -400)
  ⟨c, els, if bad then none else some (sum * 2 ^ (2 * (q + 400)).toNat)⟩

/-- The better of two candidates: the lesser error; on equal errors the larger exponent (R75). -/
def better (a b : Cand) : Cand :=
  match a.err, b.err with
  | none, none => if a.c < b.c then b else a
  | none, some _ => b
  | some _, none => a
  | some x, some y => if y < x then b else if x < y then a else if a.c < b.c then b else a

/-- What `qnt` makes of one block: the scale code and the elements (R75). -/
def quantise (f : Fmt) (how : Nat → Rounder) (cnt : Bool) (xs : List Val) : Nat × List Conv :=
  let code := fun (c : Int) => if -3 ≤ c then ((c + 4) * 32).toNat else 2 ^ (c + 8).toNat
  if xs.any fun v => v.isNan || v.isInf then (code 3, (candidate f how cnt xs 3).els)
  else if xs.all Val.isZero then (0, xs.map fun v => ⟨f.signed v.neg 0, 0#5, 0, 0, 0⟩)
  else
    let q := blockExp xs
    let M := xs.foldl (fun n v => max n (magAt v q)) 0
    let e := leastScale 700 M q (qntMax f) ((bitLen M : Int) + q + 4)
    let c0 := candidate f how cnt xs (clampC e)
    let best := better (better (candidate f how cnt xs (clampC (e - 1))) c0) (candidate f how cnt xs (clampC (e + 1)))
    (code best.c, best.els)

/-! ### Anchored cells (R76 to R81) -/

/-- The integer and the three sticky flags of a cell. -/
structure Cell96 where
  n : BitVec 96
  clamp : Bool
  gnx : Bool
  inv : Bool
  deriving DecidableEq, Repr

/-- A cell of zero with no flag. -/
def Cell96.zero : Cell96 := ⟨0#96, false, false, false⟩

/-- `anchor_add` (R78): the term truncated toward zero to the grid 2^A, clamped, and added modulo 2^96. -/
def anchorAdd (A : Int) (c : Cell96) (p : Val) : Cell96 :=
  let big : Int := 2 ^ 80 - 1
  match p with
  | .nan _ => { c with inv := true }
  | .inf neg => { c with n := c.n + BitVec.ofInt 96 (if neg then -big else big), clamp := true }
  | .fin neg m e _ =>
    let t : Nat := if A ≤ e then m * 2 ^ (e - A).toNat else m / 2 ^ (A - e).toNat
    let lost := !(A ≤ e) && m % 2 ^ (A - e).toNat ≠ 0
    let ovf := big < (t : Int)
    let v : Int := if ovf then big else t
    { c with n := c.n + BitVec.ofInt 96 (if neg then -v else v), gnx := c.gnx || lost, clamp := c.clamp || ovf }

/-- The exact value of a cell: N × 2^A (R76); a zero cell is +0 (R81). -/
def cellVal (A : Int) (n : BitVec 96) : Val :=
  let z := n.toInt
  .fin (z < 0) z.natAbs A false

/-- Conversion out of a cell with its band scales (R81): the value, and whether the conversion formed a NaN. -/
def cellOut (A : Int) (n : BitVec 96) (ba bb : Val) : Val × Bool :=
  if ba.isNan || bb.isNan then (.nan (ba.isSig || bb.isSig), false)
  else
    let p := mulV ba bb
    let r := mulV (cellVal A n) p.1
    match r.1 with
    | .nan _ => (.nan false, true)
    | .fin s m e st => if m = 0 then (.fin false 0 e st, false) else (.fin s m e st, false)
    | v => (v, false)

/-! ### Haar steps (R82, R83) -/

/-- The kinds of step: averaging (R82), its sum form (R240), and the S-transform (R83). -/
inductive StepKind where
  | avg | sum | str
  deriving DecidableEq, Repr

/-- `round_ne` into FP32 under the overflow policy (R6): a finite value that overflows is the largest finite one under the counting rule.
DESIGN CHOICE (log entry 57): an infinite value stays infinite, as R64 has it, and nothing counts in `cvc`. -/
def roundNe (ovp : Bool) (v : Val) : Code × BitVec 5 :=
  let c := roundIeee .f32 .rne v
  match v with
  | .fin .. => if ovp && c.1 % 2 ^ 31 = 0x7f800000 then (c.1 - 1, c.2) else c
  | _ => c

/-- (x ± y) / 2^h on FP32 codes with one rounding (R82). -/
def halfSum (ovp sub : Bool) (h : Nat) (x y : Code) : Code × BitVec 5 :=
  let r := addV .rne (Fmt.f32.val x) ((Fmt.f32.val y).flip sub)
  let c := roundNe ovp (scaleV r.1 (-(h : Int)))
  (c.1, r.2 ||| c.2)

/-- One forward step: (approximation, detail) and the flags (R82, R83, R240). -/
def haarStep (k : StepKind) (ovp : Bool) (x0 x1 : Word) : (Word × Word) × BitVec 5 :=
  match k with
  | .str =>
    let d := x0 - x1
    ((x1 + d.sshiftRight 1, d), 0#5)
  | _ =>
    let h := if k = .avg then 1 else 0
    let a := halfSum ovp false h x0.toNat x1.toNat
    let d := halfSum ovp true h x0.toNat x1.toNat
    ((BitVec.ofNat 32 a.1, BitVec.ofNat 32 d.1), a.2 ||| d.2)

/-- One inverse step: (x0, x1) from (approximation, detail), and the flags (R82, R83). -/
def haarInv (k : StepKind) (ovp : Bool) (a d : Word) : (Word × Word) × BitVec 5 :=
  match k with
  | .str =>
    let x1 := a - d.sshiftRight 1
    ((d + x1, x1), 0#5)
  | _ =>
    let x0 := halfSum ovp false 0 a.toNat d.toNat
    let x1 := halfSum ovp true 0 a.toNat d.toNat
    ((BitVec.ofNat 32 x0.1, BitVec.ofNat 32 x1.1), x0.2 ||| x1.2)

end Sys2Proof.Machine
end

