-- ==== Sys2Proof/Syntax.lean ====
section
/-! DEFINITION. The instructions of the LVH-960: one constructor for each row of spec/opcode_table.json.

A row that has an encoding keeps the word's fields as they stand in the word (R25, R27, R34), with its header in front.
A row that names a step of an agent other than an issuing group has no encoding; its arguments say which object takes
the step, and the data that comes from outside the package. -/
namespace Sys2Proof

/-- The header of an instruction word (R25) and the LIMM prefix that goes with it (R35): `c` the chain bit, `g` the
guard predicate, `limm` the 26 upper immediate bits when a prefix stands before the word. -/
structure Hdr where
  c : Bool
  g : BitVec 2
  limm : Option (BitVec 26)
  deriving DecidableEq, Repr

/-- Where a packet of a peer comes from (R200, R201, R461): the port, the sending context, its place among that context's store packets to
this device in sending order (of a barrier arrival: how many of them were sent in windows up to its own), whether its delivery is
reliable and ordered, and whether it has a mode that the device discards, unreliable or idempotent-only (R461). -/
structure Sender where
  port : Nat
  src : Nat
  seq : Nat
  rod : Bool
  unrel : Bool := false
  deriving DecidableEq, Repr

/-- How a packet came from a peer (R466): its sender, the window it was sent in, the sender's WINK, and whether the sender's clock was
not locked. -/
structure Via extends Sender where
  window : Nat
  wink : Nat
  unsync : Bool
  deriving DecidableEq, Repr

/-- The rows of the opcode table, in its order. -/
inductive Instr where
  /-- `CSRR` (R432). -/
  | csrr (h : Hdr) (d : BitVec 6) (a : BitVec 6) (b : BitVec 6)
  /-- `CSRW` (R432). -/
  | csrw (h : Hdr) (d : BitVec 6) (a : BitVec 6) (b : BitVec 6)
  /-- `TLBINV_PAGE` (R389). -/
  | tlbinvPage (h : Hdr) (a : BitVec 6)
  /-- `TLBINV_RANGE` (R389). -/
  | tlbinvRange (h : Hdr) (a : BitVec 6) (b : BitVec 6)
  /-- `TLBINV_ALL` (R389). -/
  | tlbinvAll (h : Hdr)
  /-- `PERF` (R433). -/
  | perf (h : Hdr) (d : BitVec 6) (b : BitVec 6)
  /-- `TIME` (R434). -/
  | time (h : Hdr) (d : BitVec 6) (s : Bool)
  /-- `NOP` (R114). -/
  | nop (h : Hdr)
  /-- `EXIT` (R114). -/
  | exit (h : Hdr)
  /-- `YIELD` (R114). -/
  | yield (h : Hdr)
  /-- `SLEEP` (R114). -/
  | sleep (h : Hdr) (n : BitVec 12)
  /-- `REGION` (R115). -/
  | region (h : Hdr)
  /-- `TRAP` (R116). -/
  | trap (h : Hdr) (n : BitVec 12)
  /-- `ERET` (R117). -/
  | eret (h : Hdr)
  /-- `BRA` (R105). -/
  | bra (h : Hdr) (off : BitVec 18)
  /-- `BRX` (R106). -/
  | brx (h : Hdr) (a : BitVec 6)
  /-- `CALL` (R107). -/
  | call (h : Hdr) (off : BitVec 18)
  /-- `CALL_REGISTER` (R107). -/
  | callRegister (h : Hdr) (a : BitVec 6)
  /-- `RET` (R108). -/
  | ret (h : Hdr) (a : BitVec 6)
  /-- `LOOP` (R111). -/
  | loop (h : Hdr) (l : BitVec 2) (n : BitVec 8) (k : BitVec 8)
  /-- `LOOP_REGISTER` (R111). -/
  | loopRegister (h : Hdr) (l : BitVec 2) (n : BitVec 8) (s : BitVec 6)
  /-- `LBRK` (R113). -/
  | lbrk (h : Hdr) (l : BitVec 2)
  /-- `IALU_ADD` (R126). -/
  | ialuAdd (h : Hdr) (m : Bool) (d : BitVec 6) (a : BitVec 6) (b : BitVec 6)
  /-- `IALU_SUB` (R126). -/
  | ialuSub (h : Hdr) (m : Bool) (d : BitVec 6) (a : BitVec 6) (b : BitVec 6)
  /-- `IALU_MUL` (R126). -/
  | ialuMul (h : Hdr) (m : Bool) (d : BitVec 6) (a : BitVec 6) (b : BitVec 6)
  /-- `IALU_MULHI_N32` (R126). -/
  | ialuMulhiN32 (h : Hdr) (m : Bool) (d : BitVec 6) (a : BitVec 6) (b : BitVec 6)
  /-- `IALU_MULHI_I32` (R126). -/
  | ialuMulhiI32 (h : Hdr) (m : Bool) (d : BitVec 6) (a : BitVec 6) (b : BitVec 6)
  /-- `IALU_MAD` (R130). -/
  | ialuMad (h : Hdr) (m : Bool) (d : BitVec 6) (a : BitVec 6) (b : BitVec 6) (c : BitVec 6) (sc : Bool)
  /-- `IALU_DIV_N32` (R127). -/
  | ialuDivN32 (h : Hdr) (m : Bool) (d : BitVec 6) (a : BitVec 6) (b : BitVec 6)
  /-- `IALU_DIV_I32` (R127). -/
  | ialuDivI32 (h : Hdr) (m : Bool) (d : BitVec 6) (a : BitVec 6) (b : BitVec 6)
  /-- `IALU_REM_N32` (R127). -/
  | ialuRemN32 (h : Hdr) (m : Bool) (d : BitVec 6) (a : BitVec 6) (b : BitVec 6)
  /-- `IALU_REM_I32` (R127). -/
  | ialuRemI32 (h : Hdr) (m : Bool) (d : BitVec 6) (a : BitVec 6) (b : BitVec 6)
  /-- `IALU_MIN_N32` (R126). -/
  | ialuMinN32 (h : Hdr) (m : Bool) (d : BitVec 6) (a : BitVec 6) (b : BitVec 6)
  /-- `IALU_MIN_I32` (R126). -/
  | ialuMinI32 (h : Hdr) (m : Bool) (d : BitVec 6) (a : BitVec 6) (b : BitVec 6)
  /-- `IALU_MAX_N32` (R126). -/
  | ialuMaxN32 (h : Hdr) (m : Bool) (d : BitVec 6) (a : BitVec 6) (b : BitVec 6)
  /-- `IALU_MAX_I32` (R126). -/
  | ialuMaxI32 (h : Hdr) (m : Bool) (d : BitVec 6) (a : BitVec 6) (b : BitVec 6)
  /-- `IALU_AND` (R126). -/
  | ialuAnd (h : Hdr) (m : Bool) (d : BitVec 6) (a : BitVec 6) (b : BitVec 6)
  /-- `IALU_OR` (R126). -/
  | ialuOr (h : Hdr) (m : Bool) (d : BitVec 6) (a : BitVec 6) (b : BitVec 6)
  /-- `IALU_XOR` (R126). -/
  | ialuXor (h : Hdr) (m : Bool) (d : BitVec 6) (a : BitVec 6) (b : BitVec 6)
  /-- `IALU_SHL` (R127). -/
  | ialuShl (h : Hdr) (m : Bool) (d : BitVec 6) (a : BitVec 6) (b : BitVec 6)
  /-- `IALU_SHR` (R127). -/
  | ialuShr (h : Hdr) (m : Bool) (d : BitVec 6) (a : BitVec 6) (b : BitVec 6)
  /-- `IALU_SRA` (R127). -/
  | ialuSra (h : Hdr) (m : Bool) (d : BitVec 6) (a : BitVec 6) (b : BitVec 6)
  /-- `IALU_ROT` (R126). -/
  | ialuRot (h : Hdr) (m : Bool) (d : BitVec 6) (a : BitVec 6) (b : BitVec 6)
  /-- `IALU_ABS` (R128). -/
  | ialuAbs (h : Hdr) (m : Bool) (d : BitVec 6) (a : BitVec 6)
  /-- `IALU_NEG` (R128). -/
  | ialuNeg (h : Hdr) (m : Bool) (d : BitVec 6) (a : BitVec 6)
  /-- `IALU_NOT` (R128). -/
  | ialuNot (h : Hdr) (m : Bool) (d : BitVec 6) (a : BitVec 6)
  /-- `IALU_CLZ` (R128). -/
  | ialuClz (h : Hdr) (m : Bool) (d : BitVec 6) (a : BitVec 6)
  /-- `IALU_POPC` (R128). -/
  | ialuPopc (h : Hdr) (m : Bool) (d : BitVec 6) (a : BitVec 6)
  /-- `IALU_BREV` (R128). -/
  | ialuBrev (h : Hdr) (m : Bool) (d : BitVec 6) (a : BitVec 6)
  /-- `IALU_MOV` (R128). -/
  | ialuMov (h : Hdr) (m : Bool) (d : BitVec 6) (a : BitVec 6)
  /-- `IALU_BFX_N32` (R130). -/
  | ialuBfxN32 (h : Hdr) (m : Bool) (d : BitVec 6) (a : BitVec 6) (pos : BitVec 5) (len : BitVec 6)
  /-- `IALU_BFX_I32` (R130). -/
  | ialuBfxI32 (h : Hdr) (m : Bool) (d : BitVec 6) (a : BitVec 6) (pos : BitVec 5) (len : BitVec 6)
  /-- `IALU_BFI` (R130). -/
  | ialuBfi (h : Hdr) (m : Bool) (d : BitVec 6) (a : BitVec 6) (b : BitVec 6) (pos : BitVec 5) (len : BitVec 6)
  /-- `IALU_SEL` (R130). -/
  | ialuSel (h : Hdr) (m : Bool) (d : BitVec 6) (a : BitVec 6) (b : BitVec 6) (p : BitVec 2)
  /-- `IALU_LEA` (R130). -/
  | ialuLea (h : Hdr) (m : Bool) (d : BitVec 6) (a : BitVec 6) (b : BitVec 6) (sh : BitVec 3) (zx : Bool)
  /-- `IALU_WID` (R130). -/
  | ialuWid (h : Hdr) (m : Bool) (d : BitVec 6) (sel : BitVec 3) (pr : Bool)
  /-- `IALU_ESCAPE_64` (R131). -/
  | ialuEscape64 (h : Hdr) (m : Bool) (d : BitVec 6) (a : BitVec 6) (b : BitVec 6) (ifn : BitVec 5) (ty : BitVec 2)
  /-- `IALUI_ADD` (R129). -/
  | ialuiAdd (h : Hdr) (k : Bool) (d : BitVec 6) (a : BitVec 6) (imm : BitVec 6)
  /-- `IALUI_SUB` (R129). -/
  | ialuiSub (h : Hdr) (k : Bool) (d : BitVec 6) (a : BitVec 6) (imm : BitVec 6)
  /-- `IALUI_MUL` (R129). -/
  | ialuiMul (h : Hdr) (k : Bool) (d : BitVec 6) (a : BitVec 6) (imm : BitVec 6)
  /-- `IALUI_MIN_N32` (R129). -/
  | ialuiMinN32 (h : Hdr) (k : Bool) (d : BitVec 6) (a : BitVec 6) (imm : BitVec 6)
  /-- `IALUI_MIN_I32` (R129). -/
  | ialuiMinI32 (h : Hdr) (k : Bool) (d : BitVec 6) (a : BitVec 6) (imm : BitVec 6)
  /-- `IALUI_MAX_N32` (R129). -/
  | ialuiMaxN32 (h : Hdr) (k : Bool) (d : BitVec 6) (a : BitVec 6) (imm : BitVec 6)
  /-- `IALUI_MAX_I32` (R129). -/
  | ialuiMaxI32 (h : Hdr) (k : Bool) (d : BitVec 6) (a : BitVec 6) (imm : BitVec 6)
  /-- `IALUI_AND` (R129). -/
  | ialuiAnd (h : Hdr) (k : Bool) (d : BitVec 6) (a : BitVec 6) (imm : BitVec 6)
  /-- `IALUI_OR` (R129). -/
  | ialuiOr (h : Hdr) (k : Bool) (d : BitVec 6) (a : BitVec 6) (imm : BitVec 6)
  /-- `IALUI_XOR` (R129). -/
  | ialuiXor (h : Hdr) (k : Bool) (d : BitVec 6) (a : BitVec 6) (imm : BitVec 6)
  /-- `IALUI_SHL` (R129). -/
  | ialuiShl (h : Hdr) (k : Bool) (d : BitVec 6) (a : BitVec 6) (imm : BitVec 6)
  /-- `IALUI_SHR` (R129). -/
  | ialuiShr (h : Hdr) (k : Bool) (d : BitVec 6) (a : BitVec 6) (imm : BitVec 6)
  /-- `IALUI_SRA` (R129). -/
  | ialuiSra (h : Hdr) (k : Bool) (d : BitVec 6) (a : BitVec 6) (imm : BitVec 6)
  /-- `IALUI_ROT` (R129). -/
  | ialuiRot (h : Hdr) (k : Bool) (d : BitVec 6) (a : BitVec 6) (imm : BitVec 6)
  /-- `IALUI_LI` (R129). -/
  | ialuiLi (h : Hdr) (k : Bool) (d : BitVec 6) (imm : BitVec 12)
  /-- `SALU_ADD` (R132). -/
  | saluAdd (h : Hdr) (d : BitVec 6) (a : BitVec 6) (b : BitVec 6)
  /-- `SALU_SUB` (R132). -/
  | saluSub (h : Hdr) (d : BitVec 6) (a : BitVec 6) (b : BitVec 6)
  /-- `SALU_MUL` (R132). -/
  | saluMul (h : Hdr) (d : BitVec 6) (a : BitVec 6) (b : BitVec 6)
  /-- `SALU_MULHI_N32` (R132). -/
  | saluMulhiN32 (h : Hdr) (d : BitVec 6) (a : BitVec 6) (b : BitVec 6)
  /-- `SALU_MULHI_I32` (R132). -/
  | saluMulhiI32 (h : Hdr) (d : BitVec 6) (a : BitVec 6) (b : BitVec 6)
  /-- `SALU_MAD` (R132). -/
  | saluMad (h : Hdr) (d : BitVec 6) (a : BitVec 6) (b : BitVec 6) (c : BitVec 6)
  /-- `SALU_DIV_N32` (R132). -/
  | saluDivN32 (h : Hdr) (d : BitVec 6) (a : BitVec 6) (b : BitVec 6)
  /-- `SALU_DIV_I32` (R132). -/
  | saluDivI32 (h : Hdr) (d : BitVec 6) (a : BitVec 6) (b : BitVec 6)
  /-- `SALU_REM_N32` (R132). -/
  | saluRemN32 (h : Hdr) (d : BitVec 6) (a : BitVec 6) (b : BitVec 6)
  /-- `SALU_REM_I32` (R132). -/
  | saluRemI32 (h : Hdr) (d : BitVec 6) (a : BitVec 6) (b : BitVec 6)
  /-- `SALU_MIN_N32` (R132). -/
  | saluMinN32 (h : Hdr) (d : BitVec 6) (a : BitVec 6) (b : BitVec 6)
  /-- `SALU_MIN_I32` (R132). -/
  | saluMinI32 (h : Hdr) (d : BitVec 6) (a : BitVec 6) (b : BitVec 6)
  /-- `SALU_MAX_N32` (R132). -/
  | saluMaxN32 (h : Hdr) (d : BitVec 6) (a : BitVec 6) (b : BitVec 6)
  /-- `SALU_MAX_I32` (R132). -/
  | saluMaxI32 (h : Hdr) (d : BitVec 6) (a : BitVec 6) (b : BitVec 6)
  /-- `SALU_AND` (R132). -/
  | saluAnd (h : Hdr) (d : BitVec 6) (a : BitVec 6) (b : BitVec 6)
  /-- `SALU_OR` (R132). -/
  | saluOr (h : Hdr) (d : BitVec 6) (a : BitVec 6) (b : BitVec 6)
  /-- `SALU_XOR` (R132). -/
  | saluXor (h : Hdr) (d : BitVec 6) (a : BitVec 6) (b : BitVec 6)
  /-- `SALU_SHL` (R132). -/
  | saluShl (h : Hdr) (d : BitVec 6) (a : BitVec 6) (b : BitVec 6)
  /-- `SALU_SHR` (R132). -/
  | saluShr (h : Hdr) (d : BitVec 6) (a : BitVec 6) (b : BitVec 6)
  /-- `SALU_SRA` (R132). -/
  | saluSra (h : Hdr) (d : BitVec 6) (a : BitVec 6) (b : BitVec 6)
  /-- `SALU_ROT` (R132). -/
  | saluRot (h : Hdr) (d : BitVec 6) (a : BitVec 6) (b : BitVec 6)
  /-- `SALU_ABS` (R132). -/
  | saluAbs (h : Hdr) (d : BitVec 6) (a : BitVec 6)
  /-- `SALU_NEG` (R132). -/
  | saluNeg (h : Hdr) (d : BitVec 6) (a : BitVec 6)
  /-- `SALU_NOT` (R132). -/
  | saluNot (h : Hdr) (d : BitVec 6) (a : BitVec 6)
  /-- `SALU_CLZ` (R132). -/
  | saluClz (h : Hdr) (d : BitVec 6) (a : BitVec 6)
  /-- `SALU_POPC` (R132). -/
  | saluPopc (h : Hdr) (d : BitVec 6) (a : BitVec 6)
  /-- `SALU_BREV` (R132). -/
  | saluBrev (h : Hdr) (d : BitVec 6) (a : BitVec 6)
  /-- `SALU_MOV` (R132). -/
  | saluMov (h : Hdr) (d : BitVec 6) (a : BitVec 6)
  /-- `SALU_BFX_N32` (R132). -/
  | saluBfxN32 (h : Hdr) (d : BitVec 6) (a : BitVec 6) (pos : BitVec 5) (len : BitVec 6)
  /-- `SALU_BFX_I32` (R132). -/
  | saluBfxI32 (h : Hdr) (d : BitVec 6) (a : BitVec 6) (pos : BitVec 5) (len : BitVec 6)
  /-- `SALU_BFI` (R132). -/
  | saluBfi (h : Hdr) (d : BitVec 6) (a : BitVec 6) (b : BitVec 6) (pos : BitVec 5) (len : BitVec 6)
  /-- `SALU_LEA` (R132). -/
  | saluLea (h : Hdr) (d : BitVec 6) (a : BitVec 6) (b : BitVec 6) (sh : BitVec 3) (zx : Bool)
  /-- `SALU_WID` (R132). -/
  | saluWid (h : Hdr) (d : BitVec 6) (sel : BitVec 3) (pr : Bool)
  /-- `SALU_ESCAPE_64` (R131). -/
  | saluEscape64 (h : Hdr) (d : BitVec 6) (a : BitVec 6) (b : BitVec 6) (ifn : BitVec 5) (ty : BitVec 2)
  /-- `SALUI_ADD` (R129). -/
  | saluiAdd (h : Hdr) (k : Bool) (d : BitVec 6) (a : BitVec 6) (imm : BitVec 6)
  /-- `SALUI_SUB` (R129). -/
  | saluiSub (h : Hdr) (k : Bool) (d : BitVec 6) (a : BitVec 6) (imm : BitVec 6)
  /-- `SALUI_MUL` (R129). -/
  | saluiMul (h : Hdr) (k : Bool) (d : BitVec 6) (a : BitVec 6) (imm : BitVec 6)
  /-- `SALUI_MIN_N32` (R129). -/
  | saluiMinN32 (h : Hdr) (k : Bool) (d : BitVec 6) (a : BitVec 6) (imm : BitVec 6)
  /-- `SALUI_MIN_I32` (R129). -/
  | saluiMinI32 (h : Hdr) (k : Bool) (d : BitVec 6) (a : BitVec 6) (imm : BitVec 6)
  /-- `SALUI_MAX_N32` (R129). -/
  | saluiMaxN32 (h : Hdr) (k : Bool) (d : BitVec 6) (a : BitVec 6) (imm : BitVec 6)
  /-- `SALUI_MAX_I32` (R129). -/
  | saluiMaxI32 (h : Hdr) (k : Bool) (d : BitVec 6) (a : BitVec 6) (imm : BitVec 6)
  /-- `SALUI_AND` (R129). -/
  | saluiAnd (h : Hdr) (k : Bool) (d : BitVec 6) (a : BitVec 6) (imm : BitVec 6)
  /-- `SALUI_OR` (R129). -/
  | saluiOr (h : Hdr) (k : Bool) (d : BitVec 6) (a : BitVec 6) (imm : BitVec 6)
  /-- `SALUI_XOR` (R129). -/
  | saluiXor (h : Hdr) (k : Bool) (d : BitVec 6) (a : BitVec 6) (imm : BitVec 6)
  /-- `SALUI_SHL` (R129). -/
  | saluiShl (h : Hdr) (k : Bool) (d : BitVec 6) (a : BitVec 6) (imm : BitVec 6)
  /-- `SALUI_SHR` (R129). -/
  | saluiShr (h : Hdr) (k : Bool) (d : BitVec 6) (a : BitVec 6) (imm : BitVec 6)
  /-- `SALUI_SRA` (R129). -/
  | saluiSra (h : Hdr) (k : Bool) (d : BitVec 6) (a : BitVec 6) (imm : BitVec 6)
  /-- `SALUI_ROT` (R129). -/
  | saluiRot (h : Hdr) (k : Bool) (d : BitVec 6) (a : BitVec 6) (imm : BitVec 6)
  /-- `SALUI_LI` (R129). -/
  | saluiLi (h : Hdr) (k : Bool) (d : BitVec 6) (imm : BitVec 12)
  /-- `FADD` (R136). -/
  | fadd (h : Hdr) (m : Bool) (d : BitVec 6) (a : BitVec 6) (b : BitVec 6)
  /-- `FSUB` (R136). -/
  | fsub (h : Hdr) (m : Bool) (d : BitVec 6) (a : BitVec 6) (b : BitVec 6)
  /-- `FMUL` (R136). -/
  | fmul (h : Hdr) (m : Bool) (d : BitVec 6) (a : BitVec 6) (b : BitVec 6)
  /-- `FMIN` (R136). -/
  | fmin (h : Hdr) (m : Bool) (d : BitVec 6) (a : BitVec 6) (b : BitVec 6)
  /-- `FMAX` (R136). -/
  | fmax (h : Hdr) (m : Bool) (d : BitVec 6) (a : BitVec 6) (b : BitVec 6)
  /-- `FNEG` (R136). -/
  | fneg (h : Hdr) (m : Bool) (d : BitVec 6) (a : BitVec 6)
  /-- `FABS` (R136). -/
  | fabs (h : Hdr) (m : Bool) (d : BitVec 6) (a : BitVec 6)
  /-- `FSCL` (R136). -/
  | fscl (h : Hdr) (m : Bool) (d : BitVec 6) (a : BitVec 6) (b : BitVec 6)
  /-- `FCLASS` (R136). -/
  | fclass (h : Hdr) (m : Bool) (d : BitVec 6) (a : BitVec 6)
  /-- `FRND` (R136). -/
  | frnd (h : Hdr) (m : Bool) (d : BitVec 6) (a : BitVec 6) (r : BitVec 2)
  /-- `FALU_ESCAPE` (R137). -/
  | faluEscape (h : Hdr) (m : Bool) (d : BitVec 6) (a : BitVec 6) (b : BitVec 6) (ifn : BitVec 5) (ty : BitVec 2) (bs : Bool)
  /-- `FFMA` (R138). -/
  | ffma (h : Hdr) (m : Bool) (d : BitVec 6) (a : BitVec 6) (b : BitVec 6) (c : BitVec 6) (ty : BitVec 2) (bs : Bool) (sc : Bool) (rm : BitVec 2) (np : Bool) (na : Bool)
  /-- `FEXP2` (R139). -/
  | fexp2 (h : Hdr) (m : Bool) (d : BitVec 6) (a : BitVec 6)
  /-- `FLOG2` (R139). -/
  | flog2 (h : Hdr) (m : Bool) (d : BitVec 6) (a : BitVec 6)
  /-- `FRCP` (R139). -/
  | frcp (h : Hdr) (m : Bool) (d : BitVec 6) (a : BitVec 6)
  /-- `FRSQ` (R139). -/
  | frsq (h : Hdr) (m : Bool) (d : BitVec 6) (a : BitVec 6)
  /-- `FSQRT` (R139). -/
  | fsqrt (h : Hdr) (m : Bool) (d : BitVec 6) (a : BitVec 6)
  /-- `FSIN` (R139). -/
  | fsin (h : Hdr) (m : Bool) (d : BitVec 6) (a : BitVec 6)
  /-- `FCOS` (R139). -/
  | fcos (h : Hdr) (m : Bool) (d : BitVec 6) (a : BitVec 6)
  /-- `FTANH` (R139). -/
  | ftanh (h : Hdr) (m : Bool) (d : BitVec 6) (a : BitVec 6)
  /-- `FERF` (R139). -/
  | ferf (h : Hdr) (m : Bool) (d : BitVec 6) (a : BitVec 6)
  /-- `CVT` (R141). -/
  | cvt (h : Hdr) (m : Bool) (d : BitVec 6) (a : BitVec 6) (st : BitVec 4) (dt : BitVec 4) (rm : BitVec 2) (dith : Bool) (js : BitVec 4) (jd : BitVec 4)
  /-- `QNT` (R142). -/
  | qnt (h : Hdr) (m : Bool) (d : BitVec 6) (a : BitVec 6) (e : BitVec 6) (sb : BitVec 2) (fmt : BitVec 3) (st : BitVec 2) (dith : Bool)
  /-- `DQ` (R143). -/
  | dq (h : Hdr) (m : Bool) (d : BitVec 6) (a : BitVec 6) (e : BitVec 6) (sb : BitVec 2) (fmt : BitVec 3) (dt : BitVec 2)
  /-- `PACK` (R144). -/
  | pack (h : Hdr) (m : Bool) (d : BitVec 6) (a : BitVec 6) (j : BitVec 4) (w : BitVec 2)
  /-- `UNPACK` (R144). -/
  | unpack (h : Hdr) (m : Bool) (d : BitVec 6) (a : BitVec 6) (j : BitVec 4) (w : BitVec 2)
  /-- `CMP_EQ` (R134). -/
  | cmpEq (h : Hdr) (m : Bool) (n : Bool) (p : BitVec 2) (a : BitVec 6) (b : BitVec 6)
  /-- `CMP_NE` (R134). -/
  | cmpNe (h : Hdr) (m : Bool) (n : Bool) (p : BitVec 2) (a : BitVec 6) (b : BitVec 6)
  /-- `CMP_LT_I32` (R134). -/
  | cmpLtI32 (h : Hdr) (m : Bool) (n : Bool) (p : BitVec 2) (a : BitVec 6) (b : BitVec 6)
  /-- `CMP_LE_I32` (R134). -/
  | cmpLeI32 (h : Hdr) (m : Bool) (n : Bool) (p : BitVec 2) (a : BitVec 6) (b : BitVec 6)
  /-- `CMP_GT_I32` (R134). -/
  | cmpGtI32 (h : Hdr) (m : Bool) (n : Bool) (p : BitVec 2) (a : BitVec 6) (b : BitVec 6)
  /-- `CMP_GE_I32` (R134). -/
  | cmpGeI32 (h : Hdr) (m : Bool) (n : Bool) (p : BitVec 2) (a : BitVec 6) (b : BitVec 6)
  /-- `CMP_LT_N32` (R134). -/
  | cmpLtN32 (h : Hdr) (m : Bool) (n : Bool) (p : BitVec 2) (a : BitVec 6) (b : BitVec 6)
  /-- `CMP_LE_N32` (R134). -/
  | cmpLeN32 (h : Hdr) (m : Bool) (n : Bool) (p : BitVec 2) (a : BitVec 6) (b : BitVec 6)
  /-- `CMP_GT_N32` (R134). -/
  | cmpGtN32 (h : Hdr) (m : Bool) (n : Bool) (p : BitVec 2) (a : BitVec 6) (b : BitVec 6)
  /-- `CMP_GE_N32` (R134). -/
  | cmpGeN32 (h : Hdr) (m : Bool) (n : Bool) (p : BitVec 2) (a : BitVec 6) (b : BitVec 6)
  /-- `FCMP_EQ` (R135). -/
  | fcmpEq (h : Hdr) (m : Bool) (n : Bool) (q : Bool) (p : BitVec 2) (a : BitVec 6) (b : BitVec 6)
  /-- `FCMP_NE` (R135). -/
  | fcmpNe (h : Hdr) (m : Bool) (n : Bool) (q : Bool) (p : BitVec 2) (a : BitVec 6) (b : BitVec 6)
  /-- `FCMP_LT` (R135). -/
  | fcmpLt (h : Hdr) (m : Bool) (n : Bool) (q : Bool) (p : BitVec 2) (a : BitVec 6) (b : BitVec 6)
  /-- `FCMP_LE` (R135). -/
  | fcmpLe (h : Hdr) (m : Bool) (n : Bool) (q : Bool) (p : BitVec 2) (a : BitVec 6) (b : BitVec 6)
  /-- `FCMP_GT` (R135). -/
  | fcmpGt (h : Hdr) (m : Bool) (n : Bool) (q : Bool) (p : BitVec 2) (a : BitVec 6) (b : BitVec 6)
  /-- `FCMP_GE` (R135). -/
  | fcmpGe (h : Hdr) (m : Bool) (n : Bool) (q : Bool) (p : BitVec 2) (a : BitVec 6) (b : BitVec 6)
  /-- `FCMP_UN` (R135). -/
  | fcmpUn (h : Hdr) (m : Bool) (n : Bool) (q : Bool) (p : BitVec 2) (a : BitVec 6) (b : BitVec 6)
  /-- `FCMP_ORD` (R135). -/
  | fcmpOrd (h : Hdr) (m : Bool) (n : Bool) (q : Bool) (p : BitVec 2) (a : BitVec 6) (b : BitVec 6)
  /-- `VOTE` (R146). -/
  | vote (h : Hdr) (m : Bool) (d : BitVec 6) (p : BitVec 2) (b : BitVec 6)
  /-- `SHFL` (R146). -/
  | shfl (h : Hdr) (m : Bool) (d : BitVec 6) (a : BitVec 6) (b : BitVec 6)
  /-- `PUSH` (R146). -/
  | push (h : Hdr) (d : BitVec 6) (a : BitVec 6) (b : BitVec 6)
  /-- `BCAST` (R146). -/
  | bcast (h : Hdr) (m : Bool) (d : BitVec 6) (a : BitVec 6) (k : BitVec 5)
  /-- `SCAN` (R148). -/
  | scan (h : Hdr) (m : Bool) (d : BitVec 6) (a : BitVec 6) (op : BitVec 5) (anc : BitVec 9) (excl : Bool) (q : Bool) (mask : BitVec 6)
  /-- `RED` (R148). -/
  | red (h : Hdr) (m : Bool) (d : BitVec 6) (a : BitVec 6) (op : BitVec 5) (anc : BitVec 9) (raw : Bool) (sd : Bool) (q : Bool) (mask : BitVec 6)
  /-- `ELECT` (R146). -/
  | elect (h : Hdr) (p : BitVec 2) (a : BitVec 6) (b : BitVec 6)
  /-- `TOPK` (R150). -/
  | topk (h : Hdr) (d : BitVec 6) (a : BitVec 6) (p : BitVec 2) (ty : BitVec 2) (ks : Bool) (kv : BitVec 6) (small : Bool) (mask : BitVec 6)
  /-- `HIST` (R151). -/
  | hist (h : Hdr) (d : BitVec 6) (a : BitVec 6) (b : BitVec 6) (shift : BitVec 5) (w : BitVec 3) (mask : BitVec 6) (ty : BitVec 2)
  /-- `RNG` (R152). -/
  | rng (h : Hdr) (d : BitVec 6) (a : BitVec 6) (b : BitVec 6) (x : BitVec 6) (bsel : Bool) (n : BitVec 2)
  /-- `WALK` (R149). -/
  | walk (h : Hdr) (d : BitVec 6) (a : BitVec 6) (op : BitVec 5) (anc : BitVec 9) (mode : BitVec 2) (q : Bool) (mask : BitVec 6) (seg : BitVec 6)
  /-- `JOIN` (R97). -/
  | join (h : Hdr) (d : BitVec 6)
  /-- `LEAVE` (R97). -/
  | leave (h : Hdr) (d : BitVec 6)
  /-- `WAIT` (R98). -/
  | wait (h : Hdr) (d : BitVec 6)
  /-- `TRYWAIT` (R99). -/
  | trywait (h : Hdr) (d : BitVec 6) (a : BitVec 6)
  /-- `MSET` (R100). -/
  | mset (h : Hdr) (d : BitVec 6) (a : BitVec 6)
  /-- `MMOV` (R100). -/
  | mmov (h : Hdr) (d : BitVec 6) (a : BitVec 6)
  /-- `MAND` (R100). -/
  | mand (h : Hdr) (d : BitVec 6) (a : BitVec 6) (b : BitVec 6)
  /-- `MOR` (R100). -/
  | mor (h : Hdr) (d : BitVec 6) (a : BitVec 6) (b : BitVec 6)
  /-- `MXOR` (R100). -/
  | mxor (h : Hdr) (d : BitVec 6) (a : BitVec 6) (b : BitVec 6)
  /-- `MNOT` (R100). -/
  | mnot (h : Hdr) (d : BitVec 6) (a : BitVec 6)
  /-- `MPOP` (R100). -/
  | mpop (h : Hdr) (d : BitVec 6) (a : BitVec 6)
  /-- `LD_N8` (R162). -/
  | ldN8 (h : Hdr) (mode : BitVec 2) (d : BitVec 6) (a : BitVec 6) (b : BitVec 6)
  /-- `LD_I8` (R162). -/
  | ldI8 (h : Hdr) (mode : BitVec 2) (d : BitVec 6) (a : BitVec 6) (b : BitVec 6)
  /-- `LD_N16` (R162). -/
  | ldN16 (h : Hdr) (mode : BitVec 2) (d : BitVec 6) (a : BitVec 6) (b : BitVec 6)
  /-- `LD_I16` (R162). -/
  | ldI16 (h : Hdr) (mode : BitVec 2) (d : BitVec 6) (a : BitVec 6) (b : BitVec 6)
  /-- `LD_32` (R162). -/
  | ld32 (h : Hdr) (mode : BitVec 2) (d : BitVec 6) (a : BitVec 6) (b : BitVec 6)
  /-- `LD_64` (R162). -/
  | ld64 (h : Hdr) (mode : BitVec 2) (d : BitVec 6) (a : BitVec 6) (b : BitVec 6)
  /-- `LD_128` (R162). -/
  | ld128 (h : Hdr) (mode : BitVec 2) (d : BitVec 6) (a : BitVec 6) (b : BitVec 6)
  /-- `LDFE_32` (R167). -/
  | ldfe32 (h : Hdr) (mode : BitVec 2) (d : BitVec 6) (a : BitVec 6) (b : BitVec 6)
  /-- `LDFE_64` (R167). -/
  | ldfe64 (h : Hdr) (mode : BitVec 2) (d : BitVec 6) (a : BitVec 6) (b : BitVec 6)
  /-- `LDFE_128` (R167). -/
  | ldfe128 (h : Hdr) (mode : BitVec 2) (d : BitVec 6) (a : BitVec 6) (b : BitVec 6)
  /-- `LDFE_CLR_32` (R167). -/
  | ldfeClr32 (h : Hdr) (mode : BitVec 2) (d : BitVec 6) (a : BitVec 6) (b : BitVec 6)
  /-- `LDFE_CLR_64` (R167). -/
  | ldfeClr64 (h : Hdr) (mode : BitVec 2) (d : BitVec 6) (a : BitVec 6) (b : BitVec 6)
  /-- `LDFE_CLR_128` (R167). -/
  | ldfeClr128 (h : Hdr) (mode : BitVec 2) (d : BitVec 6) (a : BitVec 6) (b : BitVec 6)
  /-- `ST_8` (R163). -/
  | st8 (h : Hdr) (mode : BitVec 2) (d : BitVec 6) (a : BitVec 6) (b : BitVec 6)
  /-- `ST_16` (R163). -/
  | st16 (h : Hdr) (mode : BitVec 2) (d : BitVec 6) (a : BitVec 6) (b : BitVec 6)
  /-- `ST_32` (R163). -/
  | st32 (h : Hdr) (mode : BitVec 2) (d : BitVec 6) (a : BitVec 6) (b : BitVec 6)
  /-- `ST_64` (R163). -/
  | st64 (h : Hdr) (mode : BitVec 2) (d : BitVec 6) (a : BitVec 6) (b : BitVec 6)
  /-- `ST_128` (R163). -/
  | st128 (h : Hdr) (mode : BitVec 2) (d : BitVec 6) (a : BitVec 6) (b : BitVec 6)
  /-- `STFE_32` (R169). -/
  | stfe32 (h : Hdr) (mode : BitVec 2) (d : BitVec 6) (a : BitVec 6) (b : BitVec 6)
  /-- `STFE_64` (R169). -/
  | stfe64 (h : Hdr) (mode : BitVec 2) (d : BitVec 6) (a : BitVec 6) (b : BitVec 6)
  /-- `STFE_128` (R169). -/
  | stfe128 (h : Hdr) (mode : BitVec 2) (d : BitVec 6) (a : BitVec 6) (b : BitVec 6)
  /-- `ATOM_ADD` (R172). -/
  | atomAdd (h : Hdr) (m : Bool) (d : BitVec 6) (a : BitVec 6) (b : BitVec 6) (mode : BitVec 2) (s : BitVec 6) (scope : BitVec 2) (w : Bool) (rt : Bool) (bs : Bool)
  /-- `ATOM_MIN_I` (R172). -/
  | atomMinI (h : Hdr) (m : Bool) (d : BitVec 6) (a : BitVec 6) (b : BitVec 6) (mode : BitVec 2) (s : BitVec 6) (scope : BitVec 2) (w : Bool) (rt : Bool) (bs : Bool)
  /-- `ATOM_MIN_N` (R172). -/
  | atomMinN (h : Hdr) (m : Bool) (d : BitVec 6) (a : BitVec 6) (b : BitVec 6) (mode : BitVec 2) (s : BitVec 6) (scope : BitVec 2) (w : Bool) (rt : Bool) (bs : Bool)
  /-- `ATOM_MAX_I` (R172). -/
  | atomMaxI (h : Hdr) (m : Bool) (d : BitVec 6) (a : BitVec 6) (b : BitVec 6) (mode : BitVec 2) (s : BitVec 6) (scope : BitVec 2) (w : Bool) (rt : Bool) (bs : Bool)
  /-- `ATOM_MAX_N` (R172). -/
  | atomMaxN (h : Hdr) (m : Bool) (d : BitVec 6) (a : BitVec 6) (b : BitVec 6) (mode : BitVec 2) (s : BitVec 6) (scope : BitVec 2) (w : Bool) (rt : Bool) (bs : Bool)
  /-- `ATOM_AND` (R172). -/
  | atomAnd (h : Hdr) (m : Bool) (d : BitVec 6) (a : BitVec 6) (b : BitVec 6) (mode : BitVec 2) (s : BitVec 6) (scope : BitVec 2) (w : Bool) (rt : Bool) (bs : Bool)
  /-- `ATOM_OR` (R172). -/
  | atomOr (h : Hdr) (m : Bool) (d : BitVec 6) (a : BitVec 6) (b : BitVec 6) (mode : BitVec 2) (s : BitVec 6) (scope : BitVec 2) (w : Bool) (rt : Bool) (bs : Bool)
  /-- `ATOM_XOR` (R172). -/
  | atomXor (h : Hdr) (m : Bool) (d : BitVec 6) (a : BitVec 6) (b : BitVec 6) (mode : BitVec 2) (s : BitVec 6) (scope : BitVec 2) (w : Bool) (rt : Bool) (bs : Bool)
  /-- `ATOM_XCHG` (R172). -/
  | atomXchg (h : Hdr) (m : Bool) (d : BitVec 6) (a : BitVec 6) (b : BitVec 6) (mode : BitVec 2) (s : BitVec 6) (scope : BitVec 2) (w : Bool) (rt : Bool) (bs : Bool)
  /-- `ATOM_CAS` (R172). -/
  | atomCas (h : Hdr) (m : Bool) (d : BitVec 6) (a : BitVec 6) (b : BitVec 6) (mode : BitVec 2) (s : BitVec 6) (scope : BitVec 2) (w : Bool) (rt : Bool) (cr : BitVec 6) (bs : Bool) (cs : Bool)
  /-- `ATOM_INC` (R172). -/
  | atomInc (h : Hdr) (m : Bool) (d : BitVec 6) (a : BitVec 6) (b : BitVec 6) (mode : BitVec 2) (s : BitVec 6) (scope : BitVec 2) (w : Bool) (rt : Bool) (bs : Bool)
  /-- `ATOM_INCB` (R172). -/
  | atomIncb (h : Hdr) (m : Bool) (d : BitVec 6) (a : BitVec 6) (b : BitVec 6) (mode : BitVec 2) (s : BitVec 6) (scope : BitVec 2) (w : Bool) (rt : Bool) (bs : Bool)
  /-- `AADD` (R176). -/
  | aadd (h : Hdr) (a : BitVec 6) (b : BitVec 6) (mode : BitVec 2) (s : BitVec 6) (scope : BitVec 2) (w : Bool) (bs : Bool)
  /-- `ORDEND` (R175). -/
  | ordend (h : Hdr)
  /-- `LOCK` (R177). -/
  | lock (h : Hdr) (d : BitVec 6) (a : BitVec 6) (b : BitVec 6)
  /-- `UNLOCK` (R179). -/
  | unlock (h : Hdr) (a : BitVec 6) (b : BitVec 6)
  /-- `PREF` (R180). -/
  | pref (h : Hdr) (m : Bool) (l : BitVec 2) (a : BitVec 6) (b : BitVec 6)
  /-- `FENCE_SYS` (R181). -/
  | fenceSys (h : Hdr)
  /-- `FENCE_WIN` (R181). -/
  | fenceWin (h : Hdr)
  /-- `WAITC` (R47). -/
  | waitc (h : Hdr) (ld : BitVec 6) (st : BitVec 6) (cp : BitVec 6) (tl : BitVec 6)
  /-- `ACQ` (R92). -/
  | acq (h : Hdr) (d : BitVec 6)
  /-- `REL` (R92). -/
  | rel (h : Hdr) (d : BitVec 6)
  /-- `MMA_E2M1` (R219). -/
  | mmaE2m1 (h : Hdr) (m : Bool) (acc : BitVec 3) (a : BitVec 6) (b : BitVec 6) (sa : BitVec 6) (bsp : Bool) (clr : Bool)
  /-- `MMA_E4M3` (R219). -/
  | mmaE4m3 (h : Hdr) (m : Bool) (acc : BitVec 3) (a : BitVec 6) (b : BitVec 6) (sa : BitVec 6) (sel : BitVec 2) (bsp : Bool) (clr : Bool)
  /-- `MMA_E5M2` (R219). -/
  | mmaE5m2 (h : Hdr) (m : Bool) (acc : BitVec 3) (a : BitVec 6) (b : BitVec 6) (sa : BitVec 6) (sel : BitVec 2) (bsp : Bool) (clr : Bool)
  /-- `MMA_E3M2` (R219). -/
  | mmaE3m2 (h : Hdr) (m : Bool) (acc : BitVec 3) (a : BitVec 6) (b : BitVec 6) (sa : BitVec 6) (sel : BitVec 2) (bsp : Bool) (clr : Bool)
  /-- `MMA_E2M3` (R219). -/
  | mmaE2m3 (h : Hdr) (m : Bool) (acc : BitVec 3) (a : BitVec 6) (b : BitVec 6) (sa : BitVec 6) (sel : BitVec 2) (bsp : Bool) (clr : Bool)
  /-- `MMA_I8` (R219). -/
  | mmaI8 (h : Hdr) (m : Bool) (acc : BitVec 3) (a : BitVec 6) (b : BitVec 6) (bsp : Bool) (clr : Bool)
  /-- `MMA_BF16` (R219). -/
  | mmaBf16 (h : Hdr) (m : Bool) (acc : BitVec 3) (a : BitVec 6) (b : BitVec 6) (bsp : Bool) (clr : Bool)
  /-- `MMA_F16` (R219). -/
  | mmaF16 (h : Hdr) (m : Bool) (acc : BitVec 3) (a : BitVec 6) (b : BitVec 6) (bsp : Bool) (clr : Bool)
  /-- `ACZ` (R229). -/
  | acz (h : Hdr) (a : BitVec 3)
  /-- `ACANCH` (R229). -/
  | acanch (h : Hdr) (i : BitVec 3) (a : BitVec 3) (j : BitVec 6)
  /-- `ACANCH_SCALAR` (R229). -/
  | acanchScalar (h : Hdr) (a : BitVec 3) (b : BitVec 6)
  /-- `ACVT` (R230). -/
  | acvt (h : Hdr) (d : BitVec 6) (acc : BitVec 3) (b : BitVec 6) (dt : BitVec 4) (c0 : BitVec 6) (n : BitVec 4) (noba : Bool) (nobb : Bool)
  /-- `ACLD` (R231). -/
  | acld (h : Hdr) (a : BitVec 3) (b : BitVec 6)
  /-- `ACST` (R231). -/
  | acst (h : Hdr) (a : BitVec 3) (b : BitVec 6)
  /-- `GANG` (R209). -/
  | gang (h : Hdr) (k : BitVec 3) (a : BitVec 6) (b : BitVec 6)
  /-- `TGSET` (R232). -/
  | tgset (h : Hdr) (d : BitVec 6) (a : BitVec 6) (b : BitVec 6)
  /-- `TGGET` (R233). -/
  | tgget (h : Hdr) (d : BitVec 6) (a : BitVec 6) (s : BitVec 3)
  /-- `WVF` (R245). -/
  | wvf (h : Hdr) (m : Bool) (d : BitVec 6) (a : BitVec 6) (u : Bool) (s : Bool) (x : Bool) (l : BitVec 3)
  /-- `WVI` (R246). -/
  | wvi (h : Hdr) (m : Bool) (d : BitVec 6) (a : BitVec 6)
  /-- `STW` (R248). -/
  | stw (h : Hdr) (m : Bool) (a : BitVec 6) (b : BitVec 6) (mode : BitVec 2) (l : BitVec 3) (x : Bool) (sx : Bool) (t : Bool) (n : BitVec 3) (rw : BitVec 4)
  /-- `LDW` (R249). -/
  | ldw (h : Hdr) (d : BitVec 6) (b : BitVec 6) (mode : BitVec 2) (rw : BitVec 4)
  /-- `WTHR` (R247). -/
  | wthr (h : Hdr) (d : BitVec 6) (a : BitVec 6) (n : BitVec 3)
  /-- `BOARD` (R270). -/
  | board (h : Hdr) (d : BitVec 6) (a : BitVec 6) (b : BitVec 6) (mr : BitVec 6) (all : Bool)
  /-- `BWAIT` (R277). -/
  | bwait (h : Hdr) (d : BitVec 6) (a : BitVec 6)
  /-- `BTRY` (R277). -/
  | btry (h : Hdr) (d : BitVec 6) (a : BitVec 6)
  /-- `BFREE` (R278). -/
  | bfree (h : Hdr) (a : BitVec 6)
  /-- `LAPR` (R279). -/
  | lapr (h : Hdr) (d : BitVec 6) (s : BitVec 3)
  /-- `JOB` (R302). -/
  | job (h : Hdr) (d : BitVec 6) (a : BitVec 6) (b : BitVec 6)
  /-- `SEND` (R300). -/
  | send (h : Hdr) (a : BitVec 6) (b : BitVec 6)
  /-- `RECV` (R301). -/
  | recv (h : Hdr) (d : BitVec 6) (a : BitVec 6)
  /-- `JSTAT` (R303). -/
  | jstat (h : Hdr) (d : BitVec 6) (a : BitVec 6) (s : BitVec 3)
  /-- `SEQLD` (R363). -/
  | seqld (h : Hdr) (d : BitVec 6) (a : BitVec 6) (b : BitVec 6)
  /-- `SEQST` (R363). -/
  | seqst (h : Hdr) (d : BitVec 6) (a : BitVec 6) (b : BitVec 6)
  /-- `ADMIT` (R364). -/
  | admitSeq (h : Hdr) (d : BitVec 6) (a : BitVec 6)
  /-- `RETIRE` (R365). -/
  | retire (h : Hdr) (a : BitVec 6) (b : BitVec 6)
  /-- `RETIRE_MIG` (R365). -/
  | retireMig (h : Hdr) (a : BitVec 6) (b : BitVec 6)
  /-- `TOKPUT` (R367). -/
  | tokput (h : Hdr) (d : BitVec 6) (a : BitVec 6) (b : BitVec 6)
  /-- `ACCEPT` (R369). -/
  | accept (h : Hdr) (d : BitVec 6) (a : BitVec 6) (b : BitVec 6)
  /-- `DRAFT` (R368). -/
  | draft (h : Hdr) (d : BitVec 6) (a : BitVec 6) (b : BitVec 6)
  /-- `STOPCK` (R366). -/
  | stopck (h : Hdr) (d : BitVec 6) (a : BitVec 6) (b : BitVec 6)
  /-- `CKPT` (R370). -/
  | ckpt (h : Hdr) (a : BitVec 6) (b : BitVec 6)
  /-- `PGREF` (R402). -/
  | pgref (h : Hdr) (d : BitVec 6) (a : BitVec 6) (b : BitVec 6)
  /-- `PGCOW` (R403). -/
  | pgcow (h : Hdr) (d : BitVec 6) (a : BitVec 6) (b : BitVec 6)
  /-- `PGMOVE` (R404). -/
  | pgmove (h : Hdr) (d : BitVec 6) (a : BitVec 6) (b : BitVec 6)
  /-- `PGPIN` (R405). -/
  | pgpin (h : Hdr) (d : BitVec 6) (a : BitVec 6) (b : BitVec 6)
  /-- `PGHAND` (R406). -/
  | pghand (h : Hdr) (d : BitVec 6) (a : BitVec 6) (b : BitVec 6)
  /-- `CATLD` (R407). -/
  | catld (h : Hdr) (d : BitVec 6) (a : BitVec 6) (b : BitVec 6)
  /-- `CATST` (R408). -/
  | catst (h : Hdr) (d : BitVec 6) (a : BitVec 6) (b : BitVec 6)
  /-- `BAR` (R310). -/
  | bar (h : Hdr) (d : BitVec 6) (a : BitVec 6) (p : Bool) (s : BitVec 2)
  /-- `BARR` (R310). -/
  | barr (h : Hdr) (d : BitVec 6) (a : BitVec 6) (p : Bool) (s : BitVec 2)
  /-- `BARR_REM` (R313). -/
  | barrRem (h : Hdr) (d : BitVec 6) (a : BitVec 6)
  /-- `BARW` (R310). -/
  | barw (h : Hdr) (d : BitVec 6) (a : BitVec 6) (p : Bool) (s : BitVec 2)
  /-- `BART` (R311). -/
  | bart (h : Hdr) (d : BitVec 6) (a : BitVec 6) (hint : BitVec 3) (p : Bool) (s : BitVec 2)
  /-- `GBAR` (R314). -/
  | gbar (h : Hdr) (d : BitVec 6)
  /-- `PHASE_RD` (R310). -/
  | phaseRd (h : Hdr) (d : BitVec 6) (a : BitVec 6) (p : Bool) (s : BitVec 2)
  /-- `PHASE_ARR` (R310). -/
  | phaseArr (h : Hdr) (d : BitVec 6) (a : BitVec 6) (p : Bool) (s : BitVec 2)
  /-- `PHASE_INIT` (R310). -/
  | phaseInit (h : Hdr) (d : BitVec 6) (a : BitVec 6) (p : Bool) (s : BitVec 2)
  /-- `TIMEOUT_STARVE` (R94). -/
  | timeoutStarve (gi : Nat)
  /-- `TIMEOUT_ACQ` (R92). -/
  | timeoutAcq (gi : Nat)
  /-- `TIMEOUT_FEWAIT` (R170). -/
  | timeoutFewait (gi : Nat)
  /-- `TIMEOUT_RENDEZ` (R212). -/
  | timeoutRendez (gi : Nat)
  /-- `TIMEOUT_BOARD` (R277). -/
  | timeoutBoard (gi : Nat)
  /-- `TIMEOUT_BARWAIT` (R312). -/
  | timeoutBarwait (gi : Nat)
  /-- `SLEEP_WAKE` (R114). -/
  | sleepWake (gi : Nat)
  /-- `ACQ_GRANT` (R92). -/
  | acqGrant (core : Nat)
  /-- `LOAD_DATA_ARRIVAL` (R162). -/
  | loadDataArrival (gi : Nat) (id : Nat)
  /-- `STORE_COMPLETION` (R44). -/
  | storeCompletion (gi : Nat) (id : Nat)
  /-- `LDFE_ACCESS` (R167). -/
  | ldfeAccess (gi : Nat) (id : Nat) (l : Fin 32)
  /-- `FENCE_SYS_COMPLETE` (R181). -/
  | fenceSysComplete (gi : Nat)
  /-- `WINDOW_BOUNDARY` (R181). -/
  | windowBoundary (cx : Nat)
  /-- `TLBINV_COMPLETE` (R389). -/
  | tlbinvComplete (gi : Nat)
  /-- `ORDER_TOKEN_PASS` (R188). -/
  | orderTokenPass (k : Nat)
  /-- `ORD_ATOMIC_APPLY` (R189). -/
  | ordAtomicApply (gi : Nat)
  /-- `TOKEN_PARK` (R191). -/
  | tokenPark (t : Nat)
  /-- `GRID_BARRIER_PARK` (R315). -/
  | gridBarrierPark (t : Nat)
  /-- `BARRIER_WAIT_COMPLETE` (R307). -/
  | barrierWaitComplete (gi : Nat)
  /-- `BART_EXPIRY` (R311). -/
  | bartExpiry (gi : Nat)
  /-- `REMOTE_ARRIVAL_APPLY` (R313). -/
  | remoteArrivalApply (cx : Nat) (port : Sender) (addr : Dword) (window : Nat) (wink : Nat) (unsync : Bool)
  /-- `BAND_GRANT` (R209). -/
  | bandGrant (t : Nat) (k : Nat)
  /-- `GANG_DISSOLVE` (R209). -/
  | gangDissolve (t : Nat)
  /-- `ENGINE_PASS_START` (R227). -/
  | enginePassStart (isl : Nat)
  /-- `TILE_OPERATION_COMPLETE` (R224). -/
  | tileOperationComplete (gi : Nat) (id : Nat)
  /-- `WAVE_COMPLETE` (R244). -/
  | waveComplete (gi : Nat) (id : Nat)
  /-- `RING_BEAT` (R263). -/
  | ringBeat (noise : List (Nat × Nat × Nat))
  /-- `BOARD_GRANT` (R270). -/
  | boardGrant (cluster : Nat)
  /-- `BOARDING_DEADLINE` (R272). -/
  | boardingDeadline (cluster : Nat)
  /-- `LAP_BOUNDARY` (R273). -/
  | lapBoundary (noise : List (Nat × Nat × Nat))
  /-- `GOVERNOR_EVALUATION` (R281). -/
  | governorEvaluation (held : Bool)
  /-- `DIE_RANGE_TAKE` (R324). -/
  | dieRangeTake (die : Nat) (k : Nat)
  /-- `TEAM_PLACEMENT` (R325). -/
  | teamPlacement (core : Nat)
  /-- `TEAM_PARK` (R442). -/
  | teamPark (t : Nat)
  /-- `TEAM_RESUME` (R494). -/
  | teamResume (core : Nat)
  /-- `GROUP_FREE` (R87). -/
  | groupFree (gi : Nat)
  /-- `KERNEL_END_SEQUENCE` (R328). -/
  | kernelEndSequence (k : Nat)
  /-- `KERNEL_CANCEL_COMPLETE` (R323). -/
  | kernelCancelComplete (k : Nat)
  /-- `JOB_SLOT_GRANT` (R302). -/
  | jobSlotGrant (core : Nat)
  /-- `JOB_EDGE_CHECK` (R290). -/
  | jobEdgeCheck (uid : Nat)
  /-- `JOB_GRANULE_ACCESS` (R195). -/
  | jobGranuleAccess (uid : Nat)
  /-- `JOB_MARK` (R292). -/
  | jobMark (uid : Nat)
  /-- `JOB_COPY` (R292). -/
  | jobCopy (uid : Nat)
  /-- `JOB_FILL` (R292). -/
  | jobFill (uid : Nat)
  /-- `JOB_CONV` (R293). -/
  | jobConv (uid : Nat)
  /-- `JOB_GATHER` (R411). -/
  | jobGather (uid : Nat)
  /-- `JOB_REDUCE` (R292). -/
  | jobReduce (uid : Nat)
  /-- `JOB_ALLGATHER` (R292). -/
  | jobAllgather (uid : Nat)
  /-- `JOB_BCAST` (R292). -/
  | jobBcast (uid : Nat)
  /-- `JOB_SUFFIX` (R372). -/
  | jobSuffix (uid : Nat)
  /-- `JOB_PGMOVE_CARD` (R400). -/
  | jobPgmoveCard (uid : Nat)
  /-- `JOB_PGCOW_CARD` (R400). -/
  | jobPgcowCard (uid : Nat)
  /-- `JOB_PGREF_CARD` (R400). -/
  | jobPgrefCard (uid : Nat)
  /-- `JOB_PGHAND_CARD` (R400). -/
  | jobPghandCard (uid : Nat)
  /-- `PAGE_IN_COMPLETE` (R411). -/
  | pageInComplete (k : Nat)
  /-- `PAGE_COPY_COMPLETE` (R395). -/
  | pageCopyComplete (k : Nat)
  /-- `HANDOFF_BYTES_ARRIVE` (R406). -/
  | handoffBytesArrive (cx : Nat) (port : Sender) (pool : Nat) (page : Nat) (off : Nat) (data : List Byte) (window : Nat)
      (wink : Nat) (unsync : Bool)
  /-- `HANDOFF_ACK` (R406). -/
  | handoffAck (x : Nat)
  /-- `MBOX_SLOT_WRITE` (R300). -/
  | mboxSlotWrite (k : Nat)
  /-- `MBOX_SLOT_READ` (R301). -/
  | mboxSlotRead (gi : Nat) (id : Nat)
  /-- `LINK_MESSAGE_ARRIVAL` (R299). -/
  | linkMessageArrival (cx : Nat) (port : Sender) (mbx : Dword) (dep : Nat) (data : BitVec 128) (window : Nat) (wink : Nat)
      (unsync : Bool)
  /-- `DEVICE_QUEUE_ENTRY_WRITE` (R336). -/
  | deviceQueueEntryWrite (cx : Nat) (q : Nat)
  /-- `DOORBELL_WRITE` (R333). -/
  | doorbellWrite (fn : Nat) (cx : Nat) (off : Nat) (val : Word)
  /-- `LAUNCH_KERNEL` (R319). -/
  | launchKernel (cx : Nat) (q : Nat)
  /-- `LAUNCH_RING` (R264). -/
  | launchRing (cx : Nat) (q : Nat)
  /-- `LAUNCH_GRANT` (R339). -/
  | launchGrant (cx : Nat) (q : Nat)
  /-- `LAUNCH_CANCEL` (R330). -/
  | launchCancel (cx : Nat) (q : Nat)
  /-- `LAUNCH_NOP` (R338). -/
  | launchNop (cx : Nat) (q : Nat)
  /-- `LAUNCH_BADENTRY` (R340). -/
  | launchBadentry (cx : Nat) (q : Nat)
  /-- `TIME_TRIGGERED_FIRING` (R343). -/
  | timeTriggeredFiring (cx : Nat) (slot : Nat)
  /-- `FAULT_RECORD_WRITE` (R427). -/
  | faultRecordWrite (cx : Nat)
  /-- `FQCI_WRITE` (R427). -/
  | fqciWrite (fn : Nat) (cx : Nat) (val : Word)
  /-- `RESOLVE_RESUME` (R430). -/
  | resolveResume (fn : Nat) (rid : Nat)
  /-- `RESOLVE_CANCEL` (R430). -/
  | resolveCancel (fn : Nat) (rid : Nat)
  /-- `BIND` (R437). -/
  | bind (fn : Nat) (addr : Nat)
  /-- `UNBIND` (R438). -/
  | unbind (fn : Nat) (cx : Nat)
  /-- `SAVE` (R446). -/
  | save (fn : Nat) (cx : Nat)
  /-- `SAVE_COMPLETE` (R446). -/
  | saveComplete (cx : Nat)
  /-- `RESTORE` (R447). -/
  | restore (fn : Nat) (cx : Nat) (addr : Nat)
  /-- `RESTORE_COMPLETE` (R447). -/
  | restoreComplete (cx : Nat)
  /-- `QRELOAD` (R457). -/
  | qreload (fn : Nat) (cx : Nat) (q : Nat)
  /-- `TLBINV_REGISTER_WRITE` (R456). -/
  | tlbinvRegisterWrite (fn : Nat) (cx : Nat)
  /-- `FUNCTION_RESET` (R451). -/
  | functionReset (fn : Nat)
  /-- `FUNCTION_RESET_COMPLETE` (R451). -/
  | functionResetComplete (fn : Nat)
  /-- `SHARE_WRITE` (R448). -/
  | shareWrite (fn : Nat) (f : Nat) (val : Dword)
  /-- `PEER_TABLE_WRITE` (R462). -/
  | peerTableWrite (fn : Nat) (val : Dword)
  /-- `LINK_RETRAIN_REQUEST` (R469). -/
  | linkRetrainRequest (fn : Nat) (p : Nat)
  /-- `MSIX_UNMASK` (R450). -/
  | msixUnmask (fn : Nat) (vec : Nat)
  /-- `REGISTER_WRITE` (R456). -/
  | registerWrite (fn : Nat) (off : Nat) (val : Dword)
  /-- `HOST_WINDOW_REQUEST` (R458). -/
  | hostWindowRequest (fn : Nat) (off : Nat) (kind : Nat) (n : Nat) (data : List Byte)
  /-- `PARTNER_DETECTED` (R468). -/
  | partnerDetected (p : Nat)
  /-- `TRAINING_END` (R468). -/
  | trainingEnd (p : Nat) (rate : Nat) (width : Nat) (full : Bool)
  /-- `TRAINING_FAILED` (R468). -/
  | trainingFailed (p : Nat)
  /-- `LANE_LOST` (R468). -/
  | laneLost (p : Nat)
  /-- `PARTNER_LOST` (R468). -/
  | partnerLost (p : Nat)
  /-- `DIE_LINK_FATAL_ERROR` (R460). -/
  | dieLinkFatalError
  /-- `REMOTE_STORE_ARRIVAL` (R466). -/
  | remoteStoreArrival (cx : Nat) (port : Sender) (kind : Nat) (a : Nat) (b : Nat) (c : Nat) (data : List Byte) (window : Nat)
      (wink : Nat) (unsync : Bool)
  /-- `REMOTE_ACK_ARRIVAL` (R467). -/
  | remoteAckArrival (x : Nat) (d : Nat)
  /-- `RETRANSMIT_LIMIT` (R463). -/
  | retransmitLimit (x : Nat)
  /-- `TIME_SYNC` (R465). -/
  | timeSync (offs : Int) (st : Nat)
  /-- `PACKAGE_RESET` (R470). -/
  | packageReset (strap0 : Bool) (strap1 : Bool) (linkOk : Bool)
  /-- `KEYLOAD` (R474). -/
  | keyload (req : List Byte) (secured : Bool)
  /-- `KEYERASE` (R474). -/
  | keyerase (req : List Byte) (secured : Bool)
  /-- `PCAP` (R475). -/
  | pcap (req : List Byte)
  /-- `FWLOAD` (R472). -/
  | fwload (req : List Byte)
  /-- `PSTAT` (R475). -/
  | pstat (req : List Byte)
  /-- `DOE_UNKNOWN_OBJECT` (R475). -/
  | doeUnknownObject (req : List Byte)
  /-- `GET_VERSION` (R473). -/
  | getVersion (data : List Byte)
  /-- `GET_CAPABILITIES` (R473). -/
  | getCapabilities (data : List Byte)
  /-- `NEGOTIATE_ALGORITHMS` (R473). -/
  | negotiateAlgorithms (data : List Byte)
  /-- `GET_DIGESTS` (R473). -/
  | getDigests (data : List Byte)
  /-- `GET_CERTIFICATE` (R473). -/
  | getCertificate (data : List Byte)
  /-- `CHALLENGE` (R473). -/
  | challenge (data : List Byte)
  /-- `GET_MEASUREMENTS` (R473). -/
  | getMeasurements (data : List Byte)
  /-- `KEY_EXCHANGE` (R473). -/
  | keyExchange (data : List Byte)
  /-- `FINISH` (R473). -/
  | finish (data : List Byte)
  /-- `END_SESSION` (R473). -/
  | endSession (data : List Byte)
  /-- `POWER_INTERVAL` (R477). -/
  | powerInterval (pm : Nat)
  /-- `DROOP` (R476). -/
  | droop (isl : Nat)
  /-- `SUPPLY_RECOVERY` (R476). -/
  | supplyRecovery (isl : Nat)
  /-- `PEER_ABORT_NOTICE` (R451). -/
  | peerAbortNotice (cx : Nat) (uid : Nat)
  /-- `PEER_REFUSAL` (R463). -/
  | peerRefusal (x : Nat) (why : Nat)
  deriving DecidableEq, Repr

end Sys2Proof
end

