-- ==== Sys2Proof/Machine/State.lean ====
section
/-! DEFINITION. The state of the package, as plain data: groups and their lanes, teams, kernels, contexts and their queues,
memory, engines, the ring, sequences, links, the controller, and the model's own fields (agenda, issue latch, counters).
INVENTORY.md lists every field with the rule that names it. -/
namespace Sys2Proof.Machine

/-! ### Groups -/

/-- The four outstanding-operation counters (R43). -/
inductive Cls where
  | ld | st | cp | tl
  deriving DecidableEq, Repr

/-- Lane states (R84). -/
inductive LaneSt where
  | runnable | waiting | faulted | exited
  deriving DecidableEq, Repr

/-- One lane: its program counters, state, wait position (R91), flags (R66), fault registers (R421), and what a handler
has written to `lst` and `pcv` and is not applied yet (R91), the PC after the `wait` it waits at (R102), and whether its fault came of an
ordered atomic that failed or was aborted (R192). -/
structure Lane where
  pcv : Word
  rpc : Word
  st : LaneSt
  wt : Nat
  xf : Word
  fcs : Word
  fad : Dword
  frgn : Word
  newSt : Option (BitVec 2)
  newPc : Option Word
  wnext : Word
  torn : Bool := false
  deriving DecidableEq, Repr

/-- A lane at an entry PC (R88). -/
def Lane.start (pc : Word) : Lane := ⟨pc, pc, .runnable, 15, 0, 0, 0, 0, none, none, 0, false⟩

/-- A domain tag: descriptor and live-row mask (R235, R236). -/
structure Tag where
  desc : Byte
  live : Lanes
  deriving DecidableEq, Repr

/-- The spatial tag (R237). -/
def Tag.spatial : Tag := ⟨0, 0xffffffff⟩

/-- An open loop level: its counter, body and members (R111). -/
structure Level where
  lc : Nat
  first : Nat
  last : Nat
  members : Lanes
  deriving DecidableEq, Repr

/-- Address spaces (R153). -/
inductive Space where
  | gl | sp | bb
  deriving DecidableEq, Repr

/-- The read-modify-write functions of ATOM (R172). -/
inductive AtomFn where
  | add | minI | minN | maxI | maxN | and | or | xor | xchg | cas | inc | incb
  deriving DecidableEq, Repr

/-- One value for each lane. -/
abbrev PerLane (α : Type) := Vector α 32

/-- Matrix formats (R213). -/
inductive MmaFmt where
  | e2m1 | e4m3 | e5m2 | e3m2 | e2m3 | i8 | bf16 | f16
  deriving DecidableEq, Repr

/-- The A operand of an `mma` as it is latched: the words of the run, the scale words, the live-row mask and the
descriptor of the run, with the fields that a retained operand is matched by (R214, R215, R218). -/
structure ALatch where
  fmt : MmaFmt
  a : Nat
  sa : Nat
  sel : Nat
  rows : List (PerLane Word)
  scales : List (PerLane Word)
  live : Lanes
  desc : Byte
  deriving DecidableEq, Repr

/-- The words on a band, with what they captured at issue (R229 to R231). -/
inductive TileFn where
  | acz
  | acanch (anchor : BitVec 9)
  | acvt (d n c0 dt : Nat) (noba nobb : Bool) (ba : BitVec 16) (ovp : Bool) (th : Word)
  | acld (off : Word)
  | acst (off : Word)
  deriving DecidableEq, Repr

/-- An `mma` as issued: accumulator, first and extension word fields that must match, the operands (R219). -/
structure MmaOp where
  fmt : MmaFmt
  acc : Nat
  reuse : Bool
  bsp : Bool
  clr : Bool
  sa : Nat
  sel : Nat
  a : Nat
  breg : Nat
  boff : Word
  hc : Bool
  hg : BitVec 2
  latch : ALatch
  prev : Option ALatch
  deriving DecidableEq, Repr

/-- The access of a stored segment (R248, R249): its space and base, whether it loads, the first register and the number of registers of a
load, the bytes and granules of a store, and the flags that it raises, unless it raises none. -/
structure SegReq where
  space : Space
  base : Nat
  load : Bool
  d : Nat
  w : Nat
  img : List Byte
  n : Nat
  quiet : Bool
  flags : PerLane (BitVec 5)
  deriving DecidableEq, Repr

/-- What an outstanding operation still has to do, with the sources read at issue (R46). A `seg` is a stored segment that waits for the
accesses of earlier words of its chain (R32, R251); `catld` keeps the number of its capability entry (R394). -/
inductive OpKind where
  | load (bytes : Nat) (signed : Bool) (space : Space) (d : Nat) (fe clr : Bool) (addr : PerLane Dword)
  | store (bytes : Nat) (space : Space) (fe : Bool) (addr : PerLane Dword) (data : PerLane (BitVec 128))
  | atom (fn : AtomFn) (bytes : Nat) (space : Space) (sys ord rt : Bool) (d : Nat) (addr y z : PerLane Dword)
  | aadd (space : Space) (sys i32 : Bool) (addr : PerLane Dword) (term : PerLane Word)
  | mma (op : MmaOp) (k : Nat)
  | tile (acc : Nat) (fn : TileFn)
  | wave (outs : List (Nat × PerLane Word × Tag)) (flags : PerLane (BitVec 5))
  | seg (r : SegReq)
  | board (cluster entry gen : Nat)
  | job
  | send
  | recv (d : Nat) (slot : Dword)
  | regs (d : List Nat) (vals : List Word)
  | posted
  | tokput
  | catld (d ctx pool cat ix cap : Nat)
  deriving DecidableEq, Repr

/-- A lane's fault: lane, cause, detail, address. -/
abbrev LaneFault := Nat × Nat × Nat × Dword

/-- What a read of a poisoned tile found, for a lane (R276): lane, then lap, layer and track, tile index, the tile's place. -/
abbrev TileNote := Nat × Word × Word × Nat × Nat

/-- An outstanding operation: its identity, counter, the word's PC, the lanes it was issued for, the lanes whose part is
not done, whether a handler issued it, `rgn` before the word (R191), whether it has completed (R44), the data that has
been read for lanes (R162), the faults that come with the data (R160), and what reads of poisoned tiles found (R276). -/
structure Op where
  id : Nat
  cls : Cls
  pc : Word
  lanes : Lanes
  todo : Lanes
  hm : Bool
  rgn0 : Word
  done : Bool
  got : PerLane (Option (BitVec 128))
  late : List LaneFault
  kind : OpKind
  notes : List TileNote := []
  deriving DecidableEq, Repr

/-- What a group that waits for a job slot will submit (R302, R400): the card at a scratchpad offset through an entry, or an
operation on a page: its code, its pool, the catalogue, the entry index, the parameter. -/
inductive SlotCmd where
  | card (kind inst off : Nat)
  | page (op pool : Nat) (cat : Dword) (ix x link : Nat)
  deriving DecidableEq, Repr

/-- Why a group's issue is held; a `bwait` keeps its handle and, where `bfree` has freed its boarding since, its answer (R43, R47, R92,
R181, R190, R209, R219, R220, R270, R277, R302, R307, R311, R314, R367, R389). -/
inductive StallKind where
  | counter (c : Cls)
  | waitc (a b c e : Nat)
  | acq (block : Nat)
  | fenceSys (upto : Nat)
  | fenceWin (window : Nat)
  | tlbinv (upto : Nat)
  | counting
  | side
  | bar (sp : Bool) (cell : Dword) (phase : Word)
  | barw (sp : Bool) (cell : Dword) (phase : Word)
  | bart (sp : Bool) (cell : Dword) (phase : Word) (d till : Nat)
  | gbar (gen : Nat)
  | gang (k mask nacc : Nat)
  | gangWait (k mask nacc : Nat)
  | ungang (k : Nat)
  | latch
  | tgget
  | board
  | bwait (handle : Word) (freed : Option Word)
  | slot (d op : Nat) (cmd : SlotCmd)
  | order
  deriving DecidableEq, Repr

/-- A held issue: why, the PC of the chain, the clk at which the wait began, the waits of the chain that an event has
ended (by `StallKind.tag`), and, where the chain has issued and only the wait is left, the PCs its lanes go on at and the lanes that the
waiting word issued for. -/
structure Stall where
  kind : StallKind
  pc : Word
  since : Nat
  ready : List Nat
  resume : Option (List Word)
  lanes : Lanes
  deriving DecidableEq, Repr

/-- Group states (R87); a parked group keeps the state it resumes to. -/
inductive GStatus where
  | free
  | running
  | sleeping (wake : Option Nat)
  | handler
  | parked (hm : Bool)
  | draining
  deriving DecidableEq, Repr

/-- Deferred faults of lanes of main code that have arrived while the group was in handler mode, and are raised when it leaves it (R424):
the lanes, their fault registers, the operation's PC, whether they return to it, whether an ordered atomic failed, what reads of poisoned
tiles found. -/
structure LateFault where
  lanes : Lanes
  fcs : PerLane Word
  addr : PerLane Dword
  pc : Word
  replay : Bool
  torn : Bool
  notes : List TileNote
  deriving DecidableEq, Repr

/-- A group (R84 to R92, R421, R67, R241, R210, R218, R268, R433). A pending register names the counter and the place in it of
the operation that set it (R45, R47). `last` is the clk of its last issue (R439), `yielded` that a `yield` puts it last in its
core's next choice (R114); `redo` names the lanes that have still to issue again the ordered atomic at `redoPc` that they failed or were
aborted in (R192); `tileNotes` keeps for lanes faulted by a poisoned tile what their record says of it (R276). `kept` are waits of barrier
words that have arrived, set aside while their lanes replay words before them (R310); `later` the main code's faults that a handler's end
raises (R424); `hmarks` what the lanes of a fault raised in handler mode show while the group is parked for it: lane, `fcs`, `fad`, `frgn`
(R419, R428); `born` is the clk of its dispatch (R433); `fellAt` the operation number of the handler word that the group returns to (R425);
`laneRec` the per-lane words of its group record as they were last written (R443, R444); `ordCause` the cause of the last lane that failed
an ordered atomic, with which the lanes aborted above it go (R192). -/
structure Group where
  kernel : Nat
  team : Nat
  idx : Nat
  core : Nat
  status : GStatus
  parkReq : Bool
  lanes : Vector Lane 32
  v : Vector (PerLane Word) 64
  tags : Vector Tag 64
  s : Vector Word 64
  p1 : Lanes
  p2 : Lanes
  p3 : Lanes
  m : Vector Word 12
  lc : Vector Word 3
  levels : List Level
  rgn : Word
  held : BitVec 4
  wdog : Word
  hpc : Word
  htv : Word
  hcm : Word
  gfc : Word
  hs : Vector Word 4
  xen : Word
  nmode : Word
  cvc : Word
  cvth : Word
  dph : Word
  gng : Word
  wth : Vector Word 8
  wctl : Word
  starve : Nat
  ops : List Op
  nextOp : Nat
  issued : Vector Nat 4
  pendV : Vector (Option (Cls × Nat)) 64
  pendS : Vector (Option (Cls × Nat)) 64
  stall : Option Stall
  hstall : Option Stall
  epoch : Nat
  tokenDone : Bool
  keptA : Option ALatch
  mmaCount : Nat
  due : Option Nat
  seen : List (Nat × Word)
  saved : Nat × List Nat
  perf : Vector Nat 6
  last : Nat
  yielded : Bool
  redo : Lanes
  redoPc : Word
  tileNotes : List TileNote
  kept : List Stall := []
  later : List LateFault := []
  hmarks : List (Nat × Word × Dword × Word) := []
  fellAt : Option Nat := none
  laneRec : List Word := []
  born : Nat := 0
  ordCause : Nat := 0
  deriving DecidableEq, Repr

/-- A group as dispatched at an entry PC (R88). -/
def Group.fresh (kernel team idx core : Nat) (pc : Word) : Group :=
  { kernel := kernel, team := team, idx := idx, core := core, status := .running, parkReq := false,
    lanes := Vector.replicate 32 (Lane.start pc),
    v := Vector.replicate 64 (Vector.replicate 32 0), tags := Vector.replicate 64 Tag.spatial,
    s := Vector.replicate 64 0, p1 := 0, p2 := 0, p3 := 0, m := Vector.replicate 12 0,
    lc := Vector.replicate 3 0, levels := [], rgn := 0, held := 0, wdog := 0x01000000, hpc := 0, htv := 0,
    hcm := 0, gfc := 0, hs := Vector.replicate 4 0, xen := 0, nmode := 0, cvc := 0, cvth := 0, dph := 0,
    gng := 0, wth := Vector.replicate 8 0, wctl := 0, starve := 0, ops := [], nextOp := 0,
    issued := Vector.replicate 4 0,
    pendV := Vector.replicate 64 none, pendS := Vector.replicate 64 none, stall := none, hstall := none, epoch := 0,
    tokenDone := false, keptA := none, mmaCount := 0, due := none, seen := [], saved := (0, []),
    perf := Vector.replicate 6 0, last := 0, yielded := false, redo := 0, redoPc := 0, tileNotes := [],
    kept := [], later := [], hmarks := [], fellAt := none, laneRec := [], born := 0 }

/-- A slot that holds no group. -/
def Group.blank : Group := { Group.fresh 0 0 0 0 0 with status := .free }

/-- The issue latch of the word being executed (log entry 4): the group, the PC of the chain, the PC after it, the
lanes at that PC, the group as it stood before the chain (R32), whether the lanes have advanced, the words of the chain
still to execute, the fault or hold that a word ended in, the wait that begins when the chain has issued, and the fault
that a handler word of it has met (R425) with its PC, the lanes that a word of it has returned to its PC (R220), and the number of its
context's locks where a word of it has changed them (R32). -/
structure Issue where
  gi : Nat
  pc : Word
  next : Word
  at_ : Lanes
  snap : Group
  advanced : Bool
  left : Nat
  raised : Option (Nat × Nat × Lanes)
  hold : Option StallKind
  wait : Option (StallKind × Lanes)
  fell : Option (List LaneFault × Word)
  back : Lanes := 0
  locks : Option Nat := none
  deriving DecidableEq, Repr

/-- No word being executed. -/
def Issue.idle : Issue := ⟨0, 0, 0, 0, Group.blank, false, 0, none, none, none, none, 0, none⟩

/-! ### Memory -/

/-- Memory as a list of addresses and bytes, addresses rising, no zero byte listed: an address that is not listed reads 0
(R154, R470; pool and host memory and the boarding buffer by log entry 2). -/
abbrev Memory := List Host.Cell

/-- Whose store it is: context, team, the group's index in it; an agent that is no group has no team and index of the machine's. -/
abbrev Owner := Nat × Nat × Nat

/-- A line of the L2 (R157, R203, R384, R492): its line number, the key slot of the access that filled it, whether that access was
streaming, its 128 bytes, whether the device has written it since it was filled, and, of memory behind a port, whose stores left it dirty
(R181, R328). -/
structure L2Line where
  line : Nat
  key : Nat
  low : Bool
  data : List Byte
  dirty : Bool
  owners : List Owner
  deriving DecidableEq, Repr

/-- What a walk returns (R381): physical address of the page's first byte, page size, key, policy, permissions; an access that goes
through it adds whose it is. -/
structure Xlat where
  pa : Nat
  size : Nat
  key : Nat
  pol : Nat
  r : Bool
  w : Bool
  x : Bool
  owner : Option Owner := none
  deriving DecidableEq, Repr

/-- A TLB entry: the core that holds it, its context, the virtual address of its page, the translation (R385). -/
structure TlbEntry where
  core : Nat
  ctx : Nat
  va : Nat
  x : Xlat
  deriving DecidableEq, Repr

/-! ### Queues and contexts -/

/-- Queue kinds (R332). -/
inductive QKind where
  | invalid | launch | request | completion | output
  deriving DecidableEq, Repr

/-- A queue descriptor (R332). -/
structure Queue where
  kind : QKind
  logn : Nat
  ien : Bool
  err : Bool
  ivec : Nat
  ci : Word
  pi : Word
  base : Dword
  shadow : Dword
  deriving DecidableEq, Repr

/-- A queue that is not valid. -/
def Queue.blank : Queue := ⟨.invalid, 0, false, false, 0, 0, 0, 0, 0⟩

/-- Context states (R438). -/
inductive CtxSt where
  | free | bound | runnable | running | shared | saving | saved | restoring | faulted | resetting
  deriving DecidableEq, Repr

/-- What kernels and teams do to their context's state (R438): a kernel enters running, a team is placed, one retires, one is evicted, an
evicted one is resumed or killed. -/
inductive CtxEvent where
  | runs | placed | retired | evicted | returned
  deriving DecidableEq, Repr

/-- A fault record that is posted and not yet written, or written and open (R428 to R430). -/
structure Rec where
  cause : Nat
  detail : Nat
  kind : Nat
  flg : Nat
  rid : Nat
  addr : Dword
  ktag : Word
  fmask : Word
  team : Nat
  grp : Nat
  core : Nat
  pc : Word
  rgn : Word
  x0 : Word
  x1 : Word
  px : Nat
  time : Nat
  index : Word
  gi : Option Nat
  job : Option (Nat × Nat)
  written : Bool
  answered : Bool
  deriving DecidableEq, Repr

/-- The device's copy of a context descriptor (R436). -/
structure Desc where
  addr : Nat
  fn : Nat
  pri : Nat
  qnt : Nat
  wink : Nat
  scq : Nat
  root : Nat
  rkey : Dword
  lkq : Nat
  seqmax : Nat
  tbud : Nat
  save : Nat
  savesz : Nat
  fqb : Dword
  fql : Nat
  fqv : Nat
  lapv : Nat
  lapk : Nat
  ntt : Nat
  ttt : Dword
  step : Dword
  starea : Dword
  cev : Nat
  jmax : Nat
  stsz : Nat
  deriving DecidableEq, Repr

/-- A descriptor of zeros. -/
def Desc.zero : Desc :=
  ⟨0, 0, 0, 0, 0, 0, 0, 0, 0, 0, 0, 0, 0, 0, 0, 0, 0, 0xff, 0, 0, 0, 0, 0, 0, 0⟩

/-- A launch entry accepted and not reported complete yet (R337, R338, R343): its identity, the queue it came from, the
time-triggered slot that fired it, and its completion queue, tag and type. -/
structure Launch where
  id : Nat
  queue : Nat
  slot : Option Nat
  cq : Nat
  tag : Word
  kind : Nat
  deriving DecidableEq, Repr

/-- An entry that the device has still to write to a queue (R336), with the operation of a group that completes with it and
the launch whose completion it is. -/
structure Post where
  queue : Nat
  data : BitVec 128
  op : Option (Nat × Nat)
  launch : Option Nat
  deriving DecidableEq, Repr

/-- A page pool (R391); `np = 0` is a pool that is not valid. -/
structure Pool where
  l : Nat
  fmt : Nat
  heads : Nat
  hdim : Nat
  haar : Bool
  fsz : Nat
  recs : Nat
  np : Nat
  cmax : Nat
  near : Nat
  nn : Nat
  far : Nat
  nf : Nat
  poolt : Nat
  nc : Nat
  catb : Nat
  deriving DecidableEq, Repr

/-- A pool that is not valid. -/
def Pool.none : Pool := ⟨0, 0, 0, 0, false, 0, 0, 0, 0, 0, 0, 0, 0, 0, 0, 0⟩

/-- A sequence class (R348); `chunk = 0` is an empty entry. -/
structure SeqClass where
  draft : Nat
  k : Nat
  ck : Nat
  pool : Nat
  chunk : Nat
  eps : Word
  delta : Word
  cksz : Nat
  maxgen : Nat
  dsrc : Nat
  deriving DecidableEq, Repr

/-- A step program (R359). -/
structure StepProg where
  hmax : Nat
  clerk : Nat
  replay : Nat
  draft : Nat
  kernels : List Nat
  deriving DecidableEq, Repr

/-- A time-triggered slot's state (R343): the time of its last examination, the entry of a pending firing, and whether an
overrun has disabled the slot. -/
structure TtSlot where
  last : Option Nat
  pending : Option (List Byte)
  off : Bool
  deriving DecidableEq, Repr

/-- One of the package's contexts (R436 to R439, R178, R271, R279, R428): with its descriptor copy stand the queues, pools,
classes and step program of it, the records, locks, boarding counts, launches, entries to write,
time-triggered slots, firings placed in a queue's order and not accepted yet (queue, slot, entry), queued kernel entries that have been
cancelled (queue, and the entry's index, or 2^32 and the slot of a firing), its admission
count (R346), and whether the descriptor copy has an uncorrectable error (R438; an input: log entry 68). -/
structure Ctx where
  st : CtxSt
  d : Desc
  queues : List Queue
  pools : List Pool
  classes : List SeqClass
  step : Option StepProg
  fqPi : Word
  fqCi : Word
  rid : Word
  recs : List Rec
  locks : List (Nat × Nat)
  missed : Nat
  poisoned : Nat
  launches : List Launch
  nextLaunch : Nat
  posts : List Post
  tt : List TtSlot
  fired : List (Nat × Nat × List Byte)
  struck : List (Nat × Nat)
  admitted : Nat
  hurt : Bool
  deriving DecidableEq, Repr

/-- A context that is free. -/
def Ctx.blank : Ctx :=
  { st := .free, d := Desc.zero, queues := [], pools := [], classes := [], step := none, fqPi := 0, fqCi := 0, rid := 0,
    recs := [], locks := [], missed := 0, poisoned := 0, launches := [], nextLaunch := 0, posts := [], tt := [],
    fired := [], struck := [], admitted := 0, hurt := false }

/-! ### Kernels and teams -/

/-- A declared write range (R320). -/
structure WRange where
  base : Nat
  len : Nat
  w : Bool
  a : Bool
  deriving DecidableEq, Repr

/-- The fields of a kernel header (R317). -/
structure Header where
  det : Bool
  ovp : Bool
  irq : Bool
  vpre : Bool
  w1 : Nat
  w2 : Nat
  w3 : Nat
  w4 : Nat
  w5 : Nat
  xreg : Nat
  gangs : Nat
  bands : Nat
  ivec : Nat
  code : Dword
  clen : Nat
  entry : Nat
  data : Dword
  nteam : Nat
  scr : Nat
  chunk : Nat
  capt : Dword
  sig : Dword
  sigv : Dword
  psm : Dword
  pre : Dword
  wr : List WRange
  deriving DecidableEq, Repr

/-- Kernel states (R323). -/
inductive KSt where
  | running | ending (step : Nat) | done | cancelling | cancelled
  deriving DecidableEq, Repr

/-- What a kernel is to the sequence scheduler (R359, R360): launched by an entry, a step kernel, the final projection of a herd
with the herd's descriptor address and size, a clerk. -/
inductive Role where
  | entry | step | final (desc n : Nat) | clerk
  deriving DecidableEq, Repr

/-- A launched kernel (R323, R188, R314, R345): with its header stand the scalars that its groups start with, the range of each
die, and `loose` that its ranges do not bind (R324). -/
structure Kernel where
  ctx : Nat
  tag : Word
  st : KSt
  h : Header
  preload : List (Nat × Word)
  next : Nat
  ret : Nat
  range0 : Option (Nat × Nat)
  range1 : Option (Nat × Nat)
  token : Nat
  barGen : Nat
  arrived : List Nat
  launch : Option Launch
  age : Nat
  wait : Nat
  loose : Bool
  saveFull : Bool
  herd : Option (Nat × Nat)
  role : Role
  sigFault : Bool
  deriving DecidableEq, Repr

/-- Why a team is parked (R443): evict, token, grid barrier, trap, save. -/
inductive ParkWhy where
  | evict | token | grid | trap | save
  deriving DecidableEq, Repr

/-- Where a team is (R325, R326, R442): on a core, asked to leave it, or parked with its record at an offset of the
save area, written at a 1588 time. -/
inductive TSt where
  | resident
  | leaving (why : ParkWhy)
  | parked (why : ParkWhy) (record time : Nat)
  | retired
  deriving DecidableEq, Repr

/-- A gang of a team whose members have met (R208 to R210): its number, member mask and accumulators, whether its bands
are granted, the members that have asked to dissolve it, and its place in the order of band requests. -/
structure Gang where
  k : Nat
  mask : Nat
  nacc : Nat
  formed : Bool
  leaving : List Nat
  seq : Nat
  deriving DecidableEq, Repr

/-- A request to form a gang that waits for the other members (R209). -/
structure GangReq where
  gi : Nat
  idx : Nat
  k : Nat
  mask : Nat
  nacc : Nat
  lanes : Lanes
  pc : Word
  deriving DecidableEq, Repr

/-- An accumulator band of a gang member (R205 to R207). -/
structure Band where
  gang : Nat
  acc : Nat
  member : Nat
  cells : Vector (BitVec 96) 2048
  a : BitVec 9
  aset : Bool
  clamp : Bool
  gnx : Bool
  inv : Bool
  bsm : Bool
  bbv : Bool
  bb : BitVec 16
  dom : Byte
  live : Lanes
  clear : Bool
  deriving DecidableEq, Repr

/-- A matrix operation whose rendezvous is complete (R219 to R222, R227): the gang, the members' operations, their latches,
the B image read, the passes to come (member and row group; no row group where a band is only zeroed), the members
whose band has had its first pass, its place in rendezvous order and the clk since which it is its gang's next. -/
structure Pass where
  gang : Nat
  acc : Nat
  fmt : MmaFmt
  clr : Bool
  ids : List (Nat × Nat)
  latches : List ALatch
  image : List Byte
  tasks : List (Nat × Option Nat)
  touched : List Nat
  seq : Nat
  since : Nat
  deriving DecidableEq, Repr

/-- A team (R325, R154, R284): its kernel and index, its groups' places, its core, its scratchpad with the empty
granules, its capability table, gangs, bands and matrix operations in progress; `ordWait` that a group of it waited for the order token
when it parked (R191). -/
structure Team where
  kernel : Nat
  idx : Nat
  st : TSt
  core : Nat
  groups : List Nat
  sp : Memory
  spEmpty : List Nat
  spPoison : List Nat
  caps : Vector (BitVec 128) 64
  gangs : List Gang
  reqs : List GangReq
  bands : List Band
  passes : List Pass
  placed : Nat
  quant : Nat
  ordWait : Bool := false
  deriving DecidableEq, Repr
/-! ### Functions, links, the controller -/

/-- The states of a port (R468). -/
inductive PortSt where
  | down | training | up | degraded | failed
  deriving DecidableEq, Repr

/-- A host port (0, 1) or an Ultra Ethernet port (2 to 13): its state, rate, width and retrains (R468, R469), and of a
host port its mode and decoder table, address and size of each range (R454). -/
structure Port where
  st : PortSt
  rate : Nat
  width : Nat
  retrain : Nat
  cxl : Bool
  decoder : List (Nat × Nat)
  deriving DecidableEq, Repr

/-- An MSI-X vector: address, data, mask and pending bit (R450). -/
structure Msix where
  addr : Dword
  data : Word
  masked : Bool
  pend : Bool
  deriving DecidableEq, Repr

/-- A copy of a peer table entry (R462). -/
structure Peer where
  paddr : Nat
  job : Nat
  rod : Bool
  valid : Bool
  reserved : Bool
  rctx : Nat
  rmbx : Dword
  deriving DecidableEq, Repr

/-- One of the 32 functions: shares (R448), counts and window registers (R456, R458), command result (R457), peer table
and the copies read from it (R462), reset status (R451), MSI-X table (R450). -/
structure Func where
  rtr : Nat
  psh : Nat
  hsh : Nat
  ish : Nat
  fdrop : Nat
  aperr : Nat
  apva : Dword
  apctl : Dword
  peert : Dword
  peers : List (Nat × Peer)
  cctx : Nat
  cstat : Nat
  resetting : Bool
  done : Bool
  msix : List Msix
  deriving DecidableEq, Repr

/-- Function f after reset (R448, R450, R456; log entries 13 and 14). -/
def Func.init (f : Nat) : Func :=
  let n := if f = 0 then 256 else 0
  { rtr := if f = 0 then 32 else 0, psh := n, hsh := n, ish := n, fdrop := 0, aperr := 0, apva := 0, apctl := 0,
    peert := 0, peers := [], cctx := 0, cstat := 0, resetting := false, done := false,
    msix := List.replicate (if f = 0 then 256 else 64) ⟨0, 0, true, false⟩ }

/-- A memory encryption key slot (R474): empty, slot 0's null key that belongs to no function, or a null key or key pair of
a function. -/
inductive KeySlot where
  | empty
  | device
  | null (fn : Nat)
  | key (fn : Nat) (bytes : List Byte)
  deriving DecidableEq, Repr

/-- A session of the SPDM responder (R473): none, being established, or secured. -/
inductive Spdm where
  | none | handshake | secured
  deriving DecidableEq, Repr

/-- The system controller (R470 to R477): recovery, security versions, the flash image, key slots, the SPDM session, the
power cap, the last measured power, the throttle step, whether the die link has failed for good (R460), and whether bring-up ended with
its training (R470). -/
structure Controller where
  recovery : Bool
  svn : Nat
  svnf : Nat
  flash : List Byte
  keys : List KeySlot
  spdm : Spdm
  pcap : Nat
  measured : Nat
  throttle : Nat
  dead : Bool
  halted : Bool := false
  deriving DecidableEq, Repr

/-- A voltage and frequency island: its frequency in MHz, whether its clk edges are stretched (R476), and the budget of its
matrix engines, RATE and LEVEL (R226). -/
structure Island where
  mhz : Nat
  stretched : Bool
  rate : Nat
  level : Nat
  deriving DecidableEq, Repr

/-- A packet to a peer (R461, R462, R466): its LINK port, what it carries (1 a message, 2 an arrival, 3 page bytes, 4 collective data, 5 a
refusal, 6 an acknowledgement, 7 an abort notice), the transfer it belongs to, the peer's fabric address, the UET job, whether it goes by
ROD, the peer's context, the remote address, what its bytes are of (the pool and the page of a hand-off; the operation, the identifier and the
rank of collective data), the offset of its bytes in what the transfer carries and how many these are, the send window
and the sender's WINK, whether it is sent unsynchronised (of an acknowledgement: the late flag), its bytes. A refusal and an acknowledgement
go back to the packet that they answer. -/
structure Packet where
  port : Nat
  kind : Nat
  xfer : Option Nat := none
  paddr : Nat := 0
  job : Nat := 0
  rod : Bool := false
  peer : Nat
  addr : Dword
  names : List Nat := []
  off : Nat := 0
  total : Nat := 0
  window : Nat
  wink : Nat
  unsync : Bool
  data : List Byte := []
  deriving DecidableEq, Repr

/-- What leaves the package: an interrupt message, an Ultra Ethernet transfer, a response of the DOE mailbox, a
completion of a host window request. -/
inductive Sent where
  | msix (fn vector : Nat)
  | packet (p : Packet)
  | doe (data : List Byte)
  | window (data : Option (List Byte))
  deriving DecidableEq, Repr

/-- What an Ultra Ethernet transfer carries (R461): a message, a barrier arrival, a page hand-off with the page and the state
it had, a rank's collective data. -/
inductive XferKind where
  | message
  | arrival
  | page (uid pool page st : Nat)
  | coll (uid : Nat)
  deriving DecidableEq, Repr

/-- A transfer that has been sent and is not acknowledged (R463, R467): its number, the sending context, the port, the
peer's context number, what it carries, the remote address, the window it was sent in, the operation that ends with it, its packets that
are not acknowledged, and the peer's fabric address and job. -/
structure Xfer where
  id : Nat
  ctx : Nat
  port : Nat
  peer : Nat
  kind : XferKind
  addr : Dword
  window : Nat
  op : Option (Nat × Nat)
  parts : Nat := 1
  paddr : Nat := 0
  job : Nat := 0
  deriving DecidableEq, Repr

/-- A message that has claimed a mailbox slot and waits for it to be empty (R300, R299): its context, the slot, the 16
bytes, the `send` that made it, and of one from a peer how it came, the mailbox, and how late it came (R466). -/
structure Msg where
  ctx : Nat
  slot : Dword
  data : BitVec 128
  op : Option (Nat × Nat)
  via : Option (Via × Dword × Nat)
  deriving DecidableEq, Repr

/-- A barrier arrival from a peer that waits for earlier stores of its sender (R201): its context, how it came, the cell, and how late it
is: by its own arrival, or for a late store that it has waited for (R202). -/
structure Inbound where
  ctx : Nat
  via : Via
  addr : Dword
  late : Nat
  deriving DecidableEq, Repr

/-- Page bytes that a peer's packet has written (R200): context, how it came, pool, page, offset, length. -/
structure Landed where
  ctx : Nat
  via : Via
  pool : Nat
  page : Nat
  off : Nat
  len : Nat
  deriving DecidableEq, Repr

/-- A participant's contribution to a collective (R292): context, operation, identifier, rank, bytes, and the job of this
package that it came from; of a participant on another device one granule of it: its offset, the bytes of the whole, and how its packet
came (R200, R461). -/
structure Coll where
  ctx : Nat
  fn : Nat
  id : Nat
  rank : Nat
  data : List Byte
  job : Option Nat
  off : Nat := 0
  total : Nat := 0
  via : Option Via := none
  deriving DecidableEq, Repr

/-- The 1588 clock: its count in ns, TSTAT's state and offset (R464, R465). -/
structure Clock where
  ns : Nat
  st : Nat
  offs : Int
  hold : Nat
  deriving DecidableEq, Repr
/-! ### The ring -/

/-- A layer row of a ring program (R258), with the translation of each 64 KiB unit of its source: unit, physical page, key slot
(R265). -/
structure Row where
  trk : Nat
  nt : Nat
  fmt : Nat
  src : Nat
  fp : Nat
  units : List (Nat × Nat × Nat)
  deriving DecidableEq, Repr

/-- An installed or accepted ring program (R257), with the lap from which it is in force and the number of its acceptance: a table
accepted again is another program (R273). -/
structure Prog where
  ctx : Nat
  trk : Nat
  fp : Nat
  rows : List Row
  since : Nat
  id : Nat
  deriving DecidableEq, Repr

/-- Boarding states (R274). -/
inductive BSt where
  | free | armed | missed | filling | done | poisoned | cancelled
  deriving DecidableEq, Repr

/-- An entry of a cluster's boarding table (R267, R271 to R274): its owner, the program it asks of, range and place, the target lap, the
order of its request and of its miss, whether it holds its ports, the tiles written so far, the poisoned tiles (place in the run
and detail), the places that a beat damaged on its way belongs to, and whether its completion has been reported (R156). -/
structure Boarding where
  cluster : Nat
  ent : Nat
  gen : Nat
  st : BSt
  ctx : Nat
  gi : Nat
  op : Nat
  prog : Nat
  layer : Nat
  tracks : List Nat
  first : Nat
  count : Nat
  off : Nat
  tile : Nat
  missed : Bool
  lap : Nat
  asked : Nat
  missAt : Nat
  ports : Bool
  written : List Nat
  bad : List (Nat × Nat)
  hurt : List Nat
  readable : Bool
  deriving DecidableEq, Repr

/-- A tile on its way: lap, context, layer, track, tile, the package beat at which its first beat left the sequencer, the bytes read
from its source and the poison mark it is sent with (R263, R275). -/
structure SentTile where
  lap : Nat
  ctx : Nat
  layer : Nat
  track : Nat
  tile : Nat
  beat : Nat
  bytes : List Byte
  poison : Bool
  deriving DecidableEq, Repr

/-- The ring (R16, R261 to R266, R273, R275, R280 to R282): laps begun (the lap counter is this number modulo 2^48), position, lap length,
the beats sent before this lap, the length of the lap before it, beat rate, the ring clock within
the frame, beats since the governor last ran, the governor's register, the programs of the lap before this one, programs in force and
accepted changes by context, track-share changes accepted by function, runs of poisoned laps by context, layer, track and tile, the
tiles on their way, and the inputs of the governor: HBM requests held, the rate the power cap allows, whether a `board` has been
stalled for space since the governor last ran. -/
structure Ring where
  lap : Nat
  pos : Nat
  len : Nat
  base : Nat
  prev : Nat
  g : Nat
  newG : Nat
  frame : Nat
  beats : Nat
  reg : Word
  oldProgs : List Prog
  progs : List Prog
  changes : List (Nat × Option Prog)
  shares : List (Nat × Nat)
  runs : List (Nat × Nat × Nat × Nat × Nat)
  sent : List SentTile
  held : Bool
  gp : Nat
  full : Bool
  boards : List Boarding
  stalled : List (Nat × Nat)
  order : Nat
  deriving DecidableEq, Repr

/-- The ring after bring-up (R262, R282, R470; log entry 15). -/
def Ring.init : Ring :=
  { lap := 0, pos := 0, len := 1024, base := 0, prev := 1024, g := 16, newG := 16, frame := 0, beats := 0, reg := 0x00001004,
    oldProgs := [], progs := [], changes := [], shares := [], runs := [], sent := [], held := false, gp := 16, full := false, boards := [],
    stalled := [], order := 0 }

/-! ### Jobs -/

/-- A region of a job card (R288): its base and length in global memory or scratchpad, or the pool it names. -/
structure Region where
  sp : Bool
  pool : Option Nat
  base : Nat
  len : Nat
  deriving DecidableEq, Repr

/-- Job states (R294). -/
inductive JSt where
  | submitted | blocked | running | suspended | done | failed
  deriving DecidableEq, Repr

/-- An image of a gather (R410, R411): the page it takes, whether the page was missing, whether its page-in has been asked
for, granules emptied and granules written. -/
structure Image where
  page : Option Nat
  miss : Bool
  asked : Bool
  emptied : Nat
  done : Nat
  deriving DecidableEq, Repr

/-- A job in its slot (R294): the slot keeps an ended job until it is taken again. `op` is the `cp` operation that waits
for it; `kind` and `inst` are those of the entry it was submitted through, and an operation on pages stands with kind 9 and
the card that it would have; `edges` the jobs it has an edge from that have not ended, `depfail` that one of them failed, `eoa` the next granule to empty, `at_` the next granule (or the
next entry of a page operation, or the next collective step), `waits` that a record needs an answer, `saved` that a save has suspended it, `lost` that another job has taken its slot since
the save freed it, `imgs` a gather's
images, `busy` that a copy of a page is under way for it or that a participant has contributed, `data` a result that is being written. -/
structure Job where
  uid : Nat
  core : Nat
  slot : Nat
  seq : Nat
  ctx : Nat
  kernel : Nat
  team : Nat
  gi : Nat
  op : Nat
  kind : Nat
  inst : Nat
  link : Nat
  st : JSt
  status : Nat
  counts : Word
  granules : Nat
  card : List Byte
  rd : List Region
  wr : List Region
  edges : List Nat
  depfail : Bool
  eoa : Option Nat
  at_ : Nat
  saved : Bool
  lost : Bool
  waits : Bool
  busy : Bool
  imgs : List Image
  data : List Byte
  deriving DecidableEq, Repr

/-! ### Pages in motion -/

/-- Why the bytes of a page are copied (R395, R403, R404, R411). -/
inductive CopyWhy where
  | cow (q : Nat)
  | move
  | pageIn
  deriving DecidableEq, Repr

/-- A copy of a page under way: context, pool, page, source tier and slot, destination tier and slot, the job it is made
for, the `catld` it is made for, and the entry that a copy on write replaces (catalogue, index). -/
structure PageCopy where
  ctx : Nat
  pool : Nat
  page : Nat
  why : CopyWhy
  src : Nat × Nat
  dst : Nat × Nat
  job : Option Nat
  ld : Option (Nat × Nat)
  cat : Nat
  ix : Nat
  done : Nat
  deriving DecidableEq, Repr

/-- A read pin on a page (R413): context, pool, page, the job that holds it; the copy for a `catld` holds one without a job. -/
structure Pin where
  ctx : Nat
  pool : Nat
  page : Nat
  who : Option Nat
  deriving DecidableEq, Repr

/-! ### Sequences -/

/-- An allocated sequence record (R346, R347): its slot, generation and context, its 64 words, and what the device keeps
beside them: an uncorrectable error on it (`hurt`), the states remembered while parked or stalled, the latest first (R351), replay positions and checkpoint slot (R371), the last lap and
herd it was given positions in, the image address (R365), the pages whose page-ins it waits for, whether an entry could not be posted
yet (R355), the tokens generated so far, which a migration image holds (R373), and whether it has a catalogue (R398). -/
structure Seq where
  slot : Nat
  gen : Nat
  ctx : Nat
  w : Vector Word 64
  hurt : Bool
  prev : List Nat
  rpl : Nat
  ckj : Nat
  lap : Option (Nat × Nat)
  image : Nat
  owed : List (Nat × Nat)
  outDue : Bool
  toks : List Word
  hasCat : Bool := false
  deriving DecidableEq, Repr


/-! ### The machine -/

/-- The whole machine. `mem`, `poison`, `outside` and `errors` name a byte of a pool region by its place behind the port (`State.place`,
R454), `empty` and `l2` by its physical address. `memKeys` gives the key pair that a near- or far-tier line is enciphered under in memory (R384); a line that is not
listed is plaintext. `outside` is what outside agents write to memory behind the host ports, a list for each coming step (R492); `errors`
names the granules whose bytes come to have an uncorrectable error before each coming step, and those whose error is not met again (R160,
R275). `heard` names the store packets of peers that are visible or refused: context, sending context, window (R201); `heldPkts` holds packets
whose port is down or training (R468). -/
structure State where
  groups : List Group
  teams : List Team
  kernels : List Kernel
  ctxs : List Ctx
  mem : Memory
  empty : List Nat
  poison : List Nat
  bbPoison : List Nat
  l2 : List L2Line
  memKeys : List (Nat × List Byte)
  outside : List (List Host.Cell)
  errors : List (List Nat × List Nat)
  tlb : List TlbEntry
  bb : Memory
  ring : Ring
  jobs : List Job
  nextJob : Nat
  jobCnt : List (Nat × Nat)
  slotQ : List Nat
  copies : List PageCopy
  pageIns : List (Nat × Nat × Nat)
  pins : List Pin
  seqs : List Seq
  gens : List (Nat × Nat)
  xfers : List Xfer
  nextXfer : Nat
  msgs : List Msg
  inbound : List Inbound
  landed : List Landed
  heard : List (Nat × Nat × Nat)
  colls : List Coll
  chainLog : List (Nat × Nat)
  meets : Nat
  fns : List Func
  sherr : Word
  ports : List Port
  levt : Word
  levv : Byte
  ctl : Controller
  islands : List Island
  clock : Clock
  sent : List Sent
  heldPkts : List Packet
  iss : Issue
  agenda : List Instr
  turn : Nat
  served : Nat
  acqQ : List Nat
  freeIdx : Nat
  clk : Nat
  deriving DecidableEq, Repr

/-- Why a step stops with a fault. No meaning of this model stops with one: every fault the specification gives is
taken (chapter Trap record), reported or recorded. The one reason below is kept for a state that no run reaches. -/
inductive Fault where
  /-- Raised by no instruction. Safe: a machine that stopped here would only make claims unprovable. -/
  | unreachable
  deriving DecidableEq, Repr

/-- Why a step is refused. -/
inductive Refusal where
  /-- Answered by `exec` for an instruction that has no meaning yet. Safe: nothing can be proved about it. -/
  | notModelled (mnemonic : String)
  deriving DecidableEq, Repr

/-- The machine right after reset. No granule is empty. DESIGN CHOICE (log entry 82): a frame that is mapped again for another page keeps the
full-empty bits it has. -/
def State.reset : State :=
  { groups := [], teams := [], kernels := [], ctxs := List.replicate 64 Ctx.blank, mem := [], empty := [], poison := [], bbPoison := [],
    l2 := [], memKeys := [], outside := [], errors := [], tlb := [], bb := [],
    ring := Ring.init, jobs := [], nextJob := 0, jobCnt := [], slotQ := [], copies := [], pageIns := [], pins := [],
    seqs := [], gens := [], xfers := [], nextXfer := 0, msgs := [], inbound := [], landed := [], heard := [], colls := [], chainLog := [],
    meets := 0,
    fns := (List.range 32).map Func.init, sherr := 0, ports := List.replicate 14 ⟨.down, 0, 0, 0, false, []⟩, levt := 0,
    levv := 0,
    ctl := { recovery := false, svn := 0, svnf := 0, flash := [], keys := KeySlot.device :: List.replicate 255 KeySlot.empty, spdm := .none,
             pcap := 3200, measured := 0, throttle := 0, dead := false },
    islands := List.replicate 32 ⟨1100, false, 768, 0⟩, clock := ⟨0, 0, 0, 0⟩, sent := [], heldPkts := [], iss := Issue.idle,
    agenda := [], turn := 0, served := 2047, acqQ := [], freeIdx := 0, clk := 0 }

/-- One step's answer. -/
abbrev Out := Host.Outcome State Fault Refusal

end Sys2Proof.Machine
end

