-- ==== Sys2Proof/Machine/Haar.lean ====
section
/-! DEFINITION. Domain tags and the transform across lanes (R121 to R125, R236 to R240). -/
namespace Sys2Proof.Machine

/-- Level L of a descriptor (R236). -/
def descL (d : Byte) : Nat := (d.extractLsb' 5 3).toNat

/-- Axis X of a descriptor. -/
def descX (d : Byte) : Bool := d.getLsbD 4

/-- Mode M of a descriptor. -/
def descM (d : Byte) : Nat := (d.extractLsb' 0 4).toNat

/-- The descriptor {L, X, M}. -/
def mkDesc (l : Nat) (x : Bool) (m : Nat) : Byte := BitVec.ofNat 8 (l * 32 + (if x then 16 else 0) + m)

/-- The S-transform code of M (R236). -/
def mSTR : Nat := 9

/-- A reserved descriptor (R236). -/
def descReserved (d : Byte) : Bool := (descL d = 0 && d ≠ 0#8) || 6 ≤ descL d || 10 ≤ descM d

/-- A Haar tag. -/
def Tag.haar (t : Tag) : Bool := descL t.desc ≠ 0

/-- Two Haar tags are like-tagged (R236). -/
def likeTagged (a b : Tag) : Bool :=
  a.haar && b.haar && descL a.desc = descL b.desc && descX a.desc = descX b.desc
    && ((descM a.desc = mSTR) == (descM b.desc = mSTR))

/-- The step of a descriptor. -/
def descStep (d : Byte) : StepKind := if descM d = mSTR then .str else .avg

/-- A segment being transformed: the working approximations, the details written so far (offset from the segment's
start), the flags. -/
structure Seg where
  t : List Word
  out : List (Nat × Word)
  fl : BitVec 5
  deriving DecidableEq, Repr

/-- The steps of one level over pairs, from position p on. -/
def fwdLevel (k : StepKind) (ovp : Bool) (n : Nat) : Nat → List Word → Seg → Seg
  | p, x0 :: x1 :: rest, g =>
    let r := haarStep k ovp x0 x1
    fwdLevel k ovp n (p + 1) rest ⟨g.t ++ [r.1.1], g.out ++ [(n + p, r.1.2)], g.fl ||| r.2⟩
  | _, _, g => g

/-- The levels of the forward transform of one segment (R240); `n` positions remain after the next level. -/
def fwdLevels (k : StepKind) (ovp : Bool) : Nat → Seg → Seg
  | 0, g => g
  | l + 1, g => fwdLevels k ovp l (fwdLevel k ovp (2 ^ l) 0 g.t ⟨[], g.out, g.fl⟩)

/-- The value at an offset of what a transform wrote. -/
def outAt (out : List (Nat × Word)) (o : Nat) : Word :=
  match out.find? (fun p => p.1 = o) with
  | some p => p.2
  | none => 0

/-- The forward transform of one segment of 2^l words: the coefficients by offset, and the flags (R239, R240). -/
def fwdSeg (k : StepKind) (ovp : Bool) (l : Nat) (xs : List Word) : List Word × BitVec 5 :=
  let g := fwdLevels k ovp l ⟨xs, [], 0#5⟩
  let out := (0, g.t.headD 0) :: g.out
  ((List.range (2 ^ l)).map (outAt out), g.fl)

/-- One level of the inverse: the approximations with their details. -/
def invLevel (k : StepKind) (ovp : Bool) : List Word → List Word → List Word × BitVec 5
  | a :: as, d :: ds =>
    let r := haarInv k ovp a d
    let s := invLevel k ovp as ds
    (r.1.1 :: r.1.2 :: s.1, r.2 ||| s.2)
  | _, _ => ([], 0#5)

/-- The levels of the inverse, from the coarsest: `i` counts the levels done. -/
def invLevels (k : StepKind) (ovp : Bool) (c : List Word) : Nat → Nat → List Word → BitVec 5 → List Word × BitVec 5
  | 0, _, t, fl => (t, fl)
  | r + 1, i, t, fl =>
    let s := invLevel k ovp t (c.drop (2 ^ i))
    invLevels k ovp c r (i + 1) s.1 (fl ||| s.2)

/-- The inverse transform of one segment of 2^l coefficients (R240). -/
def invSeg (k : StepKind) (ovp : Bool) (l : Nat) (c : List Word) : List Word × BitVec 5 :=
  invLevels k ovp c l 0 [c.headD 0] 0#5

/-- A register's lanes as a list. -/
def laneList (x : PerLane Word) : List Word := x.toList

/-- A list of 32 words as a register. -/
def ofLaneList (xs : List Word) : PerLane Word := Vector.ofFn fun l => xs.getD l.val 0

/-- Every segment of a register transformed by `f`: the words and each lane's segment flags. -/
def bySegment (l : Nat) (f : List Word → List Word × BitVec 5) (x : PerLane Word) : PerLane Word × PerLane (BitVec 5) :=
  let n := 2 ^ l
  let segs := (List.range (32 / n)).map fun s => f (((laneList x).drop (s * n)).take n)
  (ofLaneList (segs.map Prod.fst).flatten, Vector.ofFn fun i => (segs.getD (i.val / n) ([], 0#5)).2)

/-- The forward transform of a register (R240). -/
def forwardReg (k : StepKind) (ovp : Bool) (l : Nat) (x : PerLane Word) : PerLane Word × PerLane (BitVec 5) :=
  bySegment l (fwdSeg k ovp l) x

/-- The inverse transform that a tag records, over all 32 lanes; a spatial register is itself (R122, R246). -/
def inverseReg (t : Tag) (ovp : Bool) (x : PerLane Word) : PerLane Word × PerLane (BitVec 5) :=
  if t.haar then bySegment (descL t.desc) (invSeg (descStep t.desc) ovp (descL t.desc)) x
  else (x, Vector.replicate 32 0#5)

/-- The approximation lanes of level L (R239). -/
def approxLanes (l : Nat) : Lanes := lanesWhere fun i => i.val % 2 ^ l = 0

/-- LIVE from values (R240): approximation lanes, and detail lanes whose value is not ±0, or not 0 under STR. -/
def liveOf (l : Nat) (str : Bool) (x : PerLane Word) : Lanes :=
  lanesWhere fun i => i.val % 2 ^ l = 0 || (if str then x[i] ≠ 0#32 else x[i] &&& 0x7fffffff#32 ≠ 0#32)

/-- The magnitude of a detail row (R242): NaN if a word is NaN, else the largest |value|. -/
def rowMag (ws : List Word) : Val :=
  ws.foldl (fun m w =>
    let v := Fmt.f32.val (w.toNat % 2 ^ 31)
    if m.isNan then m else if v.isNan then .nan false else if ltV m v then v else m) (.fin false 0 0 false)

/-- NaN above +infinity, then by value (R242, keep-k). -/
def magAbove (a b : Val) : Bool :=
  if b.isNan then false else if a.isNan then true else ltV b a

/-- Whether the detail row at an offset survives the threshold word `th` among the segment's magnitudes, offset 0 the
approximation (R242). -/
def survives (th : Word) (mags : List Val) (o : Nat) : Bool :=
  let mode := (th.extractLsb' 30 2).toNat
  let m := mags.getD o (.fin false 0 0 false)
  let theta := Fmt.bf16.val (th.toNat % 65536)
  if o = 0 then true
  else
    match mode with
    | 0 => !(!m.isNan && !theta.isNan && ltV m theta)
    | 1 =>
      let top := (mags.drop 1).foldl (fun a b => if b.isNan then a else if ltV a b then b else a) (.fin false 0 0 false)
      let p := (mulV theta top).1
      !(!m.isNan && !p.isNan && ltV m p)
    | _ =>
      let k := th.toNat % 64
      let ahead := ((List.range mags.length).filter fun j =>
        let x := mags.getD j (.fin false 0 0 false)
        j ≠ 0 && j ≠ o && (magAbove x m || (!magAbove m x && j < o))).length
      ahead < k

end Sys2Proof.Machine
end

