-- ==== Sys2Proof/Machine/Checks.lean ====
section
/-! DEFINITION. The static checks of an instruction's operands: which detail codes of R41 its fields alone raise.

What depends on the machine's state (EXTREG, LOOPLEN, HMODE, HNOT, PCPOS) is not here; neither are the checks of the
class, function and reserved bits, which the decoder makes while it reads the words. -/
namespace Sys2Proof

/-- FUNC, RSVBIT, LIMM and REGNUM of R41. -/
def dFUNC : Nat := 0x02
def dRSVBIT : Nat := 0x03
def dLIMM : Nat := 0x08
def dREGNUM : Nat := 0x09

/-- `[d]` when a rule is broken, nothing otherwise. -/
def viol (b : Bool) (d : Nat) : List Nat := if b then [d] else []

/-- An odd register where an even one is required (R27, R133). -/
def odd (r : BitVec 6) : Bool := r.getLsbD 0

/-- A run of `n` registers from `r` passes register 63. -/
def past (r : BitVec 6) (n : Nat) : Bool := 64 < r.toNat + n

/-- A mask register number above 11 (R95). -/
def badMask (r : BitVec 6) : Bool := 12 ≤ r.toNat

/-- A mask operand of a cross-lane word: 0 to 11, or 63 for every lane (R145). -/
def badMaskSel (r : BitVec 6) : Bool := 12 ≤ r.toNat && r.toNat != 63

/-- A control register: per lane or of the group, and whether some field of it can be written. -/
structure CsrKind where
  perLane : Bool
  writable : Bool
  deriving DecidableEq, Repr

/-- The control registers that the chapters define (R91, R67, R421, R178, R210, R226, R241). -/
def csrKind (n : Nat) : Option CsrKind :=
  if n ∈ [0x010, 0x011, 0x012, 0x017, 0x032, 0x033, 0x034, 0x035] then some ⟨true, true⟩
  else if n ∈ [0x013, 0x015, 0x018, 0x019, 0x01a, 0x030, 0x031, 0x038, 0x039, 0x03a, 0x03b,
      0x040, 0x041, 0x042, 0x043, 0x044, 0x078] then some ⟨false, true⟩
  else if 0x020 ≤ n ∧ n ≤ 0x02b then some ⟨false, true⟩
  else if 0x070 ≤ n ∧ n ≤ 0x077 then some ⟨false, true⟩
  else if n ∈ [0x014, 0x016, 0x036, 0x050, 0x060, 0x061] then some ⟨false, false⟩
  else none

/-- The number of a control register is {a, b} (R432). -/
def csrNum (a b : BitVec 6) : Nat := a.toNat * 64 + b.toNat

/-- A data register of a load or store: R161's alignment and run by the function code's width. -/
def badData (w : Nat) (d : BitVec 6) : Bool :=
  (w == 8 && odd d) || (w == 16 && d.toNat % 4 != 0)

/-- The address registers of format M: a pair must be even (R27). -/
def badAddr (mode : BitVec 2) (a b : BitVec 6) : Bool :=
  (mode == 0#2 && odd b) || (mode == 3#2 && odd a)

/-- The checks of a load (`st` false) or store of `w` bytes; `fe` for the full-empty forms (R27, R161, R167). -/
def memViol (st fe : Bool) (w : Nat) (mode : BitVec 2) (d a b : BitVec 6) : List Nat :=
  viol (mode == 2#2 && (st || fe)) dFUNC ++ viol (badData w d || badAddr mode a b) dREGNUM

/-- The checks of an atomic (R171). -/
def atomViol (one : Bool) (mode : BitVec 2) (sa : BitVec 6) (scope : BitVec 2) (w rt : Bool)
    (d a b : BitVec 6) (bs : Bool) (c : BitVec 6) : List Nat :=
  viol (mode == 2#2 || (mode == 1#2 && scope != 0#2)) dFUNC
    ++ viol ((!rt && d != 0#6) || (one && (b != 0#6 || bs))) dRSVBIT
    ++ viol (badAddr mode a sa || (w && (odd d || (!one && odd b) || odd c))) dREGNUM

/-- The positions of a type code of R140: how many elements, in how many registers (3 for a run of 6-bit elements). -/
def cvtPositions (t : BitVec 4) : Nat :=
  match t.toNat with
  | 0 => 1 | 1 => 2 | 2 => 2 | 3 => 4 | 4 => 4 | 5 => 16 | 6 => 16 | 7 => 8
  | 8 => 1 | 9 => 1 | 10 => 2 | 11 => 2 | 12 => 4 | 13 => 4 | 14 => 8 | _ => 0

/-- The registers that an element of a type lies in: 3 for the 6-bit types, whose elements form runs (R60). -/
def cvtRun (t : BitVec 4) : Nat := if t == 5#4 || t == 6#4 then 3 else 1

/-- The source registers of a `qnt` block, which are the destination registers of `dq` (R142). -/
def qntSrc (fmt : BitVec 3) (st : BitVec 2) : Nat :=
  (if fmt == 0#3 then 8 else 32) / (if st == 0#2 then 1 else 2)

/-- The element registers of a `qnt` block (R142). -/
def qntDst (fmt : BitVec 3) : Nat :=
  if fmt == 0#3 then 1 else if fmt == 1#3 || fmt == 2#3 then 8 else 6

/-- The positions of a `pack` width: 16, 8, 4 or 6 bits (R144). -/
def packPositions (w : BitVec 2) : Nat :=
  match w.toNat with | 0 => 2 | 1 => 4 | 2 => 8 | _ => 16

/-- Inner functions of the integer escape: the one-word functions of the class (R39). -/
def badEscape (ifn : BitVec 5) : Bool := !(ifn.toNat ≤ 0x04 || (0x06 ≤ ifn.toNat && ifn.toNat ≤ 0x15))

/-- The operands of the 64-bit escape (R131, R133): `salu` when b is always scalar. -/
def escViol (ifn : BitVec 5) (ty : BitVec 2) (d a b : BitVec 6) : List Nat :=
  viol (ty != 1#2 || badEscape ifn || (ifn == 0x15#5 && 7 ≤ b.toNat)) dFUNC
    ++ viol (odd d || odd a || (ifn != 0x15#5 && odd b)) dREGNUM

/-- A bit field of `bfx` and `bfi` must be 1 to 32 bits inside the word (R130). -/
def fieldViol (pos : BitVec 5) (len : BitVec 6) : List Nat :=
  viol (len == 0#6 || 32 < len.toNat || 32 < pos.toNat + len.toNat) dFUNC

/-- The operation of `red`, `scan` and `walk`: codes above 0x0b are reserved, and a word that is not anchored has no
anchor (R147). -/
def opViol (op : BitVec 5) (anc : BitVec 9) : List Nat :=
  viol (0x0b < op.toNat) dFUNC ++ viol (op.toNat < 0x0a && anc != 0#9) dRSVBIT

/-- The address of a barrier cell (R308). -/
def cellViol (a : BitVec 6) (sp : Bool) (scope : BitVec 2) : List Nat :=
  viol (sp && scope != 0#2) dFUNC ++ viol (!sp && odd a) dREGNUM

/-- The A run of an `mma` (R214). -/
def mmaRun (six : Bool) : Nat := if six then 6 else 8

/-- The first word's immediate bits that must be 0 under a prefix: i6 (R36). -/
def immLimm (h : Hdr) (k : Bool) : List Nat := viol (h.limm.isSome && k) dLIMM

/-- The header of an instruction that has a word; a step of another agent has none (R25). -/
def Instr.hdr? : Instr → Option Hdr
  | .csrr h _ _ _ => some h
  | .csrw h _ _ _ => some h
  | .tlbinvPage h _ => some h
  | .tlbinvRange h _ _ => some h
  | .tlbinvAll h => some h
  | .perf h _ _ => some h
  | .time h _ _ => some h
  | .nop h => some h
  | .exit h => some h
  | .yield h => some h
  | .sleep h _ => some h
  | .region h => some h
  | .trap h _ => some h
  | .eret h => some h
  | .bra h _ => some h
  | .brx h _ => some h
  | .call h _ => some h
  | .callRegister h _ => some h
  | .ret h _ => some h
  | .loop h _ _ _ => some h
  | .loopRegister h _ _ _ => some h
  | .lbrk h _ => some h
  | .ialuAdd h _ _ _ _ => some h
  | .ialuSub h _ _ _ _ => some h
  | .ialuMul h _ _ _ _ => some h
  | .ialuMulhiN32 h _ _ _ _ => some h
  | .ialuMulhiI32 h _ _ _ _ => some h
  | .ialuMad h _ _ _ _ _ _ => some h
  | .ialuDivN32 h _ _ _ _ => some h
  | .ialuDivI32 h _ _ _ _ => some h
  | .ialuRemN32 h _ _ _ _ => some h
  | .ialuRemI32 h _ _ _ _ => some h
  | .ialuMinN32 h _ _ _ _ => some h
  | .ialuMinI32 h _ _ _ _ => some h
  | .ialuMaxN32 h _ _ _ _ => some h
  | .ialuMaxI32 h _ _ _ _ => some h
  | .ialuAnd h _ _ _ _ => some h
  | .ialuOr h _ _ _ _ => some h
  | .ialuXor h _ _ _ _ => some h
  | .ialuShl h _ _ _ _ => some h
  | .ialuShr h _ _ _ _ => some h
  | .ialuSra h _ _ _ _ => some h
  | .ialuRot h _ _ _ _ => some h
  | .ialuAbs h _ _ _ => some h
  | .ialuNeg h _ _ _ => some h
  | .ialuNot h _ _ _ => some h
  | .ialuClz h _ _ _ => some h
  | .ialuPopc h _ _ _ => some h
  | .ialuBrev h _ _ _ => some h
  | .ialuMov h _ _ _ => some h
  | .ialuBfxN32 h _ _ _ _ _ => some h
  | .ialuBfxI32 h _ _ _ _ _ => some h
  | .ialuBfi h _ _ _ _ _ _ => some h
  | .ialuSel h _ _ _ _ _ => some h
  | .ialuLea h _ _ _ _ _ _ => some h
  | .ialuWid h _ _ _ _ => some h
  | .ialuEscape64 h _ _ _ _ _ _ => some h
  | .ialuiAdd h _ _ _ _ => some h
  | .ialuiSub h _ _ _ _ => some h
  | .ialuiMul h _ _ _ _ => some h
  | .ialuiMinN32 h _ _ _ _ => some h
  | .ialuiMinI32 h _ _ _ _ => some h
  | .ialuiMaxN32 h _ _ _ _ => some h
  | .ialuiMaxI32 h _ _ _ _ => some h
  | .ialuiAnd h _ _ _ _ => some h
  | .ialuiOr h _ _ _ _ => some h
  | .ialuiXor h _ _ _ _ => some h
  | .ialuiShl h _ _ _ _ => some h
  | .ialuiShr h _ _ _ _ => some h
  | .ialuiSra h _ _ _ _ => some h
  | .ialuiRot h _ _ _ _ => some h
  | .ialuiLi h _ _ _ => some h
  | .saluAdd h _ _ _ => some h
  | .saluSub h _ _ _ => some h
  | .saluMul h _ _ _ => some h
  | .saluMulhiN32 h _ _ _ => some h
  | .saluMulhiI32 h _ _ _ => some h
  | .saluMad h _ _ _ _ => some h
  | .saluDivN32 h _ _ _ => some h
  | .saluDivI32 h _ _ _ => some h
  | .saluRemN32 h _ _ _ => some h
  | .saluRemI32 h _ _ _ => some h
  | .saluMinN32 h _ _ _ => some h
  | .saluMinI32 h _ _ _ => some h
  | .saluMaxN32 h _ _ _ => some h
  | .saluMaxI32 h _ _ _ => some h
  | .saluAnd h _ _ _ => some h
  | .saluOr h _ _ _ => some h
  | .saluXor h _ _ _ => some h
  | .saluShl h _ _ _ => some h
  | .saluShr h _ _ _ => some h
  | .saluSra h _ _ _ => some h
  | .saluRot h _ _ _ => some h
  | .saluAbs h _ _ => some h
  | .saluNeg h _ _ => some h
  | .saluNot h _ _ => some h
  | .saluClz h _ _ => some h
  | .saluPopc h _ _ => some h
  | .saluBrev h _ _ => some h
  | .saluMov h _ _ => some h
  | .saluBfxN32 h _ _ _ _ => some h
  | .saluBfxI32 h _ _ _ _ => some h
  | .saluBfi h _ _ _ _ _ => some h
  | .saluLea h _ _ _ _ _ => some h
  | .saluWid h _ _ _ => some h
  | .saluEscape64 h _ _ _ _ _ => some h
  | .saluiAdd h _ _ _ _ => some h
  | .saluiSub h _ _ _ _ => some h
  | .saluiMul h _ _ _ _ => some h
  | .saluiMinN32 h _ _ _ _ => some h
  | .saluiMinI32 h _ _ _ _ => some h
  | .saluiMaxN32 h _ _ _ _ => some h
  | .saluiMaxI32 h _ _ _ _ => some h
  | .saluiAnd h _ _ _ _ => some h
  | .saluiOr h _ _ _ _ => some h
  | .saluiXor h _ _ _ _ => some h
  | .saluiShl h _ _ _ _ => some h
  | .saluiShr h _ _ _ _ => some h
  | .saluiSra h _ _ _ _ => some h
  | .saluiRot h _ _ _ _ => some h
  | .saluiLi h _ _ _ => some h
  | .fadd h _ _ _ _ => some h
  | .fsub h _ _ _ _ => some h
  | .fmul h _ _ _ _ => some h
  | .fmin h _ _ _ _ => some h
  | .fmax h _ _ _ _ => some h
  | .fneg h _ _ _ => some h
  | .fabs h _ _ _ => some h
  | .fscl h _ _ _ _ => some h
  | .fclass h _ _ _ => some h
  | .frnd h _ _ _ _ => some h
  | .faluEscape h _ _ _ _ _ _ _ => some h
  | .ffma h _ _ _ _ _ _ _ _ _ _ _ => some h
  | .fexp2 h _ _ _ => some h
  | .flog2 h _ _ _ => some h
  | .frcp h _ _ _ => some h
  | .frsq h _ _ _ => some h
  | .fsqrt h _ _ _ => some h
  | .fsin h _ _ _ => some h
  | .fcos h _ _ _ => some h
  | .ftanh h _ _ _ => some h
  | .ferf h _ _ _ => some h
  | .cvt h _ _ _ _ _ _ _ _ _ => some h
  | .qnt h _ _ _ _ _ _ _ _ => some h
  | .dq h _ _ _ _ _ _ _ => some h
  | .pack h _ _ _ _ _ => some h
  | .unpack h _ _ _ _ _ => some h
  | .cmpEq h _ _ _ _ _ => some h
  | .cmpNe h _ _ _ _ _ => some h
  | .cmpLtI32 h _ _ _ _ _ => some h
  | .cmpLeI32 h _ _ _ _ _ => some h
  | .cmpGtI32 h _ _ _ _ _ => some h
  | .cmpGeI32 h _ _ _ _ _ => some h
  | .cmpLtN32 h _ _ _ _ _ => some h
  | .cmpLeN32 h _ _ _ _ _ => some h
  | .cmpGtN32 h _ _ _ _ _ => some h
  | .cmpGeN32 h _ _ _ _ _ => some h
  | .fcmpEq h _ _ _ _ _ _ => some h
  | .fcmpNe h _ _ _ _ _ _ => some h
  | .fcmpLt h _ _ _ _ _ _ => some h
  | .fcmpLe h _ _ _ _ _ _ => some h
  | .fcmpGt h _ _ _ _ _ _ => some h
  | .fcmpGe h _ _ _ _ _ _ => some h
  | .fcmpUn h _ _ _ _ _ _ => some h
  | .fcmpOrd h _ _ _ _ _ _ => some h
  | .vote h _ _ _ _ => some h
  | .shfl h _ _ _ _ => some h
  | .push h _ _ _ => some h
  | .bcast h _ _ _ _ => some h
  | .scan h _ _ _ _ _ _ _ _ => some h
  | .red h _ _ _ _ _ _ _ _ _ => some h
  | .elect h _ _ _ => some h
  | .topk h _ _ _ _ _ _ _ _ => some h
  | .hist h _ _ _ _ _ _ _ => some h
  | .rng h _ _ _ _ _ _ => some h
  | .walk h _ _ _ _ _ _ _ _ => some h
  | .join h _ => some h
  | .leave h _ => some h
  | .wait h _ => some h
  | .trywait h _ _ => some h
  | .mset h _ _ => some h
  | .mmov h _ _ => some h
  | .mand h _ _ _ => some h
  | .mor h _ _ _ => some h
  | .mxor h _ _ _ => some h
  | .mnot h _ _ => some h
  | .mpop h _ _ => some h
  | .ldN8 h _ _ _ _ => some h
  | .ldI8 h _ _ _ _ => some h
  | .ldN16 h _ _ _ _ => some h
  | .ldI16 h _ _ _ _ => some h
  | .ld32 h _ _ _ _ => some h
  | .ld64 h _ _ _ _ => some h
  | .ld128 h _ _ _ _ => some h
  | .ldfe32 h _ _ _ _ => some h
  | .ldfe64 h _ _ _ _ => some h
  | .ldfe128 h _ _ _ _ => some h
  | .ldfeClr32 h _ _ _ _ => some h
  | .ldfeClr64 h _ _ _ _ => some h
  | .ldfeClr128 h _ _ _ _ => some h
  | .st8 h _ _ _ _ => some h
  | .st16 h _ _ _ _ => some h
  | .st32 h _ _ _ _ => some h
  | .st64 h _ _ _ _ => some h
  | .st128 h _ _ _ _ => some h
  | .stfe32 h _ _ _ _ => some h
  | .stfe64 h _ _ _ _ => some h
  | .stfe128 h _ _ _ _ => some h
  | .atomAdd h _ _ _ _ _ _ _ _ _ _ => some h
  | .atomMinI h _ _ _ _ _ _ _ _ _ _ => some h
  | .atomMinN h _ _ _ _ _ _ _ _ _ _ => some h
  | .atomMaxI h _ _ _ _ _ _ _ _ _ _ => some h
  | .atomMaxN h _ _ _ _ _ _ _ _ _ _ => some h
  | .atomAnd h _ _ _ _ _ _ _ _ _ _ => some h
  | .atomOr h _ _ _ _ _ _ _ _ _ _ => some h
  | .atomXor h _ _ _ _ _ _ _ _ _ _ => some h
  | .atomXchg h _ _ _ _ _ _ _ _ _ _ => some h
  | .atomCas h _ _ _ _ _ _ _ _ _ _ _ _ => some h
  | .atomInc h _ _ _ _ _ _ _ _ _ _ => some h
  | .atomIncb h _ _ _ _ _ _ _ _ _ _ => some h
  | .aadd h _ _ _ _ _ _ _ => some h
  | .ordend h => some h
  | .lock h _ _ _ => some h
  | .unlock h _ _ => some h
  | .pref h _ _ _ _ => some h
  | .fenceSys h => some h
  | .fenceWin h => some h
  | .waitc h _ _ _ _ => some h
  | .acq h _ => some h
  | .rel h _ => some h
  | .mmaE2m1 h _ _ _ _ _ _ _ => some h
  | .mmaE4m3 h _ _ _ _ _ _ _ _ => some h
  | .mmaE5m2 h _ _ _ _ _ _ _ _ => some h
  | .mmaE3m2 h _ _ _ _ _ _ _ _ => some h
  | .mmaE2m3 h _ _ _ _ _ _ _ _ => some h
  | .mmaI8 h _ _ _ _ _ _ => some h
  | .mmaBf16 h _ _ _ _ _ _ => some h
  | .mmaF16 h _ _ _ _ _ _ => some h
  | .acz h _ => some h
  | .acanch h _ _ _ => some h
  | .acanchScalar h _ _ => some h
  | .acvt h _ _ _ _ _ _ _ _ => some h
  | .acld h _ _ => some h
  | .acst h _ _ => some h
  | .gang h _ _ _ => some h
  | .tgset h _ _ _ => some h
  | .tgget h _ _ _ => some h
  | .wvf h _ _ _ _ _ _ _ => some h
  | .wvi h _ _ _ => some h
  | .stw h _ _ _ _ _ _ _ _ _ _ => some h
  | .ldw h _ _ _ _ => some h
  | .wthr h _ _ _ => some h
  | .board h _ _ _ _ _ => some h
  | .bwait h _ _ => some h
  | .btry h _ _ => some h
  | .bfree h _ => some h
  | .lapr h _ _ => some h
  | .job h _ _ _ => some h
  | .send h _ _ => some h
  | .recv h _ _ => some h
  | .jstat h _ _ _ => some h
  | .seqld h _ _ _ => some h
  | .seqst h _ _ _ => some h
  | .admitSeq h _ _ => some h
  | .retire h _ _ => some h
  | .retireMig h _ _ => some h
  | .tokput h _ _ _ => some h
  | .accept h _ _ _ => some h
  | .draft h _ _ _ => some h
  | .stopck h _ _ _ => some h
  | .ckpt h _ _ => some h
  | .pgref h _ _ _ => some h
  | .pgcow h _ _ _ => some h
  | .pgmove h _ _ _ => some h
  | .pgpin h _ _ _ => some h
  | .pghand h _ _ _ => some h
  | .catld h _ _ _ => some h
  | .catst h _ _ _ => some h
  | .bar h _ _ _ _ => some h
  | .barr h _ _ _ _ => some h
  | .barrRem h _ _ => some h
  | .barw h _ _ _ _ => some h
  | .bart h _ _ _ _ _ => some h
  | .gbar h _ => some h
  | .phaseRd h _ _ _ _ => some h
  | .phaseArr h _ _ _ _ => some h
  | .phaseInit h _ _ _ _ => some h
  | _ => none

/-- Whether a LIMM prefix may stand before the instruction, with the bits it replaces 0 (R36). -/
def Instr.takesLimm : Instr → Bool
  | .ialuAdd _ m _ _ _ => !m
  | .ialuSub _ m _ _ _ => !m
  | .ialuMul _ m _ _ _ => !m
  | .ialuMulhiN32 _ m _ _ _ => !m
  | .ialuMulhiI32 _ m _ _ _ => !m
  | .ialuDivN32 _ m _ _ _ => !m
  | .ialuDivI32 _ m _ _ _ => !m
  | .ialuRemN32 _ m _ _ _ => !m
  | .ialuRemI32 _ m _ _ _ => !m
  | .ialuMinN32 _ m _ _ _ => !m
  | .ialuMinI32 _ m _ _ _ => !m
  | .ialuMaxN32 _ m _ _ _ => !m
  | .ialuMaxI32 _ m _ _ _ => !m
  | .ialuAnd _ m _ _ _ => !m
  | .ialuOr _ m _ _ _ => !m
  | .ialuXor _ m _ _ _ => !m
  | .ialuShl _ m _ _ _ => !m
  | .ialuShr _ m _ _ _ => !m
  | .ialuSra _ m _ _ _ => !m
  | .ialuRot _ m _ _ _ => !m
  | .ialuiAdd _ k _ _ _ => !k
  | .ialuiSub _ k _ _ _ => !k
  | .ialuiMul _ k _ _ _ => !k
  | .ialuiMinN32 _ k _ _ _ => !k
  | .ialuiMinI32 _ k _ _ _ => !k
  | .ialuiMaxN32 _ k _ _ _ => !k
  | .ialuiMaxI32 _ k _ _ _ => !k
  | .ialuiAnd _ k _ _ _ => !k
  | .ialuiOr _ k _ _ _ => !k
  | .ialuiXor _ k _ _ _ => !k
  | .ialuiShl _ k _ _ _ => !k
  | .ialuiShr _ k _ _ _ => !k
  | .ialuiSra _ k _ _ _ => !k
  | .ialuiRot _ k _ _ _ => !k
  | .ialuiLi _ k _ imm => !k && imm.extractLsb' 6 6 == 0#6
  | .saluAdd _ _ _ _ => true
  | .saluSub _ _ _ _ => true
  | .saluMul _ _ _ _ => true
  | .saluMulhiN32 _ _ _ _ => true
  | .saluMulhiI32 _ _ _ _ => true
  | .saluDivN32 _ _ _ _ => true
  | .saluDivI32 _ _ _ _ => true
  | .saluRemN32 _ _ _ _ => true
  | .saluRemI32 _ _ _ _ => true
  | .saluMinN32 _ _ _ _ => true
  | .saluMinI32 _ _ _ _ => true
  | .saluMaxN32 _ _ _ _ => true
  | .saluMaxI32 _ _ _ _ => true
  | .saluAnd _ _ _ _ => true
  | .saluOr _ _ _ _ => true
  | .saluXor _ _ _ _ => true
  | .saluShl _ _ _ _ => true
  | .saluShr _ _ _ _ => true
  | .saluSra _ _ _ _ => true
  | .saluRot _ _ _ _ => true
  | .saluiAdd _ k _ _ _ => !k
  | .saluiSub _ k _ _ _ => !k
  | .saluiMul _ k _ _ _ => !k
  | .saluiMinN32 _ k _ _ _ => !k
  | .saluiMinI32 _ k _ _ _ => !k
  | .saluiMaxN32 _ k _ _ _ => !k
  | .saluiMaxI32 _ k _ _ _ => !k
  | .saluiAnd _ k _ _ _ => !k
  | .saluiOr _ k _ _ _ => !k
  | .saluiXor _ k _ _ _ => !k
  | .saluiShl _ k _ _ _ => !k
  | .saluiShr _ k _ _ _ => !k
  | .saluiSra _ k _ _ _ => !k
  | .saluiRot _ k _ _ _ => !k
  | .saluiLi _ k _ imm => !k && imm.extractLsb' 6 6 == 0#6
  | .fadd _ _ _ _ _ => true
  | .fsub _ _ _ _ _ => true
  | .fmul _ _ _ _ _ => true
  | .fmin _ _ _ _ _ => true
  | .fmax _ _ _ _ _ => true
  | .fscl _ _ _ _ _ => true
  | .cmpEq _ m _ _ _ _ => !m
  | .cmpNe _ m _ _ _ _ => !m
  | .cmpLtI32 _ m _ _ _ _ => !m
  | .cmpLeI32 _ m _ _ _ _ => !m
  | .cmpGtI32 _ m _ _ _ _ => !m
  | .cmpGeI32 _ m _ _ _ _ => !m
  | .cmpLtN32 _ m _ _ _ _ => !m
  | .cmpLeN32 _ m _ _ _ _ => !m
  | .cmpGtN32 _ m _ _ _ _ => !m
  | .cmpGeN32 _ m _ _ _ _ => !m
  | .fcmpEq _ m _ _ _ _ _ => !m
  | .fcmpNe _ m _ _ _ _ _ => !m
  | .fcmpLt _ m _ _ _ _ _ => !m
  | .fcmpLe _ m _ _ _ _ _ => !m
  | .fcmpGt _ m _ _ _ _ _ => !m
  | .fcmpGe _ m _ _ _ _ _ => !m
  | .fcmpUn _ m _ _ _ _ _ => !m
  | .fcmpOrd _ m _ _ _ _ _ => !m
  | .ldN8 _ _ _ _ _ => true
  | .ldI8 _ _ _ _ _ => true
  | .ldN16 _ _ _ _ _ => true
  | .ldI16 _ _ _ _ _ => true
  | .ld32 _ _ _ _ _ => true
  | .ld64 _ _ _ _ _ => true
  | .ld128 _ _ _ _ _ => true
  | .ldfe32 _ _ _ _ _ => true
  | .ldfe64 _ _ _ _ _ => true
  | .ldfe128 _ _ _ _ _ => true
  | .ldfeClr32 _ _ _ _ _ => true
  | .ldfeClr64 _ _ _ _ _ => true
  | .ldfeClr128 _ _ _ _ _ => true
  | .st8 _ _ _ _ _ => true
  | .st16 _ _ _ _ _ => true
  | .st32 _ _ _ _ _ => true
  | .st64 _ _ _ _ _ => true
  | .st128 _ _ _ _ _ => true
  | .stfe32 _ _ _ _ _ => true
  | .stfe64 _ _ _ _ _ => true
  | .stfe128 _ _ _ _ _ => true
  | _ => false

/-- A run of four scalar registers starts at a multiple of 4 (R298 to R301, R399). -/
def badQuad (r : BitVec 6) : Bool := r.toNat % 4 != 0

/-- The operand checks of the classes RING, CHAN, SEQ and PAGE. -/
def Instr.familyViol : Instr → List Nat
  | .lapr _ d s => viol (6 ≤ s.toNat) dFUNC ++ viol (s == 0#3 && odd d) dREGNUM
  | .send _ _ b => viol (badQuad b) dREGNUM
  | .recv _ d _ => viol (badQuad d) dREGNUM
  | .jstat _ _ _ s => viol (s == 3#3 || 6 ≤ s.toNat) dFUNC
  | .admitSeq _ _ a => viol (odd a) dREGNUM
  | .retireMig _ _ b => viol (odd b) dREGNUM
  | .accept _ _ _ b => viol (61 < b.toNat) dREGNUM
  | .draft _ _ _ b => viol (odd b) dREGNUM
  | .ckpt _ _ b => viol (odd b) dREGNUM
  | .pgref _ _ _ b => viol (badQuad b) dREGNUM
  | .pgcow _ _ _ b => viol (badQuad b) dREGNUM
  | .pgmove _ _ _ b => viol (badQuad b) dREGNUM
  | .pgpin _ _ _ b => viol (badQuad b) dREGNUM
  | .pghand _ _ _ b => viol (badQuad b) dREGNUM
  | .catld _ d _ b => viol (badQuad b || odd d) dREGNUM
  | .catst _ d _ b => viol (badQuad b || odd d) dREGNUM
  | _ => []

/-- The static checks of the operand fields. -/
def Instr.operandViol : Instr → List Nat
  | .csrr _ _ a b => viol (csrKind (csrNum a b)).isNone dFUNC
  | .csrw _ _ a b =>
    viol (match csrKind (csrNum a b) with | none => true | some k => !k.writable) dFUNC
  | .tlbinvPage _ a => viol (odd a) dREGNUM
  | .tlbinvRange _ a _ => viol (odd a) dREGNUM
  | .perf _ d b => viol (6 ≤ b.toNat) dFUNC ++ viol (odd d) dREGNUM
  | .time _ d _ => viol (odd d) dREGNUM
  | .loop _ l _ _ => viol (l == 3#2) dREGNUM
  | .loopRegister _ l _ _ => viol (l == 3#2) dREGNUM
  | .lbrk _ l => viol (l == 3#2) dREGNUM
  | .ialuBfxN32 _ _ _ _ pos len => fieldViol pos len
  | .ialuBfxI32 _ _ _ _ pos len => fieldViol pos len
  | .ialuBfi _ _ _ _ _ pos len => fieldViol pos len
  | .ialuLea _ _ d a _ _ _ => viol (odd d || odd a) dREGNUM
  | .ialuWid _ _ d _ pr => viol (pr && odd d) dREGNUM
  | .ialuEscape64 _ _ d a b ifn ty => escViol ifn ty d a b
  | .saluBfxN32 _ _ _ pos len => fieldViol pos len
  | .saluBfxI32 _ _ _ pos len => fieldViol pos len
  | .saluBfi _ _ _ _ pos len => fieldViol pos len
  | .saluLea _ d a _ _ _ => viol (odd d || odd a) dREGNUM
  | .saluWid _ d sel pr => viol (sel == 0#3 || sel == 7#3) dFUNC ++ viol (pr && odd d) dREGNUM
  | .saluEscape64 _ d a b ifn ty => escViol ifn ty d a b
  | .faluEscape _ _ _ _ b ifn ty bs =>
    viol (ty == 3#2 || 0x09 < ifn.toNat) dFUNC
      ++ viol ((ifn == 5#5 || ifn == 6#5 || ifn == 8#5) && (b != 0#6 || bs)
        || (ifn == 9#5 && (4 ≤ b.toNat || bs))) dRSVBIT
  | .ffma _ _ _ _ _ _ ty _ _ _ _ _ => viol (ty == 3#2) dFUNC
  | .cvt _ _ d a st dt rm dith js jd =>
    viol (cvtPositions st ≤ js.toNat || cvtPositions dt ≤ jd.toNat
      || (dith && (!(3 ≤ dt.toNat && dt.toNat ≤ 7) || rm != 0#2))) dFUNC
      ++ viol (past d (cvtRun dt) || past a (cvtRun st)) dREGNUM
  | .qnt _ _ d a _ _ fmt st _ =>
    viol (5 ≤ fmt.toNat || st == 3#2) dFUNC ++ viol (past a (qntSrc fmt st) || past d (qntDst fmt)) dREGNUM
  | .dq _ _ d a _ _ fmt dt =>
    viol (5 ≤ fmt.toNat || dt == 3#2) dFUNC ++ viol (past d (qntSrc fmt dt) || past a (qntDst fmt)) dREGNUM
  | .pack _ _ d _ j w => viol (packPositions w ≤ j.toNat) dFUNC ++ viol (w == 3#2 && past d 3) dREGNUM
  | .unpack _ _ _ a j w => viol (packPositions w ≤ j.toNat) dFUNC ++ viol (w == 3#2 && past a 3) dREGNUM
  | .vote _ _ _ _ b => viol (badMaskSel b) dREGNUM
  | .shfl _ _ _ _ b => viol (badMaskSel b) dREGNUM
  | .elect _ _ _ b => viol (badMaskSel b) dREGNUM
  | .scan _ _ _ _ op anc _ _ mask => opViol op anc ++ viol (badMaskSel mask) dREGNUM
  | .red _ _ d _ op anc raw _ _ mask =>
    opViol op anc ++ viol (raw && op.toNat < 0x0a) dRSVBIT ++ viol (badMaskSel mask || (raw && past d 3)) dREGNUM
  | .topk _ _ _ _ ty ks kv _ mask =>
    viol (ty == 3#2 || (!ks && 32 < kv.toNat)) dFUNC ++ viol (badMaskSel mask) dREGNUM
  | .hist _ _ _ _ shift w mask ty =>
    viol (w == 0#3 || 6 ≤ w.toNat || ty == 3#2 || 32 < shift.toNat + w.toNat) dFUNC ++ viol (badMaskSel mask) dREGNUM
  | .rng _ d a b x bsel n =>
    viol (!bsel && b != 0#6) dRSVBIT ++ viol (odd a || odd b || odd x || past d (n.toNat + 1)) dREGNUM
  | .walk _ _ _ op anc mode _ mask seg =>
    opViol op anc ++ viol (mode == 3#2 && op != 0#5) dFUNC ++ viol (badMaskSel mask || badMaskSel seg) dREGNUM
  | .join _ d => viol (badMask d) dREGNUM
  | .leave _ d => viol (badMask d) dREGNUM
  | .wait _ d => viol (badMask d) dREGNUM
  | .trywait _ d a => viol (4 ≤ d.toNat || badMask a) dREGNUM
  | .mset _ d _ => viol (badMask d) dREGNUM
  | .mmov _ _ a => viol (badMask a) dREGNUM
  | .mand _ d a b => viol (badMask d || badMask a || badMask b) dREGNUM
  | .mor _ d a b => viol (badMask d || badMask a || badMask b) dREGNUM
  | .mxor _ d a b => viol (badMask d || badMask a || badMask b) dREGNUM
  | .mnot _ d a => viol (badMask d || badMask a) dREGNUM
  | .mpop _ _ a => viol (badMask a) dREGNUM
  | .ldN8 _ o d a b => memViol false false 1 o d a b
  | .ldI8 _ o d a b => memViol false false 1 o d a b
  | .ldN16 _ o d a b => memViol false false 2 o d a b
  | .ldI16 _ o d a b => memViol false false 2 o d a b
  | .ld32 _ o d a b => memViol false false 4 o d a b
  | .ld64 _ o d a b => memViol false false 8 o d a b
  | .ld128 _ o d a b => memViol false false 16 o d a b
  | .ldfe32 _ o d a b => memViol false true 4 o d a b
  | .ldfe64 _ o d a b => memViol false true 8 o d a b
  | .ldfe128 _ o d a b => memViol false true 16 o d a b
  | .ldfeClr32 _ o d a b => memViol false true 4 o d a b
  | .ldfeClr64 _ o d a b => memViol false true 8 o d a b
  | .ldfeClr128 _ o d a b => memViol false true 16 o d a b
  | .st8 _ o d a b => memViol true false 1 o d a b
  | .st16 _ o d a b => memViol true false 2 o d a b
  | .st32 _ o d a b => memViol true false 4 o d a b
  | .st64 _ o d a b => memViol true false 8 o d a b
  | .st128 _ o d a b => memViol true false 16 o d a b
  | .stfe32 _ o d a b => memViol true true 4 o d a b
  | .stfe64 _ o d a b => memViol true true 8 o d a b
  | .stfe128 _ o d a b => memViol true true 16 o d a b
  | .atomAdd _ _ d a b mode s scope w rt bs => atomViol false mode s scope w rt d a b bs 0
  | .atomMinI _ _ d a b mode s scope w rt bs => atomViol false mode s scope w rt d a b bs 0
  | .atomMinN _ _ d a b mode s scope w rt bs => atomViol false mode s scope w rt d a b bs 0
  | .atomMaxI _ _ d a b mode s scope w rt bs => atomViol false mode s scope w rt d a b bs 0
  | .atomMaxN _ _ d a b mode s scope w rt bs => atomViol false mode s scope w rt d a b bs 0
  | .atomAnd _ _ d a b mode s scope w rt bs => atomViol false mode s scope w rt d a b bs 0
  | .atomOr _ _ d a b mode s scope w rt bs => atomViol false mode s scope w rt d a b bs 0
  | .atomXor _ _ d a b mode s scope w rt bs => atomViol false mode s scope w rt d a b bs 0
  | .atomXchg _ _ d a b mode s scope w rt bs => atomViol false mode s scope w rt d a b bs 0
  | .atomCas _ _ d a b mode s scope w rt c bs _ => atomViol false mode s scope w rt d a b bs c
  | .atomInc _ _ d a b mode s scope w rt bs => atomViol true mode s scope w rt d a b bs 0
  | .atomIncb _ _ d a b mode s scope w rt bs => atomViol false mode s scope w rt d a b bs 0
  | .aadd _ a b mode s scope _ bs => atomViol false mode s scope false false 0 a b bs 0
  | .lock _ _ a _ => viol (odd a) dREGNUM
  | .unlock _ a _ => viol (odd a) dREGNUM
  | .pref _ m l a b => viol (l == 3#2) dFUNC ++ viol (if m then odd a else odd b) dREGNUM
  | .acq _ d => viol (!(d == 32#6 || d == 40#6 || d == 48#6 || d == 56#6)) dREGNUM
  | .rel _ d => viol (!(d == 32#6 || d == 40#6 || d == 48#6 || d == 56#6)) dREGNUM
  | .mmaE2m1 _ _ _ a _ sa _ _ => viol (past a (mmaRun false) || odd sa) dREGNUM
  | .mmaE4m3 _ _ _ a _ _ _ _ _ => viol (past a (mmaRun false)) dREGNUM
  | .mmaE5m2 _ _ _ a _ _ _ _ _ => viol (past a (mmaRun false)) dREGNUM
  | .mmaE3m2 _ _ _ a _ _ _ _ _ => viol (past a (mmaRun true)) dREGNUM
  | .mmaE2m3 _ _ _ a _ _ _ _ _ => viol (past a (mmaRun true)) dREGNUM
  | .mmaI8 _ _ _ a _ _ _ => viol (past a (mmaRun false)) dREGNUM
  | .mmaBf16 _ _ _ a _ _ _ => viol (past a (mmaRun false)) dREGNUM
  | .mmaF16 _ _ _ a _ _ _ => viol (past a (mmaRun false)) dREGNUM
  | .acvt _ d _ b dt c0 n noba _ =>
    let e := if dt == 0#4 || dt == 8#4 then 1 else if dt == 1#4 || dt == 2#4 then 2 else 4
    viol (!(dt.toNat ≤ 4 || dt == 8#4) || c0.toNat % e != 0 || 64 < c0.toNat + (n.toNat + 1) * e) dFUNC
      ++ viol (noba && b != 0#6) dRSVBIT ++ viol (past d (n.toNat + 1)) dREGNUM
  | .gang _ _ _ b => viol (9 ≤ b.toNat) dFUNC
  | .tgget _ _ a s => viol (5 ≤ s.toNat) dFUNC ++ viol (2 ≤ s.toNat && s.toNat ≤ 4 && 8 ≤ a.toNat) dRSVBIT
  | .wvf _ _ _ _ u s _ l => viol (l == 0#3 || 6 ≤ l.toNat || (s && u)) dFUNC
  | .stw _ _ a b mode l _ sx t n rw =>
    viol (2 ≤ mode.toNat || l == 0#3 || 6 ≤ l.toNat || (t && sx)) dFUNC ++ viol (!t && n != 0#3) dRSVBIT
      ++ viol (past a (rw.toNat + 1) || (mode == 0#2 && odd b)) dREGNUM
  | .ldw _ d b mode rw =>
    viol (2 ≤ mode.toNat) dFUNC ++ viol (past d (rw.toNat + 1) || (mode == 0#2 && odd b)) dREGNUM
  | .board _ _ _ _ mr all => viol (all && mr != 0#6) dRSVBIT
  | .bar _ _ a p s => cellViol a p s
  | .barr _ _ a p s => cellViol a p s
  | .barrRem _ _ a => viol (odd a) dREGNUM
  | .barw _ _ a p s => cellViol a p s
  | .bart _ _ a _ p s => cellViol a p s
  | .phaseRd _ _ a p s => cellViol a p s
  | .phaseArr _ _ a p s => cellViol a p s
  | .phaseInit _ _ a p s => cellViol a p s
  | i => i.familyViol

/-- What a prefix before the word breaks (R36): the consumer must be of a listed class, have a second source in b, and
keep the replaced bits 0. -/
def Instr.limmViol (i : Instr) : List Nat :=
  match i.hdr? with
  | none => []
  | some h => if h.limm.isNone then [] else viol (!i.takesLimm) dLIMM

end Sys2Proof
end

