-- ==== Sys2Proof/Machine/Operands.lean ====
section
/-! DEFINITION. The operand forms: which registers a word reads and writes, its counter, and whether it is
side-effecting or shut out of handler mode. The checks EXTREG, HAZARD and CHAINWR read nothing else (R31, R40, R45). -/
namespace Sys2Proof.Machine

/-- The pipe kinds (R30). -/
inductive Pipe where
  | v | s | m | x
  deriving DecidableEq, Repr

/-- What the issue of a word needs to know of it: its header; the vector and scalar registers it reads and writes; the
predicates, mask registers and loop counters it writes; its counter (R43); whether it is side-effecting (R115) and
whether handler mode shuts it out (R424). -/
structure WordSpec where
  h : Hdr
  pipe : Pipe
  vr : List Nat := []
  vw : List Nat := []
  sr : List Nat := []
  sw : List Nat := []
  pw : List Nat := []
  mw : List Nat := []
  lw : List Nat := []
  cnt : Option Cls := none
  side : Bool := false
  hnot : Bool := false
  deriving DecidableEq, Repr

/-- A run of `n` registers from `r`. -/
def runOf (r n : Nat) : List Nat := (List.range n).map (r + ·)

/-- A register pair. -/
def pairOf (r : BitVec 6) : List Nat := [r.toNat, r.toNat + 1]

/-- Second source b of a vector word: a vector register, a scalar register when `m`, or nothing under a prefix. -/
def srcV (h : Hdr) (m : Bool) (b : BitVec 6) : List Nat := if m || h.limm.isSome then [] else [b.toNat]
def srcS (h : Hdr) (m : Bool) (b : BitVec 6) : List Nat := if m && h.limm.isNone then [b.toNat] else []

/-- Vector binary words: `op vD, vA, vB` or `op vD, vA, sB` (R126, R130, R136). -/
def specV2 (h : Hdr) (m : Bool) (d a b : BitVec 6) : WordSpec :=
  { h := h, pipe := .v, vr := a.toNat :: srcV h m b, vw := [d.toNat], sr := srcS h m b }

/-- Vector unary words: `op vD, vA` or `op vD, sA` (R128). -/
def specV1 (h : Hdr) (m : Bool) (d a : BitVec 6) : WordSpec :=
  { h := h, pipe := .v, vr := if m then [] else [a.toNat], vw := [d.toNat], sr := if m then [a.toNat] else [] }

/-- Words that only write a vector register (`li`). -/
def specV0 (h : Hdr) (d : BitVec 6) : WordSpec := { h := h, pipe := .v, vw := [d.toNat] }

/-- `mad` (R130). -/
def specMad (h : Hdr) (m : Bool) (d a b c : BitVec 6) (sc : Bool) : WordSpec :=
  { h := h, pipe := .v, vr := a.toNat :: (if m then [] else [b.toNat]) ++ (if sc then [] else [c.toNat]),
    vw := [d.toNat], sr := (if m then [b.toNat] else []) ++ (if sc then [c.toNat] else []) }

/-- `lea` (R130). -/
def specLea (h : Hdr) (m : Bool) (d a b : BitVec 6) : WordSpec :=
  { h := h, pipe := .v, vr := pairOf a ++ (if m then [] else [b.toNat]), vw := pairOf d,
    sr := if m then [b.toNat] else [] }

/-- `wid` (R130). -/
def specWid (h : Hdr) (d : BitVec 6) (pr : Bool) : WordSpec :=
  { h := h, pipe := .v, vw := if pr then pairOf d else [d.toNat] }

/-- The 64-bit escape of IALU (R131). -/
def specEsc (h : Hdr) (m : Bool) (d a b : BitVec 6) (ifn : BitVec 5) : WordSpec :=
  let un := ifn == 0x15#5
  { h := h, pipe := .v, vr := (if un && m then [] else pairOf a) ++ (if un || m then [] else pairOf b), vw := pairOf d,
    sr := if m then (if un then pairOf a else pairOf b) else [] }

/-- Scalar binary words (R132). -/
def specS2 (h : Hdr) (d a b : BitVec 6) : WordSpec :=
  { h := h, pipe := .s, sr := a.toNat :: (if h.limm.isSome then [] else [b.toNat]), sw := [d.toNat] }

/-- Scalar unary words. -/
def specS1 (h : Hdr) (d a : BitVec 6) : WordSpec := { h := h, pipe := .s, sr := [a.toNat], sw := [d.toNat] }

/-- Words that only write a scalar register. -/
def specS0 (h : Hdr) (d : BitVec 6) : WordSpec := { h := h, pipe := .s, sw := [d.toNat] }

def specSMad (h : Hdr) (d a b c : BitVec 6) : WordSpec :=
  { h := h, pipe := .s, sr := [a.toNat, b.toNat, c.toNat], sw := [d.toNat] }

def specSLea (h : Hdr) (d a b : BitVec 6) : WordSpec :=
  { h := h, pipe := .s, sr := pairOf a ++ [b.toNat], sw := pairOf d }

def specSWid (h : Hdr) (d : BitVec 6) (pr : Bool) : WordSpec :=
  { h := h, pipe := .s, sw := if pr then pairOf d else [d.toNat] }

def specSEsc (h : Hdr) (d a b : BitVec 6) (ifn : BitVec 5) : WordSpec :=
  { h := h, pipe := .s, sr := pairOf a ++ (if ifn == 0x15#5 then [] else pairOf b), sw := pairOf d }

/-- The FALU one-word binary words: m is `.q`, b always a vector register or a prefix value (R136). -/
def specF2 (h : Hdr) (d a b : BitVec 6) : WordSpec := specV2 h false d a b

def specF1 (h : Hdr) (d a : BitVec 6) : WordSpec := specV1 h false d a

/-- The FALU escape (R137): unary for `fneg`, `fabs`, `fclass`, `frnd`. -/
def specFEsc (h : Hdr) (d a b : BitVec 6) (ifn : BitVec 5) (bs : Bool) : WordSpec :=
  if ifn == 5#5 || ifn == 6#5 || ifn == 8#5 || ifn == 9#5 then specF1 h d a
  else { h := h, pipe := .v, vr := a.toNat :: (if bs then [] else [b.toNat]), vw := [d.toNat],
         sr := if bs then [b.toNat] else [] }

/-- `ffma` (R138). -/
def specFma (h : Hdr) (d a b c : BitVec 6) (bs sc : Bool) : WordSpec := specMad h bs d a b c sc

/-- Compares (R134). -/
def specCmp (h : Hdr) (m : Bool) (p : BitVec 2) (a b : BitVec 6) : WordSpec :=
  { h := h, pipe := .v, vr := a.toNat :: srcV h m b, sr := srcS h m b, pw := [p.toNat] }

/-- `cvt` reads the registers it writes parts of (R120, R141). -/
def specCvt (h : Hdr) (d a : BitVec 6) (dt st : BitVec 4) : WordSpec :=
  { h := h, pipe := .v, vr := runOf a.toNat (cvtRun st) ++ runOf d.toNat (cvtRun dt), vw := runOf d.toNat (cvtRun dt) }

/-- `qnt` (R142): the scale register keeps its other bytes. -/
def specQnt (h : Hdr) (d a e : BitVec 6) (fmt : BitVec 3) (st : BitVec 2) : WordSpec :=
  { h := h, pipe := .v, vr := runOf a.toNat (qntSrc fmt st) ++ [e.toNat], vw := runOf d.toNat (qntDst fmt) ++ [e.toNat] }

/-- `dq` (R143). -/
def specDq (h : Hdr) (d a e : BitVec 6) (fmt : BitVec 3) (dt : BitVec 2) : WordSpec :=
  { h := h, pipe := .v, vr := runOf a.toNat (qntDst fmt) ++ [e.toNat], vw := runOf d.toNat (qntSrc fmt dt) }

/-- `pack` and `unpack` (R144). -/
def specPack (h : Hdr) (d a : BitVec 6) (w : BitVec 2) : WordSpec :=
  let n := if w == 3#2 then 3 else 1
  { h := h, pipe := .v, vr := a.toNat :: runOf d.toNat n, vw := runOf d.toNat n }
def specUnpack (h : Hdr) (d a : BitVec 6) (w : BitVec 2) : WordSpec :=
  { h := h, pipe := .v, vr := runOf a.toNat (if w == 3#2 then 3 else 1), vw := [d.toNat] }

/-- Predicate p3, which a `.part` word writes (R145). -/
def partW (m : Bool) : List Nat := if m then [3] else []

/-- The address registers of format M (R27). -/
def addrV (mode : BitVec 2) (a : BitVec 6) : List Nat := if mode == 3#2 then pairOf a else [a.toNat]
def addrS (mode : BitVec 2) (b : BitVec 6) : List Nat := if mode == 0#2 then pairOf b else [b.toNat]

/-- The registers of a data run of `w` bytes. -/
def dataRun (w : Nat) (d : BitVec 6) : List Nat := runOf d.toNat (if w == 8 then 2 else if w == 16 then 4 else 1)

/-- Loads and the full-empty loads (R162, R167). -/
def specLd (h : Hdr) (w : Nat) (mode : BitVec 2) (d a b : BitVec 6) : WordSpec :=
  { h := h, pipe := .m, vr := addrV mode a, sr := addrS mode b, vw := dataRun w d, cnt := some .ld }

/-- Stores (R163, R169). -/
def specSt (h : Hdr) (w : Nat) (mode : BitVec 2) (d a b : BitVec 6) : WordSpec :=
  { h := h, pipe := .m, vr := addrV mode a ++ dataRun w d, sr := addrS mode b, cnt := some .st }

/-- Atomics (R171): `nb` operands of y and z are read only where the function takes them. -/
def specAtom (h : Hdr) (d a b : BitVec 6) (mode : BitVec 2) (s : BitVec 6) (w rt bs takesB takesC cs : Bool)
    (c : BitVec 6) : WordSpec :=
  let one := fun (r : BitVec 6) => if w then pairOf r else [r.toNat]
  { h := h, pipe := .m, cnt := some (if rt then .ld else .st), side := true,
    vr := addrV mode a ++ (if takesB && !bs then one b else []) ++ (if takesC && !cs then one c else []),
    sr := addrS mode s ++ (if takesB && bs then one b else []) ++ (if takesC && cs then one c else []),
    vw := if rt then one d else [] }

/-- A word of pipe X or S that only names scalar registers. -/
def specSc (h : Hdr) (p : Pipe) (sr sw : List Nat) (cnt : Option Cls) (side : Bool) : WordSpec :=
  { h := h, pipe := p, sr := sr, sw := sw, cnt := cnt, side := side }

/-- The barrier cell's address registers (R308). -/
def cellS (a : BitVec 6) (p : Bool) : List Nat := if p then [a.toNat] else pairOf a

/-- A run of four scalar registers. -/
def quad (b : BitVec 6) : List Nat := runOf b.toNat 4

/-- An `mma` (R213 to R217). -/
def specMma (h : Hdr) (run : Nat) (a b : BitVec 6) (scales : List Nat) : WordSpec :=
  { h := h, pipe := .x, vr := runOf a.toNat run ++ scales, sr := [b.toNat], cnt := some .tl, side := true }

end Sys2Proof.Machine
end

