-- ==== Sys2Proof/Machine/Regs.lean ====
section
/-! DEFINITION. Reading and writing a group's registers, predicates, masks and lanes (R90), the only way to them. -/
namespace Sys2Proof.Machine

/-- Every lane. -/
def allLanes : Lanes := 0xffffffff#32

/-- The group at a place; a place that holds none reads as a free one. -/
def State.grp (s : State) (gi : Nat) : Group := s.groups.getD gi Group.blank

/-- The state with the group at a place replaced. -/
def State.setGrp (s : State) (gi : Nat) (g : Group) : State := { s with groups := s.groups.set gi g }

/-- A group changed in place. -/
def State.onGrp (s : State) (gi : Nat) (f : Group → Group) : State := s.setGrp gi (f (s.grp gi))

/-- Vector register n, all lanes. -/
def Group.vreg (g : Group) (n : Nat) : PerLane Word := g.v.getD n (Vector.replicate 32 0)

/-- The tag of vector register n. -/
def Group.tag (g : Group) (n : Nat) : Tag := g.tags.getD n Tag.spatial

/-- Scalar register n. -/
def Group.sreg (g : Group) (n : Nat) : Word := g.s.getD n 0

/-- The scalar pair n, n + 1. -/
def Group.spair (g : Group) (n : Nat) : Dword := pair (g.sreg n) (g.sreg (n + 1))

/-- Predicate n as a lane set; p0 reads 1 (R90). -/
def Group.pred (g : Group) (n : Nat) : Lanes :=
  match n with | 0 => allLanes | 1 => g.p1 | 2 => g.p2 | _ => g.p3

/-- Mask register n (R95). -/
def Group.mreg (g : Group) (n : Nat) : Word := g.m.getD n 0

/-- Loop counter n. -/
def Group.lreg (g : Group) (n : Nat) : Word := g.lc.getD n 0

/-- The counting rule is selected: `nmode.OVP` (R67). -/
def Group.ovp (g : Group) : Bool := g.nmode.getLsbD 0

/-- A vector register as a spatial value: a Haar register is reconstructed in the operand path (R122). -/
def Group.rows (g : Group) (n : Nat) : PerLane Word := (inverseReg (g.tag n) g.ovp (g.vreg n)).1

/-- A vector register written whole, with its tag. -/
def Group.setV (g : Group) (n : Nat) (x : PerLane Word) (t : Tag) : Group :=
  { g with v := g.v.setIfInBounds n x, tags := g.tags.setIfInBounds n t }

/-- A vector register written in some lanes only, tagged spatial (R122). -/
def Group.putV (g : Group) (n : Nat) (ls : Lanes) (f : Fin 32 → Word) : Group :=
  let old := g.vreg n
  g.setV n (Vector.ofFn fun l => if ls.getLsbD l then f l else old[l]) Tag.spatial

/-- A scalar register written. -/
def Group.setS (g : Group) (n : Nat) (x : Word) : Group := { g with s := g.s.setIfInBounds n x }

/-- A scalar pair written, the low word in the even register (R60). -/
def Group.setSpair (g : Group) (n : Nat) (x : Dword) : Group := (g.setS n (lowW x)).setS (n + 1) (highW x)

/-- A predicate written in some lanes; a write to p0 is discarded (R90). -/
def Group.putP (g : Group) (n : Nat) (ls : Lanes) (x : Lanes) : Group :=
  let new := fun (o : Lanes) => (o &&& ~~~ls) ||| (x &&& ls)
  match n with
  | 0 => g
  | 1 => { g with p1 := new g.p1 }
  | 2 => { g with p2 := new g.p2 }
  | _ => { g with p3 := new g.p3 }

/-- A mask register written. -/
def Group.setM (g : Group) (n : Nat) (x : Word) : Group := { g with m := g.m.setIfInBounds n x }

/-- A loop counter written. -/
def Group.setL (g : Group) (n : Nat) (x : Word) : Group := { g with lc := g.lc.setIfInBounds n x }

/-- One lane. -/
def Group.lane (g : Group) (l : Fin 32) : Lane := g.lanes[l]

/-- Some lanes changed. -/
def Group.onLanes (g : Group) (ls : Lanes) (f : Fin 32 → Lane → Lane) : Group :=
  { g with lanes := Vector.ofFn fun l => if ls.getLsbD l then f l g.lanes[l] else g.lanes[l] }

/-- The lanes in a state. -/
def Group.inState (g : Group) (st : LaneSt) : Lanes := lanesWhere fun l => g.lanes[l].st = st

/-- A register of a block that the group holds, or of the base set (R40, R92). -/
def Group.holds (g : Group) (n : Nat) : Bool := n < 32 || (n < 64 && g.held.getLsbD ((n - 32) / 8))

/-- The outstanding operations of a counter (R43). -/
def Group.cnt (g : Group) (c : Cls) : Nat := (g.ops.filter fun o => o.cls = c).length

/-- An operation that has not retired (R44). -/
def Group.live (g : Group) (id : Nat) : Bool := g.ops.any fun o => o.id = id

/-- The packet of a PC (R21). -/
def pkt (pc : Word) : Nat := pc.toNat / 4

/-- The slot of a PC (R21). -/
def slotOf (pc : Word) : Nat := pc.toNat % 4

/-- The PC of a packet and slot (R21). -/
def mkPc (p s : Nat) : Word := BitVec.ofNat 32 (p % 2 ^ 30 * 4 + s)

/-- The PC after the words of a chain (R21). -/
def pcAfter (pc : Word) (n : Nat) : Word :=
  if 3 ≤ slotOf pc + n then mkPc (pkt pc + 1) 0 else mkPc (pkt pc) (slotOf pc + n)

/-- Whether a group is in handler mode (R424); a parked group remembers it. -/
def Group.hm (g : Group) : Bool :=
  match g.status with | .handler => true | .parked b => b | _ => false

/-- The group's issue PC: the least PC of its runnable lanes, or the handler PC (R85, R424). -/
def Group.issuePc (g : Group) : Option Word :=
  if g.status = .handler then some g.hpc
  else
    (List.finRange 32).foldl (fun o l =>
      let x := g.lanes[l]
      if x.st = .runnable then
        match o with
        | none => some x.pcv
        | some p => if x.pcv.toNat < p.toNat then some x.pcv else o
      else o) none

/-- The lanes that stand at a PC (R85); every lane in handler mode (R424). -/
def Group.lanesAt (g : Group) (pc : Word) : Lanes :=
  if g.status = .handler then allLanes
  else lanesWhere fun l => g.lanes[l].st = .runnable && g.lanes[l].pcv == pc

end Sys2Proof.Machine
end

