-- ==== Sys2Proof/Machine/Ops.lean ====
section
/-! DEFINITION. The operations every word of a group goes through: the checks at issue, marking lanes, advancing, releases,
and taking and leaving a trap (chapters Group and Trap record).

A word's meaning is `word spec s body`: the checks of the word's registers, then the body on the state with the lanes
advanced, then the end of the chain. A body reads its sources from the group as it stood before the chain (R32). -/
namespace Sys2Proof.Machine

/-! ### Fault causes (R416) -/

def cILLEGAL : Nat := 0x01
def cHAZARD : Nat := 0x02
def cALIGN : Nat := 0x03
def cPAGE : Nat := 0x04
def cPROT : Nat := 0x05
def cRANGE : Nat := 0x06
def cCAP : Nat := 0x07
def cDOMAIN : Nat := 0x08
def cRINGPOISON : Nat := 0x09
def cCONVX : Nat := 0x0a
def cFPE : Nat := 0x0b
def cGANG : Nat := 0x0c
def cTOKEN : Nat := 0x0d
def cWINDOW : Nat := 0x0e
def cTIMEOUT : Nat := 0x0f
def cMACHINE : Nat := 0x10

/-- No cause of R416: an access that a host port in training holds (R468). -/
def cHOLD : Nat := 0x102
def cPROGRAM : Nat := 0x11

/-- Causes that go to the system path whatever `hcm` says (R416). -/
def alwaysSystem (cause : Nat) : Bool := cause = cPAGE || cause = cRANGE || cause = cCAP || cause = cMACHINE

/-! ### Time -/

/-- One step of time: a clk and a nanosecond, but for a held count (R465; log entry 11). -/
def State.tick (s : State) : State :=
  { s with
    clk := s.clk + 1, turn := s.turn + 1,
    clock := if s.clock.hold = 0 then { s.clock with ns := s.clock.ns + 1 } else { s.clock with hold := s.clock.hold - 1 } }

/-- The package answers the outside world beyond the DOE mailbox, and steps 4 to 9 of bring-up have been taken: it is not held in recovery,
and the die link has trained (R470, R472). -/
def State.exposed (s : State) : Bool := !s.ctl.recovery && !s.ctl.halted

/-! ### A word being executed -/

/-- What a body knows of its word: the group's place, the group before the chain, the group as the earlier words of the chain
have left it, the issuing lanes, the lanes at the PC, handler mode, the PC of the chain and the PC after it. -/
structure Wctx where
  gi : Nat
  snap : Group
  now : Group
  lanes : Lanes
  at_ : Lanes
  hm : Bool
  pc : Word
  next : Word
  deriving DecidableEq, Repr

/-- How a body ends: its effect, a precise fault, an issue that is held before the chain has any effect, or an effect after
which the group waits with the chain issued. -/
inductive Res where
  | ok (s : State)
  | raise (cause detail : Nat)
  | hold (k : StallKind)
  | wait (k : StallKind) (s : State)

/-- The word's view, from the issue latch and the guard (R26). -/
def wctx (h : Hdr) (s : State) : Wctx :=
  { gi := s.iss.gi, snap := s.iss.snap, now := s.grp s.iss.gi, lanes := s.iss.at_ &&& s.iss.snap.pred h.g.toNat, at_ := s.iss.at_,
    hm := s.iss.snap.hm, pc := s.iss.pc, next := s.iss.next }

/-- A register the word names lies in a block that is not held (R40). -/
def extBad (w : WordSpec) (g : Group) : Bool := (w.vr ++ w.vw).any fun n => !g.holds n

/-- The details of the pending registers that the word names (R45). -/
def pendingOf (w : WordSpec) (g : Group) : List Nat :=
  ((w.vr ++ w.vw).filter fun n => (g.pendV.getD n none).isSome)
    ++ ((w.sr ++ w.sw).filter fun n => (g.pendS.getD n none).isSome).map (0x40 + ·)

/-- The least of a list. -/
def leastOf : List Nat → Option Nat
  | [] => none
  | a :: as => match leastOf as with | none => some a | some b => some (min a b)

/-- The access waits for the order token (R174). -/
def OpKind.ordered : OpKind → Bool
  | .atom _ _ _ _ ord _ _ _ _ _ => ord
  | _ => false

/-- An `.ord` atomic that is not applied in full (R190), or an `mma` that waits at its rendezvous (R220), holds the
issue of a side-effecting word. -/
def sideHeld (g : Group) (mma : Bool) : Bool :=
  g.ops.any fun o =>
    !o.done && match o.kind with
      | .atom _ _ _ _ ord _ _ _ _ _ => ord
      | .mma _ _ => !mma && o.todo ≠ 0#32
      | _ => false

/-- The detail codes of the rules that a word breaks in the state it is in: EXTREG, HNOT (R40, R424), and `own`, which the word's own
rule names. -/
def illegalOf (w : WordSpec) (c : Wctx) (own : Option Nat) : List Nat :=
  (if extBad w c.snap then [0x0a] else []) ++ (if w.hnot && c.hm then [0x0e] else []) ++ own.toList

/-- An ordered atomic of the word's own chain is not applied in full: it waits for the token (R190). -/
def Wctx.ownOrd (c : Wctx) : Bool :=
  c.now.ops.any fun o => o.kind.ordered && o.todo ≠ 0#32 && c.snap.nextOp ≤ o.id

/-- What holds a side-effecting word (R190, R220): an operation before its chain, or an ordered atomic of its chain. -/
def Wctx.sideHold (c : Wctx) (mma : Bool) : Option Res :=
  if sideHeld c.snap mma then some (.hold .side) else if c.ownOrd then some (.hold .order) else none

/-- What stops the word before its body (R24, R40, R41, R43, R45, R190, R424): the lowest code of the rules that it breaks, a pending
register, a full counter, which earlier words of the chain have their part in, an ordered atomic or a matrix operation before it. -/
def stopped (w : WordSpec) (c : Wctx) (own : Option Nat := none) : Option Res :=
  match leastOf (illegalOf w c own) with
  | some d => some (.raise cILLEGAL d)
  | none =>
  if c.lanes = 0#32 then none
  else
    match leastOf (pendingOf w c.snap) with
    | some d => some (.raise cHAZARD d)
    | none =>
      match w.cnt with
      | some k =>
        if 63 ≤ c.now.cnt k then some (.hold (.counter k))
        else if w.side then c.sideHold (k = .tl) else none
      | none => if w.side then c.sideHold false else none

/-! ### Marking lanes -/

/-- `fcs` of a fault (R421). -/
def mkFcs (hm : Bool) (cause detail : Nat) : Word :=
  BitVec.ofNat 32 (cause % 256 + detail % 256 * 256 + if hm then 65536 else 0)

/-- Lanes of main code marked faulted, with cause and detail, address and `rgn` (R418, R419); `rpc` follows `setRpc`. -/
def Group.markBy (g : Group) (ls : Lanes) (pc : Word) (setRpc torn : Bool) (fcs : Fin 32 → Word) (addr : Fin 32 → Dword) : Group :=
  g.onLanes ls fun l x =>
    { x with st := .faulted, pcv := pc, rpc := if setRpc then pc else x.rpc, wt := 15,
             fcs := fcs l, fad := addr l, frgn := g.rgn, torn := torn }

/-- Lanes marked with one cause and detail. -/
def Group.mark (g : Group) (ls : Lanes) (pc : Word) (setRpc : Bool) (cause detail : Nat) (addr : Fin 32 → Dword) : Group :=
  g.markBy ls pc setRpc false (fun _ => mkFcs false cause detail) addr

/-- The faults of lanes with one cause and detail. -/
def laneFaults (ls : Lanes) (cause detail : Nat) (addr : Fin 32 → Dword) : List LaneFault :=
  (lanesOf ls).map fun l => (l.val, cause, detail, addr l)

/-- The lanes of a list of faults. -/
def faultLanes (fs : List LaneFault) : Lanes := fs.foldl (fun m x => m ||| lane1 x.1) 0#32

/-- The fault of a lane in a list. -/
def faultOf (fs : List LaneFault) (l : Fin 32) : Nat × Nat × Dword := match fs.find? fun f => f.1 = l.val with | some f => f.2 | none => (0, 0, 0)

/-- The context a group belongs to. -/
def State.ctxOf (s : State) (g : Group) : Nat :=
  match s.kernels[g.kernel]? with | some k => k.ctx | none => 0

/-- A context changed in place. -/
def State.onCtx (s : State) (c : Nat) (f : Ctx → Ctx) : State := { s with ctxs := updAt s.ctxs c f }

/-- A team changed in place. -/
def State.onTeam (s : State) (t : Nat) (f : Team → Team) : State := { s with teams := updAt s.teams t f }

/-- A team holds its core's resources (R325, R442). -/
def Team.holds (t : Team) : Bool := match t.st with | .resident => true | .leaving _ => true | _ => false

/-- The team of a group is on a core: a parked team's accesses and waits stand still (R442). -/
def State.onCore (s : State) (gi : Nat) : Bool :=
  match s.teams[(s.grp gi).team]? with | some t => t.holds | none => false

/-- A kernel changed in place. -/
def State.onKernel (s : State) (k : Nat) (f : Kernel → Kernel) : State := { s with kernels := updAt s.kernels k f }

/-- A record of no cause. -/
def Rec.blank : Rec :=
  ⟨0, 0, 0, 0, 0, 0, 0, 0, 0, 0, 0, 0, 0, 0, 0, 0, 0, 0, none, none, false, false⟩

/-- A record posted to a context's fault queue; it takes its number and its time when it is written (R428, R429). -/
def State.post (s : State) (c : Nat) (r : Rec) : State :=
  s.onCtx c fun x => { x with recs := x.recs ++ [r] }

/-- The boarding of a group's context and cluster whose bytes cover an offset (R276): what a RINGPOISON record says of it: lap,
layer and track, tile index, the tile's place. -/
def ringWords (s : State) (g : Group) (off : Nat) : Word × Word × Nat × Nat :=
  match s.ring.boards.find? fun b => b.cluster = g.core / 4 && b.ctx = s.ctxOf g && b.st != .free && b.off ≤ off
      && off < b.off + b.count * b.tracks.length * b.tile with
  | some b =>
    let p := (off - b.off) / b.tile
    (BitVec.ofNat 32 b.lap,
      BitVec.ofNat 32 (b.layer % 4096 + b.tracks.getD (p % b.tracks.length) 0 % 32 * 4096), b.first + p / b.tracks.length,
      b.off + p * b.tile)
  | none => (0, 0, 0, off)

/-- The record of a group's fault (R428): lanes `ls`, the lowest of them giving the address. `at_` is what a poisoned tile's read found
of the tile. -/
def groupRecAt (at_ : Word × Word × Nat × Nat) (s : State) (gi : Nat) (cause detail flg : Nat) (ls : Lanes) (addr : Dword) (pc : Word)
    (held : Bool) : Rec :=
  let g := s.grp gi
  let k := s.kernels[g.kernel]?
  let w := if cause = cRINGPOISON then at_ else (0, 0, 0, addr.toNat)
  { Rec.blank with
    cause := cause, detail := detail, kind := 1, flg := flg, addr := BitVec.ofNat 64 w.2.2.2,
    ktag := match k with | some k => k.tag | none => 0,
    fmask := ls, team := (match s.teams[g.team]? with | some t => t.idx | none => 0), grp := g.idx, core := g.core,
    pc := pc, rgn := g.rgn, x0 := w.2.1, x1 := w.1, px := w.2.2.1, gi := if held then some gi else none }

/-- The record of a fault found now. -/
def groupRec (s : State) (gi : Nat) (cause detail flg : Nat) (ls : Lanes) (addr : Dword) (pc : Word) (held : Bool) : Rec :=
  groupRecAt (ringWords s (s.grp gi) addr.toNat) s gi cause detail flg ls addr pc held

/-- The record of a lane fault deferred before: of a poisoned tile it says what the read found (R276). -/
def laneRec (s : State) (gi : Nat) (cause detail flg : Nat) (ls : Lanes) (addr : Dword) (pc : Word) : Rec :=
  let g := s.grp gi
  let found : Option (Nat × Word × Word × Nat × Nat) := match lanesOf ls with
    | l :: _ => g.tileNotes.find? fun n => n.1 = l.val
    | [] => none
  groupRecAt (match found with | some (_, n) => n | none => ringWords s g addr.toNat) s gi cause detail flg ls addr pc true

/-- What a record of a lane's fault says of a poisoned tile: what the read noted, or what the place holds now. -/
def tileFor (notes : List TileNote) (s : State) (gi l : Nat) (addr : Dword) : Word × Word × Nat × Nat :=
  match notes.find? fun n => n.1 = l with
  | some n => n.2
  | none => ringWords s (s.grp gi) addr.toNat

/-- What reads of poisoned tiles found, kept for the lanes that they fault (R276). -/
def State.noteTile (s : State) (gi : Nat) (ls : Lanes) (fcs : Fin 32 → Word) (addr : Fin 32 → Dword) (notes : List TileNote) : State :=
  match ((lanesOf ls).filter fun l => (fcs l).toNat % 256 = cRINGPOISON).map fun l => (l.val, tileFor notes s gi l.val (addr l)) with
  | [] => s
  | new => s.onGrp gi fun g => { g with tileNotes := (g.tileNotes.filter fun n => !new.any fun m => m.1 = n.1) ++ new }

/-- The group parks on the system path, and its team with it (R420, R494): every other group of the team is asked to
park at its next packet boundary. A team that is leaving for another reason leaves for the trap. -/
def State.parkSystem (s : State) (gi : Nat) (hm : Bool) (r : Rec) : State :=
  let g := s.grp gi
  let s := s.setGrp gi { g with status := .parked hm }
  let s := s.onTeam g.team fun t => { t with st := if t.holds then .leaving .trap else t.st }
  let others := match s.teams[g.team]? with | some t => t.groups | none => []
  let s := others.foldl (fun s j => if j = gi then s else s.onGrp j fun h => { h with parkReq := true }) s
  s.post (s.ctxOf g) r

/-- The place in issue order of a handler word: its outstanding operation's number, or the next one's. -/
def Group.rankOf (g : Group) (pc : Word) : Nat :=
  match g.ops.find? fun o => o.hm && o.pc == pc with | some o => o.id | none => g.nextOp

/-- The handler word that a parked group returns to: the earliest in issue order that has faulted (R425). -/
def Group.fallTo (g : Group) (pc : Word) : Group :=
  let n := g.rankOf pc
  if g.fellAt.any fun m => m ≤ n then g else { g with hpc := pc, fellAt := some n }

/-- The group parks on the system path for a fault of a handler word, to return to handler mode at it (R425). -/
def State.parkHandler (s : State) (gi : Nat) (r : Rec) (pc : Word) : State :=
  (s.onGrp gi fun g => g.fallTo pc).parkSystem gi true r

/-- What the lanes of a handler word's fault show while the group is parked for it (R419, R428): cause and detail with HF set, address,
`rgn`. The lanes' own states and faults stay as the trap left them (R424; log entry 70). -/
def Group.layMarks (g : Group) (fs : List LaneFault) : Group :=
  let new := (fs.filter fun f => !g.hmarks.any fun m => m.1 = f.1).map fun f => (f.1, mkFcs true f.2.1 f.2.2.1, f.2.2.2, g.rgn)
  { g with hmarks := g.hmarks ++ new }

/-- The record of a repeat trap of a group that is not written yet, which a fault of its handler's own word joins (R435). -/
def Rec.joins (gi : Nat) (r : Rec) : Bool := r.gi = some gi && r.flg = 2 && !r.written

/-- The park for a fault of a handler word: its lanes' faults (none for a TIMEOUT), the cause and detail that the record gives, the
address, the word's PC; `rep` that the same chain's `eret` found the same faults again, or that such a record waits to be written
(R435). -/
def State.fallHandler (s : State) (gi : Nat) (cause detail : Nat) (fs : List LaneFault) (addr : Dword) (pc : Word) (notes : List TileNote)
    (rep : Bool) : State :=
  let c := s.ctxOf (s.grp gi)
  let joins := match s.ctxs[c]? with | some x => x.recs.any (Rec.joins gi) | none => false
  let s := if joins then s.onCtx c fun x => { x with recs := x.recs.filter fun r => !r.joins gi } else s
  let l := match fs with | f :: _ => f.1 | [] => 0
  let r := groupRecAt (tileFor notes s gi l addr) s gi cause detail (if rep || joins then 3 else 1) (faultLanes fs) addr pc true
  (s.onGrp gi fun g => g.layMarks fs).parkHandler gi r pc

/-- A fault raised in handler mode (R425). While the words of a chain of the group are being executed the group parks when the others
have taken effect (R33); the first such fault stands. -/
def State.handlerFault (s : State) (gi : Nat) (fs : List LaneFault) (pc : Word) (notes : List TileNote := []) : State :=
  match fs with
  | [] => s
  | f :: _ =>
    if s.iss.left ≠ 0 && s.iss.gi = gi then
      { s with iss := { s.iss with fell := match s.iss.fell with | some x => some x | none => some (fs, pc) } }
    else s.fallHandler gi f.2.1 f.2.2.1 fs f.2.2.2 pc notes false

/-- The lanes that are exited when a fault of them arrives. A lane that a word of the chain being executed has ended is faulted by
another word of it (R33, R86). -/
def State.goneLanes (s : State) (gi : Nat) : Lanes :=
  if s.iss.left ≠ 0 && s.iss.gi = gi then s.iss.snap.inState .exited else (s.grp gi).inState .exited

/-- Lanes of main code faulted (R6, R418, R419, R493): lanes that have exited (`gone`) are not marked and give one record marked EXITED, at
the PC of the lowest; a lane that is already faulted keeps its fault. Where the raising rule sets `rpc`, every lane returns to the word
(R192, R220, R309). -/
def State.markLanes (s : State) (gi : Nat) (gone : Lanes) (pc : Word) (replayAt torn : Bool) (ls : Lanes) (fcs : Fin 32 → Word)
    (addr : Fin 32 → Dword) (notes : List TileNote) : State :=
  let g := s.grp gi
  let old := g.inState .faulted &&& ls
  let new := ls &&& ~~~gone &&& ~~~old
  let s := s.setGrp gi (g.markBy new pc replayAt torn fcs addr)
  let s := if replayAt && old ≠ 0#32 then s.onGrp gi fun g => g.onLanes old fun _ x => { x with rpc := pc } else s
  let s := if replayAt && s.iss.left ≠ 0 && s.iss.gi = gi then { s with iss := { s.iss with back := s.iss.back ||| ls } } else s
  let s := s.noteTile gi new fcs addr notes
  match lanesOf (gone &&& ls) with
  | [] => s
  | l :: _ =>
    s.post (s.ctxOf g) (groupRecAt (tileFor notes s gi l.val (addr l)) s gi ((fcs l).toNat % 256) ((fcs l).toNat / 256 % 256) 8 (gone &&& ls)
      (addr l) g.lanes[l].pcv false)

/-- A deferred fault of lanes of main code. In handler mode the lane states stay as the trap left them: it is raised when the group leaves
it (R424; log entry 70). -/
def State.deferMain (s : State) (gi : Nat) (ls : Lanes) (pc : Word) (replayAt torn : Bool) (fcs : Fin 32 → Word) (addr : Fin 32 → Dword)
    (notes : List TileNote) : State :=
  let gone := s.goneLanes gi
  if (s.grp gi).hm then
    let s := s.markLanes gi gone pc replayAt torn (ls &&& gone) fcs addr notes
    if ls &&& ~~~gone = 0#32 then s
    else s.onGrp gi fun g =>
      { g with later := g.later ++ [⟨ls &&& ~~~gone, Vector.ofFn fcs, Vector.ofFn addr, pc, replayAt, torn, notes⟩] }
  else s.markLanes gi gone pc replayAt torn ls fcs addr notes

/-- The faults of main code that arrived while the handler ran are raised, as the lanes stand when it ends. -/
def State.raiseLater (s : State) (gi : Nat) : State :=
  (s.grp gi).later.foldl (fun s f => s.markLanes gi ((s.grp gi).inState .exited) f.pc f.replay f.torn f.lanes (fun l => f.fcs[l])
    (fun l => f.addr[l]) f.notes) (s.onGrp gi fun g => { g with later := [] })

/-- A deferred fault of lanes of a word that is being executed or of an outstanding operation, with one cause (R6, R425). -/
def State.defer (s : State) (gi : Nat) (ls : Lanes) (pc : Word) (hm : Bool) (replayAt : Bool) (cause detail : Nat)
    (addr : Fin 32 → Dword) : State :=
  if ls = 0#32 then s
  else if hm then s.handlerFault gi (laneFaults ls cause detail addr) pc
  else s.deferMain gi ls pc replayAt false (fun _ => mkFcs false cause detail) addr []

/-- Deferred faults of several lanes of one operation (R435). In handler mode, and for exited lanes, they make one record, with the lowest
lane's cause. -/
def State.deferAll (s : State) (gi : Nat) (pc : Word) (hm replayAt : Bool) (fs : List LaneFault) (notes : List TileNote := [])
    (torn : Bool := false) : State :=
  if fs = [] then s
  else if hm then s.handlerFault gi fs pc notes
  else s.deferMain gi (faultLanes fs) pc replayAt torn (fun l => mkFcs false (faultOf fs l).1 (faultOf fs l).2.1) (fun l => (faultOf fs l).2.2)
    notes

/-! ### Advancing and regions -/

/-- Lanes at the chain's PC move to the PC after it, once for the chain (R21, R24, R85); a handler's PC moves instead
in handler mode (R424). -/
def State.advance (s : State) : State :=
  if s.iss.advanced then s
  else
    let i := s.iss
    let s := s.onGrp i.gi fun g =>
      if g.hm then { g with hpc := i.next }
      else g.onLanes i.at_ fun _ x => if x.st = .runnable then { x with pcv := i.next } else x
    { s with iss := { i with advanced := true } }

/-- A new region (R115): the count rises and the issuing lanes' entries move past the chain, but for the lanes `out` that
this word has faulted and so masked off (R6), and those that a word of the chain has returned to its PC (R220). Nothing in handler mode (R424). -/
def State.region (s : State) (c : Wctx) (out : Lanes) : State :=
  if c.hm then s
  else s.onGrp c.gi fun g =>
    { g.onLanes (c.lanes &&& ~~~out &&& ~~~s.iss.back) (fun _ x => { x with rpc := c.next }) with rgn := g.rgn + 1 }

/-! ### Loop ends and releases (R102, R103, R112) -/

/-- The innermost open level whose end a lane stands at. -/
def Group.endLevel (g : Group) (l : Fin 32) : Option Nat :=
  let x := g.lanes[l]
  ((List.range g.levels.length).reverse).find? fun i =>
    match g.levels[i]? with
    | some v => v.members.getLsbD l && x.pcv == mkPc (v.last + 1) 0
    | none => false

/-- Every runnable lane that stands at the end of a level of its own waits there (R112). -/
def Group.arrive (g : Group) : Group :=
  g.onLanes allLanes fun l x =>
    if x.st = .runnable then
      match g.endLevel l with
      | some i => { x with st := .waiting, wt := 12 + i }
      | none => x
    else x

/-- The release condition over a member set and a wait position (R102). -/
def Group.canRelease (g : Group) (members : Lanes) (wt : Nat) : Bool :=
  ((List.finRange 32).any fun l => g.lanes[l].st = .waiting && g.lanes[l].wt = wt)
    && (List.finRange 32).all fun l =>
      !members.getLsbD l || g.lanes[l].st = .exited || (g.lanes[l].st = .waiting && g.lanes[l].wt = wt)

/-- The lanes that wait at a position, released at the PC that `f` gives. -/
def Group.release (g : Group) (wt : Nat) (f : Lane → Word) : Group :=
  g.onLanes allLanes fun _ x =>
    if x.st = .waiting && x.wt = wt then { x with st := .runnable, wt := 15, pcv := f x } else x

/-- A level is closed: lanes that wait at a level inside it are renumbered. -/
def Group.closeLevel (g : Group) (i : Nat) : Group :=
  { g.onLanes allLanes (fun _ x => if x.st = .waiting && 12 + i < x.wt && x.wt < 15 then { x with wt := x.wt - 1 } else x)
    with levels := g.levels.eraseIdx i }

/-- A level whose members have all arrived or exited takes its loop end (R112). -/
def Group.loopEnd (g : Group) (i : Nat) : Group :=
  match g.levels[i]? with
  | none => g
  | some v =>
    let n := g.lreg v.lc - 1
    let g := g.setL v.lc n
    if n ≠ 0#32 then g.release (12 + i) fun _ => mkPc v.first 0
    else (g.release (12 + i) fun _ => mkPc (v.last + 1) 0).closeLevel i

/-- One evaluation of every release condition; the ones that hold are released together (R103). -/
def Group.releaseOnce (g : Group) : Group :=
  let ms := (List.range 12).filter fun n => g.canRelease (g.mreg n) n
  let vs := ((List.range g.levels.length).filter fun i =>
    match g.levels[i]? with | some v => g.canRelease v.members (12 + i) | none => false).reverse
  let g' := ms.foldl (fun g n => g.release n fun x => x.wnext) g
  vs.foldl Group.loopEnd g'

/-- Arrivals and releases until nothing changes; each pass ends a wait or a level. -/
def Group.settle : Nat → Group → Group
  | 0, g => g
  | k + 1, g =>
    let a := g.arrive
    let ms := (List.range 12).any fun n => a.canRelease (a.mreg n) n
    let vs := (List.range a.levels.length).any fun i =>
      match a.levels[i]? with | some v => a.canRelease v.members (12 + i) | none => false
    if ms || vs then Group.settle k a.releaseOnce else a

/-- A number for each kind of wait. -/
def StallKind.tag : StallKind → Nat
  | .counter _ => 0 | .waitc .. => 1 | .acq _ => 2 | .fenceSys _ => 3 | .fenceWin _ => 4 | .tlbinv _ => 5
  | .counting => 6 | .side => 7 | .bar .. => 8 | .barw .. => 9 | .bart .. => 10 | .gbar _ => 11 | .gang .. => 12
  | .gangWait .. => 13 | .ungang _ => 14 | .latch => 15 | .tgget => 16 | .board => 17 | .bwait .. => 18 | .slot .. => 19
  | .order => 20

/-- The stall of the mode the group is in. -/
def Group.cur (g : Group) : Option Stall := if g.hm then g.hstall else g.stall

/-- A wait of a barrier word that has made its arrival. -/
def StallKind.arrived : StallKind → Bool
  | .bar .. => true
  | .gbar _ => true
  | _ => false

/-- A wait of a word that is not issued again: its request or its arrival stands until the wait ends or a handler abandons it. -/
def StallKind.keeps : StallKind → Bool
  | .barw .. => false
  | .bart .. => false
  | _ => true

/-- A runnable lane stands at a PC. -/
def Group.standsAt (g : Group) (pc : Word) : Bool := (List.finRange 32).any fun (l : Fin 32) => g.lanes[l].st = .runnable && g.lanes[l].pcv == pc

/-- A wait of the mode that the group is in still holds its issue: of a chain that has issued, while a runnable lane, or the handler,
stands at it, and where its word is not issued again also wherever the lanes stand, but for lanes that replay words before a barrier
word; of one that has not, while the group's issue PC is there (R310, R314, R420). -/
def Group.waitStands (g : Group) (t : Stall) : Bool :=
  if g.hm then g.hpc == t.pc
  else if t.resume.isSome then
    g.standsAt t.pc || (t.kind.keeps && !(t.kind.arrived && g.issuePc.any fun p => p.toNat < t.pc.toNat))
  else g.issuePc == some t.pc

/-- The lanes of a wait that have still to return to its word or stand at it. -/
def Group.owing (g : Group) (t : Stall) : Lanes :=
  lanesWhere fun l => t.lanes.getLsbD l && (g.lanes[l].st = .faulted || g.lanes[l].st = .runnable && g.lanes[l].pcv.toNat ≤ t.pc.toNat)

/-- A wait that has lost its place has been abandoned (R420); that of a barrier word which has arrived is set aside while lanes of it have
still to return to the word, so that it makes no second arrival (R310). -/
def Group.dropStale (g : Group) : Group :=
  match g.cur with
  | some t =>
    if g.waitStands t then g
    else if g.hm then { g with hstall := none }
    else { g with stall := none, kept := if t.resume.isSome && t.kind.arrived then t :: g.kept else g.kept }
  | none => g

/-- The wait of a barrier word is over, or no lane of it is left. -/
def Group.keptOver (g : Group) (t : Stall) : Bool :=
  g.owing t = 0#32 && (t.ready.contains t.kind.tag || t.lanes &&& ~~~(g.inState .exited) = 0#32)

/-- A wait that was set aside, taken up where the group has come to its word again, or past it: no lane of it goes on before the phase has
passed (R310, R314). -/
def Group.takeKept (g : Group) (clk : Nat) : Group :=
  let kept := g.kept.filter fun t => !g.keptOver t
  if g.hm || g.stall.isSome then { g with kept := kept }
  else
    match kept.find? fun t => g.issuePc.any fun p => t.pc.toNat ≤ p.toNat with
    | none => { g with kept := kept }
    | some t => { g with kept := kept.erase t, stall := some { t with since := clk } }

/-- A handler has moved lanes of an issued wait past its word, and no lane of it is left to go on with it (R420). -/
def Group.abandoned (before g : Group) (t : Stall) : Bool :=
  t.resume.isSome && g.owing t = 0#32
    && (List.finRange 32).any fun (l : Fin 32) => t.lanes.getLsbD l
      && (before.lanes[l].newPc.isSome || before.lanes[l].newSt.isSome)

/-- A handler that has moved lanes of an issued wait past its word abandons it, also where it is set aside (R420). -/
def Group.abandon (before g : Group) : Group :=
  { g with stall := g.stall.filter fun t => !before.abandoned g t, kept := g.kept.filter fun t => !before.abandoned g t }

/-! ### Taking a trap (R420, R424, R425) -/

/-- A cause goes to the system path (R416). -/
def Group.toSystem (g : Group) (cause : Nat) : Bool := alwaysSystem cause || !g.hcm.getLsbD cause

/-- A lane is faulted with TOKEN ABORT (R192). -/
def Lane.aborted (x : Lane) : Bool := x.st = .faulted && x.fcs.toNat % 256 = cTOKEN && x.fcs.toNat / 256 % 256 = 2

/-- A lane is faulted by its own failure of an ordered atomic (R192). -/
def Lane.failedOrd (x : Lane) : Bool := x.st = .faulted && x.torn && !x.aborted

/-- The lanes whose fault goes to the system path. Aborted lanes of an ordered atomic go with the lane that failed: by its cause, also where
it had exited and is not faulted itself (R192, R420; log entry 71). -/
def Group.systemLanes (g : Group) : Lanes :=
  let own := lanesWhere fun l => g.lanes[l].st = .faulted && !g.lanes[l].aborted && g.toSystem (g.lanes[l].fcs.toNat % 256)
  let ab := lanesWhere fun l => g.lanes[l].aborted
  let failed := lanesWhere fun l => g.lanes[l].failedOrd
  if failed &&& own ≠ 0#32 || (failed = 0#32 && g.toSystem g.ordCause) then own ||| ab else own

/-- Once no lane that failed an ordered atomic is faulted any more, the lanes that it aborted go on with it, by whichever path it went
(R192). -/
def Group.freeAborted (before g : Group) : Group :=
  if (List.finRange 32).any (fun (l : Fin 32) => before.lanes[l].failedOrd) && !(List.finRange 32).any (fun (l : Fin 32) => g.lanes[l].failedOrd) then
    g.onLanes allLanes fun _ x => if x.aborted then { x with st := .runnable, wt := 15, fcs := 0, fad := 0, frgn := 0, torn := false } else x
  else g

/-- Whether every faulted lane was faulted with the same cause before the handler ran, or the TIMEOUT still holds
(R425). -/
def Group.repeats (g : Group) : Bool :=
  let now := (lanesOf (g.inState .faulted)).map fun l => (l.val, g.lanes[l].fcs &&& 0xff#32)
  now ≠ [] && now.all fun p => g.seen.contains p

/-- Into handler mode (R424): `gstat.HM` 1, the handler PC, the group fault for `gfc`, the faults as they are now. -/
def Group.enterHandler (g : Group) (due : Option Nat) : Group :=
  { g with
    status := .handler, hpc := mkPc (g.htv.toNat / 4) 0,
    gfc := (match due with | some d => BitVec.ofNat 32 (cTIMEOUT + d * 256) | none => 0),
    due := none,
    seen := (lanesOf (g.inState .faulted)).map (fun l => (l.val, g.lanes[l].fcs &&& 0xff#32))
      ++ (match due with | some d => [(32 + d, 0)] | none => []) }

/-- The record and park of the lanes `ls`, or of the group's TIMEOUT when `due` goes with them (R420, R428). -/
def State.trapSystem (s : State) (gi : Nat) (ls : Lanes) (due : Option Nat) (flg : Nat) : State :=
  let g := s.grp gi
  match lanesOf ls with
  | l :: _ =>
    let x := g.lanes[l]
    s.parkSystem gi g.hm (laneRec s gi (x.fcs.toNat % 256) (x.fcs.toNat / 256 % 256) flg ls x.fad x.pcv)
  | [] =>
    let pc := match g.issuePc with | some p => p | none => g.lanes[0].pcv
    s.parkSystem gi g.hm (groupRec s gi cTIMEOUT (due.getD 0) flg 0 0 pc true)

/-- The trap of a group is taken (R420): the system path for the lanes routed there, else the handler, else the system
path with every faulted lane. `rep` at an `eret` that finds the same faults again (R425). -/
def State.takeTrap (s : State) (gi : Nat) (rep : Bool) : State :=
  let g := s.grp gi
  let all := g.inState .faulted
  let sys := g.systemLanes
  let dueSys := g.due.isSome && g.toSystem cTIMEOUT
  if sys ≠ 0#32 || dueSys then
    let g' := { g with due := if dueSys then none else g.due }
    (s.setGrp gi g').trapSystem gi sys (if dueSys then g.due else none) (if rep then 2 else 0)
  else if g.htv.getLsbD 0 && !rep then s.setGrp gi (g.enterHandler g.due)
  else (s.setGrp gi { g with due := none }).trapSystem gi all g.due (if rep then 2 else 0)

/-- The operations of a counter that must retire before it falls to a bound: all but the youngest (R44). -/
def Group.needed (g : Group) (k : Cls) (bound : Nat) : List Op :=
  let os := g.ops.filter fun o => o.cls = k
  os.take (os.length - bound)

/-- What a held issue can be overdue for (R92, R170, R212, R277, R301, R312): a `waitc`, where an operation that it needs has a lane
that waits for its granule or message, or stands at an incomplete rendezvous. -/
def Group.stallDetails (g : Group) : StallKind → List Nat
  | .acq _ => [3]
  | .waitc a _ _ e =>
    (if (g.needed .ld a).any fun o => !o.done && (match o.kind with
        | .load _ _ _ _ fe _ _ => fe && o.todo ≠ 0#32 | .recv _ _ => true | _ => false) then [4] else [])
      ++ (if (g.needed .tl e).any fun o => !o.done && (match o.kind with
        | .mma _ _ => o.todo ≠ 0#32 | _ => false) then [5] else [])
  | .gang .. => [5]
  | .gangWait .. => [5]
  | .ungang _ => [5]
  | .board => [6]
  | .bwait .. => [6]
  | .bar .. => [7]
  | .barw .. => [7]
  | _ => []

/-- The condition of a TIMEOUT detail holds: the starvation count has reached `wdog`, or the held issue has lasted more
than `wdog` × 16 clk (R94, R431). -/
def Group.overdue (g : Group) (clk d : Nat) : Bool :=
  g.wdog ≠ 0#32 &&
    if d = 1 then !g.hm && g.wdog.toNat ≤ g.starve
    else
      match if g.hm then g.hstall else g.stall with
      | some t => (g.stallDetails t.kind).contains d && 16 * g.wdog.toNat < clk - t.since
      | none => false

/-- An ordered atomic that a lane has failed takes the trap at once (R192), also where the lane is its highest and none is aborted (log
entry 71). -/
def Group.abortDue (g : Group) : Bool := (List.finRange 32).any fun l => g.lanes[l].st = .faulted && g.lanes[l].torn

/-- The wait that the group stands in outside handler mode is over: its lanes go on. -/
def Group.resumeMain (g : Group) : Group :=
  match g.stall with
  | some t =>
    match t.resume with
    | some ps =>
      { g.onLanes allLanes (fun l x => if x.st = .runnable && x.pcv == t.pc then { x with pcv := ps.getD l.val x.pcv } else x)
        with stall := none }
    | none => g
  | none => g

/-- The wait that the handler stands in is over. -/
def Group.resumeHandler (g : Group) : Group :=
  match g.hstall with
  | some t => match t.resume with
    | some ps => { g with hstall := none, hpc := ps.getD 0 g.hpc }
    | none => g
  | none => g

/-- A wait outside handler mode that has ended while the handler ran is over when it leaves: until then the main code's PCs stay (R424). -/
def Group.endReady (g : Group) : Group :=
  if !g.hm && g.stall.any fun t => t.resume.isSome && t.ready.contains t.kind.tag then g.resumeMain else g

/-- The waits of a kind, in and outside handler mode, are over (R420); of the main code's, in handler mode, at its end (R424). -/
def Group.endWaits (g : Group) (p : StallKind → Bool) : Group :=
  let g :=
    if g.hm then { g with stall := g.stall.map fun (t : Stall) => if p t.kind && t.resume.isSome then { t with ready := [t.kind.tag] } else t }
    else if g.stall.any fun t => p t.kind then g.resumeMain else g
  let g := { g with kept := g.kept.map fun (t : Stall) => if p t.kind then { t with ready := [t.kind.tag] } else t }
  if g.hstall.any fun t => p t.kind then g.resumeHandler else g

/-- A TIMEOUT that meets a lane's trap is dropped; the starvation count and the stall timers begin again (R420). -/
def Group.dropDue (g : Group) (clk : Nat) : Group :=
  { g with due := none, starve := 0, stall := g.stall.map fun t => { t with since := clk },
           hstall := g.hstall.map fun t => { t with since := clk } }

/-- An `eret` finds the faults, or the TIMEOUT, that its handler was entered for (R425). -/
def Group.repeatTrap (g : Group) (clk : Nat) : Bool :=
  let g := g.settle 16
  if g.inState .faulted ≠ 0#32 && g.inState .runnable = 0#32 || g.abortDue then g.repeats
  else if g.due.isSome then g.seen.contains (32 + g.due.getD 0, 0)
  else if [1, 3, 4, 5, 6, 7].any fun d => g.seen.contains (32 + d, 0) && g.overdue clk d then true
  else g.inState .runnable = 0#32 && g.inState .waiting ≠ 0#32 && g.seen.contains (34, 0)

/-- What follows every change of a group's lanes: releases, then the trap, the deadlock and the group's end (R87, R103, R104,
R420); of a group whose chain is being executed, only when the chain has ended. DESIGN CHOICE (log entry 50): a trap that becomes due while
the group sleeps is taken at once and ends the sleep. In handler mode the lanes stay as the trap left them (R424). -/
def State.settleGrp (s : State) (gi : Nat) (fromEret : Bool) : State :=
  if s.iss.left ≠ 0 && s.iss.gi = gi || (s.grp gi).hm then s else
  let g := (s.grp gi).settle 16
  let s := s.setGrp gi g
  match g.status with
  | .running | .sleeping _ =>
    let run := g.inState .runnable
    let flt := g.inState .faulted
    let wait := g.inState .waiting
    if (flt ≠ 0#32 && run = 0#32) || g.abortDue then
      let s := if g.due.isSome || [1, 3, 4, 5, 6, 7].any (g.overdue s.clk) then s.setGrp gi (g.dropDue s.clk) else s
      s.takeTrap gi (fromEret && g.repeats)
    else if g.due.isSome then s.takeTrap gi (fromEret && g.seen.contains (32 + g.due.getD 0, 0))
    else if fromEret && [1, 3, 4, 5, 6, 7].any fun d => g.seen.contains (32 + d, 0) && g.overdue s.clk d then
      (s.setGrp gi { g with due := [1, 3, 4, 5, 6, 7].find? fun d => g.seen.contains (32 + d, 0) && g.overdue s.clk d
        }).takeTrap gi true
    else if run = 0#32 && wait ≠ 0#32 then
      (s.setGrp gi { g with due := some 2 }).takeTrap gi (fromEret && g.seen.contains (34, 0))
    else if run = 0#32 then (s.setGrp gi { g with status := .draining, tokenDone := true })
    else s
  | _ => s

/-- The groups of a kernel that have exited and are not among those that have arrived (R314): a freed group keeps its kernel. -/
def State.exited (s : State) (k : Nat) (arrived : List Nat) : Nat :=
  ((List.range s.groups.length).filter fun gi =>
    (s.grp gi).kernel = k && ((s.grp gi).status = .draining || (s.grp gi).status = .free) && !arrived.contains gi).length

/-- A wait in a `fence.sys`. -/
def StallKind.isFence : StallKind → Bool
  | .fenceSys _ => true
  | _ => false

/-- A wait at the grid barrier. -/
def StallKind.isGrid : StallKind → Bool
  | .gbar _ => true
  | _ => false

/-- A group whose waits of a kind are over goes on, and what follows from where its lanes then stand. -/
def State.endWaits (s : State) (gi : Nat) (p : StallKind → Bool) : State :=
  (s.onGrp gi fun g => g.endWaits p).settleGrp gi false

/-- The grid barrier of a kernel (R314): when the groups that have arrived and the others that have exited are all of the grid, the
generation advances and every waiting group is released. -/
def State.gridCheck (s : State) (k : Nat) : State :=
  match s.kernels[k]? with
  | none => s
  | some kn =>
    if kn.arrived ≠ [] && kn.h.nteam * 2 ^ kn.h.w1 ≤ kn.arrived.length + s.exited k kn.arrived then
      let s := s.onKernel k fun x => { x with barGen := x.barGen + 1, arrived := [] }
      ((List.range s.groups.length).filter fun gi => (s.grp gi).kernel = k
        && ((s.grp gi).stall.toList ++ (s.grp gi).hstall.toList ++ (s.grp gi).kept).any fun t => t.kind.isGrid).foldl
          (fun s gi => s.endWaits gi StallKind.isGrid) s
    else s

/-- What follows every change of a group's lanes; a group that ends counts at the grid barrier. -/
def State.settle (s : State) (gi : Nat) (fromEret : Bool) : State :=
  let t := s.settleGrp gi fromEret
  if (t.grp gi).status = .draining && (s.grp gi).status ≠ .draining then t.gridCheck (t.grp gi).kernel else t

/-- A TIMEOUT that has become due (R104, R420); one of a handler's own wait is a fault raised in handler mode (R425). -/
def State.timeout (s : State) (gi d : Nat) : State :=
  let g := s.grp gi
  if g.hm then s.fallHandler gi cTIMEOUT d [] 0 g.hpc [] false
  else (s.setGrp gi { g with due := some d }).settle gi false

/-! ### The end of a word -/

/-- Some runnable lane stood at a PC above the chain's (R94). -/
def Group.above (g : Group) (pc : Word) : Bool :=
  (List.finRange 32).any fun l => g.lanes[l].st = .runnable && pc.toNat < g.lanes[l].pcv.toNat

/-- A group whose chain has issued and that waits: its lanes, or the handler, stand at the chain until the wait ends. DESIGN CHOICE (log
entry 73): the time of the wait counts from here, also of a `gang` that was held before for its number. -/
def Group.standing (g : Group) (k : StallKind) (pc : Word) (clk : Nat) (at_ ls : Lanes) : Group :=
  if g.hm then { g with hstall := some ⟨k, pc, clk, [], some [g.hpc], ls⟩, hpc := pc }
  else
    { g.onLanes at_ (fun _ x => if x.st = .runnable then { x with pcv := pc } else x) with
      stall := some ⟨k, pc, clk, [], some ((List.finRange 32).map fun (l : Fin 32) => if at_.getLsbD l then g.lanes[l].pcv else pc), ls⟩ }

/-- The wait of a chain that has issued is over, in the mode the group is in. -/
def Group.resumeWait (g : Group) : Group := if g.hm then g.resumeHandler else g.resumeMain

/-- A log of chains, newest first, with at most `n` entries of a core kept (R345). -/
def trimLog (core : Nat) : Nat → List (Nat × Nat) → List (Nat × Nat)
  | _, [] => []
  | n, x :: xs =>
    if x.1 = core then (match n with | 0 => trimLog core 0 xs | m + 1 => x :: trimLog core m xs)
    else x :: trimLog core n xs

/-- A chain issued on a core by a group: counted for its function (R345) and for the quantum of its context's teams there
(R439). -/
def State.countChain (s : State) (gi : Nat) : State :=
  let g := s.grp gi
  let cx := s.ctxOf g
  let fn := match s.ctxs[cx]? with | some c => c.d.fn | none => 0
  { s with
    chainLog := (g.core, fn) :: trimLog g.core 65535 s.chainLog,
    teams := s.teams.map fun t =>
      let own := match s.kernels[t.kernel]? with | some k => k.ctx = cx | none => false
      if t.core = g.core && t.holds && own then { t with quant := t.quant + 1 } else t }

/-- The group has left handler mode: waits that the handler has abandoned are gone, those that have ended are over. -/
def Group.leaveHandler (before g : Group) : Group := (before.abandon g).dropStale.endReady

/-- The chain has issued: the stall ends, the starvation count and the count of chains move, and the group settles, or parks for a fault of
a handler word of the chain; where the chain has left handler mode too, and finds the same faults again, the one record says both
(R435). DESIGN CHOICE (log entry 50): a chain of the handler leaves the starvation count as it is. -/
def State.endChain (s : State) : State :=
  let i := s.iss
  let s := { s.countChain i.gi with iss := { i with left := 0, wait := none } }
  let s := s.onGrp i.gi fun g =>
    let g := { g with perf := g.perf.set 0 (g.perf[0] + 1) }
    let g := if i.snap.hm then { g with hstall := none }
             else { g with stall := none, starve := if i.snap.above i.pc then g.starve + 1 else 0 }
    match i.fell, i.wait with
    | none, some k => g.standing k.1 i.pc s.clk i.at_ k.2
    | _, _ => g
  let left := i.snap.hm && !(s.grp i.gi).hm
  let s := if left then s.onGrp i.gi fun g => i.snap.leaveHandler g else s
  match i.fell with
  | some (fs, pc) =>
    let f := fs.headD (0, 0, 0, 0)
    { s with iss := { s.iss with fell := none } }.fallHandler i.gi f.2.1 f.2.2.1 fs f.2.2.2 pc [] (left && (s.grp i.gi).repeatTrap s.clk)
  | none => s.settle i.gi left

/-- After a word took effect: the chain ends with its last word. -/
def State.finish (s : State) : State :=
  if s.iss.left ≤ 1 then s.endChain else { s with iss := { s.iss with left := s.iss.left - 1 } }

/-- A precise fault of the chain (R418): the issuing lanes are marked at its PC, their region entry is that PC; where no
lane issues (only ILLEGAL, R24), the lanes at the PC. -/
def State.precise (s : State) (cause detail : Nat) (ls : Lanes) : State :=
  let i := s.iss
  let s := { s with iss := { i with raised := some (cause, detail, ls), left := 0 } }
  if i.snap.hm then
    s.fallHandler i.gi cause detail (laneFaults ls cause detail fun _ => 0) 0 i.pc [] false
  else
    (s.onGrp i.gi fun g => { g.mark ls i.pc true cause detail (fun _ => 0) with stall := none }).settle i.gi false

/-- A list with an entry added at its end once. -/
def addOnce {α : Type} [DecidableEq α] (l : List α) (a : α) : List α := if a ∈ l then l else l ++ [a]

/-- A list with an entry moved to its end. -/
def addLast {α : Type} [DecidableEq α] (l : List α) (a : α) : List α := (l.filter fun x => x ≠ a) ++ [a]

/-- The group's issue is held at the chain's PC (R42, R43): the chain issues as a whole when its waits have ended. A wait
that a trap interrupted is kept beside a handler's own (R420). Requests of one kind keep their order (R92, R270, R302); one that has
been abandoned and is made again comes last. -/
def State.holdIssue (s : State) (k : StallKind) : State :=
  let i := s.iss
  let s := { s with iss := { i with hold := some k, left := 0 } }
  let again := (if i.snap.hm then i.snap.hstall else i.snap.stall).any fun t => t.pc == i.pc && t.kind.tag = k.tag
  let s :=
    match k with
    | .acq _ => { s with acqQ := if again then addOnce s.acqQ i.gi else addLast s.acqQ i.gi }
    | .board =>
      let x := (i.snap.core / 4, i.gi)
      { s with ring := { s.ring with full := true, stalled := if again then addOnce s.ring.stalled x else addLast s.ring.stalled x } }
    | .slot .. => { s with slotQ := if again then addOnce s.slotQ i.gi else addLast s.slotQ i.gi }
    | _ => s
  let upd := fun (o : Option Stall) =>
    match o with
    | some t =>
      if t.pc == i.pc then some { t with kind := k, since := if t.kind.tag = k.tag then t.since else s.clk }
      else some ⟨k, i.pc, s.clk, [], none, 0⟩
    | none => some ⟨k, i.pc, s.clk, [], none, 0⟩
  s.onGrp i.gi fun g =>
    if i.snap.hm then { g with hstall := upd g.hstall } else { g with stall := upd g.stall }

/-- An event has ended the wait of kind `k` of the chain being executed. -/
def Wctx.ready (c : Wctx) (k : StallKind) : Bool :=
  match (if c.hm then c.snap.hstall else c.snap.stall) with
  | some t => t.pc == c.pc && t.ready.contains k.tag
  | none => false

/-- An event ends the wait that a group is held in; the held word sees it when it is tried again. -/
def Group.ended (g : Group) : Group :=
  let f := fun (o : Option Stall) => o.map fun t =>
    { t with ready := if t.ready.contains t.kind.tag then t.ready else t.kind.tag :: t.ready }
  if g.hm then { g with hstall := f g.hstall } else { g with stall := f g.stall }

/-- The lanes that a word has faulted, from the states before and after it. -/
def newFaults (gi : Nat) (s s' : State) : Lanes :=
  (s'.grp gi).inState .faulted &&& ~~~((s.grp gi).inState .faulted)

/-- How a word ends. `side` words open a region when they take effect (R115). -/
def settleRes (w : WordSpec) (c : Wctx) (s : State) : Res → State
  | .ok s' => ((if w.side && c.lanes ≠ 0#32 then s'.region c (newFaults c.gi s s') else s')).finish
  | .raise cause detail => s.precise cause detail (if c.lanes = 0#32 then c.at_ else c.lanes)
  | .hold k => s.holdIssue k
  | .wait k s' =>
    let s' := if w.side && c.lanes ≠ 0#32 then s'.region c (newFaults c.gi s s') else s'
    { s' with iss := { s'.iss with wait := some (k, c.lanes) } }.finish

/-- A word whose body runs with no lane issuing too, and whose own rule may name an ILLEGAL detail of the state it is in (R24, R41): its
checks, its body on the state with the lanes advanced, its end. -/
def wordOwn (w : WordSpec) (own : Wctx → State → Option Nat) (s : State) (body : Wctx → State → Res) : State :=
  let c := wctx w.h s
  settleRes w c s (match stopped w c (own c s) with | some r => r | none => body c s.advance)

/-- A word whose body runs with no lane issuing too. -/
def wordAny (w : WordSpec) (s : State) (body : Wctx → State → Res) : State := wordOwn w (fun _ _ => none) s body

/-- A word. With no lane issuing it has no effect and its lanes advance (R24). -/
def word (w : WordSpec) (s : State) (body : Wctx → State → Res) : State :=
  wordAny w s fun c s => if c.lanes = 0#32 then .ok s else body c s

/-! ### Results of a word -/

/-- A spatial result would leave lanes of a Haar register unwritten (R124). DESIGN CHOICE (log entry 88): a lane that issues counts as
written, also where FPE withholds its result (R426). -/
def partialHaar (c : Wctx) (ds : List Nat) : Bool := c.lanes ≠ allLanes && ds.any fun n => (c.snap.tag n).haar

/-- The lane-wise write of one spatial register, with the check of R124. -/
def putLanes (c : Wctx) (s : State) (d : Nat) (f : Fin 32 → Word) : Res :=
  if partialHaar c [d] then .raise cDOMAIN 2
  else .ok (s.onGrp c.gi fun g => g.putV d c.lanes f)

/-- The lane-wise write of a pair. -/
def putPair (c : Wctx) (s : State) (d : Nat) (f : Fin 32 → Dword) : Res :=
  if partialHaar c [d, d + 1] then .raise cDOMAIN 2
  else .ok (s.onGrp c.gi fun g => (g.putV d c.lanes fun l => lowW (f l)).putV (d + 1) c.lanes fun l => highW (f l))

/-- A scalar result, once for the group (R24). -/
def putS (c : Wctx) (s : State) (d : Nat) (x : Word) : Res := .ok (s.onGrp c.gi fun g => g.setS d x)

/-- A scalar pair result. -/
def putSpair (c : Wctx) (s : State) (d : Nat) (x : Dword) : Res := .ok (s.onGrp c.gi fun g => g.setSpair d x)

/-- The value of operand b of a vector word: a scalar register, the prefix value, or the lanes' own (R28, R36, R122). -/
def srcB (c : Wctx) (h : Hdr) (m : Bool) (b : BitVec 6) : Fin 32 → Word :=
  match h.limm with
  | some u => fun _ => u ++ b
  | none => if m then fun _ => c.snap.sreg b.toNat else let x := c.snap.rows b.toNat; fun l => x[l]

/-- A vector source (R122). -/
def srcA (c : Wctx) (a : BitVec 6) : Fin 32 → Word :=
  let x := c.snap.rows a.toNat
  fun l => x[l]

/-- The immediate of formats I and IL: `w` bits of field, or the prefix with its low 6 bits (R36, R129). -/
def immOf (h : Hdr) {w : Nat} (x : BitVec w) : Word :=
  match h.limm with
  | some u => u ++ x.setWidth 6
  | none => x.signExtend 32

/-! ### Outstanding operations (R43 to R47) -/

/-- The place of a counter in `issued`. -/
def Cls.idx : Cls → Nat
  | .ld => 0 | .st => 1 | .cp => 2 | .tl => 3

/-- A new outstanding operation of the word's group: its counter rises and its destinations become pending (R43, R45). -/
def State.start (s : State) (c : Wctx) (cls : Cls) (todo : Lanes) (k : OpKind) (dv ds : List Nat) : State :=
  s.onGrp c.gi fun g =>
    let o : Op := { id := g.nextOp, cls := cls, pc := c.pc, lanes := c.lanes, todo := todo, hm := c.hm,
                    rgn0 := c.snap.rgn, done := false, got := Vector.replicate 32 none, late := [], kind := k }
    let q := (cls, g.issued.getD cls.idx 0)
    { g with
      ops := g.ops ++ [o], nextOp := g.nextOp + 1, issued := g.issued.setIfInBounds cls.idx (q.2 + 1),
      pendV := dv.foldl (fun p n => p.setIfInBounds n (some q)) g.pendV,
      pendS := ds.foldl (fun p n => p.setIfInBounds n (some q)) g.pendS }

/-- Operations of one counter retire in issue order: those that are done with no earlier one outstanding (R44). -/
def retireCls (c : Cls) : List Op → List Op
  | [] => []
  | o :: os => if o.cls = c then (if o.done then retireCls c os else o :: os) else o :: retireCls c os

/-- Every counter's retirements. -/
def Group.retire (g : Group) : Group :=
  let n := g.ops.length
  let ops := retireCls .tl (retireCls .cp (retireCls .st (retireCls .ld g.ops)))
  { g with
    ops := ops,
    status := (match g.status with
      | .sleeping k => if ops.length < n then .running else .sleeping k
      | x => x) }

/-- An operation changed by its identity. -/
def Group.onOp (g : Group) (id : Nat) (f : Op → Op) : Group :=
  { g with ops := g.ops.map fun o => if o.id = id then f o else o }

/-- The operation with an identity. -/
def Group.op? (g : Group) (id : Nat) : Option Op := g.ops.find? fun o => o.id = id

/-- An operation completes (R44); the group settles, since a counter may have fallen. -/
def State.complete (s : State) (gi id : Nat) : State :=
  (s.onGrp gi fun g => (g.onOp id fun o => { o with done := true, todo := 0 }).retire).settle gi false

/-- Operations whose `todo` holds the lanes that still have an access of their own to make. -/
def OpKind.accesses : OpKind → Bool
  | .load .. => true | .store .. => true | .atom .. => true | .aadd .. => true | _ => false

/-- Operations that make one access for the group, after their word has issued: the slot of `recv`, the images of band words, the entry
that `catld` rewrites, a stored segment that waits for its chain. -/
def OpKind.reaches : OpKind → Bool
  | .recv .. => true
  | .tile _ (.acld _) => true
  | .tile _ (.acst _) => true
  | .catld .. => true
  | .seg _ => true
  | _ => false

/-- A matrix operation, which reads its B image at its rendezvous. -/
def OpKind.isMma : OpKind → Bool
  | .mma .. => true
  | _ => false

/-- The lanes whose part of an operation has still to take its place in the order (R184): a word that acts once for the group counts for
every lane that it issued for. A `send` to a mailbox keeps its lanes in `todo` until its slot is written, an `mma` until its rendezvous has
read the B image (R220, R224). -/
def Op.unplaced (o : Op) : Lanes :=
  if o.kind.accesses || o.kind = .send then o.todo
  else if o.done then 0#32
  else if o.kind.isMma then o.todo
  else if o.kind.reaches then o.lanes else 0#32

/-- A lane may make its access for an operation when no earlier operation of the group still has that lane's part to
do (R184). -/
def Group.turn (g : Group) (id : Nat) (l : Fin 32) : Bool := g.ops.all fun o => id ≤ o.id || !o.unplaced.getLsbD l

end Sys2Proof.Machine
end

