-- ==== Sys2Proof/Machine/Memory.lean ====
section
/-! DEFINITION. Memory: the canonical list, the physical memory with the L2 in front of it, translation, the address checks
of R159, and one access (chapters Line, Order, Page: translation). -/
namespace Sys2Proof.Machine

/-! ### The list of bytes -/

/-- The byte at an address; an address that is not listed reads 0. -/
def Memory.byte : Memory → Nat → Byte
  | [], _ => 0
  | (a, b) :: m, x => if a = x then b else Memory.byte m x

/-- A cell put in before the first greater address. -/
def Memory.ins : Memory → Nat → Byte → Memory
  | [], x, b => [(x, b)]
  | (a, c) :: m, x, b => if x < a then (x, b) :: (a, c) :: m else (a, c) :: Memory.ins m x b

/-- The byte at an address replaced: a zero byte is not listed. -/
def Memory.put (m : Memory) (x : Nat) (b : Byte) : Memory :=
  let r := m.filter fun c => c.1 != x
  if b = 0#8 then r else Memory.ins r x b

/-- `n` bytes from an address. -/
def Memory.readN (m : Memory) (a n : Nat) : List Byte := (List.range n).map fun i => Memory.byte m (a + i)

/-- Bytes written from an address on. -/
def Memory.writeN : Memory → Nat → List Byte → Memory
  | m, _, [] => m
  | m, a, b :: bs => Memory.writeN (Memory.put m a b) (a + 1) bs

/-- The canonical form: addresses rise, no zero byte. -/
def Memory.wf : Memory → Bool
  | [] => true
  | [c] => c.2 != 0#8
  | c :: d :: m => c.2 != 0#8 && c.1 < d.1 && Memory.wf (d :: m)

/-- A number put into a rising list once. -/
def setAdd (n : Nat) : List Nat → List Nat
  | [] => [n]
  | a :: as => if n < a then n :: a :: as else if n = a then a :: as else a :: setAdd n as

/-- A number taken out of a list. -/
def setDel (n : Nat) (l : List Nat) : List Nat := l.filter fun a => a != n

/-! ### Physical memory (R377, R157, R384, R492) -/

/-- Die, region and offset of a physical address (R377). -/
def paDie (pa : Nat) : Nat := pa / 2 ^ 45 % 2
def paReg (pa : Nat) : Nat := pa / 2 ^ 43 % 4
def paOff (pa : Nat) : Nat := pa % 2 ^ 43

/-- Memory behind a host port. -/
def behindPort (pa : Nat) : Bool := 2 ≤ paReg pa

/-- The size of a die's pool region (R454). -/
def State.poolSize (s : State) (die : Nat) : Nat :=
  match s.ports[die]? with
  | some p => if p.cxl then (p.decoder.map Prod.snd).foldl (· + ·) 0 else 0
  | none => 0

/-- Where an offset of a pool region lies behind its port (R454): the ranges of the decoder table lie end to end in it, in table order. -/
def decoded : List (Nat × Nat) → Nat → Option Nat
  | [], _ => none
  | (at_, size) :: ds, off => if off < size then some (at_ + off) else decoded ds (off - size)

/-- Where a byte of memory is kept: at its physical address, or, of a pool region, at the address behind the port that the decoder table
gives it, written as though the region began at address 0 there, and past all of these where no range of the table has its offset. -/
def State.place (s : State) (pa : Nat) : Nat :=
  if paReg pa ≠ 2 then pa
  else
    match (s.ports[pa / 2 ^ 45]?).bind fun p => decoded p.decoder (paOff pa) with
    | some a => a / 2 ^ 43 * 2 ^ 46 + paDie pa * 2 ^ 45 + 2 * 2 ^ 43 + a % 2 ^ 43
    | none => pa + 2 ^ 128

/-- A physical address exists (R377). -/
def State.paOk (s : State) (pa : Nat) : Bool :=
  pa < 2 ^ 46 &&
    match paReg pa with
    | 0 => paOff pa < 2 ^ 39
    | 1 => paOff pa < 2 ^ 40
    | 2 => paOff pa < s.poolSize (paDie pa)
    | _ => true

/-- The port of the address's die is down or failed (R455). -/
def State.portOut (s : State) (pa : Nat) : Bool :=
  behindPort pa &&
    match s.ports[paDie pa]? with
    | some p => p.st = .down || p.st = .failed
    | none => true

/-- The port of the address's die is in training: what goes to it is held until the training ends (R468). -/
def State.portTrains (s : State) (pa : Nat) : Bool :=
  behindPort pa && (s.ports[paDie pa]?).any fun p => p.st = .training

/-- The port of the address's die takes nothing now. -/
def State.portShut (s : State) (pa : Nat) : Bool := s.portOut pa || s.portTrains pa

/-- The L2 line that holds an address. -/
def State.l2? (s : State) (pa : Nat) : Option L2Line := s.l2.find? fun x => x.line = pa / 128

/-- The key pair of a slot; a null key is none (R384, R474). -/
def State.keyOf (s : State) (slot : Nat) : List Byte := match s.ctl.keys[slot]? with | some (.key _ bs) => bs | _ => []

/-- The key pair that a line is enciphered under in memory. -/
def State.memKey (s : State) (line : Nat) : List Byte :=
  match s.memKeys.find? fun k => k.1 = line with | some k => k.2 | none => []

/-- One byte of memory read with a key pair (R384): nothing behind a host port is enciphered. -/
def State.memByte (s : State) (pa : Nat) (key : List Byte) : Byte :=
  if behindPort pa || s.memKey (pa / 128) = key then Memory.byte s.mem (s.place pa)
  else Config.decipher (Memory.readN s.mem (pa / 128 * 128) 128) (s.memKey (pa / 128)) key (pa / 128) (pa % 128)

/-- A whole line of memory read with a key pair. -/
def State.memLine (s : State) (line : Nat) (key : List Byte) : List Byte :=
  (List.range 128).map fun i => s.memByte (line * 128 + i) key

/-- A whole line written to memory with a key pair. -/
def State.putLine (s : State) (line : Nat) (data key : List Byte) : State :=
  if behindPort (line * 128) then
    { s with mem := (List.range data.length).foldl (fun m i => Memory.put m (s.place (line * 128 + i)) (data.getD i 0)) s.mem }
  else
    { s with
      mem := Memory.writeN s.mem (line * 128) data,
      memKeys := (s.memKeys.filter fun k => k.1 ≠ line) ++ if key = [] then [] else [(line, key)] }

/-- One byte written to memory with a key pair: a line that is enciphered under another is deciphered and enciphered anew. -/
def State.putMem (s : State) (pa : Nat) (b : Byte) (key : List Byte) : State :=
  if behindPort pa || s.memKey (pa / 128) = key then { s with mem := Memory.put s.mem (s.place pa) b }
  else s.putLine (pa / 128) ((s.memLine (pa / 128) key).set (pa % 128) b) key

/-- A line that the L2 holds shows an access with a key pair its bytes: they are of memory that nothing enciphers, or were filled under
that pair (R384). -/
def State.clear (s : State) (x : L2Line) (key : List Byte) : Bool := behindPort (x.line * 128) || s.keyOf x.key = key

/-- One byte as an access with a key pair sees it: the L2's where it holds the line, under every policy (R157, R185, R203). An agent that
reads under another key than the line was filled under sees the line as memory holds it, or comes to hold it (R384, R470). -/
def State.byteAt (s : State) (pa : Nat) (key : List Byte) : Byte :=
  match s.l2? pa with
  | some x =>
    if s.clear x key then x.data.getD (pa % 128) 0
    else if x.dirty then Config.decipher x.data (s.keyOf x.key) key (pa / 128) (pa % 128)
    else s.memByte pa key
  | none => s.memByte pa key

/-- One byte as an agent that uses physical addresses sees it: with the null key (R384). -/
def State.physByte (s : State) (pa : Nat) : Byte := s.byteAt pa []

def State.physRead (s : State) (pa n : Nat) : List Byte := (List.range n).map fun i => s.physByte (pa + i)

/-- A free value, and the counter past it (log entry 7). -/
def State.free (s : State) : Nat × State := (Config.freeValue s.freeIdx, { s with freeIdx := s.freeIdx + 1 })

/-- Granules that get an uncorrectable error, and granules that lose theirs. -/
def State.hurtGranules (s : State) (new gone : List Nat) : State :=
  { s with poison := (s.poison.filter fun p => !gone.contains p) ++ new.filter fun p => !s.poison.contains p }

/-- A granule is rewritten whole, which ends an error of its bytes (R275). -/
def rewritten (ws : List Host.Cell) (p : Nat) : Bool := (List.range 16).all fun i => ws.any fun w => w.1 = 16 * p + i

/-- What outside agents write to memory behind the host ports before a step (R492): past the L2, whose lines keep what they hold; and the
errors that memory meets or meets no more (R275). -/
def State.outsideWrites (s : State) : State :=
  let ws := (s.outside.headD []).filter fun w => behindPort w.1
  let e := s.errors.headD ([], [])
  { s.hurtGranules e.1 (e.2 ++ s.poison.filter (rewritten ws)) with
    mem := ws.foldl (fun m w => Memory.put m w.1 w.2) s.mem, outside := s.outside.tail, errors := s.errors.tail }

/-! ### The L2 (R9, R13, R157, R178, R384, R492) -/

/-- A line's bytes go to memory, enciphered under the key pair of its slot. -/
def State.writeLine (s : State) (x : L2Line) : State := s.putLine x.line x.data (s.keyOf x.key)

/-- Lines leave the L2: written back first where they are dirty, or dropped as they are. -/
def State.evict (s : State) (p : L2Line → Bool) (back : Bool) : State :=
  let t := if back then (s.l2.filter fun x => p x && x.dirty).foldl State.writeLine s else s
  { t with l2 := s.l2.filter fun x => !p x }

/-- A line that somebody's stores have left dirty, of memory behind a host port. -/
def L2Line.owed (x : L2Line) (whose : Owner → Bool) : Bool := behindPort (x.line * 128) && x.dirty && x.owners.any whose

/-- Every line that their stores left dirty, behind a port that is neither out nor in training, is written to memory, whole (R181, R328, R468,
R492). -/
def State.writeBack (s : State) (whose : Owner → Bool) : State :=
  let p := fun (x : L2Line) => x.owed whose && !s.portShut (x.line * 128)
  let t := (s.l2.filter p).foldl State.writeLine s
  { t with l2 := s.l2.map fun x => if p x then { x with dirty := false, owners := [] } else x }

/-- The ports have reported every such line written. -/
def State.flushed (s : State) (whose : Owner → Bool) : Bool := s.l2.all fun x => !x.owed whose

/-- The set of a superblock: its die and its number (R13, R177). -/
def l2Set (sb : Nat) : Nat × Nat := (paDie (sb * 512), Config.l2Index sb % Config.l2Sets)

/-- A superblock that a context holds locked. -/
def State.pinned (s : State) (sb : Nat) : Bool := s.ctxs.any fun c => c.locks.any fun l => l.2 = sb

/-- The superblocks that the L2 holds lines of in a set, the one that has been there longest first. -/
def State.setHolds (s : State) (set : Nat × Nat) : List Nat :=
  (s.l2.foldl (fun bs x => if (x.line / 4) ∈ bs then bs else bs ++ [x.line / 4]) []).filter fun b => l2Set b = set

/-- A superblock has or can be given a way of its set. -/
def State.hasWay (s : State) (sb : Nat) : Bool :=
  s.l2.length < Config.l2Ways || (s.setHolds (l2Set sb)).contains sb || (s.setHolds (l2Set sb)).length < Config.l2Ways

/-- A way is made free in a full set (R157, R178): the superblock that has been there longest leaves, one that only streaming accesses
brought in before the others, never a locked one nor one whose dirty bytes wait for a port that is out or in training. DESIGN CHOICE (log entry 55). -/
def State.makeWay (s : State) (sb : Nat) : State :=
  if s.hasWay sb then s
  else
    let of := fun (b : Nat) => s.l2.filter fun x => x.line / 4 = b
    let may := (s.setHolds (l2Set sb)).filter fun b => !s.pinned b && (of b).all fun x => !(x.dirty && s.portShut (x.line * 128))
    match (may.filter fun b => (of b).all L2Line.low) ++ may with
    | b :: _ => s.evict (fun x => x.line / 4 = b) true
    | [] => s

/-- The L2 takes a line under a policy that allocates, and records the key of the access that fills it (R157, R384,
R492). -/
def State.fillLine (s : State) (pa : Nat) (x : Xlat) : State :=
  if x.pol = 2 || (s.l2? pa).isSome then s
  else
    let s := s.makeWay (pa / 512)
    if s.hasWay (pa / 512) then
      { s with l2 := s.l2 ++ [⟨pa / 128, x.key, x.pol = 1, s.memLine (pa / 128) (s.keyOf x.key), false, []⟩] }
    else s

/-- One byte written under a policy with a key pair: to the line that the L2 holds, and to memory where no line is held or the policy
writes through. A line filled under another key leaves the L2 first (R384, R470). -/
def State.putByte (s : State) (pa : Nat) (b : Byte) (pol : Nat) (key : List Byte) : State :=
  match s.l2? pa with
  | some x =>
    if !s.clear x key then (s.evict (fun z => z.line = pa / 128) true).putMem pa b key else
    let y := { x with data := x.data.set (pa % 128) b }
    let keep := fun (d : Bool) => s.l2.map fun z => if z.line = pa / 128 then { y with dirty := d } else z
    if pol ≠ 2 then { s with l2 := keep true }
    else if behindPort pa then { s with l2 := keep x.dirty, mem := Memory.put s.mem (s.place pa) b }
    else { (s.writeLine y) with l2 := keep false }
  | none => s.putMem pa b key

def State.putBytes : State → Nat → List Byte → Nat → List Byte → State
  | s, _, [], _, _ => s
  | s, pa, b :: bs, pol, key => State.putBytes (s.putByte pa b pol key) (pa + 1) bs pol key

/-- Bytes written by an agent that uses physical addresses. -/
def State.physWrite (s : State) (pa : Nat) (bs : List Byte) (pol : Nat) : State := s.putBytes pa bs pol []

/-- Some byte of a range has an uncorrectable error (R160). -/
def State.poisoned (s : State) (pa n : Nat) : Bool :=
  if paReg pa = 2 then (List.range n).any fun i => s.poison.contains (s.place (pa + i) / 16)
  else s.poison.any fun p => pa / 16 ≤ p && p ≤ (pa + n - 1) / 16

/-! ### Translation (R376 to R390) -/

/-- What an access needs of its mapping (R382). -/
inductive Acc where
  | r | w | a | x
  deriving DecidableEq, Repr

def Xlat.permits (t : Xlat) : Acc → Bool
  | .r => t.r
  | .w => t.w
  | .a => t.r && t.w
  | .x => t.x

/-- The index of a level in a virtual address (R378). -/
def levelIndex (va : Nat) : Nat → Nat
  | 3 => fld va 55 43
  | 2 => fld va 42 30
  | 1 => fld va 29 21
  | _ => fld va 20 16

/-- The alignment of the table below a level, and the page a leaf at a level maps (R378). -/
def belowAlign : Nat → Nat
  | 3 => 65536 | 2 => 4096 | _ => 256
def leafSize : Nat → Nat
  | 2 => 2 ^ 30 | 1 => 2 ^ 21 | _ => 65536

/-- A key slot is loaded for a function (R381, R384, R474). -/
def State.keyLoaded (s : State) (fn key : Nat) : Bool :=
  key = 0 ||
    match s.ctl.keys[key]? with
    | some (.null f) => f = fn
    | some (.key f _) => f = fn
    | _ => false

/-- The walk from a table at level `k - 1` (R381). -/
def State.walk (s : State) (fn va : Nat) : Nat → Nat → Except (Nat × Nat) Xlat
  | 0, _ => .error (cPAGE, 2)
  | lvl + 1, t =>
    let ea := t + 8 * levelIndex va lvl
    if s.poisoned ea 8 then .error (cMACHINE, 1)
    else
      let e := ofBytes (s.physRead ea 8)
      if e % 2 = 0 then .error (cPAGE, 1)
      else if fld e 1 1 = 1 then
        let n := fld e 51 8 * 256
        if fld e 63 52 ≠ 0 || fld e 7 2 ≠ 0 || lvl = 0 || n % belowAlign lvl ≠ 0 || 2 ≤ paReg n || !s.paOk n then
          .error (cPAGE, 2)
        else State.walk s fn va lvl n
      else
        let fr := fld e 51 16 * 65536
        let z := leafSize lvl
        if fld e 63 52 ≠ 0 || lvl = 3 || fr % z ≠ 0 || fld e 6 5 = 3 then .error (cPAGE, 2)
        else if !s.paOk (fr + va % z) then .error (cPAGE, 3)
        else if !s.keyLoaded fn (fld e 15 8) then .error (cPAGE, 4)
        else .ok { pa := fr, size := z, key := fld e 15 8, pol := fld e 6 5,
                   r := fld e 2 2 = 1, w := fld e 3 3 = 1, x := fld e 4 4 = 1 }

/-- The context at a number. -/
def State.ctx (s : State) (c : Nat) : Ctx := s.ctxs.getD c Ctx.blank

/-- The context of a kernel, by place. -/
def State.ctxK (s : State) (k : Nat) : Nat := match s.kernels[k]? with | some kn => kn.ctx | none => 0

/-- A translation: a core's from its TLB or by a walk that its TLB then keeps, an engine's by a walk (R385). -/
def State.xlat (s : State) (core : Option Nat) (c : Nat) (va : Nat) : State × Except (Nat × Nat) Xlat :=
  let walk := s.walk (s.ctx c).d.fn va 4 (s.ctx c).d.root
  match core with
  | none => (s, walk)
  | some n =>
    match s.tlb.find? fun e => e.core = n && e.ctx = c && va / e.x.size = e.va / e.x.size with
    | some e => (s, .ok e.x)
    | none =>
      match walk with
      | .ok x =>
        let full := 512 ≤ (s.tlb.filter fun e => e.core = n).length
        let old := if full then s.tlb.eraseP fun e => e.core = n else s.tlb
        ({ s with tlb := old ++ [⟨n, c, va / x.size * x.size, x⟩] }, walk)
      | .error _ => (s, walk)

/-- Bits [63:56] copy bit 55 (R159, R376). -/
def canonical (va : Nat) : Bool := va % 2 ^ 64 / 2 ^ 55 = 0 || va % 2 ^ 64 / 2 ^ 55 = 511

/-- Translations that a context loses: every one, or those that meet a range of addresses (R389). -/
def State.dropTlb (s : State) (c : Nat) (range : Option (Nat × Nat)) : State :=
  { s with tlb := s.tlb.filter fun e =>
      !(e.ctx = c && match range with
        | none => true
        | some (lo, n) => e.va < lo + n && lo < e.va + e.x.size) }

/-! ### The checks of R159 -/

/-- Where an access lands. -/
inductive Loc where
  | gl (pa : Nat) (x : Xlat)
  | sp (team off : Nat)
  | bb (at_ : Nat)
  deriving DecidableEq, Repr

/-- Who accesses: the core whose TLB serves it (none for an engine), context, kernel, team, cluster, the group's index in its team. -/
structure Who where
  core : Option Nat
  ctx : Nat
  kernel : Nat
  team : Nat
  cluster : Nat
  idx : Nat
  deriving DecidableEq, Repr

/-- An access: space, size, kind, and whether it is a `.sys` atomic that no host port supports (R171, R173). -/
structure Req where
  space : Space
  bytes : Nat
  acc : Acc
  noPort : Bool := false
  align : Nat := bytes
  deriving DecidableEq, Repr

/-- A group as an accessor. -/
def State.whoOf (s : State) (g : Group) : Who := ⟨some g.core, s.ctxOf g, g.kernel, g.team, g.core / 4, g.idx⟩

/-- Whose stores an accessor's are. -/
def Who.owner (u : Who) : Owner := (u.ctx, u.team, u.idx)

/-- The scratchpad size of a team: `.scratch` rounded up to a multiple of 1 KiB (R154). -/
def State.spSize (s : State) (kernel : Nat) : Nat :=
  match s.kernels[kernel]? with | some k => (k.h.scr + 1023) / 1024 * 1024 | none => 0

/-- The boarding that a byte of a cluster's buffer belongs to, if a context may read it (R156). -/
def State.boardAt (s : State) (cluster c off : Nat) : Option Boarding :=
  s.ring.boards.find? fun b =>
    b.cluster = cluster && b.ctx = c && b.readable && (b.st = .done || b.st = .poisoned)
      && b.off ≤ off && off < b.off + b.count * b.tracks.length * b.tile

/-- The check against the declared write ranges (R159, R320, R321). -/
def Kernel.rangeFault (k : Kernel) (va n : Nat) (acc : Acc) : Option (Nat × Nat) :=
  if !k.h.det || acc = .r || acc = .x then none
  else
    let cov := k.h.wr.filter fun r => r.base ≤ va && va + n ≤ r.base + r.len
    if cov = [] then some (cRANGE, 1)
    else if cov.any fun r => if acc = .a then r.a else r.w then none else some (cRANGE, 2)

/-- Checks 5 to 8 of a global access, and its place. -/
def State.locateGl (s : State) (u : Who) (r : Req) (ea : Nat) : State × Except (Nat × Nat) Loc :=
  match s.xlat u.core u.ctx ea with
  | (s, .error f) => (s, .error f)
  | (s, .ok x) =>
    let pa := x.pa + ea % x.size
    if !s.paOk pa then (s, .error (cPAGE, 3))
    else if !x.permits r.acc then (s, .error (cPROT, 1))
    else if r.noPort && behindPort pa then (s, .error (cPROT, 5))
    else
      match (s.kernels[u.kernel]?).bind fun k => k.rangeFault ea r.bytes r.acc with
      | some f => (s, .error f)
      | none => (s, .ok (.gl pa { x with owner := some u.owner }))

/-- The checks of R159 in their order. -/
def State.locate (s : State) (u : Who) (r : Req) (ea : Dword) : State × Except (Nat × Nat) Loc :=
  let a := ea.toNat
  if a % r.align ≠ 0 then (s, .error (cALIGN, 1))
  else
    match r.space with
    | .gl => if !canonical a then (s, .error (cPROT, 2)) else s.locateGl u r a
    | .sp => if s.spSize u.kernel < a + r.bytes then (s, .error (cPROT, 3)) else (s, .ok (.sp u.team a))
    | .bb =>
      if (List.range r.bytes).all fun i => (s.boardAt u.cluster u.ctx (a + i)).isSome then
        (s, .ok (.bb (u.cluster * Config.bbBytes + a)))
      else (s, .error (cPROT, 4))

/-- A scratchpad granule that has an uncorrectable error. -/
def State.spPoisoned (s : State) (t off n : Nat) : Bool :=
  match s.teams[t]? with
  | some x => x.spPoison.any fun p => off / 16 ≤ p && p ≤ (off + n - 1) / 16
  | none => false

/-- Some byte of a range of the boarding buffers has an uncorrectable error. -/
def State.bbPoisoned (s : State) (at_ n : Nat) : Bool :=
  s.bbPoison.any fun p => at_ / 16 ≤ p && p ≤ (at_ + n - 1) / 16

/-- What still fails an access that passed R159: a port that is out (R455), the key recorded with the line (R384), an
uncorrectable error, a poisoned tile (R160, R276). -/
def State.lateFault (s : State) (u : Who) (loc : Loc) (n : Nat) : Option (Nat × Nat) :=
  match loc with
  | .gl pa x =>
    if s.portOut pa then some (cMACHINE, 6)
    else if (s.l2? pa).any fun y => y.key ≠ x.key then some (cPROT, 9)
    else if s.poisoned pa n then some (cMACHINE, 1) else none
  | .sp t off => if s.spPoisoned t off n then some (cMACHINE, 1) else none
  | .bb at_ =>
    let off := at_ % Config.bbBytes
    match s.boardAt u.cluster u.ctx off with
    | some b =>
      match b.bad.find? fun d => d.1 = (off - b.off) / b.tile with
      | some d => some (cRINGPOISON, d.2)
      | none => if s.bbPoisoned at_ n then some (cMACHINE, 1) else none
    | none => none

/-- An access to a place goes to a host port that is in training: the L2 does not hold its line, or the policy is `host-coherent` (R157,
R468). -/
def State.waitsPort (s : State) : Loc → Bool
  | .gl pa x => s.portTrains pa && (x.pol = 2 || (s.l2? pa).isNone)
  | _ => false

/-- What keeps an access that passed R159 from being made now: a port in training, which holds it, or a late failure. -/
def State.heldFault (s : State) (u : Who) (loc : Loc) (n : Nat) : Option (Nat × Nat) :=
  if s.waitsPort loc then some (cHOLD, 0) else s.lateFault u loc n

/-! ### One access -/

/-- Bytes read at a place; the L2 takes the line where the policy allocates. -/
def State.readLoc (s : State) (loc : Loc) (n : Nat) : State × List Byte :=
  match loc with
  | .gl pa x => let s := s.fillLine pa x; (s, (List.range n).map fun i => s.byteAt (pa + i) (s.keyOf x.key))
  | .sp t off => (s, match s.teams[t]? with | some x => Memory.readN x.sp off n | none => List.replicate n 0)
  | .bb at_ => (s, Memory.readN s.bb at_ n)

/-- Lines of memory behind a port that a store has left dirty are its owner's to see written back (R181, R328). -/
def State.owe (s : State) (pa n : Nat) (owner : Option Owner) : State :=
  match owner with
  | some o =>
    if !behindPort pa then s
    else { s with l2 := s.l2.map fun x =>
      if x.dirty && pa / 128 ≤ x.line && x.line ≤ (pa + n - 1) / 128 then { x with owners := o :: x.owners.filter (· ≠ o) } else x }
  | none => s

/-- Bytes written at a place. No word writes the boarding buffer (R153). -/
def State.writeLoc (s : State) (loc : Loc) (bs : List Byte) : State :=
  match loc with
  | .gl pa x =>
    let t := (s.fillLine pa x).putBytes pa bs x.pol (s.keyOf x.key)
    if x.pol = 2 then t else t.owe pa bs.length x.owner
  | .sp t off => s.onTeam t fun x => { x with sp := Memory.writeN x.sp off bs }
  | .bb _ => s

/-- A place as a `host-coherent` store sees it, which writes through (R157). -/
def Loc.through : Loc → Loc
  | .gl pa x => .gl pa { x with pol := 2 }
  | loc => loc

/-- Before an access that is made at a host port the L2's line goes to memory where it is dirty, and leaves (R173, R492). -/
def State.toPort (s : State) (loc : Loc) : State :=
  match loc with
  | .gl pa _ => if behindPort pa then s.evict (fun x => x.line = pa / 128) true else s
  | _ => s

/-- The full-empty bit of the granule at a place (R166). -/
def State.feAt (s : State) (loc : Loc) : Bool :=
  match loc with
  | .gl pa _ => !s.empty.contains (pa / 16)
  | .sp t off => match s.teams[t]? with | some x => !x.spEmpty.contains (off / 16) | none => true
  | .bb _ => true

/-- The full-empty bit written. -/
def State.setFe (s : State) (loc : Loc) (full : Bool) : State :=
  let f := fun n l => if full then setDel n l else setAdd n l
  match loc with
  | .gl pa _ => { s with empty := f (pa / 16) s.empty }
  | .sp t off => s.onTeam t fun x => { x with spEmpty := f (off / 16) x.spEmpty }
  | .bb _ => s

/-- A read that an agent other than a lane makes: checks, late failures, data. The cause of one that a port holds is cHOLD. -/
def State.fetch (s : State) (u : Who) (space : Space) (va : Nat) (n : Nat) (acc : Acc) :
    State × Except (Nat × Nat) (List Byte) :=
  match s.locate u { space := space, bytes := n, acc := acc, align := 1 } (BitVec.ofNat 64 va) with
  | (s, .error f) => (s, .error f)
  | (s, .ok loc) =>
    match s.heldFault u loc n with
    | some f => (s, .error f)
    | none => let (s, bs) := s.readLoc loc n; (s, .ok bs)

/-- A write that an agent other than a lane makes, which a port in training takes when its training ends (log entry 84); `fe` says what the granule's bit becomes, if it changes. -/
def State.store (s : State) (u : Who) (space : Space) (va : Nat) (bs : List Byte) (fe : Option Bool) :
    State × Option (Nat × Nat) :=
  match s.locate u { space := space, bytes := bs.length, acc := .w, align := 1 } (BitVec.ofNat 64 va) with
  | (s, .error f) => (s, some f)
  | (s, .ok loc) =>
    match s.lateFault u loc bs.length with
    | some f => (s, some f)
    | none =>
      let s := s.writeLoc loc bs
      (match fe with | some b => s.setFe loc b | none => s, none)

/-- A long read in pieces of at most 16 bytes that stay within a granule; the first failure ends it, with its
address. -/
def State.fetchLong : Nat → State → Who → Space → Nat → Nat → Acc → State × Except (Nat × Nat × Nat) (List Byte)
  | 0, s, _, _, _, _, _ => (s, .ok [])
  | k + 1, s, u, sp, va, n, acc =>
    if n = 0 then (s, .ok [])
    else
      let m := min n (16 - va % 16)
      match s.fetch u sp va m acc with
      | (s, .error f) => (s, .error (f.1, f.2, va))
      | (s, .ok bs) =>
        match State.fetchLong k s u sp (va + m) (n - m) acc with
        | (s, .error f) => (s, .error f)
        | (s, .ok cs) => (s, .ok (bs ++ cs))

/-- A read of `n` bytes. -/
def State.readVa (s : State) (u : Who) (sp : Space) (va n : Nat) (acc : Acc) :
    State × Except (Nat × Nat × Nat) (List Byte) :=
  State.fetchLong (n / 16 + 2) s u sp va n acc

/-- The pieces of a range that lie in one granule each: address and length. -/
def pieces : Nat → Nat → Nat → List (Nat × Nat)
  | 0, _, _ => []
  | k + 1, va, n =>
    if n = 0 then [] else (va, min n (16 - va % 16)) :: pieces k (va + min n (16 - va % 16)) (n - min n (16 - va % 16))

/-- Some byte of a range lies where an access is held by a port in training (R468). -/
def State.vaHeld (s : State) (u : Who) (sp : Space) (va n : Nat) : Bool :=
  (s.ports.take 2).any (fun p => p.st = .training) && (pieces (n / 16 + 2) va n).any fun p =>
    match (s.locate u { space := sp, bytes := p.2, acc := .r, align := 1 } (BitVec.ofNat 64 p.1)).2 with
    | .ok loc => s.waitsPort loc
    | .error _ => false

/-- A long write in the same pieces. -/
def State.storeLong : Nat → State → Who → Space → Nat → List Byte → Option Bool → State × Option (Nat × Nat × Nat)
  | 0, s, _, _, _, _, _ => (s, none)
  | k + 1, s, u, sp, va, bs, fe =>
    if bs = [] then (s, none)
    else
      let m := 16 - va % 16
      match s.store u sp va (bs.take m) fe with
      | (s, some f) => (s, some (f.1, f.2, va))
      | (s, none) => State.storeLong k s u sp (va + m) (bs.drop m) fe

/-- A write of bytes. -/
def State.writeVa (s : State) (u : Who) (sp : Space) (va : Nat) (bs : List Byte) (fe : Option Bool) :
    State × Option (Nat × Nat × Nat) :=
  State.storeLong (bs.length / 16 + 2) s u sp va bs fe

/-- A whole range is readable or writable, byte by byte of its 64 KiB units, with no access made: the first failure and
its address. -/
def State.checkUnits : Nat → State → Who → Nat → Nat → Acc → State × Option (Nat × Nat × Nat)
  | 0, s, _, _, _, _ => (s, none)
  | k + 1, s, u, va, n, acc =>
    if n = 0 then (s, none)
    else
      let m := min n (65536 - va % 65536)
      match s.locate u { space := .gl, bytes := m, acc := acc, align := 1 } (BitVec.ofNat 64 va) with
      | (s, .error f) => (s, some (f.1, f.2, va))
      | (s, .ok _) => State.checkUnits k s u (va + m) (n - m) acc

def State.checkVa (s : State) (u : Who) (va n : Nat) (acc : Acc) : State × Option (Nat × Nat × Nat) :=
  State.checkUnits (n / 65536 + 2) s u va n acc

/-- An agent of a context that is no lane and no engine of a kernel: the queue processor, the scheduler, a walker. -/
def agent (c : Nat) : Who := ⟨none, c, 1000000, 1000000, 1000000, 1000000⟩

end Sys2Proof.Machine
end

