-- ==== Sys2Proof/Machine/Load.lean ====
section
/-! DEFINITION. A one-packet program loaded from outside the machine (log entry 3): the page tables, context, kernel, team and
group that a fetch needs. -/
namespace Sys2Proof.Machine

/-- A header whose code segment is one packet at virtual address 0, for one team of one group. -/
def Header.bench : Header :=
  { det := false, ovp := false, irq := false, vpre := false, w1 := 0, w2 := 0, w3 := 0, w4 := 0, w5 := 0, xreg := 0, gangs := 0,
    bands := 0, ivec := 0, code := 0, clen := 1, entry := 0, data := 0, nteam := 1, scr := 0, chunk := 1, capt := 0, sig := 0,
    sigv := 0, psm := 0, pre := 0, wr := [] }

/-- A running kernel of a context. -/
def Kernel.bench (ctx : Nat) (h : Header) : Kernel :=
  { ctx := ctx, tag := 0, st := .running, h := h, preload := [], next := h.nteam, ret := 0, range0 := none, range1 := none,
    token := 0, barGen := 0, arrived := [], launch := none, age := 0, wait := 0, loose := false, saveFull := false, herd := none, role := .entry,
    sigFault := false }

/-- A team of a kernel, resident on a core. -/
def Team.bench (kernel core : Nat) (groups : List Nat) : Team :=
  { kernel := kernel, idx := 0, st := .resident, core := core, groups := groups, sp := [], spEmpty := [], spPoison := [],
    caps := Vector.replicate 64 0, gangs := [], reqs := [], bands := [], passes := [], placed := 0, quant := 0 }

/-- The places of the tables and of the page that virtual address 0 is mapped to. -/
def benchRoot : Nat := 0
def benchPage : Nat := 0x40000

/-- The bytes of the page tables (R378): one entry at index 0 of each level, the last a leaf with R, W and X. -/
def benchTables : List (Nat × Nat) :=
  [(benchRoot, 0x10003), (0x10000, 0x20003), (0x20000, 0x21003), (0x21000, benchPage + 0x1d)]

/-- Words written to memory, 8 bytes each. -/
def State.putDwords (s : State) (ws : List (Nat × Nat)) : State :=
  { s with mem := ws.foldl (fun m w => Memory.writeN m w.1 (toBytes 8 w.2)) s.mem }

/-- A packet loaded as the program of a new group, which is the next to issue. -/
def State.loadPacket (s : State) (w : Nat) : State :=
  let s := s.putDwords benchTables
  let gi := s.groups.length
  { s with
    mem := Memory.writeN s.mem benchPage (toBytes 12 w),
    poison := [], memKeys := [], outside := [], errors := [], l2 := [], tlb := [], agenda := [],
    ctxs := s.ctxs.set 0 { (s.ctxs.getD 0 Ctx.blank) with st := .running, d := { Desc.zero with root := benchRoot } },
    kernels := s.kernels ++ [Kernel.bench 0 Header.bench],
    teams := s.teams ++ [Team.bench s.kernels.length 0 [gi]],
    groups := s.groups ++ [Group.fresh s.kernels.length s.teams.length 0 0 0],
    turn := 2 * gi }

end Sys2Proof.Machine
end

