-- ==== Sys2Proof/WellFormed.lean ====
section
/-! DEFINITION. Well-formed instructions: no static rule on the operands is broken (R41). -/
namespace Sys2Proof

/-- Every detail code of R41 that the instruction's fields raise. -/
def Instr.violations (i : Instr) : List Nat := i.operandViol ++ i.limmViol

/-- An instruction is well formed when no static rule is broken. -/
def Instr.wf (i : Instr) : Bool := i.violations.isEmpty

end Sys2Proof
end

