-- ==== Sys2Proof/Decode.lean ====
section
/-! DEFINITION. From the words of a packet to instructions, and back (R20 to R41).

`decodeAt` reads the instruction that starts in a slot of a packet. It never fails to answer: what a rule of R31 to R41
forbids is named by the detail codes of R41, and a packet's position is told apart from the middle of an instruction
by `issuable` (R22). `encode` gives the words of an instruction. -/
namespace Sys2Proof

noncomputable section

/-- What a word of a listed class and function reads as: the instruction, whether every reserved bit of its words is 0,
and whether it takes an extension word. -/
structure Raw where
  instr : Instr
  clean : Bool
  two : Bool
  deriving DecidableEq, Repr

/-- The words of class 0x00, `SYS` (R38), by their function code. -/
def decodeSys (h : Hdr) (w _x : Word) : Option Raw :=
  match (w.extractLsb' 18 5).toNat with
  | 1 => some ⟨.csrr h (w.extractLsb' 12 6) (w.extractLsb' 6 6) (w.extractLsb' 0 6), (w &&& 0x800000#32 == 0#32), false⟩
  | 2 => some ⟨.csrw h (w.extractLsb' 12 6) (w.extractLsb' 6 6) (w.extractLsb' 0 6), (w &&& 0x800000#32 == 0#32), false⟩
  | 3 => match (w.extractLsb' 12 2).toNat with
    | 0 => some ⟨.tlbinvPage h (w.extractLsb' 6 6), (w &&& 0x83c03f#32 == 0#32), false⟩
    | 1 => some ⟨.tlbinvRange h (w.extractLsb' 6 6) (w.extractLsb' 0 6), (w &&& 0x83c000#32 == 0#32), false⟩
    | 2 => some ⟨.tlbinvAll h, (w &&& 0x83cfff#32 == 0#32), false⟩
    | _ => none
  | 4 => some ⟨.perf h (w.extractLsb' 12 6) (w.extractLsb' 0 6), (w &&& 0x800fc0#32 == 0#32), false⟩
  | 5 => some ⟨.time h (w.extractLsb' 12 6) (w.getLsbD 0), (w &&& 0x800ffe#32 == 0#32), false⟩
  | _ => none

/-- The words of class 0x01, `CTL` (R38), by their function code. -/
def decodeCtl (h : Hdr) (w _x : Word) : Option Raw :=
  match (w.extractLsb' 18 5).toNat with
  | 0 => some ⟨.nop h, (w &&& 0x83ffff#32 == 0#32), false⟩
  | 1 => some ⟨.exit h, (w &&& 0x83ffff#32 == 0#32), false⟩
  | 2 => some ⟨.yield h, (w &&& 0x83ffff#32 == 0#32), false⟩
  | 3 => some ⟨.sleep h (w.extractLsb' 0 12), (w &&& 0x83f000#32 == 0#32), false⟩
  | 4 => some ⟨.region h, (w &&& 0x83ffff#32 == 0#32), false⟩
  | 5 => some ⟨.trap h (w.extractLsb' 0 12), (w &&& 0x83f000#32 == 0#32), false⟩
  | 6 => some ⟨.eret h, (w &&& 0x83ffff#32 == 0#32), false⟩
  | _ => none

/-- The words of class 0x02, `BRA` (R38), by their function code. -/
def decodeBra (h : Hdr) (w _x : Word) : Option Raw :=
  match (w.extractLsb' 18 5).toNat with
  | 0 => some ⟨.bra h (w.extractLsb' 0 18), (w &&& 0x800000#32 == 0#32), false⟩
  | 1 => some ⟨.brx h (w.extractLsb' 6 6), (w &&& 0x83f03f#32 == 0#32), false⟩
  | _ => none

/-- The words of class 0x03, `CALL` (R38), by their function code. -/
def decodeCall (h : Hdr) (w _x : Word) : Option Raw :=
  match (w.extractLsb' 18 5).toNat with
  | 0 => match (w.extractLsb' 23 1).toNat with
    | 0 => some ⟨.call h (w.extractLsb' 0 18), true, false⟩
    | 1 => some ⟨.callRegister h (w.extractLsb' 6 6), (w &&& 0x3f03f#32 == 0#32), false⟩
    | _ => none
  | 1 => some ⟨.ret h (w.extractLsb' 6 6), (w &&& 0x83f03f#32 == 0#32), false⟩
  | _ => none

/-- The words of class 0x04, `LOOP` (R38), by their function code. -/
def decodeLoop (h : Hdr) (w _x : Word) : Option Raw :=
  match (w.extractLsb' 18 5).toNat with
  | 0 => match (w.extractLsb' 23 1).toNat with
    | 1 => some ⟨.loop h (w.extractLsb' 16 2) (w.extractLsb' 8 8) (w.extractLsb' 0 8), true, false⟩
    | 0 => some ⟨.loopRegister h (w.extractLsb' 16 2) (w.extractLsb' 8 8) (w.extractLsb' 0 6), (w &&& 0xc0#32 == 0#32), false⟩
    | _ => none
  | 1 => some ⟨.lbrk h (w.extractLsb' 16 2), (w &&& 0x80ffff#32 == 0#32), false⟩
  | _ => none

/-- The words of class 0x06, `IALU` (R38), by their function code. -/
def decodeIalu (h : Hdr) (w x : Word) : Option Raw :=
  match (w.extractLsb' 18 5).toNat with
  | 0 => some ⟨.ialuAdd h (w.getLsbD 23) (w.extractLsb' 12 6) (w.extractLsb' 6 6) (w.extractLsb' 0 6), true, false⟩
  | 1 => some ⟨.ialuSub h (w.getLsbD 23) (w.extractLsb' 12 6) (w.extractLsb' 6 6) (w.extractLsb' 0 6), true, false⟩
  | 2 => some ⟨.ialuMul h (w.getLsbD 23) (w.extractLsb' 12 6) (w.extractLsb' 6 6) (w.extractLsb' 0 6), true, false⟩
  | 3 => some ⟨.ialuMulhiN32 h (w.getLsbD 23) (w.extractLsb' 12 6) (w.extractLsb' 6 6) (w.extractLsb' 0 6), true, false⟩
  | 4 => some ⟨.ialuMulhiI32 h (w.getLsbD 23) (w.extractLsb' 12 6) (w.extractLsb' 6 6) (w.extractLsb' 0 6), true, false⟩
  | 5 => some ⟨.ialuMad h (w.getLsbD 23) (w.extractLsb' 12 6) (w.extractLsb' 6 6) (w.extractLsb' 0 6) (x.extractLsb' 26 6) (x.getLsbD 25), (x &&& 0x1ffffff#32 == 0#32), true⟩
  | 6 => some ⟨.ialuDivN32 h (w.getLsbD 23) (w.extractLsb' 12 6) (w.extractLsb' 6 6) (w.extractLsb' 0 6), true, false⟩
  | 7 => some ⟨.ialuDivI32 h (w.getLsbD 23) (w.extractLsb' 12 6) (w.extractLsb' 6 6) (w.extractLsb' 0 6), true, false⟩
  | 8 => some ⟨.ialuRemN32 h (w.getLsbD 23) (w.extractLsb' 12 6) (w.extractLsb' 6 6) (w.extractLsb' 0 6), true, false⟩
  | 9 => some ⟨.ialuRemI32 h (w.getLsbD 23) (w.extractLsb' 12 6) (w.extractLsb' 6 6) (w.extractLsb' 0 6), true, false⟩
  | 10 => some ⟨.ialuMinN32 h (w.getLsbD 23) (w.extractLsb' 12 6) (w.extractLsb' 6 6) (w.extractLsb' 0 6), true, false⟩
  | 11 => some ⟨.ialuMinI32 h (w.getLsbD 23) (w.extractLsb' 12 6) (w.extractLsb' 6 6) (w.extractLsb' 0 6), true, false⟩
  | 12 => some ⟨.ialuMaxN32 h (w.getLsbD 23) (w.extractLsb' 12 6) (w.extractLsb' 6 6) (w.extractLsb' 0 6), true, false⟩
  | 13 => some ⟨.ialuMaxI32 h (w.getLsbD 23) (w.extractLsb' 12 6) (w.extractLsb' 6 6) (w.extractLsb' 0 6), true, false⟩
  | 14 => some ⟨.ialuAnd h (w.getLsbD 23) (w.extractLsb' 12 6) (w.extractLsb' 6 6) (w.extractLsb' 0 6), true, false⟩
  | 15 => some ⟨.ialuOr h (w.getLsbD 23) (w.extractLsb' 12 6) (w.extractLsb' 6 6) (w.extractLsb' 0 6), true, false⟩
  | 16 => some ⟨.ialuXor h (w.getLsbD 23) (w.extractLsb' 12 6) (w.extractLsb' 6 6) (w.extractLsb' 0 6), true, false⟩
  | 17 => some ⟨.ialuShl h (w.getLsbD 23) (w.extractLsb' 12 6) (w.extractLsb' 6 6) (w.extractLsb' 0 6), true, false⟩
  | 18 => some ⟨.ialuShr h (w.getLsbD 23) (w.extractLsb' 12 6) (w.extractLsb' 6 6) (w.extractLsb' 0 6), true, false⟩
  | 19 => some ⟨.ialuSra h (w.getLsbD 23) (w.extractLsb' 12 6) (w.extractLsb' 6 6) (w.extractLsb' 0 6), true, false⟩
  | 20 => some ⟨.ialuRot h (w.getLsbD 23) (w.extractLsb' 12 6) (w.extractLsb' 6 6) (w.extractLsb' 0 6), true, false⟩
  | 21 => match (w.extractLsb' 0 6).toNat with
    | 0 => some ⟨.ialuAbs h (w.getLsbD 23) (w.extractLsb' 12 6) (w.extractLsb' 6 6), true, false⟩
    | 1 => some ⟨.ialuNeg h (w.getLsbD 23) (w.extractLsb' 12 6) (w.extractLsb' 6 6), true, false⟩
    | 2 => some ⟨.ialuNot h (w.getLsbD 23) (w.extractLsb' 12 6) (w.extractLsb' 6 6), true, false⟩
    | 3 => some ⟨.ialuClz h (w.getLsbD 23) (w.extractLsb' 12 6) (w.extractLsb' 6 6), true, false⟩
    | 4 => some ⟨.ialuPopc h (w.getLsbD 23) (w.extractLsb' 12 6) (w.extractLsb' 6 6), true, false⟩
    | 5 => some ⟨.ialuBrev h (w.getLsbD 23) (w.extractLsb' 12 6) (w.extractLsb' 6 6), true, false⟩
    | 6 => some ⟨.ialuMov h (w.getLsbD 23) (w.extractLsb' 12 6) (w.extractLsb' 6 6), true, false⟩
    | _ => none
  | 22 => some ⟨.ialuBfxN32 h (w.getLsbD 23) (w.extractLsb' 12 6) (w.extractLsb' 6 6) (x.extractLsb' 27 5) (x.extractLsb' 21 6), (w &&& 0x3f#32 == 0#32) && (x &&& 0x1fffff#32 == 0#32), true⟩
  | 23 => some ⟨.ialuBfxI32 h (w.getLsbD 23) (w.extractLsb' 12 6) (w.extractLsb' 6 6) (x.extractLsb' 27 5) (x.extractLsb' 21 6), (w &&& 0x3f#32 == 0#32) && (x &&& 0x1fffff#32 == 0#32), true⟩
  | 24 => some ⟨.ialuBfi h (w.getLsbD 23) (w.extractLsb' 12 6) (w.extractLsb' 6 6) (w.extractLsb' 0 6) (x.extractLsb' 27 5) (x.extractLsb' 21 6), (x &&& 0x1fffff#32 == 0#32), true⟩
  | 25 => some ⟨.ialuSel h (w.getLsbD 23) (w.extractLsb' 12 6) (w.extractLsb' 6 6) (w.extractLsb' 0 6) (x.extractLsb' 30 2), (x &&& 0x3fffffff#32 == 0#32), true⟩
  | 26 => some ⟨.ialuLea h (w.getLsbD 23) (w.extractLsb' 12 6) (w.extractLsb' 6 6) (w.extractLsb' 0 6) (x.extractLsb' 29 3) (x.getLsbD 28), (x &&& 0xfffffff#32 == 0#32), true⟩
  | 27 => some ⟨.ialuWid h (w.getLsbD 23) (w.extractLsb' 12 6) (x.extractLsb' 29 3) (x.getLsbD 28), (w &&& 0xfff#32 == 0#32) && (x &&& 0xfffffff#32 == 0#32), true⟩
  | 31 => some ⟨.ialuEscape64 h (w.getLsbD 23) (w.extractLsb' 12 6) (w.extractLsb' 6 6) (w.extractLsb' 0 6) (x.extractLsb' 27 5) (x.extractLsb' 25 2), (x &&& 0x1ffffff#32 == 0#32), true⟩
  | _ => none

/-- The words of class 0x07, `IALUI` (R38), by their function code. -/
def decodeIalui (h : Hdr) (w _x : Word) : Option Raw :=
  match (w.extractLsb' 18 5).toNat with
  | 0 => some ⟨.ialuiAdd h (w.getLsbD 23) (w.extractLsb' 12 6) (w.extractLsb' 6 6) (w.extractLsb' 0 6), true, false⟩
  | 1 => some ⟨.ialuiSub h (w.getLsbD 23) (w.extractLsb' 12 6) (w.extractLsb' 6 6) (w.extractLsb' 0 6), true, false⟩
  | 2 => some ⟨.ialuiMul h (w.getLsbD 23) (w.extractLsb' 12 6) (w.extractLsb' 6 6) (w.extractLsb' 0 6), true, false⟩
  | 10 => some ⟨.ialuiMinN32 h (w.getLsbD 23) (w.extractLsb' 12 6) (w.extractLsb' 6 6) (w.extractLsb' 0 6), true, false⟩
  | 11 => some ⟨.ialuiMinI32 h (w.getLsbD 23) (w.extractLsb' 12 6) (w.extractLsb' 6 6) (w.extractLsb' 0 6), true, false⟩
  | 12 => some ⟨.ialuiMaxN32 h (w.getLsbD 23) (w.extractLsb' 12 6) (w.extractLsb' 6 6) (w.extractLsb' 0 6), true, false⟩
  | 13 => some ⟨.ialuiMaxI32 h (w.getLsbD 23) (w.extractLsb' 12 6) (w.extractLsb' 6 6) (w.extractLsb' 0 6), true, false⟩
  | 14 => some ⟨.ialuiAnd h (w.getLsbD 23) (w.extractLsb' 12 6) (w.extractLsb' 6 6) (w.extractLsb' 0 6), true, false⟩
  | 15 => some ⟨.ialuiOr h (w.getLsbD 23) (w.extractLsb' 12 6) (w.extractLsb' 6 6) (w.extractLsb' 0 6), true, false⟩
  | 16 => some ⟨.ialuiXor h (w.getLsbD 23) (w.extractLsb' 12 6) (w.extractLsb' 6 6) (w.extractLsb' 0 6), true, false⟩
  | 17 => some ⟨.ialuiShl h (w.getLsbD 23) (w.extractLsb' 12 6) (w.extractLsb' 6 6) (w.extractLsb' 0 6), true, false⟩
  | 18 => some ⟨.ialuiShr h (w.getLsbD 23) (w.extractLsb' 12 6) (w.extractLsb' 6 6) (w.extractLsb' 0 6), true, false⟩
  | 19 => some ⟨.ialuiSra h (w.getLsbD 23) (w.extractLsb' 12 6) (w.extractLsb' 6 6) (w.extractLsb' 0 6), true, false⟩
  | 20 => some ⟨.ialuiRot h (w.getLsbD 23) (w.extractLsb' 12 6) (w.extractLsb' 6 6) (w.extractLsb' 0 6), true, false⟩
  | 28 => some ⟨.ialuiLi h (w.getLsbD 23) (w.extractLsb' 12 6) (w.extractLsb' 0 12), true, false⟩
  | _ => none

/-- The words of class 0x08, `SALU` (R38), by their function code. -/
def decodeSalu (h : Hdr) (w x : Word) : Option Raw :=
  match (w.extractLsb' 18 5).toNat with
  | 0 => some ⟨.saluAdd h (w.extractLsb' 12 6) (w.extractLsb' 6 6) (w.extractLsb' 0 6), (w &&& 0x800000#32 == 0#32), false⟩
  | 1 => some ⟨.saluSub h (w.extractLsb' 12 6) (w.extractLsb' 6 6) (w.extractLsb' 0 6), (w &&& 0x800000#32 == 0#32), false⟩
  | 2 => some ⟨.saluMul h (w.extractLsb' 12 6) (w.extractLsb' 6 6) (w.extractLsb' 0 6), (w &&& 0x800000#32 == 0#32), false⟩
  | 3 => some ⟨.saluMulhiN32 h (w.extractLsb' 12 6) (w.extractLsb' 6 6) (w.extractLsb' 0 6), (w &&& 0x800000#32 == 0#32), false⟩
  | 4 => some ⟨.saluMulhiI32 h (w.extractLsb' 12 6) (w.extractLsb' 6 6) (w.extractLsb' 0 6), (w &&& 0x800000#32 == 0#32), false⟩
  | 5 => some ⟨.saluMad h (w.extractLsb' 12 6) (w.extractLsb' 6 6) (w.extractLsb' 0 6) (x.extractLsb' 26 6), (w &&& 0x800000#32 == 0#32) && (x &&& 0x3ffffff#32 == 0#32), true⟩
  | 6 => some ⟨.saluDivN32 h (w.extractLsb' 12 6) (w.extractLsb' 6 6) (w.extractLsb' 0 6), (w &&& 0x800000#32 == 0#32), false⟩
  | 7 => some ⟨.saluDivI32 h (w.extractLsb' 12 6) (w.extractLsb' 6 6) (w.extractLsb' 0 6), (w &&& 0x800000#32 == 0#32), false⟩
  | 8 => some ⟨.saluRemN32 h (w.extractLsb' 12 6) (w.extractLsb' 6 6) (w.extractLsb' 0 6), (w &&& 0x800000#32 == 0#32), false⟩
  | 9 => some ⟨.saluRemI32 h (w.extractLsb' 12 6) (w.extractLsb' 6 6) (w.extractLsb' 0 6), (w &&& 0x800000#32 == 0#32), false⟩
  | 10 => some ⟨.saluMinN32 h (w.extractLsb' 12 6) (w.extractLsb' 6 6) (w.extractLsb' 0 6), (w &&& 0x800000#32 == 0#32), false⟩
  | 11 => some ⟨.saluMinI32 h (w.extractLsb' 12 6) (w.extractLsb' 6 6) (w.extractLsb' 0 6), (w &&& 0x800000#32 == 0#32), false⟩
  | 12 => some ⟨.saluMaxN32 h (w.extractLsb' 12 6) (w.extractLsb' 6 6) (w.extractLsb' 0 6), (w &&& 0x800000#32 == 0#32), false⟩
  | 13 => some ⟨.saluMaxI32 h (w.extractLsb' 12 6) (w.extractLsb' 6 6) (w.extractLsb' 0 6), (w &&& 0x800000#32 == 0#32), false⟩
  | 14 => some ⟨.saluAnd h (w.extractLsb' 12 6) (w.extractLsb' 6 6) (w.extractLsb' 0 6), (w &&& 0x800000#32 == 0#32), false⟩
  | 15 => some ⟨.saluOr h (w.extractLsb' 12 6) (w.extractLsb' 6 6) (w.extractLsb' 0 6), (w &&& 0x800000#32 == 0#32), false⟩
  | 16 => some ⟨.saluXor h (w.extractLsb' 12 6) (w.extractLsb' 6 6) (w.extractLsb' 0 6), (w &&& 0x800000#32 == 0#32), false⟩
  | 17 => some ⟨.saluShl h (w.extractLsb' 12 6) (w.extractLsb' 6 6) (w.extractLsb' 0 6), (w &&& 0x800000#32 == 0#32), false⟩
  | 18 => some ⟨.saluShr h (w.extractLsb' 12 6) (w.extractLsb' 6 6) (w.extractLsb' 0 6), (w &&& 0x800000#32 == 0#32), false⟩
  | 19 => some ⟨.saluSra h (w.extractLsb' 12 6) (w.extractLsb' 6 6) (w.extractLsb' 0 6), (w &&& 0x800000#32 == 0#32), false⟩
  | 20 => some ⟨.saluRot h (w.extractLsb' 12 6) (w.extractLsb' 6 6) (w.extractLsb' 0 6), (w &&& 0x800000#32 == 0#32), false⟩
  | 21 => match (w.extractLsb' 0 6).toNat with
    | 0 => some ⟨.saluAbs h (w.extractLsb' 12 6) (w.extractLsb' 6 6), (w &&& 0x800000#32 == 0#32), false⟩
    | 1 => some ⟨.saluNeg h (w.extractLsb' 12 6) (w.extractLsb' 6 6), (w &&& 0x800000#32 == 0#32), false⟩
    | 2 => some ⟨.saluNot h (w.extractLsb' 12 6) (w.extractLsb' 6 6), (w &&& 0x800000#32 == 0#32), false⟩
    | 3 => some ⟨.saluClz h (w.extractLsb' 12 6) (w.extractLsb' 6 6), (w &&& 0x800000#32 == 0#32), false⟩
    | 4 => some ⟨.saluPopc h (w.extractLsb' 12 6) (w.extractLsb' 6 6), (w &&& 0x800000#32 == 0#32), false⟩
    | 5 => some ⟨.saluBrev h (w.extractLsb' 12 6) (w.extractLsb' 6 6), (w &&& 0x800000#32 == 0#32), false⟩
    | 6 => some ⟨.saluMov h (w.extractLsb' 12 6) (w.extractLsb' 6 6), (w &&& 0x800000#32 == 0#32), false⟩
    | _ => none
  | 22 => some ⟨.saluBfxN32 h (w.extractLsb' 12 6) (w.extractLsb' 6 6) (x.extractLsb' 27 5) (x.extractLsb' 21 6), (w &&& 0x80003f#32 == 0#32) && (x &&& 0x1fffff#32 == 0#32), true⟩
  | 23 => some ⟨.saluBfxI32 h (w.extractLsb' 12 6) (w.extractLsb' 6 6) (x.extractLsb' 27 5) (x.extractLsb' 21 6), (w &&& 0x80003f#32 == 0#32) && (x &&& 0x1fffff#32 == 0#32), true⟩
  | 24 => some ⟨.saluBfi h (w.extractLsb' 12 6) (w.extractLsb' 6 6) (w.extractLsb' 0 6) (x.extractLsb' 27 5) (x.extractLsb' 21 6), (w &&& 0x800000#32 == 0#32) && (x &&& 0x1fffff#32 == 0#32), true⟩
  | 26 => some ⟨.saluLea h (w.extractLsb' 12 6) (w.extractLsb' 6 6) (w.extractLsb' 0 6) (x.extractLsb' 29 3) (x.getLsbD 28), (w &&& 0x800000#32 == 0#32) && (x &&& 0xfffffff#32 == 0#32), true⟩
  | 27 => some ⟨.saluWid h (w.extractLsb' 12 6) (x.extractLsb' 29 3) (x.getLsbD 28), (w &&& 0x800fff#32 == 0#32) && (x &&& 0xfffffff#32 == 0#32), true⟩
  | 31 => some ⟨.saluEscape64 h (w.extractLsb' 12 6) (w.extractLsb' 6 6) (w.extractLsb' 0 6) (x.extractLsb' 27 5) (x.extractLsb' 25 2), (w &&& 0x800000#32 == 0#32) && (x &&& 0x1ffffff#32 == 0#32), true⟩
  | _ => none

/-- The words of class 0x09, `SALUI` (R38), by their function code. -/
def decodeSalui (h : Hdr) (w _x : Word) : Option Raw :=
  match (w.extractLsb' 18 5).toNat with
  | 0 => some ⟨.saluiAdd h (w.getLsbD 23) (w.extractLsb' 12 6) (w.extractLsb' 6 6) (w.extractLsb' 0 6), true, false⟩
  | 1 => some ⟨.saluiSub h (w.getLsbD 23) (w.extractLsb' 12 6) (w.extractLsb' 6 6) (w.extractLsb' 0 6), true, false⟩
  | 2 => some ⟨.saluiMul h (w.getLsbD 23) (w.extractLsb' 12 6) (w.extractLsb' 6 6) (w.extractLsb' 0 6), true, false⟩
  | 10 => some ⟨.saluiMinN32 h (w.getLsbD 23) (w.extractLsb' 12 6) (w.extractLsb' 6 6) (w.extractLsb' 0 6), true, false⟩
  | 11 => some ⟨.saluiMinI32 h (w.getLsbD 23) (w.extractLsb' 12 6) (w.extractLsb' 6 6) (w.extractLsb' 0 6), true, false⟩
  | 12 => some ⟨.saluiMaxN32 h (w.getLsbD 23) (w.extractLsb' 12 6) (w.extractLsb' 6 6) (w.extractLsb' 0 6), true, false⟩
  | 13 => some ⟨.saluiMaxI32 h (w.getLsbD 23) (w.extractLsb' 12 6) (w.extractLsb' 6 6) (w.extractLsb' 0 6), true, false⟩
  | 14 => some ⟨.saluiAnd h (w.getLsbD 23) (w.extractLsb' 12 6) (w.extractLsb' 6 6) (w.extractLsb' 0 6), true, false⟩
  | 15 => some ⟨.saluiOr h (w.getLsbD 23) (w.extractLsb' 12 6) (w.extractLsb' 6 6) (w.extractLsb' 0 6), true, false⟩
  | 16 => some ⟨.saluiXor h (w.getLsbD 23) (w.extractLsb' 12 6) (w.extractLsb' 6 6) (w.extractLsb' 0 6), true, false⟩
  | 17 => some ⟨.saluiShl h (w.getLsbD 23) (w.extractLsb' 12 6) (w.extractLsb' 6 6) (w.extractLsb' 0 6), true, false⟩
  | 18 => some ⟨.saluiShr h (w.getLsbD 23) (w.extractLsb' 12 6) (w.extractLsb' 6 6) (w.extractLsb' 0 6), true, false⟩
  | 19 => some ⟨.saluiSra h (w.getLsbD 23) (w.extractLsb' 12 6) (w.extractLsb' 6 6) (w.extractLsb' 0 6), true, false⟩
  | 20 => some ⟨.saluiRot h (w.getLsbD 23) (w.extractLsb' 12 6) (w.extractLsb' 6 6) (w.extractLsb' 0 6), true, false⟩
  | 28 => some ⟨.saluiLi h (w.getLsbD 23) (w.extractLsb' 12 6) (w.extractLsb' 0 12), true, false⟩
  | _ => none

/-- The words of class 0x0a, `FALU` (R38), by their function code. -/
def decodeFalu (h : Hdr) (w x : Word) : Option Raw :=
  match (w.extractLsb' 18 5).toNat with
  | 0 => some ⟨.fadd h (w.getLsbD 23) (w.extractLsb' 12 6) (w.extractLsb' 6 6) (w.extractLsb' 0 6), true, false⟩
  | 1 => some ⟨.fsub h (w.getLsbD 23) (w.extractLsb' 12 6) (w.extractLsb' 6 6) (w.extractLsb' 0 6), true, false⟩
  | 2 => some ⟨.fmul h (w.getLsbD 23) (w.extractLsb' 12 6) (w.extractLsb' 6 6) (w.extractLsb' 0 6), true, false⟩
  | 3 => some ⟨.fmin h (w.getLsbD 23) (w.extractLsb' 12 6) (w.extractLsb' 6 6) (w.extractLsb' 0 6), true, false⟩
  | 4 => some ⟨.fmax h (w.getLsbD 23) (w.extractLsb' 12 6) (w.extractLsb' 6 6) (w.extractLsb' 0 6), true, false⟩
  | 5 => some ⟨.fneg h (w.getLsbD 23) (w.extractLsb' 12 6) (w.extractLsb' 6 6), (w &&& 0x3f#32 == 0#32), false⟩
  | 6 => some ⟨.fabs h (w.getLsbD 23) (w.extractLsb' 12 6) (w.extractLsb' 6 6), (w &&& 0x3f#32 == 0#32), false⟩
  | 7 => some ⟨.fscl h (w.getLsbD 23) (w.extractLsb' 12 6) (w.extractLsb' 6 6) (w.extractLsb' 0 6), true, false⟩
  | 8 => some ⟨.fclass h (w.getLsbD 23) (w.extractLsb' 12 6) (w.extractLsb' 6 6), (w &&& 0x3f#32 == 0#32), false⟩
  | 9 => some ⟨.frnd h (w.getLsbD 23) (w.extractLsb' 12 6) (w.extractLsb' 6 6) (w.extractLsb' 0 2), (w &&& 0x3c#32 == 0#32), false⟩
  | 31 => some ⟨.faluEscape h (w.getLsbD 23) (w.extractLsb' 12 6) (w.extractLsb' 6 6) (w.extractLsb' 0 6) (x.extractLsb' 27 5) (x.extractLsb' 25 2) (x.getLsbD 24), (x &&& 0xffffff#32 == 0#32), true⟩
  | _ => none

/-- The words of class 0x0b, `FMA` (R38), by their function code. -/
def decodeFma (h : Hdr) (w x : Word) : Option Raw :=
  match (w.extractLsb' 18 5).toNat with
  | 0 => some ⟨.ffma h (w.getLsbD 23) (w.extractLsb' 12 6) (w.extractLsb' 6 6) (w.extractLsb' 0 6) (x.extractLsb' 26 6) (x.extractLsb' 24 2) (x.getLsbD 23) (x.getLsbD 22) (x.extractLsb' 20 2) (x.getLsbD 19) (x.getLsbD 18), (x &&& 0x3ffff#32 == 0#32), true⟩
  | _ => none

/-- The words of class 0x0c, `SFU` (R38), by their function code. -/
def decodeSfu (h : Hdr) (w _x : Word) : Option Raw :=
  match (w.extractLsb' 18 5).toNat with
  | 0 => some ⟨.fexp2 h (w.getLsbD 23) (w.extractLsb' 12 6) (w.extractLsb' 6 6), (w &&& 0x3f#32 == 0#32), false⟩
  | 1 => some ⟨.flog2 h (w.getLsbD 23) (w.extractLsb' 12 6) (w.extractLsb' 6 6), (w &&& 0x3f#32 == 0#32), false⟩
  | 2 => some ⟨.frcp h (w.getLsbD 23) (w.extractLsb' 12 6) (w.extractLsb' 6 6), (w &&& 0x3f#32 == 0#32), false⟩
  | 3 => some ⟨.frsq h (w.getLsbD 23) (w.extractLsb' 12 6) (w.extractLsb' 6 6), (w &&& 0x3f#32 == 0#32), false⟩
  | 4 => some ⟨.fsqrt h (w.getLsbD 23) (w.extractLsb' 12 6) (w.extractLsb' 6 6), (w &&& 0x3f#32 == 0#32), false⟩
  | 5 => some ⟨.fsin h (w.getLsbD 23) (w.extractLsb' 12 6) (w.extractLsb' 6 6), (w &&& 0x3f#32 == 0#32), false⟩
  | 6 => some ⟨.fcos h (w.getLsbD 23) (w.extractLsb' 12 6) (w.extractLsb' 6 6), (w &&& 0x3f#32 == 0#32), false⟩
  | 7 => some ⟨.ftanh h (w.getLsbD 23) (w.extractLsb' 12 6) (w.extractLsb' 6 6), (w &&& 0x3f#32 == 0#32), false⟩
  | 8 => some ⟨.ferf h (w.getLsbD 23) (w.extractLsb' 12 6) (w.extractLsb' 6 6), (w &&& 0x3f#32 == 0#32), false⟩
  | _ => none

/-- The words of class 0x0d, `CVT` (R38), by their function code. -/
def decodeCvt (h : Hdr) (w x : Word) : Option Raw :=
  match (w.extractLsb' 18 5).toNat with
  | 0 => some ⟨.cvt h (w.getLsbD 23) (w.extractLsb' 12 6) (w.extractLsb' 6 6) (x.extractLsb' 28 4) (x.extractLsb' 24 4) (x.extractLsb' 22 2) (x.getLsbD 21) (x.extractLsb' 17 4) (x.extractLsb' 13 4), (w &&& 0x3f#32 == 0#32) && (x &&& 0x1fff#32 == 0#32), true⟩
  | 1 => some ⟨.qnt h (w.getLsbD 23) (w.extractLsb' 12 6) (w.extractLsb' 6 6) (x.extractLsb' 26 6) (x.extractLsb' 24 2) (x.extractLsb' 21 3) (x.extractLsb' 19 2) (x.getLsbD 18), (w &&& 0x3f#32 == 0#32) && (x &&& 0x3ffff#32 == 0#32), true⟩
  | 2 => some ⟨.dq h (w.getLsbD 23) (w.extractLsb' 12 6) (w.extractLsb' 6 6) (x.extractLsb' 26 6) (x.extractLsb' 24 2) (x.extractLsb' 21 3) (x.extractLsb' 19 2), (w &&& 0x3f#32 == 0#32) && (x &&& 0x7ffff#32 == 0#32), true⟩
  | 3 => some ⟨.pack h (w.getLsbD 23) (w.extractLsb' 12 6) (w.extractLsb' 6 6) (w.extractLsb' 2 4) (w.extractLsb' 0 2), true, false⟩
  | 4 => some ⟨.unpack h (w.getLsbD 23) (w.extractLsb' 12 6) (w.extractLsb' 6 6) (w.extractLsb' 2 4) (w.extractLsb' 0 2), true, false⟩
  | _ => none

/-- The words of class 0x0e, `CMP` (R38), by their function code. -/
def decodeCmp (h : Hdr) (w _x : Word) : Option Raw :=
  match (w.extractLsb' 18 5).toNat with
  | 0 => some ⟨.cmpEq h (w.getLsbD 23) (w.getLsbD 17) (w.extractLsb' 12 2) (w.extractLsb' 6 6) (w.extractLsb' 0 6), (w &&& 0x1c000#32 == 0#32), false⟩
  | 1 => some ⟨.cmpNe h (w.getLsbD 23) (w.getLsbD 17) (w.extractLsb' 12 2) (w.extractLsb' 6 6) (w.extractLsb' 0 6), (w &&& 0x1c000#32 == 0#32), false⟩
  | 2 => some ⟨.cmpLtI32 h (w.getLsbD 23) (w.getLsbD 17) (w.extractLsb' 12 2) (w.extractLsb' 6 6) (w.extractLsb' 0 6), (w &&& 0x1c000#32 == 0#32), false⟩
  | 3 => some ⟨.cmpLeI32 h (w.getLsbD 23) (w.getLsbD 17) (w.extractLsb' 12 2) (w.extractLsb' 6 6) (w.extractLsb' 0 6), (w &&& 0x1c000#32 == 0#32), false⟩
  | 4 => some ⟨.cmpGtI32 h (w.getLsbD 23) (w.getLsbD 17) (w.extractLsb' 12 2) (w.extractLsb' 6 6) (w.extractLsb' 0 6), (w &&& 0x1c000#32 == 0#32), false⟩
  | 5 => some ⟨.cmpGeI32 h (w.getLsbD 23) (w.getLsbD 17) (w.extractLsb' 12 2) (w.extractLsb' 6 6) (w.extractLsb' 0 6), (w &&& 0x1c000#32 == 0#32), false⟩
  | 6 => some ⟨.cmpLtN32 h (w.getLsbD 23) (w.getLsbD 17) (w.extractLsb' 12 2) (w.extractLsb' 6 6) (w.extractLsb' 0 6), (w &&& 0x1c000#32 == 0#32), false⟩
  | 7 => some ⟨.cmpLeN32 h (w.getLsbD 23) (w.getLsbD 17) (w.extractLsb' 12 2) (w.extractLsb' 6 6) (w.extractLsb' 0 6), (w &&& 0x1c000#32 == 0#32), false⟩
  | 8 => some ⟨.cmpGtN32 h (w.getLsbD 23) (w.getLsbD 17) (w.extractLsb' 12 2) (w.extractLsb' 6 6) (w.extractLsb' 0 6), (w &&& 0x1c000#32 == 0#32), false⟩
  | 9 => some ⟨.cmpGeN32 h (w.getLsbD 23) (w.getLsbD 17) (w.extractLsb' 12 2) (w.extractLsb' 6 6) (w.extractLsb' 0 6), (w &&& 0x1c000#32 == 0#32), false⟩
  | 16 => some ⟨.fcmpEq h (w.getLsbD 23) (w.getLsbD 17) (w.getLsbD 16) (w.extractLsb' 12 2) (w.extractLsb' 6 6) (w.extractLsb' 0 6), (w &&& 0xc000#32 == 0#32), false⟩
  | 17 => some ⟨.fcmpNe h (w.getLsbD 23) (w.getLsbD 17) (w.getLsbD 16) (w.extractLsb' 12 2) (w.extractLsb' 6 6) (w.extractLsb' 0 6), (w &&& 0xc000#32 == 0#32), false⟩
  | 18 => some ⟨.fcmpLt h (w.getLsbD 23) (w.getLsbD 17) (w.getLsbD 16) (w.extractLsb' 12 2) (w.extractLsb' 6 6) (w.extractLsb' 0 6), (w &&& 0xc000#32 == 0#32), false⟩
  | 19 => some ⟨.fcmpLe h (w.getLsbD 23) (w.getLsbD 17) (w.getLsbD 16) (w.extractLsb' 12 2) (w.extractLsb' 6 6) (w.extractLsb' 0 6), (w &&& 0xc000#32 == 0#32), false⟩
  | 20 => some ⟨.fcmpGt h (w.getLsbD 23) (w.getLsbD 17) (w.getLsbD 16) (w.extractLsb' 12 2) (w.extractLsb' 6 6) (w.extractLsb' 0 6), (w &&& 0xc000#32 == 0#32), false⟩
  | 21 => some ⟨.fcmpGe h (w.getLsbD 23) (w.getLsbD 17) (w.getLsbD 16) (w.extractLsb' 12 2) (w.extractLsb' 6 6) (w.extractLsb' 0 6), (w &&& 0xc000#32 == 0#32), false⟩
  | 22 => some ⟨.fcmpUn h (w.getLsbD 23) (w.getLsbD 17) (w.getLsbD 16) (w.extractLsb' 12 2) (w.extractLsb' 6 6) (w.extractLsb' 0 6), (w &&& 0xc000#32 == 0#32), false⟩
  | 23 => some ⟨.fcmpOrd h (w.getLsbD 23) (w.getLsbD 17) (w.getLsbD 16) (w.extractLsb' 12 2) (w.extractLsb' 6 6) (w.extractLsb' 0 6), (w &&& 0xc000#32 == 0#32), false⟩
  | _ => none

/-- The words of class 0x0f, `XLANE` (R38), by their function code. -/
def decodeXlane (h : Hdr) (w x : Word) : Option Raw :=
  match (w.extractLsb' 18 5).toNat with
  | 0 => some ⟨.vote h (w.getLsbD 23) (w.extractLsb' 12 6) (w.extractLsb' 6 2) (w.extractLsb' 0 6), (w &&& 0xf00#32 == 0#32), false⟩
  | 1 => some ⟨.shfl h (w.getLsbD 23) (w.extractLsb' 12 6) (w.extractLsb' 6 6) (w.extractLsb' 0 6), true, false⟩
  | 2 => some ⟨.push h (w.extractLsb' 12 6) (w.extractLsb' 6 6) (w.extractLsb' 0 6), (w &&& 0x800000#32 == 0#32), false⟩
  | 3 => some ⟨.bcast h (w.getLsbD 23) (w.extractLsb' 12 6) (w.extractLsb' 6 6) (w.extractLsb' 0 5), (w &&& 0x20#32 == 0#32), false⟩
  | 4 => some ⟨.scan h (w.getLsbD 23) (w.extractLsb' 12 6) (w.extractLsb' 6 6) (x.extractLsb' 27 5) (x.extractLsb' 18 9) (x.getLsbD 15) (x.getLsbD 14) (x.extractLsb' 8 6), (w &&& 0x3f#32 == 0#32) && (x &&& 0x300ff#32 == 0#32), true⟩
  | 5 => some ⟨.red h (w.getLsbD 23) (w.extractLsb' 12 6) (w.extractLsb' 6 6) (x.extractLsb' 27 5) (x.extractLsb' 18 9) (x.getLsbD 17) (x.getLsbD 16) (x.getLsbD 14) (x.extractLsb' 8 6), (w &&& 0x3f#32 == 0#32) && (x &&& 0x80ff#32 == 0#32), true⟩
  | 6 => some ⟨.elect h (w.extractLsb' 12 2) (w.extractLsb' 6 6) (w.extractLsb' 0 6), (w &&& 0x83c000#32 == 0#32), false⟩
  | 7 => some ⟨.topk h (w.extractLsb' 12 6) (w.extractLsb' 6 6) (w.extractLsb' 0 2) (x.extractLsb' 30 2) (x.getLsbD 29) (x.extractLsb' 23 6) (x.getLsbD 22) (x.extractLsb' 16 6), (w &&& 0x80003c#32 == 0#32) && (x &&& 0xffff#32 == 0#32), true⟩
  | 8 => some ⟨.hist h (w.extractLsb' 12 6) (w.extractLsb' 6 6) (w.extractLsb' 0 6) (x.extractLsb' 27 5) (x.extractLsb' 24 3) (x.extractLsb' 18 6) (x.extractLsb' 16 2), (w &&& 0x800000#32 == 0#32) && (x &&& 0xffff#32 == 0#32), true⟩
  | 9 => some ⟨.rng h (w.extractLsb' 12 6) (w.extractLsb' 6 6) (w.extractLsb' 0 6) (x.extractLsb' 26 6) (x.getLsbD 25) (x.extractLsb' 23 2), (w &&& 0x800000#32 == 0#32) && (x &&& 0x7fffff#32 == 0#32), true⟩
  | 10 => some ⟨.walk h (w.extractLsb' 12 6) (w.extractLsb' 6 6) (x.extractLsb' 27 5) (x.extractLsb' 18 9) (x.extractLsb' 16 2) (x.getLsbD 15) (x.extractLsb' 8 6) (x.extractLsb' 0 6), (w &&& 0x80003f#32 == 0#32) && (x &&& 0x40c0#32 == 0#32), true⟩
  | _ => none

/-- The words of class 0x10, `MASK` (R38), by their function code. -/
def decodeMask (h : Hdr) (w _x : Word) : Option Raw :=
  match (w.extractLsb' 18 5).toNat with
  | 0 => some ⟨.join h (w.extractLsb' 12 6), (w &&& 0x800fff#32 == 0#32), false⟩
  | 1 => some ⟨.leave h (w.extractLsb' 12 6), (w &&& 0x800fff#32 == 0#32), false⟩
  | 2 => some ⟨.wait h (w.extractLsb' 12 6), (w &&& 0x800fff#32 == 0#32), false⟩
  | 3 => some ⟨.trywait h (w.extractLsb' 12 6) (w.extractLsb' 6 6), (w &&& 0x80003f#32 == 0#32), false⟩
  | 4 => some ⟨.mset h (w.extractLsb' 12 6) (w.extractLsb' 6 6), (w &&& 0x80003f#32 == 0#32), false⟩
  | 5 => some ⟨.mmov h (w.extractLsb' 12 6) (w.extractLsb' 6 6), (w &&& 0x80003f#32 == 0#32), false⟩
  | 6 => some ⟨.mand h (w.extractLsb' 12 6) (w.extractLsb' 6 6) (w.extractLsb' 0 6), (w &&& 0x800000#32 == 0#32), false⟩
  | 7 => some ⟨.mor h (w.extractLsb' 12 6) (w.extractLsb' 6 6) (w.extractLsb' 0 6), (w &&& 0x800000#32 == 0#32), false⟩
  | 8 => some ⟨.mxor h (w.extractLsb' 12 6) (w.extractLsb' 6 6) (w.extractLsb' 0 6), (w &&& 0x800000#32 == 0#32), false⟩
  | 9 => some ⟨.mnot h (w.extractLsb' 12 6) (w.extractLsb' 6 6), (w &&& 0x80003f#32 == 0#32), false⟩
  | 10 => some ⟨.mpop h (w.extractLsb' 12 6) (w.extractLsb' 6 6), (w &&& 0x80003f#32 == 0#32), false⟩
  | _ => none

/-- The words of class 0x11, `LD` (R38), by their function code. -/
def decodeLd (h : Hdr) (w _x : Word) : Option Raw :=
  match (w.extractLsb' 18 4).toNat with
  | 0 => some ⟨.ldN8 h (w.extractLsb' 22 2) (w.extractLsb' 12 6) (w.extractLsb' 6 6) (w.extractLsb' 0 6), true, false⟩
  | 1 => some ⟨.ldI8 h (w.extractLsb' 22 2) (w.extractLsb' 12 6) (w.extractLsb' 6 6) (w.extractLsb' 0 6), true, false⟩
  | 2 => some ⟨.ldN16 h (w.extractLsb' 22 2) (w.extractLsb' 12 6) (w.extractLsb' 6 6) (w.extractLsb' 0 6), true, false⟩
  | 3 => some ⟨.ldI16 h (w.extractLsb' 22 2) (w.extractLsb' 12 6) (w.extractLsb' 6 6) (w.extractLsb' 0 6), true, false⟩
  | 4 => some ⟨.ld32 h (w.extractLsb' 22 2) (w.extractLsb' 12 6) (w.extractLsb' 6 6) (w.extractLsb' 0 6), true, false⟩
  | 5 => some ⟨.ld64 h (w.extractLsb' 22 2) (w.extractLsb' 12 6) (w.extractLsb' 6 6) (w.extractLsb' 0 6), true, false⟩
  | 6 => some ⟨.ld128 h (w.extractLsb' 22 2) (w.extractLsb' 12 6) (w.extractLsb' 6 6) (w.extractLsb' 0 6), true, false⟩
  | 8 => some ⟨.ldfe32 h (w.extractLsb' 22 2) (w.extractLsb' 12 6) (w.extractLsb' 6 6) (w.extractLsb' 0 6), true, false⟩
  | 9 => some ⟨.ldfe64 h (w.extractLsb' 22 2) (w.extractLsb' 12 6) (w.extractLsb' 6 6) (w.extractLsb' 0 6), true, false⟩
  | 10 => some ⟨.ldfe128 h (w.extractLsb' 22 2) (w.extractLsb' 12 6) (w.extractLsb' 6 6) (w.extractLsb' 0 6), true, false⟩
  | 12 => some ⟨.ldfeClr32 h (w.extractLsb' 22 2) (w.extractLsb' 12 6) (w.extractLsb' 6 6) (w.extractLsb' 0 6), true, false⟩
  | 13 => some ⟨.ldfeClr64 h (w.extractLsb' 22 2) (w.extractLsb' 12 6) (w.extractLsb' 6 6) (w.extractLsb' 0 6), true, false⟩
  | 14 => some ⟨.ldfeClr128 h (w.extractLsb' 22 2) (w.extractLsb' 12 6) (w.extractLsb' 6 6) (w.extractLsb' 0 6), true, false⟩
  | _ => none

/-- The words of class 0x12, `ST` (R38), by their function code. -/
def decodeSt (h : Hdr) (w _x : Word) : Option Raw :=
  match (w.extractLsb' 18 4).toNat with
  | 0 => some ⟨.st8 h (w.extractLsb' 22 2) (w.extractLsb' 12 6) (w.extractLsb' 6 6) (w.extractLsb' 0 6), true, false⟩
  | 2 => some ⟨.st16 h (w.extractLsb' 22 2) (w.extractLsb' 12 6) (w.extractLsb' 6 6) (w.extractLsb' 0 6), true, false⟩
  | 4 => some ⟨.st32 h (w.extractLsb' 22 2) (w.extractLsb' 12 6) (w.extractLsb' 6 6) (w.extractLsb' 0 6), true, false⟩
  | 5 => some ⟨.st64 h (w.extractLsb' 22 2) (w.extractLsb' 12 6) (w.extractLsb' 6 6) (w.extractLsb' 0 6), true, false⟩
  | 6 => some ⟨.st128 h (w.extractLsb' 22 2) (w.extractLsb' 12 6) (w.extractLsb' 6 6) (w.extractLsb' 0 6), true, false⟩
  | 8 => some ⟨.stfe32 h (w.extractLsb' 22 2) (w.extractLsb' 12 6) (w.extractLsb' 6 6) (w.extractLsb' 0 6), true, false⟩
  | 9 => some ⟨.stfe64 h (w.extractLsb' 22 2) (w.extractLsb' 12 6) (w.extractLsb' 6 6) (w.extractLsb' 0 6), true, false⟩
  | 10 => some ⟨.stfe128 h (w.extractLsb' 22 2) (w.extractLsb' 12 6) (w.extractLsb' 6 6) (w.extractLsb' 0 6), true, false⟩
  | _ => none

/-- The words of class 0x13, `ATOM` (R38), by their function code. -/
def decodeAtom (h : Hdr) (w x : Word) : Option Raw :=
  match (w.extractLsb' 18 5).toNat with
  | 0 => some ⟨.atomAdd h (w.getLsbD 23) (w.extractLsb' 12 6) (w.extractLsb' 6 6) (w.extractLsb' 0 6) (x.extractLsb' 30 2) (x.extractLsb' 24 6) (x.extractLsb' 22 2) (x.getLsbD 21) (x.getLsbD 20) (x.getLsbD 13), (x &&& 0xfdfff#32 == 0#32), true⟩
  | 1 => some ⟨.atomMinI h (w.getLsbD 23) (w.extractLsb' 12 6) (w.extractLsb' 6 6) (w.extractLsb' 0 6) (x.extractLsb' 30 2) (x.extractLsb' 24 6) (x.extractLsb' 22 2) (x.getLsbD 21) (x.getLsbD 20) (x.getLsbD 13), (x &&& 0xfdfff#32 == 0#32), true⟩
  | 2 => some ⟨.atomMinN h (w.getLsbD 23) (w.extractLsb' 12 6) (w.extractLsb' 6 6) (w.extractLsb' 0 6) (x.extractLsb' 30 2) (x.extractLsb' 24 6) (x.extractLsb' 22 2) (x.getLsbD 21) (x.getLsbD 20) (x.getLsbD 13), (x &&& 0xfdfff#32 == 0#32), true⟩
  | 3 => some ⟨.atomMaxI h (w.getLsbD 23) (w.extractLsb' 12 6) (w.extractLsb' 6 6) (w.extractLsb' 0 6) (x.extractLsb' 30 2) (x.extractLsb' 24 6) (x.extractLsb' 22 2) (x.getLsbD 21) (x.getLsbD 20) (x.getLsbD 13), (x &&& 0xfdfff#32 == 0#32), true⟩
  | 4 => some ⟨.atomMaxN h (w.getLsbD 23) (w.extractLsb' 12 6) (w.extractLsb' 6 6) (w.extractLsb' 0 6) (x.extractLsb' 30 2) (x.extractLsb' 24 6) (x.extractLsb' 22 2) (x.getLsbD 21) (x.getLsbD 20) (x.getLsbD 13), (x &&& 0xfdfff#32 == 0#32), true⟩
  | 5 => some ⟨.atomAnd h (w.getLsbD 23) (w.extractLsb' 12 6) (w.extractLsb' 6 6) (w.extractLsb' 0 6) (x.extractLsb' 30 2) (x.extractLsb' 24 6) (x.extractLsb' 22 2) (x.getLsbD 21) (x.getLsbD 20) (x.getLsbD 13), (x &&& 0xfdfff#32 == 0#32), true⟩
  | 6 => some ⟨.atomOr h (w.getLsbD 23) (w.extractLsb' 12 6) (w.extractLsb' 6 6) (w.extractLsb' 0 6) (x.extractLsb' 30 2) (x.extractLsb' 24 6) (x.extractLsb' 22 2) (x.getLsbD 21) (x.getLsbD 20) (x.getLsbD 13), (x &&& 0xfdfff#32 == 0#32), true⟩
  | 7 => some ⟨.atomXor h (w.getLsbD 23) (w.extractLsb' 12 6) (w.extractLsb' 6 6) (w.extractLsb' 0 6) (x.extractLsb' 30 2) (x.extractLsb' 24 6) (x.extractLsb' 22 2) (x.getLsbD 21) (x.getLsbD 20) (x.getLsbD 13), (x &&& 0xfdfff#32 == 0#32), true⟩
  | 8 => some ⟨.atomXchg h (w.getLsbD 23) (w.extractLsb' 12 6) (w.extractLsb' 6 6) (w.extractLsb' 0 6) (x.extractLsb' 30 2) (x.extractLsb' 24 6) (x.extractLsb' 22 2) (x.getLsbD 21) (x.getLsbD 20) (x.getLsbD 13), (x &&& 0xfdfff#32 == 0#32), true⟩
  | 9 => some ⟨.atomCas h (w.getLsbD 23) (w.extractLsb' 12 6) (w.extractLsb' 6 6) (w.extractLsb' 0 6) (x.extractLsb' 30 2) (x.extractLsb' 24 6) (x.extractLsb' 22 2) (x.getLsbD 21) (x.getLsbD 20) (x.extractLsb' 14 6) (x.getLsbD 13) (x.getLsbD 12), (x &&& 0xfff#32 == 0#32), true⟩
  | 10 => some ⟨.atomInc h (w.getLsbD 23) (w.extractLsb' 12 6) (w.extractLsb' 6 6) (w.extractLsb' 0 6) (x.extractLsb' 30 2) (x.extractLsb' 24 6) (x.extractLsb' 22 2) (x.getLsbD 21) (x.getLsbD 20) (x.getLsbD 13), (x &&& 0xfdfff#32 == 0#32), true⟩
  | 11 => some ⟨.atomIncb h (w.getLsbD 23) (w.extractLsb' 12 6) (w.extractLsb' 6 6) (w.extractLsb' 0 6) (x.extractLsb' 30 2) (x.extractLsb' 24 6) (x.extractLsb' 22 2) (x.getLsbD 21) (x.getLsbD 20) (x.getLsbD 13), (x &&& 0xfdfff#32 == 0#32), true⟩
  | 16 => some ⟨.aadd h (w.extractLsb' 6 6) (w.extractLsb' 0 6) (x.extractLsb' 30 2) (x.extractLsb' 24 6) (x.extractLsb' 22 2) (x.getLsbD 21) (x.getLsbD 13), (w &&& 0x83f000#32 == 0#32) && (x &&& 0x1fdfff#32 == 0#32), true⟩
  | 30 => some ⟨.ordend h, (w &&& 0x83ffff#32 == 0#32), false⟩
  | _ => none

/-- The words of class 0x14, `MEMCTL` (R38), by their function code. -/
def decodeMemctl (h : Hdr) (w x : Word) : Option Raw :=
  match (w.extractLsb' 18 5).toNat with
  | 0 => some ⟨.lock h (w.extractLsb' 12 6) (w.extractLsb' 6 6) (w.extractLsb' 0 6), (w &&& 0x800000#32 == 0#32), false⟩
  | 1 => some ⟨.unlock h (w.extractLsb' 6 6) (w.extractLsb' 0 6), (w &&& 0x83f000#32 == 0#32), false⟩
  | 2 => some ⟨.pref h (w.getLsbD 23) (w.extractLsb' 12 2) (w.extractLsb' 6 6) (w.extractLsb' 0 6), (w &&& 0x3c000#32 == 0#32), false⟩
  | 3 => match (w.extractLsb' 12 2).toNat with
    | 0 => some ⟨.fenceSys h, (w &&& 0x83cfff#32 == 0#32), false⟩
    | 1 => some ⟨.fenceWin h, (w &&& 0x83cfff#32 == 0#32), false⟩
    | _ => none
  | 4 => some ⟨.waitc h (x.extractLsb' 18 6) (x.extractLsb' 12 6) (x.extractLsb' 6 6) (x.extractLsb' 0 6), (w &&& 0x83ffff#32 == 0#32) && (x &&& 0xff000000#32 == 0#32), true⟩
  | 5 => some ⟨.acq h (w.extractLsb' 12 6), (w &&& 0x800fff#32 == 0#32), false⟩
  | 6 => some ⟨.rel h (w.extractLsb' 12 6), (w &&& 0x800fff#32 == 0#32), false⟩
  | _ => none

/-- The words of class 0x15, `MMA` (R38), by their function code. -/
def decodeMma (h : Hdr) (w x : Word) : Option Raw :=
  match (w.extractLsb' 18 5).toNat with
  | 0 => some ⟨.mmaE2m1 h (w.getLsbD 23) (w.extractLsb' 12 3) (w.extractLsb' 6 6) (w.extractLsb' 0 6) (x.extractLsb' 26 6) (x.getLsbD 23) (x.getLsbD 22), (w &&& 0x38000#32 == 0#32) && (x &&& 0x33fffff#32 == 0#32), true⟩
  | 1 => some ⟨.mmaE4m3 h (w.getLsbD 23) (w.extractLsb' 12 3) (w.extractLsb' 6 6) (w.extractLsb' 0 6) (x.extractLsb' 26 6) (x.extractLsb' 24 2) (x.getLsbD 23) (x.getLsbD 22), (w &&& 0x38000#32 == 0#32) && (x &&& 0x3fffff#32 == 0#32), true⟩
  | 2 => some ⟨.mmaE5m2 h (w.getLsbD 23) (w.extractLsb' 12 3) (w.extractLsb' 6 6) (w.extractLsb' 0 6) (x.extractLsb' 26 6) (x.extractLsb' 24 2) (x.getLsbD 23) (x.getLsbD 22), (w &&& 0x38000#32 == 0#32) && (x &&& 0x3fffff#32 == 0#32), true⟩
  | 3 => some ⟨.mmaE3m2 h (w.getLsbD 23) (w.extractLsb' 12 3) (w.extractLsb' 6 6) (w.extractLsb' 0 6) (x.extractLsb' 26 6) (x.extractLsb' 24 2) (x.getLsbD 23) (x.getLsbD 22), (w &&& 0x38000#32 == 0#32) && (x &&& 0x3fffff#32 == 0#32), true⟩
  | 4 => some ⟨.mmaE2m3 h (w.getLsbD 23) (w.extractLsb' 12 3) (w.extractLsb' 6 6) (w.extractLsb' 0 6) (x.extractLsb' 26 6) (x.extractLsb' 24 2) (x.getLsbD 23) (x.getLsbD 22), (w &&& 0x38000#32 == 0#32) && (x &&& 0x3fffff#32 == 0#32), true⟩
  | 5 => some ⟨.mmaI8 h (w.getLsbD 23) (w.extractLsb' 12 3) (w.extractLsb' 6 6) (w.extractLsb' 0 6) (x.getLsbD 23) (x.getLsbD 22), (w &&& 0x38000#32 == 0#32) && (x &&& 0xff3fffff#32 == 0#32), true⟩
  | 6 => some ⟨.mmaBf16 h (w.getLsbD 23) (w.extractLsb' 12 3) (w.extractLsb' 6 6) (w.extractLsb' 0 6) (x.getLsbD 23) (x.getLsbD 22), (w &&& 0x38000#32 == 0#32) && (x &&& 0xff3fffff#32 == 0#32), true⟩
  | 7 => some ⟨.mmaF16 h (w.getLsbD 23) (w.extractLsb' 12 3) (w.extractLsb' 6 6) (w.extractLsb' 0 6) (x.getLsbD 23) (x.getLsbD 22), (w &&& 0x38000#32 == 0#32) && (x &&& 0xff3fffff#32 == 0#32), true⟩
  | _ => none

/-- The words of class 0x16, `TILE` (R38), by their function code. -/
def decodeTile (h : Hdr) (w x : Word) : Option Raw :=
  match (w.extractLsb' 18 5).toNat with
  | 0 => some ⟨.acz h (w.extractLsb' 6 3), (w &&& 0x83fe3f#32 == 0#32), false⟩
  | 1 => match (w.extractLsb' 23 1).toNat with
    | 0 => some ⟨.acanch h (w.extractLsb' 12 3) (w.extractLsb' 6 3) (w.extractLsb' 0 6), (w &&& 0x38e00#32 == 0#32), false⟩
    | 1 => some ⟨.acanchScalar h (w.extractLsb' 6 3) (w.extractLsb' 0 6), (w &&& 0x3fe00#32 == 0#32), false⟩
    | _ => none
  | 2 => some ⟨.acvt h (w.extractLsb' 12 6) (w.extractLsb' 6 3) (w.extractLsb' 0 6) (x.extractLsb' 28 4) (x.extractLsb' 22 6) (x.extractLsb' 18 4) (x.getLsbD 17) (x.getLsbD 16), (w &&& 0x800e00#32 == 0#32) && (x &&& 0xffff#32 == 0#32), true⟩
  | 3 => some ⟨.acld h (w.extractLsb' 6 3) (w.extractLsb' 0 6), (w &&& 0x83fe00#32 == 0#32), false⟩
  | 4 => some ⟨.acst h (w.extractLsb' 6 3) (w.extractLsb' 0 6), (w &&& 0x83fe00#32 == 0#32), false⟩
  | 5 => some ⟨.gang h (w.extractLsb' 12 3) (w.extractLsb' 6 6) (w.extractLsb' 0 6), (w &&& 0x838000#32 == 0#32), false⟩
  | 6 => some ⟨.tgset h (w.extractLsb' 12 6) (w.extractLsb' 6 6) (w.extractLsb' 0 6), (w &&& 0x800000#32 == 0#32), false⟩
  | 7 => some ⟨.tgget h (w.extractLsb' 12 6) (w.extractLsb' 6 6) (w.extractLsb' 0 3), (w &&& 0x800038#32 == 0#32), false⟩
  | _ => none

/-- The words of class 0x17, `WAVE` (R38), by their function code. -/
def decodeWave (h : Hdr) (w x : Word) : Option Raw :=
  match (w.extractLsb' 18 5).toNat with
  | 0 => some ⟨.wvf h (w.getLsbD 23) (w.extractLsb' 12 6) (w.extractLsb' 6 6) (w.getLsbD 5) (w.getLsbD 4) (w.getLsbD 3) (w.extractLsb' 0 3), true, false⟩
  | 1 => some ⟨.wvi h (w.getLsbD 23) (w.extractLsb' 12 6) (w.extractLsb' 6 6), (w &&& 0x3f#32 == 0#32), false⟩
  | 2 => some ⟨.stw h (w.getLsbD 23) (w.extractLsb' 6 6) (w.extractLsb' 0 6) (x.extractLsb' 30 2) (x.extractLsb' 27 3) (x.getLsbD 26) (x.getLsbD 25) (x.getLsbD 24) (x.extractLsb' 21 3) (x.extractLsb' 17 4), (w &&& 0x3f000#32 == 0#32) && (x &&& 0x1ffff#32 == 0#32), true⟩
  | 3 => some ⟨.ldw h (w.extractLsb' 12 6) (w.extractLsb' 0 6) (x.extractLsb' 30 2) (x.extractLsb' 17 4), (w &&& 0x800fc0#32 == 0#32) && (x &&& 0x3fe1ffff#32 == 0#32), true⟩
  | 4 => some ⟨.wthr h (w.extractLsb' 12 6) (w.extractLsb' 6 6) (w.extractLsb' 0 3), (w &&& 0x800038#32 == 0#32), false⟩
  | _ => none

/-- The words of class 0x18, `RING` (R38), by their function code. -/
def decodeRing (h : Hdr) (w x : Word) : Option Raw :=
  match (w.extractLsb' 18 5).toNat with
  | 0 => some ⟨.board h (w.extractLsb' 12 6) (w.extractLsb' 6 6) (w.extractLsb' 0 6) (x.extractLsb' 26 6) (x.getLsbD 25), (w &&& 0x800000#32 == 0#32) && (x &&& 0x1ffffff#32 == 0#32), true⟩
  | 1 => some ⟨.bwait h (w.extractLsb' 12 6) (w.extractLsb' 6 6), (w &&& 0x80003f#32 == 0#32), false⟩
  | 2 => some ⟨.btry h (w.extractLsb' 12 6) (w.extractLsb' 6 6), (w &&& 0x80003f#32 == 0#32), false⟩
  | 3 => some ⟨.bfree h (w.extractLsb' 6 6), (w &&& 0x83f03f#32 == 0#32), false⟩
  | 4 => some ⟨.lapr h (w.extractLsb' 12 6) (w.extractLsb' 0 3), (w &&& 0x800ff8#32 == 0#32), false⟩
  | _ => none

/-- The words of class 0x19, `CHAN` (R38), by their function code. -/
def decodeChan (h : Hdr) (w _x : Word) : Option Raw :=
  match (w.extractLsb' 18 5).toNat with
  | 0 => some ⟨.job h (w.extractLsb' 12 6) (w.extractLsb' 6 6) (w.extractLsb' 0 6), (w &&& 0x800000#32 == 0#32), false⟩
  | 1 => some ⟨.send h (w.extractLsb' 6 6) (w.extractLsb' 0 6), (w &&& 0x83f000#32 == 0#32), false⟩
  | 2 => some ⟨.recv h (w.extractLsb' 12 6) (w.extractLsb' 6 6), (w &&& 0x80003f#32 == 0#32), false⟩
  | 3 => some ⟨.jstat h (w.extractLsb' 12 6) (w.extractLsb' 6 6) (w.extractLsb' 0 3), (w &&& 0x800038#32 == 0#32), false⟩
  | _ => none

/-- The words of class 0x1a, `SEQ` (R38), by their function code. -/
def decodeSeq (h : Hdr) (w _x : Word) : Option Raw :=
  match (w.extractLsb' 18 5).toNat with
  | 0 => some ⟨.seqld h (w.extractLsb' 12 6) (w.extractLsb' 6 6) (w.extractLsb' 0 6), (w &&& 0x800000#32 == 0#32), false⟩
  | 1 => some ⟨.seqst h (w.extractLsb' 12 6) (w.extractLsb' 6 6) (w.extractLsb' 0 6), (w &&& 0x800000#32 == 0#32), false⟩
  | 2 => some ⟨.admitSeq h (w.extractLsb' 12 6) (w.extractLsb' 6 6), (w &&& 0x80003f#32 == 0#32), false⟩
  | 3 => match (w.extractLsb' 12 1).toNat with
    | 0 => some ⟨.retire h (w.extractLsb' 6 6) (w.extractLsb' 0 6), (w &&& 0x83e000#32 == 0#32), false⟩
    | 1 => some ⟨.retireMig h (w.extractLsb' 6 6) (w.extractLsb' 0 6), (w &&& 0x83e000#32 == 0#32), false⟩
    | _ => none
  | 4 => some ⟨.tokput h (w.extractLsb' 12 6) (w.extractLsb' 6 6) (w.extractLsb' 0 6), (w &&& 0x800000#32 == 0#32), false⟩
  | 5 => some ⟨.accept h (w.extractLsb' 12 6) (w.extractLsb' 6 6) (w.extractLsb' 0 6), (w &&& 0x800000#32 == 0#32), false⟩
  | 6 => some ⟨.draft h (w.extractLsb' 12 6) (w.extractLsb' 6 6) (w.extractLsb' 0 6), (w &&& 0x800000#32 == 0#32), false⟩
  | 7 => some ⟨.stopck h (w.extractLsb' 12 6) (w.extractLsb' 6 6) (w.extractLsb' 0 6), (w &&& 0x800000#32 == 0#32), false⟩
  | 8 => some ⟨.ckpt h (w.extractLsb' 6 6) (w.extractLsb' 0 6), (w &&& 0x83f000#32 == 0#32), false⟩
  | _ => none

/-- The words of class 0x1b, `PAGE` (R38), by their function code. -/
def decodePage (h : Hdr) (w _x : Word) : Option Raw :=
  match (w.extractLsb' 18 5).toNat with
  | 0 => some ⟨.pgref h (w.extractLsb' 12 6) (w.extractLsb' 6 6) (w.extractLsb' 0 6), (w &&& 0x800000#32 == 0#32), false⟩
  | 1 => some ⟨.pgcow h (w.extractLsb' 12 6) (w.extractLsb' 6 6) (w.extractLsb' 0 6), (w &&& 0x800000#32 == 0#32), false⟩
  | 2 => some ⟨.pgmove h (w.extractLsb' 12 6) (w.extractLsb' 6 6) (w.extractLsb' 0 6), (w &&& 0x800000#32 == 0#32), false⟩
  | 3 => some ⟨.pgpin h (w.extractLsb' 12 6) (w.extractLsb' 6 6) (w.extractLsb' 0 6), (w &&& 0x800000#32 == 0#32), false⟩
  | 4 => some ⟨.pghand h (w.extractLsb' 12 6) (w.extractLsb' 6 6) (w.extractLsb' 0 6), (w &&& 0x800000#32 == 0#32), false⟩
  | 5 => some ⟨.catld h (w.extractLsb' 12 6) (w.extractLsb' 6 6) (w.extractLsb' 0 6), (w &&& 0x800000#32 == 0#32), false⟩
  | 6 => some ⟨.catst h (w.extractLsb' 12 6) (w.extractLsb' 6 6) (w.extractLsb' 0 6), (w &&& 0x800000#32 == 0#32), false⟩
  | _ => none

/-- The words of class 0x1c, `BAR` (R38), by their function code. -/
def decodeBar (h : Hdr) (w _x : Word) : Option Raw :=
  match (w.extractLsb' 18 5).toNat with
  | 0 => some ⟨.bar h (w.extractLsb' 12 6) (w.extractLsb' 6 6) (w.getLsbD 2) (w.extractLsb' 0 2), (w &&& 0x800038#32 == 0#32), false⟩
  | 1 => match (w.extractLsb' 3 1).toNat with
    | 0 => some ⟨.barr h (w.extractLsb' 12 6) (w.extractLsb' 6 6) (w.getLsbD 2) (w.extractLsb' 0 2), (w &&& 0x800030#32 == 0#32), false⟩
    | 1 => if w.extractLsb' 0 3 = 3#3 then some ⟨.barrRem h (w.extractLsb' 12 6) (w.extractLsb' 6 6), (w &&& 0x800030#32 == 0#32), false⟩ else none
    | _ => none
  | 2 => some ⟨.barw h (w.extractLsb' 12 6) (w.extractLsb' 6 6) (w.getLsbD 2) (w.extractLsb' 0 2), (w &&& 0x800038#32 == 0#32), false⟩
  | 3 => some ⟨.bart h (w.extractLsb' 12 6) (w.extractLsb' 6 6) (w.extractLsb' 3 3) (w.getLsbD 2) (w.extractLsb' 0 2), (w &&& 0x800000#32 == 0#32), false⟩
  | 4 => some ⟨.gbar h (w.extractLsb' 12 6), (w &&& 0x800fff#32 == 0#32), false⟩
  | 5 => match (w.extractLsb' 3 2).toNat with
    | 0 => some ⟨.phaseRd h (w.extractLsb' 12 6) (w.extractLsb' 6 6) (w.getLsbD 2) (w.extractLsb' 0 2), (w &&& 0x800020#32 == 0#32), false⟩
    | 1 => some ⟨.phaseArr h (w.extractLsb' 12 6) (w.extractLsb' 6 6) (w.getLsbD 2) (w.extractLsb' 0 2), (w &&& 0x800020#32 == 0#32), false⟩
    | 2 => some ⟨.phaseInit h (w.extractLsb' 12 6) (w.extractLsb' 6 6) (w.getLsbD 2) (w.extractLsb' 0 2), (w &&& 0x800020#32 == 0#32), false⟩
    | _ => none
  | _ => none

/-- The function of a word whose class R38 lists: its class reader. -/
def decodeClass (h : Hdr) (w x : Word) : Option (Option Raw) :=
  match (w.extractLsb' 26 5).toNat with
  | 0 => some (decodeSys h w x)
  | 1 => some (decodeCtl h w x)
  | 2 => some (decodeBra h w x)
  | 3 => some (decodeCall h w x)
  | 4 => some (decodeLoop h w x)
  | 6 => some (decodeIalu h w x)
  | 7 => some (decodeIalui h w x)
  | 8 => some (decodeSalu h w x)
  | 9 => some (decodeSalui h w x)
  | 10 => some (decodeFalu h w x)
  | 11 => some (decodeFma h w x)
  | 12 => some (decodeSfu h w x)
  | 13 => some (decodeCvt h w x)
  | 14 => some (decodeCmp h w x)
  | 15 => some (decodeXlane h w x)
  | 16 => some (decodeMask h w x)
  | 17 => some (decodeLd h w x)
  | 18 => some (decodeSt h w x)
  | 19 => some (decodeAtom h w x)
  | 20 => some (decodeMemctl h w x)
  | 21 => some (decodeMma h w x)
  | 22 => some (decodeTile h w x)
  | 23 => some (decodeWave h w x)
  | 24 => some (decodeRing h w x)
  | 25 => some (decodeChan h w x)
  | 26 => some (decodeSeq h w x)
  | 27 => some (decodePage h w x)
  | 28 => some (decodeBar h w x)
  | _ => none

/-- The header of a word (R25), with the prefix that governs it. -/
def hdrOf (limm : Option (BitVec 26)) (w : Word) : Hdr :=
  ⟨w.getLsbD 31, w.extractLsb' 24 2, limm⟩

/-- The instruction that starts at a slot: the instruction if its class and function are listed, the words it takes,
its chain bit and guard, and the detail codes of R41 of every rule it breaks. Of a two-word function in slot 2, whose extension word no
packet holds, `alt` is what another extension would make of it: only what both have comes from the word itself (R37). -/
structure Got where
  instr : Option Instr
  len : Nat
  chain : Bool
  guard : BitVec 2
  bad : List Nat
  alt : Option Instr
  deriving DecidableEq, Repr

/-- A LIMM prefix is a word of class 0x05 (R35). -/
def isLimm (w : Word) : Bool := w.extractLsb' 26 5 == 5#5

/-- What the first word of a two-word function breaks by itself, beside its reserved bits: the b field of `atom.inc` (R171). -/
def Instr.firstViol : Instr → List Nat
  | .atomInc _ _ _ _ b _ _ _ _ _ _ => viol (b != 0#6) dRSVBIT
  | _ => []

/-- The instruction whose own word is `w` at slot `slot`, with `x` the next word and `limm` the prefix before it. A two-word
function in slot 2 has no extension word, and only its first word is held to its rules (R37, R41). DESIGN CHOICE (log entry 49): the
m bit of the IALU function `wid`, which has no second source for R28 to make scalar, is not reserved. -/
def decodeBody (limm : Option (BitVec 26)) (w x : Word) (slot : Nat) : Got :=
  let h := hdrOf limm w
  match decodeClass h w x with
  | none => ⟨none, 1, h.c, h.g, [1], none⟩
  | some none => ⟨none, 1, h.c, h.g, [2], none⟩
  | some (some r) =>
    let cut := r.two && slot == 2
    let bad := (if r.clean then [] else [3]) ++ (if cut then 7 :: r.instr.firstViol else r.instr.violations)
      ++ (if r.two && limm.isSome then [8] else [])
    let alt := match cut, decodeClass h w 0xffffffff#32 with
      | true, some (some y) => some y.instr
      | _, _ => none
    ⟨some r.instr, if r.two && !cut then 2 else 1, h.c, h.g, bad, alt⟩

/-- The instruction that starts at slot `slot` (0 to 2) of a packet (R29, R34 to R37). DESIGN CHOICE (log entry 49): a LIMM that a
LIMM follows is one illegal instruction of two words, so that the slot behind them is a position. -/
def decodeAt (ws : List Word) (slot : Nat) : Got :=
  let w := ws.getD slot 0
  if isLimm w then
    let top := if w.getLsbD 31 then [8] else []
    if slot == 2 then ⟨none, 1, false, 0#2, [7] ++ top, none⟩
    else
      let w1 := ws.getD (slot + 1) 0
      if isLimm w1 then ⟨none, 2, false, 0#2, 8 :: if slot == 1 then [7] else [], none⟩
      else
        let b := decodeBody (some (w.extractLsb' 0 26)) w1 (ws.getD (slot + 2) 0) (slot + 1)
        { b with len := b.len + 1, bad := top ++ b.bad }
  else decodeBody none w (ws.getD (slot + 1) 0) slot

/-- The slots of a packet at which an instruction starts, with whether it is a chained successor (R22, R29): the packet
is read from slot 0 on. -/
def starts (ws : List Word) : Nat → Nat → Bool → List (Nat × Bool)
  | 0, _, _ => []
  | k + 1, slot, succ =>
    if slot ≥ 3 then []
    else
      let g := decodeAt ws slot
      (slot, succ) :: starts ws k (slot + g.len) g.chain

/-- An issuable position holds the first word of an instruction and is not a chained successor (R22). -/
def issuable (ws : List Word) (slot : Nat) : Bool :=
  (starts ws 3 0 false).contains (slot, false)

/-- The instructions that issue together from a slot: the one that starts there and those chained to it (R29). -/
def chainFrom (ws : List Word) : Nat → Nat → List Got
  | 0, _ => []
  | k + 1, slot =>
    if slot ≥ 3 then []
    else
      let g := decodeAt ws slot
      if g.chain then g :: chainFrom ws k (slot + g.len) else [g]

/-- The chain that starts at a slot. -/
def chainAt (ws : List Word) (slot : Nat) : List Got := chainFrom ws 3 slot

/-- The words that a chain occupies. -/
def chainLen (gs : List Got) : Nat := (gs.map Got.len).foldl (· + ·) 0

/-- The chain's last instruction names a successor that the packet does not hold (R31, CHAINEND). -/
def chainEnds (gs : List Got) : Bool :=
  match gs.getLast? with
  | none => true
  | some g => !g.chain

/-- The words of a LIMM prefix (R35), where the header holds one. -/
def prefixWords (h : Hdr) : List Word :=
  match h.limm with
  | none => []
  | some u => [0x05#6 ++ u]

/-- The words of an instruction, in slot order; a step of another agent has none. -/
def encode : Instr → List Word
  | .csrr h d a b => prefixWords h ++ [(BitVec.ofBool h.c) ++ (0x0#5 ++ (h.g ++ (0x1#6 ++ (d ++ (a ++ (b))))))]
  | .csrw h d a b => prefixWords h ++ [(BitVec.ofBool h.c) ++ (0x0#5 ++ (h.g ++ (0x2#6 ++ (d ++ (a ++ (b))))))]
  | .tlbinvPage h a => prefixWords h ++ [(BitVec.ofBool h.c) ++ (0x0#5 ++ (h.g ++ (0xc0#12 ++ (a ++ (0x0#6)))))]
  | .tlbinvRange h a b => prefixWords h ++ [(BitVec.ofBool h.c) ++ (0x0#5 ++ (h.g ++ (0xc1#12 ++ (a ++ (b)))))]
  | .tlbinvAll h => prefixWords h ++ [(BitVec.ofBool h.c) ++ (0x0#5 ++ (h.g ++ (0xc2000#24)))]
  | .perf h d b => prefixWords h ++ [(BitVec.ofBool h.c) ++ (0x0#5 ++ (h.g ++ (0x4#6 ++ (d ++ (0x0#6 ++ (b))))))]
  | .time h d s => prefixWords h ++ [(BitVec.ofBool h.c) ++ (0x0#5 ++ (h.g ++ (0x5#6 ++ (d ++ (0x0#11 ++ ((BitVec.ofBool s)))))))]
  | .nop h => prefixWords h ++ [(BitVec.ofBool h.c) ++ (0x1#5 ++ (h.g ++ (0x0#24)))]
  | .exit h => prefixWords h ++ [(BitVec.ofBool h.c) ++ (0x1#5 ++ (h.g ++ (0x40000#24)))]
  | .yield h => prefixWords h ++ [(BitVec.ofBool h.c) ++ (0x1#5 ++ (h.g ++ (0x80000#24)))]
  | .sleep h n => prefixWords h ++ [(BitVec.ofBool h.c) ++ (0x1#5 ++ (h.g ++ (0xc0#12 ++ (n))))]
  | .region h => prefixWords h ++ [(BitVec.ofBool h.c) ++ (0x1#5 ++ (h.g ++ (0x100000#24)))]
  | .trap h n => prefixWords h ++ [(BitVec.ofBool h.c) ++ (0x1#5 ++ (h.g ++ (0x140#12 ++ (n))))]
  | .eret h => prefixWords h ++ [(BitVec.ofBool h.c) ++ (0x1#5 ++ (h.g ++ (0x180000#24)))]
  | .bra h off => prefixWords h ++ [(BitVec.ofBool h.c) ++ (0x2#5 ++ (h.g ++ (0x0#6 ++ (off))))]
  | .brx h a => prefixWords h ++ [(BitVec.ofBool h.c) ++ (0x2#5 ++ (h.g ++ (0x40#12 ++ (a ++ (0x0#6)))))]
  | .call h off => prefixWords h ++ [(BitVec.ofBool h.c) ++ (0x3#5 ++ (h.g ++ (0x0#6 ++ (off))))]
  | .callRegister h a => prefixWords h ++ [(BitVec.ofBool h.c) ++ (0x3#5 ++ (h.g ++ (0x800#12 ++ (a ++ (0x0#6)))))]
  | .ret h a => prefixWords h ++ [(BitVec.ofBool h.c) ++ (0x3#5 ++ (h.g ++ (0x40#12 ++ (a ++ (0x0#6)))))]
  | .loop h l n k => prefixWords h ++ [(BitVec.ofBool h.c) ++ (0x4#5 ++ (h.g ++ (0x20#6 ++ (l ++ (n ++ (k))))))]
  | .loopRegister h l n s => prefixWords h ++ [(BitVec.ofBool h.c) ++ (0x4#5 ++ (h.g ++ (0x0#6 ++ (l ++ (n ++ (0x0#2 ++ (s)))))))]
  | .lbrk h l => prefixWords h ++ [(BitVec.ofBool h.c) ++ (0x4#5 ++ (h.g ++ (0x1#6 ++ (l ++ (0x0#16)))))]
  | .ialuAdd h m d a b => prefixWords h ++ [(BitVec.ofBool h.c) ++ (0x6#5 ++ (h.g ++ ((BitVec.ofBool m) ++ (0x0#5 ++ (d ++ (a ++ (b)))))))]
  | .ialuSub h m d a b => prefixWords h ++ [(BitVec.ofBool h.c) ++ (0x6#5 ++ (h.g ++ ((BitVec.ofBool m) ++ (0x1#5 ++ (d ++ (a ++ (b)))))))]
  | .ialuMul h m d a b => prefixWords h ++ [(BitVec.ofBool h.c) ++ (0x6#5 ++ (h.g ++ ((BitVec.ofBool m) ++ (0x2#5 ++ (d ++ (a ++ (b)))))))]
  | .ialuMulhiN32 h m d a b => prefixWords h ++ [(BitVec.ofBool h.c) ++ (0x6#5 ++ (h.g ++ ((BitVec.ofBool m) ++ (0x3#5 ++ (d ++ (a ++ (b)))))))]
  | .ialuMulhiI32 h m d a b => prefixWords h ++ [(BitVec.ofBool h.c) ++ (0x6#5 ++ (h.g ++ ((BitVec.ofBool m) ++ (0x4#5 ++ (d ++ (a ++ (b)))))))]
  | .ialuMad h m d a b c sc => prefixWords h ++ [(BitVec.ofBool h.c) ++ (0x6#5 ++ (h.g ++ ((BitVec.ofBool m) ++ (0x5#5 ++ (d ++ (a ++ (b))))))), c ++ ((BitVec.ofBool sc) ++ (0x0#25))]
  | .ialuDivN32 h m d a b => prefixWords h ++ [(BitVec.ofBool h.c) ++ (0x6#5 ++ (h.g ++ ((BitVec.ofBool m) ++ (0x6#5 ++ (d ++ (a ++ (b)))))))]
  | .ialuDivI32 h m d a b => prefixWords h ++ [(BitVec.ofBool h.c) ++ (0x6#5 ++ (h.g ++ ((BitVec.ofBool m) ++ (0x7#5 ++ (d ++ (a ++ (b)))))))]
  | .ialuRemN32 h m d a b => prefixWords h ++ [(BitVec.ofBool h.c) ++ (0x6#5 ++ (h.g ++ ((BitVec.ofBool m) ++ (0x8#5 ++ (d ++ (a ++ (b)))))))]
  | .ialuRemI32 h m d a b => prefixWords h ++ [(BitVec.ofBool h.c) ++ (0x6#5 ++ (h.g ++ ((BitVec.ofBool m) ++ (0x9#5 ++ (d ++ (a ++ (b)))))))]
  | .ialuMinN32 h m d a b => prefixWords h ++ [(BitVec.ofBool h.c) ++ (0x6#5 ++ (h.g ++ ((BitVec.ofBool m) ++ (0xa#5 ++ (d ++ (a ++ (b)))))))]
  | .ialuMinI32 h m d a b => prefixWords h ++ [(BitVec.ofBool h.c) ++ (0x6#5 ++ (h.g ++ ((BitVec.ofBool m) ++ (0xb#5 ++ (d ++ (a ++ (b)))))))]
  | .ialuMaxN32 h m d a b => prefixWords h ++ [(BitVec.ofBool h.c) ++ (0x6#5 ++ (h.g ++ ((BitVec.ofBool m) ++ (0xc#5 ++ (d ++ (a ++ (b)))))))]
  | .ialuMaxI32 h m d a b => prefixWords h ++ [(BitVec.ofBool h.c) ++ (0x6#5 ++ (h.g ++ ((BitVec.ofBool m) ++ (0xd#5 ++ (d ++ (a ++ (b)))))))]
  | .ialuAnd h m d a b => prefixWords h ++ [(BitVec.ofBool h.c) ++ (0x6#5 ++ (h.g ++ ((BitVec.ofBool m) ++ (0xe#5 ++ (d ++ (a ++ (b)))))))]
  | .ialuOr h m d a b => prefixWords h ++ [(BitVec.ofBool h.c) ++ (0x6#5 ++ (h.g ++ ((BitVec.ofBool m) ++ (0xf#5 ++ (d ++ (a ++ (b)))))))]
  | .ialuXor h m d a b => prefixWords h ++ [(BitVec.ofBool h.c) ++ (0x6#5 ++ (h.g ++ ((BitVec.ofBool m) ++ (0x10#5 ++ (d ++ (a ++ (b)))))))]
  | .ialuShl h m d a b => prefixWords h ++ [(BitVec.ofBool h.c) ++ (0x6#5 ++ (h.g ++ ((BitVec.ofBool m) ++ (0x11#5 ++ (d ++ (a ++ (b)))))))]
  | .ialuShr h m d a b => prefixWords h ++ [(BitVec.ofBool h.c) ++ (0x6#5 ++ (h.g ++ ((BitVec.ofBool m) ++ (0x12#5 ++ (d ++ (a ++ (b)))))))]
  | .ialuSra h m d a b => prefixWords h ++ [(BitVec.ofBool h.c) ++ (0x6#5 ++ (h.g ++ ((BitVec.ofBool m) ++ (0x13#5 ++ (d ++ (a ++ (b)))))))]
  | .ialuRot h m d a b => prefixWords h ++ [(BitVec.ofBool h.c) ++ (0x6#5 ++ (h.g ++ ((BitVec.ofBool m) ++ (0x14#5 ++ (d ++ (a ++ (b)))))))]
  | .ialuAbs h m d a => prefixWords h ++ [(BitVec.ofBool h.c) ++ (0x6#5 ++ (h.g ++ ((BitVec.ofBool m) ++ (0x15#5 ++ (d ++ (a ++ (0x0#6)))))))]
  | .ialuNeg h m d a => prefixWords h ++ [(BitVec.ofBool h.c) ++ (0x6#5 ++ (h.g ++ ((BitVec.ofBool m) ++ (0x15#5 ++ (d ++ (a ++ (0x1#6)))))))]
  | .ialuNot h m d a => prefixWords h ++ [(BitVec.ofBool h.c) ++ (0x6#5 ++ (h.g ++ ((BitVec.ofBool m) ++ (0x15#5 ++ (d ++ (a ++ (0x2#6)))))))]
  | .ialuClz h m d a => prefixWords h ++ [(BitVec.ofBool h.c) ++ (0x6#5 ++ (h.g ++ ((BitVec.ofBool m) ++ (0x15#5 ++ (d ++ (a ++ (0x3#6)))))))]
  | .ialuPopc h m d a => prefixWords h ++ [(BitVec.ofBool h.c) ++ (0x6#5 ++ (h.g ++ ((BitVec.ofBool m) ++ (0x15#5 ++ (d ++ (a ++ (0x4#6)))))))]
  | .ialuBrev h m d a => prefixWords h ++ [(BitVec.ofBool h.c) ++ (0x6#5 ++ (h.g ++ ((BitVec.ofBool m) ++ (0x15#5 ++ (d ++ (a ++ (0x5#6)))))))]
  | .ialuMov h m d a => prefixWords h ++ [(BitVec.ofBool h.c) ++ (0x6#5 ++ (h.g ++ ((BitVec.ofBool m) ++ (0x15#5 ++ (d ++ (a ++ (0x6#6)))))))]
  | .ialuBfxN32 h m d a pos len => prefixWords h ++ [(BitVec.ofBool h.c) ++ (0x6#5 ++ (h.g ++ ((BitVec.ofBool m) ++ (0x16#5 ++ (d ++ (a ++ (0x0#6))))))), pos ++ (len ++ (0x0#21))]
  | .ialuBfxI32 h m d a pos len => prefixWords h ++ [(BitVec.ofBool h.c) ++ (0x6#5 ++ (h.g ++ ((BitVec.ofBool m) ++ (0x17#5 ++ (d ++ (a ++ (0x0#6))))))), pos ++ (len ++ (0x0#21))]
  | .ialuBfi h m d a b pos len => prefixWords h ++ [(BitVec.ofBool h.c) ++ (0x6#5 ++ (h.g ++ ((BitVec.ofBool m) ++ (0x18#5 ++ (d ++ (a ++ (b))))))), pos ++ (len ++ (0x0#21))]
  | .ialuSel h m d a b p => prefixWords h ++ [(BitVec.ofBool h.c) ++ (0x6#5 ++ (h.g ++ ((BitVec.ofBool m) ++ (0x19#5 ++ (d ++ (a ++ (b))))))), p ++ (0x0#30)]
  | .ialuLea h m d a b sh zx => prefixWords h ++ [(BitVec.ofBool h.c) ++ (0x6#5 ++ (h.g ++ ((BitVec.ofBool m) ++ (0x1a#5 ++ (d ++ (a ++ (b))))))), sh ++ ((BitVec.ofBool zx) ++ (0x0#28))]
  | .ialuWid h m d sel pr => prefixWords h ++ [(BitVec.ofBool h.c) ++ (0x6#5 ++ (h.g ++ ((BitVec.ofBool m) ++ (0x1b#5 ++ (d ++ (0x0#12)))))), sel ++ ((BitVec.ofBool pr) ++ (0x0#28))]
  | .ialuEscape64 h m d a b ifn ty => prefixWords h ++ [(BitVec.ofBool h.c) ++ (0x6#5 ++ (h.g ++ ((BitVec.ofBool m) ++ (0x1f#5 ++ (d ++ (a ++ (b))))))), ifn ++ (ty ++ (0x0#25))]
  | .ialuiAdd h k d a imm => prefixWords h ++ [(BitVec.ofBool h.c) ++ (0x7#5 ++ (h.g ++ ((BitVec.ofBool k) ++ (0x0#5 ++ (d ++ (a ++ (imm)))))))]
  | .ialuiSub h k d a imm => prefixWords h ++ [(BitVec.ofBool h.c) ++ (0x7#5 ++ (h.g ++ ((BitVec.ofBool k) ++ (0x1#5 ++ (d ++ (a ++ (imm)))))))]
  | .ialuiMul h k d a imm => prefixWords h ++ [(BitVec.ofBool h.c) ++ (0x7#5 ++ (h.g ++ ((BitVec.ofBool k) ++ (0x2#5 ++ (d ++ (a ++ (imm)))))))]
  | .ialuiMinN32 h k d a imm => prefixWords h ++ [(BitVec.ofBool h.c) ++ (0x7#5 ++ (h.g ++ ((BitVec.ofBool k) ++ (0xa#5 ++ (d ++ (a ++ (imm)))))))]
  | .ialuiMinI32 h k d a imm => prefixWords h ++ [(BitVec.ofBool h.c) ++ (0x7#5 ++ (h.g ++ ((BitVec.ofBool k) ++ (0xb#5 ++ (d ++ (a ++ (imm)))))))]
  | .ialuiMaxN32 h k d a imm => prefixWords h ++ [(BitVec.ofBool h.c) ++ (0x7#5 ++ (h.g ++ ((BitVec.ofBool k) ++ (0xc#5 ++ (d ++ (a ++ (imm)))))))]
  | .ialuiMaxI32 h k d a imm => prefixWords h ++ [(BitVec.ofBool h.c) ++ (0x7#5 ++ (h.g ++ ((BitVec.ofBool k) ++ (0xd#5 ++ (d ++ (a ++ (imm)))))))]
  | .ialuiAnd h k d a imm => prefixWords h ++ [(BitVec.ofBool h.c) ++ (0x7#5 ++ (h.g ++ ((BitVec.ofBool k) ++ (0xe#5 ++ (d ++ (a ++ (imm)))))))]
  | .ialuiOr h k d a imm => prefixWords h ++ [(BitVec.ofBool h.c) ++ (0x7#5 ++ (h.g ++ ((BitVec.ofBool k) ++ (0xf#5 ++ (d ++ (a ++ (imm)))))))]
  | .ialuiXor h k d a imm => prefixWords h ++ [(BitVec.ofBool h.c) ++ (0x7#5 ++ (h.g ++ ((BitVec.ofBool k) ++ (0x10#5 ++ (d ++ (a ++ (imm)))))))]
  | .ialuiShl h k d a imm => prefixWords h ++ [(BitVec.ofBool h.c) ++ (0x7#5 ++ (h.g ++ ((BitVec.ofBool k) ++ (0x11#5 ++ (d ++ (a ++ (imm)))))))]
  | .ialuiShr h k d a imm => prefixWords h ++ [(BitVec.ofBool h.c) ++ (0x7#5 ++ (h.g ++ ((BitVec.ofBool k) ++ (0x12#5 ++ (d ++ (a ++ (imm)))))))]
  | .ialuiSra h k d a imm => prefixWords h ++ [(BitVec.ofBool h.c) ++ (0x7#5 ++ (h.g ++ ((BitVec.ofBool k) ++ (0x13#5 ++ (d ++ (a ++ (imm)))))))]
  | .ialuiRot h k d a imm => prefixWords h ++ [(BitVec.ofBool h.c) ++ (0x7#5 ++ (h.g ++ ((BitVec.ofBool k) ++ (0x14#5 ++ (d ++ (a ++ (imm)))))))]
  | .ialuiLi h k d imm => prefixWords h ++ [(BitVec.ofBool h.c) ++ (0x7#5 ++ (h.g ++ ((BitVec.ofBool k) ++ (0x1c#5 ++ (d ++ (imm))))))]
  | .saluAdd h d a b => prefixWords h ++ [(BitVec.ofBool h.c) ++ (0x8#5 ++ (h.g ++ (0x0#6 ++ (d ++ (a ++ (b))))))]
  | .saluSub h d a b => prefixWords h ++ [(BitVec.ofBool h.c) ++ (0x8#5 ++ (h.g ++ (0x1#6 ++ (d ++ (a ++ (b))))))]
  | .saluMul h d a b => prefixWords h ++ [(BitVec.ofBool h.c) ++ (0x8#5 ++ (h.g ++ (0x2#6 ++ (d ++ (a ++ (b))))))]
  | .saluMulhiN32 h d a b => prefixWords h ++ [(BitVec.ofBool h.c) ++ (0x8#5 ++ (h.g ++ (0x3#6 ++ (d ++ (a ++ (b))))))]
  | .saluMulhiI32 h d a b => prefixWords h ++ [(BitVec.ofBool h.c) ++ (0x8#5 ++ (h.g ++ (0x4#6 ++ (d ++ (a ++ (b))))))]
  | .saluMad h d a b c => prefixWords h ++ [(BitVec.ofBool h.c) ++ (0x8#5 ++ (h.g ++ (0x5#6 ++ (d ++ (a ++ (b)))))), c ++ (0x0#26)]
  | .saluDivN32 h d a b => prefixWords h ++ [(BitVec.ofBool h.c) ++ (0x8#5 ++ (h.g ++ (0x6#6 ++ (d ++ (a ++ (b))))))]
  | .saluDivI32 h d a b => prefixWords h ++ [(BitVec.ofBool h.c) ++ (0x8#5 ++ (h.g ++ (0x7#6 ++ (d ++ (a ++ (b))))))]
  | .saluRemN32 h d a b => prefixWords h ++ [(BitVec.ofBool h.c) ++ (0x8#5 ++ (h.g ++ (0x8#6 ++ (d ++ (a ++ (b))))))]
  | .saluRemI32 h d a b => prefixWords h ++ [(BitVec.ofBool h.c) ++ (0x8#5 ++ (h.g ++ (0x9#6 ++ (d ++ (a ++ (b))))))]
  | .saluMinN32 h d a b => prefixWords h ++ [(BitVec.ofBool h.c) ++ (0x8#5 ++ (h.g ++ (0xa#6 ++ (d ++ (a ++ (b))))))]
  | .saluMinI32 h d a b => prefixWords h ++ [(BitVec.ofBool h.c) ++ (0x8#5 ++ (h.g ++ (0xb#6 ++ (d ++ (a ++ (b))))))]
  | .saluMaxN32 h d a b => prefixWords h ++ [(BitVec.ofBool h.c) ++ (0x8#5 ++ (h.g ++ (0xc#6 ++ (d ++ (a ++ (b))))))]
  | .saluMaxI32 h d a b => prefixWords h ++ [(BitVec.ofBool h.c) ++ (0x8#5 ++ (h.g ++ (0xd#6 ++ (d ++ (a ++ (b))))))]
  | .saluAnd h d a b => prefixWords h ++ [(BitVec.ofBool h.c) ++ (0x8#5 ++ (h.g ++ (0xe#6 ++ (d ++ (a ++ (b))))))]
  | .saluOr h d a b => prefixWords h ++ [(BitVec.ofBool h.c) ++ (0x8#5 ++ (h.g ++ (0xf#6 ++ (d ++ (a ++ (b))))))]
  | .saluXor h d a b => prefixWords h ++ [(BitVec.ofBool h.c) ++ (0x8#5 ++ (h.g ++ (0x10#6 ++ (d ++ (a ++ (b))))))]
  | .saluShl h d a b => prefixWords h ++ [(BitVec.ofBool h.c) ++ (0x8#5 ++ (h.g ++ (0x11#6 ++ (d ++ (a ++ (b))))))]
  | .saluShr h d a b => prefixWords h ++ [(BitVec.ofBool h.c) ++ (0x8#5 ++ (h.g ++ (0x12#6 ++ (d ++ (a ++ (b))))))]
  | .saluSra h d a b => prefixWords h ++ [(BitVec.ofBool h.c) ++ (0x8#5 ++ (h.g ++ (0x13#6 ++ (d ++ (a ++ (b))))))]
  | .saluRot h d a b => prefixWords h ++ [(BitVec.ofBool h.c) ++ (0x8#5 ++ (h.g ++ (0x14#6 ++ (d ++ (a ++ (b))))))]
  | .saluAbs h d a => prefixWords h ++ [(BitVec.ofBool h.c) ++ (0x8#5 ++ (h.g ++ (0x15#6 ++ (d ++ (a ++ (0x0#6))))))]
  | .saluNeg h d a => prefixWords h ++ [(BitVec.ofBool h.c) ++ (0x8#5 ++ (h.g ++ (0x15#6 ++ (d ++ (a ++ (0x1#6))))))]
  | .saluNot h d a => prefixWords h ++ [(BitVec.ofBool h.c) ++ (0x8#5 ++ (h.g ++ (0x15#6 ++ (d ++ (a ++ (0x2#6))))))]
  | .saluClz h d a => prefixWords h ++ [(BitVec.ofBool h.c) ++ (0x8#5 ++ (h.g ++ (0x15#6 ++ (d ++ (a ++ (0x3#6))))))]
  | .saluPopc h d a => prefixWords h ++ [(BitVec.ofBool h.c) ++ (0x8#5 ++ (h.g ++ (0x15#6 ++ (d ++ (a ++ (0x4#6))))))]
  | .saluBrev h d a => prefixWords h ++ [(BitVec.ofBool h.c) ++ (0x8#5 ++ (h.g ++ (0x15#6 ++ (d ++ (a ++ (0x5#6))))))]
  | .saluMov h d a => prefixWords h ++ [(BitVec.ofBool h.c) ++ (0x8#5 ++ (h.g ++ (0x15#6 ++ (d ++ (a ++ (0x6#6))))))]
  | .saluBfxN32 h d a pos len => prefixWords h ++ [(BitVec.ofBool h.c) ++ (0x8#5 ++ (h.g ++ (0x16#6 ++ (d ++ (a ++ (0x0#6)))))), pos ++ (len ++ (0x0#21))]
  | .saluBfxI32 h d a pos len => prefixWords h ++ [(BitVec.ofBool h.c) ++ (0x8#5 ++ (h.g ++ (0x17#6 ++ (d ++ (a ++ (0x0#6)))))), pos ++ (len ++ (0x0#21))]
  | .saluBfi h d a b pos len => prefixWords h ++ [(BitVec.ofBool h.c) ++ (0x8#5 ++ (h.g ++ (0x18#6 ++ (d ++ (a ++ (b)))))), pos ++ (len ++ (0x0#21))]
  | .saluLea h d a b sh zx => prefixWords h ++ [(BitVec.ofBool h.c) ++ (0x8#5 ++ (h.g ++ (0x1a#6 ++ (d ++ (a ++ (b)))))), sh ++ ((BitVec.ofBool zx) ++ (0x0#28))]
  | .saluWid h d sel pr => prefixWords h ++ [(BitVec.ofBool h.c) ++ (0x8#5 ++ (h.g ++ (0x1b#6 ++ (d ++ (0x0#12))))), sel ++ ((BitVec.ofBool pr) ++ (0x0#28))]
  | .saluEscape64 h d a b ifn ty => prefixWords h ++ [(BitVec.ofBool h.c) ++ (0x8#5 ++ (h.g ++ (0x1f#6 ++ (d ++ (a ++ (b)))))), ifn ++ (ty ++ (0x0#25))]
  | .saluiAdd h k d a imm => prefixWords h ++ [(BitVec.ofBool h.c) ++ (0x9#5 ++ (h.g ++ ((BitVec.ofBool k) ++ (0x0#5 ++ (d ++ (a ++ (imm)))))))]
  | .saluiSub h k d a imm => prefixWords h ++ [(BitVec.ofBool h.c) ++ (0x9#5 ++ (h.g ++ ((BitVec.ofBool k) ++ (0x1#5 ++ (d ++ (a ++ (imm)))))))]
  | .saluiMul h k d a imm => prefixWords h ++ [(BitVec.ofBool h.c) ++ (0x9#5 ++ (h.g ++ ((BitVec.ofBool k) ++ (0x2#5 ++ (d ++ (a ++ (imm)))))))]
  | .saluiMinN32 h k d a imm => prefixWords h ++ [(BitVec.ofBool h.c) ++ (0x9#5 ++ (h.g ++ ((BitVec.ofBool k) ++ (0xa#5 ++ (d ++ (a ++ (imm)))))))]
  | .saluiMinI32 h k d a imm => prefixWords h ++ [(BitVec.ofBool h.c) ++ (0x9#5 ++ (h.g ++ ((BitVec.ofBool k) ++ (0xb#5 ++ (d ++ (a ++ (imm)))))))]
  | .saluiMaxN32 h k d a imm => prefixWords h ++ [(BitVec.ofBool h.c) ++ (0x9#5 ++ (h.g ++ ((BitVec.ofBool k) ++ (0xc#5 ++ (d ++ (a ++ (imm)))))))]
  | .saluiMaxI32 h k d a imm => prefixWords h ++ [(BitVec.ofBool h.c) ++ (0x9#5 ++ (h.g ++ ((BitVec.ofBool k) ++ (0xd#5 ++ (d ++ (a ++ (imm)))))))]
  | .saluiAnd h k d a imm => prefixWords h ++ [(BitVec.ofBool h.c) ++ (0x9#5 ++ (h.g ++ ((BitVec.ofBool k) ++ (0xe#5 ++ (d ++ (a ++ (imm)))))))]
  | .saluiOr h k d a imm => prefixWords h ++ [(BitVec.ofBool h.c) ++ (0x9#5 ++ (h.g ++ ((BitVec.ofBool k) ++ (0xf#5 ++ (d ++ (a ++ (imm)))))))]
  | .saluiXor h k d a imm => prefixWords h ++ [(BitVec.ofBool h.c) ++ (0x9#5 ++ (h.g ++ ((BitVec.ofBool k) ++ (0x10#5 ++ (d ++ (a ++ (imm)))))))]
  | .saluiShl h k d a imm => prefixWords h ++ [(BitVec.ofBool h.c) ++ (0x9#5 ++ (h.g ++ ((BitVec.ofBool k) ++ (0x11#5 ++ (d ++ (a ++ (imm)))))))]
  | .saluiShr h k d a imm => prefixWords h ++ [(BitVec.ofBool h.c) ++ (0x9#5 ++ (h.g ++ ((BitVec.ofBool k) ++ (0x12#5 ++ (d ++ (a ++ (imm)))))))]
  | .saluiSra h k d a imm => prefixWords h ++ [(BitVec.ofBool h.c) ++ (0x9#5 ++ (h.g ++ ((BitVec.ofBool k) ++ (0x13#5 ++ (d ++ (a ++ (imm)))))))]
  | .saluiRot h k d a imm => prefixWords h ++ [(BitVec.ofBool h.c) ++ (0x9#5 ++ (h.g ++ ((BitVec.ofBool k) ++ (0x14#5 ++ (d ++ (a ++ (imm)))))))]
  | .saluiLi h k d imm => prefixWords h ++ [(BitVec.ofBool h.c) ++ (0x9#5 ++ (h.g ++ ((BitVec.ofBool k) ++ (0x1c#5 ++ (d ++ (imm))))))]
  | .fadd h m d a b => prefixWords h ++ [(BitVec.ofBool h.c) ++ (0xa#5 ++ (h.g ++ ((BitVec.ofBool m) ++ (0x0#5 ++ (d ++ (a ++ (b)))))))]
  | .fsub h m d a b => prefixWords h ++ [(BitVec.ofBool h.c) ++ (0xa#5 ++ (h.g ++ ((BitVec.ofBool m) ++ (0x1#5 ++ (d ++ (a ++ (b)))))))]
  | .fmul h m d a b => prefixWords h ++ [(BitVec.ofBool h.c) ++ (0xa#5 ++ (h.g ++ ((BitVec.ofBool m) ++ (0x2#5 ++ (d ++ (a ++ (b)))))))]
  | .fmin h m d a b => prefixWords h ++ [(BitVec.ofBool h.c) ++ (0xa#5 ++ (h.g ++ ((BitVec.ofBool m) ++ (0x3#5 ++ (d ++ (a ++ (b)))))))]
  | .fmax h m d a b => prefixWords h ++ [(BitVec.ofBool h.c) ++ (0xa#5 ++ (h.g ++ ((BitVec.ofBool m) ++ (0x4#5 ++ (d ++ (a ++ (b)))))))]
  | .fneg h m d a => prefixWords h ++ [(BitVec.ofBool h.c) ++ (0xa#5 ++ (h.g ++ ((BitVec.ofBool m) ++ (0x5#5 ++ (d ++ (a ++ (0x0#6)))))))]
  | .fabs h m d a => prefixWords h ++ [(BitVec.ofBool h.c) ++ (0xa#5 ++ (h.g ++ ((BitVec.ofBool m) ++ (0x6#5 ++ (d ++ (a ++ (0x0#6)))))))]
  | .fscl h m d a b => prefixWords h ++ [(BitVec.ofBool h.c) ++ (0xa#5 ++ (h.g ++ ((BitVec.ofBool m) ++ (0x7#5 ++ (d ++ (a ++ (b)))))))]
  | .fclass h m d a => prefixWords h ++ [(BitVec.ofBool h.c) ++ (0xa#5 ++ (h.g ++ ((BitVec.ofBool m) ++ (0x8#5 ++ (d ++ (a ++ (0x0#6)))))))]
  | .frnd h m d a r => prefixWords h ++ [(BitVec.ofBool h.c) ++ (0xa#5 ++ (h.g ++ ((BitVec.ofBool m) ++ (0x9#5 ++ (d ++ (a ++ (0x0#4 ++ (r))))))))]
  | .faluEscape h m d a b ifn ty bs => prefixWords h ++ [(BitVec.ofBool h.c) ++ (0xa#5 ++ (h.g ++ ((BitVec.ofBool m) ++ (0x1f#5 ++ (d ++ (a ++ (b))))))), ifn ++ (ty ++ ((BitVec.ofBool bs) ++ (0x0#24)))]
  | .ffma h m d a b c ty bs sc rm np na => prefixWords h ++ [(BitVec.ofBool h.c) ++ (0xb#5 ++ (h.g ++ ((BitVec.ofBool m) ++ (0x0#5 ++ (d ++ (a ++ (b))))))), c ++ (ty ++ ((BitVec.ofBool bs) ++ ((BitVec.ofBool sc) ++ (rm ++ ((BitVec.ofBool np) ++ ((BitVec.ofBool na) ++ (0x0#18)))))))]
  | .fexp2 h m d a => prefixWords h ++ [(BitVec.ofBool h.c) ++ (0xc#5 ++ (h.g ++ ((BitVec.ofBool m) ++ (0x0#5 ++ (d ++ (a ++ (0x0#6)))))))]
  | .flog2 h m d a => prefixWords h ++ [(BitVec.ofBool h.c) ++ (0xc#5 ++ (h.g ++ ((BitVec.ofBool m) ++ (0x1#5 ++ (d ++ (a ++ (0x0#6)))))))]
  | .frcp h m d a => prefixWords h ++ [(BitVec.ofBool h.c) ++ (0xc#5 ++ (h.g ++ ((BitVec.ofBool m) ++ (0x2#5 ++ (d ++ (a ++ (0x0#6)))))))]
  | .frsq h m d a => prefixWords h ++ [(BitVec.ofBool h.c) ++ (0xc#5 ++ (h.g ++ ((BitVec.ofBool m) ++ (0x3#5 ++ (d ++ (a ++ (0x0#6)))))))]
  | .fsqrt h m d a => prefixWords h ++ [(BitVec.ofBool h.c) ++ (0xc#5 ++ (h.g ++ ((BitVec.ofBool m) ++ (0x4#5 ++ (d ++ (a ++ (0x0#6)))))))]
  | .fsin h m d a => prefixWords h ++ [(BitVec.ofBool h.c) ++ (0xc#5 ++ (h.g ++ ((BitVec.ofBool m) ++ (0x5#5 ++ (d ++ (a ++ (0x0#6)))))))]
  | .fcos h m d a => prefixWords h ++ [(BitVec.ofBool h.c) ++ (0xc#5 ++ (h.g ++ ((BitVec.ofBool m) ++ (0x6#5 ++ (d ++ (a ++ (0x0#6)))))))]
  | .ftanh h m d a => prefixWords h ++ [(BitVec.ofBool h.c) ++ (0xc#5 ++ (h.g ++ ((BitVec.ofBool m) ++ (0x7#5 ++ (d ++ (a ++ (0x0#6)))))))]
  | .ferf h m d a => prefixWords h ++ [(BitVec.ofBool h.c) ++ (0xc#5 ++ (h.g ++ ((BitVec.ofBool m) ++ (0x8#5 ++ (d ++ (a ++ (0x0#6)))))))]
  | .cvt h m d a st dt rm dith js jd => prefixWords h ++ [(BitVec.ofBool h.c) ++ (0xd#5 ++ (h.g ++ ((BitVec.ofBool m) ++ (0x0#5 ++ (d ++ (a ++ (0x0#6))))))), st ++ (dt ++ (rm ++ ((BitVec.ofBool dith) ++ (js ++ (jd ++ (0x0#13))))))]
  | .qnt h m d a e sb fmt st dith => prefixWords h ++ [(BitVec.ofBool h.c) ++ (0xd#5 ++ (h.g ++ ((BitVec.ofBool m) ++ (0x1#5 ++ (d ++ (a ++ (0x0#6))))))), e ++ (sb ++ (fmt ++ (st ++ ((BitVec.ofBool dith) ++ (0x0#18)))))]
  | .dq h m d a e sb fmt dt => prefixWords h ++ [(BitVec.ofBool h.c) ++ (0xd#5 ++ (h.g ++ ((BitVec.ofBool m) ++ (0x2#5 ++ (d ++ (a ++ (0x0#6))))))), e ++ (sb ++ (fmt ++ (dt ++ (0x0#19))))]
  | .pack h m d a j w => prefixWords h ++ [(BitVec.ofBool h.c) ++ (0xd#5 ++ (h.g ++ ((BitVec.ofBool m) ++ (0x3#5 ++ (d ++ (a ++ (j ++ (w))))))))]
  | .unpack h m d a j w => prefixWords h ++ [(BitVec.ofBool h.c) ++ (0xd#5 ++ (h.g ++ ((BitVec.ofBool m) ++ (0x4#5 ++ (d ++ (a ++ (j ++ (w))))))))]
  | .cmpEq h m n p a b => prefixWords h ++ [(BitVec.ofBool h.c) ++ (0xe#5 ++ (h.g ++ ((BitVec.ofBool m) ++ (0x0#5 ++ ((BitVec.ofBool n) ++ (0x0#3 ++ (p ++ (a ++ (b)))))))))]
  | .cmpNe h m n p a b => prefixWords h ++ [(BitVec.ofBool h.c) ++ (0xe#5 ++ (h.g ++ ((BitVec.ofBool m) ++ (0x1#5 ++ ((BitVec.ofBool n) ++ (0x0#3 ++ (p ++ (a ++ (b)))))))))]
  | .cmpLtI32 h m n p a b => prefixWords h ++ [(BitVec.ofBool h.c) ++ (0xe#5 ++ (h.g ++ ((BitVec.ofBool m) ++ (0x2#5 ++ ((BitVec.ofBool n) ++ (0x0#3 ++ (p ++ (a ++ (b)))))))))]
  | .cmpLeI32 h m n p a b => prefixWords h ++ [(BitVec.ofBool h.c) ++ (0xe#5 ++ (h.g ++ ((BitVec.ofBool m) ++ (0x3#5 ++ ((BitVec.ofBool n) ++ (0x0#3 ++ (p ++ (a ++ (b)))))))))]
  | .cmpGtI32 h m n p a b => prefixWords h ++ [(BitVec.ofBool h.c) ++ (0xe#5 ++ (h.g ++ ((BitVec.ofBool m) ++ (0x4#5 ++ ((BitVec.ofBool n) ++ (0x0#3 ++ (p ++ (a ++ (b)))))))))]
  | .cmpGeI32 h m n p a b => prefixWords h ++ [(BitVec.ofBool h.c) ++ (0xe#5 ++ (h.g ++ ((BitVec.ofBool m) ++ (0x5#5 ++ ((BitVec.ofBool n) ++ (0x0#3 ++ (p ++ (a ++ (b)))))))))]
  | .cmpLtN32 h m n p a b => prefixWords h ++ [(BitVec.ofBool h.c) ++ (0xe#5 ++ (h.g ++ ((BitVec.ofBool m) ++ (0x6#5 ++ ((BitVec.ofBool n) ++ (0x0#3 ++ (p ++ (a ++ (b)))))))))]
  | .cmpLeN32 h m n p a b => prefixWords h ++ [(BitVec.ofBool h.c) ++ (0xe#5 ++ (h.g ++ ((BitVec.ofBool m) ++ (0x7#5 ++ ((BitVec.ofBool n) ++ (0x0#3 ++ (p ++ (a ++ (b)))))))))]
  | .cmpGtN32 h m n p a b => prefixWords h ++ [(BitVec.ofBool h.c) ++ (0xe#5 ++ (h.g ++ ((BitVec.ofBool m) ++ (0x8#5 ++ ((BitVec.ofBool n) ++ (0x0#3 ++ (p ++ (a ++ (b)))))))))]
  | .cmpGeN32 h m n p a b => prefixWords h ++ [(BitVec.ofBool h.c) ++ (0xe#5 ++ (h.g ++ ((BitVec.ofBool m) ++ (0x9#5 ++ ((BitVec.ofBool n) ++ (0x0#3 ++ (p ++ (a ++ (b)))))))))]
  | .fcmpEq h m n q p a b => prefixWords h ++ [(BitVec.ofBool h.c) ++ (0xe#5 ++ (h.g ++ ((BitVec.ofBool m) ++ (0x10#5 ++ ((BitVec.ofBool n) ++ ((BitVec.ofBool q) ++ (0x0#2 ++ (p ++ (a ++ (b))))))))))]
  | .fcmpNe h m n q p a b => prefixWords h ++ [(BitVec.ofBool h.c) ++ (0xe#5 ++ (h.g ++ ((BitVec.ofBool m) ++ (0x11#5 ++ ((BitVec.ofBool n) ++ ((BitVec.ofBool q) ++ (0x0#2 ++ (p ++ (a ++ (b))))))))))]
  | .fcmpLt h m n q p a b => prefixWords h ++ [(BitVec.ofBool h.c) ++ (0xe#5 ++ (h.g ++ ((BitVec.ofBool m) ++ (0x12#5 ++ ((BitVec.ofBool n) ++ ((BitVec.ofBool q) ++ (0x0#2 ++ (p ++ (a ++ (b))))))))))]
  | .fcmpLe h m n q p a b => prefixWords h ++ [(BitVec.ofBool h.c) ++ (0xe#5 ++ (h.g ++ ((BitVec.ofBool m) ++ (0x13#5 ++ ((BitVec.ofBool n) ++ ((BitVec.ofBool q) ++ (0x0#2 ++ (p ++ (a ++ (b))))))))))]
  | .fcmpGt h m n q p a b => prefixWords h ++ [(BitVec.ofBool h.c) ++ (0xe#5 ++ (h.g ++ ((BitVec.ofBool m) ++ (0x14#5 ++ ((BitVec.ofBool n) ++ ((BitVec.ofBool q) ++ (0x0#2 ++ (p ++ (a ++ (b))))))))))]
  | .fcmpGe h m n q p a b => prefixWords h ++ [(BitVec.ofBool h.c) ++ (0xe#5 ++ (h.g ++ ((BitVec.ofBool m) ++ (0x15#5 ++ ((BitVec.ofBool n) ++ ((BitVec.ofBool q) ++ (0x0#2 ++ (p ++ (a ++ (b))))))))))]
  | .fcmpUn h m n q p a b => prefixWords h ++ [(BitVec.ofBool h.c) ++ (0xe#5 ++ (h.g ++ ((BitVec.ofBool m) ++ (0x16#5 ++ ((BitVec.ofBool n) ++ ((BitVec.ofBool q) ++ (0x0#2 ++ (p ++ (a ++ (b))))))))))]
  | .fcmpOrd h m n q p a b => prefixWords h ++ [(BitVec.ofBool h.c) ++ (0xe#5 ++ (h.g ++ ((BitVec.ofBool m) ++ (0x17#5 ++ ((BitVec.ofBool n) ++ ((BitVec.ofBool q) ++ (0x0#2 ++ (p ++ (a ++ (b))))))))))]
  | .vote h m d p b => prefixWords h ++ [(BitVec.ofBool h.c) ++ (0xf#5 ++ (h.g ++ ((BitVec.ofBool m) ++ (0x0#5 ++ (d ++ (0x0#4 ++ (p ++ (b))))))))]
  | .shfl h m d a b => prefixWords h ++ [(BitVec.ofBool h.c) ++ (0xf#5 ++ (h.g ++ ((BitVec.ofBool m) ++ (0x1#5 ++ (d ++ (a ++ (b)))))))]
  | .push h d a b => prefixWords h ++ [(BitVec.ofBool h.c) ++ (0xf#5 ++ (h.g ++ (0x2#6 ++ (d ++ (a ++ (b))))))]
  | .bcast h m d a k => prefixWords h ++ [(BitVec.ofBool h.c) ++ (0xf#5 ++ (h.g ++ ((BitVec.ofBool m) ++ (0x3#5 ++ (d ++ (a ++ (0x0#1 ++ (k))))))))]
  | .scan h m d a op anc excl q mask => prefixWords h ++ [(BitVec.ofBool h.c) ++ (0xf#5 ++ (h.g ++ ((BitVec.ofBool m) ++ (0x4#5 ++ (d ++ (a ++ (0x0#6))))))), op ++ (anc ++ (0x0#2 ++ ((BitVec.ofBool excl) ++ ((BitVec.ofBool q) ++ (mask ++ (0x0#8))))))]
  | .red h m d a op anc raw sd q mask => prefixWords h ++ [(BitVec.ofBool h.c) ++ (0xf#5 ++ (h.g ++ ((BitVec.ofBool m) ++ (0x5#5 ++ (d ++ (a ++ (0x0#6))))))), op ++ (anc ++ ((BitVec.ofBool raw) ++ ((BitVec.ofBool sd) ++ (0x0#1 ++ ((BitVec.ofBool q) ++ (mask ++ (0x0#8)))))))]
  | .elect h p a b => prefixWords h ++ [(BitVec.ofBool h.c) ++ (0xf#5 ++ (h.g ++ (0x60#10 ++ (p ++ (a ++ (b))))))]
  | .topk h d a p ty ks kv small mask => prefixWords h ++ [(BitVec.ofBool h.c) ++ (0xf#5 ++ (h.g ++ (0x7#6 ++ (d ++ (a ++ (0x0#4 ++ (p))))))), ty ++ ((BitVec.ofBool ks) ++ (kv ++ ((BitVec.ofBool small) ++ (mask ++ (0x0#16)))))]
  | .hist h d a b shift w mask ty => prefixWords h ++ [(BitVec.ofBool h.c) ++ (0xf#5 ++ (h.g ++ (0x8#6 ++ (d ++ (a ++ (b)))))), shift ++ (w ++ (mask ++ (ty ++ (0x0#16))))]
  | .rng h d a b x bsel n => prefixWords h ++ [(BitVec.ofBool h.c) ++ (0xf#5 ++ (h.g ++ (0x9#6 ++ (d ++ (a ++ (b)))))), x ++ ((BitVec.ofBool bsel) ++ (n ++ (0x0#23)))]
  | .walk h d a op anc mode q mask seg => prefixWords h ++ [(BitVec.ofBool h.c) ++ (0xf#5 ++ (h.g ++ (0xa#6 ++ (d ++ (a ++ (0x0#6)))))), op ++ (anc ++ (mode ++ ((BitVec.ofBool q) ++ (0x0#1 ++ (mask ++ (0x0#2 ++ (seg)))))))]
  | .join h d => prefixWords h ++ [(BitVec.ofBool h.c) ++ (0x10#5 ++ (h.g ++ (0x0#6 ++ (d ++ (0x0#12)))))]
  | .leave h d => prefixWords h ++ [(BitVec.ofBool h.c) ++ (0x10#5 ++ (h.g ++ (0x1#6 ++ (d ++ (0x0#12)))))]
  | .wait h d => prefixWords h ++ [(BitVec.ofBool h.c) ++ (0x10#5 ++ (h.g ++ (0x2#6 ++ (d ++ (0x0#12)))))]
  | .trywait h d a => prefixWords h ++ [(BitVec.ofBool h.c) ++ (0x10#5 ++ (h.g ++ (0x3#6 ++ (d ++ (a ++ (0x0#6))))))]
  | .mset h d a => prefixWords h ++ [(BitVec.ofBool h.c) ++ (0x10#5 ++ (h.g ++ (0x4#6 ++ (d ++ (a ++ (0x0#6))))))]
  | .mmov h d a => prefixWords h ++ [(BitVec.ofBool h.c) ++ (0x10#5 ++ (h.g ++ (0x5#6 ++ (d ++ (a ++ (0x0#6))))))]
  | .mand h d a b => prefixWords h ++ [(BitVec.ofBool h.c) ++ (0x10#5 ++ (h.g ++ (0x6#6 ++ (d ++ (a ++ (b))))))]
  | .mor h d a b => prefixWords h ++ [(BitVec.ofBool h.c) ++ (0x10#5 ++ (h.g ++ (0x7#6 ++ (d ++ (a ++ (b))))))]
  | .mxor h d a b => prefixWords h ++ [(BitVec.ofBool h.c) ++ (0x10#5 ++ (h.g ++ (0x8#6 ++ (d ++ (a ++ (b))))))]
  | .mnot h d a => prefixWords h ++ [(BitVec.ofBool h.c) ++ (0x10#5 ++ (h.g ++ (0x9#6 ++ (d ++ (a ++ (0x0#6))))))]
  | .mpop h d a => prefixWords h ++ [(BitVec.ofBool h.c) ++ (0x10#5 ++ (h.g ++ (0xa#6 ++ (d ++ (a ++ (0x0#6))))))]
  | .ldN8 h mode d a b => prefixWords h ++ [(BitVec.ofBool h.c) ++ (0x11#5 ++ (h.g ++ (mode ++ (0x0#4 ++ (d ++ (a ++ (b)))))))]
  | .ldI8 h mode d a b => prefixWords h ++ [(BitVec.ofBool h.c) ++ (0x11#5 ++ (h.g ++ (mode ++ (0x1#4 ++ (d ++ (a ++ (b)))))))]
  | .ldN16 h mode d a b => prefixWords h ++ [(BitVec.ofBool h.c) ++ (0x11#5 ++ (h.g ++ (mode ++ (0x2#4 ++ (d ++ (a ++ (b)))))))]
  | .ldI16 h mode d a b => prefixWords h ++ [(BitVec.ofBool h.c) ++ (0x11#5 ++ (h.g ++ (mode ++ (0x3#4 ++ (d ++ (a ++ (b)))))))]
  | .ld32 h mode d a b => prefixWords h ++ [(BitVec.ofBool h.c) ++ (0x11#5 ++ (h.g ++ (mode ++ (0x4#4 ++ (d ++ (a ++ (b)))))))]
  | .ld64 h mode d a b => prefixWords h ++ [(BitVec.ofBool h.c) ++ (0x11#5 ++ (h.g ++ (mode ++ (0x5#4 ++ (d ++ (a ++ (b)))))))]
  | .ld128 h mode d a b => prefixWords h ++ [(BitVec.ofBool h.c) ++ (0x11#5 ++ (h.g ++ (mode ++ (0x6#4 ++ (d ++ (a ++ (b)))))))]
  | .ldfe32 h mode d a b => prefixWords h ++ [(BitVec.ofBool h.c) ++ (0x11#5 ++ (h.g ++ (mode ++ (0x8#4 ++ (d ++ (a ++ (b)))))))]
  | .ldfe64 h mode d a b => prefixWords h ++ [(BitVec.ofBool h.c) ++ (0x11#5 ++ (h.g ++ (mode ++ (0x9#4 ++ (d ++ (a ++ (b)))))))]
  | .ldfe128 h mode d a b => prefixWords h ++ [(BitVec.ofBool h.c) ++ (0x11#5 ++ (h.g ++ (mode ++ (0xa#4 ++ (d ++ (a ++ (b)))))))]
  | .ldfeClr32 h mode d a b => prefixWords h ++ [(BitVec.ofBool h.c) ++ (0x11#5 ++ (h.g ++ (mode ++ (0xc#4 ++ (d ++ (a ++ (b)))))))]
  | .ldfeClr64 h mode d a b => prefixWords h ++ [(BitVec.ofBool h.c) ++ (0x11#5 ++ (h.g ++ (mode ++ (0xd#4 ++ (d ++ (a ++ (b)))))))]
  | .ldfeClr128 h mode d a b => prefixWords h ++ [(BitVec.ofBool h.c) ++ (0x11#5 ++ (h.g ++ (mode ++ (0xe#4 ++ (d ++ (a ++ (b)))))))]
  | .st8 h mode d a b => prefixWords h ++ [(BitVec.ofBool h.c) ++ (0x12#5 ++ (h.g ++ (mode ++ (0x0#4 ++ (d ++ (a ++ (b)))))))]
  | .st16 h mode d a b => prefixWords h ++ [(BitVec.ofBool h.c) ++ (0x12#5 ++ (h.g ++ (mode ++ (0x2#4 ++ (d ++ (a ++ (b)))))))]
  | .st32 h mode d a b => prefixWords h ++ [(BitVec.ofBool h.c) ++ (0x12#5 ++ (h.g ++ (mode ++ (0x4#4 ++ (d ++ (a ++ (b)))))))]
  | .st64 h mode d a b => prefixWords h ++ [(BitVec.ofBool h.c) ++ (0x12#5 ++ (h.g ++ (mode ++ (0x5#4 ++ (d ++ (a ++ (b)))))))]
  | .st128 h mode d a b => prefixWords h ++ [(BitVec.ofBool h.c) ++ (0x12#5 ++ (h.g ++ (mode ++ (0x6#4 ++ (d ++ (a ++ (b)))))))]
  | .stfe32 h mode d a b => prefixWords h ++ [(BitVec.ofBool h.c) ++ (0x12#5 ++ (h.g ++ (mode ++ (0x8#4 ++ (d ++ (a ++ (b)))))))]
  | .stfe64 h mode d a b => prefixWords h ++ [(BitVec.ofBool h.c) ++ (0x12#5 ++ (h.g ++ (mode ++ (0x9#4 ++ (d ++ (a ++ (b)))))))]
  | .stfe128 h mode d a b => prefixWords h ++ [(BitVec.ofBool h.c) ++ (0x12#5 ++ (h.g ++ (mode ++ (0xa#4 ++ (d ++ (a ++ (b)))))))]
  | .atomAdd h m d a b mode s scope w rt bs => prefixWords h ++ [(BitVec.ofBool h.c) ++ (0x13#5 ++ (h.g ++ ((BitVec.ofBool m) ++ (0x0#5 ++ (d ++ (a ++ (b))))))), mode ++ (s ++ (scope ++ ((BitVec.ofBool w) ++ ((BitVec.ofBool rt) ++ (0x0#6 ++ ((BitVec.ofBool bs) ++ (0x0#13)))))))]
  | .atomMinI h m d a b mode s scope w rt bs => prefixWords h ++ [(BitVec.ofBool h.c) ++ (0x13#5 ++ (h.g ++ ((BitVec.ofBool m) ++ (0x1#5 ++ (d ++ (a ++ (b))))))), mode ++ (s ++ (scope ++ ((BitVec.ofBool w) ++ ((BitVec.ofBool rt) ++ (0x0#6 ++ ((BitVec.ofBool bs) ++ (0x0#13)))))))]
  | .atomMinN h m d a b mode s scope w rt bs => prefixWords h ++ [(BitVec.ofBool h.c) ++ (0x13#5 ++ (h.g ++ ((BitVec.ofBool m) ++ (0x2#5 ++ (d ++ (a ++ (b))))))), mode ++ (s ++ (scope ++ ((BitVec.ofBool w) ++ ((BitVec.ofBool rt) ++ (0x0#6 ++ ((BitVec.ofBool bs) ++ (0x0#13)))))))]
  | .atomMaxI h m d a b mode s scope w rt bs => prefixWords h ++ [(BitVec.ofBool h.c) ++ (0x13#5 ++ (h.g ++ ((BitVec.ofBool m) ++ (0x3#5 ++ (d ++ (a ++ (b))))))), mode ++ (s ++ (scope ++ ((BitVec.ofBool w) ++ ((BitVec.ofBool rt) ++ (0x0#6 ++ ((BitVec.ofBool bs) ++ (0x0#13)))))))]
  | .atomMaxN h m d a b mode s scope w rt bs => prefixWords h ++ [(BitVec.ofBool h.c) ++ (0x13#5 ++ (h.g ++ ((BitVec.ofBool m) ++ (0x4#5 ++ (d ++ (a ++ (b))))))), mode ++ (s ++ (scope ++ ((BitVec.ofBool w) ++ ((BitVec.ofBool rt) ++ (0x0#6 ++ ((BitVec.ofBool bs) ++ (0x0#13)))))))]
  | .atomAnd h m d a b mode s scope w rt bs => prefixWords h ++ [(BitVec.ofBool h.c) ++ (0x13#5 ++ (h.g ++ ((BitVec.ofBool m) ++ (0x5#5 ++ (d ++ (a ++ (b))))))), mode ++ (s ++ (scope ++ ((BitVec.ofBool w) ++ ((BitVec.ofBool rt) ++ (0x0#6 ++ ((BitVec.ofBool bs) ++ (0x0#13)))))))]
  | .atomOr h m d a b mode s scope w rt bs => prefixWords h ++ [(BitVec.ofBool h.c) ++ (0x13#5 ++ (h.g ++ ((BitVec.ofBool m) ++ (0x6#5 ++ (d ++ (a ++ (b))))))), mode ++ (s ++ (scope ++ ((BitVec.ofBool w) ++ ((BitVec.ofBool rt) ++ (0x0#6 ++ ((BitVec.ofBool bs) ++ (0x0#13)))))))]
  | .atomXor h m d a b mode s scope w rt bs => prefixWords h ++ [(BitVec.ofBool h.c) ++ (0x13#5 ++ (h.g ++ ((BitVec.ofBool m) ++ (0x7#5 ++ (d ++ (a ++ (b))))))), mode ++ (s ++ (scope ++ ((BitVec.ofBool w) ++ ((BitVec.ofBool rt) ++ (0x0#6 ++ ((BitVec.ofBool bs) ++ (0x0#13)))))))]
  | .atomXchg h m d a b mode s scope w rt bs => prefixWords h ++ [(BitVec.ofBool h.c) ++ (0x13#5 ++ (h.g ++ ((BitVec.ofBool m) ++ (0x8#5 ++ (d ++ (a ++ (b))))))), mode ++ (s ++ (scope ++ ((BitVec.ofBool w) ++ ((BitVec.ofBool rt) ++ (0x0#6 ++ ((BitVec.ofBool bs) ++ (0x0#13)))))))]
  | .atomCas h m d a b mode s scope w rt cr bs cs => prefixWords h ++ [(BitVec.ofBool h.c) ++ (0x13#5 ++ (h.g ++ ((BitVec.ofBool m) ++ (0x9#5 ++ (d ++ (a ++ (b))))))), mode ++ (s ++ (scope ++ ((BitVec.ofBool w) ++ ((BitVec.ofBool rt) ++ (cr ++ ((BitVec.ofBool bs) ++ ((BitVec.ofBool cs) ++ (0x0#12))))))))]
  | .atomInc h m d a b mode s scope w rt bs => prefixWords h ++ [(BitVec.ofBool h.c) ++ (0x13#5 ++ (h.g ++ ((BitVec.ofBool m) ++ (0xa#5 ++ (d ++ (a ++ (b))))))), mode ++ (s ++ (scope ++ ((BitVec.ofBool w) ++ ((BitVec.ofBool rt) ++ (0x0#6 ++ ((BitVec.ofBool bs) ++ (0x0#13)))))))]
  | .atomIncb h m d a b mode s scope w rt bs => prefixWords h ++ [(BitVec.ofBool h.c) ++ (0x13#5 ++ (h.g ++ ((BitVec.ofBool m) ++ (0xb#5 ++ (d ++ (a ++ (b))))))), mode ++ (s ++ (scope ++ ((BitVec.ofBool w) ++ ((BitVec.ofBool rt) ++ (0x0#6 ++ ((BitVec.ofBool bs) ++ (0x0#13)))))))]
  | .aadd h a b mode s scope w bs => prefixWords h ++ [(BitVec.ofBool h.c) ++ (0x13#5 ++ (h.g ++ (0x400#12 ++ (a ++ (b))))), mode ++ (s ++ (scope ++ ((BitVec.ofBool w) ++ (0x0#7 ++ ((BitVec.ofBool bs) ++ (0x0#13))))))]
  | .ordend h => prefixWords h ++ [(BitVec.ofBool h.c) ++ (0x13#5 ++ (h.g ++ (0x780000#24)))]
  | .lock h d a b => prefixWords h ++ [(BitVec.ofBool h.c) ++ (0x14#5 ++ (h.g ++ (0x0#6 ++ (d ++ (a ++ (b))))))]
  | .unlock h a b => prefixWords h ++ [(BitVec.ofBool h.c) ++ (0x14#5 ++ (h.g ++ (0x40#12 ++ (a ++ (b)))))]
  | .pref h m l a b => prefixWords h ++ [(BitVec.ofBool h.c) ++ (0x14#5 ++ (h.g ++ ((BitVec.ofBool m) ++ (0x20#9 ++ (l ++ (a ++ (b)))))))]
  | .fenceSys h => prefixWords h ++ [(BitVec.ofBool h.c) ++ (0x14#5 ++ (h.g ++ (0xc0000#24)))]
  | .fenceWin h => prefixWords h ++ [(BitVec.ofBool h.c) ++ (0x14#5 ++ (h.g ++ (0xc1000#24)))]
  | .waitc h ld st cp tl => prefixWords h ++ [(BitVec.ofBool h.c) ++ (0x14#5 ++ (h.g ++ (0x100000#24))), 0x0#8 ++ (ld ++ (st ++ (cp ++ (tl))))]
  | .acq h d => prefixWords h ++ [(BitVec.ofBool h.c) ++ (0x14#5 ++ (h.g ++ (0x5#6 ++ (d ++ (0x0#12)))))]
  | .rel h d => prefixWords h ++ [(BitVec.ofBool h.c) ++ (0x14#5 ++ (h.g ++ (0x6#6 ++ (d ++ (0x0#12)))))]
  | .mmaE2m1 h m acc a b sa bsp clr => prefixWords h ++ [(BitVec.ofBool h.c) ++ (0x15#5 ++ (h.g ++ ((BitVec.ofBool m) ++ (0x0#8 ++ (acc ++ (a ++ (b))))))), sa ++ (0x0#2 ++ ((BitVec.ofBool bsp) ++ ((BitVec.ofBool clr) ++ (0x0#22))))]
  | .mmaE4m3 h m acc a b sa sel bsp clr => prefixWords h ++ [(BitVec.ofBool h.c) ++ (0x15#5 ++ (h.g ++ ((BitVec.ofBool m) ++ (0x8#8 ++ (acc ++ (a ++ (b))))))), sa ++ (sel ++ ((BitVec.ofBool bsp) ++ ((BitVec.ofBool clr) ++ (0x0#22))))]
  | .mmaE5m2 h m acc a b sa sel bsp clr => prefixWords h ++ [(BitVec.ofBool h.c) ++ (0x15#5 ++ (h.g ++ ((BitVec.ofBool m) ++ (0x10#8 ++ (acc ++ (a ++ (b))))))), sa ++ (sel ++ ((BitVec.ofBool bsp) ++ ((BitVec.ofBool clr) ++ (0x0#22))))]
  | .mmaE3m2 h m acc a b sa sel bsp clr => prefixWords h ++ [(BitVec.ofBool h.c) ++ (0x15#5 ++ (h.g ++ ((BitVec.ofBool m) ++ (0x18#8 ++ (acc ++ (a ++ (b))))))), sa ++ (sel ++ ((BitVec.ofBool bsp) ++ ((BitVec.ofBool clr) ++ (0x0#22))))]
  | .mmaE2m3 h m acc a b sa sel bsp clr => prefixWords h ++ [(BitVec.ofBool h.c) ++ (0x15#5 ++ (h.g ++ ((BitVec.ofBool m) ++ (0x20#8 ++ (acc ++ (a ++ (b))))))), sa ++ (sel ++ ((BitVec.ofBool bsp) ++ ((BitVec.ofBool clr) ++ (0x0#22))))]
  | .mmaI8 h m acc a b bsp clr => prefixWords h ++ [(BitVec.ofBool h.c) ++ (0x15#5 ++ (h.g ++ ((BitVec.ofBool m) ++ (0x28#8 ++ (acc ++ (a ++ (b))))))), 0x0#8 ++ ((BitVec.ofBool bsp) ++ ((BitVec.ofBool clr) ++ (0x0#22)))]
  | .mmaBf16 h m acc a b bsp clr => prefixWords h ++ [(BitVec.ofBool h.c) ++ (0x15#5 ++ (h.g ++ ((BitVec.ofBool m) ++ (0x30#8 ++ (acc ++ (a ++ (b))))))), 0x0#8 ++ ((BitVec.ofBool bsp) ++ ((BitVec.ofBool clr) ++ (0x0#22)))]
  | .mmaF16 h m acc a b bsp clr => prefixWords h ++ [(BitVec.ofBool h.c) ++ (0x15#5 ++ (h.g ++ ((BitVec.ofBool m) ++ (0x38#8 ++ (acc ++ (a ++ (b))))))), 0x0#8 ++ ((BitVec.ofBool bsp) ++ ((BitVec.ofBool clr) ++ (0x0#22)))]
  | .acz h a => prefixWords h ++ [(BitVec.ofBool h.c) ++ (0x16#5 ++ (h.g ++ (0x0#15 ++ (a ++ (0x0#6)))))]
  | .acanch h i a j => prefixWords h ++ [(BitVec.ofBool h.c) ++ (0x16#5 ++ (h.g ++ (0x8#9 ++ (i ++ (0x0#3 ++ (a ++ (j)))))))]
  | .acanchScalar h a b => prefixWords h ++ [(BitVec.ofBool h.c) ++ (0x16#5 ++ (h.g ++ (0x4200#15 ++ (a ++ (b)))))]
  | .acvt h d acc b dt c0 n noba nobb => prefixWords h ++ [(BitVec.ofBool h.c) ++ (0x16#5 ++ (h.g ++ (0x2#6 ++ (d ++ (0x0#3 ++ (acc ++ (b))))))), dt ++ (c0 ++ (n ++ ((BitVec.ofBool noba) ++ ((BitVec.ofBool nobb) ++ (0x0#16)))))]
  | .acld h a b => prefixWords h ++ [(BitVec.ofBool h.c) ++ (0x16#5 ++ (h.g ++ (0x600#15 ++ (a ++ (b)))))]
  | .acst h a b => prefixWords h ++ [(BitVec.ofBool h.c) ++ (0x16#5 ++ (h.g ++ (0x800#15 ++ (a ++ (b)))))]
  | .gang h k a b => prefixWords h ++ [(BitVec.ofBool h.c) ++ (0x16#5 ++ (h.g ++ (0x28#9 ++ (k ++ (a ++ (b))))))]
  | .tgset h d a b => prefixWords h ++ [(BitVec.ofBool h.c) ++ (0x16#5 ++ (h.g ++ (0x6#6 ++ (d ++ (a ++ (b))))))]
  | .tgget h d a s => prefixWords h ++ [(BitVec.ofBool h.c) ++ (0x16#5 ++ (h.g ++ (0x7#6 ++ (d ++ (a ++ (0x0#3 ++ (s)))))))]
  | .wvf h m d a u s x l => prefixWords h ++ [(BitVec.ofBool h.c) ++ (0x17#5 ++ (h.g ++ ((BitVec.ofBool m) ++ (0x0#5 ++ (d ++ (a ++ ((BitVec.ofBool u) ++ ((BitVec.ofBool s) ++ ((BitVec.ofBool x) ++ (l))))))))))]
  | .wvi h m d a => prefixWords h ++ [(BitVec.ofBool h.c) ++ (0x17#5 ++ (h.g ++ ((BitVec.ofBool m) ++ (0x1#5 ++ (d ++ (a ++ (0x0#6)))))))]
  | .stw h m a b mode l x sx t n rw => prefixWords h ++ [(BitVec.ofBool h.c) ++ (0x17#5 ++ (h.g ++ ((BitVec.ofBool m) ++ (0x80#11 ++ (a ++ (b)))))), mode ++ (l ++ ((BitVec.ofBool x) ++ ((BitVec.ofBool sx) ++ ((BitVec.ofBool t) ++ (n ++ (rw ++ (0x0#17)))))))]
  | .ldw h d b mode rw => prefixWords h ++ [(BitVec.ofBool h.c) ++ (0x17#5 ++ (h.g ++ (0x3#6 ++ (d ++ (0x0#6 ++ (b)))))), mode ++ (0x0#9 ++ (rw ++ (0x0#17)))]
  | .wthr h d a n => prefixWords h ++ [(BitVec.ofBool h.c) ++ (0x17#5 ++ (h.g ++ (0x4#6 ++ (d ++ (a ++ (0x0#3 ++ (n)))))))]
  | .board h d a b mr all => prefixWords h ++ [(BitVec.ofBool h.c) ++ (0x18#5 ++ (h.g ++ (0x0#6 ++ (d ++ (a ++ (b)))))), mr ++ ((BitVec.ofBool all) ++ (0x0#25))]
  | .bwait h d a => prefixWords h ++ [(BitVec.ofBool h.c) ++ (0x18#5 ++ (h.g ++ (0x1#6 ++ (d ++ (a ++ (0x0#6))))))]
  | .btry h d a => prefixWords h ++ [(BitVec.ofBool h.c) ++ (0x18#5 ++ (h.g ++ (0x2#6 ++ (d ++ (a ++ (0x0#6))))))]
  | .bfree h a => prefixWords h ++ [(BitVec.ofBool h.c) ++ (0x18#5 ++ (h.g ++ (0xc0#12 ++ (a ++ (0x0#6)))))]
  | .lapr h d s => prefixWords h ++ [(BitVec.ofBool h.c) ++ (0x18#5 ++ (h.g ++ (0x4#6 ++ (d ++ (0x0#9 ++ (s))))))]
  | .job h d a b => prefixWords h ++ [(BitVec.ofBool h.c) ++ (0x19#5 ++ (h.g ++ (0x0#6 ++ (d ++ (a ++ (b))))))]
  | .send h a b => prefixWords h ++ [(BitVec.ofBool h.c) ++ (0x19#5 ++ (h.g ++ (0x40#12 ++ (a ++ (b)))))]
  | .recv h d a => prefixWords h ++ [(BitVec.ofBool h.c) ++ (0x19#5 ++ (h.g ++ (0x2#6 ++ (d ++ (a ++ (0x0#6))))))]
  | .jstat h d a s => prefixWords h ++ [(BitVec.ofBool h.c) ++ (0x19#5 ++ (h.g ++ (0x3#6 ++ (d ++ (a ++ (0x0#3 ++ (s)))))))]
  | .seqld h d a b => prefixWords h ++ [(BitVec.ofBool h.c) ++ (0x1a#5 ++ (h.g ++ (0x0#6 ++ (d ++ (a ++ (b))))))]
  | .seqst h d a b => prefixWords h ++ [(BitVec.ofBool h.c) ++ (0x1a#5 ++ (h.g ++ (0x1#6 ++ (d ++ (a ++ (b))))))]
  | .admitSeq h d a => prefixWords h ++ [(BitVec.ofBool h.c) ++ (0x1a#5 ++ (h.g ++ (0x2#6 ++ (d ++ (a ++ (0x0#6))))))]
  | .retire h a b => prefixWords h ++ [(BitVec.ofBool h.c) ++ (0x1a#5 ++ (h.g ++ (0xc0#12 ++ (a ++ (b)))))]
  | .retireMig h a b => prefixWords h ++ [(BitVec.ofBool h.c) ++ (0x1a#5 ++ (h.g ++ (0xc1#12 ++ (a ++ (b)))))]
  | .tokput h d a b => prefixWords h ++ [(BitVec.ofBool h.c) ++ (0x1a#5 ++ (h.g ++ (0x4#6 ++ (d ++ (a ++ (b))))))]
  | .accept h d a b => prefixWords h ++ [(BitVec.ofBool h.c) ++ (0x1a#5 ++ (h.g ++ (0x5#6 ++ (d ++ (a ++ (b))))))]
  | .draft h d a b => prefixWords h ++ [(BitVec.ofBool h.c) ++ (0x1a#5 ++ (h.g ++ (0x6#6 ++ (d ++ (a ++ (b))))))]
  | .stopck h d a b => prefixWords h ++ [(BitVec.ofBool h.c) ++ (0x1a#5 ++ (h.g ++ (0x7#6 ++ (d ++ (a ++ (b))))))]
  | .ckpt h a b => prefixWords h ++ [(BitVec.ofBool h.c) ++ (0x1a#5 ++ (h.g ++ (0x200#12 ++ (a ++ (b)))))]
  | .pgref h d a b => prefixWords h ++ [(BitVec.ofBool h.c) ++ (0x1b#5 ++ (h.g ++ (0x0#6 ++ (d ++ (a ++ (b))))))]
  | .pgcow h d a b => prefixWords h ++ [(BitVec.ofBool h.c) ++ (0x1b#5 ++ (h.g ++ (0x1#6 ++ (d ++ (a ++ (b))))))]
  | .pgmove h d a b => prefixWords h ++ [(BitVec.ofBool h.c) ++ (0x1b#5 ++ (h.g ++ (0x2#6 ++ (d ++ (a ++ (b))))))]
  | .pgpin h d a b => prefixWords h ++ [(BitVec.ofBool h.c) ++ (0x1b#5 ++ (h.g ++ (0x3#6 ++ (d ++ (a ++ (b))))))]
  | .pghand h d a b => prefixWords h ++ [(BitVec.ofBool h.c) ++ (0x1b#5 ++ (h.g ++ (0x4#6 ++ (d ++ (a ++ (b))))))]
  | .catld h d a b => prefixWords h ++ [(BitVec.ofBool h.c) ++ (0x1b#5 ++ (h.g ++ (0x5#6 ++ (d ++ (a ++ (b))))))]
  | .catst h d a b => prefixWords h ++ [(BitVec.ofBool h.c) ++ (0x1b#5 ++ (h.g ++ (0x6#6 ++ (d ++ (a ++ (b))))))]
  | .bar h d a p s => prefixWords h ++ [(BitVec.ofBool h.c) ++ (0x1c#5 ++ (h.g ++ (0x0#6 ++ (d ++ (a ++ (0x0#3 ++ ((BitVec.ofBool p) ++ (s))))))))]
  | .barr h d a p s => prefixWords h ++ [(BitVec.ofBool h.c) ++ (0x1c#5 ++ (h.g ++ (0x1#6 ++ (d ++ (a ++ (0x0#3 ++ ((BitVec.ofBool p) ++ (s))))))))]
  | .barrRem h d a => prefixWords h ++ [(BitVec.ofBool h.c) ++ (0x1c#5 ++ (h.g ++ (0x1#6 ++ (d ++ (a ++ (0xb#6))))))]
  | .barw h d a p s => prefixWords h ++ [(BitVec.ofBool h.c) ++ (0x1c#5 ++ (h.g ++ (0x2#6 ++ (d ++ (a ++ (0x0#3 ++ ((BitVec.ofBool p) ++ (s))))))))]
  | .bart h d a hint p s => prefixWords h ++ [(BitVec.ofBool h.c) ++ (0x1c#5 ++ (h.g ++ (0x3#6 ++ (d ++ (a ++ (hint ++ ((BitVec.ofBool p) ++ (s))))))))]
  | .gbar h d => prefixWords h ++ [(BitVec.ofBool h.c) ++ (0x1c#5 ++ (h.g ++ (0x4#6 ++ (d ++ (0x0#12)))))]
  | .phaseRd h d a p s => prefixWords h ++ [(BitVec.ofBool h.c) ++ (0x1c#5 ++ (h.g ++ (0x5#6 ++ (d ++ (a ++ (0x0#3 ++ ((BitVec.ofBool p) ++ (s))))))))]
  | .phaseArr h d a p s => prefixWords h ++ [(BitVec.ofBool h.c) ++ (0x1c#5 ++ (h.g ++ (0x5#6 ++ (d ++ (a ++ (0x1#3 ++ ((BitVec.ofBool p) ++ (s))))))))]
  | .phaseInit h d a p s => prefixWords h ++ [(BitVec.ofBool h.c) ++ (0x1c#5 ++ (h.g ++ (0x5#6 ++ (d ++ (a ++ (0x2#3 ++ ((BitVec.ofBool p) ++ (s))))))))]
  | .timeoutStarve _ => []
  | .timeoutAcq _ => []
  | .timeoutFewait _ => []
  | .timeoutRendez _ => []
  | .timeoutBoard _ => []
  | .timeoutBarwait _ => []
  | .sleepWake _ => []
  | .acqGrant _ => []
  | .loadDataArrival _ _ => []
  | .storeCompletion _ _ => []
  | .ldfeAccess _ _ _ => []
  | .fenceSysComplete _ => []
  | .windowBoundary _ => []
  | .tlbinvComplete _ => []
  | .orderTokenPass _ => []
  | .ordAtomicApply _ => []
  | .tokenPark _ => []
  | .gridBarrierPark _ => []
  | .barrierWaitComplete _ => []
  | .bartExpiry _ => []
  | .remoteArrivalApply _ _ _ _ _ _ => []
  | .bandGrant _ _ => []
  | .gangDissolve _ => []
  | .enginePassStart _ => []
  | .tileOperationComplete _ _ => []
  | .waveComplete _ _ => []
  | .ringBeat _ => []
  | .boardGrant _ => []
  | .boardingDeadline _ => []
  | .lapBoundary _ => []
  | .governorEvaluation _ => []
  | .dieRangeTake _ _ => []
  | .teamPlacement _ => []
  | .teamPark _ => []
  | .teamResume _ => []
  | .groupFree _ => []
  | .kernelEndSequence _ => []
  | .kernelCancelComplete _ => []
  | .jobSlotGrant _ => []
  | .jobEdgeCheck _ => []
  | .jobGranuleAccess _ => []
  | .jobMark _ => []
  | .jobCopy _ => []
  | .jobFill _ => []
  | .jobConv _ => []
  | .jobGather _ => []
  | .jobReduce _ => []
  | .jobAllgather _ => []
  | .jobBcast _ => []
  | .jobSuffix _ => []
  | .jobPgmoveCard _ => []
  | .jobPgcowCard _ => []
  | .jobPgrefCard _ => []
  | .jobPghandCard _ => []
  | .pageInComplete _ => []
  | .pageCopyComplete _ => []
  | .handoffBytesArrive _ _ _ _ _ _ _ _ _ => []
  | .handoffAck _ => []
  | .mboxSlotWrite _ => []
  | .mboxSlotRead _ _ => []
  | .linkMessageArrival _ _ _ _ _ _ _ _ => []
  | .deviceQueueEntryWrite _ _ => []
  | .doorbellWrite _ _ _ _ => []
  | .launchKernel _ _ => []
  | .launchRing _ _ => []
  | .launchGrant _ _ => []
  | .launchCancel _ _ => []
  | .launchNop _ _ => []
  | .launchBadentry _ _ => []
  | .timeTriggeredFiring _ _ => []
  | .faultRecordWrite _ => []
  | .fqciWrite _ _ _ => []
  | .resolveResume _ _ => []
  | .resolveCancel _ _ => []
  | .bind _ _ => []
  | .unbind _ _ => []
  | .save _ _ => []
  | .saveComplete _ => []
  | .restore _ _ _ => []
  | .restoreComplete _ => []
  | .qreload _ _ _ => []
  | .tlbinvRegisterWrite _ _ => []
  | .functionReset _ => []
  | .functionResetComplete _ => []
  | .shareWrite _ _ _ => []
  | .peerTableWrite _ _ => []
  | .linkRetrainRequest _ _ => []
  | .msixUnmask _ _ => []
  | .registerWrite _ _ _ => []
  | .hostWindowRequest _ _ _ _ _ => []
  | .partnerDetected _ => []
  | .trainingEnd _ _ _ _ => []
  | .trainingFailed _ => []
  | .laneLost _ => []
  | .partnerLost _ => []
  | .dieLinkFatalError => []
  | .remoteStoreArrival _ _ _ _ _ _ _ _ _ _ => []
  | .remoteAckArrival _ _ => []
  | .retransmitLimit _ => []
  | .timeSync _ _ => []
  | .packageReset _ _ _ => []
  | .keyload _ _ => []
  | .keyerase _ _ => []
  | .pcap _ => []
  | .fwload _ => []
  | .pstat _ => []
  | .doeUnknownObject _ => []
  | .getVersion _ => []
  | .getCapabilities _ => []
  | .negotiateAlgorithms _ => []
  | .getDigests _ => []
  | .getCertificate _ => []
  | .challenge _ => []
  | .getMeasurements _ => []
  | .keyExchange _ => []
  | .finish _ => []
  | .endSession _ => []
  | .powerInterval _ => []
  | .droop _ => []
  | .supplyRecovery _ => []
  | .peerAbortNotice _ _ => []
  | .peerRefusal _ _ => []

/-- The instruction read from `w`, whose bit 0 is the least significant bit of the first word; the words follow one
another as in a packet (R20). A word with a bad class, function, reserved bit or prefix is refused. -/
def decodeTableWord (nbits w : Nat) : Option Instr :=
  let v := w % 2 ^ nbits
  let g := decodeAt [BitVec.ofNat 32 v, BitVec.ofNat 32 (v / 2 ^ 32), BitVec.ofNat 32 (v / 2 ^ 64)] 0
  if g.bad.contains 3 || g.bad.contains 7 then none else g.instr

end

end Sys2Proof
end

