-- ==== Sys2Proof/Machine/Flags.lean ====
section
/-! DEFINITION. The flags of `xf`, the exceptions that `xen` enables, and the conversion counters (R66, R67, R69 to R71,
R74, R80, R426). -/
namespace Sys2Proof.Machine

/-! ### Flags and enabled exceptions (R66, R426) -/

/-- The flags of a lane's word that are enabled (R426). -/
def Group.enabled (g : Group) (f : BitVec 5) : Bool := f &&& g.xen.extractLsb' 0 5 ≠ 0#5

/-- A float word's results: `f l` gives a lane's flags, `put` writes the lanes that complete. A lane whose flags meet an
enable bit has its result and flags withheld and FPE deferred (R426); `q` sets no flag. -/
def putFloat (c : Wctx) (s : State) (q : Bool) (f : Fin 32 → BitVec 5) (put : Lanes → Group → Group) : State :=
  let trap := if q then 0#32 else lanesWhere fun l => c.lanes.getLsbD l && c.snap.enabled (f l)
  let good := c.lanes &&& ~~~trap
  let s := s.onGrp c.gi fun g =>
    (put good g).onLanes good fun l x => if q then x else { x with xf := x.xf ||| (f l).setWidth 32 }
  s.deferAll c.gi c.pc c.hm false ((lanesOf trap).map fun l => (l.val, cFPE, (f l).toNat, 0))

/-- The issuing lanes that meet an enabled flag (R426). -/
def Group.fpeLanes (g : Group) (issuing : Lanes) (f : Fin 32 → BitVec 5) : Lanes :=
  lanesWhere fun l => issuing.getLsbD l && g.enabled (f l)

/-- Flags set for the lanes that keep theirs (R426). -/
def Group.setFlags (g : Group) (ls : Lanes) (f : Fin 32 → BitVec 5) : Group :=
  g.onLanes ls fun l x => { x with xf := x.xf ||| (f l).setWidth 32 }

/-- The FPE faults of lanes, each with the flags that it would have set. -/
def fpeFaults (ls : Lanes) (f : Fin 32 → BitVec 5) : List LaneFault := (lanesOf ls).map fun l => (l.val, cFPE, (f l).toNat, 0)

/-- Flags set for lanes by a word whose results are written in full: an issuing lane with an enabled flag has FPE
deferred and its flags withheld (R426). -/
def flagLanes (s : State) (gi : Nat) (issuing : Lanes) (pc : Word) (hm : Bool) (f : Fin 32 → BitVec 5) : State :=
  let trap := (s.grp gi).fpeLanes issuing f
  (s.onGrp gi fun g => g.setFlags (~~~trap) f).deferAll gi pc hm false (fpeFaults trap f)

/-- A word's result written to lanes, with its flags (R66, R426): a vector register under a tag. DESIGN CHOICE (log entry 88): the register
takes the tag also where FPE withholds the result of some lanes, which keep their old bits under it. -/
def putFlt (c : Wctx) (s : State) (q : Bool) (d : Nat) (t : Tag) (r : Fin 32 → Word × BitVec 5) : State :=
  putFloat c s q (fun l => (r l).2) fun good g =>
    let old := g.vreg d
    g.setV d (Vector.ofFn fun l => if good.getLsbD l then (r l).1 else old[l]) t

/-- A spatial float result, with the check of R124. -/
def putSpatial (c : Wctx) (s : State) (q : Bool) (d : Nat) (r : Fin 32 → Word × BitVec 5) : Res :=
  if partialHaar c [d] then .raise cDOMAIN 2 else .ok (putFlt c s q d Tag.spatial r)

/-! ### Conversion policy and counters (R67 to R71, R74) -/

/-- The dither phase PH (R73). -/
def Group.ph (g : Group) : Nat := g.dph.toNat % 8

/-- The fields SATC, FTZC and NANC of `cvc`, in the order of R70's details. -/
def cvcFields (x : Word) : List Nat := [x.toNat % 1024, x.toNat / 1024 % 1024, x.toNat / 1048576 % 1024]

/-- What elements add to the fields (R69). -/
def tally (es : List Conv) : List Nat :=
  [es.foldl (fun n e => n + e.sat) 0, es.foldl (fun n e => n + e.ftz) 0, es.foldl (fun n e => n + e.nan) 0]

/-- The lowest detail of a field that an addition would take above T (R70). -/
def overT (x : Word) (add : List Nat) (t : Nat) : Option Nat :=
  (((cvcFields x).zipWith (· + ·) add).mapIdx fun i n => if t < n then i + 1 else 0).find? (· ≠ 0)

/-- The detail of the CONVX that a word's counts raise, if EN is 1 (R70). -/
def Group.convx (g : Group) (es : List Conv) : Option Nat :=
  if g.cvth.getLsbD 10 then overT g.cvc (tally es) (g.cvth.toNat % 1024) else none

/-- Counts added to the fields of a count word, each saturating at 1023 (R67, R69). -/
def addTally (x : Word) (es : List Conv) : Word :=
  match (cvcFields x).zipWith (fun a b => min 1023 (a + b)) (tally es) with
  | [a, b, c] => BitVec.ofNat 32 (a + b * 1024 + c * 1048576)
  | _ => x

/-- The counts added to `cvc`. -/
def Group.addCounts (g : Group) (es : List Conv) : Group := { g with cvc := addTally g.cvc es }

/-- An earlier `acvt` of the group has not retired (R71). -/
def Group.countsDue (g : Group) : Bool :=
  g.ops.any fun o => match o.kind with | .tile _ (.acvt ..) => true | _ => false

/-- PH moves on by 1 modulo 8 (R74). -/
def Group.nextPh (g : Group) : Group := { g with dph := BitVec.ofNat 32 ((g.ph + 1) % 8) }

/-! ### Anchored sums and collisions (R66, R80, R146) -/

/-- ACL and AGX of `xf` from a sum's CLAMP and GNX (R80). -/
def anchorXf (clamp gnx : Bool) : Word := (if clamp then 0x20#32 else 0) ||| (if gnx then 0x40#32 else 0)

/-- Bits of `xf` that no `.q` and no enable touches, set in lanes (R66). -/
def Group.orXf (g : Group) (ls : Lanes) (f : Fin 32 → Word) : Group :=
  g.onLanes ls fun l x => { x with xf := x.xf ||| f l }

end Sys2Proof.Machine
end

