-- ==== Sys2Proof/Machine/LoadStore.lean ====
section
/-! DEFINITION. Loads, stores, full-empty accesses and atomics: classes LD, ST and ATOM (R153 to R176), and the steps in
which their data arrives, their stores complete, a waiting full-empty access is made and an ordered atomic is applied
(R162, R163, R167, R189 to R192). A lane's access takes its place when its word issues, or as soon as the lane's earlier
accesses have theirs (log entry 5). -/
namespace Sys2Proof.Machine

/-! ### Addresses (R27, R153) -/

/-- The space of an address mode. -/
def spaceOf (mode : BitVec 2) : Space := if mode = 1#2 then .sp else if mode = 2#2 then .bb else .gl

/-- The displacement of a LIMM prefix (R36). -/
def dispOf (h : Hdr) : BitVec 64 := match h.limm with | some u => u.signExtend 64 | none => 0

/-- The lanes' addresses. -/
def addrOf (c : Wctx) (h : Hdr) (mode : BitVec 2) (a b : BitVec 6) : PerLane Dword :=
  let x := c.snap.rows a.toNat
  let y := c.snap.rows (a.toNat + 1)
  Vector.ofFn fun l =>
    if mode = 0#2 then c.snap.spair b.toNat + x[l].signExtend 64 + dispOf h
    else if mode = 3#2 then pair x[l] y[l] + (c.snap.sreg b.toNat).signExtend 64 + dispOf h
    else (x[l] + c.snap.sreg b.toNat + (dispOf h).setWidth 32).setWidth 64

/-- The low bytes of a data run, the lowest register first (R161). -/
def dataOf (c : Wctx) (d : BitVec 6) (bytes : Nat) : PerLane (BitVec 128) :=
  let n := if bytes = 16 then 4 else if bytes = 8 then 2 else 1
  let rs := (List.range n).map fun i => c.snap.rows (d.toNat + i)
  Vector.ofFn fun l => BitVec.ofNat 128 ((rs.foldr (fun r acc => r[l].toNat + 2 ^ 32 * acc) 0) % 2 ^ (8 * bytes))

/-! ### Read-modify-write (R172, R176) -/

/-- The new value of a read-modify-write of `n` bits (R172). -/
def AtomFn.apply (f : AtomFn) (n : Nat) (old y z : Nat) : Nat :=
  match f with
  | .add => (old + y) % 2 ^ n
  | .minI => if sx n y < sx n old then y else old
  | .minN => min old y
  | .maxI => if sx n old < sx n y then y else old
  | .maxN => max old y
  | .and => old &&& y
  | .or => old ||| y
  | .xor => old ^^^ y
  | .xchg => y
  | .cas => if old = y then z else old
  | .inc => (old + 1) % 2 ^ n
  | .incb => if old < y then old + 1 else old

/-- A host port has an AtomicOp for the function (R173). -/
def AtomFn.portable : AtomFn → Bool
  | .add => true | .xchg => true | .cas => true | _ => false

/-- `aadd` on the 16 bytes of a cell (R80, R176). -/
def aaddCell (i32 : Bool) (cell : Nat) (term : Word) : Nat :=
  let A := sx 9 (fld cell 104 96)
  let k := anchorAdd A { Cell96.zero with n := BitVec.ofNat 96 (cell % 2 ^ 96) }
    (if i32 then intVal term.toInt else Fmt.f32.val term.toNat)
  let fl := fld cell 114 112 ||| ((if k.clamp then 1 else 0) + (if k.gnx then 2 else 0) + (if k.inv then 4 else 0))
  setFld (setFld cell 95 0 k.n.toNat) 114 112 fl

/-! ### One lane's access -/

/-- The access that an operation makes for each lane. -/
def OpKind.req : OpKind → Option (Req × PerLane Dword)
  | .load n _ sp _ _ _ addr => some ({ space := sp, bytes := n, acc := .r }, addr)
  | .store n sp _ addr _ => some ({ space := sp, bytes := n, acc := .w }, addr)
  | .atom f n sp sys _ _ _ addr _ _ =>
    some ({ space := sp, bytes := n, acc := .a, noPort := sys && !f.portable }, addr)
  | .aadd sp sys _ addr _ => some ({ space := sp, bytes := 16, acc := .a, noPort := sys }, addr)
  | _ => none

/-- The access waits for a full granule (R167). -/
def OpKind.waitsFull : OpKind → Bool
  | .load _ _ _ _ fe _ _ => fe
  | _ => false

/-- A `.sys` atomic on memory behind a host port is made at the port (R173). -/
def portLoc (sys : Bool) : Loc → Loc
  | .gl pa x => if sys && behindPort pa then .gl pa { x with pol := 2 } else .gl pa x
  | loc => loc

/-- The data of an access made at its place, and what a load or atomic returns. -/
def State.perform (s : State) (k : OpKind) (l : Fin 32) (loc : Loc) : State × Option (BitVec 128) :=
  match k with
  | .load n _ _ _ fe clr _ =>
    let (s, bs) := s.readLoc loc n
    (if fe && clr then s.setFe loc false else s, some (BitVec.ofNat 128 (ofBytes bs)))
  | .store n _ fe _ data =>
    let s := s.writeLoc loc (toBytes n data[l].toNat)
    (if fe then s.setFe loc true else s, none)
  | .atom f n _ sys _ _ _ _ y z =>
    let (s, bs) := (if sys then s.toPort loc else s).readLoc (portLoc sys loc) n
    let old := ofBytes bs
    (s.writeLoc (portLoc sys loc) (toBytes n (f.apply (8 * n) old y[l].toNat z[l].toNat)), some (BitVec.ofNat 128 old))
  | .aadd _ sys i32 _ term =>
    let (s, bs) := (if sys then s.toPort loc else s).readLoc (portLoc sys loc) 16
    (s.writeLoc (portLoc sys loc) (toBytes 16 (aaddCell i32 (ofBytes bs) term[l])), none)
  | _ => (s, none)

/-- What a lane's access came to: it still waits, it failed a check of R159, it failed with its data (R160), or it is made. -/
inductive Did where
  | waits
  | fails (cause detail : Nat)
  | late (cause detail : Nat)
  | made (x : Option (BitVec 128))
  deriving DecidableEq, Repr

/-- A lane's part of an operation is over, with what it left. -/
def Op.lane (o : Op) (l : Fin 32) (ea : Dword) (d : Did) : Op :=
  let o := { o with todo := o.todo &&& ~~~(lane1 l) }
  match d with
  | .made (some x) => { o with got := o.got.set l (some x) }
  | .late cause detail => { o with late := o.late ++ [(l.val, cause, detail, ea)] }
  | _ => o

/-- A lane's access tried: the checks of R159, the full-empty wait, a port in training (R468), the failures of R160, the access. -/
def State.tryLane (s : State) (gi : Nat) (o : Op) (l : Fin 32) (checkOnly : Bool) : State × Did :=
  match o.kind.req with
  | none => (s, .waits)
  | some (r, addr) =>
    match s.locate (s.whoOf (s.grp gi)) r addr[l] with
    | (s, .error f) => (s, .fails f.1 f.2)
    | (s, .ok loc) =>
      if checkOnly then (s, .waits)
      else if o.kind.waitsFull && !s.feAt loc then (s, .waits)
      else
        match s.heldFault (s.whoOf (s.grp gi)) loc r.bytes with
        | some f => (s, if f.1 = cHOLD then .waits else .late f.1 f.2)
        | none => let (s, x) := s.perform o.kind l loc; (s, .made x)

/-- The address that a lane of an operation accesses. -/
def Op.ea (o : Op) (l : Fin 32) : Dword := match o.kind.req with | some (_, addr) => addr[l] | none => 0

/-- The granule of a place: its space and number. -/
def Loc.granule : Loc → Nat × Nat
  | .gl pa _ => (0, pa / 16)
  | .sp t off => (1 + t, off / 16)
  | .bb at_ => (0, 2 ^ 60 + at_ / 16)

/-- Two addresses of one operation name one granule. -/
def State.sameGranule (s : State) (u : Who) (r : Req) (a b : Dword) : Bool :=
  a.toNat % 65536 / 16 = b.toNat % 65536 / 16 &&
    match (s.locate u r a).2, (s.locate u r b).2 with
    | .ok x, .ok y => x.granule = y.granule
    | _, _ => false

/-- A lane of an operation may make its access: nothing of the lane's program order stands before it (R184), and no lower lane of the
word has an access to the same granule still to make (R165, R168). -/
def State.laneTurn (s : State) (gi : Nat) (o : Op) (l : Fin 32) : Bool :=
  (s.grp gi).turn o.id l &&
    match o.kind.req with
    | none => true
    | some (r, addr) => (lanesOf o.todo).all fun k => !(k < l) || !s.sameGranule (s.whoOf (s.grp gi)) r addr[k] addr[l]

/-- What a read that meets a poisoned tile finds of it (R276). -/
def State.tileNote (s : State) (gi : Nat) (l : Fin 32) (ea : Dword) : Did → List TileNote
  | .late cause _ => if cause = cRINGPOISON then [(l.val, ringWords s (s.grp gi) ea.toNat)] else []
  | _ => []

/-- A lane's access made when its turn has come; `check` tries only R159. The failures of R159 are collected. -/
def State.stepLane (gi id : Nat) (check : Bool) (acc : State × List (Nat × Nat × Nat × Dword)) (l : Fin 32) :
    State × List (Nat × Nat × Nat × Dword) :=
  match (acc.1.grp gi).op? id with
  | none => acc
  | some o =>
    if !o.todo.getLsbD l then acc
    else
      match acc.1.tryLane gi o l (check || !acc.1.laneTurn gi o l) with
      | (s, .waits) => (s, acc.2)
      | (s, d) =>
        let s := s.onGrp gi fun g => g.onOp id fun o => { o.lane l (o.ea l) d with notes := o.notes ++ s.tileNote gi l (o.ea l) d }
        match d with
        | .fails cause detail => (s, acc.2 ++ [(l.val, cause, detail, o.ea l)])
        | _ => (s, acc.2)

/-- Lanes of an operation in ascending order (R165). -/
def State.stepLanes (s : State) (gi id : Nat) (check : Bool) (ls : List (Fin 32)) :
    State × List (Nat × Nat × Nat × Dword) :=
  ls.foldl (State.stepLane gi id check) (s, [])

/-! ### The order token (R188 to R192) -/

/-- A group's place in token order (R188). -/
def State.tokenPos (s : State) (g : Group) : Nat :=
  match s.kernels[g.kernel]?, s.teams[g.team]? with
  | some k, some t => t.idx * 2 ^ k.h.w1 + g.idx
  | _, _ => 0

/-- The group holds its kernel's token. -/
def State.holdsToken (s : State) (g : Group) : Bool :=
  match s.kernels[g.kernel]? with | some k => k.h.det && k.token = s.tokenPos g | none => false

/-- The lanes whose replay of an ordered atomic every later ordered access of the group waits for (R192). -/
def Group.owed (g : Group) : Lanes := g.redo &&& ~~~(g.inState .exited)

/-- The ordered atomic of a group whose lanes are applied next: the first that is not applied in full, or, where lanes have an atomic to
replay, the first of theirs (R189, R192). -/
def Group.nextOrd (g : Group) : Option Op :=
  g.ops.find? fun o => o.kind.ordered && o.todo ≠ 0#32 && (g.owed = 0#32 || (o.pc == g.redoPc && o.todo &&& g.owed ≠ 0#32))

/-- A lane that fails an ordered atomic (R192): it is faulted, the lanes that are not applied are aborted, and all of them return to
the atomic; before the replay of those at or above it no later ordered access is made. -/
def State.ordAbort (s : State) (gi : Nat) (o : Op) (l : Fin 32) (cause detail : Nat) : State :=
  let rest := (lanesOf o.todo).filter fun x => x ≠ l
  let up := lanesWhere fun x => o.todo.getLsbD x && l ≤ x
  let s := s.onGrp gi fun g =>
    { g.onOp o.id (fun o => { o with todo := 0 }) with redo := g.owed ||| up, redoPc := o.pc, ordCause := cause }
  s.deferAll gi o.pc o.hm true ((l.val, cause, detail, o.ea l) :: rest.map fun x => (x.val, cTOKEN, 2, o.ea x)) [] true

/-- The lanes of an ordered atomic in the order in which they are applied (R189): lanes that replay it come before any other lane that issues
it with them (R192). -/
def Group.ordLanes (g : Group) (o : Op) : List (Fin 32) :=
  if o.pc == g.redoPc && o.todo &&& g.owed ≠ 0#32 then lanesOf (o.todo &&& g.owed) else lanesOf o.todo

/-- The next lane of the group's next ordered atomic is applied, where the group holds the token (R189); whether anything was done. -/
def State.ordStep (s : State) (gi : Nat) : State × Bool :=
  let g := s.grp gi
  match g.nextOrd with
  | none => (s, false)
  | some o =>
    if !(s.holdsToken g && s.onCore gi) then (s, false)
    else
      match g.ordLanes o with
      | [] => (s, false)
      | l :: _ =>
        if !g.turn o.id l then (s, false)
        else
          match s.tryLane gi o l false with
          | (s, .waits) => (s, false)
          | (s, .fails cause detail) => (s.ordAbort gi o l cause detail, true)
          | (s, .late cause detail) => (s.ordAbort gi o l cause detail, true)
          | (s, d) =>
            (s.onGrp gi fun g => { g.onOp o.id (fun o => o.lane l (o.ea l) d) with redo := if o.pc == g.redoPc then g.redo &&& ~~~(lane1 l) else g.redo },
              true)

/-! ### The accesses of a word -/

/-- Faults that the accesses of an operation have found (R6). Those of lanes that have exited wait for the operation's end, where they make
its one record (R493). -/
def State.deferOp (s : State) (gi : Nat) (o : Op) (fs : List (Nat × Nat × Nat × Dword)) : State :=
  if o.hm then s.deferAll gi o.pc true false fs
  else
    let gone := s.goneLanes gi
    let s := s.deferAll gi o.pc false false (fs.filter fun x => !gone.getLsbD x.1)
    s.onGrp gi fun g => g.onOp o.id fun x => { x with late := x.late ++ fs.filter fun x => gone.getLsbD x.1 }

/-- The accesses of an operation that has just issued. An `ldfe` lane whose granule is empty waits for its own step; an ordered atomic
is applied now where the group holds the token, and else when it comes (R189). -/
def State.issueAccesses (s : State) (gi id : Nat) : State :=
  match (s.grp gi).op? id with
  | none => s
  | some o =>
    if o.kind.ordered then (List.range 32).foldl (fun s _ => (s.ordStep gi).1) s
    else
      let (s, fs) := s.stepLanes gi id false (lanesOf o.todo)
      s.deferOp gi o fs

/-- The accesses that no longer wait for an earlier access of their lane, operation by operation. -/
def State.pump (s : State) (gi : Nat) : State :=
  (s.grp gi).ops.foldl (fun s o =>
    if !o.kind.accesses || o.kind.ordered || o.kind.waitsFull || o.todo = 0#32 then s
    else
      let (s, fs) := s.stepLanes gi o.id false (lanesOf o.todo)
      s.deferOp gi o fs) s

/-- Some issuing lane has an access of its own still to make, for an earlier word or an earlier slot of the chain: an effect of the whole
group waits for it (R32, R184; log entry 53). -/
def blockedAccess (c : Wctx) : Bool :=
  c.now.ops.any fun o => o.unplaced &&& c.lanes ≠ 0#32

/-- The group's accesses before an operation have their places: those of its lanes, and of its earlier words on slots, bands and catalogue
entries (R184, R224, R231, R251). -/
def Group.accessed (g : Group) (id : Nat) : Bool := g.ops.all fun p => id ≤ p.id || p.done || p.unplaced = 0#32

/-- A band word reads or writes the scratchpad. -/
def TileFn.image : TileFn → Bool
  | .acld _ => true
  | .acst _ => true
  | _ => false

/-- Some lane of the group, or a word on a band, has an access still to make, of an earlier word or an earlier slot of the chain: all
accesses of `stw` and `ldw` follow it (R251; log entry 53). -/
def Wctx.groupBlocked (c : Wctx) : Bool := !c.now.accessed c.now.nextOp

/-- An access of a word before the chain is still to be made. -/
def Wctx.priorBlocked (c : Wctx) : Bool := !c.now.accessed c.snap.nextOp

/-- What holds the issue of a word with an effect of the whole group: an ordered atomic of its own chain, which waits for the token, or
another access. -/
def Wctx.blockKind (c : Wctx) : StallKind := if c.ownOrd then .order else .side

/-- A new memory operation of the word, with its accesses. -/
def State.startMem (s : State) (c : Wctx) (cls : Cls) (k : OpKind) (run : List Nat) : State :=
  let id := (s.grp c.gi).nextOp
  let s := s.start c cls c.lanes k run []
  let s := s.onGrp c.gi fun g => run.foldl (fun g n => g.setV n (g.vreg n) Tag.spatial) g
  s.issueAccesses c.gi id

/-! ### LD and ST -/

/-- A load word (R162, R167). -/
def loadWord (h : Hdr) (mode : BitVec 2) (d a b : BitVec 6) (bytes : Nat) (signed fe clr : Bool) (s : State) : State :=
  word (specLd h bytes mode d a b) s fun c s =>
    if partialHaar c (dataRun bytes d) then .raise cDOMAIN 2
    else .ok (s.startMem c .ld (.load bytes signed (spaceOf mode) d.toNat fe clr (addrOf c h mode a b)) (dataRun bytes d))

/-- A store word (R163, R169). -/
def storeWord (h : Hdr) (mode : BitVec 2) (d a b : BitVec 6) (bytes : Nat) (fe : Bool) (s : State) : State :=
  word (specSt h bytes mode d a b) s fun c s =>
    .ok (s.startMem c .st (.store bytes (spaceOf mode) fe (addrOf c h mode a b) (dataOf c d bytes)) [])

/-- `ld.n8` (R162). -/
def execLdN8 (h : Hdr) (mode : BitVec 2) (d a b : BitVec 6) (s : State) : Out :=
  .next (loadWord h mode d a b 1 false false false s)

/-- `ld.i8` (R162). -/
def execLdI8 (h : Hdr) (mode : BitVec 2) (d a b : BitVec 6) (s : State) : Out :=
  .next (loadWord h mode d a b 1 true false false s)

/-- `ld.n16` (R162). -/
def execLdN16 (h : Hdr) (mode : BitVec 2) (d a b : BitVec 6) (s : State) : Out :=
  .next (loadWord h mode d a b 2 false false false s)

/-- `ld.i16` (R162). -/
def execLdI16 (h : Hdr) (mode : BitVec 2) (d a b : BitVec 6) (s : State) : Out :=
  .next (loadWord h mode d a b 2 true false false s)

/-- `ld.32` (R162). -/
def execLd32 (h : Hdr) (mode : BitVec 2) (d a b : BitVec 6) (s : State) : Out :=
  .next (loadWord h mode d a b 4 false false false s)

/-- `ld.64` (R162). -/
def execLd64 (h : Hdr) (mode : BitVec 2) (d a b : BitVec 6) (s : State) : Out :=
  .next (loadWord h mode d a b 8 false false false s)

/-- `ld.128` (R162). -/
def execLd128 (h : Hdr) (mode : BitVec 2) (d a b : BitVec 6) (s : State) : Out :=
  .next (loadWord h mode d a b 16 false false false s)

/-- `ldfe.32` (R167). -/
def execLdfe32 (h : Hdr) (mode : BitVec 2) (d a b : BitVec 6) (s : State) : Out :=
  .next (loadWord h mode d a b 4 false true false s)

/-- `ldfe.64` (R167). -/
def execLdfe64 (h : Hdr) (mode : BitVec 2) (d a b : BitVec 6) (s : State) : Out :=
  .next (loadWord h mode d a b 8 false true false s)

/-- `ldfe.128` (R167). -/
def execLdfe128 (h : Hdr) (mode : BitVec 2) (d a b : BitVec 6) (s : State) : Out :=
  .next (loadWord h mode d a b 16 false true false s)

/-- `ldfe.clr.32` (R167). -/
def execLdfeClr32 (h : Hdr) (mode : BitVec 2) (d a b : BitVec 6) (s : State) : Out :=
  .next (loadWord h mode d a b 4 false true true s)

/-- `ldfe.clr.64` (R167). -/
def execLdfeClr64 (h : Hdr) (mode : BitVec 2) (d a b : BitVec 6) (s : State) : Out :=
  .next (loadWord h mode d a b 8 false true true s)

/-- `ldfe.clr.128` (R167). -/
def execLdfeClr128 (h : Hdr) (mode : BitVec 2) (d a b : BitVec 6) (s : State) : Out :=
  .next (loadWord h mode d a b 16 false true true s)

/-- `st.8` (R163). -/
def execSt8 (h : Hdr) (mode : BitVec 2) (d a b : BitVec 6) (s : State) : Out :=
  .next (storeWord h mode d a b 1 false s)

/-- `st.16` (R163). -/
def execSt16 (h : Hdr) (mode : BitVec 2) (d a b : BitVec 6) (s : State) : Out :=
  .next (storeWord h mode d a b 2 false s)

/-- `st.32` (R163). -/
def execSt32 (h : Hdr) (mode : BitVec 2) (d a b : BitVec 6) (s : State) : Out :=
  .next (storeWord h mode d a b 4 false s)

/-- `st.64` (R163). -/
def execSt64 (h : Hdr) (mode : BitVec 2) (d a b : BitVec 6) (s : State) : Out :=
  .next (storeWord h mode d a b 8 false s)

/-- `st.128` (R163). -/
def execSt128 (h : Hdr) (mode : BitVec 2) (d a b : BitVec 6) (s : State) : Out :=
  .next (storeWord h mode d a b 16 false s)

/-- `stfe.32` (R169). -/
def execStfe32 (h : Hdr) (mode : BitVec 2) (d a b : BitVec 6) (s : State) : Out :=
  .next (storeWord h mode d a b 4 true s)

/-- `stfe.64` (R169). -/
def execStfe64 (h : Hdr) (mode : BitVec 2) (d a b : BitVec 6) (s : State) : Out :=
  .next (storeWord h mode d a b 8 true s)

/-- `stfe.128` (R169). -/
def execStfe128 (h : Hdr) (mode : BitVec 2) (d a b : BitVec 6) (s : State) : Out :=
  .next (storeWord h mode d a b 16 true s)

/-! ### ATOM -/

/-- A lane's operand of an atomic: a vector or scalar register, or a pair of them in the 64-bit form (R171). -/
def atomArg (c : Wctx) (w sc : Bool) (r : BitVec 6) : PerLane Dword :=
  let lo := c.snap.rows r.toNat
  let hi := c.snap.rows (r.toNat + 1)
  Vector.ofFn fun l =>
    if sc then (if w then c.snap.spair r.toNat else (c.snap.sreg r.toNat).setWidth 64)
    else if w then pair lo[l] hi[l] else lo[l].setWidth 64

/-- The group's kernel runs in deterministic mode (R188). -/
def State.det (s : State) (g : Group) : Bool := match s.kernels[g.kernel]? with | some k => k.h.det | none => false

/-- An atomic (R171, R172, R174). -/
def atomWord (f : AtomFn) (h : Hdr) (m : Bool) (d a b : BitVec 6) (mode : BitVec 2) (sr : BitVec 6) (scope : BitVec 2)
    (w rt : Bool) (cr : BitVec 6) (bs cs : Bool) (s : State) : State :=
  let takesB := f != .inc
  let takesC := f = .cas
  let run := if rt then (if w then pairOf d else [d.toNat]) else []
  word (specAtom h d a b mode sr w rt bs takesB takesC cs cr) s fun c s =>
    let ord := m && s.det c.snap
    if partialHaar c run then .raise cDOMAIN 2
    else if ord && c.snap.tokenDone then .raise cTOKEN 1
    else
      .ok (s.startMem c (if rt then .ld else .st)
        (.atom f (if w then 8 else 4) (spaceOf mode) (scope = 3#2) ord rt d.toNat (addrOf c h mode a sr)
          (if takesB then atomArg c w bs b else Vector.replicate 32 0)
          (if takesC then atomArg c w cs cr else Vector.replicate 32 0)) run)

/-- `atom.add` (R172). -/
def execAtomAdd (h : Hdr) (m : Bool) (d a b : BitVec 6) (mode : BitVec 2) (sr : BitVec 6) (scope : BitVec 2)
    (w rt bs : Bool) (s : State) : Out :=
  .next (atomWord .add h m d a b mode sr scope w rt 0#6 bs false s)

/-- `atom.minI` (R172). -/
def execAtomMinI (h : Hdr) (m : Bool) (d a b : BitVec 6) (mode : BitVec 2) (sr : BitVec 6) (scope : BitVec 2)
    (w rt bs : Bool) (s : State) : Out :=
  .next (atomWord .minI h m d a b mode sr scope w rt 0#6 bs false s)

/-- `atom.minN` (R172). -/
def execAtomMinN (h : Hdr) (m : Bool) (d a b : BitVec 6) (mode : BitVec 2) (sr : BitVec 6) (scope : BitVec 2)
    (w rt bs : Bool) (s : State) : Out :=
  .next (atomWord .minN h m d a b mode sr scope w rt 0#6 bs false s)

/-- `atom.maxI` (R172). -/
def execAtomMaxI (h : Hdr) (m : Bool) (d a b : BitVec 6) (mode : BitVec 2) (sr : BitVec 6) (scope : BitVec 2)
    (w rt bs : Bool) (s : State) : Out :=
  .next (atomWord .maxI h m d a b mode sr scope w rt 0#6 bs false s)

/-- `atom.maxN` (R172). -/
def execAtomMaxN (h : Hdr) (m : Bool) (d a b : BitVec 6) (mode : BitVec 2) (sr : BitVec 6) (scope : BitVec 2)
    (w rt bs : Bool) (s : State) : Out :=
  .next (atomWord .maxN h m d a b mode sr scope w rt 0#6 bs false s)

/-- `atom.and` (R172). -/
def execAtomAnd (h : Hdr) (m : Bool) (d a b : BitVec 6) (mode : BitVec 2) (sr : BitVec 6) (scope : BitVec 2)
    (w rt bs : Bool) (s : State) : Out :=
  .next (atomWord .and h m d a b mode sr scope w rt 0#6 bs false s)

/-- `atom.or` (R172). -/
def execAtomOr (h : Hdr) (m : Bool) (d a b : BitVec 6) (mode : BitVec 2) (sr : BitVec 6) (scope : BitVec 2)
    (w rt bs : Bool) (s : State) : Out :=
  .next (atomWord .or h m d a b mode sr scope w rt 0#6 bs false s)

/-- `atom.xor` (R172). -/
def execAtomXor (h : Hdr) (m : Bool) (d a b : BitVec 6) (mode : BitVec 2) (sr : BitVec 6) (scope : BitVec 2)
    (w rt bs : Bool) (s : State) : Out :=
  .next (atomWord .xor h m d a b mode sr scope w rt 0#6 bs false s)

/-- `atom.xchg` (R172). -/
def execAtomXchg (h : Hdr) (m : Bool) (d a b : BitVec 6) (mode : BitVec 2) (sr : BitVec 6) (scope : BitVec 2)
    (w rt bs : Bool) (s : State) : Out :=
  .next (atomWord .xchg h m d a b mode sr scope w rt 0#6 bs false s)

/-- `atom.inc` (R172). -/
def execAtomInc (h : Hdr) (m : Bool) (d a b : BitVec 6) (mode : BitVec 2) (sr : BitVec 6) (scope : BitVec 2)
    (w rt bs : Bool) (s : State) : Out :=
  .next (atomWord .inc h m d a b mode sr scope w rt 0#6 bs false s)

/-- `atom.incb` (R172). -/
def execAtomIncb (h : Hdr) (m : Bool) (d a b : BitVec 6) (mode : BitVec 2) (sr : BitVec 6) (scope : BitVec 2)
    (w rt bs : Bool) (s : State) : Out :=
  .next (atomWord .incb h m d a b mode sr scope w rt 0#6 bs false s)

/-- `atom.cas` (R172). -/
def execAtomCas (h : Hdr) (m : Bool) (d a b : BitVec 6) (mode : BitVec 2) (sr : BitVec 6) (scope : BitVec 2)
    (w rt : Bool) (cr : BitVec 6) (bs cs : Bool) (s : State) : Out :=
  .next (atomWord .cas h m d a b mode sr scope w rt cr bs cs s)

/-- `aadd` (R176). -/
def execAadd (h : Hdr) (a b : BitVec 6) (mode : BitVec 2) (sr : BitVec 6) (scope : BitVec 2) (w bs : Bool) (s : State) :
    Out :=
  .next (word (specAtom h 0#6 a b mode sr false false bs true false false 0#6) s fun c s =>
    .ok (s.startMem c .st (.aadd (spaceOf mode) (scope = 3#2) w (addrOf c h mode a sr)
      ((atomArg c false bs b).map fun x => lowW x)) []))

/-- The registers of `ordend`. -/
def specOrdend (h : Hdr) : WordSpec := { h := h, pipe := .m, side := true }

/-- `ordend` (R175): the token-done mark; nothing outside deterministic mode. -/
def execOrdend (h : Hdr) (s : State) : Out :=
  .next (word (specOrdend h) s fun c s =>
    .ok (if s.det c.snap then s.onGrp c.gi fun g => { g with tokenDone := true } else s))

/-! ### Data, completion, waiting accesses -/

/-- The registers of a load or atomic, written in the lanes whose data came (R162). -/
def Group.land (g : Group) (o : Op) : Group :=
  let put := fun (g : Group) (n : Nat) (f : Nat → Nat) =>
    g.putV n (lanesWhere fun l => (o.got[l]).isSome) fun l =>
      BitVec.ofNat 32 (f (match o.got[l] with | some x => x.toNat | none => 0))
  let run := fun (g : Group) (d bytes : Nat) =>
    (List.range (bytes / 4)).foldl (fun g i => put g (d + i) fun x => x / 2 ^ (32 * i)) g
  match o.kind with
  | .load n sg _ d _ _ _ => if 4 ≤ n then run g d n else put g d fun x => if sg then wrapN 32 (sx (8 * n) x) else x
  | .atom _ n _ _ _ rt d _ _ _ => if rt then run g d n else g
  | .regs d vals => (d.zip vals).foldl (fun g p => g.setS p.1 p.2) g
  | _ => g

/-- An operation whose accesses are all made: its late faults are deferred, its registers written, and it completes
(R44, R160, R162); where some are not, those that nothing stands before any more are made (R184). -/
def State.arrive (s : State) (gi id : Nat) : State :=
  match (s.grp gi).op? id with
  | none => s
  | some o =>
    if o.done then s
    else if o.todo ≠ 0#32 then (if s.onCore gi then (s.pump gi).settle gi false else s)
    else
      let s := s.onGrp gi fun g => g.land o
      let s := s.deferAll gi o.pc o.hm false (sortLe (fun a b => decide (a.1 ≤ b.1)) o.late) o.notes
      s.complete gi id

/-- `LOAD_DATA_ARRIVAL` (R162): of an `ld`-counted operation whose data has its place. -/
def execLoadDataArrival (gi id : Nat) (s : State) : Out :=
  .next (match (s.grp gi).op? id with
    | some o => match o.kind with
      | .load .. => s.arrive gi id
      | .atom .. => if o.cls = .ld then s.arrive gi id else s
      | .regs .. => s.arrive gi id
      | _ => s
    | none => s)

/-- `STORE_COMPLETION` (R163): of an `st`-counted operation whose writes have their places. -/
def execStoreCompletion (gi id : Nat) (s : State) : Out :=
  .next (match (s.grp gi).op? id with
    | some o => match o.kind with
      | .store .. => s.arrive gi id
      | .atom .. => if o.cls = .st then s.arrive gi id else s
      | .aadd .. => s.arrive gi id
      | .posted => s.arrive gi id
      | _ => s
    | none => s)

/-- The lanes whose accesses are made with one that waited for a full granule: of an `ldfe` without `.clr` every lane of the word on that
granule (R168). -/
def State.fullLanes (s : State) (gi : Nat) (o : Op) (l : Fin 32) : List (Fin 32) :=
  match o.kind, o.kind.req with
  | .load _ _ _ _ _ clr _, some (r, addr) =>
    if clr then [l] else (lanesOf o.todo).filter fun k => k = l || s.sameGranule (s.whoOf (s.grp gi)) r addr[k] addr[l]
  | _, _ => [l]

/-- `LDFE_ACCESS` (R167, R168): a lane's access is made once its granule is full, and the accesses that waited behind it
follow. -/
def execLdfeAccess (gi id : Nat) (l : Fin 32) (s : State) : Out :=
  .next (match (s.grp gi).op? id with
    | some o =>
      if o.kind.waitsFull && o.todo.getLsbD l && s.laneTurn gi o l && s.onCore gi then
        let (s, fs) := s.stepLanes gi id false (s.fullLanes gi o l)
        let s := s.deferOp gi o fs
        (s.pump gi).settle gi false
      else s
    | none => s)

/-! ### Ordered atomics applied (R188, R189) -/

/-- `ORD_ATOMIC_APPLY` (R189): the least lane of the group's next ordered atomic; what waited behind it follows. -/
def execOrdAtomicApply (gi : Nat) (s : State) : Out :=
  .next (match s.ordStep gi with
    | (t, true) => (t.pump gi).settle gi false
    | (t, false) => t)

/-- The kernel's groups, in token order, number this many. -/
def Kernel.tokenEnd (k : Kernel) : Nat := k.h.nteam * 2 ^ k.h.w1

end Sys2Proof.Machine
end

