-- ==== Sys2Proof/Machine/MemCtl.lean ====
section
/-! DEFINITION. Class MEMCTL: locks, prefetch, fences, `waitc`, extended registers (R92, R177 to R182, R47), and the steps
that end their waits. -/
namespace Sys2Proof.Machine

/-! ### Locks (R177 to R179) -/

/-- A lock's page is not unmapped, nor mapped elsewhere, since it was locked (R178); an entry that cannot be read, or whose key is not
loaded, unmaps nothing. -/
def State.lockHeld (s : State) (c : Nat) (l : Nat × Nat) : Bool :=
  match s.walk (s.ctx c).d.fn (l.1 * 512) 4 (s.ctx c).d.root with
  | .ok x => (x.pa + l.1 * 512 % x.size) / 512 = l.2
  | .error f => f = (cMACHINE, 1) || f = (cPAGE, 4)

/-- The locks of a context whose pages are still mapped where they were locked. -/
def State.locksOf (s : State) (c : Nat) : List (Nat × Nat) := (s.ctx c).locks.filter (s.lockHeld c)

/-- The superblocks of a range with their mappings. -/
def State.lockRange (s : State) (c va n : Nat) : List (Nat × Option Xlat) :=
  (List.range n).map fun i =>
    let a := (va + i * 512) % 2 ^ 64
    (a, match canonical a, s.walk (s.ctx c).d.fn a 4 (s.ctx c).d.root with
        | true, .ok x => some x
        | _, _ => none)

/-- Virtual and physical superblocks of a range, each physical one once, where it is mapped. -/
def lockPairs (rs : List (Nat × Option Xlat)) : List (Nat × Nat) :=
  (rs.filterMap fun p => p.2.map fun x => (p.1 / 512, (x.pa + p.1 % x.size) / 512)).foldl
    (fun ls p => if ls.any fun q => q.2 = p.2 then ls else ls ++ [p]) []

/-- Distinct physical superblocks that any context holds locked. -/
def State.allLocks (s : State) : List Nat :=
  ((List.range s.ctxs.length).flatMap fun c => (s.locksOf c).map Prod.snd).dedup

/-- The status of a `lock` and the locks the context holds after it (R177, R178): a physical superblock counts once. -/
def State.lockOutcome (s : State) (c va n : Nat) : Nat × List (Nat × Nat) :=
  let own := s.locksOf c
  if va % 512 ≠ 0 || n = 0 || 4096 < n then (5, own)
  else
    let rs := s.lockRange c va n
    if rs.any fun p => match p.2 with | some x => !x.r | none => true then (4, own)
    else if rs.any fun p => match p.2 with | some x => x.pol ≠ 0 | none => true then (3, own)
    else
      let new := lockPairs rs
      let after := own ++ new.filter fun p => !own.any fun q => q.2 = p.2
      if (s.ctx c).d.lkq < after.length then (1, own)
      else
        let all := (s.allLocks ++ new.map Prod.snd).dedup
        if all.any fun b => 8 < (all.filter fun x => l2Set x = l2Set b).length then (2, own) else (0, after)

/-- Locks of a context dropped: those taken at an address of a range of superblocks, or on a superblock that the range maps (R178,
R179). -/
def State.dropLocks (s : State) (c va n : Nat) : State :=
  let out := (lockPairs (s.lockRange c va n)).map Prod.snd
  s.onCtx c fun x => { x with locks := x.locks.filter fun l => !((va / 512 ≤ l.1 && l.1 < va / 512 + n) || out.contains l.2) }

/-- An invalidation drops a context's locks in its range whose pages are no longer mapped where they were locked (R178, R390; log entry
59). -/
def State.dropUnmapped (s : State) (c : Nat) (range : Option (Nat × Nat)) : State :=
  let away := fun (l : Nat × Nat) => match range with
    | none => false
    | some (lo, n) => l.1 * 512 < lo || lo + n ≤ l.1 * 512
  s.onCtx c fun x => { x with locks := x.locks.filter fun l => s.lockHeld c l || away l }

/-- What a word of the chain that reads the locks sees: those held before it (R32). -/
def State.keepLocks (s : State) (ls : List (Nat × Nat)) : State := { s with iss := { s.iss with locks := some ls.length } }

/-- The registers of `lock` and `unlock`. -/
def specLock (h : Hdr) (d a b : BitVec 6) : WordSpec := specSc h .m (pairOf a ++ [b.toNat]) [d.toNat] (some .ld) false
def specUnlock (h : Hdr) (a b : BitVec 6) : WordSpec := specSc h .m (pairOf a ++ [b.toNat]) [] (some .st) false

/-- `lock` (R177): all or nothing; the status is written when the operation completes. -/
def execLock (h : Hdr) (d a b : BitVec 6) (s : State) : Out :=
  .next (word (specLock h d a b) s fun c s =>
    let cx := s.ctxOf c.snap
    let r := s.lockOutcome cx (c.snap.spair a.toNat).toNat (c.snap.sreg b.toNat).toNat
    let s := (s.onCtx cx fun x => { x with locks := r.2 }).keepLocks (s.locksOf cx)
    .ok (s.start c .ld 0 (.regs [d.toNat] [BitVec.ofNat 32 r.1]) [] [d.toNat]))

/-- `unlock` (R179). DESIGN CHOICE (log entry 81): an address that is no multiple of 512 is rounded down, and any count is taken. -/
def execUnlock (h : Hdr) (a b : BitVec 6) (s : State) : Out :=
  .next (word (specUnlock h a b) s fun c s =>
    let cx := s.ctxOf c.snap
    let s := (s.keepLocks (s.locksOf cx)).dropLocks cx ((c.snap.spair a.toNat).toNat / 512 * 512) (c.snap.sreg b.toNat).toNat
    .ok (s.start c .st 0 .posted [] []))

/-! ### Prefetch and fences (R180 to R182) -/

/-- The registers of `pref`. -/
def specPref (h : Hdr) (m : Bool) (a b : BitVec 6) : WordSpec :=
  { h := h, pipe := .m, vr := if m then pairOf a else [a.toNat], sr := if m then [b.toNat] else pairOf b }

/-- `pref` (R180): it changes cost only. -/
def execPref (h : Hdr) (m : Bool) (_l : BitVec 2) (a b : BitVec 6) (s : State) : Out :=
  .next (word (specPref h m a b) s fun _ s => .ok s)

/-- The registers of a word that names none. -/
def specBare (h : Hdr) (p : Pipe) : WordSpec := { h := h, pipe := p }

/-- Every store and atomic that the group issued before operation `upto` has completed (R181, R389). -/
def Group.storesDone (g : Group) (upto : Nat) : Bool :=
  g.ops.all fun o => upto ≤ o.id || o.done || match o.kind with
    | .atom .. => false | .store .. => false | .aadd .. => false | _ => true

/-- `fence.sys` (R181): held until `FENCE_SYS_COMPLETE`. -/
def execFenceSys (h : Hdr) (s : State) : Out :=
  .next (word (specBare h .m) s fun c s =>
    if c.ready (.fenceSys 0) then .ok s else .hold (.fenceSys c.snap.nextOp))

/-- The window of a context at the time of the clock (R181, R199, R434). -/
def State.windowOf (s : State) (c : Nat) : Nat := s.clock.ns / (1000 * 2 ^ (s.ctx c).d.wink)

/-- The window in which the wait of a `fence.win` began: a retry keeps it (R181, R202). -/
def Wctx.firstWindow (c : Wctx) (now : Nat) : Nat :=
  match (if c.hm then c.snap.hstall else c.snap.stall) with
  | some t => if t.pc == c.pc then (match t.kind with | .fenceWin n => n | _ => now) else now
  | none => now

/-- `fence.win` (R181): held until the context's next window starts. -/
def execFenceWin (h : Hdr) (s : State) : Out :=
  .next (word (specBare h .m) s fun c s =>
    let now := s.windowOf (s.ctxOf c.snap)
    let n := c.firstWindow now
    if c.ready (.fenceWin 0) || n < now then .ok s else .hold (.fenceWin n))

/-- `FENCE_SYS_COMPLETE` (R181): once the group's earlier stores and atomics have completed, the lines they left dirty are
written back; the wait ends when the ports have reported them written. -/
def execFenceSysComplete (gi : Nat) (s : State) : Out :=
  .next (match (s.grp gi).cur with
    | some t => match t.kind with
      | .fenceSys upto =>
        if (s.grp gi).storesDone upto then
          let mine := fun (o : Owner) => o = (s.whoOf (s.grp gi)).owner
          let s := s.writeBack mine
          if s.flushed mine then s.onGrp gi Group.ended else s
        else s
      | _ => s
    | none => s)

/-- `WINDOW_BOUNDARY` (R181): the groups of a context that wait for a window later than the one they issued in go on. -/
def execWindowBoundary (cx : Nat) (s : State) : Out :=
  .next { s with groups := s.groups.map fun g =>
    match g.cur with
    | some t => match t.kind with
      | .fenceWin n => if s.ctxOf g = cx && n < s.windowOf cx then g.ended else g
      | _ => g
    | none => g }

/-! ### `waitc` (R47) -/

/-- The counters are at or below the bounds. -/
def Group.within (g : Group) (a b c e : Nat) : Bool := g.cnt .ld ≤ a && g.cnt .st ≤ b && g.cnt .cp ≤ c && g.cnt .tl ≤ e

/-- The pending mark of an operation whose retirement the bounds guarantee, given what had issued before the chain, is cleared (R45,
R47). -/
def Group.clearPending (g : Group) (issued : Vector Nat 4) (bound : Cls → Nat) : Group :=
  let f := fun (p : Option (Cls × Nat)) =>
    match p with
    | some (k, q) => if q + bound k < issued.getD k.idx 0 then none else p
    | none => none
  { g with pendV := g.pendV.map f, pendS := g.pendS.map f }

/-- The bounds by counter. -/
def boundOf (a b c e : Nat) : Cls → Nat
  | .ld => a | .st => b | .cp => c | .tl => e

/-- `waitc` (R47). -/
def execWaitc (h : Hdr) (ld st cp tl : BitVec 6) (s : State) : Out :=
  .next (word (specBare h .m) s fun c s =>
    if c.snap.within ld.toNat st.toNat cp.toNat tl.toNat then
      .ok (s.onGrp c.gi fun g => g.clearPending c.snap.issued (boundOf ld.toNat st.toNat cp.toNat tl.toNat))
    else .hold (.waitc ld.toNat st.toNat cp.toNat tl.toNat))

/-! ### Extended registers (R92) -/

/-- The block of a register number. -/
def blockOf (d : BitVec 6) : Nat := (d.toNat - 32) / 8

/-- A block has been granted to the group's stalled `acq`, which takes it when its chain issues (R32, R92). -/
def Group.blockDue (g : Group) : Bool := (g.stall.any fun t => t.ready.contains 2) || g.hstall.any fun t => t.ready.contains 2

/-- Blocks of a core's pool that no group whose team is on the core holds or has been granted (R92, R442). -/
def State.freeBlocks (s : State) (core : Nat) : Nat :=
  Config.extBlocks - ((List.range s.groups.length).foldl (fun n gi =>
    let g := s.grp gi
    if g.core = core && g.status != .free && s.onCore gi
    then n + popN 4 g.held.toNat + (if g.blockDue then 1 else 0) else n) 0)

/-- A block granted: held, zero, spatial. -/
def Group.takeBlock (g : Group) (k : Nat) : Group :=
  let g := { g with held := g.held ||| BitVec.ofNat 4 (2 ^ k) }
  (List.range 8).foldl (fun g i => g.setV (32 + 8 * k + i) (Vector.replicate 32 0) Tag.spatial) g

/-- The header does not allow a block: REGNUM (R92). -/
def State.blockBad (s : State) (d : BitVec 6) (c : Wctx) : Option Nat :=
  let lim := match s.kernels[c.snap.kernel]? with | some k => k.h.xreg | none => 0
  if lim ≤ blockOf d then some 0x09 else none

/-- `acq` (R92): no effect when the block is held; else the issue is held until `ACQ_GRANT`, and the block is taken as the chain
issues. -/
def execAcq (h : Hdr) (d : BitVec 6) (s : State) : Out :=
  .next (wordOwn (specBare h .m) (fun c s => s.blockBad d c) s fun c s =>
    if c.lanes = 0#32 || c.snap.held.getLsbD (blockOf d) then .ok s
    else if c.ready (.acq 0) then .ok (s.onGrp c.gi fun g => g.takeBlock (blockOf d))
    else .hold (.acq (blockOf d)))

/-- The block that a group is stalled for. -/
def Group.wantsBlock (g : Group) : Option Nat :=
  match g.cur with
  | some t => match t.kind with | .acq k => if t.ready.contains 2 then none else some k | _ => none
  | none => none

/-- The first group on a core that waits in `acq`. -/
def State.firstAcq (s : State) (core : Nat) : Option Nat :=
  s.acqQ.find? fun gi => (s.grp gi).core = core && (s.grp gi).wantsBlock.isSome

/-- `ACQ_GRANT` (R92): a free block of the core goes to the request that issued first. -/
def execAcqGrant (core : Nat) (s : State) : Out :=
  .next (match s.firstAcq core with
    | some gi =>
      if s.freeBlocks core = 0 then s
      else { s.onGrp gi Group.ended with acqQ := s.acqQ.filter fun x => x != gi }
    | none => s)

/-- `rel` (R92). A pending register of the block raises HAZARD. -/
def execRel (h : Hdr) (d : BitVec 6) (s : State) : Out :=
  .next (wordOwn (specBare h .m) (fun c s => s.blockBad d c) s fun c s =>
    let k := blockOf d
    if c.lanes = 0#32 || !c.snap.held.getLsbD k then .ok s
    else
      match (List.range 8).find? fun i => (c.snap.pendV.getD (32 + 8 * k + i) none).isSome with
      | some i => .raise cHAZARD (32 + 8 * k + i)
      | none => .ok (s.onGrp c.gi fun g => { g with held := g.held &&& ~~~(BitVec.ofNat 4 (2 ^ k)) }))

/-! ### Sleep and the watchdog (R87, R94, R114, R431) -/

/-- `SLEEP_WAKE` (R114): the time has passed, or no operation is left that could wake the group. -/
def execSleepWake (gi : Nat) (s : State) : Out :=
  .next (match (s.grp gi).status with
    | .sleeping (some t) => if t ≤ s.clk then s.onGrp gi fun g => { g with status := .running } else s
    | _ => s)

/-- A TIMEOUT whose condition holds is raised. -/
def State.timeoutIf (s : State) (gi d : Nat) : State :=
  if (s.grp gi).overdue s.clk d && (match (s.grp gi).status with | .running => true | .handler => true | _ => false)
  then s.timeout gi d else s

/-- `TIMEOUT_STARVE` (R94). -/
def execTimeoutStarve (gi : Nat) (s : State) : Out := .next (s.timeoutIf gi 1)

/-- `TIMEOUT_ACQ` (R92). -/
def execTimeoutAcq (gi : Nat) (s : State) : Out := .next (s.timeoutIf gi 3)

/-- `TIMEOUT_FEWAIT` (R170, R301). -/
def execTimeoutFewait (gi : Nat) (s : State) : Out := .next (s.timeoutIf gi 4)

/-- `TIMEOUT_RENDEZ` (R212). -/
def execTimeoutRendez (gi : Nat) (s : State) : Out := .next (s.timeoutIf gi 5)

/-- `TIMEOUT_BOARD` (R277). -/
def execTimeoutBoard (gi : Nat) (s : State) : Out := .next (s.timeoutIf gi 6)

/-- `TIMEOUT_BARWAIT` (R312). -/
def execTimeoutBarwait (gi : Nat) (s : State) : Out := .next (s.timeoutIf gi 7)

end Sys2Proof.Machine
end

