-- ==== Sys2Proof/Machine/System.lean ====
section
/-! DEFINITION. Class SYS: control registers, `tlbinv`, event counts and time (R67, R91, R241, R389, R421, R432 to R434). -/
namespace Sys2Proof.Machine

/-! ### Control registers -/

/-- `lst` of a lane: the state it has, or the one a handler has written (R91). -/
def Lane.lst (x : Lane) : Word :=
  let st := match x.newSt with
    | some v => v.toNat
    | none => match x.st with | .runnable => 0 | .waiting => 1 | .faulted => 2 | .exited => 3
  BitVec.ofNat 32 (x.wt * 16 + st)

/-- A per-lane control register of a lane. -/
def Lane.csr (x : Lane) (n : Nat) : Word :=
  if n = 0x010 then (match x.newPc with | some p => p | none => x.pcv)
  else if n = 0x011 then x.lst
  else if n = 0x012 then x.rpc
  else if n = 0x017 then x.xf
  else if n = 0x032 then x.fcs
  else if n = 0x033 then lowW x.fad
  else if n = 0x034 then highW x.fad
  else if n = 0x035 then x.frgn
  else 0

/-- A handler's write of `lst.ST` (R91): 1 changes nothing, 2 only takes an edit of a faulted lane back, exit is final. -/
def Lane.putSt (x : Lane) (v : BitVec 2) : Lane :=
  if x.st = .exited then x
  else if v = 1#2 then x
  else if v = 2#2 then (if x.st = .faulted then { x with newSt := none } else x)
  else { x with newSt := some v }

/-- A per-lane control register of a lane, written. -/
def Lane.putCsr (x : Lane) (n : Nat) (v : Word) : Lane :=
  if n = 0x010 then { x with newPc := some v }
  else if n = 0x011 then x.putSt (v.extractLsb' 0 2)
  else if n = 0x012 then { x with rpc := v }
  else if n = 0x017 then { x with xf := v &&& 0xff#32 }
  else if n = 0x032 then { x with fcs := v &&& 0x1ffff#32 }
  else if n = 0x033 then { x with fad := pair v (highW x.fad) }
  else if n = 0x034 then { x with fad := pair (lowW x.fad) v }
  else if n = 0x035 then { x with frgn := v }
  else x

/-- The bits of `hcm` that hold a value: [17:0] but for the causes of route S and N (R416, R421). -/
def hcmBits : Word := 0x2bf2f#32

/-- The island of a core (R19). -/
def islandOf (core : Nat) : Nat := core / 16

/-- A group's control registers, of `lkq` as it stood before the chain (R32; R67, R91, R178, R210, R226, R241, R421). -/
def State.gcsr (s : State) (g : Group) (n : Nat) : Word :=
  if n = 0x013 then g.rgn
  else if n = 0x014 then g.held.setWidth 32
  else if n = 0x015 then g.wdog
  else if n = 0x016 then (if g.hm then 1 else 0)
  else if 0x018 ≤ n && n ≤ 0x01a then g.lreg (n - 0x018)
  else if 0x020 ≤ n && n ≤ 0x02b then g.mreg (n - 0x020)
  else if n = 0x030 then g.htv
  else if n = 0x031 then g.hcm
  else if n = 0x036 then g.gfc
  else if 0x038 ≤ n && n ≤ 0x03b then g.hs.getD (n - 0x038) 0
  else if n = 0x040 then g.nmode
  else if n = 0x041 then g.cvc
  else if n = 0x042 then g.cvth
  else if n = 0x043 then g.dph
  else if n = 0x044 then g.xen
  else if n = 0x050 then
    BitVec.ofNat 32 ((s.iss.locks.getD (s.locksOf (s.ctxOf g)).length) % 65536 * 65536 + (s.ctx (s.ctxOf g)).d.lkq % 65536)
  else if n = 0x060 then g.gng
  else if n = 0x061 then
    (match s.islands[islandOf g.core]? with
      | some i => BitVec.ofNat 32 (i.rate % 65536 * 65536 + min i.level 65535)
      | none => 0)
  else if 0x070 ≤ n && n ≤ 0x077 then g.wth.getD (n - 0x070) 0
  else if n = 0x078 then g.wctl
  else 0

/-- A group's control register written; read-only and reserved fields keep their values (R4). -/
def Group.putCsr (g : Group) (n : Nat) (v : Word) : Group :=
  if n = 0x013 then { g with rgn := v }
  else if n = 0x015 then { g with wdog := v }
  else if 0x018 ≤ n && n ≤ 0x01a then g.setL (n - 0x018) v
  else if 0x020 ≤ n && n ≤ 0x02b then g.setM (n - 0x020) v
  else if n = 0x030 then { g with htv := v &&& ~~~2#32 }
  else if n = 0x031 then { g with hcm := v &&& hcmBits }
  else if 0x038 ≤ n && n ≤ 0x03b then { g with hs := g.hs.setIfInBounds (n - 0x038) v }
  else if n = 0x040 then { g with nmode := v &&& 1#32 }
  else if n = 0x041 then { g with cvc := v &&& 0x3fffffff#32 }
  else if n = 0x042 then { g with cvth := v &&& 0x7ff#32 }
  else if n = 0x043 then { g with dph := v &&& 7#32 }
  else if n = 0x044 then { g with xen := v &&& 0x1f#32 }
  else if 0x070 ≤ n && n ≤ 0x077 then
    let x := if v.extractLsb' 30 2 = 2#2 then v &&& 0xc000003f#32 else v &&& 0xc000ffff#32
    { g with wth := g.wth.setIfInBounds (n - 0x070) x }
  else if n = 0x078 then { g with wctl := v &&& 1#32 }
  else g

/-- A control register is per lane. -/
def laneCsr (n : Nat) : Bool := match csrKind n with | some k => k.perLane | none => false

/-- The registers of `csrr` and `csrw` (R432). -/
def specCsrr (h : Hdr) (d a b : BitVec 6) : WordSpec :=
  if laneCsr (csrNum a b) then { h := h, pipe := .s, vw := [d.toNat] } else { h := h, pipe := .s, sw := [d.toNat] }
def specCsrw (h : Hdr) (d a b : BitVec 6) : WordSpec :=
  if laneCsr (csrNum a b) then { h := h, pipe := .s, vr := [d.toNat] } else { h := h, pipe := .s, sr := [d.toNat] }

/-- `csrr` (R432). A read of `cvc` waits for earlier `acvt` words (R71). -/
def execCsrr (h : Hdr) (d a b : BitVec 6) (s : State) : Out :=
  .next (word (specCsrr h d a b) s fun c s =>
    let n := csrNum a b
    if n = 0x041 && c.snap.countsDue then .hold .counting
    else if laneCsr n then putLanes c s d.toNat fun l => (c.snap.lane l).csr n
    else putS c s d.toNat (s.gcsr c.snap n))

/-- `csrw` (R432). `pcv`, `lst`, `rpc` and `rgn` are written in handler mode only (R91). -/
def execCsrw (h : Hdr) (d a b : BitVec 6) (s : State) : Out :=
  let n := csrNum a b
  .next (wordOwn (specCsrw h d a b) (fun c _ => if !c.hm && (0x010 ≤ n && n ≤ 0x013) then some 0x0d else none) s fun c s =>
    if c.lanes = 0#32 then .ok s
    else if laneCsr n then
      .ok (s.onGrp c.gi fun g => g.onLanes c.lanes fun l x => x.putCsr n (srcA c d l))
    else .ok (s.onGrp c.gi fun g => g.putCsr n (c.snap.sreg d.toNat)))

/-! ### Counts and time (R433, R434) -/

/-- The registers of `perf` and `time`. -/
def specPair (h : Hdr) (d : BitVec 6) : WordSpec := { h := h, pipe := .s, sw := pairOf d }

/-- `perf` (R433): chains issued, clk since dispatch (R476) and engine passes are counted; the other counts depend on timing and are free
values (log entry 44). -/
def execPerf (h : Hdr) (d : BitVec 6) (b : BitVec 6) (s : State) : Out :=
  .next (word (specPair h d) s fun c s =>
    if b = 0#6 || b = 5#6 then putSpair c s d.toNat (BitVec.ofNat 64 (c.snap.perf.toList.getD b.toNat 0))
    else if b = 1#6 then putSpair c s d.toNat (BitVec.ofNat 64 (s.clk - c.snap.born))
    else putSpair c s.free.2 d.toNat (BitVec.ofNat 64 s.free.1))

/-- `time` (R434). -/
def execTime (h : Hdr) (d : BitVec 6) (sel : Bool) (s : State) : Out :=
  .next (word (specPair h d) s fun c s =>
    putSpair c s d.toNat (BitVec.ofNat 64 (if sel then s.windowOf (s.ctxOf c.snap) else s.clock.ns)))

/-! ### `tlbinv` (R389) -/

/-- What a `tlbinv` drops: every translation, or a range; nothing for a count of 0. -/
def invRange (c : Wctx) (kind : Nat) (a b : BitVec 6) : Option (Option (Nat × Nat)) :=
  let va := (c.snap.spair a.toNat).toNat / 65536 * 65536
  let n := (c.snap.sreg b.toNat).toNat
  if kind = 0 then some (some (va, 65536))
  else if kind = 1 then (if n = 0 then none else if 65536 < n then some none else some (some (va, n * 65536)))
  else some none

/-- A `tlbinv`: held until `TLBINV_COMPLETE` finds the group's earlier stores complete; then the translations are gone. -/
def tlbinvWord (w : WordSpec) (kind : Nat) (a b : BitVec 6) (s : State) : State :=
  word w s fun c s =>
    if kind ≠ 2 && !canonical (c.snap.spair a.toNat).toNat then .raise cPROT 2
    else
      match invRange c kind a b with
      | none => .ok s
      | some r => if c.ready (.tlbinv 0) then .ok ((s.dropTlb (s.ctxOf c.snap) r).dropUnmapped (s.ctxOf c.snap) r) else .hold (.tlbinv c.snap.nextOp)

/-- The registers of the three forms. -/
def specTlbinv (h : Hdr) (sr : List Nat) : WordSpec := { h := h, pipe := .s, sr := sr }

def execTlbinvPage (h : Hdr) (a : BitVec 6) (s : State) : Out :=
  .next (tlbinvWord (specTlbinv h (pairOf a)) 0 a 0#6 s)
def execTlbinvRange (h : Hdr) (a b : BitVec 6) (s : State) : Out :=
  .next (tlbinvWord (specTlbinv h (pairOf a ++ [b.toNat])) 1 a b s)
def execTlbinvAll (h : Hdr) (s : State) : Out := .next (tlbinvWord (specTlbinv h []) 2 0#6 0#6 s)

/-- `TLBINV_COMPLETE` (R389): the stores and atomics before the `tlbinv` have completed. Every access of the model takes its
place in the step that translates it, so no access with a dropped translation is in flight. -/
def execTlbinvComplete (gi : Nat) (s : State) : Out :=
  .next (match (s.grp gi).cur with
    | some t => match t.kind with
      | .tlbinv upto => if (s.grp gi).storesDone upto then s.onGrp gi Group.ended else s
      | _ => s
    | none => s)

end Sys2Proof.Machine
end

