-- ==== Sys2Proof/Machine/Ring.lean ====
section
/-! DEFINITION. The circulation ring: programs, beats, boardings, the governor (R257 to R283), and class RING. -/
namespace Sys2Proof.Machine

/-! ### Tiles and places (R258 to R263) -/

/-- Beats of a tile of a format code (R260). -/
def tileBeats (fmt : Nat) : Nat := if fmt = 0 then 6 else if fmt = 3 || fmt = 4 then 4 else 5

/-- Bytes of a tile. -/
def tileBytes (fmt : Nat) : Nat := 512 * tileBeats fmt

/-- The tracks of a mask, ascending. -/
def tracksOf (m : Nat) : List Nat := (List.range 32).filter fun t => m.testBit t

/-- The first beat of a layer on a track: the beats of the program's earlier layers there (R261). -/
def Prog.start (p : Prog) (layer t : Nat) : Nat :=
  ((p.rows.take layer).map fun r => if r.trk.testBit t then r.nt * tileBeats r.fmt else 0).foldl (· + ·) 0

/-- The beats that a program sends on a track. -/
def Prog.load (p : Prog) (t : Nat) : Nat := p.start p.rows.length t

/-- The lap length of installed programs (R262). -/
def lapLength (ps : List Prog) : Nat :=
  (ps.flatMap fun p => (List.range 32).map fun t => p.load t).foldl max 1024

/-- The hop count (R263). -/
def hops (cluster t : Nat) : Nat := (cluster + 128 - (if t < 16 then 0 else 64)) % 128

/-- The package beat at which lap n starts. -/
def Ring.startOf (r : Ring) (n : Nat) : Int :=
  if n < r.lap then (r.base : Int) - r.prev else (r.base : Int) + (n - r.lap : Nat) * r.len

/-- Now, in package beats. -/
def Ring.now (r : Ring) : Nat := r.base + r.pos

/-- The beat, counted from the start of its lap, at which tile i of a layer reaches a cluster on a track. -/
def Prog.reach (p : Prog) (layer cluster t i : Nat) : Nat :=
  p.start layer t + i * tileBeats (match p.rows[layer]? with | some r => r.fmt | none => 0) + hops cluster t

/-- The earliest arrival of tile 0 on named tracks (R271). -/
def Prog.first (p : Prog) (layer cluster : Nat) (ts : List Nat) : Nat :=
  match ts.map fun t => p.reach layer cluster t 0 with
  | [] => 0
  | a :: as => as.foldl min a

/-- The program of a context in force now. -/
def Ring.prog? (r : Ring) (c : Nat) : Option Prog := r.progs.find? fun p => p.ctx = c

/-- The program of a context in force for the next lap boundary (R270). DESIGN CHOICE (log entry 90): a lower track share that takes effect at
that boundary does not narrow it yet; what it takes away is cancelled at the boundary (R273). -/
def Ring.nextProg (r : Ring) (c : Nat) : Option Prog :=
  match r.changes.find? fun x => x.1 = c with
  | some (_, some p) => some { p with since := r.lap + 1 }
  | some (_, none) => none
  | none => r.prog? c

/-- The program that a boarding asks of, as its target lap sends it: a lap before this one as it was then (R263, R266). -/
def Ring.progOf (r : Ring) (b : Boarding) : Option Prog :=
  (if b.lap < r.lap then r.oldProgs else r.progs ++ r.changes.filterMap Prod.snd).find? fun p => p.id = b.prog

/-- The deadline of a layer's pass in a lap: 64 beats before the earliest arrival of tile 0 on a named track (R271). -/
def Ring.passDeadline (r : Ring) (p : Prog) (n layer cluster : Nat) (ts : List Nat) : Int :=
  r.startOf n + (p.first layer cluster ts : Nat) - 64

/-- The pass that a request made now boards, and how many passes it misses before (R271). Its target is the first whose tile 0 has still
to reach the cluster on some named track; where the deadline of the pass after a missed one is past as well, that one is missed
too (log entry 63). -/
def Ring.target (r : Ring) (p : Prog) (layer cluster : Nat) (ts : List Nat) : Nat × Nat :=
  let now : Int := r.now
  let comes := fun n => p.since ≤ n && ts.any fun t => now < r.startOf n + (p.reach layer cluster t 0 : Nat)
  let laps := (List.range 5).map fun i => r.lap - 1 + i
  let n := match laps.find? comes with | some n => n | none => r.lap + 2
  let m := match (laps.filter (n ≤ ·)).find? fun m => now ≤ r.passDeadline p m layer cluster ts with | some m => m | none => n + 1
  (m, m - n)

/-! ### Boardings -/

/-- Bytes of a boarding. -/
def Boarding.bytes (b : Boarding) : Nat := b.count * b.tracks.length * b.tile

/-- A boarding that holds an entry. -/
def Boarding.held (b : Boarding) : Bool := b.st != .free

/-- A boarding that has not ended. -/
def Boarding.open_ (b : Boarding) : Bool := b.st = .armed || b.st = .missed || b.st = .filling

/-- A cluster's boardings that hold an entry. -/
def Ring.heldAt (r : Ring) (cluster : Nat) : List Boarding := r.boards.filter fun b => b.cluster = cluster && b.held

/-- The lowest free entry of a cluster (R267, R270). -/
def Ring.freeEntry (r : Ring) (cluster : Nat) : Option Nat :=
  (List.range 256).find? fun e => !(r.heldAt cluster).any fun b => b.ent = e

/-- The lowest offset with a free run of n bytes (R270). -/
def Ring.freeRun (r : Ring) (cluster n : Nat) : Option Nat :=
  let hs := r.heldAt cluster
  let ok := fun o => o + n ≤ Config.bbBytes && hs.all fun b => b.off + b.bytes ≤ o || o + n ≤ b.off
  ((0 :: hs.map fun b => b.off + b.bytes).filter ok).min?

/-- A boarding changed in place. -/
def State.onBoard (s : State) (cluster ent : Nat) (f : Boarding → Boarding) : State :=
  { s with ring := { s.ring with boards := s.ring.boards.map fun b =>
      if b.cluster = cluster && b.ent = ent then f b else b } }

/-- The `cp` operation of a boarding is done (R274). -/
def State.boardOpDone (s : State) (b : Boarding) : State :=
  s.onGrp b.gi fun g => (g.onOp b.op fun o => { o with done := true }).retire

/-- A boarding ends in a state (R274); its operation completes. -/
def State.boardEnd (s : State) (b : Boarding) (st : BSt) : State :=
  let s := s.onBoard b.cluster b.ent fun x => { x with st := st, ports := false }
  if b.open_ then s.boardOpDone b else s

/-- A context's count raised, saturating (R279). -/
def satAdd (n k : Nat) : Nat := min (n + k) (2 ^ 32 - 1)

/-- A free entry and run taken for a request (R270, R271): the state and the handle's low fields. -/
def State.newBoarding (s : State) (gi : Nat) (p : Prog) (layer f n : Nat) (ts : List Nat) (ent off : Nat) (op : Nat) :
    State × Nat :=
  let g := s.grp gi
  let cl := g.core / 4
  let cx := s.ctxOf g
  let gen := match s.ring.boards.find? fun b => b.cluster = cl && b.ent = ent with
    | some b => (b.gen + 1) % 32 | none => 1
  let tg := s.ring.target p layer cl ts
  let fmt := match p.rows[layer]? with | some r => r.fmt | none => 0
  let b : Boarding :=
    { cluster := cl, ent := ent, gen := gen, st := if 0 < tg.2 then .missed else .armed, ctx := cx, gi := gi, op := op,
      prog := p.id, layer := layer, tracks := ts, first := f, count := n, off := off, tile := tileBytes fmt, missed := 0 < tg.2,
      lap := tg.1, asked := s.ring.order, missAt := s.ring.order, ports := false, written := [], bad := [], hurt := [],
      readable := false }
  let s := { s with ring := { s.ring with
    boards := (s.ring.boards.filter fun x => !(x.cluster = cl && x.ent = ent)) ++ [b],
    order := s.ring.order + 1, stalled := s.ring.stalled.filter fun x => x.2 != gi } }
  (if 0 < tg.2 then s.onCtx cx fun x => { x with missed := satAdd x.missed tg.2 } else s, gen)

/-- The status of a `board` request that makes no boarding (R270). -/
def boardStatus (p : Option Prog) (layer f n mask : Nat) (all : Bool) : Nat × Nat :=
  match p with
  | none => (1, 0)
  | some p =>
    match p.rows[layer]? with
    | none => (2, 0)
    | some r =>
      let m := if all then r.trk else mask
      if n = 0 || r.nt < f + n then (3, m)
      else if m = 0 || 2 < popN 32 m || (m &&& r.trk) ≠ m then (4, m)
      else if Config.bbBytes < n * popN 32 m * tileBytes r.fmt then (5, m)
      else (0, m)

/-- The registers of `board`. -/
def specBoard (h : Hdr) (d a b mr : BitVec 6) (all : Bool) : WordSpec :=
  { h := h, pipe := .x, sr := a.toNat :: b.toNat :: (if all then [] else [mr.toNat]), sw := [d.toNat], side := true }

/-- The groups of a cluster that are held at a `board`, in the order of their requests. -/
def State.boardQueue (s : State) (cluster : Nat) : List Nat :=
  (s.ring.stalled.filter fun x => x.1 = cluster && (match (s.grp x.2).cur with
    | some t => t.kind = .board && (s.grp x.2).core / 4 = cluster
    | none => false)).map Prod.snd

/-- `BOARD` (R269, R270). -/
def execBoard (h : Hdr) (d a b : BitVec 6) (mr : BitVec 6) (all : Bool) (s : State) : Out :=
  .next (word (specBoard h d a b mr all) s fun c s =>
    let g := c.snap
    let p := s.ring.nextProg (s.ctxOf g)
    let layer := (g.sreg a.toNat).toNat
    let f := (g.sreg b.toNat).toNat % 65536
    let n := (g.sreg b.toNat).toNat / 65536
    let st := boardStatus p layer f n (g.sreg mr.toNat).toNat all
    match st.1, p with
    | 0, some p =>
      let fmt := match p.rows[layer]? with | some r => r.fmt | none => 0
      let ts := tracksOf st.2
      let cl := g.core / 4
      if 63 ≤ c.now.cnt .cp then .hold (.counter .cp)
      else if !c.ready .board && (s.boardQueue cl).any fun x => x != c.gi then .hold .board
      else
        match s.ring.freeEntry cl, s.ring.freeRun cl (n * ts.length * tileBytes fmt) with
        | some e, some off =>
          let id := (s.grp c.gi).nextOp
          let r := s.newBoarding c.gi p layer f n ts e off id
          let s := r.1.start c .cp 0 (.board cl e r.2) [] []
          putS c s d.toNat (BitVec.ofNat 32 (e * 2 ^ 21 + off / 512 * 2 ^ 9 + g.epoch % 16 * 32 + r.2))
        | _, _ => .hold .board
    | st, _ => putS c s d.toNat (BitVec.ofNat 32 (st * 2 ^ 29)))

/-- `BOARD_GRANT` (R270): the first request held at a cluster goes on. Whether it fits is seen when it is tried again. -/
def execBoardGrant (cluster : Nat) (s : State) : Out :=
  .next (match s.boardQueue cluster with
    | gi :: _ => s.onGrp gi Group.ended
    | [] => s)

/-- The boarding that a handle names, and the RES of a handle that names none (R277). -/
def State.handle (s : State) (gi : Nat) (h : Word) : Except Nat Boarding :=
  let n := h.toNat
  if n / 2 ^ 29 ≠ 0 then .error 3
  else if fld n 8 5 ≠ (s.grp gi).epoch % 16 then .error 5
  else
    match s.ring.boards.find? fun b =>
        b.cluster = (s.grp gi).core / 4 && b.ent = fld n 28 21 && b.held && b.gi = gi && b.gen = fld n 4 0 with
    | some b => .ok b
    | none => .error 3

/-- The status word (R277). -/
def resWord (res : Nat) (b : Option Boarding) : Word :=
  match b with
  | some b => BitVec.ofNat 32 (res * 2 ^ 28 + (if b.missed then 2 ^ 27 else 0) + b.bad.length % 65536)
  | none => BitVec.ofNat 32 (res * 2 ^ 28)

/-- RES of a boarding that has ended (R277). -/
def Boarding.res (b : Boarding) : Nat := if b.st = .done then 0 else if b.st = .poisoned then 1 else 2

/-- The answer of a `bwait` of the chain that began to wait on a handle before `bfree` freed its boarding (R283): a handler has run
between (R420). -/
def Wctx.freedBoard (c : Wctx) (h : Word) : Option Word :=
  (if c.hm then c.snap.hstall else c.snap.stall).bind fun t =>
    match t.kind with | .bwait x w => if t.pc = c.pc && x = h then w else none | _ => none

/-- A `bwait` on a freed handle keeps what it would have answered (R283). -/
def Stall.freed (t : Stall) (h w : Word) : Stall :=
  match t.kind with | .bwait x none => if x = h then { t with kind := .bwait x (some w) } else t | _ => t

/-- `bwait` and `btry` on a handle (R277). -/
def boardAsk (c : Wctx) (s : State) (d a : BitVec 6) (wait : Bool) : Res :=
  let h := c.snap.sreg a.toNat
  match s.handle c.gi h with
  | .error e => putS c s d.toNat (match c.freedBoard h with
    | some w => if wait && e = 3 then w else resWord e none
    | none => resWord e none)
  | .ok b =>
    if b.open_ then (if wait then .hold (.bwait h none) else putS c s d.toNat (resWord 4 (some b)))
    else
      let res := b.res
      let s := if res < 2 then s.onBoard b.cluster b.ent fun x => { x with readable := true } else s
      putS c s d.toNat (resWord res (some b))

/-- The registers of `bwait` and `btry`. -/
def specAsk (h : Hdr) (d a : BitVec 6) : WordSpec := { h := h, pipe := .x, sr := [a.toNat], sw := [d.toNat] }

/-- `BWAIT` (R277). -/
def execBwait (h : Hdr) (d a : BitVec 6) (s : State) : Out :=
  .next (word (specAsk h d a) s fun c s => boardAsk c s d a true)

/-- `BTRY` (R277). -/
def execBtry (h : Hdr) (d a : BitVec 6) (s : State) : Out :=
  .next (word (specAsk h d a) s fun c s => boardAsk c s d a false)

/-- `BFREE` (R278). A `bwait` of the group that a trap has set aside will answer what it finds now: CANCELLED where the boarding had not
ended (R283). -/
def execBfree (h : Hdr) (a : BitVec 6) (s : State) : Out :=
  .next (word { h := h, pipe := .x, sr := [a.toNat] } s fun c s =>
    let h := c.snap.sreg a.toNat
    match s.handle c.gi h with
    | .error _ => .ok s
    | .ok b => .ok ((s.boardEnd b .free).onGrp c.gi fun g => { g with stall := g.stall.map fun t => t.freed h (resWord b.res (some b)) }))

/-- The registers of `lapr`. -/
def specLapr (h : Hdr) (d : BitVec 6) (sel : BitVec 3) : WordSpec :=
  { h := h, pipe := .x, sw := if sel = 0#3 then pairOf d else [d.toNat] }

/-- `LAPR` (R279). -/
def execLapr (h : Hdr) (d : BitVec 6) (sel : BitVec 3) (s : State) : Out :=
  .next (word (specLapr h d sel) s fun c s =>
    let r := s.ring
    let x := s.ctx (s.ctxOf c.snap)
    let v := match sel.toNat with
      | 1 => r.lap / 2 ^ 32 % 65536 | 2 => r.len | 3 => r.g | 4 => x.missed | _ => x.poisoned
    if sel = 0#3 then putSpair c s d.toNat (pair (BitVec.ofNat 32 r.lap) (BitVec.ofNat 32 r.pos))
    else putS c s d.toNat (BitVec.ofNat 32 v))

/-! ### Deadlines and ports (R271, R272) -/

/-- The beats that a boarding takes on its tracks: track, first, last (R272). -/
def Ring.claim (r : Ring) (b : Boarding) : List (Nat × Int × Int) :=
  match r.progOf b with
  | none => []
  | some p => b.tracks.map fun t =>
    let beats := b.tile / 512
    let a := r.startOf b.lap + (p.reach b.layer b.cluster t b.first : Nat)
    (t, a, a + (b.count * beats : Nat) - 1)

/-- The deadline of a boarding's target pass; one whose program is gone has none to wait for. -/
def Ring.deadline (r : Ring) (b : Boarding) : Int :=
  match r.progOf b with
  | none => r.now
  | some p => r.passDeadline p b.lap b.layer b.cluster b.tracks

/-- Claims that fit two ports: at the first beat of every claim, at most two tracks (R272). -/
def portsOk (cs : List (Nat × Int × Int)) : Bool :=
  cs.all fun c => ((cs.filter fun d => d.2.1 ≤ c.2.1 && c.2.1 ≤ d.2.2).map fun d => d.1).dedup.length ≤ 2

/-- A request claims before another: the earlier deadline first; at one deadline the requests already missed, in the order in which
they were missed, then the others in the order in which they came (R272). -/
def Ring.claimsBefore (r : Ring) (a b : Boarding) : Bool :=
  let x := r.deadline a
  let y := r.deadline b
  if x ≠ y then x < y
  else if a.st ≠ b.st then a.st = .missed
  else if a.st = .missed then a.missAt < b.missAt || (a.missAt = b.missAt && a.asked ≤ b.asked)
  else a.asked ≤ b.asked

/-- Requests of a cluster whose deadline has come, in the order in which they claim ports. -/
def Ring.claimants (r : Ring) (cluster : Nat) : List Boarding :=
  sortLe r.claimsBefore ((r.heldAt cluster).filter fun b =>
    (b.st = .armed || b.st = .missed) && !b.ports && r.deadline b ≤ r.now)

/-- The pass of a boarding lies where its program is not in force, or where one of its tracks has left it (R273). -/
def Ring.gone (r : Ring) (b : Boarding) : Bool :=
  match r.progOf b with
  | some p => !b.tracks.all p.trk.testBit
  | none => true

/-- One request claims its ports, or is missed again (R272). One that moves on to a lap whose boundary has passed already, its late pass
having come in that lap's first beats (R263), becomes cancelled where that boundary took its program or a track away (R273). -/
def State.claimPorts (s : State) (b : Boarding) : State :=
  let held := (s.ring.heldAt b.cluster).filter fun x => x.ports && x.open_
  if portsOk (s.ring.claim b ++ held.flatMap fun x => s.ring.claim x) then
    s.onBoard b.cluster b.ent fun x => { x with ports := true }
  else
    let s := s.onBoard b.cluster b.ent fun x =>
      { x with st := .missed, missed := true, lap := x.lap + 1, missAt := s.ring.order }
    let s := { (s.onCtx b.ctx fun x => { x with missed := satAdd x.missed 1 }) with ring := { s.ring with order := s.ring.order + 1 } }
    if s.ring.gone { b with lap := b.lap + 1 } then (s.boardEnd b .cancelled).settle b.gi false else s

/-- The requests of a cluster whose deadline has come claim ports. -/
def State.clusterClaims (s : State) (cluster : Nat) : State := (s.ring.claimants cluster).foldl State.claimPorts s

/-- Every claim that is due is resolved (R272). -/
def State.resolveClaims (s : State) : State := (List.range Config.clusters).foldl State.clusterClaims s

/-- `BOARDING_DEADLINE` (R272): no beat passes a deadline that has not been resolved; this event lets a cluster's be resolved before the
next beat. -/
def execBoardingDeadline (cluster : Nat) (s : State) : Out := .next (s.clusterClaims cluster)

/-! ### Beats (R260, R263, R274, R275) -/

/-- One bit of CRC-32C (R260). -/
def crcBits : Nat → Nat → Nat
  | 0, c => c
  | n + 1, c => crcBits n (if c % 2 = 1 then (c / 2) ^^^ 0x82f63b78 else c / 2)

/-- CRC-32C of bytes (R260). -/
def crc32c (bs : List Byte) : Nat :=
  (bs.foldl (fun c b => crcBits 8 (c ^^^ b.toNat)) 0xffffffff) ^^^ 0xffffffff

/-- The physical address of a source byte and the key slot of its page (R265). -/
def Row.pa (r : Row) (va : Nat) : Nat × Nat :=
  match r.units.find? fun u => u.1 = va / 65536 with
  | some u => (u.2.1 + va % 65536, u.2.2)
  | none => (0, 0)

/-- The source address of tile i on a track (R258). -/
def Row.tileVa (r : Row) (t i : Nat) : Nat := r.src + (popN t r.trk * r.nt + i) * tileBytes r.fmt

/-- The bytes of a tile as they stand in the near tier, and whether an uncorrectable error lies in them (R265, R275). -/
def State.sourceTile (s : State) (r : Row) (t i : Nat) : List Byte × Bool :=
  let va := r.tileVa t i
  let beats := (List.range (tileBeats r.fmt)).map fun k => r.pa (va + 512 * k)
  (beats.flatMap fun a => (List.range 512).map fun j => s.byteAt (a.1 + j) (s.keyOf a.2), beats.any fun a => s.poisoned a.1 512)

/-- A tile is sent: its source is read once for every cluster; the run of laps on which it has gone out poisoned grows or ends, and four
laps running give a record (R275; log entry 63). -/
def State.sendTile (s : State) (p : Prog) (layer t i : Nat) (r : Row) : State :=
  let d := s.sourceTile r t i
  let g := s.ring
  let key := (p.ctx, layer, t, i)
  let same := fun (y : Nat × Nat × Nat × Nat × Nat) => (y.1, y.2.1, y.2.2.1, y.2.2.2.1) = key
  let n := if d.2 then (match g.runs.find? same with | some y => y.2.2.2.2 + 1 | none => 1) else 0
  let runs := (g.runs.filter fun y => !same y) ++ if n = 0 then [] else [(p.ctx, layer, t, i, n)]
  let s := { s with ring := { g with runs := runs, sent := g.sent ++ [⟨g.lap, p.ctx, layer, t, i, g.now, d.1, d.2⟩] } }
  if n = 4 then
    s.post p.ctx { Rec.blank with cause := cMACHINE, detail := 2, kind := 3,
                                  x0 := BitVec.ofNat 32 (layer + t * 2 ^ 12), x1 := BitVec.ofNat 32 g.lap, px := i }
  else s

/-- The tiles whose first beat leaves the sequencer at this position, of every installed program; tiles that have passed every cluster
are forgotten (R261, R263, R275). -/
def State.sendTiles (s : State) : State :=
  let s := { s with ring := { s.ring with sent := s.ring.sent.filter fun x => s.ring.now ≤ x.beat + 132 } }
  s.ring.progs.foldl (fun s p =>
    (List.range p.rows.length).foldl (fun s l =>
      match p.rows[l]? with
      | none => s
      | some r => (tracksOf r.trk).foldl (fun s t =>
        let a := p.start l t
        let k := s.ring.pos - a
        if a ≤ s.ring.pos && k % tileBeats r.fmt = 0 && k / tileBeats r.fmt < r.nt then s.sendTile p l t (k / tileBeats r.fmt) r else s) s)
      s) s

/-- What of a tile reaches the clusters: what was sent in the boarding's lap. -/
def State.sentTile (s : State) (b : Boarding) (r : Row) (t i : Nat) : List Byte × Bool :=
  match s.ring.sent.find? fun x => x.lap = b.lap && x.ctx = b.ctx && x.layer = b.layer && x.track = t && x.tile = i with
  | some x => (x.bytes, x.poison)
  | none => s.sourceTile r t i

/-- The place in its boarding of tile i from the track of rank k (R270). -/
def Boarding.place (b : Boarding) (i k : Nat) : Nat := (i - b.first) * b.tracks.length + k

/-- The last beat of a tile reaches a boarding: its bytes are written; a bad CRC or source poisons it (R274, R276). -/
def State.tileLands (s : State) (b : Boarding) (r : Row) (t k i : Nat) : State :=
  let d := s.sentTile b r t i
  let n := d.1.length
  let pl := b.place i k
  let good := crc32c (d.1.take (n - 4)) = ofBytes (d.1.drop (n - 4)) && !b.hurt.contains pl
  let s := { s with bb := Memory.writeN s.bb (b.cluster * Config.bbBytes + b.off + pl * b.tile) d.1 }
  let bad := if d.2 then [(pl, 2)] else if good then [] else [(pl, 1)]
  let s := s.onBoard b.cluster b.ent fun x =>
    { x with written := addOnce x.written pl, bad := x.bad ++ bad, st := .filling }
  let s := if bad = [] then s else s.onCtx b.ctx fun x => { x with poisoned := satAdd x.poisoned 1 }
  let full := (addOnce b.written pl).length = b.count * b.tracks.length
  if full then
    (s.boardEnd b (if (b.bad ++ bad) = [] then .done else .poisoned)).settle b.gi false
  else s

/-- A beat of a boarding's track reaches it: the first beat of its first tile makes it filling, a damaged one is noted with its tile, the
last beat of a tile lands it. -/
def State.trackBeat (s : State) (noise : List (Nat × Nat × Nat)) (key : Nat × Nat) (p : Prog) (r : Row) (k : Nat) : State :=
  match s.ring.boards.find? fun b => b.cluster = key.1 && b.ent = key.2 with
  | none => s
  | some b =>
    let t := b.tracks.getD k 0
    let a := s.ring.startOf b.lap + (p.reach b.layer b.cluster t b.first : Nat)
    let now : Int := s.ring.now
    let beats := tileBeats r.fmt
    let j := (now - a).toNat
    if !b.open_ || now < a || b.count * beats ≤ j then s
    else
      let i := b.first + j / beats
      let pl := b.place i k
      let b' := { b with st := .filling, hurt := if noise.contains (key.1, key.2, t) then addOnce b.hurt pl else b.hurt }
      let s := s.onBoard key.1 key.2 fun _ => b'
      if (j + 1) % beats = 0 then s.tileLands b' r t k i else s

/-- What the beats that reach a boarding now do to it. -/
def State.boardBeat (noise : List (Nat × Nat × Nat)) (s : State) (key : Nat × Nat) : State :=
  match s.ring.boards.find? fun b => b.cluster = key.1 && b.ent = key.2 with
  | none => s
  | some b =>
    match s.ring.progOf b with
    | none => s
    | some p =>
      match p.rows[b.layer]? with
      | none => s
      | some r => if b.ports then (List.range b.tracks.length).foldl (fun s k => s.trackBeat noise key p r k) s else s

/-- A position of the lap: tiles leave the sequencer, and every boarding sees the beats that reach it. -/
def State.beatsNow (s : State) (noise : List (Nat × Nat × Nat)) : State :=
  let s := s.sendTiles
  (s.ring.boards.map fun b => (b.cluster, b.ent)).foldl (State.boardBeat noise) s

/-- The next ring clock of a frame that sends a beat, with g as it is from the frame boundary on (R280). -/
def nextClock : Nat → Nat → Nat → Nat → Nat × Nat
  | 0, k, g, _ => (k, g)
  | n + 1, k, g, g' =>
    let k' := if k + 1 < 16 then k + 1 else 0
    let g := if k + 1 < 16 then g else g'
    if k' * g / 16 < (k' + 1) * g / 16 then (k', g) else nextClock n k' g g'

/-- The ring clock moves on to the next beat. -/
def Ring.tick (r : Ring) : Ring :=
  let x := nextClock 16 r.frame r.g r.newG
  { r with frame := x.1, g := x.2, beats := r.beats + 1 }

/-- The ring stands before its next beat until the governor has run (R281: once every 4,096 beats). -/
def Ring.governed (r : Ring) : Bool := r.beats < 4096

/-- `RING_BEAT` (R263, R272, R274): due claims are resolved, then the next position of the lap comes; `noise` names the copies of this
beat (cluster, boarding entry, track) that are damaged on their way (R275, R283). -/
def execRingBeat (noise : List (Nat × Nat × Nat)) (s : State) : Out :=
  .next (if s.exposed && s.ring.governed && s.ring.pos + 1 < s.ring.len then
      let s := s.resolveClaims
      let r := s.ring.tick
      ({ s with ring := { r with pos := r.pos + 1 } }).beatsNow noise
    else s)

/-! ### The lap boundary (R266, R273) -/

/-- The tracks that a function's programs have beyond its share, the highest (R448, R273). -/
def overShare (ps : List Prog) (rtr : Nat) : List Nat :=
  let ts := ps.flatMap fun p => tracksOf p.trk
  (sortLe (fun a b => decide (b ≤ a)) ts).take (ts.length - rtr)

/-- A program without some tracks. -/
def Prog.without (p : Prog) (ts : List Nat) : Prog :=
  let cut := fun (m : Nat) => ts.foldl (fun m t => if m.testBit t then m - 2 ^ t else m) m
  { p with trk := cut p.trk, rows := p.rows.map fun r => { r with trk := cut r.trk } }

/-- Programs after the shares of functions are lowered: each with the tracks that it loses. -/
def State.withdraw (s : State) (ps : List Prog) (shares : List (Nat × Nat)) : List (Prog × List Nat) :=
  ps.map fun p =>
    let fn := fun (q : Prog) => match s.ctxs[q.ctx]? with | some c => c.d.fn | none => 0
    match shares.find? fun x => x.1 = fn p with
    | some x => let ts := (overShare (ps.filter fun q => fn q = fn p) x.2).filter p.trk.testBit; (p.without ts, ts)
    | none => (p, [])

/-- A boarding is for a lap after this one, and its program is not in force in it or has lost one of its tracks (R273). -/
def Boarding.cut (lap : Nat) (left : List (Prog × List Nat)) (b : Boarding) : Bool :=
  b.open_ && lap < b.lap && !left.any fun x => x.1.id = b.prog && !b.tracks.any fun t => x.2.contains t

/-- Accepted changes and shares take effect; boardings that their program or a track leaves are cancelled. Beats of this lap that
are still on their way arrive as they were sent (R263, R266, R273). -/
def State.ringBoundary (s : State) : State :=
  let r := s.ring
  let changed := r.changes.map Prod.fst
  let kept := r.progs.filter fun p => !changed.contains p.ctx
  let new := r.changes.filterMap fun x => x.2.map fun p => { p with since := r.lap + 1 }
  let left := s.withdraw (kept ++ new) r.shares
  let progs := left.map Prod.fst
  let s := (r.boards.filter (Boarding.cut r.lap left)).foldl (fun s b => (s.boardEnd b .cancelled).settle b.gi false) s
  let fns := r.shares.foldl (fun fs x => updAt fs x.1 fun f => { f with rtr := x.2 }) s.fns
  { s with
    fns := fns,
    ring := { s.ring with oldProgs := r.progs, progs := progs, changes := [], shares := [],
                          runs := r.runs.filter fun y => !changed.contains y.1, base := r.base + r.len, prev := r.len,
                          len := lapLength progs, lap := r.lap + 1, pos := 0 } }

/-! ### The governor (R281, R282) -/

/-- The highest occupancy of a boarding buffer, in sixteenths (R281). -/
def Ring.occupancy (r : Ring) : Nat :=
  ((List.range Config.clusters).map fun c =>
    ((r.heldAt c).map Boarding.bytes).foldl (· + ·) 0 * 16 / Config.bbBytes).foldl max 0

/-- Fields of the governor's register, as they act (R282). -/
def clampG (n : Nat) : Nat := max 4 (min n 16)
def Ring.gmin (r : Ring) : Nat := clampG (fld r.reg.toNat 4 0)
def Ring.gmax (r : Ring) : Nat := clampG (fld r.reg.toNat 12 8)
def Ring.gfix (r : Ring) : Nat := let n := fld r.reg.toNat 20 16; if n = 0 then 0 else clampG n

/-- The rate that the governor chooses (R281). -/
def Ring.govern (r : Ring) (stalled : Bool) : Nat :=
  let o := r.occupancy
  let g := if stalled || r.held || 15 ≤ o then r.newG - 1 else if o ≤ 12 then r.newG + 1 else r.newG
  let g := max r.gmin (min g (min r.gmax r.gp))
  if r.gfix ≠ 0 then max 4 (min r.gfix r.gp) else g

/-- `GOVERNOR_EVALUATION` (R281): once every 4,096 beats; `held` says that an HBM controller has held KV requests below their
share in the interval. A `board` that is held now has been stalled in the next interval too. -/
def execGovernorEvaluation (held : Bool) (s : State) : Out :=
  .next (if s.ring.governed then s
    else
      let r := { s.ring with held := held }
      let stalled := (List.range Config.clusters).any fun c => (s.boardQueue c) ≠ []
      { s with ring := { r with newG := r.govern (r.full || stalled), full := stalled, beats := 0 } })

end Sys2Proof.Machine
end

