-- ==== Sys2Proof/Machine/Caps.lean ====
section
/-! DEFINITION. Capability entries (R284 to R286), queues that the device writes (R332, R336), MSI-X messages (R450), transfers
over Ultra Ethernet (R461 to R463), and messages: `send`, `recv` and their steps (R299 to R301). -/
namespace Sys2Proof.Machine

/-- Contexts whose kernels may be dispatched. -/
def CtxSt.live (x : CtxSt) : Bool := x = .bound || x = .runnable || x = .running || x = .shared

/-! ### Capability entries (R284 to R286) -/

/-- Fields of an entry. -/
def capKind (e : BitVec 128) : Nat := fld e.toNat 3 0
def capDep (e : BitVec 128) : Nat := fld e.toNat 7 4
def capIdx (e : BitVec 128) : Nat := fld e.toNat 47 32
def capAllow (e : BitVec 128) : Nat := fld e.toNat 63 48
def capAddr (e : BitVec 128) : Dword := e.extractLsb' 64 64

/-- Entry kinds (R284). -/
def kCOPY : Nat := 1
def kGATHER : Nat := 2
def kCOLL : Nat := 3
def kCONC : Nat := 4
def kPAGEENG : Nat := 5
def kMBOX : Nat := 6
def kQUEUE : Nat := 7
def kLINK : Nat := 8
def kPOOL : Nat := 9

/-- The permission bits: J, S, RV, P. -/
def permJ : Nat := 8
def permS : Nat := 9
def permRV : Nat := 10
def permP : Nat := 11

/-- The pool of a context at a number, if it is valid (R391). -/
def Ctx.pool? (x : Ctx) (n : Nat) : Option Pool := x.pools[n]?.bind fun p => if p.np = 0 then none else some p

/-- A queue of a context. -/
def Ctx.queue (x : Ctx) (q : Nat) : Queue := x.queues.getD q Queue.blank

/-- A template entry as it is loaded (R284, R332, R391): an entry that breaks a rule is INVALID, which is 0. -/
def loadCap (x : Ctx) (e : BitVec 128) : BitVec 128 :=
  let k := capKind e
  let bad := 9 < k || fld e.toNat 31 12 ≠ 0 || (k ≠ kMBOX && (capAddr e ≠ 0 || capDep e ≠ 0)) || 8 < capDep e
    || (k = kQUEUE && !((x.queue (capIdx e)).kind = .completion || (x.queue (capIdx e)).kind = .output))
    || (k = kPOOL && (x.pool? (capIdx e)).isNone)
  if bad then 0 else e

/-- Entry N of a group's team. -/
def State.cap (s : State) (g : Group) (n : Nat) : BitVec 128 :=
  match s.teams[g.team]? with | some t => t.caps.getD n 0 | none => 0

/-- The checks of R285: the first failing detail. -/
def capFault (e : BitVec 128) (kinds : List Nat) (perm : Nat) : Option Nat :=
  if capKind e = 0 then some 1
  else if !kinds.contains (capKind e) then some 2
  else if !e.getLsbD perm then some 3
  else if capAllow e = 0 then some 4 else none

/-- An entry with ALLOW replaced. -/
def capSetAllow (e : BitVec 128) (n : Nat) : BitVec 128 := BitVec.ofNat 128 (setFld e.toNat 63 48 n)

/-- A use of an entry (R286). -/
def State.useCap (s : State) (g : Group) (n : Nat) : State :=
  let e := s.cap g n
  if capAllow e = 0xffff then s
  else s.onTeam g.team fun t => { t with caps := t.caps.setIfInBounds n (capSetAllow e (capAllow e - 1)) }

/-- A use of an entry is given back: its word has changed nothing (R394). -/
def State.giveCap (s : State) (g : Group) (n : Nat) : State :=
  let e := s.cap g n
  if capAllow e = 0xffff then s
  else s.onTeam g.team fun t => { t with caps := t.caps.setIfInBounds n (capSetAllow e (capAllow e + 1)) }

/-! ### MSI-X (R450) -/

/-- A vector of a function is raised: one message, or the pending bit of a masked vector; a function in reset sends none
(R451). -/
def State.raise (s : State) (fn vec : Nat) : State :=
  match s.fns[fn]? with
  | none => s
  | some f =>
    if f.resetting then s
    else
      match f.msix[vec]? with
      | none => s
      | some m =>
        if m.masked then { s with fns := s.fns.set fn { f with msix := f.msix.set vec { m with pend := true } } }
        else { s with sent := s.sent ++ [.msix fn vec] }

/-- A vector of a context's function. -/
def State.raiseCtx (s : State) (c vec : Nat) : State := s.raise (s.ctx c).d.fn vec

/-! ### Device-produced queues (R336) -/

/-- A queue of a context changed in place. -/
def State.onQueue (s : State) (c q : Nat) (f : Queue → Queue) : State :=
  s.onCtx c fun x => { x with queues := updAt x.queues q f }

/-- A device-produced queue with space: not halted by an error. -/
def Queue.room (q : Queue) : Bool :=
  (q.kind = .completion || q.kind = .output) && !q.err && (q.pi - q.ci).toNat < 2 ^ q.logn

/-- The phase bit for an index (R336). -/
def phaseBit (pi : Word) (logn : Nat) : Bool := !(pi.toNat.testBit logn)

/-- An entry with its phase bit. -/
def withPhase (data : BitVec 128) (p : Bool) : BitVec 128 :=
  BitVec.ofNat 128 (setFld data.toNat 127 127 (if p then 1 else 0))

/-- An entry written to a queue that has space, and its vector raised. An entry whose memory refuses the write is lost (log
entry 24). -/
def State.queueWrite (s : State) (c q : Nat) (data : BitVec 128) : State :=
  let x := (s.ctx c).queue q
  let e := withPhase data (phaseBit x.pi x.logn)
  let s := (s.store (agent c) .gl (x.base.toNat + x.pi.toNat % 2 ^ x.logn * 16) (toBytes 16 e.toNat) none).1
  let s := s.onQueue c q fun y => { y with pi := y.pi + 1 }
  if x.ien then s.raiseCtx c x.ivec else s

/-- An entry handed to the queue processor, behind what waits for the queue already. -/
def State.postEntry (s : State) (c : Nat) (p : Post) : State := s.onCtx c fun x => { x with posts := x.posts ++ [p] }

/-- The layout of a completion entry (R340). -/
def completionEntry (status kind : Nat) (data tag : Word) : BitVec 128 :=
  BitVec.ofNat 128 (tag.toNat + data.toNat * 2 ^ 32 + kind * 2 ^ 88 + status * 2 ^ 96)

/-- The layout of an output entry (R341). -/
def outputEntry (end_ : Nat) (pos tok tag : Word) : BitVec 128 :=
  BitVec.ofNat 128 (tag.toNat + tok.toNat * 2 ^ 32 + pos.toNat * 2 ^ 64 + end_ * 2 ^ 96)

/-- A launch's completion posted: it goes to its completion queue (R340). -/
def State.postLaunch (s : State) (c : Nat) (l : Launch) (status : Nat) (data : Word) : State :=
  s.postEntry c ⟨l.cq, completionEntry status l.kind data l.tag, none, some l.id⟩

/-- `DEVICE_QUEUE_ENTRY_WRITE` (R336): the oldest entry that waits for a queue, once it has space; the operation or launch that it
reports is complete. -/
def execDeviceQueueEntryWrite (cx q : Nat) (s : State) : Out :=
  .next (let x := s.ctx cx
    match x.posts.find? fun p => p.queue = q with
    | none => s
    | some p =>
      if !(x.queue q).room || x.st = .saved || x.st = .free then s
      else
        let s := s.queueWrite cx q p.data
        let s := s.onCtx cx fun y =>
          { y with posts := y.posts.erase p,
                   launches := y.launches.filter fun l => p.launch ≠ some l.id }
        match p.op with
        | some o => s.complete o.1 o.2
        | none => s)

/-! ### Transfers (R461 to R463) -/

/-- A peer table entry (R462). -/
def peerOfBytes (bs : List Byte) : Peer :=
  let at_ := fun (o n : Nat) => ofBytes ((bs.drop o).take n)
  { paddr := at_ 0 16, job := at_ 16 3, rod := fld (at_ 19 1) 0 0 = 1, valid := fld (at_ 19 1) 1 1 = 1,
    reserved := fld (at_ 19 1) 7 2 ≠ 0 || at_ 21 3 ≠ 0, rctx := at_ 20 1, rmbx := BitVec.ofNat 64 (at_ 24 8) }

/-- The peer entry that a LINK IDX names, read on its first use (R462); none where the transfer is dropped (R463). -/
def State.peer (s : State) (fn idx : Nat) : State × Option Peer :=
  let port := idx % 16
  let e := idx / 16
  match s.fns[fn]? with
  | none => (s, none)
  | some f =>
    let down := match s.ports[port + 2]? with | some p => p.st = .failed | none => true
    if 11 < port || down || f.peert.toNat % 4096 < e then (s, none)
    else
      let r : State × Peer :=
        match f.peers.find? fun p => p.1 = e with
        | some p => (s, p.2)
        | none =>
          let p := peerOfBytes (s.physRead (f.peert.toNat / 4096 * 4096 + 32 * e) 32)
          ({ s with fns := s.fns.set fn { f with peers := f.peers ++ [(e, p)] } }, p)
      (r.1, if r.2.valid && !r.2.reserved then some r.2 else none)

/-- The record of a transfer that is dropped (R299, R463). -/
def State.unreach (s : State) (c : Nat) (addr : Dword) : State :=
  s.post c { Rec.blank with cause := cCAP, detail := 5, kind := 5, addr := addr }

/-- The code of what a packet carries. -/
def XferKind.code : XferKind → Nat
  | .message => 1 | .arrival => 2 | .page .. => 3 | .coll _ => 4

/-- A packet goes out on its port, or is held while the port is down or training (R468); a failed port sends nothing. -/
def State.emit (s : State) (p : Packet) : State :=
  match s.ports[p.port + 2]? with
  | some x => match x.st with
    | .up => { s with sent := s.sent ++ [.packet p] }
    | .degraded => { s with sent := s.sent ++ [.packet p] }
    | .failed => s
    | _ => { s with heldPkts := s.heldPkts ++ [p] }
  | none => s

/-- The packets held for a port that is up again go out in their order; those of a port that has failed are gone (R468). -/
def State.releaseHeld (s : State) (port : Nat) : State :=
  (s.heldPkts.filter fun p => p.port = port).foldl State.emit { s with heldPkts := s.heldPkts.filter fun p => p.port ≠ port }

/-- Transfers dropped, with the packets of theirs that have not gone out. -/
def State.dropXfers (s : State) (out : Xfer → Bool) : State :=
  let ids := (s.xfers.filter out).map Xfer.id
  { s with xfers := s.xfers.filter (fun y => !out y), heldPkts := s.heldPkts.filter fun p => !(p.xfer.any ids.contains) }

/-- A transfer is forgotten. -/
def State.dropXfer (s : State) (x : Nat) : State := s.dropXfers fun y => y.id = x

/-- The payloads of the packets that carry some bytes: at most 4,096 each, one where there are none (R461). -/
def payloads (bs : List Byte) : List (Nat × List Byte) :=
  (List.range (max 1 ((bs.length + 4095) / 4096))).map fun i => (4096 * i, (bs.drop (4096 * i)).take 4096)

/-- A transfer sent, or dropped (R463): true when it was sent. `addr` gives the remote address from the peer entry, `names` what the
bytes are of. Messages always go by
ROD, the others by the mode of the peer entry (R461). -/
def State.transfer (s : State) (c idx : Nat) (k : XferKind) (addr : Peer → Dword) (data : List Byte)
    (op : Option (Nat × Nat)) (names : List Nat := []) : State × Bool :=
  match s.peer (s.ctx c).d.fn idx with
  | (s, none) => (s.unreach c 0, false)
  | (s, some p) =>
    let w := s.windowOf c
    let n := s.nextXfer
    let ps := (payloads data).map fun x =>
      ({ port := idx % 16, kind := k.code, xfer := some n, paddr := p.paddr, job := p.job, rod := p.rod || k = .message, peer := p.rctx,
         addr := addr p, names := names, off := x.1, total := data.length, window := w, wink := (s.ctx c).d.wink, unsync := s.clock.st != 2,
         data := x.2 } : Packet)
    let x : Xfer := ⟨n, c, idx % 16, p.rctx, k, addr p, w, op, ps.length, p.paddr, p.job⟩
    (ps.foldl State.emit { s with xfers := s.xfers ++ [x], nextXfer := n + 1 }, true)

/-! ### Messages (R299 to R301) -/

/-- The 16-byte places of a mailbox: its header and slots (R299). -/
def mboxCells (addr : Dword) (dep : Nat) : List Nat := (List.range (1 + 2 ^ (dep + 4))).map fun i => addr.toNat + 16 * i

/-- The first failure of a list of 16-byte places, each the target of an atomic (R159, R300). -/
def State.checkCells (s : State) (u : Who) : List Nat → State × Option (Nat × Nat × Nat)
  | [] => (s, none)
  | a :: as =>
    match s.locate u { space := .gl, bytes := 16, acc := .a } (BitVec.ofNat 64 a) with
    | (s, .error f) => (s, some (f.1, f.2, a))
    | (s, .ok _) => State.checkCells s u as

/-- One field of a mailbox header taken and counted on (R300, R301): the claimed index. -/
def State.claim (s : State) (u : Who) (va : Nat) : State × Except (Nat × Nat) Word :=
  match s.locate u { space := .gl, bytes := 4, acc := .a } (BitVec.ofNat 64 va) with
  | (s, .error f) => (s, .error f)
  | (s, .ok loc) =>
    match s.heldFault u loc 4 with
    | some f => (s, .error f)
    | none =>
      let r := s.readLoc loc 4
      let n : Word := BitVec.ofNat 32 (ofBytes r.2)
      (r.1.writeLoc loc (toBytes 4 (n + 1).toNat), .ok n)

/-- The address of slot w of a mailbox. -/
def mboxSlot (addr : Dword) (dep : Nat) (w : Word) : Dword :=
  addr + 16 + BitVec.ofNat 64 (16 * (w.toNat % 2 ^ (dep + 4)))

/-- A message word that fails its check: every issuing lane is faulted at it and returns to it (R300, R301). -/
def State.msgFail (s : State) (c : Wctx) (f : Nat × Nat × Nat) : State :=
  s.deferAll c.gi c.pc c.hm true ((lanesOf c.lanes).map fun l => (l.val, f.1, f.2.1, BitVec.ofNat 64 f.2.2))

/-- The registers of `send`. -/
def specSend (h : Hdr) (b : BitVec 6) : WordSpec :=
  { h := h, pipe := .x, sr := runOf b.toNat 4, cnt := some .cp, side := true }

/-- The payload of `send`, the lowest word first. -/
def sendPayload (g : Group) (b : BitVec 6) : BitVec 128 :=
  BitVec.ofNat 128 (ofBytes ((runOf b.toNat 4).flatMap fun r => toBytes 4 (g.sreg r).toNat))

/-- `SEND` (R300). -/
def execSend (h : Hdr) (a b : BitVec 6) (s : State) : Out :=
  .next (word (specSend h b) s fun c s =>
    let g := c.snap
    let n := a.toNat
    let e := s.cap g n
    let cx := s.ctxOf g
    let data := sendPayload g b
    let id := (s.grp c.gi).nextOp
    match capFault e [kMBOX, kQUEUE, kLINK] permS with
    | some d => .raise cCAP d
    | none =>
      if blockedAccess c then .hold c.blockKind
      else if capKind e = kMBOX then
        let u := s.whoOf g
        match s.checkCells u (mboxCells (capAddr e) (capDep e)) with
        | (s, some f) => .ok (s.msgFail c f)
        | (s, none) =>
          match s.claim u (capAddr e).toNat with
          | (s, .error f) => if f.1 = cHOLD then .hold .side else .ok (s.msgFail c (f.1, f.2, (capAddr e).toNat))
          | (s, .ok w) =>
            let s := (s.useCap g n).start c .cp c.lanes .send [] []
            .ok { s with msgs := s.msgs ++ [⟨cx, mboxSlot (capAddr e) (capDep e) w, data, some (c.gi, id), none⟩] }
      else if capKind e = kQUEUE then
        .ok (((s.useCap g n).start c .cp 0 .send [] []).postEntry cx ⟨capIdx e, data, some (c.gi, id), none⟩)
      else
        let s := (s.useCap g n).start c .cp 0 .send [] []
        let r := s.transfer cx (capIdx e) .message (fun p => p.rmbx) (toBytes 16 data.toNat) (some (c.gi, id))
        .ok (if r.2 then r.1 else r.1.complete c.gi id))

/-- The registers of `recv`. -/
def specRecv (h : Hdr) (d : BitVec 6) : WordSpec := { h := h, pipe := .x, sw := runOf d.toNat 4, cnt := some .ld }

/-- `RECV` (R301). -/
def execRecv (h : Hdr) (d a : BitVec 6) (s : State) : Out :=
  .next (word (specRecv h d) s fun c s =>
    let g := c.snap
    let e := s.cap g a.toNat
    match capFault e [kMBOX] permRV with
    | some x => .raise cCAP x
    | none =>
      if blockedAccess c then .hold c.blockKind
      else
        let u := s.whoOf g
        let fail := fun (s : State) (f : Nat × Nat × Nat) =>
          let id := (s.grp c.gi).nextOp
          ((s.start c .ld 0 .posted [] (runOf d.toNat 4)).msgFail c f).complete c.gi id
        match s.checkCells u (mboxCells (capAddr e) (capDep e)) with
        | (s, some f) => .ok (fail s f)
        | (s, none) =>
          match s.claim u ((capAddr e).toNat + 4) with
          | (s, .error f) => if f.1 = cHOLD then .hold .side else .ok (fail s (f.1, f.2, (capAddr e).toNat))
          | (s, .ok q) =>
            .ok ((s.useCap g a.toNat).start c .ld 0 (.recv d.toNat (mboxSlot (capAddr e) (capDep e) q)) []
              (runOf d.toNat 4)))

/-- The place of a mailbox slot, for its one access: a `recv` reads it, a message is written to it (R382). -/
def State.slotLoc (s : State) (c : Nat) (slot : Dword) (acc : Acc) : State × Except (Nat × Nat) Loc :=
  match s.locate (agent c) { space := .gl, bytes := 16, acc := acc } slot with
  | (s, .error f) => (s, .error f)
  | (s, .ok loc) => match s.heldFault (agent c) loc 16 with | some f => (s, .error f) | none => (s, .ok loc)

/-- The message at a place has claimed its slot before every other message for that slot that still waits. -/
def State.msgFirst (s : State) (k : Nat) (m : Msg) : Bool :=
  (s.msgs.take k).all fun x => !(x.ctx = m.ctx && x.slot = m.slot)

/-- `MBOX_SLOT_READ` (R301): once the claimed slot is full, the `recv` reads it and empties it. DESIGN CHOICE (log entry 93): a read that
fails sets `rpc` to the word too, so that its replay claims another slot. -/
def execMboxSlotRead (gi id : Nat) (s : State) : Out :=
  .next (match (s.grp gi).op? id with
    | none => s
    | some o =>
      match o.kind with
      | .recv d slot =>
        if o.done || !s.onCore gi then s
        else
          match s.slotLoc (s.ctxOf (s.grp gi)) slot .r with
          | (t, .error f) =>
            if f.1 = cHOLD then s else
            (t.deferAll gi o.pc o.hm true ((lanesOf o.lanes).map fun l => (l.val, f.1, f.2, slot))).complete gi id
          | (s, .ok loc) =>
            if !s.feAt loc then s
            else
              let r := s.readLoc loc 16
              let s := r.1.setFe loc false
              let s := s.onGrp gi fun g => (List.range 4).foldl
                (fun g i => g.setS (d + i) (BitVec.ofNat 32 (ofBytes ((r.2.drop (4 * i)).take 4)))) g
              s.complete gi id
      | _ => s)

/-! ### What arrives from peers (R461, R466, R467) -/

/-- A packet is late (R466): 2 when it was sent unsynchronised, 1 when it arrives too late. -/
def State.lateness (s : State) (via : Via) : Nat :=
  if via.unsync then 2 else if (via.window + 2) * 2 ^ via.wink * 1000 ≤ s.clock.ns then 1 else 0

/-- The WINDOW record of a late packet (R202, R467); a context that is free has none. -/
def State.windowRec (s : State) (cx port : Nat) (addr : Dword) (window detail : Nat) : State :=
  if detail = 0 || (s.ctx cx).st = .free then s
  else s.post cx { Rec.blank with cause := cWINDOW, detail := detail, kind := 4, addr := addr,
                                  x0 := BitVec.ofNat 32 port, x1 := BitVec.ofNat 32 window }

/-- What the device answers a peer's packet: an acknowledgement (code 6) with the late flag, or a refusal (code 5). -/
def State.answer (s : State) (via : Via) (code cx : Nat) (addr : Dword) (late : Bool) : State :=
  s.emit { port := via.port, kind := code, peer := cx, addr := addr, window := via.window, wink := via.wink, unsync := late }

/-- A packet is applied (R202, R466, R467): one that came late, by detail d, is recorded for the context, and the sender is told. -/
def State.applied (s : State) (cx : Nat) (via : Via) (addr : Dword) (d : Nat) : State :=
  (s.windowRec cx via.port addr via.window d).answer via 6 cx addr (d ≠ 0)

end Sys2Proof.Machine
end

