-- ==== Sys2Proof/Machine/Barrier.lean ====
section
/-! DEFINITION. Class BAR: barrier cells, remote arrivals, the grid barrier (R305 to R315), and the steps that end their
waits. -/
namespace Sys2Proof.Machine

/-! ### Cells (R305 to R309) -/

/-- The fields of a cell. -/
def cellArr (n : Nat) : Nat := fld n 31 0
def cellExp (n : Nat) : Nat := fld n 63 32
def cellPh (n : Nat) : Word := BitVec.ofNat 32 (fld n 95 64)

/-- A cell with its count and phase replaced. -/
def cellPut (n arr : Nat) (ph : Word) : Nat := setFld (setFld n 31 0 arr) 95 64 ph.toNat

/-- An arrival (R306): the phase that it found, and the cell after it. -/
def arriveCell (n : Nat) : Word × Nat :=
  let a := (cellArr n + 1) % 2 ^ 32
  (cellPh n, if cellExp n ≤ a then cellPut n 0 (cellPh n + 1) else cellPut n a (cellPh n))

/-- Phase t has passed (R307). -/
def phasePassed (ph t : Word) : Bool := 1 ≤ (ph - t).toNat && (ph - t).toNat < 2 ^ 31

/-- The address of a cell (R308). -/
def cellAddr (g : Group) (a : BitVec 6) (sp : Bool) : Dword :=
  if sp then (g.sreg a.toNat).setWidth 64 else g.spair a.toNat

/-- The checks of a cell, and its place (R309). -/
def State.cellLoc (s : State) (u : Who) (sp : Bool) (addr : Dword) (acc : Acc) : State × Except (Nat × Nat) Loc :=
  match s.locate u { space := if sp then .sp else .gl, bytes := 16, acc := acc, noPort := true } addr with
  | (s, .error f) => (s, .error f)
  | (s, .ok loc) => match s.lateFault u loc 16 with | some f => (s, .error f) | none => (s, .ok loc)

/-- A cell word that fails its checks: every issuing lane is faulted at it and returns to it (R309). -/
def State.cellFail (s : State) (c : Wctx) (addr : Dword) (f : Nat × Nat) : State :=
  s.deferAll c.gi c.pc c.hm true ((lanesOf c.lanes).map fun l => (l.val, f.1, f.2, addr))

/-- The registers of a cell word: the address, and `d` read, written or both. -/
def specCell (h : Hdr) (d a : BitVec 6) (sp reads writes side hnot : Bool) : WordSpec :=
  { h := h, pipe := .x, sr := (if sp then [a.toNat] else pairOf a) ++ (if reads then [d.toNat] else []),
    sw := if writes then [d.toNat] else [], side := side, hnot := hnot }

/-- A cell word: its checks, then what it does with the cell at its place. -/
def cellWord (w : WordSpec) (a : BitVec 6) (sp : Bool) (acc : Acc) (s : State)
    (f : Wctx → State → Loc → Dword → Nat → Res) : State :=
  word w s fun c s =>
    let addr := cellAddr c.snap a sp
    if blockedAccess c then .hold c.blockKind
    else
      match s.cellLoc (s.whoOf c.snap) sp addr acc with
      | (s, .error e) => .ok (s.cellFail c addr e)
      | (s, .ok loc) => let r := s.readLoc loc 16; f c r.1 loc addr (ofBytes r.2)

/-- A cell written. -/
def State.putCell (s : State) (loc : Loc) (n : Nat) : State := s.writeLoc loc (toBytes 16 n)

/-- The registers of the cell words, by function (R310). -/
def specBar (h : Hdr) (d a : BitVec 6) (p : Bool) : WordSpec := specCell h d a p false true true true
def specBarr (h : Hdr) (d a : BitVec 6) (p : Bool) : WordSpec := specCell h d a p false true true false
def specBarw (h : Hdr) (d a : BitVec 6) (p : Bool) : WordSpec := specCell h d a p true false false false
def specBart (h : Hdr) (d a : BitVec 6) (p : Bool) : WordSpec := specCell h d a p true true false false
def specPhaseRd (h : Hdr) (d a : BitVec 6) (p : Bool) : WordSpec := specCell h d a p false true false false
def specPhaseInit (h : Hdr) (d a : BitVec 6) (p : Bool) : WordSpec := specCell h d a p true false false false

/-- `BAR` (R310): the arrival is made, and the group waits for the phase it found. -/
def execBar (h : Hdr) (d a : BitVec 6) (p : Bool) (_s : BitVec 2) (s : State) : Out :=
  .next (cellWord (specBar h d a p) a p .a s fun c s loc addr n =>
    let r := arriveCell n
    .wait (.bar p addr r.1) ((s.putCell loc r.2).onGrp c.gi fun g => g.setS d.toNat r.1))

/-- `BARR` (R310). -/
def execBarr (h : Hdr) (d a : BitVec 6) (p : Bool) (_s : BitVec 2) (s : State) : Out :=
  .next (cellWord (specBarr h d a p) a p .a s fun c s loc _ n =>
    let r := arriveCell n
    putS c (s.putCell loc r.2) d.toNat r.1)

/-- `BARW` (R310). -/
def execBarw (h : Hdr) (d a : BitVec 6) (p : Bool) (_s : BitVec 2) (s : State) : Out :=
  .next (cellWord (specBarw h d a p) a p .r s fun c s _ addr n =>
    let t := c.snap.sreg d.toNat
    if phasePassed (cellPh n) t then .ok s else .wait (.barw p addr t) s)

/-- `BART` (R311): one read, then a try-wait of 2^(h+5) clk where h is not 0. -/
def execBart (h : Hdr) (d a : BitVec 6) (hint : BitVec 3) (p : Bool) (_s : BitVec 2) (s : State) : Out :=
  .next (cellWord (specBart h d a p) a p .r s fun c s _ addr n =>
    let t := c.snap.sreg d.toNat
    if phasePassed (cellPh n) t then putS c s d.toNat 1
    else if hint = 0#3 then putS c s d.toNat 0
    else .wait (.bart p addr t d.toNat (s.clk + 2 ^ (hint.toNat + 5))) s)

/-- `PHASE.RD` (R310). -/
def execPhaseRd (h : Hdr) (d a : BitVec 6) (p : Bool) (_s : BitVec 2) (s : State) : Out :=
  .next (cellWord (specPhaseRd h d a p) a p .r s fun c s _ _ n => putS c s d.toNat (cellPh n))

/-- `PHASE.ARR` (R310). -/
def execPhaseArr (h : Hdr) (d a : BitVec 6) (p : Bool) (_s : BitVec 2) (s : State) : Out :=
  .next (cellWord (specPhaseRd h d a p) a p .r s fun c s _ _ n => putS c s d.toNat (BitVec.ofNat 32 (cellArr n)))

/-- `PHASE.INIT` (R310): ARR 0 and EXP set in one access, PH kept. -/
def execPhaseInit (h : Hdr) (d a : BitVec 6) (p : Bool) (_s : BitVec 2) (s : State) : Out :=
  .next (cellWord (specPhaseInit h d a p) a p .a s fun c s loc _ n =>
    .ok (s.putCell loc (setFld (setFld n 31 0 0) 63 32 (c.snap.sreg d.toNat).toNat)))

/-! ### Remote arrivals (R313) -/

/-- The registers of `barr.rem`. -/
def specBarrRem (h : Hdr) (a : BitVec 6) : WordSpec := { h := h, pipe := .x, sr := pairOf a, side := true }

/-- `BARR.REM` (R313). -/
def execBarrRem (h : Hdr) (d a : BitVec 6) (s : State) : Out :=
  .next (word (specBarrRem h a) s fun c s =>
    let e := s.cap c.snap d.toNat
    match capFault e [kLINK] permS with
    | some x => .raise cCAP x
    | none =>
      if blockedAccess c then .hold c.blockKind
      else
      .ok ((s.useCap c.snap d.toNat).transfer (s.ctxOf c.snap) (capIdx e) .arrival (fun _ => c.snap.spair a.toNat) []
        none).1)

/-! ### The grid barrier (R314) -/

/-- The registers of `gbar`. -/
def specGbar (h : Hdr) (d : BitVec 6) : WordSpec := { h := h, pipe := .x, sw := [d.toNat], side := true }

/-- The generation of a group's kernel. -/
def State.generation (s : State) (k : Nat) : Nat := match s.kernels[k]? with | some kn => kn.barGen | none => 0

/-- `GBAR` (R314): the group arrives, and waits for the generation to pass the one it found. The last arrival advances it, and waits
for nothing. -/
def execGbar (h : Hdr) (d : BitVec 6) (s : State) : Out :=
  .next (word (specGbar h d) s fun c s =>
    let k := c.snap.kernel
    let gen := s.generation k
    if blockedAccess c then .hold c.blockKind
    else
    let s := (s.onKernel k fun kn => { kn with arrived := addOnce kn.arrived c.gi }).gridCheck k
    let s := s.onGrp c.gi fun g => g.setS d.toNat (BitVec.ofNat 32 gen)
    if gen < s.generation k then .ok s else .wait (.gbar gen) s)

/-! ### The ends of waits -/

/-- The cell that a wait reads, and the phase it waits for. -/
def StallKind.cell? : StallKind → Option (Bool × Dword × Word)
  | .bar sp a t => some (sp, a, t)
  | .barw sp a t => some (sp, a, t)
  | .bart sp a t _ _ => some (sp, a, t)
  | _ => none

/-- One read of the cell that a group waits on: whether the phase has passed (R307), or the failure of the read. -/
def State.cellPassed (s : State) (gi : Nat) (w : Bool × Dword × Word) : State × Except (Nat × Nat) Bool :=
  match s.cellLoc (s.whoOf (s.grp gi)) w.1 w.2.1 .r with
  | (s, .error f) => (s, .error f)
  | (s, .ok loc) => let r := s.readLoc loc 16; (r.1, .ok (phasePassed (cellPh (ofBytes r.2)) w.2.2))

/-- A repeated read that fails (R309): the lanes of the waiting word are faulted at it and return to it. The other lanes go on, and the wait
is set aside, so that a `bar` that they return to makes no second arrival (R310; log entry 52). -/
def State.waitFails (s : State) (gi : Nat) (addr : Dword) (f : Nat × Nat) : State :=
  let g := s.grp gi
  match g.cur with
  | none => s
  | some t =>
    let ls := if g.hm then t.lanes else t.lanes &&& g.inState .runnable
    let s := s.deferAll gi t.pc g.hm true ((lanesOf ls).map fun l => (l.val, f.1, f.2, addr))
    (s.onGrp gi fun h => if g.hm then h else
      { h.resumeMain with kept := if t.kind.arrived then t :: h.kept else h.kept }).settle gi false

/-- The result of a `bart`, and the end of its wait. -/
def Group.endBart (g : Group) (x : Word) : Group :=
  match g.cur with
  | some t => match t.kind with
    | .bart _ _ _ d _ => (g.setS d x).resumeWait
    | _ => g.resumeWait
  | none => g

/-- Every try-wait of a group ends with 0 (R311). -/
def Group.endBarts (g : Group) : Group :=
  let g := match g.stall with
    | some t => (match t.kind with | .bart _ _ _ d _ => (g.setS d 0).resumeMain | _ => g)
    | none => g
  match g.hstall with
  | some t => (match t.kind with | .bart _ _ _ d _ => (g.setS d 0).resumeHandler | _ => g)
  | none => g

/-- `BARRIER_WAIT_COMPLETE` (R307): a read of the cell finds that the phase has passed. -/
def execBarrierWaitComplete (gi : Nat) (s : State) : Out :=
  .next (match (s.grp gi).cur.bind fun t => t.kind.cell? with
    | some w =>
      if !s.onCore gi then s
      else
      match s.cellPassed gi w with
      | (s, .ok true) => (s.onGrp gi fun g => g.endBart 1).settle gi false
      | (s, .ok false) => s
      | (s, .error f) => s.waitFails gi w.2.1 f
    | none => s)

/-- `BART_EXPIRY` (R311): the time of a try-wait is over; its last read gives the result. -/
def execBartExpiry (gi : Nat) (s : State) : Out :=
  .next (match (s.grp gi).cur with
    | some t => match t.kind with
      | .bart sp a ph _ till =>
        if s.clk < till || !s.onCore gi then s
        else
          match s.cellPassed gi (sp, a, ph) with
          | (s, .ok ok) => (s.onGrp gi fun g => g.endBart (if ok then 1 else 0)).settle gi false
          | (s, .error f) => s.waitFails gi a f
      | _ => s
    | none => s)

end Sys2Proof.Machine
end

