-- ==== Sys2Proof/Machine/IntAlu.lean ====
section
/-! DEFINITION. The integer words: classes IALU, IALUI, SALU and SALUI (R126 to R133). -/
namespace Sys2Proof.Machine

/-! ### The functions, on values of `w` bits -/

/-- The one-word binary functions (R126). -/
inductive BinFn where
  | add | sub | mul | mulhiN | mulhiI | divN | divI | remN | remI | minN | minI | maxN | maxI | and | or | xor
  | shl | shr | sra | rot
  deriving DecidableEq, Repr

/-- The unary functions (R128). -/
inductive UnFn where
  | abs | neg | not | clz | popc | brev | mov
  deriving DecidableEq, Repr

/-- A binary function of R126 on `w`-bit values, with the borderline operands of R127. -/
def binFn {w : Nat} (k : BinFn) (x y : BitVec w) : BitVec w :=
  match k with
  | .add => x + y
  | .sub => x - y
  | .mul => x * y
  | .mulhiN => BitVec.ofNat w (x.toNat * y.toNat / 2 ^ w)
  | .mulhiI => BitVec.ofInt w (x.toInt * y.toInt / 2 ^ w)
  | .divN => if y = 0 then BitVec.allOnes w else BitVec.ofNat w (x.toNat / y.toNat)
  | .divI => if y = 0 then BitVec.allOnes w else BitVec.ofInt w (x.toInt.tdiv y.toInt)
  | .remN => if y = 0 then x else BitVec.ofNat w (x.toNat % y.toNat)
  | .remI => if y = 0 then x else BitVec.ofInt w (x.toInt.tmod y.toInt)
  | .minN => if x.toNat ≤ y.toNat then x else y
  | .minI => if x.toInt ≤ y.toInt then x else y
  | .maxN => if x.toNat ≤ y.toNat then y else x
  | .maxI => if x.toInt ≤ y.toInt then y else x
  | .and => x &&& y
  | .or => x ||| y
  | .xor => x ^^^ y
  | .shl => if w ≤ y.toNat then 0 else x <<< y.toNat
  | .shr => if w ≤ y.toNat then 0 else x >>> y.toNat
  | .sra => if w ≤ y.toNat then x.sshiftRight w else x.sshiftRight y.toNat
  | .rot => x.rotateLeft (y.toNat % w)

/-- A unary function of R128 on a `w`-bit value. -/
def unFn {w : Nat} (k : UnFn) (x : BitVec w) : BitVec w :=
  match k with
  | .abs => if x.toInt < 0 then -x else x
  | .neg => -x
  | .not => ~~~x
  | .clz => BitVec.ofNat w (clzN w x.toNat)
  | .popc => BitVec.ofNat w (popN w x.toNat)
  | .brev => BitVec.ofNat w (brevN w x.toNat)
  | .mov => x

/-- The binary function of a function code (R38), which the escape's ifn names too. -/
def binOf (ifn : BitVec 5) : BinFn :=
  match ifn.toNat with
  | 0x00 => .add | 0x01 => .sub | 0x02 => .mul | 0x03 => .mulhiN | 0x04 => .mulhiI | 0x06 => .divN | 0x07 => .divI
  | 0x08 => .remN | 0x09 => .remI | 0x0a => .minN | 0x0b => .minI | 0x0c => .maxN | 0x0d => .maxI | 0x0e => .and
  | 0x0f => .or | 0x10 => .xor | 0x11 => .shl | 0x12 => .shr | 0x13 => .sra | _ => .rot

/-- The unary function of a sub-operation code (R128). -/
def unOf (b : BitVec 6) : UnFn :=
  match b.toNat with | 0 => .abs | 1 => .neg | 2 => .not | 3 => .clz | 4 => .popc | 5 => .brev | _ => .mov

/-- A 64-bit function of the escape (R131). -/
def escFn (ifn : BitVec 5) (b : BitVec 6) (x y : Dword) : Dword :=
  if ifn == 0x15#5 then unFn (unOf b) x else binFn (binOf ifn) x y

/-- Bits [pos+len-1:pos] of a word, extended (R130). -/
def bitField (signed : Bool) (x : Word) (pos : BitVec 5) (len : BitVec 6) : Word :=
  let f := x.toNat / 2 ^ pos.toNat % 2 ^ len.toNat
  if signed then BitVec.ofInt 32 (sx len.toNat f) else BitVec.ofNat 32 f

/-- b with bits [pos+len-1:pos] replaced by a's low bits (R130). -/
def bitInsert (a b : Word) (pos : BitVec 5) (len : BitVec 6) : Word :=
  BitVec.ofNat 32 (setFld b.toNat (pos.toNat + len.toNat - 1) pos.toNat a.toNat)

/-- `lea`: pair(a) + (extend(b) << sh) (R130). -/
def leaFn (a : Dword) (b : Word) (sh : BitVec 3) (zx : Bool) : Dword :=
  a + (if zx then b.setWidth 64 else b.signExtend 64) <<< sh.toNat

/-- The work identifier of a lane (R89): the lane, the group within the team, the team index. -/
def workId (s : State) (g : Group) (lane : Nat) : Nat :=
  match s.teams[g.team]?, s.kernels[g.kernel]? with
  | some t, some k => lane + g.idx * 2 ^ 5 + t.idx * 2 ^ (5 + k.h.w1)
  | _, _ => lane

/-- The part of a work identifier that `wid` names (R130): a field, the team index, or the whole. -/
def widPart (s : State) (g : Group) (lane : Nat) (sel : BitVec 3) : Dword :=
  let x := workId s g lane
  let w := match s.kernels[g.kernel]? with
    | some k => [5, k.h.w1, k.h.w2, k.h.w3, k.h.w4, k.h.w5]
    | none => [5, 0, 0, 0, 0, 0]
  match sel.toNat with
  | 6 => BitVec.ofNat 64 (x / 2 ^ (5 + w.getD 1 0))
  | 7 => BitVec.ofNat 64 x
  | n => BitVec.ofNat 64 (x / 2 ^ (w.take n).sum % 2 ^ w.getD n 0)

/-! ### The vector forms -/

/-- The pair of vector registers at a lane. -/
def srcPair (c : Wctx) (a : BitVec 6) : Fin 32 → Dword :=
  let x := c.snap.rows a.toNat
  let y := c.snap.rows (a.toNat + 1)
  fun l => pair x[l] y[l]

/-- The source of a unary word: a scalar register when m is 1 (R128). -/
def srcU (c : Wctx) (m : Bool) (a : BitVec 6) : Fin 32 → Word :=
  if m then fun _ => c.snap.sreg a.toNat else srcA c a

/-- A one-word binary function of IALU (R126). -/
def ialuBin (k : BinFn) (h : Hdr) (m : Bool) (d a b : BitVec 6) (s : State) : State :=
  word (specV2 h m d a b) s fun c s => putLanes c s d.toNat fun l => binFn k (srcA c a l) (srcB c h m b l)

/-- A unary function of IALU (R128). -/
def ialuUn (k : UnFn) (h : Hdr) (m : Bool) (d a : BitVec 6) (s : State) : State :=
  word (specV1 h m d a) s fun c s => putLanes c s d.toNat fun l => unFn k (srcU c m a l)

/-- `mov`: a whole copy of a Haar register keeps its coefficients and its tag (R121, R125, R128). -/
def ialuMove (h : Hdr) (m : Bool) (d a : BitVec 6) (s : State) : State :=
  word (specV1 h m d a) s fun c s =>
    if !m && c.lanes = allLanes && (c.snap.tag a.toNat).haar then
      .ok (s.onGrp c.gi fun g => g.setV d.toNat (c.snap.vreg a.toNat) (c.snap.tag a.toNat))
    else putLanes c s d.toNat (srcU c m a)

/-- A function of IALUI (R129). -/
def ialuImm (k : BinFn) (h : Hdr) (i6 : Bool) (d a imm : BitVec 6) (s : State) : State :=
  word (specV1 h false d a) s fun c s =>
    putLanes c s d.toNat fun l => binFn k (srcA c a l) (immOf h (BitVec.ofBool i6 ++ imm))

/-- `bfx` (R130); with m = 1 the source is scalar, as of a unary function (R28). -/
def ialuBfx (signed : Bool) (h : Hdr) (m : Bool) (d a : BitVec 6) (pos : BitVec 5) (len : BitVec 6) (s : State) : State :=
  word (specV1 h m d a) s fun c s => putLanes c s d.toNat fun l => bitField signed (srcU c m a l) pos len

/-! ### The scalar forms: once for the group (R132) -/

/-- The scalar source b, or the value a prefix gives (R36). -/
def sB (c : Wctx) (h : Hdr) (b : BitVec 6) : Word :=
  match h.limm with | some u => u ++ b | none => c.snap.sreg b.toNat

/-- A binary function of SALU (R132). -/
def saluBin (k : BinFn) (h : Hdr) (d a b : BitVec 6) (s : State) : State :=
  word (specS2 h d a b) s fun c s => putS c s d.toNat (binFn k (c.snap.sreg a.toNat) (sB c h b))

/-- A unary function of SALU (R132). -/
def saluUn (k : UnFn) (h : Hdr) (d a : BitVec 6) (s : State) : State :=
  word (specS1 h d a) s fun c s => putS c s d.toNat (unFn k (c.snap.sreg a.toNat))

/-- A function of SALUI (R129, R132). -/
def saluImm (k : BinFn) (h : Hdr) (i6 : Bool) (d a imm : BitVec 6) (s : State) : State :=
  word (specS1 h d a) s fun c s =>
    putS c s d.toNat (binFn k (c.snap.sreg a.toNat) (immOf h (BitVec.ofBool i6 ++ imm)))

/-- `bfx` of SALU (R132). -/
def saluBfx (signed : Bool) (h : Hdr) (d a : BitVec 6) (pos : BitVec 5) (len : BitVec 6) (s : State) : State :=
  word (specS1 h d a) s fun c s => putS c s d.toNat (bitField signed (c.snap.sreg a.toNat) pos len)

/-! ### The meanings -/

/-- `IALU_ADD` (R126). -/
def execIaluAdd (h : Hdr) (m : Bool) (d a b : BitVec 6) (s : State) : Out := .next (ialuBin .add h m d a b s)

/-- `IALU_SUB` (R126). -/
def execIaluSub (h : Hdr) (m : Bool) (d a b : BitVec 6) (s : State) : Out := .next (ialuBin .sub h m d a b s)

/-- `IALU_MUL` (R126). -/
def execIaluMul (h : Hdr) (m : Bool) (d a b : BitVec 6) (s : State) : Out := .next (ialuBin .mul h m d a b s)

/-- `IALU_MULHIN32` (R126). -/
def execIaluMulhiN32 (h : Hdr) (m : Bool) (d a b : BitVec 6) (s : State) : Out := .next (ialuBin .mulhiN h m d a b s)

/-- `IALU_MULHII32` (R126). -/
def execIaluMulhiI32 (h : Hdr) (m : Bool) (d a b : BitVec 6) (s : State) : Out := .next (ialuBin .mulhiI h m d a b s)

/-- `IALU_DIVN32` (R127). -/
def execIaluDivN32 (h : Hdr) (m : Bool) (d a b : BitVec 6) (s : State) : Out := .next (ialuBin .divN h m d a b s)

/-- `IALU_DIVI32` (R127). -/
def execIaluDivI32 (h : Hdr) (m : Bool) (d a b : BitVec 6) (s : State) : Out := .next (ialuBin .divI h m d a b s)

/-- `IALU_REMN32` (R127). -/
def execIaluRemN32 (h : Hdr) (m : Bool) (d a b : BitVec 6) (s : State) : Out := .next (ialuBin .remN h m d a b s)

/-- `IALU_REMI32` (R127). -/
def execIaluRemI32 (h : Hdr) (m : Bool) (d a b : BitVec 6) (s : State) : Out := .next (ialuBin .remI h m d a b s)

/-- `IALU_MINN32` (R126). -/
def execIaluMinN32 (h : Hdr) (m : Bool) (d a b : BitVec 6) (s : State) : Out := .next (ialuBin .minN h m d a b s)

/-- `IALU_MINI32` (R126). -/
def execIaluMinI32 (h : Hdr) (m : Bool) (d a b : BitVec 6) (s : State) : Out := .next (ialuBin .minI h m d a b s)

/-- `IALU_MAXN32` (R126). -/
def execIaluMaxN32 (h : Hdr) (m : Bool) (d a b : BitVec 6) (s : State) : Out := .next (ialuBin .maxN h m d a b s)

/-- `IALU_MAXI32` (R126). -/
def execIaluMaxI32 (h : Hdr) (m : Bool) (d a b : BitVec 6) (s : State) : Out := .next (ialuBin .maxI h m d a b s)

/-- `IALU_AND` (R126). -/
def execIaluAnd (h : Hdr) (m : Bool) (d a b : BitVec 6) (s : State) : Out := .next (ialuBin .and h m d a b s)

/-- `IALU_OR` (R126). -/
def execIaluOr (h : Hdr) (m : Bool) (d a b : BitVec 6) (s : State) : Out := .next (ialuBin .or h m d a b s)

/-- `IALU_XOR` (R126). -/
def execIaluXor (h : Hdr) (m : Bool) (d a b : BitVec 6) (s : State) : Out := .next (ialuBin .xor h m d a b s)

/-- `IALU_SHL` (R127). -/
def execIaluShl (h : Hdr) (m : Bool) (d a b : BitVec 6) (s : State) : Out := .next (ialuBin .shl h m d a b s)

/-- `IALU_SHR` (R127). -/
def execIaluShr (h : Hdr) (m : Bool) (d a b : BitVec 6) (s : State) : Out := .next (ialuBin .shr h m d a b s)

/-- `IALU_SRA` (R127). -/
def execIaluSra (h : Hdr) (m : Bool) (d a b : BitVec 6) (s : State) : Out := .next (ialuBin .sra h m d a b s)

/-- `IALU_ROT` (R126). -/
def execIaluRot (h : Hdr) (m : Bool) (d a b : BitVec 6) (s : State) : Out := .next (ialuBin .rot h m d a b s)

/-- `IALU_MAD` (R130). -/
def execIaluMad (h : Hdr) (m : Bool) (d a b e : BitVec 6) (sc : Bool) (s : State) : Out :=
  .next (word (specMad h m d a b e sc) s fun c s =>
    putLanes c s d.toNat fun l => srcA c a l * srcU c m b l + srcU c sc e l)

/-- `IALU_ABS` (R128). -/
def execIaluAbs (h : Hdr) (m : Bool) (d a : BitVec 6) (s : State) : Out := .next (ialuUn .abs h m d a s)

/-- `IALU_NEG` (R128). -/
def execIaluNeg (h : Hdr) (m : Bool) (d a : BitVec 6) (s : State) : Out := .next (ialuUn .neg h m d a s)

/-- `IALU_NOT` (R128). -/
def execIaluNot (h : Hdr) (m : Bool) (d a : BitVec 6) (s : State) : Out := .next (ialuUn .not h m d a s)

/-- `IALU_CLZ` (R128). -/
def execIaluClz (h : Hdr) (m : Bool) (d a : BitVec 6) (s : State) : Out := .next (ialuUn .clz h m d a s)

/-- `IALU_POPC` (R128). -/
def execIaluPopc (h : Hdr) (m : Bool) (d a : BitVec 6) (s : State) : Out := .next (ialuUn .popc h m d a s)

/-- `IALU_BREV` (R128). -/
def execIaluBrev (h : Hdr) (m : Bool) (d a : BitVec 6) (s : State) : Out := .next (ialuUn .brev h m d a s)

/-- `IALU_MOV` (R128). -/
def execIaluMov (h : Hdr) (m : Bool) (d a : BitVec 6) (s : State) : Out := .next (ialuMove h m d a s)

/-- `IALU_BFXN32` (R130). -/
def execIaluBfxN32 (h : Hdr) (m : Bool) (d a : BitVec 6) (pos : BitVec 5) (len : BitVec 6) (s : State) : Out :=
  .next (ialuBfx false h m d a pos len s)

/-- `IALU_BFXI32` (R130). -/
def execIaluBfxI32 (h : Hdr) (m : Bool) (d a : BitVec 6) (pos : BitVec 5) (len : BitVec 6) (s : State) : Out :=
  .next (ialuBfx true h m d a pos len s)

/-- `IALU_BFI` (R130). -/
def execIaluBfi (h : Hdr) (m : Bool) (d a b : BitVec 6) (pos : BitVec 5) (len : BitVec 6) (s : State) : Out :=
  .next (word (specV2 h m d a b) s fun c s =>
    putLanes c s d.toNat fun l => bitInsert (srcA c a l) (srcB c h m b l) pos len)

/-- `IALU_SEL` (R130). -/
def execIaluSel (h : Hdr) (m : Bool) (d a b : BitVec 6) (p : BitVec 2) (s : State) : Out :=
  .next (word (specV2 h m d a b) s fun c s =>
    putLanes c s d.toNat fun l => if (c.snap.pred p.toNat).getLsbD l then srcA c a l else srcB c h m b l)

/-- `IALU_LEA` (R130). -/
def execIaluLea (h : Hdr) (m : Bool) (d a b : BitVec 6) (sh : BitVec 3) (zx : Bool) (s : State) : Out :=
  .next (word (specLea h m d a b) s fun c s =>
    putPair c s d.toNat fun l => leaFn (srcPair c a l) (srcU c m b l) sh zx)

/-- `IALU_WID` (R130). -/
def execIaluWid (h : Hdr) (_m : Bool) (d : BitVec 6) (sel : BitVec 3) (pr : Bool) (s : State) : Out :=
  .next (word (specWid h d pr) s fun c s =>
    if pr then putPair c s d.toNat fun l => widPart s c.snap l sel
    else putLanes c s d.toNat fun l => lowW (widPart s c.snap l sel))

/-- `IALU_ESCAPE_64` (R131). DESIGN CHOICE (log entry 87): its `mov` (inner function 0x15, b = 6) of a Haar pair is no `mov` of R121, so the
pair is reconstructed and the result spatial. -/
def execIaluEscape64 (h : Hdr) (m : Bool) (d a b : BitVec 6) (ifn : BitVec 5) (_ty : BitVec 2) (s : State) : Out :=
  .next (word (specEsc h m d a b ifn) s fun c s =>
    let un := ifn == 0x15#5
    let x := if un && m then fun _ => c.snap.spair a.toNat else srcPair c a
    let y := if m then fun _ => c.snap.spair b.toNat else srcPair c b
    putPair c s d.toNat fun l => escFn ifn b (x l) (y l))

/-- `IALUI_ADD` (R129). -/
def execIaluiAdd (h : Hdr) (k : Bool) (d a imm : BitVec 6) (s : State) : Out := .next (ialuImm .add h k d a imm s)

/-- `IALUI_SUB` (R129). -/
def execIaluiSub (h : Hdr) (k : Bool) (d a imm : BitVec 6) (s : State) : Out := .next (ialuImm .sub h k d a imm s)

/-- `IALUI_MUL` (R129). -/
def execIaluiMul (h : Hdr) (k : Bool) (d a imm : BitVec 6) (s : State) : Out := .next (ialuImm .mul h k d a imm s)

/-- `IALUI_MINN32` (R129). -/
def execIaluiMinN32 (h : Hdr) (k : Bool) (d a imm : BitVec 6) (s : State) : Out := .next (ialuImm .minN h k d a imm s)

/-- `IALUI_MINI32` (R129). -/
def execIaluiMinI32 (h : Hdr) (k : Bool) (d a imm : BitVec 6) (s : State) : Out := .next (ialuImm .minI h k d a imm s)

/-- `IALUI_MAXN32` (R129). -/
def execIaluiMaxN32 (h : Hdr) (k : Bool) (d a imm : BitVec 6) (s : State) : Out := .next (ialuImm .maxN h k d a imm s)

/-- `IALUI_MAXI32` (R129). -/
def execIaluiMaxI32 (h : Hdr) (k : Bool) (d a imm : BitVec 6) (s : State) : Out := .next (ialuImm .maxI h k d a imm s)

/-- `IALUI_AND` (R129). -/
def execIaluiAnd (h : Hdr) (k : Bool) (d a imm : BitVec 6) (s : State) : Out := .next (ialuImm .and h k d a imm s)

/-- `IALUI_OR` (R129). -/
def execIaluiOr (h : Hdr) (k : Bool) (d a imm : BitVec 6) (s : State) : Out := .next (ialuImm .or h k d a imm s)

/-- `IALUI_XOR` (R129). -/
def execIaluiXor (h : Hdr) (k : Bool) (d a imm : BitVec 6) (s : State) : Out := .next (ialuImm .xor h k d a imm s)

/-- `IALUI_SHL` (R129). -/
def execIaluiShl (h : Hdr) (k : Bool) (d a imm : BitVec 6) (s : State) : Out := .next (ialuImm .shl h k d a imm s)

/-- `IALUI_SHR` (R129). -/
def execIaluiShr (h : Hdr) (k : Bool) (d a imm : BitVec 6) (s : State) : Out := .next (ialuImm .shr h k d a imm s)

/-- `IALUI_SRA` (R129). -/
def execIaluiSra (h : Hdr) (k : Bool) (d a imm : BitVec 6) (s : State) : Out := .next (ialuImm .sra h k d a imm s)

/-- `IALUI_ROT` (R129). -/
def execIaluiRot (h : Hdr) (k : Bool) (d a imm : BitVec 6) (s : State) : Out := .next (ialuImm .rot h k d a imm s)

/-- `IALUI_LI` (R129). -/
def execIaluiLi (h : Hdr) (k : Bool) (d : BitVec 6) (imm : BitVec 12) (s : State) : Out :=
  .next (word (specV0 h d) s fun c s => putLanes c s d.toNat fun _ => immOf h (BitVec.ofBool k ++ imm))

/-- `SALU_ADD` (R132). -/
def execSaluAdd (h : Hdr) (d a b : BitVec 6) (s : State) : Out := .next (saluBin .add h d a b s)

/-- `SALU_SUB` (R132). -/
def execSaluSub (h : Hdr) (d a b : BitVec 6) (s : State) : Out := .next (saluBin .sub h d a b s)

/-- `SALU_MUL` (R132). -/
def execSaluMul (h : Hdr) (d a b : BitVec 6) (s : State) : Out := .next (saluBin .mul h d a b s)

/-- `SALU_MULHIN32` (R132). -/
def execSaluMulhiN32 (h : Hdr) (d a b : BitVec 6) (s : State) : Out := .next (saluBin .mulhiN h d a b s)

/-- `SALU_MULHII32` (R132). -/
def execSaluMulhiI32 (h : Hdr) (d a b : BitVec 6) (s : State) : Out := .next (saluBin .mulhiI h d a b s)

/-- `SALU_DIVN32` (R132). -/
def execSaluDivN32 (h : Hdr) (d a b : BitVec 6) (s : State) : Out := .next (saluBin .divN h d a b s)

/-- `SALU_DIVI32` (R132). -/
def execSaluDivI32 (h : Hdr) (d a b : BitVec 6) (s : State) : Out := .next (saluBin .divI h d a b s)

/-- `SALU_REMN32` (R132). -/
def execSaluRemN32 (h : Hdr) (d a b : BitVec 6) (s : State) : Out := .next (saluBin .remN h d a b s)

/-- `SALU_REMI32` (R132). -/
def execSaluRemI32 (h : Hdr) (d a b : BitVec 6) (s : State) : Out := .next (saluBin .remI h d a b s)

/-- `SALU_MINN32` (R132). -/
def execSaluMinN32 (h : Hdr) (d a b : BitVec 6) (s : State) : Out := .next (saluBin .minN h d a b s)

/-- `SALU_MINI32` (R132). -/
def execSaluMinI32 (h : Hdr) (d a b : BitVec 6) (s : State) : Out := .next (saluBin .minI h d a b s)

/-- `SALU_MAXN32` (R132). -/
def execSaluMaxN32 (h : Hdr) (d a b : BitVec 6) (s : State) : Out := .next (saluBin .maxN h d a b s)

/-- `SALU_MAXI32` (R132). -/
def execSaluMaxI32 (h : Hdr) (d a b : BitVec 6) (s : State) : Out := .next (saluBin .maxI h d a b s)

/-- `SALU_AND` (R132). -/
def execSaluAnd (h : Hdr) (d a b : BitVec 6) (s : State) : Out := .next (saluBin .and h d a b s)

/-- `SALU_OR` (R132). -/
def execSaluOr (h : Hdr) (d a b : BitVec 6) (s : State) : Out := .next (saluBin .or h d a b s)

/-- `SALU_XOR` (R132). -/
def execSaluXor (h : Hdr) (d a b : BitVec 6) (s : State) : Out := .next (saluBin .xor h d a b s)

/-- `SALU_SHL` (R132). -/
def execSaluShl (h : Hdr) (d a b : BitVec 6) (s : State) : Out := .next (saluBin .shl h d a b s)

/-- `SALU_SHR` (R132). -/
def execSaluShr (h : Hdr) (d a b : BitVec 6) (s : State) : Out := .next (saluBin .shr h d a b s)

/-- `SALU_SRA` (R132). -/
def execSaluSra (h : Hdr) (d a b : BitVec 6) (s : State) : Out := .next (saluBin .sra h d a b s)

/-- `SALU_ROT` (R132). -/
def execSaluRot (h : Hdr) (d a b : BitVec 6) (s : State) : Out := .next (saluBin .rot h d a b s)

/-- `SALU_MAD` (R132). -/
def execSaluMad (h : Hdr) (d a b e : BitVec 6) (s : State) : Out :=
  .next (word (specSMad h d a b e) s fun c s =>
    putS c s d.toNat (c.snap.sreg a.toNat * c.snap.sreg b.toNat + c.snap.sreg e.toNat))

/-- `SALU_ABS` (R132). -/
def execSaluAbs (h : Hdr) (d a : BitVec 6) (s : State) : Out := .next (saluUn .abs h d a s)

/-- `SALU_NEG` (R132). -/
def execSaluNeg (h : Hdr) (d a : BitVec 6) (s : State) : Out := .next (saluUn .neg h d a s)

/-- `SALU_NOT` (R132). -/
def execSaluNot (h : Hdr) (d a : BitVec 6) (s : State) : Out := .next (saluUn .not h d a s)

/-- `SALU_CLZ` (R132). -/
def execSaluClz (h : Hdr) (d a : BitVec 6) (s : State) : Out := .next (saluUn .clz h d a s)

/-- `SALU_POPC` (R132). -/
def execSaluPopc (h : Hdr) (d a : BitVec 6) (s : State) : Out := .next (saluUn .popc h d a s)

/-- `SALU_BREV` (R132). -/
def execSaluBrev (h : Hdr) (d a : BitVec 6) (s : State) : Out := .next (saluUn .brev h d a s)

/-- `SALU_MOV` (R132). -/
def execSaluMov (h : Hdr) (d a : BitVec 6) (s : State) : Out := .next (saluUn .mov h d a s)

/-- `SALU_BFXN32` (R132). -/
def execSaluBfxN32 (h : Hdr) (d a : BitVec 6) (pos : BitVec 5) (len : BitVec 6) (s : State) : Out :=
  .next (saluBfx false h d a pos len s)

/-- `SALU_BFXI32` (R132). -/
def execSaluBfxI32 (h : Hdr) (d a : BitVec 6) (pos : BitVec 5) (len : BitVec 6) (s : State) : Out :=
  .next (saluBfx true h d a pos len s)

/-- `SALU_BFI` (R132). -/
def execSaluBfi (h : Hdr) (d a b : BitVec 6) (pos : BitVec 5) (len : BitVec 6) (s : State) : Out :=
  .next (word (specS2 h d a b) s fun c s =>
    putS c s d.toNat (bitInsert (c.snap.sreg a.toNat) (sB c h b) pos len))

/-- `SALU_LEA` (R132). -/
def execSaluLea (h : Hdr) (d a b : BitVec 6) (sh : BitVec 3) (zx : Bool) (s : State) : Out :=
  .next (word (specSLea h d a b) s fun c s =>
    putSpair c s d.toNat (leaFn (c.snap.spair a.toNat) (c.snap.sreg b.toNat) sh zx))

/-- `SALU_WID` (R132): a part that the lanes of a group share. -/
def execSaluWid (h : Hdr) (d : BitVec 6) (sel : BitVec 3) (pr : Bool) (s : State) : Out :=
  .next (word (specSWid h d pr) s fun c s =>
    if pr then putSpair c s d.toNat (widPart s c.snap 0 sel)
    else putS c s d.toNat (lowW (widPart s c.snap 0 sel)))

/-- `SALU_ESCAPE_64` (R131). -/
def execSaluEscape64 (h : Hdr) (d a b : BitVec 6) (ifn : BitVec 5) (_ty : BitVec 2) (s : State) : Out :=
  .next (word (specSEsc h d a b ifn) s fun c s =>
    putSpair c s d.toNat (escFn ifn b (c.snap.spair a.toNat) (c.snap.spair b.toNat)))

/-- `SALUI_ADD` (R129). -/
def execSaluiAdd (h : Hdr) (k : Bool) (d a imm : BitVec 6) (s : State) : Out := .next (saluImm .add h k d a imm s)

/-- `SALUI_SUB` (R129). -/
def execSaluiSub (h : Hdr) (k : Bool) (d a imm : BitVec 6) (s : State) : Out := .next (saluImm .sub h k d a imm s)

/-- `SALUI_MUL` (R129). -/
def execSaluiMul (h : Hdr) (k : Bool) (d a imm : BitVec 6) (s : State) : Out := .next (saluImm .mul h k d a imm s)

/-- `SALUI_MINN32` (R129). -/
def execSaluiMinN32 (h : Hdr) (k : Bool) (d a imm : BitVec 6) (s : State) : Out := .next (saluImm .minN h k d a imm s)

/-- `SALUI_MINI32` (R129). -/
def execSaluiMinI32 (h : Hdr) (k : Bool) (d a imm : BitVec 6) (s : State) : Out := .next (saluImm .minI h k d a imm s)

/-- `SALUI_MAXN32` (R129). -/
def execSaluiMaxN32 (h : Hdr) (k : Bool) (d a imm : BitVec 6) (s : State) : Out := .next (saluImm .maxN h k d a imm s)

/-- `SALUI_MAXI32` (R129). -/
def execSaluiMaxI32 (h : Hdr) (k : Bool) (d a imm : BitVec 6) (s : State) : Out := .next (saluImm .maxI h k d a imm s)

/-- `SALUI_AND` (R129). -/
def execSaluiAnd (h : Hdr) (k : Bool) (d a imm : BitVec 6) (s : State) : Out := .next (saluImm .and h k d a imm s)

/-- `SALUI_OR` (R129). -/
def execSaluiOr (h : Hdr) (k : Bool) (d a imm : BitVec 6) (s : State) : Out := .next (saluImm .or h k d a imm s)

/-- `SALUI_XOR` (R129). -/
def execSaluiXor (h : Hdr) (k : Bool) (d a imm : BitVec 6) (s : State) : Out := .next (saluImm .xor h k d a imm s)

/-- `SALUI_SHL` (R129). -/
def execSaluiShl (h : Hdr) (k : Bool) (d a imm : BitVec 6) (s : State) : Out := .next (saluImm .shl h k d a imm s)

/-- `SALUI_SHR` (R129). -/
def execSaluiShr (h : Hdr) (k : Bool) (d a imm : BitVec 6) (s : State) : Out := .next (saluImm .shr h k d a imm s)

/-- `SALUI_SRA` (R129). -/
def execSaluiSra (h : Hdr) (k : Bool) (d a imm : BitVec 6) (s : State) : Out := .next (saluImm .sra h k d a imm s)

/-- `SALUI_ROT` (R129). -/
def execSaluiRot (h : Hdr) (k : Bool) (d a imm : BitVec 6) (s : State) : Out := .next (saluImm .rot h k d a imm s)

/-- `SALUI_LI` (R129). -/
def execSaluiLi (h : Hdr) (k : Bool) (d : BitVec 6) (imm : BitVec 12) (s : State) : Out :=
  .next (word (specS0 h d) s fun c s => putS c s d.toNat (immOf h (BitVec.ofBool k ++ imm)))

end Sys2Proof.Machine
end

