-- ==== Sys2Proof/Machine/Control.lean ====
section
/-! DEFINITION. Control: classes CTL, BRA, CALL, LOOP and MASK (R95 to R117). -/
namespace Sys2Proof.Machine

/-- A control word's registers. -/
def specCtl (h : Hdr) (hnot : Bool) : WordSpec := { h := h, pipe := .s, hnot := hnot }

/-! ### CTL (R114 to R117) -/

/-- `NOP` (R114). -/
def execNop (h : Hdr) (s : State) : Out := .next (word (specCtl h false) s fun _ s => .ok s)

/-- `EXIT` (R114). -/
def execExit (h : Hdr) (s : State) : Out :=
  .next (word (specCtl h true) s fun c s =>
    .ok (s.onGrp c.gi fun g => g.onLanes c.lanes fun _ x =>
      if x.st = .runnable then { x with st := .exited, wt := 15 } else x))

/-- `YIELD` (R114): the group comes last in its core's next choice. -/
def execYield (h : Hdr) (s : State) : Out :=
  .next (word (specCtl h true) s fun c s => .ok (s.onGrp c.gi fun g => { g with yielded := true }))

/-- `SLEEP` (R114): until n × 64 clk have passed, a counter falls, or the group parks; none where nothing could wake it. -/
def execSleep (h : Hdr) (n : BitVec 12) (s : State) : Out :=
  .next (word (specCtl h true) s fun c s =>
    .ok (s.onGrp c.gi fun g =>
      if n = 0#12 && g.ops.isEmpty then g
      else { g with status := .sleeping (if n = 0#12 then none else some (s.clk + n.toNat * 64)) }))

/-- `REGION` (R115). -/
def specRegion (h : Hdr) : WordSpec := { h := h, pipe := .s, side := true }
def execRegion (h : Hdr) (s : State) : Out := .next (word (specRegion h) s fun _ s => .ok s)

/-- `TRAP` (R116): the detail holds the low 8 bits of n (log entry 23). -/
def execTrap (h : Hdr) (n : BitVec 12) (s : State) : Out :=
  .next (word (specCtl h false) s fun c s =>
    .ok (s.defer c.gi c.lanes c.pc c.hm false cPROGRAM (n.toNat % 256) fun _ => 0))

/-- A lane as `eret` leaves it: what the handler wrote to `lst` and `pcv` applied (R91, R117); an exited lane stays exited. -/
def Lane.eret (x : Lane) : Lane :=
  let pc := match x.newPc with | some p => p | none => x.pcv
  let base := { x with newSt := none, newPc := none }
  let clear := fun (y : Lane) => { y with wt := 15, fcs := 0, fad := 0, frgn := 0, torn := false }
  if x.st = .exited then { base with pcv := pc }
  else if x.newSt = some 3#2 then clear { base with st := .exited, pcv := pc }
  else if x.newSt = some 0#2 then clear { base with st := .runnable, pcv := pc }
  else if x.st = .waiting && pc ≠ x.pcv then clear { base with st := .runnable, pcv := pc }
  else { base with pcv := pc }

/-- A lane that goes on elsewhere than at the ordered atomic that it failed or was aborted in does not replay it (R192). -/
def Group.dropOwed (g : Group) : Group :=
  { g with redo := g.redo &&& lanesWhere fun l => g.lanes[l].st = .faulted || g.lanes[l].pcv == g.redoPc }

/-- `ERET` (R117): handler mode only; edits applied, `gstat.HM` and `gfc` cleared, the main code's faults that arrived meanwhile
raised (R424), then the releases and the trap. -/
def execEret (h : Hdr) (s : State) : Out :=
  .next (wordOwn (specCtl h false) (fun c _ => if c.hm then none else some 0x0d) s fun c s =>
    if c.lanes = 0#32 then .ok s
    else .ok ((s.onGrp c.gi fun g =>
      { (g.freeAborted (g.onLanes allLanes fun _ x => x.eret)).dropOwed with status := .running, gfc := 0 }).raiseLater c.gi))

/-! ### BRA and CALL (R105 to R108) -/

/-- The issuing lanes' next PC; the handler's, from lane 0, in handler mode (R424). A lane that the chain has faulted
keeps its PC (R33, R418). -/
def State.jump (s : State) (c : Wctx) (f : Fin 32 → Word) : State :=
  s.onGrp c.gi fun g =>
    if c.hm then (if c.lanes.getLsbD 0 then { g with hpc := f 0 } else g)
    else g.onLanes c.lanes fun l x => if x.st = .runnable then { x with pcv := f l } else x

/-- Packet `pkt + off` modulo 2^30, slot 0 (R105). -/
def relTarget (pc : Word) (off : BitVec 18) : Word :=
  mkPc (((pkt pc : Int) + off.toInt) % 2 ^ 30).toNat 0

/-- `BRA` (R105). -/
def execBra (h : Hdr) (off : BitVec 18) (s : State) : Out :=
  .next (word (specCtl h false) s fun c s => .ok (s.jump c fun _ => relTarget c.pc off))

/-- The registers of `brx`, `call` and `ret`. -/
def specBrx (h : Hdr) (a : BitVec 6) : WordSpec := { h := h, pipe := .s, vr := [a.toNat] }
def specCall (h : Hdr) (sr : List Nat) : WordSpec := { h := h, pipe := .s, sr := sr, vw := [31] }

/-- The segment length of the kernel of a group, in packets (R20). -/
def State.segment (s : State) (g : Group) : Nat :=
  match s.kernels[g.kernel]? with | some k => k.h.clen | none => 0

/-- `BRX` (R106): a target outside the segment faults its lane, whose PC stays at the `brx`. In handler mode lane 0
alone gives the target (R424). -/
def execBrx (h : Hdr) (a : BitVec 6) (s : State) : Out :=
  .next (word (specBrx h a) s fun c s =>
    let t := srcA c a
    let n := s.segment c.snap
    let out := lanesWhere fun l => c.lanes.getLsbD l && n ≤ (t l).toNat
    let s := s.jump c fun l => mkPc (t l).toNat 0
    .ok (s.defer c.gi (if c.hm then out &&& 1#32 else out) c.pc c.hm false cILLEGAL 0x0b fun _ => 0))

/-- A call: the link in `v31` of the issuing lanes, then the jump (R107). -/
def callTo (h : Hdr) (sr : List Nat) (target : Wctx → Word) (s : State) : State :=
  word (specCall h sr) s fun c s =>
    match putLanes c s 31 fun _ => c.next with
    | .ok s => .ok (s.jump c fun _ => target c)
    | r => r

/-- `CALL` (R107). -/
def execCall (h : Hdr) (off : BitVec 18) (s : State) : Out := .next (callTo h [] (fun c => relTarget c.pc off) s)

/-- `CALL_REGISTER` (R107). DESIGN CHOICE (log entry 51): a target that `pcv` cannot hold is taken modulo 2^30, as R107 has it for the
relative form. -/
def execCallRegister (h : Hdr) (a : BitVec 6) (s : State) : Out :=
  .next (callTo h [a.toNat] (fun c => mkPc (c.snap.sreg a.toNat).toNat 0) s)

/-- `RET` (R108). -/
def execRet (h : Hdr) (a : BitVec 6) (s : State) : Out :=
  .next (word (specBrx h a) s fun c s => .ok (s.jump c (srcA c a)))

/-! ### LOOP (R109 to R113) -/

/-- A loop word's registers. -/
def specLoop (h : Hdr) (l : BitVec 2) (sr : List Nat) : WordSpec :=
  { h := h, pipe := .s, sr := sr, lw := [l.toNat], hnot := true }

/-- R110: the body is empty or too long, no level is left, the counter is in use, or the body leaves the innermost open
level. -/
def loopBad (g : Group) (l n last : Nat) : Bool :=
  n = 0 || 85 < n || 3 ≤ g.levels.length || (g.levels.any fun v => v.lc = l)
    || match g.levels.getLast? with | some v => v.last < last | none => false

/-- `loop` with its count (R111). Lanes at its PC that do not issue go past the body. -/
def loopWord (h : Hdr) (l : BitVec 2) (n : BitVec 8) (sr : List Nat) (count : Wctx → Word) (s : State) : State :=
  wordOwn (specLoop h l sr) (fun c _ => if loopBad c.snap l.toNat n.toNat (pkt c.pc + n.toNat) then some 0x0c else none) s fun c s =>
      let past := mkPc (pkt c.pc + n.toNat + 1) 0
      let s := s.onGrp c.gi fun g => g.onLanes (c.at_ &&& ~~~c.lanes) fun _ x =>
        if x.st = .runnable then { x with pcv := past } else x
      if c.lanes = 0#32 then .ok s
      else if count c = 0#32 then .ok (s.jump c fun _ => past)
      else .ok (s.onGrp c.gi fun g =>
        { g.setL l.toNat (count c) with levels := g.levels ++ [⟨l.toNat, pkt c.pc + 1, pkt c.pc + n.toNat, c.lanes⟩] })

/-- `LOOP` (R111). -/
def execLoop (h : Hdr) (l : BitVec 2) (n k : BitVec 8) (s : State) : Out :=
  .next (loopWord h l n [] (fun _ => k.setWidth 32) s)

/-- `LOOP_REGISTER` (R111). -/
def execLoopRegister (h : Hdr) (l : BitVec 2) (n : BitVec 8) (a : BitVec 6) (s : State) : Out :=
  .next (loopWord h l n [a.toNat] (fun c => c.snap.sreg a.toNat) s)

/-- Lanes removed from a level and from every level inside it; a level that no member is left in closes (R112, R113). -/
def Group.leaveLevels (g : Group) (i : Nat) (ls : Lanes) : Group :=
  let lv := g.levels.mapIdx fun j v => if i ≤ j then { v with members := v.members &&& ~~~ls } else v
  let g := { g with levels := lv }
  ((List.range lv.length).reverse.filter fun j => match lv[j]? with | some v => v.members = 0#32 | none => false).foldl
    (fun g j => g.closeLevel j) g

/-- `LBRK` (R113). -/
def execLbrk (h : Hdr) (l : BitVec 2) (s : State) : Out :=
  .next (word (specCtl h true) s fun c s =>
    match c.snap.levels.findIdx? fun v => v.lc = l.toNat with
    | none => .ok s
    | some i =>
      let last := match c.snap.levels[i]? with | some v => v.last | none => 0
      let s := s.jump c fun _ => mkPc (last + 1) 0
      .ok (s.onGrp c.gi fun g => g.leaveLevels i c.lanes))

/-! ### MASK (R95 to R103) -/

/-- Mask words: the scalar registers they read and write, the mask registers they write, whether handler mode shuts them
out. -/
def specMask (h : Hdr) (sr sw mw pw : List Nat) (hnot : Bool) : WordSpec :=
  { h := h, pipe := .s, sr := sr, sw := sw, mw := mw, pw := pw, hnot := hnot }

/-- `JOIN` (R97). -/
def execJoin (h : Hdr) (d : BitVec 6) (s : State) : Out :=
  .next (word (specMask h [] [] [d.toNat] [] true) s fun c s =>
    .ok (s.onGrp c.gi fun g => g.setM d.toNat (c.snap.mreg d.toNat ||| c.lanes)))

/-- `LEAVE` (R97). -/
def execLeave (h : Hdr) (d : BitVec 6) (s : State) : Out :=
  .next (word (specMask h [] [] [d.toNat] [] true) s fun c s =>
    .ok (s.onGrp c.gi fun g => g.setM d.toNat (c.snap.mreg d.toNat &&& ~~~c.lanes)))

/-- `WAIT` (R98): members wait at the `wait`, others pass. A member that another word of the chain has faulted stays
faulted (R33). -/
def execWait (h : Hdr) (d : BitVec 6) (s : State) : Out :=
  .next (word (specMask h [] [] [] [] true) s fun c s =>
    .ok (s.onGrp c.gi fun g => g.onLanes (c.lanes &&& c.snap.mreg d.toNat) fun _ x =>
      if x.st = .runnable then { x with st := .waiting, wt := d.toNat, pcv := c.pc, wnext := c.next } else x))

/-- `TRYWAIT` (R99): the release condition with the issuing lanes counted as waiting; if it holds the waiters are
released. -/
def execTrywait (h : Hdr) (d a : BitVec 6) (s : State) : Out :=
  .next (word (specMask h [] [] [] [d.toNat] true) s fun c s =>
    let n := a.toNat
    let mem := c.snap.mreg n
    let ok := (List.finRange 32).all fun l =>
      !mem.getLsbD l || c.lanes.getLsbD l || c.snap.lanes[l].st = .exited
        || (c.snap.lanes[l].st = .waiting && c.snap.lanes[l].wt = n)
    .ok (s.onGrp c.gi fun g =>
      let g := g.putP d.toNat c.lanes (if ok then allLanes else 0)
      if ok then g.release n fun x => x.wnext else g))

/-- `MSET` (R100). -/
def execMset (h : Hdr) (d a : BitVec 6) (s : State) : Out :=
  .next (word (specMask h [a.toNat] [] [d.toNat] [] false) s fun c s =>
    .ok (s.onGrp c.gi fun g => g.setM d.toNat (c.snap.sreg a.toNat)))

/-- `MMOV` (R100). -/
def execMmov (h : Hdr) (d a : BitVec 6) (s : State) : Out :=
  .next (word (specMask h [] [d.toNat] [] [] false) s fun c s => putS c s d.toNat (c.snap.mreg a.toNat))

/-- A binary mask function (R100). -/
def maskBin (f : Word → Word → Word) (h : Hdr) (d a b : BitVec 6) (s : State) : State :=
  word (specMask h [] [] [d.toNat] [] false) s fun c s =>
    .ok (s.onGrp c.gi fun g => g.setM d.toNat (f (c.snap.mreg a.toNat) (c.snap.mreg b.toNat)))

/-- `MAND` (R100). -/
def execMand (h : Hdr) (d a b : BitVec 6) (s : State) : Out := .next (maskBin (· &&& ·) h d a b s)

/-- `MOR` (R100). -/
def execMor (h : Hdr) (d a b : BitVec 6) (s : State) : Out := .next (maskBin (· ||| ·) h d a b s)

/-- `MXOR` (R100). -/
def execMxor (h : Hdr) (d a b : BitVec 6) (s : State) : Out := .next (maskBin (· ^^^ ·) h d a b s)

/-- `MNOT` (R100). -/
def execMnot (h : Hdr) (d a : BitVec 6) (s : State) : Out := .next (maskBin (fun x _ => ~~~x) h d a a s)

/-- `MPOP` (R100). -/
def execMpop (h : Hdr) (d a : BitVec 6) (s : State) : Out :=
  .next (word (specMask h [] [d.toNat] [] [] false) s fun c s =>
    putS c s d.toNat (BitVec.ofNat 32 (card (c.snap.mreg a.toNat))))

end Sys2Proof.Machine
end

