-- ==== Sys2Proof/Machine/Sfu.lean ====
section
/-! DEFINITION. The special functions of R139: the exact mathematical value, rounded once.

`frcp`, `frsq` and `fsqrt` are computed exactly. The others are irrational wherever no special case below applies; they
are evaluated in fixed point with 320 fractional bits, which is far below the distance of any FP32 argument's value to a
rounding boundary (log entry 6, DEDUCED). -/
namespace Sys2Proof.Machine

/-- Fractional bits of the fixed-point evaluation. -/
def fxP : Nat := 320

/-- pi in units of 2^-480. -/
def fxPi : Nat := 0x3243f6a8885a308d313198a2e03707344a4093822299f31d0082efa98ec4e6c89452821e638d01377be5466cf34e90c6cc0ac29b7c97c50dd3f84d5b5

/-- The natural logarithm of 2 in units of 2^-320. -/
def fxLn2 : Nat := 0xb17217f7d1cf79abc9e3b39803f2f6af40f343267298b62d8a0d175b8baafa2be7b876206debac98

/-- 2 / sqrt pi in units of 2^-320. -/
def fxErf : Nat := 0x120dd750429b6d11ae3a914fed7fd8688281341d7587cea2e7342b06199cc416180eb39f0b24e1e23

/-- The sum of r^n / n! from term `t` = r^i / i! on. -/
def expTerms : Nat → Nat → Nat → Nat → Nat → Nat
  | 0, _, _, _, s => s
  | k + 1, i, r, t, s => expTerms k (i + 1) r (t * r / 2 ^ fxP / (i + 1)) (s + t)

/-- e^r for r in [0, 1), in units of 2^-320. -/
def fxExp (r : Nat) : Nat := expTerms 90 0 r (2 ^ fxP) 0

/-- The alternating sum t - t r2 / ((i+1)(i+2)) + ... of the sine and cosine. -/
def sinTerms : Nat → Nat → Nat → Int → Int → Int
  | 0, _, _, _, s => s
  | k + 1, i, r2, t, s => sinTerms k (i + 2) r2 (-(t * r2 / 2 ^ fxP / ((i + 1) * (i + 2) : Nat))) (s + t)

/-- The sum of z^(2i+1) / (2i+1). -/
def atanhTerms : Nat → Nat → Nat → Nat → Nat → Nat
  | 0, _, _, _, s => s
  | k + 1, i, z2, t, s => atanhTerms k (i + 2) z2 (t * z2 / 2 ^ fxP) (s + t / i)

/-- The alternating sum of x^(2n+1) / (n! (2n+1)). -/
def erfTerms : Nat → Nat → Nat → Int → Int → Int
  | 0, _, _, _, s => s
  | k + 1, n, x2, t, s =>
    erfTerms k (n + 1) x2 (-(t * x2 / 2 ^ fxP / (n + 1 : Nat))) (s + t / (2 * n + 1 : Nat))

/-- m * 2^e in units of 2^-320; what lies below is dropped (it is 0 for every FP32 value). -/
def fxOf (m : Nat) (e : Int) : Nat :=
  let k := e + fxP
  if 0 ≤ k then m * 2 ^ k.toNat else m / 2 ^ (-k).toNat

/-- An irrational value given in units of 2^-320. -/
def fxVal (z : Int) : Val := .fin (z < 0) z.natAbs (-(fxP : Int)) true

/-- 2^n times a value in [1, 2) given in units of 2^-320. -/
def fxScaled (v : Nat) (n : Int) : Val := .fin false v (n - fxP) true

/-- A magnitude a little below m * 2^e. -/
def justBelow (neg : Bool) (m : Nat) (e : Int) : Val := .fin neg (m * 2 ^ 64 - 1) (e - 64) true

/-- |m * 2^e| is at least 2^k. -/
def magGe (m : Nat) (e : Int) (k : Int) : Bool := m ≠ 0 && k < (bitLen m : Int) + e

/-- 2^x for x = ±m * 2^e, not zero. -/
def exp2Val (neg : Bool) (m : Nat) (e : Int) : Val :=
  if magGe m e 9 then .fin false 1 (if neg then -600 else 600) false
  else
    let x : Int := if neg then -(fxOf m e : Int) else fxOf m e
    let n := x / 2 ^ fxP
    let f := (x % 2 ^ fxP).toNat
    if f = 0 then .fin false 1 n false else fxScaled (fxExp (f * fxLn2 / 2 ^ fxP)) n

/-- e^x for x ≥ 0 in units of 2^-320: the mantissa in units of 2^-320 and the power of two. -/
def expParts (x : Nat) : Nat × Nat :=
  let n := x / fxLn2
  (fxExp (x - n * fxLn2), n)

/-- log2 of m * 2^e, m not zero. -/
def log2Val (m : Nat) (e : Int) : Val :=
  let k := bitLen m - 1
  if m = 2 ^ k then intVal ((k : Int) + e)
  else
    let z := (m - 2 ^ k) * 2 ^ fxP / (m + 2 ^ k)
    let l := 2 * atanhTerms 130 1 (z * z / 2 ^ fxP) z 0
    fxVal (((k : Int) + e) * 2 ^ fxP + (l * 2 ^ fxP / fxLn2 : Nat))

/-- 1 / (m * 2^e), m not zero. -/
def rcpVal (neg : Bool) (m : Nat) (e : Int) : Val :=
  .fin neg (2 ^ 96 / m) (-96 - e) (2 ^ 96 % m ≠ 0)

/-- The square root of m * 2^e. -/
def sqrtVal (m : Nat) (e : Int) : Val :=
  let o := (e % 2).toNat
  let n := m * 2 ^ o * 2 ^ 80
  let r := isqrt n
  .fin false r ((e - o) / 2 - 40) (r * r ≠ n)

/-- 1 / sqrt (m * 2^e), m not zero. -/
def rsqVal (m : Nat) (e : Int) : Val :=
  let o := (e % 2).toNat
  let d := m * 2 ^ o
  let r := isqrt (2 ^ 120 / d)
  .fin false r (-60 - (e - o) / 2) (r * r * d ≠ 2 ^ 120)

/-- The sine (`cos` false) or cosine of ±m * 2^e, reduced exactly by pi/2. -/
def trigVal (cos neg : Bool) (m : Nat) (e : Int) : Val :=
  if !magGe m e (-40) then
    if cos then (if m = 0 then .fin false 1 0 false else justBelow false 1 0)
    else (if m = 0 then .fin neg 0 e false else justBelow neg m e)
  else
    let x := fxOf m e * 2 ^ 160
    let k := (4 * x + fxPi) / (2 * fxPi)
    let r : Int := ((2 * (x : Int) - (k * fxPi : Nat)) / 2 ^ 161)
    let r2 := (r * r / 2 ^ fxP).toNat
    let q := (k + if cos then 1 else 0) % 4
    let v := if q % 2 = 0 then sinTerms 40 1 r2 r 0 else sinTerms 40 0 r2 (2 ^ fxP) 0
    let v := if 2 ≤ q then -v else v
    fxVal (if neg && !cos then -v else v)

/-- The hyperbolic tangent of ±m * 2^e. -/
def tanhVal (neg : Bool) (m : Nat) (e : Int) : Val :=
  if m = 0 then .fin neg 0 e false
  else if !magGe m e (-30) then justBelow neg m e
  else if magGe m e 5 then justBelow neg 1 0
  else
    let p := expParts (2 * fxOf m e)
    let E := p.1 * 2 ^ p.2
    let t := (E - 2 ^ fxP) * 2 ^ fxP / (E + 2 ^ fxP)
    fxVal (if neg then -(t : Int) else t)

/-- The error function of ±m * 2^e. -/
def erfVal (neg : Bool) (m : Nat) (e : Int) : Val :=
  if m = 0 then .fin neg 0 e false
  else if magGe m e 3 then justBelow neg 1 0
  else
    let x := fxOf m e
    let s := erfTerms 400 0 (x * x / 2 ^ fxP) (x : Int) 0
    let t := s * fxErf / 2 ^ fxP
    fxVal (if neg then -t else t)

/-- The functions of class SFU (R139). -/
inductive SfuFn where
  | exp2 | log2 | rcp | rsq | sqrt | sin | cos | tanh | erf
  deriving DecidableEq, Repr

/-- The exact value of a special function and the flags of its special inputs (R139). -/
def sfuVal (k : SfuFn) (v : Val) : Val × BitVec 5 :=
  match v with
  | .nan s => (.nan false, flagIf s fNV)
  | .inf neg =>
    match k with
    | .exp2 => (if neg then .fin false 0 0 false else .inf false, 0#5)
    | .log2 | .sqrt => if neg then (.nan false, fNV) else (.inf false, 0#5)
    | .rcp => (.fin neg 0 0 false, 0#5)
    | .rsq => if neg then (.nan false, fNV) else (.fin false 0 0 false, 0#5)
    | .sin | .cos => (.nan false, fNV)
    | .tanh | .erf => (.fin neg 1 0 false, 0#5)
  | .fin neg m e _ =>
    if m = 0 then
      match k with
      | .exp2 | .cos => (.fin false 1 0 false, 0#5)
      | .log2 => (.inf true, fDZ)
      | .rcp | .rsq => (.inf neg, fDZ)
      | .sqrt | .sin | .tanh | .erf => (.fin neg 0 0 false, 0#5)
    else
      match k with
      | .exp2 => (exp2Val neg m e, 0#5)
      | .log2 => if neg then (.nan false, fNV) else (log2Val m e, 0#5)
      | .rcp => (rcpVal neg m e, 0#5)
      | .rsq => if neg then (.nan false, fNV) else (rsqVal m e, 0#5)
      | .sqrt => if neg then (.nan false, fNV) else (sqrtVal m e, 0#5)
      | .sin => (trigVal false neg m e, 0#5)
      | .cos => (trigVal true neg m e, 0#5)
      | .tanh => (tanhVal neg m e, 0#5)
      | .erf => (erfVal neg m e, 0#5)

/-- A special function on an FP32 code, rounded once by RNE (R139). -/
def sfu (k : SfuFn) (a : Code) : Code × BitVec 5 :=
  let r := sfuVal k (Fmt.f32.val a)
  let c := roundIeee .f32 .rne r.1
  (c.1, r.2 ||| c.2)

end Sys2Proof.Machine
end

