-- ==== Sys2Proof/Machine/FloatAlu.lean ====
section
/-! DEFINITION. The float words and the compares: classes FALU, FMA, SFU and CMP, with the linear forms on coefficient
registers (R121 to R125, R134 to R139). -/
namespace Sys2Proof.Machine

/-! ### Linear forms on Haar registers (R121, R123, R125) -/

/-- What two vector operands of a linear form make: a word that is not linear, a mismatch, or the coefficient operands
and the result's tag. -/
inductive LinRes where
  | nonlinear
  | mismatch
  | lin (x y : PerLane Word) (t : Tag)

/-- The tag of a result of two like-tagged operands (R125). -/
def joinTag (a b : Tag) : Tag :=
  ⟨mkDesc (descL a.desc) (descX a.desc) (if descM a.desc = descM b.desc then descM a.desc else 0), a.live ||| b.live⟩

/-- A spatial register forward-transformed without threshold to another tag's L and axis (R123); its mask stays that of its own tag, every
lane (R125, R237). -/
def autoForward (ovp : Bool) (x : PerLane Word) (t : Tag) : PerLane Word × Tag :=
  let str := descM t.desc = mSTR
  let y := (forwardReg (descStep t.desc) ovp (descL t.desc) x).1
  (y, ⟨mkDesc (descL t.desc) (descX t.desc) (if str then mSTR else 0), Tag.spatial.live⟩)

/-- Two vector operands of a linear form (R121, R123). -/
def linear2 (c : Wctx) (a b : Nat) : LinRes :=
  let g := c.snap
  let ta := g.tag a
  let tb := g.tag b
  if c.lanes ≠ allLanes || (!ta.haar && !tb.haar) then .nonlinear
  else if likeTagged ta tb then .lin (g.vreg a) (g.vreg b) (joinTag ta tb)
  else if ta.haar ≠ tb.haar && g.wctl.getLsbD 0 then
    if ta.haar then
      let f := autoForward g.ovp (g.vreg b) ta
      .lin (g.vreg a) f.1 (joinTag ta f.2)
    else
      let f := autoForward g.ovp (g.vreg a) tb
      .lin f.1 (g.vreg b) (joinTag f.2 tb)
  else .mismatch

/-- One vector operand that is Haar in a whole word (R121). -/
def linear1 (c : Wctx) (a : Nat) : Bool := c.lanes = allLanes && (c.snap.tag a).haar

/-- The tag of a linear result whose addend is uniform (R125). -/
def addendTag (t : Tag) : Tag := ⟨t.desc, t.live ||| approxLanes (descL t.desc)⟩

/-! ### FALU (R136, R137) -/

/-- The functions of FALU (R136). -/
inductive FFn where
  | add | sub | mul | min | max | neg | abs | scl | cls | rnd
  deriving DecidableEq, Repr

/-- One element: codes of a format; `r` is the rounding mode of `frnd`. -/
def faluElem (k : FFn) (f : Fmt) (r : Rm) (x y : Code) : Code × BitVec 5 :=
  match k with
  | .add => fAdd f .rne x y
  | .sub => fSub f .rne x y
  | .mul => fMul f .rne x y
  | .min => fMinMax f false x y
  | .max => fMinMax f true x y
  | .neg => fSign f false x
  | .abs => fSign f true x
  | .scl => fScl f x (sx f.width y)
  | .cls => (fClass f x, 0#5)
  | .rnd => fRnd f r x

/-- A register's elements: one FP32, or two halves whose flags are joined (R60, R137). -/
def packed (ty : BitVec 2) (e : Fmt → Nat → Nat × BitVec 5) : Word × BitVec 5 :=
  if ty = 0#2 then
    let r := e .f32 0
    (BitVec.ofNat 32 r.1, r.2)
  else
    let f : Fmt := if ty = 1#2 then .f16 else .bf16
    let a := e f 0
    let b := e f 1
    (BitVec.ofNat 32 (a.1 % 65536 + b.1 % 65536 * 65536), a.2 ||| b.2)

/-- Element j of a word: all of it for FP32, or a half. -/
def elem (f : Fmt) (x : Word) (j : Nat) : Nat := if f = .f32 then x.toNat else x.toNat / 65536 ^ j % 65536

/-- One lane of a FALU word. -/
def faluLane (k : FFn) (ty r : BitVec 2) (x y : Word) : Word × BitVec 5 :=
  packed ty fun f j => faluElem k f (Rm.of r) (elem f x j) (elem f y j)

/-- A FALU word: `uni` when b is lane-uniform with the values `y`, `bn` the vector register it names otherwise. The
linear forms come first (R121), the rest reconstructs its sources (R122). -/
def faluBody (k : FFn) (ty r : BitVec 2) (q : Bool) (d a bn : Nat) (uni : Bool) (y : Fin 32 → Word) (c : Wctx)
    (s : State) : Res :=
  let ta := c.snap.tag a
  let raw := c.snap.vreg a
  let plain : Res := let x := c.snap.rows a; putSpatial c s q d fun l => faluLane k ty r x[l] (y l)
  let every (t : Tag) : Res := .ok (putFlt c s q d t fun l => faluLane k ty r raw[l] (y l))
  if ty ≠ 0#2 then plain
  else
    match k with
    | .add | .sub =>
      if uni then
        if linear1 c a then
          let ap := approxLanes (descL ta.desc)
          .ok (putFlt c s q d (addendTag ta) fun l =>
            if ap.getLsbD l then faluLane k ty r raw[l] (y l) else (raw[l], 0#5))
        else plain
      else
        match linear2 c a bn with
        | .nonlinear => plain
        | .mismatch => .raise cDOMAIN 1
        | .lin u v t => .ok (putFlt c s q d t fun l => faluLane k ty r u[l] v[l])
    | .mul | .scl => if uni && linear1 c a then every ta else plain
    | .neg => if linear1 c a then every ta else plain
    | _ => plain

/-- A one-word binary FALU word (R136): b is a vector register, or the value of a prefix (R36). -/
def falu2 (k : FFn) (h : Hdr) (q : Bool) (d a b : BitVec 6) (s : State) : State :=
  word (specF2 h d a b) s fun c s =>
    faluBody k 0 0 q d.toNat a.toNat b.toNat h.limm.isSome (srcB c h false b) c s

/-- A one-word unary FALU word (R136). -/
def falu1 (k : FFn) (h : Hdr) (q : Bool) (r : BitVec 2) (d a : BitVec 6) (s : State) : State :=
  word (specF1 h d a) s fun c s => faluBody k 0 r q d.toNat a.toNat 0 false (fun _ => 0) c s

/-- The function of an escape's ifn (R38, R39). -/
def faluOf (ifn : BitVec 5) : FFn :=
  match ifn.toNat with
  | 0 => .add | 1 => .sub | 2 => .mul | 3 => .min | 4 => .max | 5 => .neg | 6 => .abs | 7 => .scl | 8 => .cls | _ => .rnd

/-- `FADD` (R136). -/
def execFadd (h : Hdr) (m : Bool) (d a b : BitVec 6) (s : State) : Out := .next (falu2 .add h m d a b s)

/-- `FSUB` (R136). -/
def execFsub (h : Hdr) (m : Bool) (d a b : BitVec 6) (s : State) : Out := .next (falu2 .sub h m d a b s)

/-- `FMUL` (R136). -/
def execFmul (h : Hdr) (m : Bool) (d a b : BitVec 6) (s : State) : Out := .next (falu2 .mul h m d a b s)

/-- `FMIN` (R136). -/
def execFmin (h : Hdr) (m : Bool) (d a b : BitVec 6) (s : State) : Out := .next (falu2 .min h m d a b s)

/-- `FMAX` (R136). -/
def execFmax (h : Hdr) (m : Bool) (d a b : BitVec 6) (s : State) : Out := .next (falu2 .max h m d a b s)

/-- `FNEG` (R136). -/
def execFneg (h : Hdr) (m : Bool) (d a : BitVec 6) (s : State) : Out := .next (falu1 .neg h m 0 d a s)

/-- `FABS` (R136). -/
def execFabs (h : Hdr) (m : Bool) (d a : BitVec 6) (s : State) : Out := .next (falu1 .abs h m 0 d a s)

/-- `FSCL` (R136). -/
def execFscl (h : Hdr) (m : Bool) (d a b : BitVec 6) (s : State) : Out := .next (falu2 .scl h m d a b s)

/-- `FCLASS` (R136). -/
def execFclass (h : Hdr) (m : Bool) (d a : BitVec 6) (s : State) : Out := .next (falu1 .cls h m 0 d a s)

/-- `FRND` (R136). -/
def execFrnd (h : Hdr) (m : Bool) (d a : BitVec 6) (r : BitVec 2) (s : State) : Out := .next (falu1 .rnd h m r d a s)

/-- `FALU_ESCAPE` (R137). -/
def execFaluEscape (h : Hdr) (m : Bool) (d a b : BitVec 6) (ifn : BitVec 5) (ty : BitVec 2) (bs : Bool) (s : State) :
    Out :=
  .next (word (specFEsc h d a b ifn bs) s fun c s =>
    faluBody (faluOf ifn) ty (b.setWidth 2) m d.toNat a.toNat b.toNat bs (srcU c bs b) c s)

/-! ### FMA (R138) -/

/-- One element of `ffma`; without an addend it is the rounded product (R121). -/
def fmaElem (f : Fmt) (rm : Rm) (np na : Bool) (x y : Code) (z : Option Code) : Code × BitVec 5 :=
  match z with
  | some z => fFma f rm np na x y z
  | none =>
    let p := mulV (f.val x) (f.val y)
    let o := roundIeee f rm (p.1.flip np)
    (o.1, p.2 ||| o.2)

/-- One lane of `ffma`. -/
def fmaLane (ty rm : BitVec 2) (np na : Bool) (x y : Word) (z : Option Word) : Word × BitVec 5 :=
  packed ty fun f j => fmaElem f (Rm.of rm) np na (elem f x j) (elem f y j) (z.map fun w => elem f w j)

/-- `FFMA` (R138). DESIGN CHOICE (log entry 80): its linear Haar forms round by the word's `rm` (R64, R138), where R121 says RNE of all linear
forms. -/
def execFfma (h : Hdr) (m : Bool) (d a b e : BitVec 6) (ty : BitVec 2) (bs sc : Bool) (rm : BitVec 2) (np na : Bool)
    (s : State) : Out :=
  .next (word (specFma h d a b e bs sc) s fun c s =>
    let y := srcU c bs b
    let z := srcU c sc e
    let ta := c.snap.tag a.toNat
    let raw := c.snap.vreg a.toNat
    let plain : Res :=
      let x := c.snap.rows a.toNat
      putSpatial c s m d.toNat fun l => fmaLane ty rm np na x[l] (y l) (some (z l))
    if ty ≠ 0#2 || !bs then plain
    else if sc then
      if linear1 c a.toNat then
        let ap := approxLanes (descL ta.desc)
        .ok (putFlt c s m d.toNat (addendTag ta) fun l =>
          fmaLane ty rm np na raw[l] (y l) (if ap.getLsbD l then some (z l) else none))
      else plain
    else
      match linear2 c a.toNat e.toNat with
      | .nonlinear => plain
      | .mismatch => .raise cDOMAIN 1
      | .lin u v t => .ok (putFlt c s m d.toNat t fun l => fmaLane ty rm np na u[l] (y l) (some v[l])))

/-! ### SFU (R139) -/

/-- A special function. -/
def sfuWord (k : SfuFn) (h : Hdr) (q : Bool) (d a : BitVec 6) (s : State) : State :=
  word (specF1 h d a) s fun c s =>
    let x := c.snap.rows a.toNat
    putSpatial c s q d.toNat fun l => let r := sfu k x[l].toNat; (BitVec.ofNat 32 r.1, r.2)

/-- `FEXP2` (R139). -/
def execFexp2 (h : Hdr) (m : Bool) (d a : BitVec 6) (s : State) : Out := .next (sfuWord .exp2 h m d a s)

/-- `FLOG2` (R139). -/
def execFlog2 (h : Hdr) (m : Bool) (d a : BitVec 6) (s : State) : Out := .next (sfuWord .log2 h m d a s)

/-- `FRCP` (R139). -/
def execFrcp (h : Hdr) (m : Bool) (d a : BitVec 6) (s : State) : Out := .next (sfuWord .rcp h m d a s)

/-- `FRSQ` (R139). -/
def execFrsq (h : Hdr) (m : Bool) (d a : BitVec 6) (s : State) : Out := .next (sfuWord .rsq h m d a s)

/-- `FSQRT` (R139). -/
def execFsqrt (h : Hdr) (m : Bool) (d a : BitVec 6) (s : State) : Out := .next (sfuWord .sqrt h m d a s)

/-- `FSIN` (R139). -/
def execFsin (h : Hdr) (m : Bool) (d a : BitVec 6) (s : State) : Out := .next (sfuWord .sin h m d a s)

/-- `FCOS` (R139). -/
def execFcos (h : Hdr) (m : Bool) (d a : BitVec 6) (s : State) : Out := .next (sfuWord .cos h m d a s)

/-- `FTANH` (R139). -/
def execFtanh (h : Hdr) (m : Bool) (d a : BitVec 6) (s : State) : Out := .next (sfuWord .tanh h m d a s)

/-- `FERF` (R139). -/
def execFerf (h : Hdr) (m : Bool) (d a : BitVec 6) (s : State) : Out := .next (sfuWord .erf h m d a s)

/-! ### CMP (R134, R135) -/

/-- The integer conditions. -/
inductive ICond where
  | eq | ne | ltI | leI | gtI | geI | ltN | leN | gtN | geN
  deriving DecidableEq, Repr

/-- An integer condition (R135). -/
def iCond (k : ICond) (x y : Word) : Bool :=
  match k with
  | .eq => x == y
  | .ne => x != y
  | .ltI => x.toInt < y.toInt
  | .leI => x.toInt ≤ y.toInt
  | .gtI => y.toInt < x.toInt
  | .geI => y.toInt ≤ x.toInt
  | .ltN => x.toNat < y.toNat
  | .leN => x.toNat ≤ y.toNat
  | .gtN => y.toNat < x.toNat
  | .geN => y.toNat ≤ x.toNat

/-- An integer compare: the predicate of the issuing lanes (R134). -/
def icmp (k : ICond) (h : Hdr) (m n : Bool) (p : BitVec 2) (a b : BitVec 6) (s : State) : State :=
  word (specCmp h m p a b) s fun c s =>
    .ok (s.onGrp c.gi fun g =>
      g.putP p.toNat c.lanes (lanesWhere fun l => iCond k (srcA c a l) (srcB c h m b l) != n))

/-- A float compare (R134, R135). -/
def fcmp (k : FCond) (h : Hdr) (m n q : Bool) (p : BitVec 2) (a b : BitVec 6) (s : State) : State :=
  word (specCmp h m p a b) s fun c s =>
    let r := fun l => fCmp k (srcA c a l).toNat (srcB c h m b l).toNat
    .ok (putFloat c s q (fun l => (r l).2) fun good g => g.putP p.toNat good (lanesWhere fun l => (r l).1 != n))

/-- `CMP_EQ` (R134). -/
def execCmpEq (h : Hdr) (m n : Bool) (p : BitVec 2) (a b : BitVec 6) (s : State) : Out := .next (icmp .eq h m n p a b s)

/-- `CMP_NE` (R134). -/
def execCmpNe (h : Hdr) (m n : Bool) (p : BitVec 2) (a b : BitVec 6) (s : State) : Out := .next (icmp .ne h m n p a b s)

/-- `CMP_LTI32` (R134). -/
def execCmpLtI32 (h : Hdr) (m n : Bool) (p : BitVec 2) (a b : BitVec 6) (s : State) : Out := .next (icmp .ltI h m n p a b s)

/-- `CMP_LEI32` (R134). -/
def execCmpLeI32 (h : Hdr) (m n : Bool) (p : BitVec 2) (a b : BitVec 6) (s : State) : Out := .next (icmp .leI h m n p a b s)

/-- `CMP_GTI32` (R134). -/
def execCmpGtI32 (h : Hdr) (m n : Bool) (p : BitVec 2) (a b : BitVec 6) (s : State) : Out := .next (icmp .gtI h m n p a b s)

/-- `CMP_GEI32` (R134). -/
def execCmpGeI32 (h : Hdr) (m n : Bool) (p : BitVec 2) (a b : BitVec 6) (s : State) : Out := .next (icmp .geI h m n p a b s)

/-- `CMP_LTN32` (R134). -/
def execCmpLtN32 (h : Hdr) (m n : Bool) (p : BitVec 2) (a b : BitVec 6) (s : State) : Out := .next (icmp .ltN h m n p a b s)

/-- `CMP_LEN32` (R134). -/
def execCmpLeN32 (h : Hdr) (m n : Bool) (p : BitVec 2) (a b : BitVec 6) (s : State) : Out := .next (icmp .leN h m n p a b s)

/-- `CMP_GTN32` (R134). -/
def execCmpGtN32 (h : Hdr) (m n : Bool) (p : BitVec 2) (a b : BitVec 6) (s : State) : Out := .next (icmp .gtN h m n p a b s)

/-- `CMP_GEN32` (R134). -/
def execCmpGeN32 (h : Hdr) (m n : Bool) (p : BitVec 2) (a b : BitVec 6) (s : State) : Out := .next (icmp .geN h m n p a b s)

/-- `FCMP_EQ` (R135). -/
def execFcmpEq (h : Hdr) (m n q : Bool) (p : BitVec 2) (a b : BitVec 6) (s : State) : Out :=
  .next (fcmp .eq h m n q p a b s)

/-- `FCMP_NE` (R135). -/
def execFcmpNe (h : Hdr) (m n q : Bool) (p : BitVec 2) (a b : BitVec 6) (s : State) : Out :=
  .next (fcmp .ne h m n q p a b s)

/-- `FCMP_LT` (R135). -/
def execFcmpLt (h : Hdr) (m n q : Bool) (p : BitVec 2) (a b : BitVec 6) (s : State) : Out :=
  .next (fcmp .lt h m n q p a b s)

/-- `FCMP_LE` (R135). -/
def execFcmpLe (h : Hdr) (m n q : Bool) (p : BitVec 2) (a b : BitVec 6) (s : State) : Out :=
  .next (fcmp .le h m n q p a b s)

/-- `FCMP_GT` (R135). -/
def execFcmpGt (h : Hdr) (m n q : Bool) (p : BitVec 2) (a b : BitVec 6) (s : State) : Out :=
  .next (fcmp .gt h m n q p a b s)

/-- `FCMP_GE` (R135). -/
def execFcmpGe (h : Hdr) (m n q : Bool) (p : BitVec 2) (a b : BitVec 6) (s : State) : Out :=
  .next (fcmp .ge h m n q p a b s)

/-- `FCMP_UN` (R135). -/
def execFcmpUn (h : Hdr) (m n q : Bool) (p : BitVec 2) (a b : BitVec 6) (s : State) : Out :=
  .next (fcmp .un h m n q p a b s)

/-- `FCMP_ORD` (R135). -/
def execFcmpOrd (h : Hdr) (m n q : Bool) (p : BitVec 2) (a b : BitVec 6) (s : State) : Out :=
  .next (fcmp .ord h m n q p a b s)

end Sys2Proof.Machine
end

