-- ==== Sys2Proof/Machine/Convert.lean ====
section
/-! DEFINITION. The conversion words: class CVT (R140 to R144), with their counting (R69 to R71) and dither (R73, R74). -/
namespace Sys2Proof.Machine

/-- The type of a code of R140; code 15 is reserved and checked before. -/
def cvtType (t : BitVec 4) : Tgt :=
  match t.toNat with
  | 0x0 => .flt .f32 | 0x1 => .flt .f16 | 0x2 => .flt .bf16 | 0x3 => .flt .e4m3 | 0x4 => .flt .e5m2
  | 0x5 => .flt .e3m2 | 0x6 => .flt .e2m3 | 0x7 => .flt .e2m1
  | 0x8 => .int 32 true | 0x9 => .int 32 false | 0xa => .int 16 true | 0xb => .int 16 false
  | 0xc => .int 8 true | 0xd => .int 8 false | _ => .int 4 true

/-- The bits of an element of a type. -/
def Tgt.width : Tgt → Nat
  | .flt f => f.width
  | .int w _ => w

/-- The exact value of an element's code. -/
def Tgt.val (t : Tgt) (code : Nat) : Val :=
  match t with
  | .flt f => f.val code
  | .int w sg => intVal (if sg then sx w code else code)

/-- The largest magnitude of a type as m * 2^e. -/
def Tgt.maxMag : Tgt → Nat × Int
  | .flt f => f.maxMag
  | .int w sg => (if sg then 2 ^ (w - 1) else 2 ^ w - 1, 0)

/-- A conversion that is exact for every source value (R67, R68): the policies and counters do not apply to it. -/
def widens (st dt : Tgt) : Bool :=
  st == dt || (st.width < dt.width && match st, dt with
    | .int sw ss, .int dw ds => (ss == ds && sw ≤ dw) || (!ss && ds && sw < dw)
    | .int sw ss, .flt f => (if ss then sw - 1 else sw) ≤ f.mw + 1 && leMag st.maxMag.1 0 f.maxMag.1 f.maxMag.2
    | .flt _, .int _ _ => false
    | .flt f, .flt g => f.mw ≤ g.mw && f.bias + f.mw ≤ g.bias + g.mw && leMag f.maxMag.1 f.maxMag.2 g.maxMag.1 g.maxMag.2)

/-- The bits of a run of words as one number (R60). -/
def runBits (ws : List Word) : Nat := ofBytes (ws.flatMap fun w => toBytes 4 w.toNat)

/-- A number as `n` words. -/
def toWords (n x : Nat) : List Word := (List.range n).map fun k => BitVec.ofNat 32 (x / 2 ^ (32 * k))

/-- Element j of `w` bits of a run. -/
def getElem (w j : Nat) (ws : List Word) : Nat := runBits ws / 2 ^ (w * j) % 2 ^ w

/-- A run with element j replaced. -/
def putElem (w j : Nat) (ws : List Word) (x : Nat) : List Word :=
  toWords ws.length (setFld (runBits ws) (w * j + w - 1) (w * j) x)

/-- Codes of `w` bits packed into `n` words. -/
def packCodes (n w : Nat) (cs : List Nat) : List Word :=
  toWords n (cs.foldr (fun c acc => acc * 2 ^ w + c % 2 ^ w) 0)

/-- The reconstructed words of a run at a lane (R122). -/
def runAt (c : Wctx) (a n : Nat) : Fin 32 → List Word :=
  let rs := (List.range n).map fun k => c.snap.rows (a + k)
  fun l => rs.map fun r => r[l]

/-- The words of a run at a lane as the register file holds them. -/
def rawAt (c : Wctx) (d n : Nat) : Fin 32 → List Word :=
  let rs := (List.range n).map fun k => c.snap.vreg (d + k)
  fun l => rs.map fun r => r[l]

/-- A run of registers written in lanes. -/
def Group.putRun (g : Group) (d : Nat) (ls : Lanes) (f : Fin 32 → List Word) (n : Nat) : Group :=
  (List.range n).foldl (fun g k => g.putV (d + k) ls fun l => (f l).getD k 0) g

/-- Some register of a run is Haar-tagged. -/
def haarRun (c : Wctx) (d n : Nat) : Bool := (List.range n).any fun k => (c.snap.tag (d + k)).haar

/-- The end of a conversion (R66, R69 to R74): `es l` are the elements converted in a lane, `counting` when the counting
rule applies to the word, `put` writes the lanes that complete. DESIGN CHOICE (log entry 77): the elements of a lane whose FPE withholds
its result and flags are counted in `cvc` with those of the other issuing lanes. -/
def convert (c : Wctx) (s : State) (q counting dith : Bool) (es : Fin 32 → List Conv)
    (put : Lanes → Group → Group) : Res :=
  let all := (lanesOf c.lanes).flatMap es
  if counting && c.snap.countsDue then .hold .counting
  else
    match if counting then c.snap.convx all else none with
    | some d => .raise cCONVX d
    | none =>
      let s := putFloat c s q (fun l => (es l).foldl (fun f e => f ||| e.flags) 0#5) put
      .ok (s.onGrp c.gi fun g =>
        let g := if counting then g.addCounts all else g
        if dith then g.nextPh else g)

/-- `CVT` (R141). -/
def execCvt (h : Hdr) (m : Bool) (d a : BitVec 6) (st dt : BitVec 4) (rm : BitVec 2) (dith : Bool) (js jd : BitVec 4)
    (s : State) : Out :=
  .next (word (specCvt h d a dt st) s fun c s =>
    let src := cvtType st
    let dst := cvtType dt
    let n := cvtRun dt
    if haarRun c d.toNat n then .raise cDOMAIN 2
    else
      let counting := c.snap.ovp && !widens src dst
      let how : Rounder := if dith then .dither (ditherOff jd.toNat c.snap.ph) else .mode (Rm.of rm)
      let x := runAt c a.toNat (cvtRun st)
      let old := rawAt c d.toNat n
      let e := fun l => conv dst how counting false (src.val (getElem src.width js.toNat (x l)))
      convert c s m counting dith (fun l => [e l]) fun good g =>
        g.putRun d.toNat good (fun l => putElem dst.width jd.toNat (old l) (e l).code) n)

/-- The element formats of `qnt` and `dq` (R142). -/
def qntFmt (fmt : BitVec 3) : Fmt :=
  match fmt.toNat with | 0 => .e2m1 | 1 => .e4m3 | 2 => .e5m2 | 3 => .e3m2 | _ => .e2m3

/-- The wide formats of `qnt` and `dq` (R142, R143). -/
def wideFmt (t : BitVec 2) : Fmt := match t.toNat with | 0 => .f32 | 1 => .f16 | _ => .bf16

/-- Elements of a block (R61). -/
def blockLen (fmt : BitVec 3) : Nat := if fmt == 0#3 then 8 else 32

/-- `QNT` (R142, R75). DESIGN CHOICE (log entry 78): where `vE` lies in the run of elements, the scale is written over the elements. -/
def execQnt (h : Hdr) (m : Bool) (d a e : BitVec 6) (sb : BitVec 2) (fmt : BitVec 3) (st : BitVec 2) (dith : Bool)
    (s : State) : Out :=
  .next (word (specQnt h d a e fmt st) s fun c s =>
    let f := qntFmt fmt
    let src := wideFmt st
    let n := qntDst fmt
    if (c.snap.tag e.toNat).haar || partialHaar c (runOf d.toNat n) then .raise cDOMAIN 2
    else
      let x := runAt c a.toNat (qntSrc fmt st)
      let old := c.snap.vreg e.toNat
      let how := fun (j : Nat) => if dith then Rounder.dither (ditherOff j c.snap.ph) else .mode .rne
      let r := fun l =>
        quantise f how c.snap.ovp ((List.range (blockLen fmt)).map fun j => src.val (getElem src.width j (x l)))
      convert c s m c.snap.ovp dith (fun l => (r l).2) fun good g =>
        (g.putRun d.toNat good (fun l => packCodes n f.width ((r l).2.map Conv.code)) n).putV e.toNat good fun l =>
          BitVec.ofNat 32 (setFld old[l].toNat (8 * sb.toNat + 7) (8 * sb.toNat) (r l).1))

/-- An element times its block scale (R143): the value, and whether the product is invalid. -/
def dqVal (v scale : Val) : Val × Bool :=
  match v with
  | .nan s => (.nan s, false)
  | .inf n => if scale.isZero then (.nan false, true) else (.inf n, false)
  | .fin n _ _ _ => if scale.isZero then (.fin n 0 0 false, false) else ((mulV v scale).1, false)

/-- `DQ` (R143). DESIGN CHOICE (log entry 79): `vE` is an operand of a conversion and no scale register of R215, so a Haar-tagged one is
reconstructed before its byte is taken (R122); and an infinite E5M2 element times a non-zero scale into `.f16` or `.bf16` under the counting
rule follows R68, the largest finite value counted in SATC. -/
def execDq (h : Hdr) (m : Bool) (d a e : BitVec 6) (sb : BitVec 2) (fmt : BitVec 3) (dt : BitVec 2) (s : State) : Out :=
  .next (word (specDq h d a e fmt dt) s fun c s =>
    let f := qntFmt fmt
    let dst := wideFmt dt
    let n := qntSrc fmt dt
    if partialHaar c (runOf d.toNat n) then .raise cDOMAIN 2
    else
      let counting := c.snap.ovp && dt ≠ 0#2
      let x := runAt c a.toNat (qntDst fmt)
      let sc := srcA c e
      let r := fun l =>
        let scale := Fmt.e3m5.val ((sc l).toNat / 256 ^ sb.toNat % 256)
        (List.range (blockLen fmt)).map fun j =>
          let v := dqVal (f.val (getElem f.width j (x l))) scale
          convFlt dst (.mode .rne) counting v.2 v.1
      convert c s m counting false r fun good g =>
        g.putRun d.toNat good (fun l => packCodes n dst.width ((r l).map Conv.code)) n)

/-- The bits of a `pack` width (R144). -/
def packWidth (w : BitVec 2) : Nat := match w.toNat with | 0 => 16 | 1 => 8 | 2 => 4 | _ => 6

/-- The registers of a `pack` run (R144). -/
def packRun (w : BitVec 2) : Nat := if w == 3#2 then 3 else 1

/-- `PACK` (R144). -/
def execPack (h : Hdr) (_m : Bool) (d a : BitVec 6) (j : BitVec 4) (w : BitVec 2) (s : State) : Out :=
  .next (word (specPack h d a w) s fun c s =>
    if haarRun c d.toNat (packRun w) then .raise cDOMAIN 2
    else
      let old := rawAt c d.toNat (packRun w)
      .ok (s.onGrp c.gi fun g =>
        g.putRun d.toNat c.lanes (fun l => putElem (packWidth w) j.toNat (old l) (srcA c a l).toNat) (packRun w)))

/-- `UNPACK` (R144). -/
def execUnpack (h : Hdr) (_m : Bool) (d a : BitVec 6) (j : BitVec 4) (w : BitVec 2) (s : State) : Out :=
  .next (word (specUnpack h d a w) s fun c s =>
    let x := runAt c a.toNat (packRun w)
    putLanes c s d.toNat fun l => BitVec.ofNat 32 (getElem (packWidth w) j.toNat (x l)))

end Sys2Proof.Machine
end

