-- ==== Sys2Proof/Machine/PageRec.lean ====
section
/-! DEFINITION. Page records, frames, references and page-ins (R393 to R395, R411 to R413). -/
namespace Sys2Proof.Machine

/-! ### Records (R394, R395) -/

/-- A page record. -/
structure PRec where
  ref : Nat
  pin : Nat
  slot : Nat
  st : Nat
  tier : Nat
  full : Bool
  deriving DecidableEq, Repr

/-- A free page's record. -/
def PRec.zero : PRec := ⟨0, 0, 0, 0, 0, false⟩

def PRec.ofNat (n : Nat) : PRec :=
  ⟨fld n 127 112, fld n 111 96, fld n 95 72, fld n 63 60, fld n 59 58, fld n 57 57 = 1⟩
def PRec.toNat (r : PRec) : Nat :=
  r.ref % 65536 * 2 ^ 112 + r.pin % 65536 * 2 ^ 96 + r.slot % 2 ^ 24 * 2 ^ 72 + r.st % 16 * 2 ^ 60 + r.tier % 4 * 2 ^ 58
    + (if r.full then 2 ^ 57 else 0)

/-- State codes (R394). -/
def pFree : Nat := 0
def pReserved : Nat := 1
def pFilling : Nat := 2
def pResident : Nat := 3
def pShared : Nat := 4
def pCopying : Nat := 5
def pEvicting : Nat := 6
def pFar : Nat := 7
def pPooled : Nat := 8
def pPagingIn : Nat := 9
def pHanded : Nat := 10
def pBorrowed : Nat := 11
def pPoisoned : Nat := 12

/-- A page whose bytes lie, or are to lie, in an outer tier (R411). -/
def PRec.outer (r : PRec) : Bool := [pFar, pPooled, pEvicting, pPagingIn].contains r.st

/-- The near states (R394). -/
def PRec.near (r : PRec) : Bool := [pReserved, pFilling, pResident, pShared, pCopying, pHanded, pBorrowed].contains r.st

/-- Near state by count (R395). -/
def byCount (ref : Nat) (full : Bool) : Nat := if 2 ≤ ref then pShared else if full then pResident else pFilling

/-- The element type of a `conv` code. -/
def convType (n : Nat) : Tgt := cvtType (BitVec.ofNat 4 n)

/-- Bytes of a slot and of a page (R393). -/
def Fmt.ofPool (fmt : Nat) : Nat := (convType fmt).width
def Pool.slices (p : Pool) : Nat := p.hdim * Fmt.ofPool p.fmt / 512
def Pool.sz (p : Pool) : Nat := 64 * 2 ^ p.l + 16
def Pool.pg (p : Pool) : Nat := 2 * p.heads * p.slices * p.sz

/-- The address of a frame or slot of a tier (R391). -/
def Pool.frame (p : Pool) (tier k : Nat) : Nat :=
  (if tier = 0 then p.near else if tier = 1 then p.far else p.poolt) + k * 2 ^ p.fsz

/-- Frames or slots of a tier. -/
def Pool.count (p : Pool) (tier : Nat) : Nat := if tier = 0 then p.nn else if tier = 1 then p.nf else p.nc

/-- The place of a record: the context's translation, its permission bits ignored (R394). -/
def State.recLoc (s : State) (c : Nat) (p : Pool) (n : Nat) : Except (Nat × Nat) Loc :=
  let va := p.recs + 16 * n
  if !canonical va then .error (cPROT, 2)
  else
    match s.walk (s.ctx c).d.fn va 4 (s.ctx c).d.root with
    | .error f => .error f
    | .ok x =>
      let pa := x.pa + va % x.size
      if !s.paOk pa then .error (cPAGE, 3)
      else match s.lateFault (agent c) (.gl pa x) 16 with | some f => .error f | none => .ok (.gl pa { x with owner := some (agent c).owner })

/-- A record read. -/
def State.pageRec (s : State) (c : Nat) (p : Pool) (n : Nat) : Except (Nat × Nat) PRec :=
  match s.recLoc c p n with
  | .error f => .error f
  | .ok loc => .ok (PRec.ofNat (ofBytes (s.readLoc loc 16).2))

/-- A record written, in one access. -/
def State.putRec (s : State) (c : Nat) (p : Pool) (n : Nat) (r : PRec) : State :=
  match s.recLoc c p n with
  | .error _ => s
  | .ok loc => s.writeLoc loc (toBytes 16 r.toNat)

/-- A record that can be read; a free one where it cannot. -/
def State.recD (s : State) (c : Nat) (p : Pool) (n : Nat) : PRec :=
  match s.pageRec c p n with | .ok r => r | .error _ => PRec.zero

/-- A record changed. -/
def State.onRec (s : State) (c : Nat) (p : Pool) (n : Nat) (f : PRec → PRec) : State := s.putRec c p n (f (s.recD c p n))

/-- The first record of a pool that cannot be read: cause, detail, address (R394). DESIGN CHOICE (log entry 65): what takes a record or a
frame reads the whole table. -/
def State.tableFault (s : State) (c : Nat) (p : Pool) : Option (Nat × Nat × Nat) :=
  (List.range p.np).findSome? fun n => match s.pageRec c p n with
    | .error f => some (f.1, f.2, p.recs + 16 * n)
    | .ok _ => none

/-! ### Frames and references -/

/-- Frames or slots of a tier in use: those of records, and the targets of copies under way. -/
def State.used (s : State) (c pi : Nat) (p : Pool) (tier : Nat) : List Nat :=
  ((List.range p.np).filterMap fun n =>
    let r := s.recD c p n
    if r.st ≠ pFree && r.tier = tier then some r.slot else none)
  ++ s.copies.filterMap fun k => if k.ctx = c && k.pool = pi && k.dst.1 = tier then some k.dst.2 else none

/-- The lowest frame or slot of a tier that no record which can be read names. -/
def State.freeIn (s : State) (c pi : Nat) (p : Pool) (tier : Nat) : Option Nat :=
  let u := s.used c pi p tier
  (List.range (p.count tier)).find? fun k => !u.contains k

/-- The lowest free frame or slot of a tier; none while a record cannot be read. -/
def State.freeFrame (s : State) (c pi : Nat) (p : Pool) (tier : Nat) : Option Nat :=
  if (s.tableFault c p).isSome then none else s.freeIn c pi p tier

/-- The lowest free record. -/
def State.freeRec (s : State) (c : Nat) (p : Pool) : Option Nat := (List.range p.np).find? fun n => (s.recD c p n).st = pFree

/-- A page taken with its near frame (R395): state, REF 1. -/
def State.newPage (s : State) (c pi : Nat) (p : Pool) (st : Nat) : Option (State × Nat) :=
  match s.freeRec c p, s.freeFrame c pi p 0 with
  | some n, some k => some (s.putRec c p n ⟨1, 0, k, st, 0, false⟩, n)
  | _, _ => none

/-- A page that is being copied, handed out, or read under a pin. -/
def State.pageBusy (s : State) (c pi n : Nat) : Bool :=
  (s.copies.any fun k => k.ctx = c && k.pool = pi && (k.page = n || (match k.why with | .cow q => q = n | _ => false)))
    || (s.pins.any fun k => k.ctx = c && k.pool = pi && k.page = n)
    || s.xfers.any fun x => x.ctx = c && match x.kind with | .page _ p m _ => p = pi && m = n | _ => false

/-- An address lies in the pool's record table (R394). -/
def Pool.inRecords (p : Pool) (a : Nat) : Bool := p.recs ≤ a && a < p.recs + 16 * p.np

/-- `PAGE_DEFERRED_FREE` (R395): a page with no reference, no pin and nothing in flight is free. A poisoned page frees with its last
reference. -/
def State.freeIfDue (s : State) (c pi : Nat) (p : Pool) (n : Nat) : State :=
  let r := s.recD c p n
  if r.st ≠ pFree && r.ref = 0 && (r.st = pPoisoned || (r.pin = 0 && !s.pageBusy c pi n)) then s.putRec c p n PRec.zero else s

/-- Every page of a pool that can free does. -/
def State.freeDue (s : State) (c pi : Nat) (p : Pool) : State :=
  (List.range p.np).foldl (fun s n => s.freeIfDue c pi p n) s

/-- A reference dropped (R395). -/
def State.dropRef (s : State) (c pi : Nat) (p : Pool) (n : Nat) : State :=
  let s := s.onRec c p n fun r =>
    let k := r.ref - 1
    { r with ref := k, st := if r.st = pShared then byCount k r.full else r.st }
  s.freeIfDue c pi p n

/-! ### Page-ins (R395, R411, R412) -/

/-- A sequence that waited for a page waits for it no more (R412). -/
def State.pageCame (s : State) (c pi n : Nat) : State :=
  { s with seqs := s.seqs.map fun q => if q.ctx = c then { q with owed := q.owed.filter fun x => x != (pi, n) } else q }

/-- A request has still something to bring: its page lies in an outer tier, or its record cannot be read. -/
def State.requestStands (s : State) (q : Nat × Nat × Nat) : Bool :=
  match (s.ctx q.1).pool? q.2.1 with
  | none => false
  | some p => match s.pageRec q.1 p q.2.2 with | .ok r => r.outer | .error _ => true

/-- Requests whose page has come near, or is free, are over, and nobody waits for them. -/
def State.dropRequests (s : State) : State :=
  let met := s.pageIns.filter fun q => !s.requestStands q
  met.foldl (fun s q => s.pageCame q.1 q.2.1 q.2.2) { s with pageIns := s.pageIns.filter s.requestStands }

/-- One page-in request starts, once its page lies in an outer tier and a near frame is free; a pool whose first waiting request
has no frame is blocked for the later ones (R411). -/
def State.startPageIn (acc : State × List (Nat × Nat)) (q : Nat × Nat × Nat) : State × List (Nat × Nat) :=
  let s := acc.1
  let c := q.1
  let pi := q.2.1
  let n := q.2.2
  match (s.ctx c).pool? pi with
  | none => acc
  | some p =>
    match s.pageRec c p n with
    | .error _ => acc
    | .ok r =>
      if !(r.st = pFar || r.st = pPooled) || acc.2.contains (c, pi) then acc
      else
        match s.freeFrame c pi p 0 with
        | none => (s, (c, pi) :: acc.2)
        | some k =>
          let s := s.putRec c p n { r with st := pPagingIn }
          ({ s with copies := s.copies ++ [⟨c, pi, n, .pageIn, (r.tier, r.slot), (0, k), none, none, 0, 0, 0⟩] }, acc.2)

/-- Requests start in the order they were made. -/
def State.startPageIns (s : State) : State :=
  let s := s.dropRequests
  (s.pageIns.foldl State.startPageIn (s, [])).1

/-- A page-in asked for; one that another operation has asked for is shared (R411). -/
def State.askPageIn (s : State) (c pi n : Nat) : State :=
  ({ s with pageIns := addOnce s.pageIns (c, pi, n) }).startPageIns

/-- Pages that lose a read pin free where that was all that kept them (R395, R413). -/
def State.pinsGone (s : State) (ps : List Pin) : State :=
  (ps.foldl (fun s k => match (s.ctx k.ctx).pool? k.pool with
    | some p => s.freeIfDue k.ctx k.pool p k.page
    | none => s) s).startPageIns

end Sys2Proof.Machine
end

