-- ==== Sys2Proof/Machine/Job.lean ====
section
/-! DEFINITION. Job cards, footprints and edges, the job states, and the words `job` and `jstat` (R287 to R298, R302, R303). -/
namespace Sys2Proof.Machine

/-! ### Cards (R287, R288) -/

/-- A field of a card. -/
def cardN (card : List Byte) (off n : Nat) : Nat := ofBytes ((card.drop off).take n)

/-- The operation of a card. -/
def cardOp (card : List Byte) : Nat := cardN card 0 1
def cardNR (card : List Byte) : Nat := cardN card 1 1 % 16
def cardNW (card : List Byte) : Nat := cardN card 1 1 / 16
def cardEoa (card : List Byte) : Bool := cardN card 2 1 % 2 = 1
def cardCth (card : List Byte) : Nat := cardN card 4 2
def cardCaddr (card : List Byte) : Nat := cardN card 8 8
def cardP0 (card : List Byte) : Nat := cardN card 16 8
def cardP1 (card : List Byte) : Nat := cardN card 24 8

/-- A field of a card's body. -/
def cardB (card : List Byte) (off n : Nat) : Nat := cardN card (160 + off) n

/-- The region descriptors of a card. -/
def cardRd (card : List Byte) : List Nat := (List.range (cardNR card)).map fun i => cardN card (32 + 16 * i) 16
def cardWr (card : List Byte) : List Nat := (List.range (cardNW card)).map fun i => cardN card (96 + 16 * i) 16

/-- What a POOL region names (R288): the pool of a POOL entry with the P permission and a use left (R285, R295). -/
def State.poolOf (s : State) (g : Group) (n : Nat) : Option Nat :=
  let e := s.cap g n
  if (capFault e [kPOOL] permP).isSome then none else some (capIdx e)

/-- A region descriptor keeps R288. -/
def State.regionOk (s : State) (g : Group) (r : Nat) : Bool :=
  let base := fld r 63 0
  let len := fld r 95 64
  let sp := fld r 96 96 = 1
  let pool := fld r 97 97 = 1
  fld r 127 104 = 0 &&
    if pool then base = 0 && len = 0 && !sp && (s.poolOf g (fld r 103 98)).isSome
    else fld r 103 98 = 0 && base % 16 = 0 && len % 16 = 0 && 16 ≤ len && (!sp || base < 2 ^ 32)

/-- A region. -/
def State.regionOf (s : State) (g : Group) (r : Nat) : Region :=
  let pool := fld r 97 97 = 1
  ⟨fld r 96 96 = 1, if pool then s.poolOf g (fld r 103 98) else none, fld r 63 0, fld r 95 64⟩

/-- The operations of an engine (R292). -/
def engineOps (kind : Nat) : List Nat :=
  if kind = kCOPY then [0, 1, 2, 3] else if kind = kGATHER then [0x10] else if kind = kCOLL then [0x20, 0x21, 0x22]
  else if kind = kCONC then [0x30] else if kind = kPAGEENG then [0x40, 0x41, 0x42, 0x43] else []

/-- LEN of the regions of a card. -/
def lenOf (r : Nat) : Nat := fld r 95 64

/-- Elements of a `conv` card (R292). -/
def convCount (card : List Byte) : Nat :=
  lenOf ((cardRd card).getD 0 0) * 8 / (convType (cardP0 card % 16)).width

/-- Bytes rounded up to a granule. -/
def up16 (n : Nat) : Nat := (n + 15) / 16 * 16

/-- What the operation asks of the card beside R287 and R288 (R292, R372, R409, R400): numbers of regions, their lengths, its
parameters, and the bytes that it defines. DESIGN CHOICE (log entry 91): the root of a `bcast` without a read region is refused. -/
def opOk (card : List Byte) : Bool :=
  let op := cardOp card
  let nr := cardNR card
  let nw := cardNW card
  let p0 := cardP0 card
  let p1 := cardP1 card
  let rd := lenOf ((cardRd card).getD 0 0)
  let wr := lenOf ((cardWr card).getD 0 0)
  let noBody := cardB card 0 96 = 0
  let size := fld p1 31 16
  let coll := 2 ≤ size && size ≤ 4096 && fld p1 15 0 < size && noBody
  if op = 0x00 then nr = 0 && 1 ≤ nw && p0 = 0 && p1 = 0 && noBody
  else if op = 0x01 then nr = 1 && nw = 1 && rd = wr && p0 = 0 && p1 = 0 && noBody
  else if op = 0x02 then nr = 0 && nw = 1 && noBody
  else if op = 0x03 then
    nr = 1 && nw = 1 && noBody && p1 = 0 && p0 / 2 ^ 14 = 0 && p0 % 16 ≠ 15 && p0 / 16 % 16 ≠ 15
      && (fld p0 10 10 = 0 || (fld p0 9 8 = 0 && 3 ≤ fld p0 7 4 && fld p0 7 4 ≤ 7))
      && rd * 8 % (convType (p0 % 16)).width = 0
      && wr = up16 ((convCount card * (convType (p0 / 16 % 16)).width + 7) / 8)
  else if op = 0x10 then
    1 ≤ nr && nr ≤ 2 && nw = 1 && p0 = 0 && p1 = 0 && cardB card 28 1 ≤ 2 && cardB card 29 1 ≤ 1 && cardB card 30 2 = 0
      && cardB card 36 60 = 0 && 1 ≤ cardB card 12 4 && cardB card 12 4 ≤ 65535 && fld ((cardRd card).getD 0 0) 97 97 = 1
  else if op = 0x20 then nr = 1 && nw = 1 && rd = wr && coll && fld p1 47 38 = 0 && fld p1 63 57 = 0
  else if op = 0x21 then nr = 1 && nw = 1 && wr = size * rd && coll && fld p1 63 38 = 0
  else if op = 0x22 then
    nr ≤ 1 && nw = 1 && coll && fld p1 47 38 = 0 && fld p1 63 48 < size && (fld p1 63 48 ≠ fld p1 15 0 || nr = 1)
  else if op = 0x30 then
    1 ≤ nr && nr ≤ 2 && nw = 1 && 80 ≤ wr && p0 = 0 && p1 = 0 && 1 ≤ cardB card 8 1 && cardB card 8 1 ≤ 16
      && cardB card 9 7 = 0 && cardB card 80 16 = 0
  else
    p0 = 0 && p1 = 0 && 1 ≤ cardB card 0 4 && cardB card 0 4 ≤ 16 && cardB card 9 7 = 0 && cardB card 88 8 = 0

/-- A card is valid for an engine (R287, R288, R292, R295, R297). -/
def State.cardOk (s : State) (g : Group) (kind : Nat) (card : List Byte) : Bool :=
  let op := cardOp card
  let nr := cardNR card
  let nw := cardNW card
  let rs := cardRd card ++ cardWr card
  let pools := rs.any fun r => fld r 97 97 = 1
  (engineOps kind).contains op && nr ≤ 4 && nw ≤ 4
    && cardN card 2 1 ≤ 1 && cardN card 3 1 = 0 && cardCth card < 4096 && cardN card 6 2 = 0 && cardCaddr card % 16 = 0
    && cardN card (32 + 16 * nr) (16 * (4 - nr)) = 0 && cardN card (96 + 16 * nw) (16 * (4 - nw)) = 0
    && rs.all (fun r => s.regionOk g r) && (!pools || op = 0x10 || 0x40 ≤ op)
    && !(cardEoa card && (cardWr card).any fun r => fld r 97 97 = 1)
    && (op < 0x40 || (s.poolOf g (cardB card 8 1 % 64)).isSome && cardB card 8 1 < 64) && opOk card

/-! ### Footprints and edges (R289, R290) -/

/-- Region i of a job. -/
def regionAt (rs : List Region) (i : Nat) : Region := rs.getD i ⟨false, none, 0, 0⟩

/-- Two regions overlap; scratchpad regions only within a team, POOL regions when they name one pool. -/
def overlap (team1 team2 : Nat) (a b : Region) : Bool :=
  match a.pool, b.pool with
  | some p, some q => p = q
  | none, none => a.sp = b.sp && (!a.sp || team1 = team2) && a.base < b.base + b.len && b.base < a.base + a.len
  | _, _ => false

/-- A job has ended. -/
def Job.ended (j : Job) : Bool := j.st = .done || j.st = .failed

/-- J2 has an edge from J1 (R290). -/
def edge (j1 j2 : Job) : Bool :=
  let hit := fun (xs ys : List Region) => xs.any fun x => ys.any fun y => overlap j1.team j2.team x y
  j1.ctx = j2.ctx && !j1.ended && (hit j1.wr j2.rd || hit j1.rd j2.wr || hit j1.wr j2.wr)

/-! ### Jobs in their slots (R294, R302, R303) -/

/-- A job by its number. -/
def State.job? (s : State) (uid : Nat) : Option Job := s.jobs.find? fun j => j.uid = uid

/-- A job changed in place. -/
def State.onJob (s : State) (uid : Nat) (f : Job → Job) : State :=
  { s with jobs := s.jobs.map fun j => if j.uid = uid then f j else j }

/-- The handle of a job (R302). -/
def Job.handle (j : Job) : Word := BitVec.ofNat 32 (j.seq % 65536 * 65536 + j.core % 512 * 128 + j.slot % 128)

/-- State codes (R303). -/
def JSt.code : JSt → Nat
  | .submitted => 0 | .blocked => 1 | .running => 2 | .suspended => 3 | .done => 4 | .failed => 5

/-- The state word of a job (R303). -/
def Job.word (j : Job) : Word := BitVec.ofNat 32 (j.status * 256 + j.st.code)

/-- A job lies in the save area of its context and holds no slot (R446). -/
def State.jobAway (s : State) (j : Job) : Bool := j.saved && ((s.ctx j.ctx).st = .saved || (s.ctx j.ctx).st = .restoring)

/-- No team of a context is on a core (R446). -/
def State.teamsOff (s : State) (c : Nat) : Bool := s.teams.all fun t => s.ctxK t.kernel ≠ c || !t.holds

/-- The lowest free job slot of a core (R294). -/
def State.freeSlot (s : State) (core : Nat) : Option Nat :=
  (List.range 128).find? fun n => !(s.jobs.any fun j => j.core = core && j.slot = n && !j.ended && !s.jobAway j)

/-- An engine's access for a job. -/
def jobWho (j : Job) (sp : Bool) : Who := ⟨none, j.ctx, if sp then j.kernel else 1000000, j.team, 1000000, 1000000⟩

/-- The space of a region. -/
def spaceIf (sp : Bool) : Space := if sp then .sp else .gl

/-- A fault record of a job (R296, R298, R428): one that asks for an answer names the job. -/
def State.jobRec (s : State) (j : Job) (cause detail addr : Nat) (ask : Bool) : State :=
  s.post j.ctx { Rec.blank with
    cause := cause, detail := detail, kind := 2, addr := BitVec.ofNat 64 addr, fmask := j.handle,
    ktag := (match s.kernels[j.kernel]? with | some k => k.tag | none => 0),
    team := (match s.teams[j.team]? with | some t => t.idx | none => 0), grp := (s.grp j.gi).idx, core := j.core,
    job := if ask then some (j.uid, 0) else none }

/-- The completion record (R298), written in one access that fills its granule. A record that cannot be written is reported
with a record that needs no answer. DESIGN CHOICE (log entry 92): a CADDR that is no multiple of 16, for which the card fails with ARG,
gets neither. -/
def State.completion (s : State) (j : Job) : State :=
  let at_ := cardCaddr j.card
  if at_ = 0 || at_ % 16 ≠ 0 then s
  else
    let bs := toBytes 4 j.word.toNat ++ toBytes 4 j.counts.toNat ++ toBytes 4 j.granules ++ toBytes 4 j.handle.toNat
    match s.store (jobWho j false) .gl at_ bs (some true) with
    | (s, none) => s
    | (s, some f) => s.jobRec j f.1 f.2 at_ false

/-- A job ends with a status: its slot is returned, its pins drop, jobs with an edge from it learn of it and one that was blocked by it alone
is submitted again, its completion record is
written (not at a function reset) and its `cp` operation completes (R294, R298, R44). One that ends before its context's save has
written it is not part of the save; one that ends after stays among the records that the restore reads. -/
def State.jobClose (s : State) (uid status : Nat) (record : Bool) : State :=
  match s.job? uid with
  | none => s
  | some j =>
    if j.ended then s
    else
      let s := s.onJob uid fun j => { j with st := if status = 0 then .done else .failed, status := status, waits := false, saved := s.jobAway j }
      let held := s.pins.filter fun p => p.who = some uid
      let s := ({ s with
        pins := s.pins.filter (fun p => p.who ≠ some uid),
        jobs := s.jobs.map fun (x : Job) =>
          if x.edges.contains uid then
            let es := x.edges.filter fun e => e ≠ uid
            { x with edges := es, depfail := x.depfail || status ≠ 0,
                     st := if es = [] && status = 0 && !x.depfail && x.st = JSt.blocked then JSt.submitted else x.st }
          else x }).pinsGone held
      let s := match s.job? uid with | some j => if record then s.completion j else s | none => s
      s.complete j.gi j.op

/-- The status of a job that is killed (R296). -/
def sCANCEL : Nat := 8

/-- A job ends, with its completion record. -/
def State.jobEnd (s : State) (uid status : Nat) : State := s.jobClose uid status true

/-- What a failed access of an engine does (R294, R296, R388): PAGE suspends the job until its record is answered; the others fail
it, with a record. An access that a port in training holds leaves the job as it is (R468). -/
def State.jobFault (s : State) (uid cause detail addr : Nat) : State :=
  match s.job? uid with
  | none => s
  | some j =>
    if j.ended || cause = cHOLD then s
    else if cause = cPAGE then
      (s.jobRec j cause detail addr true).onJob uid fun j => { j with st := .suspended, waits := true }
    else (s.jobRec j cause detail addr false).jobEnd uid (if cause = cMACHINE then 5 else if cause = cRANGE then 3 else 4)

/-- An access that would fall outside the footprint (R291, R296). -/
def State.jobFoot (s : State) (uid addr : Nat) : State :=
  match s.job? uid with
  | none => s
  | some j => if j.ended then s else (s.jobRec j cPROT 0x0c addr false).jobEnd uid 7

/-- One granule emptied for EOA (R297), and the place of the next. -/
def eoaPlaces (j : Job) : List (Bool × Nat) :=
  j.wr.flatMap fun r => if r.pool.isSome then [] else (List.range (r.len / 16)).map fun i => (r.sp, r.base + 16 * i)

/-- The emptyings of a job from granule n on: as a write of its granule each. -/
def State.eoaFrom : List (Bool × Nat) → State → Nat → Nat → State
  | [], s, uid, _ => s.onJob uid fun j => { j with eoa := none }
  | (sp, a) :: ps, s, uid, n =>
    match s.job? uid with
    | none => s
    | some j =>
      let u := jobWho j sp
      match s.locate u { space := spaceIf sp, bytes := 16, acc := .w } (BitVec.ofNat 64 a) with
      | (s, .error f) => (s.onJob uid fun j => { j with eoa := some n }).jobFault uid f.1 f.2 a
      | (s, .ok loc) =>
        match s.heldFault u loc 16 with
        | some f => (s.onJob uid fun j => { j with eoa := some n }).jobFault uid f.1 f.2 a
        | none => State.eoaFrom ps (s.setFe loc false) uid (n + 1)

/-- EOA emptyings, from where they stopped. -/
def State.eoaRun (s : State) (uid : Nat) : State :=
  match s.job? uid with
  | some j => match j.eoa with
    | some n => State.eoaFrom ((eoaPlaces j).drop n) s uid n
    | none => s
  | none => s

/-- A slot is taken: the ended job that it kept is forgotten (R303), and a job whose context's save freed it is no longer there. -/
def State.clearSlot (s : State) (core slot : Nat) : State :=
  let here := fun (x : Job) => x.core = core && x.slot = slot
  { s with jobs := (s.jobs.filter fun x => !(here x && x.ended && !s.jobAway x)).map fun x =>
      if here x && s.jobAway x then { x with lost := true } else x }

/-- A job of a context that a save has suspended goes on: one that stopped during its EOA emptying is submitted (R294). -/
def Job.unsave (j : Job) (c : Nat) : Job :=
  if j.ctx = c && j.saved then
    { j with saved := false, lost := false,
             st := if j.st = .suspended && !j.waits then (if j.eoa.isSome then .submitted else .running) else j.st }
  else j

/-- The jobs of a context that a save has suspended return to their slots, which forget the ended jobs that have used them meanwhile; one
that has ended meanwhile stays in its slot only where no other has taken it (R303). EOA emptyings go on (R297). -/
def State.unsaveJobs (s : State) (c : Nat) : State :=
  let back := s.jobs.filter fun j => j.ctx = c && j.saved && !j.ended
  let s := back.foldl (fun s j => s.clearSlot j.core j.slot) s
  let s := { s with jobs := (s.jobs.filter fun j => !(j.ctx = c && j.ended && j.lost)).map fun j => Job.unsave j c }
  back.foldl (fun s j => match s.job? j.uid with
    | some x => if x.st = .submitted && x.eoa.isSome then s.eoaRun j.uid else s
    | none => s) s

/-- The edge check (R290, R294). An EOA emptying that a port has held goes on first (R468). -/
def State.edgeCheck (s : State) (uid : Nat) : State :=
  match s.job? uid with
  | none => s
  | some j =>
    if !(j.st = .submitted || j.st = .blocked) then s
    else if j.eoa.isSome then s.eoaRun uid
    else if j.depfail then s.jobEnd uid 2
    else if j.edges ≠ [] then s.onJob uid fun j => { j with st := .blocked }
    else s.onJob uid fun j => { j with st := .running }

/-- The first granule of a region of a write footprint that the kernel's declared ranges refuse, with the fault (R320, R321); a POOL region
stands for the pool's frame regions. DESIGN CHOICE (log entry 94): each granule is an access of its own, so a region may lie over several
ranges that adjoin. -/
def Kernel.footFault (k : Kernel) (x : Ctx) (r : Region) : Option (Nat × Nat × Nat) :=
  let first := fun (base len : Nat) => (List.range (len / 16)).findSome? fun i =>
    (k.rangeFault (base + 16 * i) 16 .w).map fun f => (f.1, f.2, base + 16 * i)
  match r.pool with
  | none => if r.sp then none else first r.base r.len
  | some p =>
    match x.pool? p with
    | none => some (cRANGE, 1, 0)
    | some q => ((first q.near (q.nn * 2 ^ q.fsz)).or (first q.far (q.nf * 2 ^ q.fsz))).or (first q.poolt (q.nc * 2 ^ q.fsz))

/-- The submissions that a core has counted. -/
def State.subs (s : State) (core : Nat) : Nat := match s.jobCnt.find? fun x => x.1 = core with | some x => x.2 | none => 0

/-- A job put into a slot (R302): its handle goes to `d`; the slot's former job is forgotten. -/
def State.takeSlot (s : State) (gi d : Nat) (slot : Nat) (j : Job) : State :=
  let n := s.subs j.core
  let j := { j with uid := s.nextJob, slot := slot, seq := n,
                    edges := (s.jobs.filter fun x => edge x j).map Job.uid }
  let s := s.clearSlot j.core slot
  let s := { s with
    jobs := s.jobs ++ [j], nextJob := s.nextJob + 1,
    jobCnt := (s.jobCnt.filter fun (x : Nat × Nat) => x.1 ≠ j.core) ++ [(j.core, n + 1)] }
  s.onGrp gi fun g => g.setS d j.handle

/-- A job as a group submits it. -/
def Job.new (s : State) (gi op kind inst : Nat) (card : List Byte) (rd wr : List Region) : Job :=
  let g := s.grp gi
  { uid := 0, core := g.core, slot := 0, seq := 0, ctx := s.ctxOf g, kernel := g.kernel, team := g.team, gi := gi, op := op,
    kind := kind, inst := inst, link := 0, st := .submitted, status := 0, counts := 0, granules := 0, card := card, rd := rd,
    wr := wr, edges := [], depfail := false, eoa := if cardEoa card then some 0 else none, at_ := 0, saved := false, lost := false,
    waits := false, busy := false, imgs := [], data := [] }

/-- The bytes of a card. -/
def State.cardAt (s : State) (team off : Nat) : List Byte :=
  match s.teams[team]? with | some t => Memory.readN t.sp off 256 | none => List.replicate 256 0

/-- The LINK entry of a `pghand` card: its number, and the detail that it fails R285 with for S (R406). -/
def State.cardLink (s : State) (g : Group) (kind : Nat) (card : List Byte) : Option (Nat × Option Nat) :=
  if kind = kPAGEENG && cardOp card = 0x43 && s.cardOk g kind card then
    let n := cardB card 4 4 % 64
    some (n, capFault (s.cap g n) [kLINK] permS)
  else none

/-- A job whose write footprint leaves the declared ranges fails with RANGE and a record (R294, R321). -/
def State.rangeJob (s : State) (uid : Nat) (k : Kernel) : Option State :=
  (s.job? uid).bind fun j =>
    if k.h.det then
      (j.wr.findSome? fun r => k.footFault (s.ctx j.ctx) r).map fun f => (s.jobRec j f.1 f.2.1 f.2.2 false).jobEnd uid 3
    else none

/-- A card submitted into a slot (R302, R294): the first row of R294 that matches. A page card takes its pool from BODY[8] (R400) and its
link from x (R406); an uncorrectable error in the card itself gives its record the granule (R296). -/
def State.submitCard (s : State) (gi d op kind inst off slot : Nat) : State :=
  let g := s.grp gi
  let card := s.cardAt g.team off
  let link := s.cardLink g kind card
  let ok := s.cardOk g kind card && (match link with | some (_, some _) => false | _ => true)
  let inst := if ok && 0x40 ≤ cardOp card then (s.poolOf g (cardB card 8 1)).getD inst else inst
  let j := { Job.new s gi op kind inst card
    (if ok then (cardRd card).map (s.regionOf g) else []) (if ok then (cardWr card).map (s.regionOf g) else []) with
    link := match link with | some (n, none) => capIdx (s.cap g n) | _ => 0 }
  let uid := s.nextJob
  let bad := (List.range 16).find? fun i => s.spPoisoned g.team (off + 16 * i) 16
  let s := s.takeSlot gi d slot j
  match bad with
  | some i => s.jobFault uid cMACHINE 1 (off + 16 * i)
  | none =>
    if !ok then s.jobEnd uid 1
    else
      let s := match link with | some (n, none) => s.useCap g n | _ => s
      match s.kernels[g.kernel]? with
      | none => s
      | some k => match s.rangeJob uid k with
        | some s => s
        | none => s.eoaRun uid

/-- The registers of `job`. -/
def specJob (h : Hdr) (d b : BitVec 6) : WordSpec :=
  { h := h, pipe := .x, sr := [b.toNat], sw := [d.toNat], cnt := some .cp, side := true }

/-- A submission that has its entry checked: it takes a slot of the core, or waits for one (R302, R400). -/
def submit (c : Wctx) (s : State) (d : Nat) (cmd : SlotCmd) (now : State → Nat → State) : Res :=
  let id := (s.grp c.gi).nextOp
  let s := s.start c .cp 0 .job [] []
  match s.freeSlot c.snap.core with
  | some n => if (s.slotQ.any fun gi => (s.grp gi).core = c.snap.core) then
      .wait (.slot d id cmd) { s with slotQ := addOnce s.slotQ c.gi }
    else .ok (now s n)
  | none => .wait (.slot d id cmd) { s with slotQ := addOnce s.slotQ c.gi }

/-- `JOB` (R302). -/
def execJob (h : Hdr) (d a b : BitVec 6) (s : State) : Out :=
  .next (word (specJob h d b) s fun c s =>
    let g := c.snap
    let e := s.cap g a.toNat
    let off := (g.sreg b.toNat).toNat
    match capFault e [kCOPY, kGATHER, kCOLL, kCONC, kPAGEENG] permJ with
    | some x => .raise cCAP x
    | none =>
      if off % 64 ≠ 0 then .raise cALIGN 1
      else if s.spSize g.kernel < off + 256 then .raise cPROT 3
      else if blockedAccess c then .hold c.blockKind
      else match s.cardLink g (capKind e) (s.cardAt g.team off) with
      | some (_, some x) => .raise cCAP x
      | _ =>
        let id := (s.grp c.gi).nextOp
        submit c (s.useCap g a.toNat) d.toNat (.card (capKind e) (capIdx e) off) fun s n =>
          s.submitCard c.gi d.toNat id (capKind e) (capIdx e) off n)

/-! ### Asking (R303) -/

/-- The job that a handle names, in the table of the core that it names. -/
def State.jobOf (s : State) (c : Nat) (h : Word) : Option Job :=
  s.jobs.find? fun j => !s.jobAway j && j.ctx = c && j.handle = h

/-- The registers of `jstat`. -/
def specJstat (h : Hdr) (d a : BitVec 6) (sel : BitVec 3) : WordSpec :=
  { h := h, pipe := .x, sr := if sel.toNat ≤ 2 then [a.toNat] else [], sw := [d.toNat] }

/-- `JSTAT` (R303). -/
def execJstat (h : Hdr) (d a : BitVec 6) (sel : BitVec 3) (s : State) : Out :=
  .next (word (specJstat h d a sel) s fun c s =>
    let j := s.jobOf (s.ctxOf c.snap) (c.snap.sreg a.toNat)
    let e := s.cap c.snap a.toNat
    if sel.toNat = 0 then putS c s d.toNat (match j with | some j => j.word | none => 0xf)
    else if sel.toNat = 1 then putS c s d.toNat (match j with | some j => j.counts | none => 0)
    else if sel.toNat = 2 then putS c s d.toNat (match j with | some j => BitVec.ofNat 32 j.granules | none => 0)
    else if sel.toNat = 4 then putS c s d.toNat (BitVec.ofNat 32 (capAllow e))
    else if capKind e ≠ kMBOX then putS c s d.toNat 0
    else
      match s.fetch (s.whoOf c.snap) .gl (capAddr e).toNat 8 .r with
      | (s, .error f) => if f.1 = cHOLD then .hold .side else putS c s d.toNat 0
      | (s, .ok bs) => putS c s d.toNat (BitVec.ofNat 32 (ofBytes (bs.take 4)) - BitVec.ofNat 32 (ofBytes (bs.drop 4))))

/-- `JOB_EDGE_CHECK` (R290, R294). -/
def execJobEdgeCheck (uid : Nat) (s : State) : Out := .next (s.edgeCheck uid)

end Sys2Proof.Machine
end

