-- ==== Sys2Proof/Machine/Page.lean ====
section
/-! DEFINITION. Cache pages: records, catalogues, the page operations and class PAGE (R391 to R408). -/
namespace Sys2Proof.Machine

/-! ### Catalogues (R396, R397) -/

/-- The header of a catalogue: CMAX, NV, pool number. -/
structure CatHdr where
  cmax : Nat
  nv : Nat
  pool : Nat
  deriving DecidableEq, Repr

/-- An access to a catalogue of 16 bytes of header, by an accessor. -/
def State.catHdr (s : State) (u : Who) (cat : Nat) : State × Except (Nat × Nat × Nat) CatHdr :=
  match s.readVa u .gl cat 16 .r with
  | (s, .error f) => (s, .error f)
  | (s, .ok bs) =>
    (s, .ok ⟨ofBytes (bs.take 4), ofBytes ((bs.drop 4).take 4), ofBytes ((bs.drop 8).take 1)⟩)

/-- The address of entry i. -/
def catEntry (cat i : Nat) : Nat := cat + 64 + 8 * i

/-- An entry read. -/
def State.catRead (s : State) (u : Who) (cat i : Nat) : State × Except (Nat × Nat × Nat) Nat :=
  match s.readVa u .gl (catEntry cat i) 8 .r with
  | (s, .error f) => (s, .error f)
  | (s, .ok bs) => (s, .ok (ofBytes bs))

/-- Fields of an entry. -/
def ePage (e : Nat) : Nat := fld e 63 40
def eDom (e : Nat) : Nat := fld e 36 36
def eNtok (e : Nat) : Nat := fld e 35 29
def eValid (e : Nat) : Bool := e % 2 = 1

/-- An entry as it is stored (R397). -/
def mkEntry (page dom ntok : Nat) (v : Bool) : Nat :=
  page % 2 ^ 24 * 2 ^ 40 + dom % 2 * 2 ^ 36 + ntok % 128 * 2 ^ 29 + if v then 1 else 0

/-- An entry written, and NV raised to cover it; `fe` is what an engine's write for a card leaves in its granule (R166, R195). -/
def State.catWrite (s : State) (u : Who) (cat i e : Nat) (nv : Option Nat) (fe : Option Bool) : State × Option (Nat × Nat × Nat) :=
  match s.writeVa u .gl (catEntry cat i) (toBytes 8 e) fe with
  | (s, some f) => (s, some f)
  | (s, none) =>
    match nv with
    | some n => s.writeVa u .gl (cat + 4) (toBytes 4 n) fe
    | none => (s, none)

/-! ### Copies under way and uncorrectable errors (R395, R403, R411) -/

/-- A copy is taken out of the list; of a copy on write the read pin drops and the target is free again, unless it is poisoned (log entry
74). -/
def State.dropCopy (s : State) (p : Pool) (k : PageCopy) : State :=
  let s := { s with copies := s.copies.erase k }
  match k.why with
  | .cow q =>
    let s := { s with pins := s.pins.erase ⟨k.ctx, k.pool, k.page, k.job⟩ }
    let s := if (s.recD k.ctx p q).st = pPoisoned then s else s.putRec k.ctx p q PRec.zero
    s.freeIfDue k.ctx k.pool p k.page
  | _ => s

/-- Jobs that wait for the page of a page-in. -/
def State.waitersFor (s : State) (k : PageCopy) : List Job :=
  s.jobs.filter fun j => !j.ended && j.ctx = k.ctx && (regionAt j.rd 0).pool = some k.pool
    && j.imgs.any fun m => m.miss && m.page = some k.page

/-- What a failure does to those for whom a copy is made: the job, the lanes of a `catld`, or every job that waits for the page-in. -/
def State.copyTold (s : State) (k : PageCopy) (f : Nat × Nat × Nat) : State :=
  match k.job, k.ld with
  | some u, _ => s.jobFault u f.1 f.2.1 f.2.2
  | none, some (gi, id) =>
    (match (s.grp gi).op? id with
    | some o => (s.deferAll gi o.pc o.hm true ((lanesOf o.lanes).map fun l =>
        (l.val, f.1, f.2.1, BitVec.ofNat 64 f.2.2))).complete gi id
    | none => s)
  | none, none => (s.waitersFor k).foldl (fun s j => s.jobFault j.uid f.1 f.2.1 f.2.2) s

/-- An uncorrectable error on a page's bytes poisons it where it is near, on its way out or on its way in; the operations in flight on
it fail, gathers that hold a read pin among them (R395, R411, R413). -/
def State.poisonPage (s : State) (c pi : Nat) (p : Pool) (n : Nat) (f : Nat × Nat × Nat) : State :=
  let s := s.onRec c p n fun r => if r.near || r.st = pEvicting || r.st = pPagingIn then { r with st := pPoisoned } else r
  let ks := s.copies.filter fun k => k.ctx = c && k.pool = pi && (k.page = n || k.why = .cow n)
  let s := ks.foldl (fun s k => (s.dropCopy p k).copyTold k f) s
  let xs := s.xfers.filterMap fun x => match x.kind with
    | .page u q m _ => if x.ctx = c && q = pi && m = n then some (x.id, u) else none
    | _ => none
  let s := xs.foldl (fun s x =>
    (s.dropXfer x.1).jobFault x.2 f.1 f.2.1 f.2.2) s
  let rs := s.pins.filterMap fun x => if x.ctx = c && x.pool = pi && x.page = n then x.who else none
  let s := rs.foldl (fun s u => s.jobFault u f.1 f.2.1 f.2.2) s
  (s.freeIfDue c pi p n).startPageIns

/-! ### Page operations (R400 to R406) -/

/-- How one operation on a page goes: done, ended with a status, stopped by a fault of an access, waiting, done once a copy or a
transfer is, stopped before an access outside the footprint, or by an uncorrectable error on a page. -/
inductive PRes where
  | done (s : State)
  | fail (s : State) (status : Nat)
  | fault (s : State) (cause detail addr : Nat)
  | wait (s : State)
  | busy (s : State)
  | foot (s : State) (addr : Nat)
  | poison (s : State) (page detail addr : Nat)

/-- Page statuses (R401). -/
def sARG : Nat := 1
def sPSTATE : Nat := 9
def sPBUSY : Nat := 0xa
def sNOSPACE : Nat := 0xb
def sPEER : Nat := 0xc

/-- An operation that takes a page, where every record can be read and something is free (R394, R401). -/
def withNewPage (s : State) (c pi : Nat) (p : Pool) (st : Nat) (f : State → Nat → PRes) : PRes :=
  match s.tableFault c p with
  | some e => .fault s e.1 e.2.1 e.2.2
  | none =>
    match s.newPage c pi p st with
    | none => .fail s sNOSPACE
    | some (s, n) => f s n

/-- `pgref` (R402). -/
def opRef (s : State) (u : Who) (c pi : Nat) (p : Pool) (cat i x e nv : Nat) (fe : Option Bool) : PRes :=
  let take := fun (st : Nat) =>
    if eValid e then PRes.fail s sARG
    else withNewPage s c pi p st fun s' n =>
      match s'.catWrite u cat i (mkEntry n 0 0 true) (some (max nv (i + 1))) fe with
      | (_, some f) => .fault s f.1 f.2.1 f.2.2
      | (s', none) => .done s'
  if x = 2 then take pReserved
  else if x = 3 then take pBorrowed
  else if 3 < x || !eValid e then .fail s sARG
  else
    let n := ePage e
    let r := s.recD c p n
    if x = 0 then
      if 65535 ≤ r.ref then .fail s sARG
      else if !([pReserved, pFilling, pResident, pShared].contains r.st) then .fail s sPSTATE
      else .done (s.putRec c p n { r with ref := r.ref + 1, st := pShared })
    else if r.st = pFree then .fail s sPSTATE
    else
      match s.catWrite u cat i 0 none fe with
      | (_, some f) => .fault s f.1 f.2.1 f.2.2
      | (s, none) => .done ((s.dropRef c pi p n).startPageIns)

/-- A copy on write of the page is under way. -/
def State.copied (s : State) (c pi n : Nat) : Bool :=
  s.copies.any fun k => k.ctx = c && k.pool = pi && k.page = n && match k.why with | .cow _ => true | _ => false

/-- A copy on write of the page of an entry (R403): nothing to do, refused, or a copy that has started. While another is under way the
request waits, and then finds what it has left (R414). -/
def opCow (s : State) (c pi : Nat) (p : Pool) (cat i e : Nat) (job : Option Nat) (ld : Option (Nat × Nat)) : PRes :=
  let n := ePage e
  let r := s.recD c p n
  if r.ref = 1 && [pReserved, pFilling, pResident].contains r.st then .done s
  else if r.st ≠ pShared then .fail s sPSTATE
  else if s.copied c pi n then .wait s
  else withNewPage s c pi p pCopying fun s q =>
    let dst := (s.recD c p q).slot
    .busy { s with
      pins := s.pins ++ [⟨c, pi, n, job⟩],
      copies := s.copies ++ [⟨c, pi, n, .cow q, (0, r.slot), (0, dst), job, ld, cat, i, 0⟩] }

/-- Every far and pool slot of a function's pools is in use (R404). -/
def State.outerFull (s : State) (fn : Nat) : Bool :=
  (List.range s.ctxs.length).all fun c =>
    (s.ctx c).st = .free || (s.ctx c).d.fn ≠ fn || (List.range 16).all fun pi =>
      match (s.ctx c).pool? pi with
      | none => true
      | some p => (s.freeIn c pi p 1).isNone && (s.freeIn c pi p 2).isNone

/-- `pgmove` (R404). -/
def opMove (s : State) (c pi : Nat) (p : Pool) (x e : Nat) (job : Nat) : PRes :=
  let n := ePage e
  let r := s.recD c p n
  if 3 ≤ x then .fail s sARG
  else if r.st ≠ pFree && x = r.tier then .done s
  else if x = 0 && s.outerFull (s.ctx c).d.fn then .fail s sARG
  else if 0 < r.pin then .fail s sPBUSY
  else if !([pResident, pShared, pFar, pPooled].contains r.st) then .fail s sPSTATE
  else if s.pins.any fun k => k.ctx = c && k.pool = pi && k.page = n then .wait s
  else
    match s.tableFault c p, s.freeFrame c pi p x with
    | some f, _ => .fault s f.1 f.2.1 f.2.2
    | none, none => .fail s sNOSPACE
    | none, some k =>
      let s := s.putRec c p n { r with st := if x = 0 then pPagingIn else pEvicting }
      .busy { s with copies := s.copies ++ [⟨c, pi, n, .move, (r.tier, r.slot), (x, k), some job, none, 0, 0, 0⟩] }

/-- `pgpin` (R405). -/
def opPin (s : State) (c pi : Nat) (p : Pool) (x e : Nat) : PRes :=
  let n := ePage e
  let r := s.recD c p n
  if 1 < x then .fail s sARG
  else if x = 1 then
    if !r.near then .fail s sPSTATE
    else if 65535 ≤ r.pin then .fail s sARG
    else .done (s.putRec c p n { r with pin := r.pin + 1 })
  else if r.pin = 0 then .fail s sARG
  else .done (((s.putRec c p n { r with pin := r.pin - 1 }).freeIfDue c pi p n).startPageIns)

/-- The bytes of a frame, 16 at a time with their full-empty bits; the first failure. -/
def State.frameBytes (s : State) (u : Who) (va n : Nat) : State × Except (Nat × Nat × Nat) (List Byte) := s.readVa u .gl va n .r

/-- `pghand` (R406): the page's bytes travel to a page of the peer's pool, whose address the peer alone holds (log entry 83). -/
def opHand (s : State) (u : Who) (c pi : Nat) (p : Pool) (x e link job : Nat) : PRes :=
  let n := ePage e
  let r := s.recD c p n
  if fld x 7 6 ≠ 0 then .fail s sARG
  else if r.st ≠ pResident && r.st ≠ pShared then .fail s sPSTATE
  else
    match s.frameBytes u (p.frame 0 r.slot) p.pg with
    | (s, .error f) => if f.1 = cMACHINE && f.2.1 = 1 then .poison s n f.2.1 f.2.2 else .fault s f.1 f.2.1 f.2.2
    | (s, .ok bs) =>
      match s.transfer c link (.page job pi n r.st) (fun y => Config.remoteAddr [y.paddr, y.rctx, pi, x / 256]) bs none [pi, x / 256] with
      | (s, false) => .fail s sPEER
      | (s, true) => .busy (s.putRec c p n { r with st := pHanded })

/-- A range of global memory lies inside the union of some regions (R291). -/
def covers (rs : List Region) (a n : Nat) : Bool :=
  (List.range n).all fun i => rs.any fun r => r.pool.isNone && !r.sp && r.base ≤ a + i && a + i < r.base + r.len

/-- An operation whose writes of the catalogue would leave the write footprint: they are not made (R291). -/
def PRes.inFoot (r : PRes) (j : Job) (s : State) (op cat i x : Nat) : PRes :=
  let e := covers j.wr (catEntry cat i) 8
  let ok := if op = 0x41 then e else if op = 0x42 && x = 1 then e else if op = 0x42 && x ≠ 0 then e && covers j.wr (cat + 4) 4 else true
  let moved : Bool := match r with
    | .done _ => op = 0x42
    | .busy _ => true
    | .fault .. => true
    | _ => false
  if !ok && moved then .foot s (if e then cat else catEntry cat i / 16 * 16) else r

/-- An engine's write for a card sets the bit of its granule; that of a page word leaves it (R166, R195). -/
def Job.fe (j : Job) : Option Bool := if j.kind = kPAGEENG then some true else none

/-- The entries that a page job names, in list order. -/
def Job.entries (j : Job) : List Nat := (List.range (cardB j.card 0 4)).map fun k => cardB j.card (24 + 4 * k) 4

/-- The pages that a page job's operations name, of those that have not been applied, as its catalogue stands. -/
def State.namedPages (s : State) (j : Job) : List Nat :=
  (j.entries.drop (if j.busy then j.at_ + 1 else j.at_)).filterMap fun i =>
    match (s.catRead (jobWho j false) (cardB j.card 16 8) i).2 with
    | .ok e => if eValid e then some (ePage e) else none
    | .error _ => none

/-- An operation issued before has not been applied to a page yet (R400: operations on one page keep the order of their issue). -/
def State.earlierOp (s : State) (c pi n before : Nat) : Bool :=
  s.jobs.any fun j => j.ctx = c && !j.ended && 0x40 ≤ cardOp j.card && j.inst = pi && j.uid < before && (s.namedPages j).contains n

/-- One operation of a page job: its checks (R401), then what it does. -/
def pageOp (s : State) (j : Job) (op cat i x : Nat) : PRes :=
  let c := j.ctx
  let u := jobWho j false
  match (s.ctx c).pool? j.inst with
  | none => .fail s sARG
  | some p =>
    if cat % 64 ≠ 0 then .fail s sARG
    else if !covers j.rd cat 16 then .foot s cat
    else
      match s.catHdr u cat with
      | (s, .error f) => .fault s f.1 f.2.1 f.2.2
      | (s, .ok h) =>
        if h.cmax ≤ i || h.pool ≠ j.inst then .fail s sARG
        else if !covers j.rd (catEntry cat i) 8 then .foot s (catEntry cat i / 16 * 16)
        else
          match s.catRead u cat i with
          | (s, .error f) => .fault s f.1 f.2.1 f.2.2
          | (s, .ok e) =>
            if op = 0x42 && (2 ≤ x || !eValid e) then (opRef s u c j.inst p cat i x e h.nv j.fe).inFoot j s op cat i x
            else if !eValid e || p.np ≤ ePage e then .fail s sARG
            else if s.earlierOp c j.inst (ePage e) j.uid then .wait s
            else
              match s.pageRec c p (ePage e) with
              | .error f => .fault s f.1 f.2 (p.recs + 16 * ePage e)
              | .ok _ =>
                (if op = 0x42 then opRef s u c j.inst p cat i x e h.nv j.fe
                else if op = 0x41 then opCow s c j.inst p cat i e (some j.uid) none
                else if op = 0x40 then opMove s c j.inst p x e j.uid
                else if op = 0x43 then opHand s u c j.inst p x e j.link j.uid
                else opPin s c j.inst p x e).inFoot j s op cat i x

/-- One operation of a page job is over (R400): the next one, or the end. -/
def State.pageNext (s : State) (uid : Nat) : State :=
  match s.job? uid with
  | none => s
  | some j =>
    let s := s.onJob uid fun j => { j with at_ := j.at_ + 1, busy := false }
    if j.at_ + 1 < j.entries.length then s else s.jobEnd uid 0

/-- A page job's next operation, in list order, ending with the first failure (R400). -/
def State.pageStep (s : State) (uid : Nat) : State :=
  match s.job? uid with
  | none => s
  | some j =>
    if j.st ≠ .running || j.busy then s
    else
      match pageOp s j (cardOp j.card) (cardB j.card 16 8) (j.entries.getD j.at_ 0) (cardB j.card 4 4) with
      | .done s => s.pageNext uid
      | .fail s st => s.jobEnd uid st
      | .fault s cause detail addr => s.jobFault uid cause detail addr
      | .wait s => s
      | .busy s => s.onJob uid fun j => { j with busy := true }
      | .foot s addr => s.jobFoot uid addr
      | .poison s n detail addr =>
        match (s.ctx j.ctx).pool? j.inst with
        | some p => (s.poisonPage j.ctx j.inst p n (cMACHINE, detail, addr)).jobFault uid cMACHINE detail addr
        | none => s

/-! ### The PAGE words (R399 to R408) -/

/-- The card that stands for a page word: code 0x44 is `pgpin`. -/
def pageCard (op x cat i : Nat) : List Byte :=
  toBytes 160 op ++ toBytes 4 1 ++ toBytes 12 x ++ toBytes 8 cat ++ toBytes 72 i

/-- The footprint of a page word (R400): the 16 bytes of its entry's granule and the header. DEDUCED (log entry 75): an odd entry's own 16
bytes would leave the catalogue behind its last entry. -/
def pageRegions (cat i : Nat) : List Region := [⟨false, none, catEntry cat i / 16 * 16, 16⟩, ⟨false, none, cat, 64⟩]

/-- A page word submitted into a slot (R400): it acts at once where no edge holds it. -/
def State.submitPage (s : State) (gi d op code pool : Nat) (cat : Dword) (i x link slot : Nat) : State :=
  let g := s.grp gi
  let rs := pageRegions cat.toNat i
  let j := { Job.new s gi op kPOOL pool (pageCard code x cat.toNat i) rs rs with link := link }
  let uid := s.nextJob
  let s := s.takeSlot gi d slot j
  match s.kernels[g.kernel]? with
  | none => s
  | some k =>
    match s.rangeJob uid k with
    | some s => s
    | none => (s.edgeCheck uid).pageStep uid

/-- A submission made in a slot: a card, or a page word. -/
def State.submitCmd (s : State) (gi d op : Nat) (cmd : SlotCmd) (slot : Nat) : State :=
  match cmd with
  | .card kind inst off => s.submitCard gi d op kind inst off slot
  | .page code pool cat i x link => s.submitPage gi d op code pool cat i x link slot

/-- A wait for a job slot. -/
def StallKind.isSlot : StallKind → Bool
  | .slot .. => true
  | _ => false

/-- `JOB_SLOT_GRANT` (R302): a slot of the core goes to the submission that waited first. -/
def execJobSlotGrant (core : Nat) (s : State) : Out :=
  .next (match s.slotQ.find? fun gi => (s.grp gi).core = core && (match (s.grp gi).status with
      | .running => true | .handler => true | .sleeping _ => true | _ => false) with
    | none => s
    | some gi =>
      match (s.grp gi).cur with
      | none => { s with slotQ := s.slotQ.erase gi }
      | some t =>
        match t.kind, s.freeSlot core with
        | .slot d op cmd, some n =>
          let s := { s with slotQ := s.slotQ.erase gi }
          (s.submitCmd gi d op cmd n).endWaits gi StallKind.isSlot
        | .slot .., none => s
        | _, _ => { s with slotQ := s.slotQ.erase gi })

/-- The registers of a page word. -/
def specPg (h : Hdr) (d b : BitVec 6) : WordSpec :=
  { h := h, pipe := .x, sr := runOf b.toNat 4, sw := [d.toNat], cnt := some .cp, side := true }

/-- A `cp`-counted page word: the entry's checks, then its submission. -/
def pageWord (code : Nat) (h : Hdr) (d a b : BitVec 6) (s : State) : State :=
  word (specPg h d b) s fun c s =>
    let g := c.snap
    let e := s.cap g a.toNat
    let x := (g.sreg (b.toNat + 3)).toNat
    let l := s.cap g (x % 64)
    match capFault e [kPOOL] permP with
    | some f => .raise cCAP f
    | none =>
      match (if code = 0x43 then capFault l [kLINK] permS else none) with
      | some f => .raise cCAP f
      | none =>
        if blockedAccess c then .hold c.blockKind
        else
          let s := s.useCap g a.toNat
          let s := if code = 0x43 then s.useCap g (x % 64) else s
          let id := (s.grp c.gi).nextOp
          let cat := g.spair b.toNat
          let i := (g.sreg (b.toNat + 2)).toNat
          submit c s d.toNat (.page code (capIdx e) cat i x (capIdx l)) fun s n =>
            s.submitPage c.gi d.toNat id code (capIdx e) cat i x (capIdx l) n

/-- `PGREF` (R402). -/
def execPgref (h : Hdr) (d a b : BitVec 6) (s : State) : Out := .next (pageWord 0x42 h d a b s)

/-- `PGCOW` (R403). -/
def execPgcow (h : Hdr) (d a b : BitVec 6) (s : State) : Out := .next (pageWord 0x41 h d a b s)

/-- `PGMOVE` (R404). -/
def execPgmove (h : Hdr) (d a b : BitVec 6) (s : State) : Out := .next (pageWord 0x40 h d a b s)

/-- `PGPIN` (R405). -/
def execPgpin (h : Hdr) (d a b : BitVec 6) (s : State) : Out := .next (pageWord 0x44 h d a b s)

/-- `PGHAND` (R406). -/
def execPghand (h : Hdr) (d a b : BitVec 6) (s : State) : Out := .next (pageWord 0x43 h d a b s)

/-- The value that `catld` returns (R407): the stored entry with TIER, NF and ST filled in. -/
def catValue (e : Nat) (r : PRec) (st : Nat) : Nat :=
  ePage e * 2 ^ 40 + r.tier * 2 ^ 37 + eDom e * 2 ^ 36 + eNtok e * 2 ^ 29
    + (if r.tier = 0 then r.slot % 2 ^ 20 * 2 ^ 9 else 0) + st * 2 + e % 2

/-- The status of an entry without a copy (R407). -/
def catSt (e : Nat) (r : PRec) (app : Bool) : Nat :=
  if !eValid e then 2 else if r.st = pPoisoned then 4 else if app && !r.near then 3 else 0

/-- The registers of `catld` and `catst`. -/
def specCatld (h : Hdr) (d b : BitVec 6) : WordSpec :=
  { h := h, pipe := .x, sr := runOf b.toNat 4, sw := pairOf d, cnt := some .ld, side := true }
def specCatst (h : Hdr) (d b : BitVec 6) : WordSpec :=
  { h := h, pipe := .x, sr := runOf b.toNat 4 ++ pairOf d, cnt := some .st, side := true }

/-- A `catld` that fails: its lanes return to it (R394, R407). -/
def State.catFail (s : State) (c : Wctx) (f : Nat × Nat × Nat) : State :=
  s.deferAll c.gi c.pc c.hm true ((lanesOf c.lanes).map fun l => (l.val, f.1, f.2.1, BitVec.ofNat 64 f.2.2))

/-- A `catld` whose value is known. -/
def State.catDone (s : State) (c : Wctx) (d v : Nat) : State :=
  s.start c .ld 0 (.regs [d, d + 1] [BitVec.ofNat 32 v, BitVec.ofNat 32 (v / 2 ^ 32)]) [] [d, d + 1]

/-- `CATLD` (R407). A record that cannot be accessed leaves ALLOW too as it was (R394). -/
def execCatld (h : Hdr) (d a b : BitVec 6) (s : State) : Out :=
  .next (word (specCatld h d b) s fun c s0 =>
    let g := c.snap
    let e0 := s0.cap g a.toNat
    let pi := capIdx e0
    let u := s0.whoOf g
    let cx := s0.ctxOf g
    let cat := (g.spair b.toNat).toNat
    let i := (g.sreg (b.toNat + 2)).toNat
    let x := (g.sreg (b.toNat + 3)).toNat
    match capFault e0 [kPOOL] permP with
    | some f => .raise cCAP f
    | none =>
      if blockedAccess c then .hold c.blockKind
      else
        let s := s0.useCap g a.toNat
        let fail := fun (s : State) (f : Nat × Nat × Nat) =>
          let id := (s.grp c.gi).nextOp
          if f.1 = cHOLD then Res.hold .side
          else Res.ok (((s.start c .ld 0 .posted [] [d.toNat, d.toNat + 1]).catFail c f).complete c.gi id)
        match (s.ctx cx).pool? pi with
        | none => .ok (s.catDone c d.toNat 2)
        | some p =>
          match s.catHdr u cat with
          | (s, .error f) => fail s f
          | (s, .ok hd) =>
            if cat % 64 ≠ 0 || hd.cmax ≤ i || hd.pool ≠ pi || 1 < x then .ok (s.catDone c d.toNat 2)
            else
              match s.catRead u cat i with
              | (s, .error f) => fail s f
              | (s, .ok e) =>
                if !eValid e then .ok (s.catDone c d.toNat (catValue e PRec.zero 2))
                else
                  match s.pageRec cx p (ePage e) with
                  | .error f => fail (s.giveCap g a.toNat) (f.1, f.2, p.recs + 16 * ePage e)
                  | .ok r =>
                    if catSt e r (x = 1) ≠ 0 || x = 0 then .ok (s.catDone c d.toNat (catValue e r (catSt e r (x = 1))))
                    else if s.earlierOp cx pi (ePage e) s.nextJob then .hold .side
                    else
                      let id := (s.grp c.gi).nextOp
                      match opCow s cx pi p cat i e none (some (c.gi, id)) with
                      | .done s => .ok (s.catDone c d.toNat (catValue e r 0))
                      | .busy s => .ok (s.start c .ld 0 (.catld d.toNat cx pi cat i a.toNat) [] [d.toNat, d.toNat + 1])
                      | .fail s st => .ok (s.catDone c d.toNat (catValue e r (if st = sNOSPACE then 5 else 3)))
                      | .fault s c1 c2 ad => fail (if p.inRecords ad then s.giveCap g a.toNat else s) (c1, c2, ad)
                      | _ => .hold .side)

/-- What `catst` refuses (R408). -/
def catstBad (p : Pool) (r : Option PRec) (e : Nat) : Bool :=
  (eValid e && (match r with | some r => r.st = pFree | none => true)) || 2 ^ p.l < eNtok e
    || (eDom e = 1 && (eNtok e < 2 ^ p.l || !p.haar))

/-- What a store of an entry does to its page (R395): reserved and filling pages advance. -/
def PRec.stored (r : PRec) (ntok full : Nat) : PRec :=
  let r := if r.st = pReserved && 1 ≤ ntok then { r with st := pFilling } else r
  if r.st = pFilling && ntok = full then { r with st := pResident, full := true } else r

/-- `CATST` (R408). A record that cannot be accessed leaves ALLOW too as it was (R394). -/
def execCatst (h : Hdr) (d a b : BitVec 6) (s : State) : Out :=
  .next (word (specCatst h d b) s fun c s0 =>
    let g := c.snap
    let e0 := s0.cap g a.toNat
    let pi := capIdx e0
    let u := s0.whoOf g
    let cx := s0.ctxOf g
    let cat := (g.spair b.toNat).toNat
    let i := (g.sreg (b.toNat + 2)).toNat
    let v := (g.spair d.toNat).toNat
    let e := mkEntry (ePage v) (eDom v) (eNtok v) (eValid v)
    match capFault e0 [kPOOL] permP with
    | some f => .raise cCAP f
    | none =>
      if blockedAccess c then .hold c.blockKind
      else
        let s := s0.useCap g a.toNat
        let fail := fun (s : State) (f : Nat × Nat × Nat) =>
          let id := (s.grp c.gi).nextOp
          if f.1 = cHOLD then Res.hold .side
          else Res.ok (((s.start c .st 0 .posted [] []).catFail c f).complete c.gi id)
        match (s.ctx cx).pool? pi with
        | none => fail s (cPROT, 0x0a, cat)
        | some p =>
          match s.catHdr u cat with
          | (s, .error f) => fail s f
          | (s, .ok hd) =>
            if cat % 64 ≠ 0 || hd.cmax ≤ i || hd.pool ≠ pi then fail s (cPROT, 0x0a, cat)
            else
              let r : Except (Nat × Nat) (Option PRec) :=
                if eValid e && ePage e < p.np then (match s.pageRec cx p (ePage e) with | .ok r => .ok (some r) | .error f => .error f)
                else .ok none
              match r with
              | .error f => fail (s.giveCap g a.toNat) (f.1, f.2, p.recs + 16 * ePage e)
              | .ok r =>
                if catstBad p r e then fail s (cPROT, 0x0b, catEntry cat i)
                else
                  match s.catWrite u cat i e (if eValid e then some (max hd.nv (i + 1)) else none) none with
                  | (_, some f) => fail s f
                  | (s, none) =>
                    let s := match r with
                      | some r => s.putRec cx p (ePage e) (r.stored (eNtok e) (2 ^ p.l))
                      | none => s
                    .ok (s.start c .st 0 .posted [] []))

end Sys2Proof.Machine
end

