-- ==== Sys2Proof/Machine/Engine.lean ====
section
/-! DEFINITION. The engines at work: one granule access of a job at a time (R194 to R197, R292, R293, R372, R400, R409 to R413), copies
of pages, page-ins and hand-offs. -/
namespace Sys2Proof.Machine

/-! ### Granules of a job -/

/-- A granule of the write region has been written: it counts, and the job's place moves on. -/
def State.wrote (s : State) (uid : Nat) : State :=
  s.onJob uid fun j => { j with granules := j.granules + 1, at_ := j.at_ + 1 }

/-- A granule written for a job, in one access that fills it (R195); one that goes to a port in training waits (R468). -/
def State.granule (s : State) (j : Job) (sp : Bool) (a : Nat) (bs : List Byte) : State :=
  if s.vaHeld (jobWho j sp) (spaceIf sp) a 16 then s else
  match s.store (jobWho j sp) (spaceIf sp) a bs (some true) with
  | (s, some f) => s.jobFault j.uid f.1 f.2 a
  | (s, none) => s.wrote j.uid

/-- The end of a job whose granules are all written. -/
def State.endAt (s : State) (uid total : Nat) : State :=
  match s.job? uid with
  | some j => if total ≤ j.at_ && !j.ended then s.jobEnd uid 0 else s
  | none => s

/-- Bytes that an engine reads, inside the read footprint of the job (R291): the cause 0x100 stands for a read outside it. -/
def rdMem (s : State) (j : Job) (r : Region) (a n : Nat) : Except (Nat × Nat × Nat) (List Byte) :=
  if r.base ≤ a && a + n ≤ r.base + r.len then (s.readVa (jobWho j r.sp) (spaceIf r.sp) a n .r).2
  else .error (0x100, 0, a / 16 * 16)

/-- The end that a read gives a job. -/
def State.readStop (s : State) (uid : Nat) (f : Nat × Nat × Nat) : State :=
  if f.1 = 0x100 then s.jobFoot uid f.2.2 else s.jobFault uid f.1 f.2.1 f.2.2

/-! ### COPY (R292) -/

/-- `mark`: no data. -/
def stepMark (s : State) (j : Job) : State := s.jobEnd j.uid 0

/-- `copy`: the next granule. -/
def stepCopy (s : State) (j : Job) : State :=
  let r := regionAt j.rd 0
  let w := regionAt j.wr 0
  match s.fetch (jobWho j r.sp) (spaceIf r.sp) (r.base + 16 * j.at_) 16 .r with
  | (s, .error f) => s.jobFault j.uid f.1 f.2 (r.base + 16 * j.at_)
  | (s, .ok bs) => (s.granule j w.sp (w.base + 16 * j.at_) bs).endAt j.uid (w.len / 16)

/-- `fill`: the next granule is P0, P1. -/
def stepFill (s : State) (j : Job) : State :=
  let w := regionAt j.wr 0
  (s.granule j w.sp (w.base + 16 * j.at_) ((j.card.drop 16).take 16)).endAt j.uid (w.len / 16)

/-! ### Counted elements (R293) -/

/-- Elements counted in order until one would exceed the threshold: the counts, the elements kept, whether one failed. -/
def countElems (en : Bool) (t : Nat) : Word → List Conv → Word × List Conv × Bool
  | x, [] => (x, [], false)
  | x, e :: es =>
    if en && (overT x (tally [e]) t).isSome then (x, [], true)
    else let r := countElems en t (addTally x [e]) es; (r.1, e :: r.2.1, r.2.2)

/-- The next granule of converted elements: `elem k` is element k of `total`, each of `w` bits. The granule keeps the bits that no
element gives it. An element that would exceed the threshold ends the job. -/
def stepElems (s : State) (j : Job) (w total : Nat) (elem : Nat → Conv) : State :=
  let i := j.at_
  let r := regionAt j.wr 0
  let a := r.base + 16 * i
  let p := 128 * i / w
  let e0 := (128 * i + w - 1) / w
  let e1 := min total ((128 * (i + 1) + w - 1) / w)
  let cth := cardCth j.card
  let c := countElems (fld cth 10 10 = 1) (fld cth 9 0) j.counts ((List.range (e1 - e0)).map fun k => elem (e0 + k))
  let f := e0 + c.2.1.length
  let codes := (if p < e0 then [(elem p).code] else []) ++ c.2.1.map Conv.code
  let big := codes.foldr (fun x acc => x % 2 ^ w + acc * 2 ^ w) 0 / 2 ^ (128 * i - w * p)
  let hi := min 128 (f * w - 128 * i)
  let u := jobWho j r.sp
  let stop := fun (s : State) => if c.2.2 then s.jobEnd j.uid 6 else s.endAt j.uid (r.len / 16)
  let s := s.onJob j.uid fun j => { j with counts := c.1 }
  if hi = 0 then (if c.2.2 then s.jobEnd j.uid 6 else (s.wrote j.uid).endAt j.uid (r.len / 16))
  else
    match s.locate u { space := spaceIf r.sp, bytes := 16, acc := .w } (BitVec.ofNat 64 a) with
    | (s, .error e) => (s.onJob j.uid fun x => { x with counts := j.counts }).jobFault j.uid e.1 e.2 a
    | (s, .ok loc) =>
      match s.heldFault u loc 16 with
      | some e => (s.onJob j.uid fun x => { x with counts := j.counts }).jobFault j.uid e.1 e.2 a
      | none =>
        let old := s.readLoc loc 16
        let n := big % 2 ^ hi + ofBytes old.2 / 2 ^ hi * 2 ^ hi
        stop (((old.1.writeLoc loc (toBytes 16 n)).setFe loc true).wrote j.uid)

/-- `conv` (R292, R293). -/
def stepConv (s : State) (j : Job) : State :=
  let p0 := cardP0 j.card
  let src := convType (p0 % 16)
  let dst := convType (p0 / 16 % 16)
  let ovp := fld (cardCth j.card) 11 11 = 1
  let total := convCount j.card
  let w := dst.width
  let r := regionAt j.rd 0
  let first := 128 * j.at_ / w
  let last := min total ((128 * (j.at_ + 1) + w - 1) / w)
  let lo := first * src.width / 8
  let hi := (last * src.width + 7) / 8
  if last ≤ first then stepElems s j w total fun _ => ⟨0, 0, 0, 0, 0⟩
  else
    match rdMem s j r (r.base + lo) (hi - lo) with
    | .error f => s.readStop j.uid f
    | .ok bs =>
      let bits := ofBytes bs
      stepElems s j w total fun k =>
        let code := bits / 2 ^ (k * src.width - 8 * lo) % 2 ^ src.width
        let how : Rounder := if fld p0 10 10 = 1 then .dither (ditherOff k (fld p0 13 11)) else .mode (Rm.of (BitVec.ofNat 2 (fld p0 9 8)))
        conv dst how (ovp && !widens src dst) false (src.val code)

/-! ### COLL (R292) -/

/-- Rank, size, identifier and root of a collective card. -/
def collRank (card : List Byte) : Nat := fld (cardP1 card) 15 0
def collSize (card : List Byte) : Nat := fld (cardP1 card) 31 16

/-- What a participant's data is of: the operation, the identifier, the rank (R292). -/
def collName (j : Job) : List Nat := [cardOp j.card, cardP0 j.card, collRank j.card]

/-- Where a peer takes a participant's data: an address that the peer's own card gives (R458; log entry 83). -/
def collAddr (j : Job) (p : Peer) : Dword := Config.remoteAddr (p.paddr :: p.rctx :: collName j)

/-- The contributions to a job's collective. -/
def State.parts (s : State) (j : Job) : List Coll :=
  s.colls.filter fun c => c.ctx = j.ctx && c.fn = cardOp j.card && c.id = cardP0 j.card

/-- The bytes that a rank has contributed: here in one piece, from another device granule by granule, once all are there. -/
def partOf (ps : List Coll) (rank : Nat) : Option (List Byte) :=
  let mine := ps.filter fun c => c.rank = rank
  match mine.find? fun c => c.job.isSome with
  | some c => some c.data
  | none => match mine with
    | [] => none
    | c :: _ => ((List.range ((c.total + 15) / 16)).mapM fun i => (mine.find? fun x => x.off = 16 * i).map Coll.data).map List.flatten

/-- A participant has bytes to give: every one of `reduce` and `allgather`, of `bcast` the root (R292). -/
def Job.gives (j : Job) : Bool := j.rd ≠ [] && (cardOp j.card ≠ 0x22 || collRank j.card = fld (cardP1 j.card) 63 48)

/-- A participant contributes: its read region, to the participants here and, through its LINK entry, to those on other devices.
Contributions left from an ended collective of the same name are gone first. DESIGN CHOICE (log entry 64): a LINK entry that fails R285 for
S names no participants on other devices, and the entry's ALLOW counts no use. -/
def State.contribute (s : State) (j : Job) : State :=
  let r := regionAt j.rd 0
  match (if j.gives then rdMem s j r r.base r.len else Except.ok []) with
  | .error f => s.readStop j.uid f
  | .ok bs =>
    let live := fun (c : Coll) => match c.job with
      | some u => (match s.job? u with | some x => !x.ended | none => false)
      | none => !((s.parts j).any fun (d : Coll) => d.rank = collRank j.card)
    let stale := (s.parts j).any fun c => c.rank = collRank j.card
    let keep := s.colls.filter fun c =>
      !(stale && c.ctx = j.ctx && c.fn = cardOp j.card && c.id = cardP0 j.card && !live c)
    let s := { s with colls := keep ++ [({ ctx := j.ctx, fn := cardOp j.card, id := cardP0 j.card, rank := collRank j.card, data := bs,
                                            job := some j.uid } : Coll)] }
    let s := s.onJob j.uid fun j => { j with busy := true }
    let e := match s.teams[j.team]? with | some t => t.caps.getD (fld (cardP1 j.card) 37 32) 0 | none => 0
    if (capFault e [kLINK] permS).isSome || !j.gives then s
    else
      match s.transfer j.ctx (capIdx e) (.coll j.uid) (collAddr j) bs none (collName j) with
      | (s, true) => s
      | (s, false) => s.jobEnd j.uid sPEER

/-- Every rank of a collective has contributed. -/
def allIn (ps : List Coll) (size : Nat) : Bool := (List.range size).all fun q => (partOf ps q).isSome

/-- `reduce`: element k of the sum (R78, R81). -/
def reduceElem (j : Job) (ps : List Coll) (k : Nat) : Conv :=
  let p1 := cardP1 j.card
  let A := sx 9 (fld p1 56 48)
  let ovp := fld (cardCth j.card) 11 11 = 1
  let cell := (List.range (collSize j.card)).foldl (fun c q =>
    anchorAdd A c (Fmt.f32.val (ofBytes ((((partOf ps q).getD []).drop (4 * k)).take 4)))) Cell96.zero
  let one := Fmt.bf16.val 0x3f80
  let v := cellOut A cell.n one one
  let r := conv (.flt .f32) (.mode .rne) ovp v.2 v.1
  if cell.inv then { r with flags := r.flags ||| fNV, nan := if ovp then 1 else r.nan } else r

/-- `reduce` (R292): contribute, then the next granule once every participant has. -/
def stepReduce (s : State) (j : Job) : State :=
  let ps := s.parts j
  if !j.busy then s.contribute j
  else if !allIn ps (collSize j.card) then s
  else stepElems s j 32 ((regionAt j.wr 0).len / 4) (reduceElem j ps)

/-- `allgather` (R292). -/
def stepAllgather (s : State) (j : Job) : State :=
  let ps := s.parts j
  let w := regionAt j.wr 0
  let n := (regionAt j.rd 0).len
  if !j.busy then s.contribute j
  else if !allIn ps (collSize j.card) then s
  else
    let o := 16 * j.at_
    let bs := (((partOf ps (o / n)).getD []).drop (o % n)).take 16
    (s.granule j w.sp (w.base + o) bs).endAt j.uid (w.len / 16)

/-- `bcast` (R292): the root's region. DESIGN CHOICE (log entry 91): a write region that is longer is done when the root's bytes are written,
and keeps its other bytes. -/
def stepBcast (s : State) (j : Job) : State :=
  let w := regionAt j.wr 0
  if !j.busy then s.contribute j
  else
    match partOf (s.parts j) (fld (cardP1 j.card) 63 48) with
    | none => s
    | some bs =>
      let o := 16 * j.at_
      if bs.length ≤ o then s.jobEnd j.uid 0
      else if w.len ≤ o then s.jobFoot j.uid (w.base + o)
      else (s.granule j w.sp (w.base + o) ((bs.drop o).take 16)).endAt j.uid (bs.length / 16)

/-! ### CONC suffix (R292, R372) -/

/-- A number read from an automaton. -/
def rdNum (s : State) (j : Job) (a n : Nat) : Except (Nat × Nat × Nat) Nat :=
  match rdMem s j (regionAt j.rd 0) a n with | .ok bs => .ok (ofBytes bs) | .error f => .error f

/-- An automaton: its address, states, transitions and tables. -/
structure Auto where
  at_ : Nat
  ns : Nat
  ntr : Nat
  soff : Nat
  toff : Nat
  deriving DecidableEq, Repr

/-- What is wrong with an index: it ends the job with ARG (cause 0x101). -/
def badIndex : Except (Nat × Nat × Nat) α := .error (0x101, 0, 0)

/-- The transitions of a state: token and target. -/
def Auto.trans (m : Auto) (s : State) (j : Job) (q : Nat) : Except (Nat × Nat × Nat) (List (Nat × Nat)) :=
  if m.ns ≤ q then badIndex
  else do
    let lo ← rdNum s j (m.at_ + m.soff + 16 * q + 12) 4
    let hi ← rdNum s j (m.at_ + m.soff + 16 * (q + 1) + 12) 4
    if hi < lo || m.ntr < hi then badIndex
    else (List.range (hi - lo)).mapM fun k => do
      let t ← rdNum s j (m.at_ + m.toff + 8 * (lo + k)) 4
      let g ← rdNum s j (m.at_ + m.toff + 8 * (lo + k) + 4) 4
      if m.ns ≤ g then badIndex else pure (t, g)

/-- The suffix link of a state. -/
def Auto.link (m : Auto) (s : State) (j : Job) (q : Nat) : Except (Nat × Nat × Nat) Nat := do
  let l ← rdNum s j (m.at_ + m.soff + 16 * q) 4
  if m.ns ≤ l then badIndex else pure l

/-- One query token (R372): the transition, or the suffix links until one exists or the root is reached. -/
def Auto.match_ (m : Auto) (s : State) (j : Job) (tok : Nat) : Nat → Nat → Except (Nat × Nat × Nat) Nat
  | 0, _ => badIndex
  | n + 1, q => do
    let ts ← m.trans s j q
    match ts.find? fun t => t.1 = tok with
    | some t => pure t.2
    | none => if q = 0 then pure 0 else do
      let l ← m.link s j q
      m.match_ s j tok n l

/-- The suffix links from a state while it has no transition. -/
def Auto.climb (m : Auto) (s : State) (j : Job) : Nat → Nat → Except (Nat × Nat × Nat) Nat
  | 0, _ => badIndex
  | n + 1, q => do
    let ts ← m.trans s j q
    if ts ≠ [] || q = 0 then pure q else do
      let l ← m.link s j q
      m.climb s j n l

/-- The pairs that a lookup finds: token and count, ranked. -/
def suffixPairs (s : State) (j : Job) : Except (Nat × Nat × Nat) (List (Nat × Nat)) := do
  let a := cardB j.card 0 8
  let ns ← rdNum s j a 4
  let ntr ← rdNum s j (a + 4) 4
  let soff ← rdNum s j (a + 8) 8
  let toff ← rdNum s j (a + 16) 8
  let m : Auto := ⟨a, ns, ntr, soff, toff⟩
  let toks := (List.range (cardB j.card 8 1)).map fun k => cardB j.card (16 + 4 * k) 4
  let q ← toks.foldlM (fun q t => m.match_ s j t (ns + 1) q) 0
  let q ← m.climb s j (ns + 1) q
  if q = 0 then pure []
  else do
    let ts ← m.trans s j q
    let cs ← ts.mapM fun t => do
      let c ← rdNum s j (m.at_ + m.soff + 16 * t.2 + 8) 4
      pure (t.1, c)
    pure ((sortLe (fun x y => decide (y.2 < x.2 ∨ (x.2 = y.2 ∧ x.1 ≤ y.1))) cs).take 8)

/-- `suffix`: the lookup, then its result granule by granule, zero to the region's end. -/
def stepSuffix (s : State) (j : Job) : State :=
  let w := regionAt j.wr 0
  if !j.busy then
    match suffixPairs s j with
    | .error f => if f.1 = 0x101 then s.jobEnd j.uid sARG else s.readStop j.uid f
    | .ok ps =>
      let bs := toBytes 4 ps.length ++ toBytes 4 0 ++ ps.flatMap fun p => toBytes 4 p.1 ++ toBytes 4 p.2
      s.onJob j.uid fun j => { j with busy := true, data := bs }
  else
    let o := 16 * j.at_
    let bs := (j.data.drop o).take 16
    (s.granule j w.sp (w.base + o) (bs ++ List.replicate (16 - bs.length) 0)).endAt j.uid (w.len / 16)

/-! ### Gathers (R409 to R413) -/

/-- Parts, heads, granules of a slot and of an image of a gather card. -/
def gParts (card : List Byte) : List Nat :=
  match cardB card 28 1 with | 0 => [0, 1] | 1 => [0] | _ => [1]
def gHeads (card : List Byte) (p : Pool) : Nat :=
  if cardB card 26 2 = 0 then p.heads - cardB card 24 2 else cardB card 26 2
def gImage (card : List Byte) (p : Pool) : Nat := (gParts card).length * gHeads card p * p.slices * p.sz

/-- The offset in a frame of granule k of an image (R393, R409). -/
def gOffset (card : List Byte) (p : Pool) (k : Nat) : Nat :=
  let per := p.sz / 16
  let t := k / per
  let nh := gHeads card p
  let part := (gParts card).getD (t / (nh * p.slices)) 0
  let h := cardB card 24 2 + t / p.slices % nh
  ((part * p.heads + h) * p.slices + t % p.slices) * p.sz + k % per * 16

/-- The pool of a gather. -/
def Job.gpool (s : State) (j : Job) : Option (Nat × Pool) :=
  match (regionAt j.rd 0).pool with
  | none => none
  | some pi => ((s.ctx j.ctx).pool? pi).map fun p => (pi, p)

/-- A tier miss, or a page that a hand-off is still to fill (R411). -/
def PRec.missing (r : PRec) : Bool := r.outer || r.st = pBorrowed

/-- The images of a gather, from the catalogue and the block-index table (R410). -/
def gatherImages (s : State) (j : Job) (pi : Nat) (p : Pool) : Except (Nat × Nat × Nat) (List Image) := do
  let r := regionAt j.rd 1
  let cat := cardB j.card 0 8
  let i0 := cardB j.card 8 4
  let bit := cardB j.card 16 8
  let h ← rdMem s j r cat 16
  if ofBytes ((h.drop 8).take 1) ≠ pi then .error (0x101, 0, 0)
  else (List.range (cardB j.card 12 4)).mapM fun k => do
    let e ← (if bit = 0 then pure (i0 + k) else do
      let b ← rdMem s j r (bit + 4 * (i0 + k)) 4
      pure (ofBytes b))
    if bit ≠ 0 && e = 0xffffffff then pure ⟨none, false, false, 0, 0⟩
    else if ofBytes ((h.drop 4).take 4) ≤ e then .error (0x101, 0, 0)
    else do
      let w ← rdMem s j r (catEntry cat e) 8
      let n := ePage (ofBytes w)
      if !eValid (ofBytes w) || p.np ≤ n then .error (0x101, 0, 0)
      else
        match s.pageRec j.ctx p n with
        | .error f => .error (f.1, f.2, p.recs + 16 * n)
        | .ok q =>
          if q.st = pFree then .error (0x101, 0, 0)
          else if q.st = pPoisoned then .error (cMACHINE, 1, p.recs + 16 * n)
          else pure ⟨some n, q.missing, q.st = pBorrowed, 0, 0⟩

/-- A sequence that a deferred miss stalls (R351, R412): its place in the table. -/
def seqAt (s : State) (c h : Nat) : Option Seq :=
  s.seqs.find? fun q => q.ctx = c && q.slot = h % 2 ^ 14 && q.gen = h / 2 ^ 14

/-- State byte of a record. -/
def Seq.st (q : Seq) : Nat := fld (q.w[3]).toNat 15 8
def Seq.setSt (q : Seq) (n : Nat) : Seq := { q with w := q.w.set 3 (BitVec.ofNat 32 (setFld (q.w[3]).toNat 15 8 n)) }

/-- Active states (R350). -/
def Seq.active (q : Seq) : Bool := 1 ≤ q.st && q.st ≤ 6

/-- A sequence changed in place. -/
def State.onSeq (s : State) (slot : Nat) (f : Seq → Seq) : State :=
  { s with seqs := s.seqs.map fun q => if q.slot = slot then f q else q }

/-- A deferred miss on a page stalls the gather's sequence. -/
def State.stallSeq (s : State) (c h pi n : Nat) : State :=
  match seqAt s c h with
  | none => s
  | some q =>
    if !q.active then s
    else s.onSeq q.slot fun q =>
      let q := { q with owed := addOnce q.owed (pi, n) }
      if q.st = 5 then q else { q with prev := q.st :: q.prev }.setSt 5

/-- An image changed in place. -/
def Job.onImage (j : Job) (k : Nat) (f : Image → Image) : Job := { j with imgs := updAt j.imgs k f }

/-- The read pin of a job on a page: taken when its record is read, dropped with the last image that reads it (R413). -/
def State.pinFor (s : State) (j : Job) (pi n : Nat) : State := { s with pins := addOnce s.pins ⟨j.ctx, pi, n, some j.uid⟩ }
def State.unpinFor (s : State) (uid pi n per : Nat) : State :=
  match s.job? uid with
  | none => s
  | some j =>
    if j.imgs.any fun m => m.page = some n && m.done < per then s
    else
      let mine := fun (k : Pin) => k.who = some uid && k.pool = pi && k.page = n
      ({ s with pins := s.pins.filter fun k => !mine k }).pinsGone (s.pins.filter mine)

/-- Image k of a gather. -/
def Job.image (j : Job) (k : Nat) : Image := j.imgs.getD k ⟨none, false, false, 0, 0⟩

/-- A gather at its start: it reads its entries and the records of their pages, and pins them (R409, R410, R413). -/
def gatherStart (s : State) (j : Job) (pi : Nat) (p : Pool) : State :=
  if p.heads < cardB j.card 24 2 + gHeads j.card p || gHeads j.card p = 0
      || (regionAt j.wr 0).len ≠ cardB j.card 12 4 * gImage j.card p then s.jobEnd j.uid sARG
  else
    match gatherImages s j pi p with
    | .error f => if f.1 = 0x101 then s.jobEnd j.uid sARG else s.readStop j.uid f
    | .ok ms =>
      let s := s.onJob j.uid fun j => { j with imgs := ms }
      ms.foldl (fun s m => match m.page with | some x => s.pinFor j pi x | none => s) s

/-- A granule of a missed image emptied. -/
def gatherEmpty (s : State) (j : Job) (w : Region) (a k : Nat) : State :=
  let u := jobWho j w.sp
  match s.locate u { space := spaceIf w.sp, bytes := 16, acc := .w } (BitVec.ofNat 64 a) with
  | (s, .error f) => s.jobFault j.uid f.1 f.2 a
  | (s, .ok loc) =>
    match s.heldFault u loc 16 with
    | some f => s.jobFault j.uid f.1 f.2 a
    | none => (s.setFe loc false).onJob j.uid fun j => j.onImage k fun m => { m with emptied := m.emptied + 1 }

/-- A missed page is asked for where it is still out; a deferred miss stalls the sequence for as long as the request stands (R411, R412). -/
def gatherAsk (s : State) (j : Job) (pi : Nat) (p : Pool) (k : Nat) : State :=
  let x := (j.image k).page.getD 0
  match s.pageRec j.ctx p x with
  | .error f => s.jobFault j.uid f.1 f.2 (p.recs + 16 * x)
  | .ok r =>
    let s := s.onJob j.uid fun j => j.onImage k fun m => { m with asked := true }
    if !r.outer then s
    else
      let s := s.askPageIn j.ctx pi x
      if cardB j.card 29 1 % 2 = 1 && s.pageIns.contains (j.ctx, pi, x) then s.stallSeq j.ctx (cardB j.card 32 4) pi x else s

/-- The next granule of an image whose page is near: read, and written in one access that fills it. An uncorrectable error in the page
poisons it (R395). -/
def gatherCopy (s : State) (j : Job) (pi : Nat) (p : Pool) (w : Region) (a k x slot : Nat) : State :=
  let src := p.frame 0 slot + gOffset j.card p (j.image k).done
  match s.fetch (jobWho j false) .gl src 16 .r with
  | (s, .error f) =>
    let s := if f.1 = cMACHINE && f.2 = 1 then s.poisonPage j.ctx pi p x (f.1, f.2, src) else s
    s.jobFault j.uid f.1 f.2 src
  | (s, .ok bs) =>
    if s.vaHeld (jobWho j w.sp) (spaceIf w.sp) a 16 then s else
    match s.store (jobWho j w.sp) (spaceIf w.sp) a bs (some true) with
    | (s, some f) => s.jobFault j.uid f.1 f.2 a
    | (s, none) =>
      let s := (s.wrote j.uid).onJob j.uid fun j => j.onImage k fun m => { m with done := m.done + 1 }
      s.unpinFor j.uid pi x (gImage j.card p / 16)

/-- Images of a gather that are still to be filled, and that it waits for. -/
def Job.unfilled (j : Job) (n : Nat) : List Nat :=
  let defer := cardB j.card 29 1 % 2 = 1
  (List.range j.imgs.length).filter fun k =>
    (j.image k).page.isSome && (j.image k).done < n && !((j.image k).miss && defer)

/-- What a gather does next: the granule of a missed image that it empties, the missed image whose page it asks for, the image that it
fills with its near page's slot, a failed record, or nothing. -/
inductive GNext where
  | empty (k : Nat)
  | ask (k : Nat)
  | fill (k x slot : Nat)
  | poisoned (k : Nat)
  | fault (f : Nat × Nat × Nat)
  | done
  | wait

/-- What a gather does next (R411). -/
def gatherNext (s : State) (j : Job) (p : Pool) (n : Nat) : GNext :=
  let ix := List.range j.imgs.length
  match ix.find? fun k => (j.image k).miss && (j.image k).emptied < n with
  | some k => .empty k
  | none =>
    match ix.find? fun k => (j.image k).miss && !(j.image k).asked with
    | some k => .ask k
    | none =>
      match j.unfilled n with
      | [] => .done
      | todo =>
        let recs := todo.map fun k => (k, (j.image k).page.getD 0, s.pageRec j.ctx p ((j.image k).page.getD 0))
        match recs.findSome? fun (x : Nat × Nat × Except (Nat × Nat) PRec) => match x.2.2 with
            | .error f => some (f.1, f.2, p.recs + 16 * x.2.1)
            | .ok _ => none with
        | some f => .fault f
        | none =>
          let of := fun (t : PRec → Bool) => recs.findSome? fun (x : Nat × Nat × Except (Nat × Nat) PRec) => match x.2.2 with
            | .ok r => if t r then some (x.1, x.2.1, r.slot) else none
            | .error _ => none
          match of fun r => r.st = pPoisoned with
          | some y => .poisoned y.1
          | none =>
            match of fun r => r.near && r.st ≠ pBorrowed with
            | some y => .fill y.1 y.2.1 y.2.2
            | none =>
              match recs.find? fun x => (match x.2.2 with | .ok r => r.outer | .error _ => false) with
              | some x => .ask x.1
              | none => .wait

/-- The address in the write region of granule m of image k. -/
def gatherDst (j : Job) (p : Pool) (k m : Nat) : Nat := (regionAt j.wr 0).base + k * gImage j.card p + 16 * m

/-- One step of a gather: reading its entries; emptying the granules of missed images; asking for their pages; then the next granule
of an image whose page is near. -/
def stepGather (s : State) (j : Job) : State :=
  match j.gpool s with
  | none => s.jobEnd j.uid sARG
  | some (pi, p) =>
    let w := regionAt j.wr 0
    if j.imgs = [] then gatherStart s j pi p
    else
      match gatherNext s j p (gImage j.card p / 16) with
      | .empty k => gatherEmpty s j w (gatherDst j p k (j.image k).emptied) k
      | .ask k => if s.pageIns.contains (j.ctx, pi, (j.image k).page.getD 0) && (j.image k).asked then s else gatherAsk s j pi p k
      | .fill k x slot => gatherCopy s j pi p w (gatherDst j p k (j.image k).done) k x slot
      | .poisoned k => s.jobFault j.uid cMACHINE 1 (gatherDst j p k 0)
      | .fault f => s.jobFault j.uid f.1 f.2.1 f.2.2
      | .done => s.jobEnd j.uid 0
      | .wait => s

/-! ### Steps by operation -/

/-- The address of a job's next destination granule, if it has one to write now: a gather's is that of the granule that it empties or
fills next. -/
def State.nextDst (s : State) (j : Job) : Option Nat :=
  if 0x40 ≤ cardOp j.card || j.wr = [] then none
  else if cardOp j.card = 0x10 && j.imgs ≠ [] then
    (j.gpool s).bind fun x =>
      match gatherNext s j x.2 (gImage j.card x.2 / 16) with
      | .empty k => some (gatherDst j x.2 k (j.image k).emptied)
      | .fill k _ _ => some (gatherDst j x.2 k (j.image k).done)
      | _ => none
  else some ((regionAt j.wr 0).base + 16 * j.at_)

/-- A save, once its teams have parked (R446), stops a running job at the next 4 KiB boundary of its destination, or where it has nothing
to write (R294). -/
def State.saveStop (s : State) (j : Job) : Bool :=
  (s.ctx j.ctx).st = .saving && s.teamsOff j.ctx && (match s.nextDst j with | some a => a % 4096 = 0 | none => true)

/-- One step of a running job by one of the operations `ops`. -/
def State.jobStep (s : State) (uid : Nat) (ops : List Nat) (f : State → Job → State) : State :=
  match s.job? uid with
  | none => s
  | some j =>
    if j.st ≠ .running || j.saved || !ops.contains (cardOp j.card) then s
    else if s.saveStop j then s.onJob uid fun j => { j with st := .suspended, saved := true }
    else f s j

/-- The step of an operation. -/
def engineStep (s : State) (j : Job) : State :=
  let op := cardOp j.card
  if op = 0x00 then stepMark s j
  else if op = 0x01 then stepCopy s j
  else if op = 0x02 then stepFill s j
  else if op = 0x03 then stepConv s j
  else if op = 0x10 then stepGather s j
  else if op = 0x20 then stepReduce s j
  else if op = 0x21 then stepAllgather s j
  else if op = 0x22 then stepBcast s j
  else if op = 0x30 then stepSuffix s j
  else s.pageStep j.uid

/-- `JOB_GRANULE_ACCESS` (R195): an engine makes the next access of a running job. -/
def execJobGranuleAccess (uid : Nat) (s : State) : Out :=
  .next (match s.job? uid with
    | some j => s.jobStep uid [cardOp j.card] engineStep
    | none => s)

/-- `JOB_MARK` (R292). -/
def execJobMark (uid : Nat) (s : State) : Out := .next (s.jobStep uid [0x00] stepMark)

/-- `JOB_COPY` (R292). -/
def execJobCopy (uid : Nat) (s : State) : Out := .next (s.jobStep uid [0x01] stepCopy)

/-- `JOB_FILL` (R292). -/
def execJobFill (uid : Nat) (s : State) : Out := .next (s.jobStep uid [0x02] stepFill)

/-- `JOB_CONV` (R292, R293). -/
def execJobConv (uid : Nat) (s : State) : Out := .next (s.jobStep uid [0x03] stepConv)

/-- `JOB_GATHER` (R409 to R412). -/
def execJobGather (uid : Nat) (s : State) : Out := .next (s.jobStep uid [0x10] stepGather)

/-- `JOB_REDUCE` (R292, R293). -/
def execJobReduce (uid : Nat) (s : State) : Out := .next (s.jobStep uid [0x20] stepReduce)

/-- `JOB_ALLGATHER` (R292). -/
def execJobAllgather (uid : Nat) (s : State) : Out := .next (s.jobStep uid [0x21] stepAllgather)

/-- `JOB_BCAST` (R292). -/
def execJobBcast (uid : Nat) (s : State) : Out := .next (s.jobStep uid [0x22] stepBcast)

/-- `JOB_SUFFIX` (R372). -/
def execJobSuffix (uid : Nat) (s : State) : Out := .next (s.jobStep uid [0x30] stepSuffix)

/-- `JOB_PGMOVE_CARD` (R400, R404). -/
def execJobPgmoveCard (uid : Nat) (s : State) : Out := .next (s.jobStep uid [0x40] fun s j => s.pageStep j.uid)

/-- `JOB_PGCOW_CARD` (R400, R403). -/
def execJobPgcowCard (uid : Nat) (s : State) : Out := .next (s.jobStep uid [0x41] fun s j => s.pageStep j.uid)

/-- `JOB_PGREF_CARD` (R400, R402). -/
def execJobPgrefCard (uid : Nat) (s : State) : Out := .next (s.jobStep uid [0x42] fun s j => s.pageStep j.uid)

/-- `JOB_PGHAND_CARD` (R400, R406). -/
def execJobPghandCard (uid : Nat) (s : State) : Out := .next (s.jobStep uid [0x43] fun s j => s.pageStep j.uid)

/-! ### Copies of pages (R395, R403, R404) -/

/-- One granule of a page copied with its full-empty bit (R404). -/
def State.copyGranule (s : State) (u : Who) (src dst : Nat) : State × Option (Nat × Nat × Nat) :=
  match s.locate u { space := .gl, bytes := 16, acc := .r } (BitVec.ofNat 64 src) with
  | (s, .error f) => (s, some (f.1, f.2, src))
  | (s, .ok l1) =>
    match s.locate u { space := .gl, bytes := 16, acc := .w } (BitVec.ofNat 64 dst) with
    | (s, .error f) => (s, some (f.1, f.2, dst))
    | (s, .ok l2) =>
      match s.heldFault u l1 16, s.heldFault u l2 16 with
      | some f, _ => (s, some (f.1, f.2, src))
      | _, some f => (s, some (f.1, f.2, dst))
      | none, none =>
        let r := s.readLoc l1 16
        ((r.1.writeLoc l2 r.2).setFe l2 (r.1.feAt l1), none)

/-- A page's bytes copied from granule `k` of `n` on: the granules copied, and the failure that stopped it. -/
def State.copyPage : Nat → State → Who → Nat → Nat → Nat → State × Nat × Option (Nat × Nat × Nat)
  | 0, s, _, _, _, k => (s, k, none)
  | n + 1, s, u, src, dst, k =>
    match s.copyGranule u (src + 16 * k) (dst + 16 * k) with
    | (s, some f) => (s, k, some f)
    | (s, none) => State.copyPage n s u src dst (k + 1)

/-- A copy that is abandoned: the page is as it was, and the target is free again. -/
def State.undoCopy (s : State) (p : Pool) (k : PageCopy) : State :=
  let s := s.dropCopy p k
  match k.why with
  | .cow _ => s.startPageIns
  | _ =>
    let s := s.onRec k.ctx p k.page fun r =>
      { r with st := if k.src.1 = 0 then byCount r.ref r.full else if k.src.1 = 1 then pFar else pPooled }
    (s.freeIfDue k.ctx k.pool p k.page).startPageIns

/-- The page whose bytes an address of a copy lies in: the page itself in the frame that it is read from, and in the one that it moves to;
the new page of a copy on write in its own frame. None for a record or the catalogue. -/
def PageCopy.pageAt (k : PageCopy) (p : Pool) (a : Nat) : Option Nat :=
  let inFrame := fun (x : Nat × Nat) => p.frame x.1 x.2 ≤ a && a < p.frame x.1 x.2 + p.pg
  if inFrame k.src then some k.page
  else if inFrame k.dst then (match k.why with | .cow q => some q | _ => some k.page)
  else none

/-- The `catld` that a copy is made for gives its use of the entry back: a record could not be accessed (R394). -/
def State.giveCatld (s : State) (k : PageCopy) : State :=
  match k.ld with
  | none => s
  | some (gi, id) =>
    match ((s.grp gi).op? id).map Op.kind with
    | some (.catld _ _ _ _ _ n) => s.giveCap (s.grp gi) n
    | _ => s

/-- A copy that fails. One that a port in training holds stands where it is (R468). PAGE keeps the copy of a job, or of a page-in, where it stopped, and suspends those it is made for (R388); an
uncorrectable error in a page's bytes poisons that page; any other failure ends the copy and what it was made for. -/
def State.copyFails (s : State) (p : Pool) (k : PageCopy) (f : Nat × Nat × Nat) : State :=
  if f.1 = cHOLD then s
  else if f.1 = cPAGE && k.ld.isNone then
    match k.job with
    | some _ => s.copyTold k f
    | none => ((s.waitersFor k).filter fun j => j.st = .running).foldl (fun s j => s.jobFault j.uid f.1 f.2.1 f.2.2) s
  else
    match if f.1 = cMACHINE && f.2.1 = 1 then k.pageAt p f.2.2 else none with
    | some n => s.poisonPage k.ctx k.pool p n f
    | none =>
    let s := if p.inRecords f.2.2 then s.giveCatld k else s
    let t := { (s.undoCopy p k) with pageIns := s.pageIns.filter fun x => x != (k.ctx, k.pool, k.page) }
    (t.pageCame k.ctx k.pool k.page).copyTold k f

/-- Whose access rewrites the entry of a copy on write: the group of a `catld` (R321), else the page engine. -/
def State.cowWho (s : State) (k : PageCopy) : Who :=
  match k.ld with | some (gi, _) => s.whoOf (s.grp gi) | none => agent k.ctx

/-- What the write of the entry leaves in its granule (R166, R195). -/
def State.cowFe (s : State) (k : PageCopy) : Option Bool := (k.job.bind s.job?).bind Job.fe

/-- A record that the end of a copy needs and cannot be read (R394). -/
def State.copyRecFault (s : State) (p : Pool) (k : PageCopy) : Option (Nat × Nat × Nat) :=
  (k.page :: (match k.why with | .cow q => [q] | _ => [])).findSome? fun n => match s.pageRec k.ctx p n with
    | .error f => some (f.1, f.2, p.recs + 16 * n)
    | .ok _ => none

/-- A copy on write is done: the entry names the new page (R403). -/
def State.cowDone (s : State) (p : Pool) (k : PageCopy) (q : Nat) : State × Option (Nat × Nat × Nat) :=
  let u := s.cowWho k
  match s.catRead u k.cat k.ix with
  | (s, .error f) => (s, some f)
  | (s, .ok e) =>
    match s.catWrite u k.cat k.ix (mkEntry q (eDom e) (eNtok e) true) none (s.cowFe k) with
    | (s, some f) => (s, some f)
    | (s, none) =>
      let r := s.recD k.ctx p k.page
      let s := s.onRec k.ctx p q fun x => { x with st := byCount x.ref r.full, full := r.full }
      let s := { s with copies := s.copies.erase k, pins := s.pins.erase ⟨k.ctx, k.pool, k.page, k.job⟩ }
      let s := (s.dropRef k.ctx k.pool p k.page).startPageIns
      match k.ld with
      | some (gi, id) =>
        (match (s.grp gi).op? id with
        | some o => match o.kind with
          | .catld d _ _ _ _ _ =>
            let v := catValue (mkEntry q (eDom e) (eNtok e) true) (s.recD k.ctx p q) 0
            let s := s.onGrp gi fun g => (g.setS d (BitVec.ofNat 32 v)).setS (d + 1) (BitVec.ofNat 32 (v / 2 ^ 32))
            (s.complete gi id, none)
          | _ => (s, none)
        | none => (s, none))
      | none => (s, none)

/-- A move is done: the page lies in its new place, the old one is free and holds no locks (R178, R395). -/
def State.moveDone (s : State) (p : Pool) (k : PageCopy) : State :=
  let s := s.onRec k.ctx p k.page fun r =>
    { r with tier := k.dst.1, slot := k.dst.2,
             st := if k.dst.1 = 0 then byCount r.ref r.full else if k.dst.1 = 1 then pFar else pPooled }
  let s := ({ s with copies := s.copies.erase k }).dropLocks k.ctx (p.frame k.src.1 k.src.2) (2 ^ p.fsz / 512)
  (s.freeIfDue k.ctx k.pool p k.page).startPageIns

/-- Someone still waits for what a copy makes. -/
def State.copyLive (s : State) (k : PageCopy) : Bool :=
  match k.job with
  | some u => (match s.job? u with | some j => !j.ended | none => false)
  | none => match k.ld with | some (gi, id) => (s.grp gi).live id | none => true

/-- A copy stands still: its job is suspended or saved, or every job that waits for its page-in is. -/
def State.copyHeld (s : State) (k : PageCopy) : Bool :=
  match k.job with
  | some u => (match s.job? u with | some j => j.st != .running || j.saved | none => false)
  | none => k.ld.isNone && s.waitersFor k ≠ [] && (s.waitersFor k).all fun j => j.st != .running || j.saved

/-- A copy made from where it stopped, and its end. -/
def State.copyStep (s : State) (k : PageCopy) : State :=
  match (s.ctx k.ctx).pool? k.pool with
  | none => { s with copies := s.copies.erase k }
  | some p =>
    if !s.copyLive k then s.undoCopy p k
    else if s.copyHeld k then s
    else
      match s.copyPage (p.pg / 16 - k.done) (agent k.ctx) (p.frame k.src.1 k.src.2) (p.frame k.dst.1 k.dst.2) k.done with
      | (s, n, f) =>
        let k' := { k with done := n }
        let s := { s with copies := s.copies.map fun x => if x = k then k' else x }
        match f.or (s.copyRecFault p k') with
        | some f => s.copyFails p k' f
        | none =>
          match k.why with
          | .cow q =>
            match s.cowDone p k' q with
            | (s, some f) => s.copyFails p k' f
            | (s, none) => match k.job with | some u => s.pageNext u | none => s
          | .move => match k.job with | some u => (s.moveDone p k').pageNext u | none => s.moveDone p k'
          | .pageIn => s.moveDone p k'

/-- `PAGE_COPY_COMPLETE` (R395): a copy for a page operation or a `catld` is made. -/
def execPageCopyComplete (k : Nat) (s : State) : Out :=
  .next (match s.copies[k]? with
    | some c => if c.why = .pageIn then s else s.copyStep c
    | none => s)

/-- `PAGE_IN_COMPLETE` (R411): a page-in is made; the images that wait for it can be filled. -/
def execPageInComplete (k : Nat) (s : State) : Out :=
  .next (match s.copies[k]? with
    | some c => if c.why = .pageIn then s.copyStep c else s
    | none => s)

/-! ### Hand-offs (R406) -/

/-- A transfer by its number. -/
def State.xfer? (s : State) (x : Nat) : Option Xfer := s.xfers.find? fun y => y.id = x

/-- The page of a hand-off that has ended returns to the state that it had before (R395). -/
def State.handBack (s : State) (c pi n st : Nat) : State :=
  match (s.ctx c).pool? pi with
  | none => s
  | some p =>
    let s := s.onRec c p n fun r => if r.st = pHanded then { r with st := st } else r
    (s.freeIfDue c pi p n).startPageIns

/-- `HANDOFF_ACK` (R406): the peer has acknowledged the last byte. -/
def execHandoffAck (x : Nat) (s : State) : Out :=
  .next (match s.xfer? x with
    | some y => match y.kind with
      | .page uid pool page st => ((s.dropXfer x).handBack y.ctx pool page st).pageNext uid
      | _ => s
    | none => s)

end Sys2Proof.Machine
end

