-- ==== Sys2Proof/Machine/Tile.lean ====
section
/-! DEFINITION. Gangs, bands and the words on them: class TILE (R205 to R212, R229 to R233). -/
namespace Sys2Proof.Machine

/-! ### Gangs (R208 to R212) -/

/-- The team of a group. -/
def State.teamOf (s : State) (g : Group) : Team :=
  s.teams.getD g.team ⟨0, 0, .retired, 0, [], [], [], [], Vector.replicate 64 0, [], [], [], [], 0, 0, false⟩

/-- The member index of a group in a mask: the mask bits below its own (R208). -/
def memberIx (mask idx : Nat) : Nat := popN idx mask

/-- The formed gang that a group belongs to. -/
def Team.gangOf (t : Team) (idx : Nat) : Option Gang := t.gangs.find? fun x => x.formed && x.mask.testBit idx

/-- The places of a gang's members, in member order. -/
def State.members (s : State) (t : Team) (mask : Nat) : List Nat :=
  t.groups.filter fun gi => mask.testBit (s.grp gi).idx

/-- Every lane of a group has exited. -/
def Group.gone (g : Group) : Bool := g.status = .free || g.status = .draining || g.inState .exited = allLanes

/-- Bands of a cluster's engine that gangs hold (R205). -/
def State.bandsUsed (s : State) (cluster : Nat) : Nat :=
  s.teams.foldl (fun n t => if t.holds && t.core / 4 = cluster
    then n + t.bands.length else n) 0

/-- `gng` of a formed gang (R210). -/
def gngOf (k mask nacc : Nat) : Word := BitVec.ofNat 32 (2 ^ 31 + nacc % 16 * 2 ^ 24 + k % 8 * 2 ^ 21 + mask % 65536)

/-- A band as it is granted (R207). -/
def Band.fresh (k acc i : Nat) : Band :=
  { gang := k, acc := acc, member := i, cells := Vector.replicate 2048 0, a := 0, aset := false, clamp := false,
    gnx := false, inv := false, bsm := false, bbv := false, bb := 0, dom := 0, live := 0, clear := true }

/-- A band zeroed (R207). -/
def Band.zero (b : Band) : Band :=
  { b with cells := Vector.replicate 2048 0, clamp := false, gnx := false, inv := false, bsm := false, bbv := false,
           dom := 0, live := 0, aset := false, clear := true }

/-- A wait in which a `gang` forms. -/
def StallKind.isGang : StallKind → Bool
  | .gang .. => true
  | _ => false

/-- A wait in which a `gang` dissolves. -/
def StallKind.isUngang : StallKind → Bool
  | .ungang _ => true
  | _ => false

/-- The group of a request still waits in the `gang` that made it: a handler that moves its lanes past the word abandons the request
(R420). -/
def State.reqStands (s : State) (r : GangReq) : Bool :=
  (s.grp r.gi).stall.any fun w => w.pc == r.pc && w.kind.isGang && w.kind = .gang r.k r.mask r.nacc

/-- The requests of a team that stand, but for those of one group. -/
def State.openReqs (s : State) (t : Team) (but : Nat) : List GangReq :=
  t.reqs.filter fun r => s.reqStands r && r.gi ≠ but

/-- A waiting `gang` fails: its lanes go on but those it issued for, which are faulted at it (R209, R211). -/
def State.gangFail (s : State) (r : GangReq) (detail : Nat) : State :=
  let s := s.onGrp r.gi fun g => g.endWaits StallKind.isGang
  (s.deferAll r.gi r.pc false false ((lanesOf r.lanes).map fun l => (l.val, cGANG, detail, 0))).settle r.gi false

/-- The limits of the kernel of a group: gangs, bands, groups per team. -/
def State.gangLimits (s : State) (g : Group) : Nat × Nat × Nat :=
  match s.kernels[g.kernel]? with | some k => (k.h.gangs, k.h.bands, 2 ^ k.h.w1) | none => (0, 0, 0)

/-- A `gang` request is not valid (R209). -/
def gangBad (lim : Nat × Nat × Nat) (t : Team) (idx k mask : Nat) : Bool :=
  lim.1 ≤ k || popN 16 mask < 2 || 6 < popN 16 mask || !mask.testBit idx || 2 ^ lim.2.2 ≤ mask || (t.gangOf idx).isSome

/-- A request meets the others of its number: a mismatch fails both; the last member completes the rendezvous. DESIGN CHOICE (log entry
73): a request that mismatches several pending ones fails with the first of them; the others stay pending. -/
def State.gangMeet (s : State) (c : Wctx) (k mask nacc : Nat) : Res :=
  let g := c.snap
  let reqs := s.openReqs (s.teamOf g) c.gi
  match reqs.find? fun r => r.k = k && (mask.testBit r.idx || r.mask.testBit g.idx) && (r.mask ≠ mask || r.nacc ≠ nacc) with
  | some r =>
    let s := (s.onTeam g.team fun t => { t with reqs := reqs.filter fun x => x != r }).gangFail r 2
    .ok (s.deferAll c.gi c.pc c.hm false ((lanesOf c.lanes).map fun l => (l.val, cGANG, 2, 0)))
  | none =>
    let me : GangReq := ⟨c.gi, g.idx, k, mask, nacc, c.lanes, c.pc⟩
    let mine := fun (r : GangReq) => r.k = k && mask.testBit r.idx
    if ((reqs.filter mine).length + 1 = popN 16 mask) then
      .wait (.gang k mask nacc)
        { s.onTeam g.team (fun t => { t with
            reqs := reqs.filter fun r => !mine r,
            gangs := t.gangs ++ [⟨k, mask, nacc, false, [], s.meets⟩] }) with meets := s.meets + 1 }
    else .wait (.gang k mask nacc) (s.onTeam g.team fun t => { t with reqs := reqs ++ [me] })

/-- The registers of `gang`. -/
def specGang (h : Hdr) (a : BitVec 6) : WordSpec := { h := h, pipe := .x, sr := [a.toNat], hnot := true }

/-- An `mma` of the group has not passed its rendezvous (R220). -/
def Group.mmaWaits (g : Group) : Bool :=
  g.ops.any fun o => !o.done && o.todo ≠ 0#32 && (match o.kind with | .mma _ _ => true | _ => false)

/-- `GANG` (R209, R211): forms or dissolves a gang, and waits for it. -/
def execGang (h : Hdr) (k : BitVec 3) (a b : BitVec 6) (s : State) : Out :=
  .next (word (specGang h a) s fun c s =>
    let g := c.snap
    let t := s.teamOf g
    let nacc := b.toNat
    if g.mmaWaits then .hold .side
    else if nacc ≠ 0 then
      let mask := (c.snap.sreg a.toNat).toNat % 65536
      let lim := s.gangLimits g
      if gangBad lim t g.idx k.toNat mask then .raise cGANG 4
      else if 128 < nacc * popN 16 mask || lim.2.1 < nacc * popN 16 mask then .raise cGANG 5
      else if t.gangs.any fun x => x.k = k.toNat then .hold (.gangWait k.toNat mask nacc)
      else s.gangMeet c k.toNat mask nacc
    else
      match t.gangOf g.idx with
      | none => .ok s
      | some x =>
        .wait (.ungang x.k) (s.onTeam g.team fun t => { t with gangs := t.gangs.map fun y =>
          if y.k = x.k then { y with leaving := addOnce y.leaving g.idx } else y }))

/-- `BAND_GRANT` (R207, R209): the bands of a gang whose members have met, in the order in which the gangs met. DEDUCED (log entry 72): a
gang also waits while its team's gangs would hold more bands at once than the header's limit (R317). DESIGN CHOICE (log entry 73): a
member whose handler has abandoned its wait since they met is a member of the gang that forms. -/
def execBandGrant (t k : Nat) (s : State) : Out :=
  .next (match s.teams[t]? with
    | none => s
    | some tm =>
      match tm.gangs.find? fun x => x.k = k && !x.formed with
      | none => s
      | some x =>
        let n := popN 16 x.mask
        let first := s.teams.all fun u => !u.holds || u.core / 4 ≠ tm.core / 4 || u.gangs.all fun y => y.formed || x.seq ≤ y.seq
        let limit := match s.kernels[tm.kernel]? with | some kn => kn.h.bands | none => 0
        if !first || !tm.holds || 128 < s.bandsUsed (tm.core / 4) + x.nacc * n || limit < tm.bands.length + x.nacc * n then s
        else
          let bands := (List.range x.nacc).flatMap fun acc => (List.range n).map fun i => Band.fresh k acc i
          let s := s.onTeam t fun u => { u with
            gangs := u.gangs.map fun y => if y.k = k && !y.formed then { y with formed := true } else y,
            bands := u.bands ++ bands }
          (s.members tm x.mask).foldl (fun s gi =>
            (s.onGrp gi fun g => { g with gng := gngOf k x.mask x.nacc, mmaCount := 0 }).endWaits gi StallKind.isGang) s)

/-! ### Operations on the bands of a gang -/

/-- An operation on an accumulator. -/
def OpKind.acc? : OpKind → Option Nat
  | .mma m _ => some m.acc
  | .tile acc _ => some acc
  | _ => none

/-- An operation of the engine: a product or a band word. -/
def Op.tile (o : Op) : Bool := o.kind.acc?.isSome

/-- No earlier operation of the member on the accumulator is still to take effect (R224). -/
def Group.bandFree (g : Group) (acc id : Nat) : Bool :=
  g.ops.all fun o => id ≤ o.id || o.done || o.kind.acc? != some acc

/-- Every earlier `mma` of the member has passed its checks: until then each operation queued behind it can still be cancelled (R220). -/
def Group.mmaPassed (g : Group) (id : Nat) : Bool := g.ops.all fun o => id ≤ o.id || o.done || !o.kind.isMma || o.todo = 0#32

/-- A band word may take effect: its member's earlier operations on the band have, its earlier matrix operations cannot fail any more, and the
accesses before one that reads or writes an image have their places (R220, R224, R231). -/
def Group.tileTurn (g : Group) (acc id : Nat) (fn : TileFn) : Bool :=
  g.bandFree acc id && g.mmaPassed id && (!fn.image || g.accessed id)

/-- The band of a member (R205). -/
def Team.band? (t : Team) (k acc i : Nat) : Option Band := t.bands.find? fun b => b.gang = k && b.acc = acc && b.member = i

/-- A band changed in place. -/
def Team.onBand (t : Team) (k acc i : Nat) (f : Band → Band) : Team :=
  { t with bands := t.bands.map fun b => if b.gang = k && b.acc = acc && b.member = i then f b else b }

/-- An `mma` fails, and with it every operation queued behind it (R220): they complete, the lanes it issued for are faulted
at it, and its group goes back to where it stood before it. Where a member is absent, only the members that remain are faulted (R211). -/
def State.mmaFail (s : State) (members : List (Nat × Nat)) (cause detail : Nat) (addr : Dword) (absent : Bool := false) : State :=
  members.foldl (fun s p =>
    match (s.grp p.1).op? p.2 with
    | none => s
    | some o =>
      match o.kind with
      | .mma m k =>
        let s := s.onGrp p.1 fun g =>
          { g with
            ops := g.ops.map (fun x => if x.tile && o.id ≤ x.id then { x with done := true, todo := 0 } else x),
            keptA := m.prev, mmaCount := k }
        let s := if absent && (s.grp p.1).gone then s
          else s.deferAll p.1 o.pc o.hm true ((lanesOf o.lanes).map fun l => (l.val, cause, detail, addr))
        (s.onGrp p.1 Group.retire).settle p.1 false
      | _ => s) s

/-- The operation of a member that is its k-th `mma` on the gang and waits for the others. -/
def Group.mmaAt (g : Group) (k : Nat) : Option Op :=
  g.ops.find? fun o => !o.done && o.todo ≠ 0#32 && match o.kind with | .mma _ n => n = k | _ => false

/-- A gang whose members have met and which has no bands yet fails with a member that is gone (R211): the others, which wait in its
`gang`, are faulted at it. -/
def State.formFail (s : State) (t : Nat) (tm : Team) (x : Gang) : State :=
  let s := s.onTeam t fun u => { u with gangs := u.gangs.filter fun y => y != x }
  (s.members tm x.mask).foldl (fun s gi =>
    match (s.grp gi).stall with
    | some w =>
      if w.kind = .gang x.k x.mask x.nacc then s.gangFail ⟨gi, (s.grp gi).idx, x.k, x.mask, x.nacc, w.lanes, w.pc⟩ 3 else s
    | none => s) s

/-- Pending operations that need a member which has exited or asked to dissolve (R211): the products that wait for it, the gangs that it
was to form and the requests that name it. -/
def State.gangAbsent (s : State) (t : Nat) : State :=
  match s.teams[t]? with
  | none => s
  | some tm =>
    let away := fun (x : Gang) (gi : Nat) => (s.grp gi).gone || x.leaving.contains (s.grp gi).idx
    let s := tm.gangs.foldl (fun s x =>
      let ms := s.members tm x.mask
      match ms.filter (away x) with
      | [] => s
      | out =>
        let lost := ms.filterMap fun gi =>
          ((s.grp gi).ops.find? fun o => !o.done && o.todo ≠ 0#32 && match o.kind with
            | .mma _ n => out.any fun gj => (s.grp gj).mmaCount ≤ n
            | _ => false).map fun o => (gi, o.id)
        if x.formed then s.mmaFail lost cGANG 3 0 true else s.formFail t tm x) s
    let bad := (s.openReqs tm s.groups.length).filter fun r =>
      tm.groups.any fun gi => r.mask.testBit (s.grp gi).idx && (s.grp gi).gone
    bad.foldl (fun s r => (s.onTeam t fun u => { u with reqs := u.reqs.filter fun x => x != r }).gangFail r 3) s

/-- `GANG_DISSOLVE` (R209, R211): what needs an absent member fails; the gang whose members have all left, with every
operation retired, gives its bands back. -/
def execGangDissolve (t : Nat) (s : State) : Out :=
  .next (let s := s.gangAbsent t
    match s.teams[t]? with
    | none => s
    | some tm =>
      match tm.gangs.find? fun x => x.formed && (s.members tm x.mask).all fun gi =>
          ((s.grp gi).gone || x.leaving.contains (s.grp gi).idx) && (s.grp gi).ops.all fun o => !o.tile with
      | none => s
      | some x =>
        let s := s.onTeam t fun u => { u with gangs := u.gangs.filter (fun y => y.k != x.k),
                                              bands := u.bands.filter (fun b => b.gang != x.k) }
        (s.members tm x.mask).foldl (fun s gi =>
          (s.onGrp gi fun g => { g with gng := 0, keptA := none, mmaCount := 0 }).endWaits gi StallKind.isUngang) s)

/-! ### The words on a band (R229 to R231) -/

/-- The registers of a band word. -/
def specBand (h : Hdr) (sr : List Nat) : WordSpec := specSc h .x sr [] (some .tl) false

/-- A band word: its gang and accumulator checked, its operation started; `f` may raise first. -/
def bandWord (w : WordSpec) (acc : Nat) (dv : List Nat) (s : State) (f : Wctx → State → Except (Nat × Nat) TileFn) :
    State :=
  word w s fun c s =>
    match (s.teamOf c.snap).gangOf c.snap.idx with
    | none => .raise cGANG 1
    | some x =>
      if x.nacc ≤ acc then .raise cGANG 1
      else
        match f c s with
        | .error e => .raise e.1 e.2
        | .ok k => .ok (s.start c .tl 0 (.tile acc k) dv [])

/-- `ACZ` (R229). -/
def execAcz (h : Hdr) (a : BitVec 3) (s : State) : Out := .next (bandWord (specBand h []) a.toNat [] s fun _ _ => .ok .acz)

/-- `ACANCH` with an immediate (R229). -/
def execAcanch (h : Hdr) (i a : BitVec 3) (j : BitVec 6) (s : State) : Out :=
  .next (bandWord (specBand h []) a.toNat [] s fun _ _ => .ok (.acanch (i ++ j)))

/-- `ACANCH` with a scalar register (R229). -/
def execAcanchScalar (h : Hdr) (a : BitVec 3) (b : BitVec 6) (s : State) : Out :=
  .next (bandWord (specBand h [b.toNat]) a.toNat [] s fun c _ => .ok (.acanch ((c.snap.sreg b.toNat).extractLsb' 0 9)))

/-- The registers of `acvt` (R230). -/
def specAcvt (h : Hdr) (d b : BitVec 6) (n : BitVec 4) (noba : Bool) : WordSpec :=
  { h := h, pipe := .x, vw := runOf d.toNat (n.toNat + 1), sr := if noba then [] else [b.toNat], cnt := some .tl }

/-- `ACVT` (R230). DESIGN CHOICE (log entry 56): the thresholds of `cvth` and `nmode.OVP` are those of its issue, as its sources are
(R46). -/
def execAcvt (h : Hdr) (d : BitVec 6) (acc : BitVec 3) (b : BitVec 6) (dt : BitVec 4) (c0 : BitVec 6) (n : BitVec 4)
    (noba nobb : Bool) (s : State) : Out :=
  .next (bandWord (specAcvt h d b n noba) acc.toNat (runOf d.toNat (n.toNat + 1)) s fun c _ =>
    .ok (.acvt d.toNat (n.toNat + 1) c0.toNat dt.toNat noba nobb ((c.snap.sreg b.toNat).extractLsb' 0 16) c.snap.ovp
      c.snap.cvth))

/-- The bytes of a band image (R206). -/
def imageBytes : Nat := 24592

/-- The checks of `acld` and `acst` on their offset (R231). -/
def bandOffset (c : Wctx) (s : State) (off : Nat) : Option (Nat × Nat) :=
  if off % 16 ≠ 0 then some (cALIGN, 1)
  else if s.spSize c.snap.kernel < off + imageBytes then some (cPROT, 3) else none

/-- `ACLD` (R231): its checks; the image is read when the word takes effect. -/
def execAcld (h : Hdr) (a : BitVec 3) (b : BitVec 6) (s : State) : Out :=
  .next (bandWord (specBand h [b.toNat]) a.toNat [] s fun c s =>
    match bandOffset c s (c.snap.sreg b.toNat).toNat with
    | some e => .error e
    | none => .ok (.acld (c.snap.sreg b.toNat)))

/-- `ACST` (R231). -/
def execAcst (h : Hdr) (a : BitVec 3) (b : BitVec 6) (s : State) : Out :=
  .next (bandWord (specBand h [b.toNat]) a.toNat [] s fun c s =>
    match bandOffset c s (c.snap.sreg b.toNat).toNat with
    | some e => .error e
    | none => .ok (.acst (c.snap.sreg b.toNat)))

/-- The 16-byte header of a band (R206). -/
def Band.header (b : Band) : Nat :=
  let f := fun (x : Bool) (n : Nat) => if x then 2 ^ n else 0
  b.a.toNat + f b.aset 9 + f b.clamp 11 + f b.gnx 12 + f b.inv 13 + f b.bsm 14 + f b.bbv 15 + b.bb.toNat * 2 ^ 64
    + b.dom.toNat * 2 ^ 88 + b.live.toNat * 2 ^ 96

/-- The image of a band. -/
def Band.image (b : Band) : List Byte := toBytes 16 b.header ++ b.cells.toList.flatMap fun n => toBytes 12 n.toNat

/-- A band replaced by an image (R231). -/
def Band.load (b : Band) (img : List Byte) : Band :=
  let hd := ofBytes (img.take 16)
  let dom : Byte := BitVec.ofNat 8 (fld hd 95 88)
  { b with
    cells := Vector.ofFn fun i => BitVec.ofNat 96 (ofBytes ((img.drop (16 + 12 * i.val)).take 12)),
    a := BitVec.ofNat 9 hd, aset := hd.testBit 9, clamp := hd.testBit 11, gnx := hd.testBit 12, inv := hd.testBit 13,
    bsm := hd.testBit 14, bbv := hd.testBit 15, bb := BitVec.ofNat 16 (fld hd 79 64),
    dom := if descReserved dom then 0 else dom, live := BitVec.ofNat 32 (fld hd 127 96), clear := false }

/-- The value of a cell of lane r, column c. -/
def Band.cell (b : Band) (r c : Nat) : BitVec 96 := b.cells.toList.getD (r * 64 + c) 0

/-- The element types of `acvt` (R230). -/
def acvtType (dt : Nat) : Tgt :=
  match dt with
  | 0 => .flt .f32 | 1 => .flt .f16 | 2 => .flt .bf16 | 3 => .flt .e4m3 | 4 => .flt .e5m2 | _ => .int 32 true

/-- The converted elements of a row (R81, R230): n registers of the band from column c0. -/
def acvtRow (b : Band) (n c0 : Nat) (t : Tgt) (ba bb : Val) (ovp : Bool) (r : Nat) : List Conv :=
  let e := 32 / t.width
  (List.range (n * e)).map fun j =>
    let v := cellOut b.a.toInt (b.cell r (c0 + j)) ba bb
    conv t (.mode .rne) ovp v.2 v.1

/-- The registers of a converted row. -/
def acvtWord (t : Tgt) (row : List Conv) (k : Nat) : Word :=
  let e := 32 / t.width
  BitVec.ofNat 32 (((row.drop (k * e)).take e).foldr (fun x acc => x.code % 2 ^ t.width + acc * 2 ^ t.width) 0)

/-- An `acvt` completes (R70, R230, R426). DESIGN CHOICE (log entry 56): a lane that both meets an enabled flag and passes T is faulted
with FPE; its CONVX is dropped, as of a lane that is faulted already. -/
def State.acvtDone (s : State) (gi : Nat) (o : Op) (b : Band) (d n c0 dt : Nat) (noba nobb : Bool) (ba : BitVec 16)
    (ovp : Bool) (th : Word) : State :=
  let one := Fmt.bf16.val 0x3f80
  let t := acvtType dt
  let va := if noba then one else Fmt.bf16.val ba.toNat
  let vb := if nobb || !b.bbv then one else Fmt.bf16.val b.bb.toNat
  let rows := (List.range 32).map (acvtRow b n c0 t va vb ovp)
  let tag : Tag := if descL b.dom = 0 then Tag.spatial else ⟨b.dom, b.live⟩
  let s := s.onGrp gi fun g => (List.range n).foldl (fun g k =>
    g.setV (d + k) (Vector.ofFn fun l => acvtWord t (rows.getD l.val []) k) tag) g
  let flags := fun (l : Fin 32) => (rows.getD l.val []).foldl (fun f e => f ||| e.flags) (flagIf b.inv fNV)
  let trap := (s.grp gi).fpeLanes o.lanes flags
  let s := s.onGrp gi fun g => g.setFlags (~~~trap) flags
  let extra : List Conv := if b.inv && ovp then List.replicate 32 ⟨0, 0, 0, 0, 1⟩ else []
  let all := if ovp then rows.flatMap id ++ extra else []
  let past := if ovp && th.getLsbD 10 then overT (s.grp gi).cvc (tally all) (th.toNat % 1024) else none
  let s := s.onGrp gi fun g => if ovp then g.addCounts all else g
  s.deferAll gi o.pc o.hm false ((lanesOf o.lanes).filterMap fun (l : Fin 32) =>
    if trap.getLsbD l then some (l.val, cFPE, (flags l).toNat, 0) else past.map fun x => (l.val, cCONVX, x, 0))

/-- A band word takes effect (R207, R230, R231). DESIGN CHOICE (log entry 89): `acst` writes its image also over granules of the scratchpad
that have an uncorrectable error, without a fault; the error stays. -/
def State.tileDone (s : State) (gi : Nat) (o : Op) (k acc i : Nat) (fn : TileFn) : State :=
  let t := (s.grp gi).team
  let on := fun (f : Band → Band) => s.onTeam t fun u => u.onBand k acc i f
  match fn with
  | .acz => on Band.zero
  | .acanch a => on fun b => { b.zero with a := a, aset := true }
  | .acld off =>
    if s.spPoisoned t off.toNat imageBytes then
      s.deferAll gi o.pc o.hm false ((lanesOf o.lanes).map fun l => (l.val, cMACHINE, 1, 0))
    else on fun b => b.load (Memory.readN (s.teamOf (s.grp gi)).sp off.toNat imageBytes)
  | .acst off =>
    match (s.teamOf (s.grp gi)).band? k acc i with
    | some b => s.onTeam t fun u => { u with sp := Memory.writeN u.sp off.toNat b.image }
    | none => s
  | .acvt d n c0 dt noba nobb ba ovp th =>
    match (s.teamOf (s.grp gi)).band? k acc i with
    | some b => s.acvtDone gi o b d n c0 dt noba nobb ba ovp th
    | none => s

/-- A band word takes effect in its turn (R220, R224, R231). -/
def State.tileStep (s : State) (gi id : Nat) : State :=
  match (s.grp gi).op? id with
  | some o => match o.kind with
    | .tile acc fn =>
      let g := s.grp gi
      if o.done || !g.tileTurn acc id fn then s
      else
        match (s.teamOf g).gangOf g.idx with
        | some x => (s.tileDone gi o x.k acc (memberIx x.mask g.idx) fn).complete gi id
        | none => s.complete gi id
    | _ => s
  | none => s

/-- `TILE_OPERATION_COMPLETE` (R224, R231). -/
def execTileOperationComplete (gi id : Nat) (s : State) : Out := .next (s.tileStep gi id)

/-! ### Tags (R232, R233) -/

/-- The registers of `tgset` and `tgget`. -/
def specTgset (h : Hdr) (d a b : BitVec 6) : WordSpec :=
  { h := h, pipe := .x, vw := [d.toNat], sr := [a.toNat, b.toNat] }
def specTgget (h : Hdr) (d a : BitVec 6) (sel : BitVec 3) : WordSpec :=
  { h := h, pipe := .x, vr := if sel.toNat ≤ 1 then [a.toNat] else [], sw := [d.toNat] }

/-- `TGSET` (R232). -/
def execTgset (h : Hdr) (d a b : BitVec 6) (s : State) : Out :=
  .next (word (specTgset h d a b) s fun c s =>
    let desc := (c.snap.sreg a.toNat).extractLsb' 0 8
    if descReserved desc then .raise cDOMAIN 3
    else .ok (s.onGrp c.gi fun g => g.setV d.toNat (g.vreg d.toNat) ⟨desc, c.snap.sreg b.toNat⟩))

/-- `TGGET` (R233): a band's header is read once the earlier operations on it have taken effect. -/
def execTgget (h : Hdr) (d a : BitVec 6) (sel : BitVec 3) (s : State) : Out :=
  .next (word (specTgget h d a sel) s fun c s =>
    let t := c.snap.tag a.toNat
    if sel = 0#3 then putS c s d.toNat (t.desc.setWidth 32)
    else if sel = 1#3 then putS c s d.toNat t.live
    else
      match (s.teamOf c.snap).gangOf c.snap.idx with
      | none => .raise cGANG 1
      | some x =>
        if x.nacc ≤ a.toNat then .raise cGANG 1
        else if !c.snap.bandFree a.toNat c.snap.nextOp then .hold .tgget
        else
          let hd := match (s.teamOf c.snap).band? x.k a.toNat (memberIx x.mask c.snap.idx) with
            | some b => b.header | none => 0
          putS c s d.toNat (BitVec.ofNat 32 (if sel = 2#3 then hd else if sel = 3#3 then hd / 2 ^ 64 else hd / 2 ^ 96)))

end Sys2Proof.Machine
end

