-- ==== Sys2Proof/Machine/Mma.lean ====
section
/-! DEFINITION. The matrix operation: class MMA, its rendezvous and its passes (R213 to R227). -/
namespace Sys2Proof.Machine

/-! ### Formats (R214 to R216) -/

/-- K of a format. -/
def MmaFmt.k : MmaFmt → Nat
  | .e2m1 => 64 | .e4m3 => 32 | .e5m2 => 32 | .e3m2 => 32 | .e2m3 => 32 | .i8 => 32 | .bf16 => 16 | .f16 => 16

/-- Bits of an element. -/
def MmaFmt.width : MmaFmt → Nat
  | .e2m1 => 4 | .e4m3 => 8 | .e5m2 => 8 | .e3m2 => 6 | .e2m3 => 6 | .i8 => 8 | .bf16 => 16 | .f16 => 16

/-- Registers of the A run. -/
def MmaFmt.run : MmaFmt → Nat
  | .e3m2 => 6 | .e2m3 => 6 | _ => 8

/-- Elements of a block: 8 for `.e2m1`, 32 for the other scaled formats (R222). -/
def MmaFmt.blk : MmaFmt → Nat
  | .e2m1 => 8 | _ => 32

/-- Formats with block and band scales. -/
def MmaFmt.scaled : MmaFmt → Bool
  | .i8 => false | .bf16 => false | .f16 => false | _ => true

/-- Bytes of a column of the B image, bytes of the image, and the place of its band scale (R216). -/
def MmaFmt.column : MmaFmt → Nat
  | .e3m2 => 24 | .e2m3 => 24 | _ => 32
def MmaFmt.bytes : MmaFmt → Nat
  | .e2m1 => 2576 | .e4m3 => 2128 | .e5m2 => 2128 | .e3m2 => 1616 | .e2m3 => 1616 | _ => 2048
def MmaFmt.bandAt : MmaFmt → Nat
  | .e2m1 => 2560 | .e3m2 => 1600 | .e2m3 => 1600 | _ => 2112

/-- The default anchor (R77). -/
def MmaFmt.anchor : MmaFmt → Int
  | .e2m1 => -18 | .e3m2 => -24 | .e2m3 => -22 | .e4m3 => -34 | .e5m2 => -40 | .i8 => 0 | .f16 => -48 | .bf16 => -64

/-- An element's exact value. -/
def MmaFmt.val (f : MmaFmt) (c : Nat) : Val :=
  match f with
  | .e2m1 => Fmt.e2m1.val c | .e4m3 => Fmt.e4m3.val c | .e5m2 => Fmt.e5m2.val c | .e3m2 => Fmt.e3m2.val c
  | .e2m3 => Fmt.e2m3.val c | .bf16 => Fmt.bf16.val c | .f16 => Fmt.f16.val c | .i8 => intVal (sx 8 c)

/-- F and C of the cost (R225). -/
def MmaFmt.cost : MmaFmt → Nat × Nat
  | .e2m1 => (8, 40) | .bf16 => (12, 52) | .f16 => (12, 52) | _ => (8, 44)

/-! ### Issue (R217 to R219) -/

/-- The scale registers of the A operand (R215). -/
def scaleRegs (f : MmaFmt) (sa : BitVec 6) : List Nat :=
  if f = .e2m1 then pairOf sa else if f.scaled then [sa.toNat] else []

/-- The registers of an `mma`. -/
def mmaSpec (h : Hdr) (f : MmaFmt) (a b sa : BitVec 6) : WordSpec := specMma h f.run a b (scaleRegs f sa)

/-- The operand latched from registers (R214, R215, R217): the raw words, the live-row mask and the descriptor. -/
def latchOf (g : Group) (f : MmaFmt) (a sa : BitVec 6) (sel : BitVec 2) : ALatch :=
  let run := runOf a.toNat f.run
  let t := g.tag a.toNat
  { fmt := f, a := a.toNat, sa := sa.toNat, sel := sel.toNat,
    rows := run.map g.vreg, scales := (scaleRegs f sa).map g.vreg,
    live := if t.haar then run.foldl (fun m n => m ||| (g.tag n).live) 0#32 else Tag.spatial.live,
    desc := t.desc }

/-- The registers of the run are all spatial, or all Haar and like-tagged (R217). -/
def runTagsOk (g : Group) (f : MmaFmt) (a : BitVec 6) : Bool :=
  let run := runOf a.toNat f.run
  run.all (fun n => !(g.tag n).haar) || run.all fun n => likeTagged (g.tag a.toNat) (g.tag n)

/-- A band's DOM and whether it is clear, as an operation of the member leaves them (R207, R222). -/
def domAfter (p : Byte × Bool) (o : Op) : Byte × Bool :=
  match o.kind with
  | .mma m _ =>
    let p := if m.clr then (0#8, true) else p
    if m.latch.live = 0#32 then p else (if p.2 && p.1 = 0#8 then m.latch.desc else p.1, false)
  | .tile _ .acz => (0#8, true)
  | .tile _ (.acanch _) => (0#8, true)
  | _ => p

/-- An `acld` of the member on the accumulator has not read its image yet, and so what DOM it leaves (R217). -/
def Group.loading (g : Group) (acc : Nat) : Bool :=
  g.ops.any fun o => !o.done && match o.kind with | .tile a (.acld _) => a = acc | _ => false

/-- DOM and clear of the member's band as they stand after its earlier words (R217, R222). -/
def Group.domAt (g : Group) (t : Team) (k acc i : Nat) : Byte × Bool :=
  let p := match t.band? k acc i with | some b => (b.dom, b.clear) | none => (0#8, true)
  (g.ops.filter fun o => !o.done && o.kind.acc? = some acc).foldl domAfter p

/-- A run agrees with the DOM of its band. -/
def domAgrees (run dom : Byte) : Bool :=
  (descL run = 0 && descL dom = 0) || likeTagged ⟨run, 0⟩ ⟨dom, 0⟩

/-- The operations of a rendezvous match (R219). -/
def mmaMatch (o p : Op) : Bool :=
  match o.kind, p.kind with
  | .mma m _, .mma n _ =>
    o.pc == p.pc && m.fmt = n.fmt && m.acc = n.acc && m.reuse == n.reuse && m.bsp == n.bsp && m.clr == n.clr
      && m.sa = n.sa && m.sel = n.sel && m.a = n.a && m.breg = n.breg && m.boff == n.boff && m.hc == n.hc && m.hg == n.hg
  | _, _ => false

/-! ### Rendezvous (R220) -/

/-- The B image of an operation, or why it cannot be read: cause, detail, address: a poisoned tile's is the
place of the tile (R276). -/
def State.bImage (s : State) (g : Group) (m : MmaOp) : Except (Nat × Nat × Nat) (List Byte) :=
  let off := m.boff.toNat
  let n := m.fmt.bytes
  if off % 16 ≠ 0 then .error (cALIGN, 1, off)
  else if m.bsp then
    if s.spSize g.kernel < off + n then .error (cPROT, 3, off)
    else if s.spPoisoned g.team off n then .error (cMACHINE, 1, off)
    else .ok (Memory.readN (s.teamOf g).sp off n)
  else
    match s.boardAt (g.core / 4) (s.ctxOf g) off with
    | none => .error (cPROT, 4, off)
    | some b =>
      if b.off + b.count * b.tracks.length * b.tile < off + n then .error (cPROT, 4, off)
      else
        match b.bad.find? fun d => (off - b.off) / b.tile ≤ d.1 && d.1 ≤ (off + n - 1 - b.off) / b.tile with
        | some d => .error (cRINGPOISON, d.2, b.off + d.1 * b.tile)
        | none =>
          let at_ := g.core / 4 * Config.bbBytes + off
          if s.bbPoisoned at_ n then .error (cMACHINE, 1, off) else .ok (Memory.readN s.bb at_ n)

/-- The live row groups of a latched operand (R221). -/
def ALatch.groups (x : ALatch) : List Nat := (List.range 4).filter fun q => x.live.extractLsb' (8 * q) 8 ≠ 0#8

/-- The passes of an operation, in order (R221); a band with no live row group is only zeroed under `.clr` (R222). -/
def passTasks (clr : Bool) (ls : List ALatch) : List (Nat × Option Nat) :=
  (ls.mapIdx fun i x => match x.groups with
    | [] => if clr then [(i, none)] else []
    | qs => qs.map fun q => (i, some q)).flatten

/-- An operation of a gang that has no pass left: its `tl` operations complete (R224). -/
def State.mmaDone (s : State) (ids : List (Nat × Nat)) : State := ids.foldl (fun s p => s.complete p.1 p.2) s

/-- The k-th `mma` of a gang, if every member has issued it (R219). -/
def State.mmaMembers (s : State) (t : Team) (x : Gang) (k : Nat) : Option (List (Nat × Op)) :=
  let ms := s.members t x.mask
  let os := ms.filterMap fun gi => ((s.grp gi).mmaAt k).map fun o => (gi, o)
  if os.length = ms.length then some os else none

/-- `MMA_RENDEZVOUS` (R220): the checks in their order; a failure fails every member's operation; else the B image is
latched and the passes stand in line. -/
def State.rendezvous (s : State) (ti : Nat) (x : Gang) (os : List (Nat × Op)) : State :=
  let ids := os.map fun p => (p.1, p.2.id)
  match os with
  | [] => s
  | (gi, o) :: _ =>
    match o.kind with
    | .mma m _ =>
      if !os.all fun p => mmaMatch o p.2 then s.mmaFail ids cGANG 2 0
      else
        match s.bImage (s.grp gi) m with
        | .error e => s.mmaFail ids e.1 e.2.1 (BitVec.ofNat 64 e.2.2)
        | .ok img =>
          let ls := os.filterMap fun p => match p.2.kind with | .mma n _ => some n.latch | _ => none
          let s := ids.foldl (fun s p => s.onGrp p.1 fun g => g.onOp p.2 fun o => { o with todo := 0 }) s
          match passTasks m.clr ls with
          | [] => s.mmaDone ids
          | ts =>
            let run : Pass := { gang := x.k, acc := m.acc, fmt := m.fmt, clr := m.clr, ids := ids, latches := ls,
                                image := img, tasks := ts, touched := [], seq := s.meets, since := s.clk }
            { s.onTeam ti (fun t => { t with passes := t.passes ++ [run] }) with meets := s.meets + 1 }
    | _ => s

/-- The places of the reservation table that a cluster's engine has taken (R227). -/
def State.tableUsed (s : State) (cluster : Nat) : Nat :=
  s.teams.foldl (fun n t => if t.holds && t.core / 4 = cluster then n + t.passes.length else n) 0

/-- The least number of an `mma` of a gang that still waits at its rendezvous. -/
def State.nextMma (s : State) (t : Team) (x : Gang) : Option Nat :=
  leastOf ((s.members t x.mask).flatMap fun gi => (s.grp gi).ops.filterMap fun o =>
    match o.kind with | .mma _ n => if !o.done && o.todo ≠ 0#32 then some n else none | _ => none)

/-- The next rendezvous of a gang, when every member has issued its `mma`, every access that a member made before it has its place (R224)
and the engine's table has room (R227). -/
def State.meet (s : State) (ti : Nat) (x : Gang) : State :=
  match s.teams[ti]? with
  | none => s
  | some t =>
    match (s.nextMma t x).bind (s.mmaMembers t x) with
    | some os =>
      if os.all (fun p => (s.grp p.1).accessed p.2.id) && s.tableUsed (t.core / 4) < 32 then s.rendezvous ti x os else s
    | none => s

/-- The rendezvous of a gang, in order. -/
def State.meets4 (s : State) (ti : Nat) (x : Gang) : State := (List.range 4).foldl (fun s _ => s.meet ti x) s

/-- An `mma` word (R213 to R219): the precise checks in the order of R217, then the operand is latched, the region opens and the operation
waits at its rendezvous. A member has at most 4 that are not complete. -/
def mmaWord (f : MmaFmt) (h : Hdr) (reuse : Bool) (acc : BitVec 3) (a b sa : BitVec 6) (sel : BitVec 2) (bsp clr : Bool)
    (s : State) : State :=
  let w := mmaSpec h f a b sa
  let c := wctx h s
  let g := c.snap
  let t := s.teamOf g
  settleRes { w with side := false } c s <|
    if extBad w g then .raise cILLEGAL 0x0a
    else if c.lanes = 0#32 then .ok s.advance
    else
      match t.gangOf g.idx with
      | none => .raise cGANG 1
      | some x =>
        if x.nacc ≤ acc.toNat then .raise cGANG 1
        else
          let kept := match g.keptA with
            | some k => if k.fmt = f && k.a = a.toNat && k.sa = sa.toNat && k.sel = sel.toNat then some k else none
            | none => none
          if g.keptA.isSome && kept.isNone then .raise cGANG 6
          else
            let regs : WordSpec := if kept.isSome then { w with vr := [] } else w
            match leastOf (pendingOf regs g) with
            | some d => .raise cHAZARD d
            | none =>
              let i := memberIx x.mask g.idx
              let l := match kept with | some k => k | none => latchOf g f a sa sel
              let p := g.domAt t x.k acc.toNat i
              if g.loading acc.toNat && !clr then .hold .tgget
              else if (kept.isNone && !runTagsOk g f a) || !(p.2 || clr || domAgrees l.desc p.1) then .raise cDOMAIN 1
              else if 63 ≤ c.now.cnt .tl then .hold (.counter .tl)
              else if sideHeld g true then .hold .side
              else if c.ownOrd then .hold .order
              else if 4 ≤ (g.ops.filter fun o => !o.done && (match o.kind with | .mma _ _ => true | _ => false)).length
              then .hold .latch
              else
                let op : MmaOp :=
                  { fmt := f, acc := acc.toNat, reuse := reuse, bsp := bsp, clr := clr, sa := sa.toNat, sel := sel.toNat,
                    a := a.toNat, breg := b.toNat, boff := g.sreg b.toNat, hc := h.c, hg := h.g, latch := l, prev := g.keptA }
                let s := s.advance.start c .tl c.lanes (.mma op g.mmaCount) [] []
                let s := s.onGrp c.gi fun g => { g with mmaCount := g.mmaCount + 1, keptA := if reuse then some l else none }
                .ok ((s.region c 0#32).meets4 g.team x)

/-- `MMA_E2M1` (R213). -/
def execMmaE2m1 (h : Hdr) (m : Bool) (acc : BitVec 3) (a b sa : BitVec 6) (bsp clr : Bool) (s : State) : Out :=
  .next (mmaWord .e2m1 h m acc a b sa 0#2 bsp clr s)
/-- `MMA_E4M3` (R213). -/
def execMmaE4m3 (h : Hdr) (m : Bool) (acc : BitVec 3) (a b sa : BitVec 6) (sel : BitVec 2) (bsp clr : Bool) (s : State) :
    Out := .next (mmaWord .e4m3 h m acc a b sa sel bsp clr s)
/-- `MMA_E5M2` (R213). -/
def execMmaE5m2 (h : Hdr) (m : Bool) (acc : BitVec 3) (a b sa : BitVec 6) (sel : BitVec 2) (bsp clr : Bool) (s : State) :
    Out := .next (mmaWord .e5m2 h m acc a b sa sel bsp clr s)
/-- `MMA_E3M2` (R213). -/
def execMmaE3m2 (h : Hdr) (m : Bool) (acc : BitVec 3) (a b sa : BitVec 6) (sel : BitVec 2) (bsp clr : Bool) (s : State) :
    Out := .next (mmaWord .e3m2 h m acc a b sa sel bsp clr s)
/-- `MMA_E2M3` (R213). -/
def execMmaE2m3 (h : Hdr) (m : Bool) (acc : BitVec 3) (a b sa : BitVec 6) (sel : BitVec 2) (bsp clr : Bool) (s : State) :
    Out := .next (mmaWord .e2m3 h m acc a b sa sel bsp clr s)
/-- `MMA_I8` (R213). -/
def execMmaI8 (h : Hdr) (m : Bool) (acc : BitVec 3) (a b : BitVec 6) (bsp clr : Bool) (s : State) : Out :=
  .next (mmaWord .i8 h m acc a b 0#6 0#2 bsp clr s)
/-- `MMA_BF16` (R213). -/
def execMmaBf16 (h : Hdr) (m : Bool) (acc : BitVec 3) (a b : BitVec 6) (bsp clr : Bool) (s : State) : Out :=
  .next (mmaWord .bf16 h m acc a b 0#6 0#2 bsp clr s)
/-- `MMA_F16` (R213). -/
def execMmaF16 (h : Hdr) (m : Bool) (acc : BitVec 3) (a b : BitVec 6) (bsp clr : Bool) (s : State) : Out :=
  .next (mmaWord .f16 h m acc a b 0#6 0#2 bsp clr s)

/-! ### Passes (R221 to R227) -/

/-- Element k of a row of A. -/
def ALatch.elem (x : ALatch) (r k : Nat) : Nat :=
  getElem x.fmt.width k (x.rows.map fun w => w.toList.getD r 0)

/-- The block scale of a row of A, as a code (R215). -/
def ALatch.scale (x : ALatch) (r j : Nat) : Nat :=
  let ws := x.scales.map fun w => w.toList.getD r 0
  if x.fmt = .e2m1 then getElem 8 j ws else getElem 8 x.sel ws

/-- Element k of column n of an image, its block scale and the band scale (R216). -/
def bElem (f : MmaFmt) (img : List Byte) (n k : Nat) : Nat :=
  ofBytes ((img.drop (f.column * n)).take f.column) / 2 ^ (f.width * k) % 2 ^ f.width
def bScale (f : MmaFmt) (img : List Byte) (n j : Nat) : Nat :=
  let base := f.column * 64
  (img.getD (if f = .e2m1 then base + 8 * n + j else base + n) 0).toNat
def bBand (f : MmaFmt) (img : List Byte) : BitVec 16 :=
  BitVec.ofNat 16 (ofBytes ((img.drop f.bandAt).take 2))

/-- The exact term of a row, column and element (R222). -/
def mmaTerm (x : ALatch) (img : List Byte) (r n k : Nat) : Val :=
  let f := x.fmt
  let pa := f.val (x.elem r k)
  let pb := f.val (bElem f img n k)
  if f.scaled then
    (mulV (mulV pa (Fmt.e3m5.val (x.scale r (k / f.blk)))).1 (mulV pb (Fmt.e3m5.val (bScale f img n (k / f.blk)))).1).1
  else (mulV pa pb).1

/-- One cell's terms added (R78). -/
def addTerms (A : Int) (n : BitVec 96) (ts : List Val) : Cell96 :=
  ts.foldl (fun c p => anchorAdd A c p) { Cell96.zero with n := n }

/-- The first pass of an operation on a band (R207, R222). -/
def Band.firstPass (b : Band) (p : Pass) (x : ALatch) : Band :=
  let b := if p.clr then b.zero else b
  let b := if b.aset then b else { b with a := BitVec.ofInt 9 p.fmt.anchor, aset := true }
  let b := { b with dom := if b.clear && b.dom = 0#8 then x.desc else b.dom, live := b.live ||| x.live, clear := false }
  if p.fmt.scaled then
    let sc := bBand p.fmt p.image
    if !b.bbv then { b with bb := sc, bbv := true } else if b.bb ≠ sc then { b with bsm := true } else b
  else b

/-- The terms of row group q added to a band (R222). -/
def Band.addRows (b : Band) (p : Pass) (x : ALatch) (q : Nat) : Band :=
  let A := b.a.toInt
  let new := fun (i : Nat) =>
    addTerms A (b.cells.toList.getD i 0) ((List.range p.fmt.k).map fun k => mmaTerm x p.image (i / 64) (i % 64) k)
  let hit := fun (i : Nat) => i / 512 = q
  let cs := (List.range 2048).filter hit |>.map new
  { b with
    cells := Vector.ofFn fun i => if hit i.val then (new i.val).n else b.cells[i],
    clamp := b.clamp || cs.any fun c => c.clamp, gnx := b.gnx || cs.any fun c => c.gnx,
    inv := b.inv || cs.any fun c => c.inv }

/-- Non-zero elements of A in a row group and of the image (R225). -/
def nzA (x : ALatch) (q : Nat) : Nat :=
  ((List.range 8).map fun r => ((List.range x.fmt.k).filter fun k => !(x.fmt.val (x.elem (8 * q + r) k)).isZero).length).foldl (· + ·) 0
def nzB (f : MmaFmt) (img : List Byte) : Nat :=
  ((List.range 64).map fun n => ((List.range f.k).filter fun k => !(f.val (bElem f img n k)).isZero).length).foldl (· + ·) 0

/-- The cost of the next pass (R225). -/
def Pass.cost (p : Pass) : Nat :=
  match p.tasks with
  | (i, some q) :: _ =>
    match p.latches[i]? with
    | some x =>
      let d := 8 * 64 * p.fmt.k * p.fmt.k
      p.fmt.cost.1 + (p.fmt.cost.2 * nzA x q * nzB p.fmt p.image + d - 1) / d
    | none => 0
  | _ => 0

/-- A pass on its member's band may start: the member's earlier operations on the band have taken effect (R224). -/
def State.passReady (s : State) (p : Pass) : Bool :=
  match p.tasks with
  | (i, _) :: _ => match p.ids[i]? with | some d => (s.grp d.1).bandFree p.acc d.2 | none => false
  | [] => false

/-- The next pass of each gang of a cluster that may start: team and pass (R227). -/
def State.candidates (s : State) (cluster : Nat) : List (Nat × Pass) :=
  (List.range s.teams.length).flatMap fun ti =>
    match s.teams[ti]? with
    | none => []
    | some t =>
      if t.core / 4 ≠ cluster || !t.holds then []
      else
        t.gangs.filterMap fun x =>
          match t.passes.find? fun p => p.gang = x.k with
          | some p => if s.passReady p then some (ti, p) else none
          | none => none

/-- The priority of a team's context. -/
def State.priOf (s : State) (ti : Nat) : Nat :=
  match s.teams[ti]? with
  | some t => match s.kernels[t.kernel]? with | some k => (s.ctx k.ctx).d.pri | none => 0
  | none => 0

/-- The best of a list under a strict order. -/
def bestOf {α : Type} (lt : α → α → Bool) : List α → Option α
  | [] => none
  | a :: as => match bestOf lt as with | none => some a | some b => if lt b a then some b else some a

/-- The candidate that an engine starts (R227). -/
def State.choosePass (s : State) (cluster level : Nat) : Option (Nat × Pass) :=
  let cs := s.candidates cluster
  let older : Nat × Pass → Nat × Pass → Bool := fun a b => a.2.seq < b.2.seq
  match bestOf older (cs.filter fun x => 1024 ≤ s.clk - x.2.since) with
  | some u => if u.2.cost ≤ level then some u else none
  | none =>
    let pri := fun (x : Nat × Pass) => s.priOf x.1
    if 256 ≤ level then bestOf (fun a b => pri b < pri a || (pri a = pri b && older a b)) (cs.filter fun x => x.2.cost ≤ level)
    else bestOf (fun a b => pri b < pri a || (pri a = pri b && (a.2.cost < b.2.cost || (a.2.cost = b.2.cost && older a b))))
      (cs.filter fun x => x.2.cost ≤ level)

/-- The first operation of a gang becomes its next at a clk (R227). -/
def nextSince (gang clk : Nat) : List Pass → List Pass
  | [] => []
  | p :: ps => if p.gang = gang then { p with since := clk } :: ps else p :: nextSince gang clk ps

/-- `MMA_PASS` (R222): one pass, or the zeroing of a band that receives none; the last one completes the operation. -/
def State.runPass (s : State) (ti : Nat) (p : Pass) : State :=
  match p.tasks with
  | [] => s
  | (i, q) :: rest =>
    match p.latches[i]? with
    | none => s
    | some x =>
      let f := fun (b : Band) =>
        match q with
        | none => b.zero
        | some q => (if p.touched.contains i then b else b.firstPass p x).addRows p x q
      let p' := { p with tasks := rest, touched := addOnce p.touched i, since := s.clk }
      let s := s.onTeam ti fun t =>
        { t.onBand p.gang p.acc i f with
          passes := if rest = [] then nextSince p.gang s.clk (t.passes.filter (fun y => y.seq != p.seq))
                    else t.passes.map fun y => if y.seq = p.seq then p' else y }
      let s := match p.ids[i]? with
        | some d => s.onGrp d.1 fun g => { g with perf := g.perf.set 5 (g.perf[5] + (if q.isSome then 1 else 0)) }
        | none => s
      if rest = [] then s.mmaDone p.ids else s

/-- Up to n pass starts of a cluster's engine, charged to its island (R226, R227). -/
def State.startPasses (cluster isl : Nat) : Nat → State → State
  | 0, s => s
  | n + 1, s =>
    let level := match s.islands[isl]? with | some i => i.level | none => 0
    match s.choosePass cluster level with
    | none => s
    | some (ti, p) =>
      let s := { s with islands := updAt s.islands isl fun i => { i with level := i.level - p.cost } }
      State.startPasses cluster isl n (s.runPass ti p)

/-- The rendezvous that the gangs of a cluster can complete (R220). -/
def State.meetCluster (s : State) (cluster : Nat) : State :=
  (List.range s.teams.length).foldl (fun s ti => match s.teams[ti]? with
    | some t => if t.holds && t.core / 4 = cluster then (t.gangs.filter fun x => x.formed).foldl (fun s x => s.meets4 ti x) s else s
    | none => s) s

/-- `ENGINE_PASS_START` (R220, R226, R227): one clk of an island: its budget rises; its engines complete the rendezvous that have waited
for accesses or for room in their tables, and start passes, in ascending cluster order. -/
def execEnginePassStart (isl : Nat) (s : State) : Out :=
  .next (
    let s := { s with islands := updAt s.islands isl fun i => { i with level := min (i.level + i.rate) (32 * i.rate) } }
    (List.range 4).foldl (fun s k => State.startPasses (isl * 4 + k) isl 4 (s.meetCluster (isl * 4 + k))) s)

end Sys2Proof.Machine
end

