-- ==== Sys2Proof/Machine/Kernel.lean ====
section
/-! DEFINITION. Kernels: the header and its check (R317 to R320), acceptance, the end, the kill of a group, retirement and
cancellation (R323, R327 to R331, R87). -/
namespace Sys2Proof.Machine

/-! ### The header (R317 to R320) -/

/-- A little-endian field of a run of bytes. -/
def fieldAt (bs : List Byte) (off n : Nat) : Nat := ofBytes ((bs.drop off).take n)

/-- A write range (R320). -/
def rangeOf (bs : List Byte) (i : Nat) : WRange :=
  let r := fieldAt bs (96 + 16 * i) 16
  ⟨fld r 63 0, fld r 103 64, fld r 105 105 = 1, fld r 104 104 = 1⟩

/-- The fields of a header. -/
def Header.ofBytes (bs : List Byte) : Header :=
  let f := fieldAt bs
  { det := fld (f 2 2) 0 0 = 1, ovp := fld (f 2 2) 1 1 = 1, irq := fld (f 2 2) 2 2 = 1, vpre := fld (f 2 2) 3 3 = 1,
    w1 := f 4 1, w2 := f 5 1, w3 := f 6 1, w4 := f 7 1, w5 := f 8 1, xreg := f 9 1, gangs := f 10 1, bands := f 11 1,
    ivec := f 14 2, code := BitVec.ofNat 64 (f 16 8), clen := f 24 4, entry := f 28 4, data := BitVec.ofNat 64 (f 32 8),
    nteam := f 40 8, scr := f 48 4, chunk := f 52 4, capt := BitVec.ofNat 64 (f 56 8), sig := BitVec.ofNat 64 (f 64 8),
    sigv := BitVec.ofNat 64 (f 72 8), psm := BitVec.ofNat 64 (f 80 8), pre := BitVec.ofNat 64 (f 88 8),
    wr := (List.range (min (f 12 1) 8)).map (rangeOf bs) }

/-- A range breaks R320. DESIGN CHOICE (log entry 94): its last byte must be canonical too. -/
def WRange.bad (r : WRange) : Bool :=
  r.base % 16 ≠ 0 || r.len % 16 ≠ 0 || r.len = 0 || !canonical r.base || !canonical (r.base + r.len - 1) || (!r.w && !r.a)

/-- Bits of a mask, ascending. -/
def bitsOf (n : Nat) : List Nat := (List.range 64).filter n.testBit

/-- The conditions of R319 that the header's own bytes decide: the codes that apply. -/
def headerBad (bs : List Byte) (h : Header) : List Nat :=
  let f := fieldAt bs
  let sum := h.w1 + h.w2 + h.w3 + h.w4 + h.w5
  (if f 0 2 ≠ 1 || f 2 2 / 16 ≠ 0 || f 13 1 ≠ 0 || f 224 32 ≠ 0
      || (List.range (min (f 12 1) 8)).any (fun i => fld (f (96 + 16 * i) 16) 127 106 ≠ 0) then [1] else [])
    ++ (if h.code.toNat % 4096 ≠ 0 || h.clen = 0 || 2 ^ 30 < h.clen || h.clen ≤ h.entry then [2] else [])
    ++ (if 4 < h.w1 || 64 < 5 + sum || h.nteam = 0 || 2 ^ 48 < h.nteam || 2 ^ (sum - h.w1) < h.nteam then [3] else [])
    ++ (if 448 * 1024 < h.scr || 4 < h.xreg || 8 < h.gangs || 128 < h.bands || (h.gangs ≠ 0 && h.bands < 2) || h.chunk = 0
        || 2 ^ 20 < h.chunk then [4] else [])
    ++ (if 8 < f 12 1 || h.wr.any WRange.bad || (f 12 1 ≠ 0 && !h.det) then [5] else [])

/-- Bytes that an agent of a context can read: translated, permitted and with no error of their own (R284, R352). -/
def State.readable (s : State) (c va n : Nat) : Bool := match (s.readVa (agent c) .gl va n .r).2 with | .ok _ => true | .error _ => false

/-- A range of memory that an agent of a context can reach with a permission. -/
def State.reaches (s : State) (c va n : Nat) (acc : Acc) : Bool := (s.checkVa (agent c) va n acc).2.isNone

/-- The conditions of R319 that memory decides. -/
def State.headerMem (s : State) (c : Nat) (h : Header) : List Nat :=
  (if s.reaches c h.code.toNat (12 * h.clen) .x then [] else [2])
    ++ (if (h.sig ≠ 0 && (h.sig.toNat % 8 ≠ 0 || !s.reaches c h.sig.toNat 8 .w))
        || (h.capt ≠ 0 && (h.capt.toNat % 16 ≠ 0 || !s.reaches c h.capt.toNat 1024 .r))
        || (h.psm ≠ 0 && (h.pre.toNat % 4 ≠ 0 || !s.reaches c h.pre.toNat (4 * (bitsOf h.psm.toNat).length) .r))
        || (h.irq && (match s.fns[(s.ctx c).d.fn]? with | some f => f.msix.length | none => 0) ≤ h.ivec) then [6] else [])

/-- The status of a header (R319): the first that applies. -/
def State.headerStatus (s : State) (c : Nat) (bs : List Byte) (h : Header) : Nat :=
  let b := headerBad bs h
  match leastOf (b ++ (if b.contains 1 || b.contains 2 then [] else s.headerMem c h)) with
  | some n => n
  | none => 0

/-- Bytes of a context that an agent reads; a byte that cannot be read makes them all zero (log entry 24). -/
def State.readOr0 (s : State) (c va n : Nat) : List Byte :=
  match (s.readVa (agent c) .gl va n .r).2 with
  | .ok bs => bs
  | .error _ => List.replicate n 0

/-! ### The state of a context (R438) -/

/-- What an event of its kernels and teams makes of a context's state (R438); a pair without a row changes nothing. A token, barrier or
trap park counts as resident. -/
def State.ctxEvent (s : State) (c : Nat) (e : CtxEvent) : State :=
  let ts := s.teams.filter fun t => s.ctxK t.kernel = c
  let evicted := ts.any fun t => match t.st with | .parked .evict _ _ => true | _ => false
  let gone := ts.all (fun t => t.st = .retired) && s.kernels.all fun k => k.ctx ≠ c || k.st ≠ .running
  let st : CtxSt := match (s.ctx c).st, e with
    | .bound, .runs => .runnable
    | .runnable, .placed => .running
    | .running, .retired => if gone then .bound else .running
    | .running, .evicted => .shared
    | .shared, .returned => if evicted then .shared else .running
    | x, _ => x
  s.onCtx c fun x => { x with st := st }

/-- The team is parked: its record stands in the save area. -/
def Team.away (t : Team) : Bool := match t.st with | .parked .. => true | _ => false

/-- The header of a context's save area after a record of it has been written or released (R443): VER and the count of team records. -/
def State.areaHeader (s : State) (c : Nat) : State :=
  let a := (s.ctx c).d.save
  (s.physWrite a (toBytes 8 1) 0).physWrite (a + 16) (toBytes 4 (s.teams.filter fun t => t.away && s.ctxK t.kernel = c).length) 0

/-! ### Acceptance (R323, R325) -/

/-- The scalars that a kernel's groups start with: the preload block's words, in ascending order of the mask's bits. -/
def preloadOf (h : Header) (bs : List Byte) : List (Nat × Word) :=
  (bitsOf h.psm.toNat).mapIdx fun i n => (n, BitVec.ofNat 32 (fieldAt bs (4 * i) 4))

/-- A kernel whose header is at an address enters running, or is rejected with a status. `n` multiplies the grid and `own` are
scalars that replace preloads (R359). -/
def State.startKernel (s : State) (c addr n : Nat) (own : List (Nat × Word)) (launch : Option Launch) (herd : Option (Nat × Nat))
    (role : Role) : State × Nat :=
  let bs := if addr % 256 = 0 then s.readOr0 c addr 256 else List.replicate 256 0
  let h := Header.ofBytes bs
  let h := { h with nteam := h.nteam * n }
  match s.headerStatus c bs h with
  | 0 =>
    let pre := preloadOf h (s.readOr0 c h.pre.toNat (4 * (bitsOf h.psm.toNat).length))
    let k : Kernel :=
      { ctx := c, tag := (match launch with | some l => l.tag | none => 0), st := .running, h := h, preload := pre ++ own,
        next := 0, ret := 0, range0 := none, range1 := none, token := 0, barGen := 0, arrived := [], launch := launch,
        age := s.kernels.length, wait := s.clk, loose := false, saveFull := false, herd := herd, role := role, sigFault := false }
    (({ s with kernels := s.kernels ++ [k] }).ctxEvent c .runs, 0)
  | st => (s, st)

/-! ### The kill of a group (R87, R330) -/

/-- Stores and atomics that a killed group has issued keep their places: those that still waited behind a load of their lane are
made now. Loads, and ordered atomics that wait for the token, are dropped. -/
def State.flushStores (s : State) (gi : Nat) : State :=
  let keep := fun (o : Op) => o.kind.accesses && !o.kind.ordered && o.todo ≠ 0#32 && (match o.kind with
    | .store .. => true | .atom .. => true | .aadd .. => true | _ => false)
  let s := s.onGrp gi fun g => { g with ops := g.ops.filter keep }
  (s.grp gi).ops.foldl (fun s o => (s.stepLanes gi o.id false (lanesOf o.todo)).1) s

/-- The boardings of a group discarded (R274): their entries and their space are free. -/
def State.dropBoards (s : State) (gi : Nat) : State :=
  { s with ring := { s.ring with
      boards := s.ring.boards.map (fun b => if b.gi = gi && b.held then { b with st := .free, ports := false } else b),
      stalled := s.ring.stalled.filter fun x => x.2 ≠ gi } }

/-- A group's slot, registers and blocks are returned (R87). -/
def State.freeGroup (s : State) (gi : Nat) : State :=
  let s := (s.dropBoards gi).onGrp gi fun g =>
    { g with status := .free, ops := [], held := 0, stall := none, hstall := none, parkReq := false, due := none }
  { s with
    acqQ := s.acqQ.filter (fun x => x ≠ gi), slotQ := s.slotQ.filter (fun x => x ≠ gi),
    msgs := s.msgs.map fun m => if (m.op.any fun o => o.1 = gi) then { m with op := none } else m }

/-- A group killed (R87). -/
def State.kill (s : State) (gi : Nat) : State := if (s.grp gi).status = .free then s else (s.flushStores gi).freeGroup gi

/-! ### Retirement and end (R327, R328) -/

/-- A team gives up everything that it holds. Its scratchpad's bytes are zeroed for the next team that takes the place (R154), not now. -/
def Team.retire (t : Team) : Team :=
  { t with st := .retired, gangs := [], reqs := [], bands := [], passes := [] }

/-- The ranges of a kernel bind again once no team of it is parked (R324). -/
def State.rebind (s : State) (kn : Nat) : State :=
  s.onKernel kn fun k => { k with loose := k.loose && s.teams.any fun t => t.kernel = kn && t.away }

/-- `TEAM_RETIRE` (R327): once every group of a team is free. -/
def State.teamRetire (s : State) (t : Nat) : State :=
  match s.teams[t]? with
  | none => s
  | some tm =>
    if tm.st = .retired || !(tm.groups.all fun gi => (s.grp gi).status = .free) then s
    else
      let s := (s.onTeam t Team.retire).rebind tm.kernel
      let s := s.onKernel tm.kernel fun k =>
        if k.st = .running then { k with ret := k.ret + 1, st := if k.ret + 1 = k.h.nteam then .ending 1 else .running } else k
      let c := s.ctxK tm.kernel
      let s := if tm.away then s.areaHeader c else s
      (s.ctxEvent c .returned).ctxEvent c .retired

/-- `GROUP_FREE` (R87): every lane has exited and the counters are 0. -/
def execGroupFree (gi : Nat) (s : State) : Out :=
  .next (
    let g := s.grp gi
    if g.status = .draining && g.ops = [] then (s.freeGroup gi).teamRetire g.team else s)

/-- An open record of a kernel's groups. -/
def State.openRec (s : State) (k : Nat) (r : Rec) : Bool := r.gi.any fun gi => (s.grp gi).kernel = k

/-- The records of a kernel's groups that are open are marked CANCELLED (R331, R435): one that is written and not returned yet is
marked where it stands (log entry 26). -/
def State.cancelRecs (s : State) (k : Nat) : State :=
  let c := s.ctxK k
  let x := s.ctx c
  let mark := fun (r : Rec) => { r with flg := setFld r.flg 2 2 1, answered := true, gi := none }
  let s := x.recs.foldl (fun s r =>
    if s.openRec k r && r.written && !r.answered && (x.fqPi - r.index).toNat ≤ (x.fqPi - x.fqCi).toNat then
      (s.store (agent c) .gl (x.d.fqb.toNat + 64 * (r.index.toNat % 2 ^ x.d.fql) + 3) (toBytes 1 (mark r).flg) none).1
    else s) s
  s.onCtx c fun x => { x with recs := (x.recs.map fun r => if s.openRec k r then mark r else r).filter fun r =>
    !(r.written && r.gi.isNone && r.job.isNone) }

/-- The jobs of a kernel. -/
def State.jobsOf (s : State) (k : Nat) : List Job := s.jobs.filter fun j => j.kernel = k && !j.ended

/-- A kernel cancelled (R330); at a function reset its jobs write no completion record. -/
def State.cancelKernel (s : State) (k : Nat) (records : Bool) : State :=
  match s.kernels[k]? with
  | none => s
  | some kn =>
    if kn.st ≠ .running then s
    else
      let s := s.cancelRecs k
      let s := s.onKernel k fun kn =>
        { kn with st := .cancelling, next := kn.h.nteam, range0 := none, range1 := none, token := kn.tokenEnd, arrived := [] }
      let mine := (List.range s.teams.length).filter fun t => match s.teams[t]? with | some x => x.kernel = k | none => false
      let away := s.teams.any fun t => t.kernel = k && t.away
      let s := mine.foldl (fun s t => match s.teams[t]? with
        | some x => (x.groups.foldl State.kill s).onTeam t Team.retire
        | none => s) s
      let s := if away then s.areaHeader kn.ctx else s
      let s := (s.jobsOf k).foldl (fun s j => s.jobClose j.uid sCANCEL records) s
      s.ctxEvent kn.ctx .returned

/-- `KERNEL_CANCEL_COMPLETE` (R323, R330): every team is freed and every job has ended. DESIGN CHOICE (log entry 95): the interrupt is raised
before the completion entry is posted. -/
def execKernelCancelComplete (k : Nat) (s : State) : Out :=
  .next (match s.kernels[k]? with
    | some kn =>
      if kn.st = .cancelling && s.jobsOf k = [] then
        let s := s.onKernel k fun kn => { kn with st := .cancelled }
        let s := if kn.h.irq then s.raiseCtx kn.ctx kn.h.ivec else s
        match kn.launch with | some l => s.postLaunch kn.ctx l 8 0 | none => s
      else s
    | none => s)

/-- The signal word's access is held by a port in training (R468). -/
def State.signalHeld (s : State) (kn : Kernel) : Bool :=
  kn.h.sig ≠ 0 && match (s.locate (agent kn.ctx) { space := .gl, bytes := 8, acc := .w, align := 1 } kn.h.sig).2 with
    | .ok loc => s.waitsPort loc.through
    | .error _ => false

/-- The signal word (R328): one access, which reaches the host as a `host-coherent` store does. -/
def State.signal (s : State) (kn : Kernel) : State × Bool :=
  if kn.h.sig = 0 then (s, true)
  else
    match s.locate (agent kn.ctx) { space := .gl, bytes := 8, acc := .w, align := 1 } kn.h.sig with
    | (s, .error _) => (s, false)
    | (s, .ok loc) =>
      match s.heldFault (agent kn.ctx) loc.through 8 with
      | some _ => (s, false)
      | none => (s.writeLoc loc.through (toBytes 8 kn.h.sigv.toNat), true)

/-- `CLERK_LAUNCH` (R360): when a herd's final projection completes. -/
def State.clerkLaunch (s : State) (kn : Kernel) : State :=
  match kn.role, (s.ctx kn.ctx).step with
  | .final desc n, some p =>
    (s.startKernel kn.ctx p.clerk n
      [(60, BitVec.ofNat 32 desc), (61, BitVec.ofNat 32 (desc / 2 ^ 32)),
       (62, BitVec.ofNat 32 (match kn.herd with | some h => h.2 | none => 0)), (63, BitVec.ofNat 32 n)] none kn.herd .clerk).1
  | _, _ => s

/-- `KERNEL_END_SEQUENCE` (R328): the next step of the end sequence. -/
def execKernelEndSequence (k : Nat) (s : State) : Out :=
  .next (match s.kernels[k]? with
    | none => s
    | some kn =>
      let goOn := fun (s : State) (n : Nat) => s.onKernel k fun x => { x with st := .ending n }
      match kn.st with
      | .ending 1 =>
        let mine := fun (o : Owner) => o.1 = kn.ctx
        let s := s.writeBack mine
        if s.flushed mine then goOn s 2 else s
      | .ending 2 =>
        if s.signalHeld kn then s else
        match s.signal kn with
        | (s, ok) => goOn (s.onKernel k fun x => { x with sigFault := !ok }) 3
      | .ending 3 => goOn (if kn.h.irq then s.raiseCtx kn.ctx kn.h.ivec else s) 4
      | .ending _ =>
        let s := s.onKernel k fun x => { x with st := .done }
        let s := match kn.launch with | some l => s.postLaunch kn.ctx l (if kn.sigFault then 7 else 0) 0 | none => s
        s.clerkLaunch kn
      | _ => s)

end Sys2Proof.Machine
end

