-- ==== Sys2Proof/Machine/Place.lean ====
section
/-! DEFINITION. Dispatch: ranges, the choice of the next team, placement and partial eviction (R324 to R326, R345, R440, R441). -/
namespace Sys2Proof.Machine

/-! ### Room on a core (R325, R155, R228) -/

/-- Bytes of scratchpad of a team of a kernel (R154). -/
def spUp (scr : Nat) : Nat := (scr + 1023) / 1024 * 1024

/-- What a team needs of a core: group slots, scratchpad bytes, bands. -/
structure Need where
  slots : Nat
  sp : Nat
  bands : Nat
  deriving DecidableEq, Repr

/-- What the teams of a core hold, without those of a list. -/
def State.usedOn (s : State) (core : Nat) (gone : List Nat) : Need :=
  (List.range s.teams.length).foldl (fun (n : Need) t =>
    match s.teams[t]? with
    | none => n
    | some x =>
      if !x.holds || gone.contains t then n
      else
        { slots := if x.core = core then n.slots + (x.groups.filter fun gi => (s.grp gi).status ≠ .free).length else n.slots,
          sp := if x.core = core then n.sp + s.spSize x.kernel else n.sp,
          bands := if x.core / 4 = core / 4 then n.bands + x.bands.length else n.bands }) ⟨0, 0, 0⟩

/-- A team fits on a core when the teams of a list are gone. -/
def State.fits (s : State) (core : Nat) (n : Need) (gone : List Nat) : Bool :=
  let u := s.usedOn core gone
  u.slots + n.slots ≤ Config.groupSlots && (u.sp + n.sp + 65535) / 65536 * 65536 ≤ 448 * 1024 && u.bands + n.bands ≤ 128

/-! ### The order of teams (R324, R345) -/

/-- A team that may be placed: its kernel, a team index to dispatch or the place of a parked team, its index, and whether R191 or
R315 requires it. -/
structure NextTeam where
  kernel : Nat
  parked : Option Nat
  idx : Nat
  must : Bool
  deriving DecidableEq, Repr

/-- The cores of a die. -/
def dieOf (core : Nat) : Nat := core / 256

/-- The team that an order token stands at (R188). -/
def Kernel.tokenTeam (k : Kernel) : Nat := k.token / 2 ^ k.h.w1

/-- A group waits at the grid barrier, in or outside handler mode. -/
def Group.atGrid (g : Group) : Bool := g.cur.any fun w => w.kind.isGrid

/-- Every group of a team waits at the grid barrier or has exited, and one waits (R315). -/
def State.gridStill (s : State) (t : Team) : Bool :=
  (t.groups.any fun gi => (s.grp gi).atGrid) && t.groups.all fun gi => (s.grp gi).atGrid || (s.grp gi).gone

/-- A parked team is able to run (R191, R315, R494): its records are answered; the token is at it or at a team that is resident;
not all its groups wait at a grid barrier that has not advanced. -/
def State.ready (s : State) (t : Team) : Bool :=
  match t.st, s.kernels[t.kernel]? with
  | .parked why _ _, some k =>
    let answered := !((s.ctx k.ctx).recs.any fun r => (r.gi.any fun gi => t.groups.contains gi) && !r.answered)
    answered && !s.gridStill t && (match why with
      | .token => k.tokenTeam = t.idx || s.teams.any fun x => x.kernel = t.kernel && x.idx = k.tokenTeam && x.holds
      | _ => true)
  | _, _ => false

/-- The order token stands at a team of the kernel that is on no core (R191). -/
def State.tokenAway (s : State) (kn : Nat) (k : Kernel) : Bool :=
  k.h.det && k.token < k.tokenEnd && s.teams.all fun x => !(x.kernel = kn && x.idx = k.tokenTeam && x.holds)

/-- The least team index of a kernel that is still to be dispatched, whichever range holds it. -/
def Kernel.lowest (k : Kernel) : Option Nat :=
  let r := fun (o : Option (Nat × Nat)) => match o with | some (lo, hi) => if lo < hi then [lo] else [] | none => []
  leastOf (r k.range0 ++ r k.range1 ++ if k.next < k.h.nteam then [k.next] else [])

/-- A parked team waits on a team that is on no core (R191, R315, R324): for the token, which stands at one, or at the grid barrier, where
groups of one have still to arrive. -/
def State.waitsAway (s : State) (k : Kernel) (t : Team) : Bool :=
  t.away && ((t.ordWait && s.tokenAway t.kernel k)
    || (s.gridStill t && (k.lowest.isSome || s.teams.any fun x => x.kernel = t.kernel && x.away
      && x.groups.any fun gi => !((s.grp gi).atGrid || (s.grp gi).gone))))

/-- The ranges of a kernel stop to bind once a team of it that is parked waits on a team that is on no core (R324). -/
def State.loosen (s : State) (kn : Nat) : State :=
  s.onKernel kn fun k => { k with loose := k.loose || s.teams.any fun t => t.kernel = kn && s.waitsAway k t }

/-- The next team in the order of R324 must be made resident (R191, R315, R345): a team of the kernel is parked for the token, or waits in its
park on a team that is on no core, or stands there at a grid barrier that has not advanced. -/
def State.mustPlace (s : State) (kn : Nat) : Bool :=
  match s.kernels[kn]? with
  | some k => s.teams.any fun t => t.kernel = kn && t.away && (s.waitsAway k t || s.gridStill t
      || match t.st with | .parked .token _ _ => true | _ => false)
  | none => false

/-- The group at a place of token order, if its team has been placed; a group that is free keeps its mark. -/
def State.groupAtToken (s : State) (k : Nat) (pos : Nat) : Option Group :=
  s.groups.find? fun g => g.kernel = k && s.tokenPos g = pos

/-- `ORDER_TOKEN_PASS` (R188, R192): from a group that has its mark and has applied its ordered atomics, with none to replay. -/
def execOrderTokenPass (k : Nat) (s : State) : Out :=
  .next (match s.kernels[k]? with
    | some kn =>
      let go := kn.h.det && kn.token < kn.tokenEnd &&
        match s.groupAtToken k kn.token with
        | some g => g.tokenDone && g.owed = 0#32 && g.nextOrd.isNone
        | none => false
      if go then (s.onKernel k fun kn => { kn with token := kn.token + 1 }).loosen k else s
    | none => s)

/-- The range of a die. -/
def Kernel.range (k : Kernel) (die : Nat) : Option (Nat × Nat) := if die = 0 then k.range0 else k.range1

/-- The teams of a kernel that a die may place, in the order of R324. -/
def State.kernelCands (s : State) (die kn : Nat) : List NextTeam :=
  match s.kernels[kn]? with
  | none => []
  | some k =>
    if k.st ≠ .running || !(s.ctx k.ctx).st.live then []
    else
      let parked := (List.range s.teams.length).filterMap fun ti => match s.teams[ti]? with
        | some t => if t.kernel = kn && s.ready t then some (⟨kn, some ti, t.idx, false⟩ : NextTeam) else none
        | none => none
      let fresh := (if k.loose then k.lowest else match k.range die with
        | some (lo, hi) => if lo < hi then some lo else none
        | none => none).map fun i => (⟨kn, none, i, false⟩ : NextTeam)
      let atGrid := s.teams.any fun t => t.kernel = kn && (match t.st with
        | .parked .grid _ _ => true | .parked .. => s.gridStill t | _ => false)
      let byIdx := fun (a b : NextTeam) => decide (a.idx ≤ b.idx)
      let cs := if atGrid then fresh.toList ++ sortLe byIdx parked else sortLe byIdx (fresh.toList ++ parked)
      match cs with
      | c :: rest => if s.mustPlace kn then { c with must := true } :: rest else cs
      | [] => []

/-- Chains of a function among the last 65,536 of a core are below its issue share (R345, R448). -/
def State.below (s : State) (core fn : Nat) : Bool :=
  let share := match s.fns[fn]? with | some f => f.ish | none => 0
  (s.chainLog.filter fun x => x.1 = core && x.2 = fn).length < share * 256

/-- The effective priority of a kernel (R345). -/
def State.effPri (s : State) (k : Kernel) : Nat := min 7 ((s.ctx k.ctx).d.pri + (s.clk - k.wait) / 65536)

/-- Keys 2 and 3 of R345 for a kernel's teams on a core, smaller first. -/
def State.keys (s : State) (core kn : Nat) : Nat :=
  match s.kernels[kn]? with
  | some k => (if s.below core (s.ctx k.ctx).d.fn then 0 else 8) + (7 - s.effPri k)
  | none => 16

/-- Every team that may be placed on a core's die, best first (R345); teams of one kernel keep their order. -/
def State.cands (s : State) (core : Nat) : List NextTeam :=
  let all := (List.range s.kernels.length).flatMap fun k => s.kernelCands (dieOf core) k
  let key := fun (c : NextTeam) => (if c.must then 0 else 32) + s.keys core c.kernel
  sortLe (fun a b => decide (key a < key b) || (key a = key b && decide (a.kernel ≤ b.kernel))) all

/-- What a candidate needs: a parked team as many group slots as a new one, and the bands of its gangs. -/
def State.need (s : State) (c : NextTeam) : Need :=
  match s.kernels[c.kernel]? with
  | none => ⟨0, 0, 0⟩
  | some k => ⟨2 ^ k.h.w1, spUp k.h.scr, match c.parked.bind fun t => s.teams[t]? with | some t => t.bands.length | none => 0⟩

/-! ### The save area (R443, R445) -/

/-- Bytes of a team record (R443). -/
def Header.recordSize (h : Header) : Nat :=
  let n := spUp h.scr
  (1280 + 2 ^ h.w1 * 16384 + n + (n / 16 + 7) / 8 + h.gangs * 56896 + h.bands * 24592 + 4095) / 4096 * 4096

/-- The record of a parked team, or room kept for one: offset and size. -/
def State.records (s : State) (c : Nat) : List (Nat × Nat) :=
  s.teams.filterMap fun t =>
    match t.st, s.kernels[t.kernel]? with
    | .parked _ off _, some k => if k.ctx = c then some (off, k.h.recordSize) else none
    | _, _ => none

/-- The lowest free place of the save area for a record (R443). -/
def State.savePlace (s : State) (c size : Nat) : Option Nat :=
  let d := (s.ctx c).d
  let first := (4096 + 384 * d.jmax + 4095) / 4096 * 4096
  let rs := s.records c
  let ok := fun o => o + size ≤ d.savesz && rs.all fun r => r.1 + r.2 ≤ o || o + size ≤ r.1
  leastOf ((first :: rs.map fun r => r.1 + r.2).filter ok)

/-- There is room for the record of a team. -/
def State.saveRoom (s : State) (t : Team) : Bool :=
  match s.kernels[t.kernel]? with
  | some k => (s.savePlace k.ctx k.h.recordSize).isSome
  | none => false

/-- The SAVEFULL record of a kernel, once, with the context event (R445, R450). -/
def State.saveFullRec (s : State) (kn : Nat) : State :=
  match s.kernels[kn]? with
  | some k =>
    if k.saveFull then s
    else
      ((s.onKernel kn fun k => { k with saveFull := true }).post k.ctx
        { Rec.blank with cause := cMACHINE, detail := 4, kind := 5, ktag := k.tag }).raiseCtx k.ctx (s.ctx k.ctx).d.cev
  | none => s

/-! ### Eviction (R440, R441) -/

/-- A team is asked to leave its core: its groups park at their next packet boundaries (R442). -/
def State.leave (s : State) (t : Nat) (why : ParkWhy) : State :=
  match s.teams[t]? with
  | none => s
  | some x =>
    let s := s.onTeam t fun x => { x with st := .leaving why }
    x.groups.foldl (fun s gi => s.onGrp gi fun g => { g with parkReq := true }) s

/-- R191 or R315 requires a resident team to stay: the order token is at it, or the grid's barrier waits for a group of it. -/
def State.needed (s : State) (t : Team) : Bool :=
  match s.kernels[t.kernel]? with
  | some k => (k.h.det && k.token < k.tokenEnd && k.tokenTeam = t.idx)
      || (k.arrived ≠ [] && t.groups.any fun gi => !(s.grp gi).gone && !(s.grp gi).atGrid)
  | none => false

/-- The teams of a core that may be evicted for a candidate, in the order of R441. -/
def State.victims (s : State) (core : Nat) (c : NextTeam) : List Nat :=
  let cx := s.ctxK c.kernel
  let ok : Nat → Bool := fun ti => match s.teams[ti]? with
    | some t => t.core = core && t.st = .resident && s.ctxK t.kernel ≠ cx && s.keys core c.kernel < s.keys core t.kernel
        && (s.ctx (s.ctxK t.kernel)).d.qnt * 1024 ≤ t.quant && !s.needed t && (s.ctx (s.ctxK t.kernel)).st ≠ .saving
    | none => false
  let pri : Nat → Nat := fun ti => match s.teams[ti]? with | some t => (s.ctx (s.ctxK t.kernel)).d.pri | none => 0
  let at_ : Nat → Nat := fun ti => match s.teams[ti]? with | some t => t.placed | none => 0
  sortLe (fun a b => decide (pri a < pri b) || (pri a = pri b && decide (at_ b ≤ at_ a)))
    ((List.range s.teams.length).filter ok)

/-- Teams of a core that are leaving it; a trapped team that stays for want of room in the save area is not (R445). -/
def State.leaving (s : State) (core : Nat) : List Nat :=
  (List.range s.teams.length).filter fun ti => match s.teams[ti]? with
    | some t => t.core = core && (match t.st with | .leaving .trap => s.saveRoom t | .leaving _ => true | _ => false)
    | none => false

/-- The shortest prefix of a list that makes room. -/
def State.prefixFor (s : State) (core : Nat) (n : Need) (vs : List Nat) : Option (List Nat) :=
  ((List.range vs.length).map fun i => vs.take (i + 1)).find? fun p => s.fits core n p

/-- The record of a team finds room. -/
def State.savable (s : State) (ti : Nat) : Bool := match s.teams[ti]? with | some t => s.saveRoom t | none => false

/-- The eviction that a candidate asks of the cores of a die, of the victims that pass a test: from the core with the shortest prefix, the
lower core on a tie (R441). -/
def State.evictPlan (s : State) (die : Nat) (c : NextTeam) (ok : Nat → Bool) : Option (Nat × List Nat) :=
  bestOf (fun (a b : Nat × List Nat) => decide (a.2.length < b.2.length))
    ((List.range 256).filterMap fun i =>
      let core := die * 256 + i
      (s.prefixFor core (s.need c) ((s.victims core c).filter ok)).map fun p => (core, p))

/-- The teams that an eviction passes over for want of room (R445): those before the last of the chosen on their core; where no core can make
room so, those without room that the eviction would have taken. -/
def State.passedOver (s : State) (die : Nat) (c : NextTeam) : List Nat :=
  match s.evictPlan die c s.savable with
  | some (core, p) =>
    let vs := s.victims core c
    (vs.take (match p.getLast? with | some t => vs.idxOf t | none => 0)).filter fun t => !s.savable t
  | none => match s.evictPlan die c fun _ => true with
    | some (_, p) => p.filter fun t => !s.savable t
    | none => []

/-- Eviction for a candidate that fits on no core of its die (R441): a team whose record finds no room is passed over, with its SAVEFULL
record (R445). Nothing more is asked to leave while teams that make room are leaving. -/
def State.evictFor (s : State) (die : Nat) (c : NextTeam) : State :=
  if (List.range 256).any fun i =>
      s.leaving (die * 256 + i) ≠ [] && s.fits (die * 256 + i) (s.need c) (s.leaving (die * 256 + i)) then s
  else
    let t := (s.passedOver die c).foldl (fun t i => match s.teams[i]? with | some x => t.saveFullRec x.kernel | none => t) s
    match s.evictPlan die c s.savable with
    | some p => p.2.foldl (fun t i => t.leave i .evict) t
    | none => t

/-! ### Placement (R325, R88, R284) -/

/-- A group as it starts (R88, R325). -/
def Kernel.startGroup (k : Kernel) (kn ti idx core team : Nat) : Group :=
  let g := { Group.fresh kn ti idx core (mkPc k.h.entry 0) with nmode := if k.h.ovp then 1 else 0 }
  let g := k.preload.foldl (fun g p => g.setS p.1 p.2) g
  if k.h.vpre then
    let wid := fun (l : Fin 32) => (l.val + 32 * (idx + 2 ^ k.h.w1 * team)) % 2 ^ 64
    (g.setV 0 (Vector.ofFn fun l => BitVec.ofNat 32 (wid l)) Tag.spatial).setV 1
      (Vector.ofFn fun l => BitVec.ofNat 32 (wid l / 2 ^ 32)) Tag.spatial
  else g

/-- The capability table of a team (R284): all INVALID where the template cannot be read. -/
def State.template (s : State) (k : Kernel) : State × Vector (BitVec 128) 64 :=
  if k.h.capt = 0 then (s, Vector.replicate 64 0)
  else
    match s.readVa (agent k.ctx) .gl k.h.capt.toNat 1024 .r with
    | (s, .error _) => (s, Vector.replicate 64 0)
    | (s, .ok bs) => (s, Vector.ofFn fun i => loadCap (s.ctx k.ctx) (BitVec.ofNat 128 (fieldAt bs (16 * i.val) 16)))

/-- A kernel's template lies where a port in training holds its reading (R468). -/
def State.templateHeld (s : State) (kn : Nat) : Bool :=
  (s.kernels[kn]?).any fun k => k.h.capt ≠ 0 && s.vaHeld (agent k.ctx) .gl k.h.capt.toNat 1024

/-- A team index leaves the range that holds it. -/
def Kernel.taken (k : Kernel) (idx : Nat) : Kernel :=
  let cut := fun (o : Option (Nat × Nat)) => match o with
    | some (lo, hi) => if lo = idx && lo < hi then some (lo + 1, hi) else o
    | none => none
  { k with range0 := cut k.range0, range1 := cut k.range1, next := if k.next = idx then idx + 1 else k.next }

/-- A team placed on a core. -/
def State.placeTeam (s : State) (kn idx core : Nat) : State :=
  match s.kernels[kn]? with
  | none => s
  | some k =>
    match s.template k with
    | (s, caps) =>
      let ti := s.teams.length
      let n := s.groups.length
      let gs := (List.range (2 ^ k.h.w1)).map fun i => { k.startGroup kn ti i core idx with born := s.clk }
      let t : Team :=
        { kernel := kn, idx := idx, st := .resident, core := core, groups := (List.range (2 ^ k.h.w1)).map (n + ·), sp := [],
          spEmpty := [], spPoison := [], caps := caps, gangs := [], reqs := [], bands := [], passes := [], placed := s.clk,
          quant := 0 }
      let s := { s with groups := s.groups ++ gs, teams := s.teams ++ [t] }
      (s.onKernel kn fun k => { k.taken idx with wait := s.clk }).ctxEvent k.ctx .placed

/-- A die asks for a range of a kernel: its range has no team left to dispatch, and it has room (R324). -/
def State.wantsRange (s : State) (die : Nat) (kn : Kernel) : Bool :=
  let used := match kn.range die with | some (lo, hi) => hi ≤ lo | none => true
  let room := (List.range 256).any fun i => s.fits (die * 256 + i) ⟨2 ^ kn.h.w1, spUp kn.h.scr, 0⟩ []
  kn.st = .running && (s.ctx kn.ctx).st.live && !kn.loose && used && kn.next < kn.h.nteam && room && die < 2

/-- `DIE_RANGE_TAKE` (R324): a die that asks for a range of a kernel takes the next; die 0 is served first. -/
def execDieRangeTake (die k : Nat) (s : State) : Out :=
  .next (match s.kernels[k]? with
    | none => s
    | some kn =>
      if s.wantsRange die kn && !(die = 1 && s.wantsRange 0 kn) then
        let r := some (kn.next, min (kn.next + kn.h.chunk) kn.h.nteam)
        s.onKernel k fun x =>
          { x with next := min (x.next + x.h.chunk) x.h.nteam,
                   range0 := if die = 0 then r else x.range0, range1 := if die = 0 then x.range1 else r }
      else s)

/-- The candidate that a place on a core goes to: the first in order that fits there, but none while a better one that fits on
no core of the die waits for teams to leave. -/
def State.chosen (s : State) (core : Nat) : Option NextTeam :=
  if Config.cores ≤ core then none
  else
    let die := dieOf core
    let hold := (List.range 256).any fun i => s.leaving (die * 256 + i) ≠ []
    match s.cands core with
    | [] => none
    | c :: cs => if s.fits core (s.need c) [] then some c else if hold then none else cs.find? fun c => s.fits core (s.need c) []

/-- `TEAM_PLACEMENT` (R325, R345): the next team starts on a core. Where the best candidate fits on no core of the die, the
die evicts for it (R441). -/
def execTeamPlacement (core : Nat) (s : State) : Out :=
  .next (
    let die := dieOf core
    match s.cands core with
    | [] => s
    | c :: _ =>
      if core < Config.cores && (List.range 256).all fun i => !s.fits (die * 256 + i) (s.need c) [] then s.evictFor die c
      else
        match s.chosen core with
        | some x => if x.parked.isNone && !s.templateHeld x.kernel then s.placeTeam x.kernel x.idx core else s
        | none => s)

end Sys2Proof.Machine
end

