-- ==== Sys2Proof/Machine/Wave.lean ====
section
/-! DEFINITION. The Haar words: class WAVE (R239 to R252). Their results are formed when they issue and written when they
complete; a stored segment is read and written when its word issues (log entry 5). -/
namespace Sys2Proof.Machine

/-- The registers of the one-word forms. -/
def specWv (h : Hdr) (d a : BitVec 6) : WordSpec := { h := h, pipe := .m, vr := [a.toNat], vw := [d.toNat], cnt := some .tl }

/-- A WAVE operation started: its results and the flags of its issuing lanes (R244, R245). -/
def State.startWave (s : State) (c : Wctx) (q : Bool) (outs : List (Nat × PerLane Word × Tag))
    (fl : PerLane (BitVec 5)) (dv : List Nat) : State :=
  s.start c .tl 0 (.wave outs
    (Vector.ofFn fun l => if q || !c.lanes.getLsbD l then 0#5 else fl[l])) dv []

/-- The tag of a Haar result whose LIVE is taken from its values (R240). -/
def valueTag (l : Nat) (x : Bool) (m : Nat) (v : PerLane Word) : Tag := ⟨mkDesc l x m, liveOf l (m = mSTR) v⟩

/-- `WVF` (R245). -/
def execWvf (h : Hdr) (m : Bool) (d a : BitVec 6) (u sc x : Bool) (l : BitVec 3) (s : State) : Out :=
  .next (word (specWv h d a) s fun c s =>
    let k : StepKind := if u then .sum else if sc then .str else .avg
    let r := forwardReg k c.snap.ovp l.toNat (c.snap.rows a.toNat)
    let t := if u then Tag.spatial else valueTag l.toNat x (if sc then mSTR else 0) r.1
    .ok (s.startWave c m [(d.toNat, r.1, t)] r.2 [d.toNat]))

/-- `WVI` (R246). -/
def execWvi (h : Hdr) (m : Bool) (d a : BitVec 6) (s : State) : Out :=
  .next (word (specWv h d a) s fun c s =>
    let r := inverseReg (c.snap.tag a.toNat) c.snap.ovp (c.snap.vreg a.toNat)
    .ok (s.startWave c m [(d.toNat, r.1, Tag.spatial)] r.2 [d.toNat]))

/-- A register thresholded segment by segment (R242). -/
def thresholdReg (th : Word) (l : Nat) (v : PerLane Word) : PerLane Word :=
  Vector.ofFn fun i =>
    let o := i.val % 2 ^ l
    let mags := ((v.toList.drop (i.val - o)).take (2 ^ l)).map fun w => rowMag [w]
    if o = 0 || survives th mags o then v[i] else 0

/-- A threshold register's MODE 3 (R242). -/
def modeBad (th : Word) : Bool := th.extractLsb' 30 2 = 3#2

/-- A word that thresholds by a register with MODE 3 is ILLEGAL (FUNC) at issue (R242). -/
def thresholdBad (c : Wctx) (n : BitVec 3) : Option Nat := if modeBad (c.snap.wth.getD n.toNat 0) then some 0x02 else none

/-- `WTHR` (R247). -/
def execWthr (h : Hdr) (d a : BitVec 6) (n : BitVec 3) (s : State) : Out :=
  .next (wordOwn (specWv h d a) (fun c _ => thresholdBad c n) s fun c s =>
    let t := c.snap.tag a.toNat
    let th := c.snap.wth.getD n.toNat 0
    if c.lanes = 0#32 then .ok s
    else if !t.haar || descM t.desc = mSTR then .raise cDOMAIN 4
    else
      let v := thresholdReg th (descL t.desc) (c.snap.vreg a.toNat)
      .ok (s.startWave c true [(d.toNat, v, valueTag (descL t.desc) (descX t.desc) (n.toNat + 1) v)]
        (Vector.replicate 32 0) [d.toNat]))

/-! ### Stored segments (R243, R248 to R250) -/

/-- The bytes of a slot (R243). -/
def slotBytes (l rw : Nat) : Nat := 16 * ((8 + 2 ^ l * 4 * rw + 15) / 16)

/-- The place of a failure in the order of checks of R250. -/
def checkPlace (f : Nat × Nat) : Nat :=
  if f.1 = cALIGN then 1 else if f = (cPROT, 2) then 2 else if f = (cPROT, 3) then 3 else if f.1 = cPAGE then 4 else if f.1 = cPROT then 5
  else 6

/-- The failure of an extent of granules (R250): each check over the whole extent before the next, with no access made. -/
def State.extentFault (s : State) (u : Who) (sp : Space) (acc : Acc) (base n : Nat) : State × Option (Nat × Nat × Nat) :=
  (List.range n).foldl (fun r i =>
    let a := base + 16 * i
    match r.1.locate u { space := sp, bytes := 16, acc := acc } (BitVec.ofNat 64 a) with
    | (s, .error f) =>
      (s, match r.2 with
        | some g => if checkPlace f < checkPlace (g.1, g.2.1) then some (f.1, f.2, a) else some g
        | none => some (f.1, f.2, a))
    | (s, .ok _) => (s, r.2)) (s, none)

/-- The first of some granules of an extent whose access fails with its data (R160, R250). -/
def State.lateScan (s : State) (u : Who) (sp : Space) (acc : Acc) (base : Nat) (is : List Nat) : State × Option (Nat × Nat × Nat) :=
  is.foldl (fun r i =>
    let a := base + 16 * i
    if r.2.isSome then r
    else
      match r.1.locate u { space := sp, bytes := 16, acc := acc } (BitVec.ofNat 64 a) with
      | (s, .ok loc) => (s, (s.heldFault u loc 16).map fun f => (f.1, f.2, a))
      | (s, .error f) => (s, some (f.1, f.2, a))) (s, none)

/-- Both scans of an extent: its checks, then the data of the granules accessed. -/
def State.scanExtent (s : State) (u : Who) (sp : Space) (acc : Acc) (base n : Nat) (is : List Nat) : State × Option (Nat × Nat × Nat) :=
  match s.extentFault u sp acc base n with
  | (s, some f) => (s, some f)
  | (s, none) => s.lateScan u sp acc base is

/-- The space and base of a stored run (R248). -/
def slotBase (c : Wctx) (mode : BitVec 2) (b : BitVec 6) : Space × Nat :=
  if mode = 0#2 then (.gl, (c.snap.spair b.toNat).toNat) else (.sp, (c.snap.sreg b.toNat).toNat)

/-- A coefficient register of `stw`: as it stands, or transformed (R248), with the flags of its steps. -/
def coeffReg (g : Group) (l : Nat) (x sc : Bool) (n : Nat) : PerLane Word × PerLane (BitVec 5) :=
  let t := g.tag n
  if t.haar && descL t.desc = l && descX t.desc == x && ((descM t.desc = mSTR) == sc) then (g.vreg n, Vector.replicate 32 0#5)
  else forwardReg (if sc then .str else .avg) g.ovp l (g.rows n)

/-- A detail row holds a non-zero word (R248). -/
def rowNonzero (sc : Bool) (ws : List Word) : Bool := ws.any fun w => if sc then w ≠ 0#32 else w &&& 0x7fffffff#32 ≠ 0#32

/-- The slot of a segment whose rows are `rows` (R243, R248). -/
def slotImage (desc : Byte) (l rw : Nat) (th : Option Word) (sc : Bool) (rows : List (List Word)) : List Byte :=
  let mags := rows.map rowMag
  let keep := (List.range (2 ^ l)).filter fun o =>
    o = 0 || ((match th with | some t => survives t mags o | none => true) && rowNonzero sc (rows.getD o []))
  let hdr := desc.toNat * 2 ^ 24 + keep.length * 2 ^ 18 + (rw - 1) * 2 ^ 14
  let mask := (keep.map fun o => 2 ^ o).foldl (· + ·) 0
  let body := toBytes 4 hdr ++ toBytes 4 mask ++ keep.flatMap fun o => (rows.getD o []).flatMap fun w => toBytes 4 w.toNat
  body ++ List.replicate (slotBytes l rw - body.length) 0

/-- The registers of `stw` and `ldw`. -/
def specStw (h : Hdr) (a b : BitVec 6) (mode : BitVec 2) (rw : BitVec 4) : WordSpec :=
  { h := h, pipe := .m, vr := runOf a.toNat (rw.toNat + 1), sr := if mode = 0#2 then pairOf b else [b.toNat],
    cnt := some .tl }
def specLdw (h : Hdr) (d b : BitVec 6) (mode : BitVec 2) (rw : BitVec 4) : WordSpec :=
  { h := h, pipe := .m, vw := runOf d.toNat (rw.toNat + 1), sr := if mode = 0#2 then pairOf b else [b.toNat],
    cnt := some .tl }

/-- A stored-segment word fails: every issuing lane is faulted at it and returns to it; it completes with no result
(R250). -/
def State.waveFail (s : State) (c : Wctx) (dv : List Nat) (f : Nat × Nat × Nat) : State :=
  (s.startWave c true [] (Vector.replicate 32 0) dv).deferAll c.gi c.pc c.hm true
    ((lanesOf c.lanes).map fun l => (l.val, f.1, f.2.1, BitVec.ofNat 64 f.2.2))

/-- A slot as `ldw` reads it (R243, R250): header, mask, rows. -/
def slotHeader (bs : List Byte) : Nat × Nat := (ofBytes (bs.take 4), ofBytes ((bs.drop 4).take 4))

/-- What is wrong with a slot's header (R250): 3 a reserved or spatial DESC, 5 an inconsistency. -/
def slotFault (l rw : Nat) (desc0 : Nat) (hm : Nat × Nat) : Option Nat :=
  let desc := fld hm.1 31 24
  if descReserved (BitVec.ofNat 8 desc) || desc / 32 = 0 then some 3
  else if fld hm.1 17 14 + 1 ≠ rw || desc ≠ desc0 || fld hm.1 23 18 ≠ popN 32 hm.2 || hm.2 % 2 = 0
      || 2 ^ 2 ^ l ≤ hm.2 || fld hm.1 13 0 ≠ 0 then some 5
  else none

/-- Word r of the row at offset o of a slot; 0 where the row is not stored (R249). -/
def slotWord (bs : List Byte) (rw mask o r : Nat) : Word :=
  if mask.testBit o then BitVec.ofNat 32 (ofBytes ((bs.drop (8 + 4 * (rw * popN o mask + r))).take 4)) else 0

/-- The bytes of a stored run written, after the checks of its whole extent (R248, R250). -/
def State.storeSegs (s : State) (u : Who) (r : SegReq) :
    State × Except (Nat × Nat × Nat) (List (Nat × PerLane Word × Tag)) :=
  match s.scanExtent u r.space .w r.base r.n (List.range r.n) with
  | (s, some f) => (s, .error f)
  | (s, none) => ((s.writeVa u r.space r.base r.img none).1, .ok [])

/-- A stored run read, after its checks: the registers that it fills (R249, R250). -/
def State.loadSegs (s : State) (u : Who) (q : SegReq) :
    State × Except (Nat × Nat × Nat) (List (Nat × PerLane Word × Tag)) :=
  match s.scanExtent u q.space .r q.base 1 [0] with
  | (s, some f) => (s, .error f)
  | (s, none) =>
    match s.readVa u q.space q.base 16 .r with
    | (s, .error f) => (s, .error f)
    | (s, .ok g0) =>
      let desc := fld (slotHeader g0).1 31 24
      if descReserved (BitVec.ofNat 8 desc) || desc / 32 = 0 then (s, .error (cDOMAIN, 3, q.base))
      else
        let L := desc / 32
        let z := slotBytes L q.w
        let n := 32 / 2 ^ L
        let at_ := fun (i : Nat) => i * z / 16
        match s.scanExtent u q.space .r q.base (n * z / 16) ((List.range n).map at_) with
        | (s, some f) => (s, .error f)
        | (s, none) =>
          let (s, hs) := (List.range n).foldl (fun r i =>
            match r.1.readVa u q.space (q.base + i * z) 16 .r with
            | (s, .ok bs) => (s, r.2 ++ [bs])
            | (s, .error _) => (s, r.2 ++ [[]])) (s, [])
          let bad := (List.range n).filterMap fun i =>
            (slotFault L q.w desc (slotHeader (hs.getD i []))).map fun e => (cDOMAIN, e, q.base + i * z)
          match bad with
          | f :: _ => (s, .error f)
          | [] =>
            let len := fun (i : Nat) => 8 + 4 * q.w * popN 32 (slotHeader (hs.getD i [])).2
            match s.lateScan u q.space .r q.base ((List.range n).flatMap fun i =>
                (List.range ((len i + 15) / 16)).map fun k => at_ i + k) with
            | (s, some f) => (s, .error f)
            | (s, none) =>
              let (s, slots) := (List.range n).foldl (fun r i =>
                match r.1.readVa u q.space (q.base + i * z) (len i) .r with
                | (s, .ok bs) => (s, r.2 ++ [bs])
                | (s, .error _) => (s, r.2 ++ [[]])) (s, [])
              let mask := fun (i : Nat) => (slotHeader (slots.getD i [])).2
              let live : Lanes := BitVec.ofNat 32
                (((List.range n).map fun i => mask i * 2 ^ (i * 2 ^ L)).foldl (· + ·) 0)
              (s, .ok ((List.range q.w).map fun r =>
                (q.d + r, Vector.ofFn fun (l : Fin 32) =>
                  slotWord (slots.getD (l.val / 2 ^ L) []) q.w (mask (l.val / 2 ^ L)) (l.val % 2 ^ L) r,
                  (⟨BitVec.ofNat 8 desc, live⟩ : Tag))))

/-- The accesses of a stored segment. -/
def State.doSegs (s : State) (u : Who) (r : SegReq) : State × Except (Nat × Nat × Nat) (List (Nat × PerLane Word × Tag)) :=
  if r.load then s.loadSegs u r else s.storeSegs u r

/-- A stored segment issues: its accesses follow the group's earlier ones. Behind an earlier word its issue is held; behind an earlier slot of
its own chain, or of a host port in training (R468), it issues, and its accesses are made when they may be (R32, R251; log entry 53). -/
def segWord (c : Wctx) (r : SegReq) (dv : List Nat) (s : State) : Res :=
  if c.groupBlocked then if c.priorBlocked then .hold c.blockKind else .ok (s.start c .tl 0 (.seg r) dv [])
  else
    match s.doSegs (s.whoOf c.snap) r with
    | (t, .error f) => .ok (if f.1 = cHOLD then s.start c .tl 0 (.seg r) dv [] else t.waveFail c dv f)
    | (s, .ok outs) => .ok (s.startWave c r.quiet outs r.flags dv)

/-- `STW` (R248, R250). -/
def execStw (h : Hdr) (m : Bool) (a b : BitVec 6) (mode : BitVec 2) (l : BitVec 3) (x sc t : Bool) (n : BitVec 3)
    (rw : BitVec 4) (s : State) : Out :=
  .next (wordOwn (specStw h a b mode rw) (fun c _ => if t then thresholdBad c n else none) s fun c s =>
    let th := c.snap.wth.getD n.toNat 0
    if c.lanes = 0#32 then .ok s
    else
      let L := l.toNat
      let w := rw.toNat + 1
      let sb := slotBase c mode b
      let k := 32 / 2 ^ L * slotBytes L w / 16
      let cs := (runOf a.toNat w).map fun r => coeffReg c.snap L x sc r
      let desc := mkDesc L x (if sc then mSTR else if t then n.toNat + 1 else 0)
      let img := (List.range (32 / 2 ^ L)).flatMap fun g =>
        slotImage desc L w (if t then some th else none) sc
          ((List.range (2 ^ L)).map fun o => cs.map fun v => v.1.toList.getD (g * 2 ^ L + o) 0)
      let fl := Vector.ofFn fun i => cs.foldl (fun f v => f ||| v.2[i]) 0#5
      segWord c ⟨sb.1, sb.2, false, 0, w, img, k, m, fl⟩ [] s)

/-- `LDW` (R249, R250). -/
def execLdw (h : Hdr) (d b : BitVec 6) (mode : BitVec 2) (rw : BitVec 4) (s : State) : Out :=
  .next (word (specLdw h d b mode rw) s fun c s =>
    let w := rw.toNat + 1
    let sb := slotBase c mode b
    segWord c ⟨sb.1, sb.2, true, d.toNat, w, [], 0, true, Vector.replicate 32 0⟩ (runOf d.toNat w) s)

/-- A stored segment that waited behind its chain makes its accesses (R32, R251): its results stand in its operation, and what waited behind
it follows. -/
def State.segStep (s : State) (gi id : Nat) : State :=
  match (s.grp gi).op? id with
  | none => s
  | some o => match o.kind with
    | .seg r =>
      if o.done || !(s.grp gi).accessed id || !s.onCore gi then s
      else
        let now := fun (s : State) (k : OpKind) => s.onGrp gi fun g => g.onOp id fun o => { o with kind := k }
        match s.doSegs (s.whoOf (s.grp gi)) r with
        | (t, .error f) =>
          if f.1 = cHOLD then s else
          (((now t (.wave [] (Vector.replicate 32 0))).deferAll gi o.pc o.hm true
            ((lanesOf o.lanes).map fun l => (l.val, f.1, f.2.1, BitVec.ofNat 64 f.2.2))).pump gi).settle gi false
        | (s, .ok outs) =>
          ((now s (.wave outs (Vector.ofFn fun l => if r.quiet || !o.lanes.getLsbD l then 0#5 else r.flags[l]))).pump gi).settle gi false
    | _ => s

/-- `WAVE_COMPLETE` (R244, R426): the results and flags of a WAVE operation, in the issue order of its group. -/
def execWaveComplete (gi id : Nat) (s : State) : Out :=
  .next (match (s.grp gi).op? id with
    | some o => match o.kind with
      | .wave outs fl =>
        if o.done then s
        else
          let s := s.onGrp gi fun g => outs.foldl (fun g x => g.setV x.1 x.2.1 x.2.2) g
          (flagLanes s gi o.lanes o.pc o.hm fun l => fl[l]).complete gi id
      | .seg _ => s.segStep gi id
      | _ => s
    | none => s)

end Sys2Proof.Machine
end

