-- ==== Sys2Proof/Machine/Park.lean ====
section
/-! DEFINITION. Parking a team and resuming it: the waits for a token and for the grid barrier (R191, R315), the park (R442), the
team record (R443 to R445), resumption (R494, R444, R420). -/
namespace Sys2Proof.Machine

/-! ### A context that fails (R438) -/

/-- A context moves to faulted: its kernels are cancelled, the CTXERR record is posted, the context event raised. -/
def State.contextFault (s : State) (c : Nat) (record : Bool) : State :=
  let x := s.ctx c
  if x.st = .free || x.st = .resetting || x.st = .faulted then s
  else
    let s := (List.range s.kernels.length).foldl (fun s k => if s.ctxK k = c then s.cancelKernel k true else s) s
    let s := s.onCtx c fun x => { x with st := .faulted }
    let s := if record then s.post c { Rec.blank with cause := cMACHINE, detail := 5, kind := 5 } else s
    s.raiseCtx c (s.ctx c).d.cev

/-! ### Waits that give a core up (R191, R315) -/

/-- A team is asked to park where its record finds room; else the kernel has its SAVEFULL record (R445). -/
def State.askPark (s : State) (t : Nat) (why : ParkWhy) : State :=
  match s.teams[t]? with
  | none => s
  | some x =>
    if s.saveRoom x then s.leave t why
    else s.saveFullRec x.kernel

/-- A group of a team waits for the order token (R191). -/
def State.wantsToken (s : State) (t : Team) : Bool :=
  t.groups.any fun gi => (s.grp gi).nextOrd.isSome || (s.grp gi).cur.any fun w => w.kind = .order

/-- A team waits for a token that is at a team which is not on a core (R191). -/
def State.tokenWait (s : State) (t : Team) : Bool :=
  match s.kernels[t.kernel]? with
  | some k =>
    t.st = .resident && s.tokenAway t.kernel k && s.wantsToken t && t.groups.all fun gi => (s.grp gi).gone || (s.grp gi).cur.isSome || (s.grp gi).nextOrd.isSome
  | none => false

/-- `TOKEN_PARK` (R191). -/
def execTokenPark (t : Nat) (s : State) : Out :=
  .next (match s.teams[t]? with
    | some x => if s.tokenWait x then s.askPark t .token else s
    | none => s)

/-- A team of a kernel needs room (R315): it is still to be dispatched, or parked for another reason and able to run. -/
def State.needsRoom (s : State) (kn : Nat) : Bool :=
  (match s.kernels[kn]? with | some k => k.lowest.isSome | none => false)
    || s.teams.any fun t => t.kernel = kn && s.ready t && (match t.st with | .parked .grid _ _ => false | _ => true)

/-- A team whose groups have all arrived or exited, while a team of the grid needs room (R315). -/
def State.gridWait (s : State) (t : Team) : Bool :=
  t.st = .resident && s.gridStill t && s.needsRoom t.kernel

/-- `GRID_BARRIER_PARK` (R315). -/
def execGridBarrierPark (t : Nat) (s : State) : Out :=
  .next (match s.teams[t]? with
    | some x => if s.gridWait x then s.askPark t .grid else s
    | none => s)

/-! ### The park (R442) -/

/-- A group stands at a packet boundary, or its issue is held. DESIGN CHOICE (log entry 50): a sleeping group parks at once, at whatever
slot its PC stands. -/
def Group.atBoundary (g : Group) : Bool :=
  match g.status with
  | .running | .handler =>
    match g.issuePc with
    | none => true
    | some pc => slotOf pc = 0 || g.cur.isSome
  | _ => true

/-- An ordered atomic of which some lanes are applied. -/
def Op.begun (o : Op) : Bool := o.kind.ordered && o.todo ≠ 0#32 && o.todo ≠ o.lanes

/-- An operation lets its group park (R442): loads, returning atomics, TILE and WAVE words and what writes registers must have
completed, but for accesses behind a lane that waits for its granule, and band words and stored segments behind a matrix operation or such an
access. -/
def Group.parkable (g : Group) (token : Bool) (o : Op) : Bool :=
  o.done || match o.kind with
  | .load .. => o.todo ≠ 0#32
  | .atom .. =>
    if o.kind.ordered && o.todo ≠ 0#32 then !(token && (match g.ordLanes o with | l :: _ => g.turn o.id l | [] => false))
    else o.cls ≠ .ld || o.todo ≠ 0#32
  | .tile acc fn => !g.tileTurn acc o.id fn
  | .wave .. => false
  | .seg _ => !g.accessed o.id
  | .regs .. => false
  | .catld .. => false
  | _ => true

/-- A team's groups can park now. -/
def State.canPark (s : State) (t : Team) : Bool :=
  t.groups.all fun gi =>
    let g := s.grp gi
    g.status = .free || (g.atBoundary && g.ops.all (g.parkable (s.holdsToken g)))

/-- An ordered atomic that no lane has applied is cancelled whole (R191): all its lanes return to it, also those that have waited or
exited since (log entry 54), its region is undone, its registers wait for nothing, and a token-done mark that an exit set is taken back. One
that a handler issued opened no region: the group returns to handler mode at it, and the lanes stay as the trap left them (R424). -/
def Group.cancelOrd (g : Group) (o : Op) : Group :=
  if !(o.kind.ordered && o.todo ≠ 0#32 && !o.begun) || o.done then g
  else
    let regs := match o.kind with | .atom _ n _ _ _ true d _ _ _ => runOf d (n / 4) | _ => []
    let g := { g with
      tokenDone := false, ops := g.ops.filter (fun x => x.id ≠ o.id),
      pendV := regs.foldl (fun p n => p.setIfInBounds n none) g.pendV }
    if o.hm then { g with hstall := none, hpc := o.pc, status := (match g.status with | .parked _ => .parked true | .free => .free | _ => .handler) }
    else
      let g := g.onLanes o.lanes fun _ x =>
        { x with pcv := o.pc, rpc := o.pc, st := if x.st = .faulted then .faulted else .runnable,
                 wt := 15 }
      { g with stall := none, rgn := o.rgn0, status := (match g.status with | .draining => .running | x => x) }

/-- A wait at a park (R442): `acq`, `board`, `bwait` and `fence.win` are issued again; the others are saved. -/
def keepWait (o : Option Stall) : Option Stall :=
  o.filter fun t => t.resume.isSome || match t.kind with
    | .acq _ => false | .board => false | .bwait .. => false | .fenceWin _ => false | .slot .. => false | _ => true

/-- The lanes that wait for a granule give their accesses up and make them again at resumption, after every word that they have issued (R170,
R184). -/
def Group.reissue (g : Group) : Group :=
  g.ops.foldl (fun g o =>
    if o.kind.waitsFull && o.todo ≠ 0#32 then
      { g with ops := g.ops.map (fun x => if x.id = o.id then { x with id := g.nextOp } else x), nextOp := g.nextOp + 1 }
    else g) g

/-- What waited behind an access that a park has given up takes its place, an ordered atomic that has begun among it, and what must be complete
at a park completes (R442). -/
def State.placeAll (s : State) (gi : Nat) : State :=
  let s := s.pump gi
  let s := if (s.grp gi).nextOrd.any Op.begun then (List.range 32).foldl (fun s _ => (s.ordStep gi).1) s else s
  (s.grp gi).ops.foldl (fun s o =>
    match o.kind with
    | .load .. => s.arrive gi o.id
    | .atom .. => if o.cls = .ld then s.arrive gi o.id else s
    | .tile .. => s.tileStep gi o.id
    | .seg _ => s.segStep gi o.id
    | _ => s) s

/-- A group parked: a try-wait ends with 0, a sleep ends, the epoch rises (R268, R311, R442). -/
def Group.park (g : Group) : Group :=
  let g := g.endBarts
  let g := (g.ops.foldl Group.cancelOrd g).reissue
  { g with
    stall := keepWait g.stall, hstall := keepWait g.hstall, parkReq := false, epoch := (g.epoch + 1) % 2 ^ 32,
    status := (match g.status with
      | .running => .parked false | .sleeping _ => .parked false | .handler => .parked true | x => x) }

/-- A group's boardings end with its park: their operations complete, their entries are free (R274). -/
def State.parkBoards (s : State) (gi : Nat) : State :=
  (s.ring.boards.foldl (fun s b => if b.gi = gi && b.held then s.boardEnd b .cancelled else s) s).dropBoards gi

/-! ### The team record (R443) -/

/-- A control register as a group record holds it. -/
def State.csrSaved (s : State) (g : Group) (n : Nat) : Word := if laneCsr n then 0 else s.gcsr g n

/-- The control registers that system software may edit: those that `csrw` writes. -/
def editableCsrs : List Nat :=
  [0x013, 0x015, 0x018, 0x019, 0x01a] ++ (List.range 12).map (0x020 + ·) ++ [0x030, 0x031, 0x038, 0x039, 0x03a, 0x03b, 0x040,
    0x041, 0x042, 0x043, 0x044] ++ (List.range 8).map (0x070 + ·) ++ [0x078]

/-- The per-lane registers in the order of a record. -/
def laneCsrs : List Nat := [0x010, 0x012, 0x011, 0x017, 0x032, 0x033, 0x034, 0x035]

/-- Marks as bytes, one bit each. -/
def packBits (bs : List Bool) : Nat := bs.foldr (fun b n => (if b then 1 else 0) + 2 * n) 0

/-- A lane as a group record shows it: a fault of a handler word shows in its fault registers (R419, R428). -/
def Group.laneShown (g : Group) (l : Fin 32) : Lane :=
  match g.hmarks.find? fun m => m.1 = l.val with
  | some (_, fcs, fad, rgn) => { g.lanes[l] with fcs := fcs, fad := fad, frgn := rgn }
  | none => g.lanes[l]

/-- The per-lane words of a group record, lane by lane. -/
def Group.laneWords (g : Group) : List Word := (List.finRange 32).flatMap fun l => laneCsrs.map fun n => (g.laneShown l).csr n

/-- The counters of a group. -/
def Group.counters (g : Group) : List Nat := [g.cnt .ld, g.cnt .st, g.cnt .cp, g.cnt .tl]

/-- A group record (R443). -/
def State.groupRecord (s : State) (g : Group) : List Byte :=
  let w := fun (x : Word) => toBytes 4 x.toNat
  let z := fun n => List.replicate n (0 : Byte)
  let vs := (List.range 64).flatMap fun n => if g.holds n then (g.vreg n).toList.flatMap w else z 128
  let tags := (List.range 64).flatMap fun n => toBytes 8 ((g.tag n).live.toNat + (g.tag n).desc.toNat * 2 ^ 32)
  let ss := (List.range 64).flatMap fun n => w (g.sreg n)
  let ls := g.laneWords.flatMap w
  let ms := toBytes 4 g.p1.toNat ++ toBytes 4 g.p2.toNat ++ toBytes 4 g.p3.toNat ++ (List.range 12).flatMap (fun n => w (g.mreg n))
    ++ z 4
  let lv := (List.range 3).flatMap fun i => match g.levels[i]? with
    | some v => w (g.lreg v.lc) ++ toBytes 4 v.first ++ toBytes 4 v.last ++ toBytes 4 v.members.toNat
    | none => z 16
  let lc := g.levels.mapIdx fun i v => v.lc * 4 ^ i
  let lvb := toBytes 1 (2 ^ g.levels.length - 1) ++ toBytes 1 lc.sum ++ z 14
  let cs := (List.range 128).flatMap fun i => w (s.csrSaved g (0x010 + i))
  let cnt := (g.saved.2).flatMap fun n => toBytes 4 n
  let pend := toBytes 8 (packBits (g.pendV.toList.map Option.isSome)) ++ toBytes 8 (packBits (g.pendS.toList.map Option.isSome))
  let outs := (List.range 4032).map fun i => Config.saveByte g.saved.1 i
  let last := toBytes 4 g.starve ++ toBytes 4 g.epoch ++ toBytes 4 (if g.tokenDone then 1 else 0) ++ w g.hpc
    ++ toBytes 4 (fld g.gng.toNat 23 21) ++ z 44
  vs ++ tags ++ ss ++ ls ++ ms ++ lv ++ lvb ++ cs ++ cnt ++ pend ++ outs ++ last ++ z 1632

/-- Why a team is parked, as its record says. -/
def ParkWhy.code : ParkWhy → Nat
  | .evict => 1 | .token => 2 | .grid => 3 | .trap => 4 | .save => 5

/-- The header of a team record. -/
def Team.recordHeader (t : Team) (k : Kernel) (why : ParkWhy) (time : Nat) : List Byte :=
  toBytes 8 k.tag.toNat ++ toBytes 8 t.idx ++ toBytes 8 why.code ++ toBytes 8 time ++ toBytes 8 k.h.recordSize
    ++ List.replicate 216 0

/-- The scratchpad as a record holds it, with the full-empty bits of its granules. -/
def Team.spRecord (t : Team) (n : Nat) : List Byte :=
  Memory.readN t.sp 0 n
    ++ toBytes ((n / 16 + 7) / 8) (packBits ((List.range (n / 16)).map fun i => !t.spEmpty.contains i))

/-- A team record (R443). The gang sections are the device's own (log entry 21). -/
def State.teamRecord (s : State) (t : Team) (k : Kernel) (why : ParkWhy) (time free : Nat) : List Byte :=
  let n := spUp k.h.scr
  t.recordHeader k why time ++ (t.caps.toList.flatMap fun e => toBytes 16 e.toNat)
    ++ (t.groups.flatMap fun gi => s.groupRecord (s.grp gi)) ++ t.spRecord n
    ++ ((List.range (k.h.gangs * 56896)).map fun i => Config.saveByte free i)
    ++ (t.bands.flatMap Band.image) ++ List.replicate ((k.h.bands - t.bands.length) * 24592) 0

/-- A team whose groups can park is parked: its record goes to a place of the save area. Where a parked team then waits on
one that is on no core, the kernel's ranges do not bind (R324). -/
def State.parkTeam (s : State) (ti off : Nat) (why : ParkWhy) : State :=
  match s.teams[ti]? with
  | none => s
  | some t =>
    let waits := s.wantsToken t
    let s := t.groups.foldl (fun s gi =>
      if (s.grp gi).status = .free then s
      else (((s.parkBoards gi).onGrp gi Group.park).placeAll gi).onGrp gi fun g =>
        { g with saved := (s.freeIdx + g.idx, g.counters), laneRec := g.laneWords }) s
    let out := t.groups
    let s := { s with
      acqQ := s.acqQ.filter (fun x => !out.contains x), slotQ := s.slotQ.filter (fun x => !out.contains x),
      freeIdx := s.freeIdx + 17 }
    match s.kernels[t.kernel]?, s.teams[ti]? with
    | some k, some t =>
      let s := s.physWrite ((s.ctx k.ctx).d.save + off) (s.teamRecord t k why s.clock.ns (s.freeIdx - 1)) 0
      let s := ((s.onTeam ti fun t => { t with st := .parked why off s.clock.ns, ordWait := waits }).loosen t.kernel).areaHeader k.ctx
      if why = .evict then s.ctxEvent k.ctx .evicted else s
    | _, _ => s

/-- A save that finds no room ends with the context running (R445): its jobs go on; the SAVEFULL records of the kernels that need the room raise
the context event, which is raised also where they stand already. -/
def State.saveEnds (s : State) (c : Nat) (ks : List Nat) : State :=
  let told := ks.all fun k => match s.kernels[k]? with | some x => x.saveFull | none => true
  let s := (ks.foldl State.saveFullRec s).unsaveJobs c
  let s := s.onCtx c fun x => { x with st := .running }
  if told then s.raiseCtx c (s.ctx c).d.cev else s

/-- A park that finds no room (R445): a trapped team stays stopped, a save ends with the context running, every other team goes
on. -/
def State.noRoom (s : State) (ti : Nat) (why : ParkWhy) : State :=
  match s.teams[ti]? with
  | none => s
  | some t =>
    let stay := fun (s : State) (i : Nat) =>
      match s.teams[i]? with
      | some x => x.groups.foldl (fun s gi => s.onGrp gi fun g => { g with parkReq := false }) (s.onTeam i fun x => { x with st := .resident })
      | none => s
    let c := s.ctxK t.kernel
    if (s.ctx c).st = .saving && (why = .save || why = .evict || why = .trap) then
      let s := (List.range s.teams.length).foldl (fun s i => match s.teams[i]? with
        | some x => if (x.st = .leaving .save || x.st = .leaving .evict) && s.ctxK x.kernel = c then stay s i else s
        | none => s) s
      s.saveEnds c [t.kernel]
    else
      let s := s.saveFullRec t.kernel
      if why = .trap then s else stay s ti

/-- `TEAM_PARK` (R442, R443, R494): a team that has been asked to leave its core, once its groups stand at packet boundaries and
what must complete has completed. -/
def execTeamPark (t : Nat) (s : State) : Out :=
  .next (match s.teams[t]? with
    | none => s
    | some x =>
      match x.st with
      | .leaving why =>
        if !s.canPark x then s
        else
          match s.kernels[x.kernel]? with
          | none => s
          | some k =>
            match s.savePlace k.ctx k.h.recordSize with
            | some off => s.parkTeam t off why
            | none => s.noRoom t why
      | _ => s)

/-! ### Resumption (R444, R494, R420) -/

/-- A field of a record in the save area. -/
def State.recField (s : State) (a n : Nat) : Nat := ofBytes (s.physRead a n)

/-- The record at an address passes the checks of R444. -/
def State.recordOk (s : State) (t : Team) (k : Kernel) (why : ParkWhy) (a time : Nat) : Bool :=
  !s.poisoned a k.h.recordSize
    && s.physRead a 256 = t.recordHeader k why time
    && (List.range t.groups.length).all fun i =>
      let g := s.grp (t.groups.getD i 0)
      let b := a + 1280 + 16384 * i
      g.status = .free || (s.physRead (b + 10624) 16 = ((g.saved.2).flatMap fun n => toBytes 4 n)
        && s.physRead (b + 10656) 4032 = (List.range 4032).map fun j => Config.saveByte g.saved.1 j)

/-- What a record of a fault of a parked group's handler changes in the group's record before it is written (R428, R443): the words of its
lanes that have changed since, and the handler PC. -/
def State.mirrorGroup (s : State) (gi : Nat) : State :=
  let g := s.grp gi
  match s.teams[g.team]?, s.kernels[g.kernel]? with
  | some t, some k =>
    match t.st with
    | .parked _ off _ =>
      let b := (s.ctx k.ctx).d.save + off + 1280 + 16384 * t.groups.idxOf gi
      let ws := g.laneWords
      let s := (List.range 256).foldl (fun s i =>
        let n := ws.getD i 0
        if n = g.laneRec.getD i 0 then s else s.physWrite (b + 8960 + 4 * i) (toBytes 4 n.toNat) 0) s
      (s.physWrite (b + 14700) (toBytes 4 g.hpc.toNat) 0).onGrp gi fun g => { g with laneRec := ws }
    | _ => s
  | _, _ => s

/-- The sections of a group record that system software may have edited, read again (R444): a tag with a reserved descriptor is
spatial (R236); an edit of a lane's state acts as a handler's does (R91). What differs from the record as it was written is an edit; the fault
registers that show a fault of the handler's word are not a lane's own. -/
def State.rereadGroup (s : State) (g : Group) (b : Nat) : Group :=
  let w := fun (o : Nat) => (BitVec.ofNat 32 (s.recField (b + o) 4) : Word)
  let g := { g with
    v := Vector.ofFn fun n => if g.holds n.val then Vector.ofFn fun l => w (128 * n.val + 4 * l.val) else g.vreg n.val,
    tags := Vector.ofFn fun n =>
      let d : Byte := BitVec.ofNat 8 (s.recField (b + 8192 + 8 * n.val + 4) 1)
      if descReserved d then Tag.spatial else ⟨d, w (8192 + 8 * n.val)⟩,
    s := Vector.ofFn fun n => w (8704 + 4 * n.val),
    p1 := w 9984, p2 := w 9988, p3 := w 9992,
    m := Vector.ofFn fun n => w (9996 + 4 * n.val) }
  let hm := match g.status with | .parked h => h | _ => false
  let g := g.onLanes allLanes fun l x =>
    let y := (List.range 8).foldl (fun (x : Lane) i =>
      let n := laneCsrs.getD i 0
      let new := w (8960 + 32 * l.val + 4 * i)
      let shown := 4 ≤ i && g.hmarks.any fun m => m.1 = l.val
      if shown || new = g.laneRec.getD (8 * l.val + i) (x.csr n) then x else x.putCsr n new) x
    y
  let g := if hm then g else g.abandon ((g.freeAborted (g.onLanes allLanes fun _ x => x.eret)).dropOwed)
  editableCsrs.foldl (fun g n =>
    let new := w (10112 + 4 * (n - 0x010))
    if new = s.gcsr g n then g else g.putCsr n new) g

/-- The lanes of a group whose record has been answered go on at their region entries (R86, R420). -/
def Group.answer (g : Group) (r : Rec) : Group :=
  if r.flg.testBit 0 then g
  else
    (g.onLanes r.fmask fun _ x =>
      if x.st = .faulted then { x with st := .runnable, pcv := x.rpc, wt := 15, fcs := 0, fad := 0, frgn := 0, torn := false } else x).dropOwed

/-- A parked group goes on on a core; what it waited for begins to count again. -/
def Group.resumeOn (g : Group) (core clk : Nat) : Group :=
  let again := fun (o : Option Stall) => o.map fun t => { t with since := clk }
  { g with core := core, parkReq := false, hmarks := [], fellAt := none, stall := again g.stall, hstall := again g.hstall,
           status := (match g.status with | .parked true => .handler | .parked false => .running | x => x) }

/-- A request for a job slot that was parked is made again on the group's new core (R302). -/
def State.slotAgain (s : State) (gi : Nat) : State :=
  match (s.grp gi).cur with
  | some t => match t.kind with | .slot .. => { s with slotQ := addOnce s.slotQ gi } | _ => s
  | none => s

/-- A parked team is made resident on a core again. What system software may have edited is read again where a record of one of its groups has
been answered, whatever the park's own reason (R444). PRESUMED (log entry 76): the extended blocks that its groups hold come back with
them, also where the core's pool has too few free: the core then holds more than 192 blocks until they are returned. -/
def State.resumeTeam (s : State) (ti core : Nat) : State :=
  match s.teams[ti]? with
  | none => s
  | some t =>
    match t.st, s.kernels[t.kernel]? with
    | .parked why off time, some k =>
      let a := (s.ctx k.ctx).d.save + off
      if !s.recordOk t k why a time then s.contextFault k.ctx true
      else
        let mine := fun (r : Rec) => r.answered && r.gi.any fun gi => t.groups.contains gi
        let s := if (s.ctx k.ctx).recs.any mine then
          (List.range t.groups.length).foldl (fun s i =>
            s.onGrp (t.groups.getD i 0) fun g => if g.status = .free then g else s.rereadGroup g (a + 1280 + 16384 * i)) s
          else s
        let s := ((s.ctx k.ctx).recs.filter mine).foldl (fun s r => match r.gi with
          | some gi => s.onGrp gi fun g => g.answer r
          | none => s) s
        let s := s.onCtx k.ctx fun x =>
          let rs := x.recs.map fun r => if mine r then { r with gi := none } else r
          { x with recs := rs.filter (fun r => !(r.written && r.answered && r.gi.isNone && r.job.isNone)) }
        let s := t.groups.foldl (fun s gi => (s.onGrp gi fun g => g.resumeOn core s.clk).slotAgain gi) s
        let s := s.onTeam ti fun t => { t with st := .resident, core := core, placed := s.clk, quant := 0 }
        let s := (s.onKernel t.kernel fun k => { k with wait := s.clk }).rebind t.kernel
        let s := (t.groups.foldl (fun s gi => s.settle gi false) s).areaHeader k.ctx
        (s.ctxEvent k.ctx .placed).ctxEvent k.ctx .returned
    | _, _ => s

/-- `TEAM_RESUME` (R494, R326): where the next team of a core is a parked one, it resumes there. -/
def execTeamResume (core : Nat) (s : State) : Out :=
  .next (match s.chosen core with
    | some x => (match x.parked with | some t => s.resumeTeam t core | none => s)
    | none => s)

end Sys2Proof.Machine
end

