-- ==== Sys2Proof/Machine/Records.lean ====
section
/-! DEFINITION. The fault queue: writing records, returning them, answering them (R427 to R430). -/
namespace Sys2Proof.Machine

/-! ### Ownership of registers (R451, R456) -/

/-- A function whose register space answers writes: not in reset (R451), and not in recovery or where bring-up has ended early (R470, R472). -/
def State.fnOpen (s : State) (fn : Nat) : Bool :=
  s.exposed && match s.fns[fn]? with | some f => !f.resetting | none => false

/-- A write of a function's register that names a context acts: the function owns the context. -/
def State.owns (s : State) (fn c : Nat) : Bool :=
  s.fnOpen fn && c < 64 && (s.ctx c).st ≠ .free && (s.ctx c).d.fn = fn

/-! ### Records (R427 to R429) -/

/-- The 64 bytes of a record (R428). -/
def Rec.bytes (r : Rec) (p : Bool) : List Byte :=
  toBytes 1 r.cause ++ toBytes 1 r.detail ++ toBytes 1 r.kind ++ toBytes 1 r.flg ++ toBytes 4 r.rid ++ toBytes 8 r.addr.toNat
    ++ toBytes 4 r.ktag.toNat ++ toBytes 4 r.fmask.toNat ++ toBytes 8 r.team ++ toBytes 1 r.grp ++ [0] ++ toBytes 2 r.core
    ++ toBytes 4 r.pc.toNat ++ toBytes 4 r.rgn.toNat ++ toBytes 4 r.x0.toNat ++ toBytes 8 r.time ++ toBytes 4 r.x1.toNat
    ++ toBytes 4 (r.px % 65536 + if p then 2 ^ 31 else 0)

/-- A record that no group or job waits for: it is dropped where the queue is full (R429). -/
def Rec.droppable (r : Rec) : Bool :=
  r.kind = 3 || r.kind = 4 || r.kind = 5 || (r.kind = 1 && r.flg.testBit 3) || (r.kind = 2 && r.job.isNone)

/-- A record may be written: not yet written, and, of a group that has parked, once its team's record stands (R445, R494). -/
def State.recReady (s : State) (r : Rec) : Bool :=
  !r.written && match r.gi with
  | some gi => !s.onCore gi
  | none => true

/-- The fault queue of a context is full. -/
def Ctx.fqFull (x : Ctx) : Bool := 2 ^ x.d.fql ≤ (x.fqPi - x.fqCi).toNat

/-- A record that could not be written, or was dropped, is counted (R429). -/
def State.countDrop (s : State) (fn : Nat) : State :=
  { s with fns := updAt s.fns fn fun f => { f with fdrop := satAdd f.fdrop 1 } }

/-- The four accesses of a record, the one at offset 48 last; the first failure ends them. -/
def State.writeRecord (s : State) (c base : Nat) (bs : List Byte) : State × Bool :=
  [0, 16, 32, 48].foldl (fun (a : State × Bool) o =>
    if !a.2 then a
    else
      match a.1.store (agent c) .gl (base + o) ((bs.drop o).take 16) none with
      | (s, none) => (s, true)
      | (s, some _) => (s, false)) (s, true)

/-- The i-th of a context's records changed in place, or removed. -/
def Ctx.setRec (x : Ctx) (i : Nat) (r : Option Rec) : Ctx :=
  { x with recs := match r with | some r => x.recs.set i r | none => x.recs.eraseIdx i }

/-- The i-th record is written: it takes its number, and is kept only where it asks for an answer. -/
def State.putRecord (s : State) (c i : Nat) (r : Rec) : State :=
  let s := match r.gi with | some gi => s.mirrorGroup gi | none => s
  let x := s.ctx c
  let r := { r with rid := x.rid.toNat, time := s.clock.ns, index := x.fqPi, written := true }
  match s.writeRecord c (x.d.fqb.toNat + 64 * (x.fqPi.toNat % 2 ^ x.d.fql)) (r.bytes (phaseBit x.fqPi x.d.fql)) with
  | (s, true) =>
    let keep := r.gi.isSome || r.job.isSome
    (s.onCtx c fun x => { (x.setRec i (if keep then some r else none)) with fqPi := x.fqPi + 1, rid := x.rid + 1 }).raiseCtx c x.d.fqv
  | (s, false) => (((s.onCtx c fun x => x.setRec i none).countDrop x.d.fn).contextFault c false)

/-- `FAULT_RECORD_WRITE` (R427, R429): the first record of a context that can be written; with no space, the first record that
holds nothing is dropped. -/
def execFaultRecordWrite (cx : Nat) (s : State) : Out :=
  .next (
    let x := s.ctx cx
    if x.st = .free || x.st = .resetting then s
    else
      let ready := fun i => match x.recs[i]? with | some r => s.recReady r | none => false
      let drop := fun i => match x.recs[i]? with | some r => s.recReady r && r.droppable | none => false
      if x.fqFull then
        match (List.range x.recs.length).find? drop with
        | some i => (s.onCtx cx fun x => x.setRec i none).countDrop x.d.fn
        | none => s
      else
        match (List.range x.recs.length).find? ready with
        | some i => (match x.recs[i]? with | some r => s.putRecord cx i r | none => s)
        | none => s)

/-- `FQCI_WRITE` (R427): the host returns records. -/
def execFqciWrite (fn cx : Nat) (val : Word) (s : State) : Out :=
  .next (if s.owns fn cx then s.onCtx cx fun x => { x with fqCi := val } else s)

/-! ### Answers (R430) -/

/-- The record that a resolution names: the first context of the function with an open record of that number. -/
def State.openRid (s : State) (fn rid : Nat) : Option (Nat × Nat × Rec) :=
  if !s.fnOpen fn then none
  else
    ((List.range s.ctxs.length).filterMap fun c =>
      let x := s.ctx c
      if x.st = .free || x.d.fn ≠ fn then none
      else
        ((List.range x.recs.length).filterMap fun i => (x.recs[i]?).map fun r => (c, i, r)).find? fun t =>
          t.2.2.written && !t.2.2.answered && t.2.2.rid = rid && (t.2.2.gi.isSome || t.2.2.job.isSome)).head?

/-- A suspended job goes on at its granule (R388): the emptyings of EOA, or the job itself. A job that a save holds waits for its
restore. -/
def State.jobResume (s : State) (uid : Nat) : State :=
  match s.job? uid with
  | none => s
  | some j =>
    let s := s.onJob uid fun j => { j with waits := false }
    if j.ended || j.saved then s
    else if j.eoa.isSome then (s.onJob uid fun j => { j with st := .submitted }).eoaRun uid
    else s.onJob uid fun j => { j with st := .running }

/-- `RESOLVE_RESUME` (R430): a group's record is answered, and its team may be resumed; a job goes on. -/
def execResolveResume (fn rid : Nat) (s : State) : Out :=
  .next (match s.openRid fn rid with
    | none => s
    | some (c, i, r) =>
      match r.job with
      | some j => (s.onCtx c fun x => x.setRec i none).jobResume j.1
      | none => s.onCtx c fun x => x.setRec i (some { r with answered := true }))

/-- `RESOLVE_CANCEL` (R430): the group's kernel is cancelled; a job fails with CANCEL. -/
def execResolveCancel (fn rid : Nat) (s : State) : Out :=
  .next (match s.openRid fn rid with
    | none => s
    | some (c, i, r) =>
      let s := s.onCtx c fun x => x.setRec i (some { r with answered := true })
      match r.job, r.gi with
      | some j, _ => (s.onCtx c fun x => x.setRec i none).jobEnd j.1 sCANCEL
      | none, some gi => s.cancelKernel (s.grp gi).kernel true
      | none, none => s)

end Sys2Proof.Machine
end

