-- ==== Sys2Proof/Machine/Queue.lean ====
section
/-! DEFINITION. Doorbells, launch entries, ring installation and the time-triggered table (R257, R258, R264, R265, R333 to R343). -/
namespace Sys2Proof.Machine

/-! ### Doorbells (R333, R334) -/

/-- The record of a queue error (R334, R340). -/
def State.queueRecord (s : State) (c : Nat) : State := s.post c { Rec.blank with cause := cMACHINE, detail := 3, kind := 5 }

/-- `DOORBELL_WRITE` (R333, R334): a new PI of a host-produced queue, a new CI of a device-produced one; a value that makes
PI − CI exceed the queue halts it. -/
def execDoorbellWrite (fn cx off : Nat) (val : Word) (s : State) : Out :=
  .next (
    if !s.owns fn cx || 256 ≤ off || off % 8 ≠ 0 then s
    else
      let q := off / 8
      let x := (s.ctx cx).queue q
      match x.kind with
      | .invalid => s
      | .launch | .request =>
        if 2 ^ x.logn < (val - x.ci).toNat then (s.onQueue cx q fun x => { x with err := true }).queueRecord cx
        else s.onQueue cx q fun x => { x with pi := val }
      | .completion | .output =>
        if 2 ^ x.logn < (x.pi - val).toNat then (s.onQueue cx q fun x => { x with err := true }).queueRecord cx
        else s.onQueue cx q fun x => { x with ci := val })

/-! ### Launch entries (R335, R337, R338) -/

/-- An entry of a host-produced queue with an entry to read. -/
def Queue.hasEntry (x : Queue) (k : QKind) : Bool := x.kind = k && !x.err && x.ci ≠ x.pi

/-- The 64 bytes of the entry at a queue's CI. -/
def State.queueEntry (s : State) (c : Nat) (x : Queue) : List Byte :=
  s.readOr0 c (x.base.toNat + x.ci.toNat % 2 ^ x.logn * 64) 64

/-- The entry at a queue's CI lies where a port in training holds its reading (R468). -/
def State.entryHeld (s : State) (c : Nat) (x : Queue) : Bool :=
  s.vaHeld (agent c) .gl (x.base.toNat + x.ci.toNat % 2 ^ x.logn * 64) 64

/-- An entry is consumed: CI advances, and is written to SHADOW (R335). -/
def State.consume (s : State) (c q : Nat) : State :=
  let s := s.onQueue c q fun x => { x with ci := x.ci + 1 }
  let x := (s.ctx c).queue q
  if x.shadow = 0 then s else (s.store (agent c) .gl x.shadow.toNat (toBytes 4 x.ci.toNat) none).1

/-- A launch entry's fields (R337). -/
structure Entry where
  type : Nat
  flg : Nat
  cq : Nat
  tag : Word
  bytes : List Byte
  deriving DecidableEq, Repr

def Entry.ofBytes (bs : List Byte) : Entry :=
  ⟨fieldAt bs 0 1, fieldAt bs 1 1, fieldAt bs 2 1, BitVec.ofNat 32 (fieldAt bs 4 4), bs⟩

/-- The bytes of the body that a type uses (R337). -/
def Entry.uses (e : Entry) (i : Nat) : Bool :=
  match e.type with
  | 1 | 2 => 8 ≤ i && i < 16
  | 3 => (8 ≤ i && i < 12) || (16 ≤ i && i < 25) || i = 26 || i = 27
  | 4 => 8 ≤ i && i < 12
  | _ => false

/-- Completions can go to a queue. -/
def Ctx.completes (x : Ctx) (q : Nat) : Bool := q < 32 && (x.queue q).kind = .completion

/-- An entry that is answered with BADENTRY (R340): a reserved TYPE, a reserved byte that is not 0, a CQ that is no COMPLETION
queue. -/
def Entry.bad (x : Ctx) (e : Entry) : Bool :=
  e.type = 0 || 5 < e.type || 1 < e.flg || fieldAt e.bytes 3 1 ≠ 0 || !x.completes e.cq
    || (List.range 56).any (fun i => !e.uses (8 + i) && fieldAt e.bytes (8 + i) 1 ≠ 0)
    || (e.type = 3 && 63 < fieldAt e.bytes 24 1)

/-- The next entry of a launch queue: a firing that has been placed in its order, else the host's. -/
def State.nextEntry (s : State) (c q : Nat) : Option (Entry × Option Nat) :=
  let x := s.ctx c
  match x.fired.find? fun f => f.1 = q with
  | some f => some (Entry.ofBytes f.2.2, some f.2.1)
  | none => if (x.queue q).hasEntry .launch then some (Entry.ofBytes (s.queueEntry c (x.queue q)), none) else none

/-- What a launch entry names, a kernel's header with its preload block or a ring table, lies where a port in training holds its reading
(R468). -/
def State.namedHeld (s : State) (c : Nat) (e : Entry) : Bool :=
  let at_ := fieldAt e.bytes 8 8
  let far := fun (va n : Nat) => s.vaHeld (agent c) .gl va n
  if e.type = 1 then
    far at_ 256 || (let h := Header.ofBytes (s.readOr0 c at_ 256); far h.pre.toNat (4 * (bitsOf h.psm.toNat).length))
  else e.type = 2 && at_ ≠ 0 && (far at_ 64 || far (at_ + 64) (32 * fieldAt (s.readOr0 c at_ 64) 2 2))

/-- The next entry of a launch queue that may be accepted (R338, R446): the context is live, a SER entry has no earlier entry of
its queue to wait for, and no port in training holds its bytes or those that it names (R468). -/
def State.waitingEntry (s : State) (c q : Nat) : Option (Entry × Option Nat) :=
  if !(s.ctx c).st.live || q ≥ 32 then none
  else
    match s.nextEntry c q with
    | some e =>
      if (e.2.isNone && s.entryHeld c ((s.ctx c).queue q)) || s.namedHeld c e.1
          || (e.1.flg % 2 = 1 && (s.ctx c).launches.any fun l => l.queue = q) then none else some e
    | none => none

/-- Launch queues with an entry that may be accepted. -/
def State.waitingQueues (s : State) : List (Nat × Nat) :=
  (List.range s.ctxs.length).flatMap fun c => if (s.ctx c).st.live then
    (List.range 32).filterMap fun q => if (s.waitingEntry c q).isSome then some (c, q) else none else []

/-- How far a queue stands behind the one that was served last, in the rotation of all queues of all contexts (R338; log entry 66). -/
def State.queueTurn (s : State) (x : Nat × Nat) : Nat := (32 * x.1 + x.2 + 2047 - s.served % 2048) % 2048

/-- The next entry of a launch queue, where the rotation has come to the queue. -/
def State.acceptable (s : State) (c q : Nat) : Option (Entry × Option Nat) :=
  if s.waitingQueues.all fun x => s.queueTurn (c, q) ≤ s.queueTurn x then s.waitingEntry c q else none

/-- An entry taken from its place, and its launch noted; the rotation goes on behind its queue. -/
def State.take (s : State) (c q : Nat) (e : Entry) (slot : Option Nat) : State × Launch :=
  let s := { s with served := 32 * c + q }
  let l : Launch := ⟨(s.ctx c).nextLaunch, q, slot, e.cq, e.tag, e.type⟩
  let s := match slot with
    | some n => s.onCtx c fun x => { x with fired := x.fired.eraseP fun f => f.1 = q && f.2.1 = n }
    | none => s.consume c q
  (s.onCtx c fun x => { x with nextLaunch := x.nextLaunch + 1, launches := x.launches ++ [l] }, l)

/-- The acceptance of the next entry of a queue where it is a good one of a type. -/
def State.accept (s : State) (c q type : Nat) (f : State → Entry → Launch → State) : State :=
  match s.acceptable c q with
  | some (e, slot) =>
    if e.type ≠ type || Entry.bad (s.ctx c) e then s
    else match s.take c q e slot with | (s, l) => f s e l
  | none => s

/-- Where an accepted entry stood: its index in its queue, or 2^32 and the slot of a firing. -/
def State.entryPlace (s : State) (c q : Nat) (l : Launch) : Nat :=
  match l.slot with
  | some n => 2 ^ 32 + n
  | none => (((s.ctx c).queue q).ci - 1).toNat

/-- A kernel that has been cancelled while it was queued ends when its entry is reached: its completion says CANCELLED, and its interrupt is
raised where its header asks for one (R323). -/
def State.startCancelled (s : State) (c q addr : Nat) (l : Launch) : State :=
  let key := s.entryPlace c q l
  let s := s.onCtx c fun x => { x with struck := x.struck.filter fun y => y ≠ (q, key) }
  let bs := if addr % 256 = 0 then s.readOr0 c addr 256 else List.replicate 256 0
  let h := Header.ofBytes bs
  let s := if s.headerStatus c bs h = 0 && h.irq then s.raiseCtx c h.ivec else s
  s.postLaunch c l 8 0

/-- `LAUNCH_KERNEL` (R319, R323, R338). -/
def execLaunchKernel (cx q : Nat) (s : State) : Out :=
  .next (s.accept cx q 1 fun s e l =>
    if (s.ctx cx).struck.contains (q, s.entryPlace cx q l) then s.startCancelled cx q (fieldAt e.bytes 8 8) l
    else
      match s.startKernel cx (fieldAt e.bytes 8 8) 1 [] (some l) none .entry with
      | (s, 0) => s
      | (s, st) => s.postLaunch cx l st 0)

/-- `LAUNCH_NOP` (R338). -/
def execLaunchNop (cx q : Nat) (s : State) : Out :=
  .next (s.accept cx q 5 fun s _ l => s.postLaunch cx l 0 0)

/-- The earliest kernel of a context with a tag that has not ended (R339); the kernels that the sequence scheduler launches have no TAG. -/
def State.target (s : State) (c : Nat) (tag : Nat) : Option Nat :=
  (List.range s.kernels.length).find? fun k => match s.kernels[k]? with
    | some kn => kn.ctx = c && kn.launch.isSome && kn.tag.toNat = tag && kn.st ≠ .done && kn.st ≠ .cancelled
    | none => false

/-- The kernel entries that stand in a launch queue: their places and tags, in the order in which they will be accepted. -/
def State.queuedKernels (s : State) (c q : Nat) : List (Nat × Word) :=
  let x := s.ctx c
  let y := x.queue q
  let kernel := fun (e : Entry) => e.type = 1 && !Entry.bad x e
  let fired := x.fired.filterMap fun f =>
    if f.1 = q && kernel (Entry.ofBytes f.2.2) then some (2 ^ 32 + f.2.1, (Entry.ofBytes f.2.2).tag) else none
  let host := if !y.hasEntry .launch then [] else (List.range (min (y.pi - y.ci).toNat (2 ^ y.logn))).filterMap fun i =>
    let e := Entry.ofBytes (s.queueEntry c { y with ci := y.ci + BitVec.ofNat 32 i })
    if kernel e then some ((y.ci + BitVec.ofNat 32 i).toNat, e.tag) else none
  fired ++ host

/-- The first queued kernel of a context with a tag (R323, R339): in a queue other than that of the cancel, whose own later entries come
after it (log entry 31). -/
def State.queuedTarget (s : State) (c own tag : Nat) : Option (Nat × Nat) :=
  (List.range 32).findSome? fun q =>
    if q = own then none
    else ((s.queuedKernels c q).find? fun e => e.2.toNat = tag && !(s.ctx c).struck.contains (q, e.1)).map fun e => (q, e.1)

/-- `LAUNCH_CANCEL` (R323, R330, R339): a kernel that is running or queued is cancelled; one in cancelling has not ended, and its
cancel does nothing more; one that is ending is not changed. -/
def execLaunchCancel (cx q : Nat) (s : State) : Out :=
  .next (s.accept cx q 4 fun s e l =>
    let tag := fieldAt e.bytes 8 4
    match s.target cx tag with
    | some k =>
      if (s.kernels[k]?).any fun kn => kn.st = .running || kn.st = .cancelling then (s.cancelKernel k true).postLaunch cx l 0 0
      else s.postLaunch cx l 9 0
    | none =>
      match s.queuedTarget cx q tag with
      | some x => (s.onCtx cx fun y => { y with struck := y.struck ++ [x] }).postLaunch cx l 0 0
      | none => s.postLaunch cx l 9 0)

/-- An entry with ALLOW raised (R339). -/
def capGrant (e : BitVec 128) (n : Nat) : BitVec 128 :=
  if capAllow e = 0xffff then e else capSetAllow e (min (capAllow e + n) 0xfffe)

/-- `LAUNCH_GRANT` (R339): the entry of a team that is resident or parked; a parked team's saved table follows. -/
def execLaunchGrant (cx q : Nat) (s : State) : Out :=
  .next (s.accept cx q 3 fun s e l =>
    let n := fieldAt e.bytes 24 1
    let hit := (s.target cx (fieldAt e.bytes 8 4)).bind fun k =>
      (List.range s.teams.length).find? fun ti => match s.teams[ti]? with
        | some t => t.kernel = k && t.idx = fieldAt e.bytes 16 8 && t.st ≠ .retired
        | none => false
    match hit with
    | none => s.postLaunch cx l 9 0
    | some ti =>
      let s := s.onTeam ti fun t => { t with
        caps := t.caps.setIfInBounds n (capGrant (t.caps.getD n 0) (fieldAt e.bytes 26 2)) }
      let s := match s.teams[ti]? with
        | some t => (match t.st with
          | .parked _ off _ => s.physWrite ((s.ctx cx).d.save + off + 256 + 16 * n) (toBytes 16 (t.caps.getD n 0).toNat) 0
          | _ => s)
        | none => s
      s.postLaunch cx l 0 0)

/-- `LAUNCH_BADENTRY` (R340): the completion goes to the entry's queue, else to queue 0; where neither is a COMPLETION queue a
record is posted. The KIND of a reserved TYPE is not stated (log entry 7). -/
def execLaunchBadentry (cx q : Nat) (s : State) : Out :=
  .next (match s.acceptable cx q with
    | some (e, slot) =>
      if !Entry.bad (s.ctx cx) e then s
      else
        match s.take cx q e slot with
        | (s, l) =>
          let k := if 1 ≤ e.type && e.type ≤ 5 then (e.type, s) else let f := s.free; (f.1 % 256, f.2)
          let s := k.2
          let l := { l with kind := k.1 }
          if (s.ctx cx).completes e.cq then s.postLaunch cx l 0x0a 0
          else if (s.ctx cx).completes 0 then s.postLaunch cx { l with cq := 0 } 0x0a 0
          else (s.onCtx cx fun x => { x with launches := x.launches.filter fun y => y.id ≠ l.id }).queueRecord cx
    | none => s)

/-! ### Installing a ring program (R257, R258, R264, R265) -/

/-- A layer row (R258). -/
def Row.ofBytes (bs : List Byte) : Row :=
  ⟨fieldAt bs 0 4, fieldAt bs 4 2, fieldAt bs 6 1, fieldAt bs 8 8, fieldAt bs 16 8, []⟩

/-- The bytes of a program table: its header and its rows, or none where they cannot be read. -/
def State.ringTable (s : State) (c va : Nat) : Option (List Byte) :=
  match (s.readVa (agent c) .gl va 64 .r).2 with
  | .error _ => none
  | .ok h =>
    match (s.readVa (agent c) .gl (va + 64) (32 * fieldAt h 2 2) .r).2 with
    | .error _ => none
    | .ok rs => some (h ++ rs)

/-- The source bytes of a row, one range for each track: the first byte and the length. -/
def Row.sources (r : Row) : List (Nat × Nat × Nat) :=
  (tracksOf r.trk).map fun t => (t, r.tileVa t 0, r.nt * tileBytes r.fmt)

/-- The translation of a unit of 64 KiB: its physical page and key slot. -/
def State.unitPa (s : State) (c u : Nat) : Option (Nat × Nat) :=
  if !canonical (u * 65536) then none
  else
    match (s.xlat none c (u * 65536)).2 with
    | .ok x =>
      let pa := x.pa + u * 65536 % x.size
      if s.paOk pa && x.r then some (pa, x.key) else none
    | .error _ => none

/-- A row's source bytes are mapped, readable, near, and homed on the dies of their tracks. -/
def State.sourceOk (s : State) (c : Nat) (r : Row) : Bool :=
  r.src % 512 = 0 && r.sources.all fun x =>
    (List.range ((x.2.1 % 65536 + x.2.2 + 65535) / 65536)).all fun i =>
      match s.unitPa c (x.2.1 / 65536 + i) with
      | some u => paReg u.1 = 0 && paDie u.1 = x.1 / 16
      | none => false

/-- A row with the physical places of its source. -/
def State.rowUnits (s : State) (c : Nat) (r : Row) : Row :=
  { r with units := (r.sources.flatMap fun x =>
      (List.range ((x.2.1 % 65536 + x.2.2 + 65535) / 65536)).filterMap fun i =>
        (s.unitPa c (x.2.1 / 65536 + i)).map fun u => (x.2.1 / 65536 + i, u)).dedup }

/-- A 64-bit value rotated left. -/
def rotl64 (n k : Nat) : Nat := ((BitVec.ofNat 64 n).rotateLeft (k % 64)).toNat

/-- The tracks in force or accepted of every context but one. -/
def State.tracksTaken (s : State) (c : Nat) : Nat :=
  let ps := s.ring.progs ++ s.ring.changes.filterMap Prod.snd
  (ps.filter fun p => p.ctx ≠ c).foldl (fun m p => m ||| p.trk) 0

/-- The tracks of a function's other contexts. -/
def State.tracksOfFn (s : State) (c : Nat) : Nat :=
  let ps := s.ring.progs ++ s.ring.changes.filterMap Prod.snd
  (ps.filter fun p => p.ctx ≠ c && (s.ctx p.ctx).d.fn = (s.ctx c).d.fn).foldl (fun m p => m ||| p.trk) 0

/-- A function's track share as its register holds it (R448). -/
def State.trackShare (s : State) (fn : Nat) : Nat :=
  match s.ring.shares.reverse.find? fun x => x.1 = fn with
  | some x => x.2
  | none => match s.fns[fn]? with | some f => f.rtr | none => 0

/-- A row breaks R258. -/
def rowBad (trk : Nat) (bs : List Byte) : Bool :=
  let r := Row.ofBytes bs
  r.trk = 0 || (r.trk &&& trk) ≠ r.trk || r.nt = 0 || 7 < r.fmt || fieldAt bs 7 1 ≠ 0 || fieldAt bs 24 8 ≠ 0

/-- A table checked (R264): the status, and the program where it is accepted. -/
def State.checkProgram (s : State) (c va : Nat) : Nat × Option Prog :=
  match s.ringTable c va with
  | none => (1, none)
  | some bs =>
    let nl := fieldAt bs 2 2
    let trk := fieldAt bs 4 4
    let rbs := (List.range nl).map fun i => (bs.drop (64 + 32 * i)).take 32
    let rows := rbs.map Row.ofBytes
    let fp := (rows.mapIdx fun i r => rotl64 r.fp i).foldl (fun a b => a ^^^ b) 0
    let p : Prog := ⟨c, trk, fieldAt bs 8 8, rows, 0, 0⟩
    if fieldAt bs 0 2 ≠ 1 || nl = 0 || 4096 < nl || fieldAt bs 16 48 ≠ 0 then (1, none)
    else if s.trackShare (s.ctx c).d.fn < popN 32 (trk ||| s.tracksOfFn c) || (trk &&& s.tracksTaken c) ≠ 0 then (2, none)
    else if rbs.any (rowBad trk) then (3, none)
    else if !rows.all (s.sourceOk c) then (4, none)
    else if p.fp ≠ fp then (5, none)
    else if (tracksOf trk).any fun t => 2 ^ 31 < p.load t then (6, none)
    else (0, some { p with rows := rows.map (s.rowUnits c) })

/-- A change of a context's program accepted: it replaces an earlier one that has not taken effect. -/
def State.ringChange (s : State) (c : Nat) (p : Option Prog) : State :=
  { s with ring := { s.ring with
    changes := s.ring.changes.filter (fun x => x.1 ≠ c) ++ [(c, p.map fun p => { p with id := s.ring.order })],
    order := s.ring.order + 1 } }

/-- `LAUNCH_RING` (R264): a program installed or replaced, or removed where the entry names none. -/
def execLaunchRing (cx q : Nat) (s : State) : Out :=
  .next (s.accept cx q 2 fun s e l =>
    let va := fieldAt e.bytes 8 8
    if va = 0 then (s.ringChange cx none).postLaunch cx l 0 0
    else
      match s.checkProgram cx va with
      | (_, some p) => (s.ringChange cx (some p)).postLaunch cx l 0 0
      | (st, none) => s.postLaunch cx l st 0)

/-! ### The time-triggered table (R343) -/

/-- A completion with status SKIPPED. -/
def State.skipped (s : State) (c : Nat) (e : Entry) (n : Nat) : State :=
  let d := completionEntry 0x0b 8 (BitVec.ofNat 32 n) e.tag
  if (s.ctx c).completes e.cq then s.postEntry c ⟨e.cq, d, none, none⟩
  else if (s.ctx c).completes 0 then s.postEntry c ⟨0, d, none, none⟩
  else s.queueRecord c

/-- A slot's state changed in place. -/
def State.onSlot (s : State) (c slot : Nat) (f : TtSlot → TtSlot) : State := s.onCtx c fun x => { x with tt := updAt x.tt slot f }

/-- A slot has a launched firing whose completion has not been posted, or one that has been placed. -/
def Ctx.slotBusy (x : Ctx) (slot : Nat) : Bool :=
  (x.launches.any fun l => l.slot = some slot) || x.fired.any fun f => f.2.1 = slot

/-- Firings of a slot that are due by a time. -/
def firingsDue (start period now : Nat) : Nat :=
  if now < start then 0 else if period = 0 then 1 else (now - start) / period + 1

/-- The firing that comes due: launched, held, skipped or recorded by the slot's rule. -/
def State.fire (s : State) (c slot q rule : Nat) (bs : List Byte) : State :=
  let x := s.ctx c
  let pend := (x.tt.getD slot ⟨none, none, false⟩).pending
  if !(x.slotBusy slot || pend.isSome) then s.onCtx c fun x => { x with fired := x.fired ++ [(q, slot, bs)] }
  else if rule = 2 then
    (s.onSlot c slot fun t => { t with off := true }).post c { Rec.blank with cause := cTIMEOUT, detail := 8, kind := 5 }
  else if rule = 1 && pend.isNone then s.onSlot c slot fun t => { t with pending := some bs }
  else s.skipped c (Entry.ofBytes bs) 1

/-- `TIME_TRIGGERED_FIRING` (R343): the examination of a slot: its pending firing goes on once the running one has completed; of
the firings that have come due since the last examination, by the START and PERIOD that the slot has now, the latest fires, and the earlier
ones are reported. -/
def execTimeTriggeredFiring (cx slot : Nat) (s : State) : Out :=
  .next (
    let x := s.ctx cx
    match x.tt[slot]? with
    | none => s
    | some t =>
      if !x.st.live then s
      else
        match (s.readVa (agent cx) .gl (x.d.ttt.toNat + 128 * slot) 128 .r).2 with
        | .error _ => s
        | .ok bs =>
          let q := fieldAt bs 16 1
          let rule := fieldAt bs 17 1
          let entry := bs.drop 64
          let s := match t.pending with
            | some e =>
              if x.slotBusy slot then s
              else (s.onCtx cx fun x => { x with fired := x.fired ++ [(q, slot, e)] }).onSlot cx slot fun t => { t with pending := none }
            | none => s
          if fieldAt bs 18 1 ≠ 1 || 2 < rule || t.off || 32 ≤ q || (x.queue q).kind ≠ .launch then s
          else
            let due := firingsDue (fieldAt bs 0 8) (fieldAt bs 8 8)
            let n := due s.clock.ns - (match t.last with | some x => due x | none => 0)
            let s := s.onSlot cx slot fun t => { t with last := some s.clock.ns }
            if n = 0 then s
            else
              let s := if 1 < n then s.skipped cx (Entry.ofBytes entry) (n - 1) else s
              s.fire cx slot q rule entry)

end Sys2Proof.Machine
end

