-- ==== Sys2Proof/Machine/Context.lean ====
section
/-! DEFINITION. Contexts: the descriptor and its checks, bind, unbind, save, restore, reload (R332, R348, R391, R436 to R438, R446,
R447, R457). -/
namespace Sys2Proof.Machine

/-! ### The descriptor (R436) -/

/-- The device's copy of a descriptor. -/
def Desc.ofBytes (addr fn : Nat) (bs : List Byte) : Desc :=
  let f := fieldAt bs
  { addr := addr, fn := fn, pri := f 3 1 % 8, qnt := f 4 2, wink := f 6 1, scq := f 7 1, root := f 8 8,
    rkey := BitVec.ofNat 64 (f 16 8), lkq := f 24 2, seqmax := f 26 2, tbud := f 28 4, save := f 32 8, savesz := f 40 8,
    fqb := BitVec.ofNat 64 (f 48 8), fql := f 56 1, fqv := f 58 2, lapv := f 60 2, lapk := f 62 1, ntt := f 63 1,
    ttt := BitVec.ofNat 64 (f 64 8), step := BitVec.ofNat 64 (f 72 8), starea := BitVec.ofNat 64 (f 80 8), cev := f 88 2,
    jmax := f 90 2, stsz := f 92 4 }

/-- A queue descriptor (R332): one with a reserved KIND, a LOGN outside 4 to 16 or a misaligned BASE is loaded INVALID. -/
def Queue.load (bs : List Byte) : Queue :=
  let n := ofBytes bs
  let kind := fld n 3 0
  let logn := fld n 12 8
  let base := fld n 191 128
  let size := if kind ≤ 2 then 64 else 16
  if kind = 0 || 4 < kind || logn < 4 || 16 < logn || base % size ≠ 0 then Queue.blank
  else
    { kind := (match kind with | 1 => .launch | 2 => .request | 3 => .completion | _ => .output), logn := logn,
      ien := n.testBit 15, err := false, ivec := fld n 47 32, ci := BitVec.ofNat 32 (fld n 95 64),
      pi := BitVec.ofNat 32 (fld n 127 96), base := BitVec.ofNat 64 base, shadow := BitVec.ofNat 64 (fld n 255 192) }

/-- A class entry (R348). -/
def SeqClass.ofBytes (bs : List Byte) : SeqClass :=
  let f := fieldAt bs
  ⟨f 0 1, f 1 1, f 2 1, f 3 1, f 4 4, BitVec.ofNat 32 (f 8 4), BitVec.ofNat 32 (f 12 4), f 16 4, f 20 4, f 24 8⟩

/-- A class entry that is not empty has a field outside its range. -/
def SeqClass.bad (c : SeqClass) : Bool :=
  2 < c.draft || 8 < c.k || !([1, 2, 4, 8].contains c.ck) || c.chunk = 0 || 65535 < c.chunk || c.cksz % 16 ≠ 0

/-- A pool descriptor (R391): one that breaks a limit is not valid. -/
def Pool.ofBytes (bs : List Byte) : Pool :=
  let f := fieldAt bs
  let p : Pool :=
    { l := f 0 1, fmt := f 1 1, heads := f 2 2, hdim := f 4 2, haar := f 6 1 = 1, fsz := f 7 1, recs := f 32 8, np := f 40 4,
      cmax := f 44 4, near := f 48 8, nn := f 56 4, far := f 64 8, nf := f 72 4, poolt := f 80 8, nc := f 88 4, catb := f 96 8 }
  let ok := 2 ≤ p.l && p.l ≤ 6 && p.fmt ≤ 7 && 1 ≤ p.heads && p.heads ≤ 256 && 16 ≤ p.hdim && p.hdim ≤ 1024 && f 6 1 ≤ 1
    && 14 ≤ p.fsz && p.fsz ≤ 21 && p.hdim * Fmt.ofPool p.fmt % 512 = 0 && p.pg ≤ 2 ^ p.fsz && p.recs % 16 = 0
    && 1 ≤ p.np && p.np ≤ 2 ^ 24 && 1 ≤ p.cmax && p.cmax ≤ 65535 && p.near % 2 ^ p.fsz = 0 && 1 ≤ p.nn && p.nn ≤ 2 ^ 20
    && p.nf ≤ 2 ^ 24 && p.nc ≤ 2 ^ 24
  if ok then p else Pool.none

/-- Some byte of a range of a descriptor is not 0. -/
def anySet (bs : List Byte) (off n : Nat) : Bool := fieldAt bs off n ≠ 0

/-- VER is wrong, or a reserved byte or bit is not 0 (R437); FN is left out. -/
def descVer (bs : List Byte) : Bool :=
  let q := fun i => fieldAt bs (256 + 32 * i) 32
  fieldAt bs 0 2 ≠ 1 || 8 ≤ fieldAt bs 3 1 || anySet bs 57 1 || anySet bs 96 160 || anySet bs 4352 3840
    || (List.range 32).any (fun i => fld (q i) 63 48 ≠ 0 || fld (q i) 31 17 ≠ 0 || fld (q i) 14 13 ≠ 0 || fld (q i) 7 4 ≠ 0)
    || (List.range 16).any (fun i => anySet bs (1280 + 64 * i + 32) 32)
    || (List.range 16).any (fun i => [(8, 24), (60, 4), (76, 4), (92, 4), (104, 24)].any fun z => anySet bs (2304 + 128 * i + z.1) z.2)

/-- A physical address in the near or far tier. -/
def State.nearFar (s : State) (pa : Nat) : Bool := s.paOk pa && !behindPort pa

/-- A field breaks its alignment or its tier (R437). -/
def State.descAlign (s : State) (d : Desc) : Bool :=
  !s.nearFar d.addr || d.root % 65536 ≠ 0 || !s.nearFar d.root || d.save % 4096 ≠ 0 || !s.nearFar d.save || d.savesz % 4096 ≠ 0
    || d.fqb.toNat % 64 ≠ 0 || d.ttt.toNat % 128 ≠ 0 || d.starea.toNat % 64 ≠ 0 || d.stsz % 128 ≠ 0

/-! ### The step program (R359) -/

/-- A step program, or none where it cannot be read or breaks R359. -/
def State.stepProgram (s : State) (c va : Nat) : Option StepProg :=
  if va % 64 ≠ 0 then none
  else
    match (s.readVa (agent c) .gl va 64 .r).2 with
    | .error _ => none
    | .ok h =>
      let nk := fieldAt h 2 2
      let hmax := fieldAt h 4 4
      if fieldAt h 0 2 ≠ 1 || nk = 0 || 16 < nk || hmax = 0 || 4096 < hmax || anySet h 8 8 || anySet h 40 24 then none
      else
        match (s.readVa (agent c) .gl (va + 64) (16 * nk) .r).2 with
        | .error _ => none
        | .ok t =>
          let ks := (List.range nk).map fun j => fieldAt t (16 * j) 8
          let p : StepProg := ⟨hmax, fieldAt h 16 8, fieldAt h 24 8, fieldAt h 32 8, ks⟩
          if (List.range nk).any (fun j => anySet t (16 * j + 8) 8) || p.clerk = 0
              || (p.clerk :: p.replay :: p.draft :: ks).any (fun a => a % 256 ≠ 0) then none
          else some p

/-- Descriptors of a bank: NHX of R358. -/
def herdsMax (seqmax hmax : Nat) : Nat := 2 * ((seqmax + hmax - 1) / hmax)

/-- Bytes that a bank needs (R358). -/
def bankNeed (d : Desc) (hmax : Nat) : Nat :=
  herdsMax d.seqmax hmax * (128 + 32 * hmax) + 4 * d.tbud + 4 * d.seqmax

/-! ### The checks (R437) -/

/-- A context as its descriptor gives it. -/
def Ctx.ofBytes (addr fn : Nat) (bs : List Byte) : Ctx :=
  let d := Desc.ofBytes addr fn bs
  { Ctx.blank with
    st := .bound, d := d,
    queues := (List.range 32).map fun i => Queue.load ((bs.drop (256 + 32 * i)).take 32),
    pools := (List.range 16).map fun i => Pool.ofBytes ((bs.drop (2304 + 128 * i)).take 128),
    classes := (List.range 16).map fun i => SeqClass.ofBytes ((bs.drop (1280 + 64 * i)).take 64),
    tt := List.replicate d.ntt ⟨none, none, false⟩ }

/-- Near bytes of a context's pools. -/
def Ctx.nearBytes (x : Ctx) : Nat := (x.pools.map fun p => if p.np = 0 then 0 else p.nn * 2 ^ p.fsz).sum

/-- The other contexts of a function. -/
def State.siblings (s : State) (fn n : Nat) : List Ctx :=
  ((List.range s.ctxs.length).filter fun c => c ≠ n && (s.ctx c).st ≠ .free && (s.ctx c).d.fn = fn).map s.ctx

/-- A field breaks its range, a share is passed, or the step program is not good (R437). `s` holds the context at place `n`. -/
def State.descLimit (s : State) (n : Nat) (bs : List Byte) : Bool :=
  let x := s.ctx n
  let d := x.d
  let same := s.siblings d.fn n
  let psh := match s.fns[d.fn]? with | some f => f.psh | none => 0
  d.qnt = 0 || d.savesz < 65536 || 6 < d.wink || 31 < d.scq || 16384 < d.seqmax + (same.map fun y => y.d.seqmax).sum
    || d.fql < 4 || 12 < d.fql || (47 < d.lapk && d.lapk ≠ 0xff) || 64 < d.ntt || 8192 < d.jmax
    || (List.range 16).any (fun i => anySet bs (1280 + 64 * i) 64 && (SeqClass.ofBytes ((bs.drop (1280 + 64 * i)).take 64)).bad)
    || psh * 2 ^ 32 < x.nearBytes + (same.map Ctx.nearBytes).sum
    || (d.step ≠ 0 && match x.step with
      | none => true
      | some p => d.tbud < 16 || d.stsz / 2 < bankNeed d p.hmax)

/-- Vectors of a function's table. -/
def State.vectors (s : State) (fn : Nat) : Nat := match s.fns[fn]? with | some f => f.msix.length | none => 0

/-- A vector lies outside the function's table (R437), the IVEC of a queue that is loaded INVALID too. -/
def State.descVector (s : State) (x : Ctx) (bs : List Byte) : Bool :=
  let n := s.vectors x.d.fn
  n ≤ x.d.fqv || n ≤ x.d.lapv || n ≤ x.d.cev || (List.range 32).any fun i => n ≤ fld (fieldAt bs (256 + 32 * i) 32) 47 32

/-- A context read from a descriptor stands at place `n`, with its step program, for its checks. -/
def State.tryCtx (s : State) (n addr fn : Nat) (bs : List Byte) : State :=
  let s := { s with ctxs := s.ctxs.set n (Ctx.ofBytes addr fn bs) }
  let va := (s.ctx n).d.step.toNat
  s.onCtx n fun x => { x with step := if va = 0 then none else s.stepProgram n va }

/-- The status of a descriptor (R437): the first that applies. -/
def State.descStatus (s : State) (n : Nat) (bs : List Byte) (bind : Bool) : Nat :=
  let x := s.ctx n
  if descVer bs || (bind && anySet bs 2 1) || s.poisoned x.d.addr 8192 then 1
  else if s.descAlign x.d then 2
  else if s.descLimit n bs then 3
  else if s.descVector x bs then 4 else 0

/-! ### Commands (R437, R438, R457) -/

/-- A context faulted by the die link, with its record (R460). -/
def State.dieLinkFault (s : State) (c : Nat) : State :=
  (s.post c { Rec.blank with cause := cMACHINE, detail := 7, kind := 5 }).contextFault c false

/-- The result of a command, in CTXSTAT. -/
def State.cmdResult (s : State) (fn cx status : Nat) : State :=
  { s with fns := updAt s.fns fn fun f => { f with cctx := cx % 64, cstat := status } }

/-- `BIND` (R437): the lowest free number; the context that a failed bind names is not stated (log entry 7). While the die link is down for
good the context is faulted at once (R460; log entry 69). -/
def execBind (fn addr : Nat) (s : State) : Out :=
  .next (
    if !s.fnOpen fn then s
    else
      let fail := fun (st : Nat) => let f := s.free; f.2.cmdResult fn f.1 st
      match (List.range 64).find? fun c => (s.ctx c).st = .free with
      | none => fail 5
      | some n =>
        let a := addr / 8192 * 8192 % 2 ^ 64
        let bs := s.physRead a 8192
        let t := s.tryCtx n a fn bs
        match t.descStatus n bs true with
        | 0 =>
          let t := t.onCtx n fun x => { x with queues := x.queues.map fun q => { q with pi := 0, ci := 0 } }
          let t := (t.physWrite (a + 2) [BitVec.ofNat 8 fn] 0).cmdResult fn n 0
          if t.ctl.dead then t.dieLinkFault n else t
        | st => fail st)

/-- What a context holds is given up: its kernels, teams, jobs, ring program, transfers, pages in motion, records of sequences,
translations. -/
def State.freeCtx (s : State) (c : Nat) : State :=
  let mine : Nat → Bool := fun k => s.ctxK k = c
  let gs := (List.range s.groups.length).filter fun gi => mine (s.grp gi).kernel && (s.grp gi).status ≠ .free
  let s := (gs.foldl State.kill s).dropXfers fun x => x.ctx = c
  let s := { s with
    teams := s.teams.map (fun (t : Team) => if mine t.kernel then t.retire else t),
    kernels := s.kernels.map (fun (k : Kernel) => if k.ctx = c && k.st != KSt.done then { k with st := .cancelled } else k),
    jobs := s.jobs.filter (fun j => j.ctx ≠ c),
    copies := s.copies.filter (fun k => k.ctx ≠ c),
    pageIns := s.pageIns.filter (fun k => k.1 ≠ c),
    pins := s.pins.filter (fun p => p.ctx ≠ c),
    seqs := s.seqs.filter (fun q => q.ctx ≠ c),
    msgs := s.msgs.filter (fun m => m.ctx ≠ c), inbound := s.inbound.filter (fun m => m.ctx ≠ c),
    landed := s.landed.filter (fun m => m.ctx ≠ c), heard := s.heard.filter (fun m => m.1 ≠ c),
    colls := s.colls.filter (fun x => x.ctx ≠ c),
    tlb := s.tlb.filter (fun e => e.ctx ≠ c) }
  let s := if s.ring.progs.any (fun p => p.ctx = c) || s.ring.changes.any (fun x => x.1 = c) then s.ringChange c none else s
  { s with ctxs := s.ctxs.set c Ctx.blank }

/-- `UNBIND` (R438). -/
def execUnbind (fn cx : Nat) (s : State) : Out :=
  .next (
    if !s.fnOpen fn then s
    else if !s.owns fn cx then s.cmdResult fn cx 7
    else
      match (s.ctx cx).st with
      | .bound | .saved | .faulted => (s.freeCtx cx).cmdResult fn cx 0
      | _ => s.cmdResult fn cx 6)

/-- `QRELOAD` (R457): PI and CI are kept. -/
def execQreload (fn cx q : Nat) (s : State) : Out :=
  .next (
    if !s.fnOpen fn then s
    else if !s.owns fn cx then s.cmdResult fn cx 7
    else
      let new := Queue.load (s.physRead ((s.ctx cx).d.addr + 256 + 32 * (q % 32)) 32)
      (s.onQueue cx (q % 32) fun x => { new with pi := x.pi, ci := x.ci }).cmdResult fn cx 0)

/-! ### Saving (R446) -/

/-- `SAVE` (R438, R446): the context is saving, and its teams are asked to park. -/
def execSave (fn cx : Nat) (s : State) : Out :=
  .next (
    if !s.fnOpen fn then s
    else if !s.owns fn cx then s.cmdResult fn cx 7
    else if !(s.ctx cx).st.live then s.cmdResult fn cx 8
    else
      let s := s.onCtx cx fun x => { x with st := .saving }
      let s := (List.range s.teams.length).foldl (fun s ti => match s.teams[ti]? with
        | some t =>
          if s.ctxK t.kernel = cx && t.holds && t.st ≠ .leaving .trap then s.leave ti .save else s
        | none => s) s
      s.cmdResult fn cx 0)

/-- The context has no team on a core, no running job, no copy of a page under way, every store and non-returning atomic has completed, and
every packet has been sent (R182, R204, R446). -/
def State.saveReady (s : State) (c : Nat) : Bool :=
  s.teamsOff c
    && (s.jobs.all fun j => j.ctx ≠ c || j.ended || j.saved || j.st ≠ .running)
    && (s.copies.all fun k => k.ctx ≠ c || s.copyHeld k)
    && (s.heldPkts.all fun p => !(s.xfers.any fun x => p.xfer = some x.id && x.ctx = c))
    && s.groups.all fun g => s.ctxOf g ≠ c || g.status = .free
        || g.ops.all fun o => o.done || !(match o.kind with
          | .store .. => true | .atom .. => o.cls = .st | .aadd .. => true | _ => false)

/-- The stores of the groups of a context that stand in a `fence.sys`, whose condition a save waits for (R182, R446). -/
def State.fenced (s : State) (c : Nat) (o : Owner) : Bool :=
  s.groups.any fun g => s.ctxOf g = c && (s.whoOf g).owner = o
    && (g.stall.any (fun t => t.kind.isFence) || g.hstall.any fun t => t.kind.isFence)

/-- A job record (R443): the card, then the device's fields (log entry 21). -/
def Job.record (j : Job) : List Byte := j.card.take 256 ++ (List.range 128).map fun i => Config.saveByte (j.uid + 2 ^ 32) i

/-- The records and the header of a save written, and the queues' indices written back. -/
def State.saveWrites (s : State) (c : Nat) (js : List Job) : State :=
  let d := (s.ctx c).d
  let s := (List.range js.length).foldl (fun s i => match js[i]? with
    | some j => s.physWrite (d.save + 4096 + 384 * i) j.record 0
    | none => s) s
  let s := (List.range 32).foldl (fun s q =>
    let x := (s.ctx c).queue q
    s.physWrite (d.addr + 256 + 32 * q + 8) (toBytes 4 x.ci.toNat ++ toBytes 4 x.pi.toNat) 0) s
  s.physWrite d.save
    (toBytes 8 1 ++ toBytes 8 s.clock.ns ++ toBytes 4 (s.records c).length ++ toBytes 4 js.length ++ List.replicate 4072 0) 0

/-- `SAVE_COMPLETE` (R446): the jobs' records and the header are written and the context is saved; more jobs than the area
holds end the save with the context running (R445). -/
def execSaveComplete (cx : Nat) (s : State) : Out :=
  .next (
    if (s.ctx cx).st ≠ .saving || !s.saveReady cx then s
    else if !(s.writeBack (s.fenced cx)).flushed (s.fenced cx) then s.writeBack (s.fenced cx)
    else
      let js := s.jobs.filter fun j => j.ctx = cx && !j.ended
      if (s.ctx cx).d.jmax < js.length then
        s.saveEnds cx ((js.drop (s.ctx cx).d.jmax).map Job.kernel)
      else
        let s := { s with jobs := s.jobs.map fun (j : Job) => if j.ctx = cx && !j.ended then { j with saved := true } else j }
        let s := ((s.writeBack (s.fenced cx)).saveWrites cx js).onCtx cx fun x => { x with st := .saved }
        s.raiseCtx cx (s.ctx cx).d.cev)

/-! ### Restoring (R447) -/

/-- `RESTORE` (R438, R447). -/
def execRestore (fn cx addr : Nat) (s : State) : Out :=
  .next (
    if !s.fnOpen fn then s
    else if !s.owns fn cx then s.cmdResult fn cx 7
    else if (s.ctx cx).st ≠ .saved then s.cmdResult fn cx 8
    else
      (s.onCtx cx fun x => { x with st := .restoring, d := { x.d with addr := addr / 8192 * 8192 % 2 ^ 64 } }).cmdResult fn cx 0)

/-- The slots that a context's saved jobs return to are free. -/
def State.slotsFree (s : State) (c : Nat) : Bool :=
  s.jobs.all fun j => j.ctx ≠ c || !j.saved || j.ended ||
    s.jobs.all fun x => x.uid = j.uid || x.saved || x.ended || x.core ≠ j.core || x.slot ≠ j.slot

/-- The descriptor read again: the device's own indices and states stand (R447). -/
def Ctx.reread (x y : Ctx) : Ctx :=
  { x with
    d := y.d, hurt := false, pools := y.pools, classes := y.classes, step := y.step,
    queues := (List.range 32).map fun q =>
      { (y.queue q) with pi := (x.queue q).pi, ci := (x.queue q).ci, err := (x.queue q).err },
    tt := (List.range y.d.ntt).map fun i => x.tt.getD i ⟨none, none, false⟩ }

/-- The job records of a save area read again (R447): each is as it was written, with no uncorrectable error. A record that differs from what
the device wrote fails (log entry 21). -/
def State.jobRecsOk (s : State) (save : Nat) (js : List Job) : Bool :=
  (List.range js.length).all fun i => match js[i]? with
    | some j => !s.poisoned (save + 4096 + 384 * i) 384 && s.physRead (save + 4096 + 384 * i) 384 = j.record
    | none => true

/-- The edges of a context's jobs derived again, in their submission order (R290, R447). -/
def State.deriveEdges (s : State) (c : Nat) : State :=
  { s with jobs := s.jobs.map fun (j : Job) =>
      if j.ctx = c && !j.ended then { j with edges := (s.jobs.filter fun x => x.uid < j.uid && edge x j).map Job.uid } else j }

/-- `RESTORE_COMPLETE` (R447): the descriptor, the header and the job records are read again, the jobs return to their slots, the teams may be
dispatched. A descriptor, header or record that fails its checks puts the context in faulted (R438). -/
def execRestoreComplete (cx : Nat) (s : State) : Out :=
  .next (
    let x := s.ctx cx
    if x.st ≠ .restoring || !s.slotsFree cx then s
    else
      let bs := s.physRead x.d.addr 8192
      let t := s.tryCtx cx x.d.addr x.d.fn bs
      let y := t.ctx cx
      let js := s.jobs.filter fun j => j.ctx = cx && j.saved
      let good := t.descStatus cx bs false = 0 && !s.poisoned y.d.save 4096 && ofBytes (s.physRead y.d.save 4) = 1
        && ofBytes (s.physRead (y.d.save + 16) 4) = (s.records cx).length && ofBytes (s.physRead (y.d.save + 20) 4) = js.length
        && s.jobRecsOk y.d.save js
      if !good then s.contextFault cx true
      else
        let runs := s.kernels.any fun k => k.ctx = cx && k.st = .running
        let s := s.onCtx cx fun x => { (x.reread y) with st := if runs then .runnable else .bound }
        let s := (s.unsaveJobs cx).deriveEdges cx
        s.raiseCtx cx y.d.cev)

end Sys2Proof.Machine
end

