-- ==== Sys2Proof/Machine/Host.lean ====
section
/-! DEFINITION. The functions and the host: register space (R456), shares (R448), MSI-X (R450), function reset (R451, R452), the
host memory window (R458), key slots as they bear on lines (R384, R474). -/
namespace Sys2Proof.Machine

/-! ### Registers (R448, R450, R456) -/

/-- A function changed in place. -/
def State.onFn (s : State) (fn : Nat) (f : Func → Func) : State := { s with fns := updAt s.fns fn f }

/-- A function at a number. -/
def State.fn (s : State) (fn : Nat) : Func := s.fns.getD fn (Func.init 1)

/-- `TLBINV_REGISTER_WRITE` (R389, R456). -/
def execTlbinvRegisterWrite (fn cx : Nat) (s : State) : Out := .next (if s.owns fn cx then (s.dropTlb cx none).dropUnmapped cx none else s)

/-- The sum of a share over the functions, with function f's replaced. -/
def State.shareSum (s : State) (f n : Nat) (g : Nat → Nat) : Nat :=
  ((List.range s.fns.length).map fun i => if i = f then n else g i).sum

/-- `SHARE_WRITE` (R448): a write that would pass a sum is refused whole; RTR waits for the lap boundary. -/
def execShareWrite (fn f : Nat) (val : Dword) (s : State) : Out :=
  .next (
    if fn ≠ 0 || !s.fnOpen fn || s.fns.length ≤ f then s
    else
      let ish := fld val.toNat 8 0
      let hsh := fld val.toNat 24 16
      let psh := fld val.toNat 40 32
      let rtr := fld val.toNat 53 48
      if 256 < s.shareSum f ish (fun i => (s.fn i).ish) || 256 < s.shareSum f hsh (fun i => (s.fn i).hsh)
          || 256 < s.shareSum f psh (fun i => (s.fn i).psh) || 32 < s.shareSum f rtr s.trackShare then
        { s with sherr := s.sherr ||| BitVec.ofNat 32 (2 ^ f) }
      else
        let s := s.onFn f fun x => { x with ish := ish, hsh := hsh, psh := psh }
        { s with ring := { s.ring with shares := s.ring.shares.filter (fun x => x.1 ≠ f) ++ [(f, rtr)] } })

/-- `PEER_TABLE_WRITE` (R462): the copies of the entries are gone. -/
def execPeerTableWrite (fn : Nat) (val : Dword) (s : State) : Out :=
  .next (if s.fnOpen fn then s.onFn fn fun f => { f with peert := val, peers := [] } else s)

/-- A vector's mask bit written (R450): at an unmask, one message for all that is pending. -/
def State.setMask (s : State) (fn vec : Nat) (m : Bool) : State :=
  match (s.fn fn).msix[vec]? with
  | none => s
  | some v =>
    let put := fun (s : State) (x : Msix) => s.onFn fn fun f => { f with msix := f.msix.set vec x }
    if m then put s { v with masked := true }
    else if v.pend then (put s { v with masked := false, pend := false }).raise fn vec
    else put s { v with masked := false }

/-- `MSIX_UNMASK` (R450). -/
def execMsixUnmask (fn vec : Nat) (s : State) : Out :=
  .next (if s.fnOpen fn && vec < s.vectors fn then s.setMask fn vec false else s)

/-- A doubleword of a function's MSI-X table written (R456): address low and high, data, vector control. A quadword is two of them (log
entry 14). -/
def State.msixWrite (s : State) (fn off : Nat) (val : Word) : State :=
  let v := off / 16
  let put := fun (f : Msix → Msix) => s.onFn fn fun x => { x with msix := updAt x.msix v f }
  if s.vectors fn ≤ v then s
  else match off % 16 with
    | 0 => put fun m => { m with addr := pair val (m.addr.extractLsb' 32 32) }
    | 4 => put fun m => { m with addr := pair (lowW m.addr) val }
    | 8 => put fun m => { m with data := val }
    | 12 => s.setMask fn v (val.getLsbD 0)
    | _ => s

/-- Bytes of a decoder table's ranges. -/
def decoderSize (ds : List (Nat × Nat)) : Nat := (ds.map Prod.snd).sum

/-- A field of range i of a host port's decoder table written (R454): its address, or its size. Of a port in PCIe mode, past 16 ranges, or
where the pool region would pass 8 TiB, the write is ignored. -/
def State.decoderWrite (s : State) (port i : Nat) (size : Bool) (val : Nat) : State :=
  match s.ports[port]? with
  | some p =>
    let ds := p.decoder ++ List.replicate (i + 1 - p.decoder.length) (0, 0)
    let ds := updAt ds i fun r => if size then (r.1, val) else (val, r.2)
    if !p.cxl || 16 ≤ i || 2 ^ 43 < decoderSize ds then s else { s with ports := s.ports.set port { p with decoder := ds } }
  | none => s

/-- `REGISTER_WRITE` (R456): a register with no behaviour of its own; every other offset is ignored, and those of the physical
function at a virtual one. DESIGN CHOICE (log entry 17): offsets from 0x8_0000, which BAR0 does not have, stand for the decoder tables of the
host ports: 0x100 bytes for each port, 16 for each range, its address and its size. -/
def execRegisterWrite (fn off : Nat) (val : Dword) (s : State) : Out :=
  .next (
    if !s.fnOpen fn then s
    else if off = 0x58 then s.onFn fn fun f => { f with apctl := val &&& 0xffffffffffff00bf#64 }
    else if 0x20000 ≤ off && off < 0x30000 then s.msixWrite fn (off - 0x20000) (lowW val)
    else if fn ≠ 0 then s
    else if off = 0x1100 then { s with sherr := s.sherr &&& ~~~(lowW val) }
    else if off = 0x1108 then { s with ring := { s.ring with reg := lowW val &&& 0x001f1f1f#32 } }
    else if off = 0x1190 then { s with levt := s.levt &&& ~~~(lowW val) }
    else if off = 0x1198 then { s with levv := val.setWidth 8 }
    else if 0x80000 ≤ off && off < 0x80200 && off % 8 = 0 then
      s.decoderWrite ((off - 0x80000) / 0x100) (off % 0x100 / 16) (off % 16 = 8) val.toNat
    else s)

/-- The share register of a function (R448). -/
def State.share (s : State) (f : Nat) : Nat :=
  (s.fn f).ish + (s.fn f).hsh * 2 ^ 16 + (s.fn f).psh * 2 ^ 32 + s.trackShare f * 2 ^ 48

/-- State codes of a port (R469). -/
def PortSt.code : PortSt → Nat
  | .down => 0 | .training => 1 | .up => 2 | .degraded => 3 | .failed => 4

/-- LSTAT of a port (R469). -/
def Port.lstat (p : Port) : Nat := p.st.code * 2 ^ 28 + p.rate % 16 * 2 ^ 24 + p.width % 256 * 2 ^ 16 + p.retrain % 2 ^ 15 * 2

/-- A signed number held in n bits, saturating. -/
def satInt (n : Nat) (x : Int) : Nat :=
  (BitVec.ofInt n (max (-(2 ^ (n - 1) : Int)) (min x (2 ^ (n - 1) - 1)))).toNat

/-- TSTAT (R465). -/
def State.tstat (s : State) : Nat := s.clock.st + satInt 16 s.clock.offs * 2 ^ 16

/-- What lies at an offset of the MSI-X table, and of the pending bits. -/
def Func.msixRead (f : Func) (off : Nat) : Nat :=
  match f.msix[off / 16]? with
  | some m => match off % 16 with
    | 0 => m.addr.toNat
    | 4 => m.addr.toNat / 2 ^ 32
    | 8 => m.data.toNat + (if m.masked then 2 ^ 32 else 0)
    | 12 => if m.masked then 1 else 0
    | _ => 0
  | none => 0

def Func.pba (f : Func) (off : Nat) : Nat :=
  ((List.range 64).map fun i => match f.msix[8 * off + i]? with | some m => if m.pend then 2 ^ i else 0 | none => 0).sum

/-- What a read of BAR0 returns (R456). In reset only the reset status is read (R451). -/
def State.bar0 (s : State) (fn off : Nat) : Nat :=
  let f := s.fn fn
  if off = 0x28 then (if f.done then 2 else 0)
  else if !s.fnOpen fn then 0
  else if off = 0x00 then 0x0960 * 2 ^ 16 + fn
  else if off = 0x10 then f.cstat + f.cctx * 2 ^ 8
  else if off = 0x30 then f.fdrop
  else if off = 0x38 then s.share fn
  else if off = 0x40 then f.peert.toNat
  else if off = 0x48 then s.clock.ns % 2 ^ 64
  else if off = 0x50 then s.tstat
  else if off = 0x58 then f.apctl.toNat
  else if off = 0x60 then f.aperr
  else if off = 0x68 then f.apva.toNat
  else if 0x20000 ≤ off && off < 0x30000 then f.msixRead (off - 0x20000)
  else if 0x30000 ≤ off && off < 0x40000 then f.pba (off - 0x30000)
  else if fn ≠ 0 then 0
  else if 0x1000 ≤ off && off < 0x1100 then (if off % 8 = 0 then s.share ((off - 0x1000) / 8) else 0)
  else if off = 0x1100 then s.sherr.toNat
  else if off = 0x1108 then s.ring.reg.toNat
  else if 0x1110 ≤ off && off < 0x1180 then
    (if off % 8 = 0 then (match s.ports[(off - 0x1110) / 8]? with | some p => p.lstat | none => 0) else 0)
  else if off = 0x1190 then s.levt.toNat
  else if off = 0x1198 then s.levv.toNat
  else 0

/-! ### Lines under key slots (R384, R451, R474) -/

/-- A slot belongs to a function. -/
def KeySlot.ownedBy (k : KeySlot) (fn : Nat) : Bool :=
  match k with | .null f => f = fn | .key f _ => f = fn | _ => false

/-- The slots of a function erased, their lines dropped without write-back (R451, step 8). -/
def State.eraseKeys (s : State) (fn : Nat) : State :=
  (List.range s.ctl.keys.length).foldl (fun s n =>
    match s.ctl.keys[n]? with
    | some k =>
      if n ≠ 0 && k.ownedBy fn then
        let s := s.evict (fun x => x.key = n) false
        { s with ctl := { s.ctl with keys := s.ctl.keys.set n .empty } }
      else s
    | none => s) s

/-! ### Function reset (R451, R452) -/

/-- The contexts of a function. -/
def State.ctxsOf (s : State) (fn : Nat) : List Nat :=
  (List.range s.ctxs.length).filter fun c => (s.ctx c).st ≠ .free && (s.ctx c).d.fn = fn

/-- The LINK index through which a collective job reaches its peers (R292). -/
def State.collLink (s : State) (j : Job) : Option Nat :=
  let e := match s.teams[j.team]? with | some t => t.caps.getD (fld (cardP1 j.card) 37 32) 0 | none => 0
  if j.kind = kCOLL && (capFault e [kLINK] permS).isNone then some (capIdx e) else none

/-- The ways in from peers with a hand-off or a collective open to a context (R451, step 6): one whose bytes have come to a page that is
still borrowed, and one whose collective data has come while no job of that collective is under way here. -/
def State.openFrom (s : State) (c : Nat) : List Via :=
  let pages := s.landed.filterMap fun x =>
    match (s.ctx c).pool? x.pool with
    | some p => if x.ctx = c && x.page < p.np && (s.recD c p x.page).st = pBorrowed then some x.via else none
    | none => none
  let colls := s.colls.filterMap fun x =>
    if x.ctx = c && !s.colls.any fun y => y.ctx = c && y.fn = x.fn && y.id = x.id && y.job.isSome then x.via else none
  pages ++ colls

/-- The abort notices for the peers with an open hand-off or collective (R451, step 6): of the context's own transfers, of the
collectives that it has given to, and of what has begun to come to it, which goes back to where it came from. -/
def State.openPeers (s : State) (c : Nat) : List Packet :=
  let note := fun (port peer paddr job : Nat) (addr : Dword) =>
    ({ port := port, kind := 7, paddr := paddr, job := job, peer := peer, addr := addr, window := s.windowOf c, wink := (s.ctx c).d.wink,
       unsync := s.clock.st != 2 } : Packet)
  let own := fun (y : Xfer) => if y.ctx = c then some (note y.port y.peer y.paddr y.job y.addr) else none
  let xs := s.xfers.filterMap fun y => match y.kind with | .page .. => own y | .coll _ => own y | _ => none
  let js := s.jobs.filterMap fun j =>
    if j.ctx = c && !j.ended && j.busy then
      (s.collLink j).bind fun ix =>
        (s.peer (s.ctx c).d.fn ix).2.map fun p => note (ix % 16) p.rctx p.paddr p.job (collAddr j p)
    else none
  let back := (s.openFrom c).map fun v => note v.port v.src 0 0 0
  (xs ++ js ++ back).dedup

/-- Every record of a pool is free. -/
def State.freePages (s : State) (c : Nat) (p : Pool) : State :=
  (List.range p.np).foldl (fun s n => if (s.recD c p n).st = pFree then s else s.putRec c p n PRec.zero) s

/-- Every kernel of a context is cancelled, with nothing written for it. -/
def State.stopKernels (s : State) (c : Nat) : State :=
  (List.range s.kernels.length).foldl (fun s k =>
    if s.ctxK k = c then
      (s.cancelKernel k false).onKernel k fun kn => if kn.st = .done then kn else { kn with st := .cancelled }
    else s) s

/-- Steps 1 to 7 of a reset for a context: what it runs ends with nothing written for it, the peers with something open are told, its
ring program is marked removed, its records are freed, its locks and transfers dropped. -/
def State.resetCtx (s : State) (c : Nat) : State :=
  let told := s.openPeers c
  let s := s.onCtx c fun x => { x with st := .resetting, recs := [], posts := [], launches := [], fired := [], struck := [], locks := [] }
  let s := s.stopKernels c
  let s := (s.jobs.filter fun j => j.ctx = c && !j.ended).foldl (fun s j => s.jobClose j.uid sCANCEL false) s
  let s := if s.ring.progs.any (fun p => p.ctx = c) || s.ring.changes.any (fun x => x.1 = c) then s.ringChange c none else s
  let s := (s.ctx c).pools.foldl (fun s p => if p.np = 0 then s else s.freePages c p) s
  let s := { s with
    copies := s.copies.filter (fun k => k.ctx ≠ c),
    pageIns := s.pageIns.filter (fun k => k.1 ≠ c),
    pins := s.pins.filter (fun p => p.ctx ≠ c),
    seqs := s.seqs.filter (fun q => q.ctx ≠ c),
    msgs := s.msgs.filter (fun m => m.ctx ≠ c), inbound := s.inbound.filter (fun m => m.ctx ≠ c),
    landed := s.landed.filter (fun m => m.ctx ≠ c), heard := s.heard.filter (fun m => m.1 ≠ c),
    colls := s.colls.filter (fun x => x.ctx ≠ c) }
  let s := told.foldl State.emit (s.dropXfers fun x => x.ctx = c)
  s.onCtx c fun x => { x with recs := [], posts := [], launches := [] }

/-- `FUNCTION_RESET` (R451, steps 1 to 7). -/
def execFunctionReset (fn : Nat) (s : State) : Out :=
  .next (
    if !s.fnOpen fn then s
    else
      let s := s.onFn fn fun f => { f with resetting := true, done := false }
      let s := (s.ctxsOf fn).foldl State.resetCtx s
      s.onFn fn fun f => { f with msix := f.msix.map fun m => { m with pend := false } })

/-- `FUNCTION_RESET_COMPLETE` (R451, steps 8 and 9). -/
def execFunctionResetComplete (fn : Nat) (s : State) : Out :=
  .next (
    if !(s.fn fn).resetting then s
    else
      let s := s.eraseKeys fn
      let s := (s.ctxsOf fn).foldl State.freeCtx s
      s.onFn fn fun f => { f with resetting := false, done := true })

/-! ### The host memory window (R458) -/

/-- A refused request is counted and its address latched; a read or AtomicOp completes with Completer Abort. -/
def State.windowRefuse (s : State) (fn va : Nat) (posted : Bool) : State :=
  let s := s.onFn fn fun f => { f with aperr := satAdd f.aperr 1, apva := BitVec.ofNat 64 va }
  if posted then s else { s with sent := s.sent ++ [.window none] }

/-- The granules that a write of the window rewrites whole: an error of their bytes does not fail it, and ends with it (R275, R458). -/
def State.healed (s : State) (c va n : Nat) : State :=
  s.hurtGranules [] ((pieces (n / 16 + 2) va n).filterMap fun p =>
    match (s.locate (agent c) { space := .gl, bytes := p.2, acc := .w, align := 1 } (BitVec.ofNat 64 p.1)).2 with
    | .ok (.gl pa _) => if p.2 = 16 then some (s.place pa / 16) else none
    | _ => none)

/-- Every piece of a range is translated, permitted and free of a late failure. -/
def State.windowOk (s : State) (c va n : Nat) (acc : Acc) : Bool :=
  (pieces (n / 16 + 2) va n).all fun p =>
    match s.locate (agent c) { space := .gl, bytes := p.2, acc := acc, align := 1 } (BitVec.ofNat 64 p.1) with
    | (_, .error _) => false
    | (t, .ok loc) => (t.lateFault (agent c) loc p.2).isNone

/-- The bytes of a range that the window reads, piece by piece. -/
def State.windowBytes (s : State) (c va n : Nat) : List Byte :=
  (pieces (n / 16 + 2) va n).flatMap fun p =>
    match (s.locate (agent c) { space := .gl, bytes := p.2, acc := .r, align := 1 } (BitVec.ofNat 64 p.1)).2 with
    | .ok loc => (s.readLoc loc p.2).2
    | .error _ => []

/-- The value that an AtomicOp leaves: 2 FetchAdd, 3 Swap, 4 CAS (its first operand compares). -/
def hostAtomic (kind n old : Nat) (data : List Byte) : Nat :=
  let x := ofBytes (data.take n)
  if kind = 2 then (old + x) % 2 ^ (8 * n)
  else if kind = 3 then x
  else if old = x then ofBytes ((data.drop n).take n) else old

/-- `HOST_WINDOW_REQUEST` (R458): kind 0 a read, 1 a write, 2 to 4 an AtomicOp of 4 or 8 bytes. What lies behind a port in training
is accessed as though the training had ended (log entry 84). -/
def execHostWindowRequest (fn off kind n : Nat) (data : List Byte) (s : State) : Out :=
  .next (
    let f := s.fn fn
    let c := fld f.apctl.toNat 5 0
    let va := (f.apctl.toNat / 2 ^ 16 * 2 ^ 16 + off) % 2 ^ 64
    let acc : Acc := match kind with | 0 => .r | 1 => .w | _ => .a
    let h := if kind = 1 then s.healed c va n else s
    if 2 ^ 36 < off + n || 4 < kind || (2 ≤ kind && n ≠ 4 && n ≠ 8) || !s.exposed then s
    else if !f.apctl.getLsbD 7 || !s.owns fn c || (2 ≤ kind && va % n ≠ 0) || !h.windowOk c va n acc then
      s.windowRefuse fn va (kind = 1)
    else
      match kind with
      | 0 =>
        match s.readVa (agent c) .gl va n .r with
        | (s, .ok bs) => { s with sent := s.sent ++ [.window (some bs)] }
        | (s, .error f) => if f.1 = cHOLD then { s with sent := s.sent ++ [.window (some (s.windowBytes c va n))] }
          else s.windowRefuse fn va false
      | 1 => (h.writeVa (agent c) .gl va (data.take n) none).1
      | _ =>
        match s.locate (agent c) { space := .gl, bytes := n, acc := .a } (BitVec.ofNat 64 va) with
        | (s, .error _) => s.windowRefuse fn va false
        | (s, .ok loc) =>
          let r := s.readLoc loc n
          let s := r.1.writeLoc loc (toBytes n (hostAtomic kind n (ofBytes r.2) data))
          { s with sent := s.sent ++ [.window (some r.2)] })

end Sys2Proof.Machine
end

