-- ==== Sys2Proof/Machine/Link.lean ====
section
/-! DEFINITION. Ports, the die link, acknowledgements and refusals of transfers, the clock (R460 to R469). -/
namespace Sys2Proof.Machine

/-! ### How a transfer ends (R463, R467) -/

/-- The job that a transfer is made for. -/
def XferKind.job : XferKind → Option Nat
  | .page uid _ _ _ => some uid
  | .coll uid => some uid
  | _ => none

/-- A transfer is dropped (R463): its record is posted, a `send` completes, a hand-off and a collective end with PEER. -/
def State.xferFail (s : State) (y : Xfer) (record : Bool) : State :=
  let s := s.dropXfer y.id
  let s := if record then s.unreach y.ctx y.addr else s
  match y.kind with
  | .page uid pool page st => (s.handBack y.ctx pool page st).jobEnd uid sPEER
  | .coll uid => s.jobEnd uid sPEER
  | _ => match y.op with | some o => s.complete o.1 o.2 | none => s

/-- One packet of a transfer is acknowledged; the last ends it. -/
def State.ackPart (s : State) (y : Xfer) : State :=
  if y.parts ≤ 1 then s.dropXfer y.id
  else { s with xfers := s.xfers.map fun z => if z.id = y.id then { z with parts := y.parts - 1 } else z }

/-- `REMOTE_ACK_ARRIVAL` (R467): an acknowledgement of a packet; a late flag gives the sending context its record (1 late, 2 unsynchronised). The
acknowledgement of a hand-off's last byte is `HANDOFF_ACK`. -/
def execRemoteAckArrival (x d : Nat) (s : State) : Out :=
  .next (match s.xfer? x with
    | none => s
    | some y =>
      let s := if d ≤ 2 then s.windowRec y.ctx y.port y.addr y.window d else s
      match y.kind with
      | .page .. => s
      | .coll _ => s.ackPart y
      | _ => match y.op with
        | some o => (s.dropXfer x).complete o.1 o.2
        | none => s.dropXfer x)

/-- `RETRANSMIT_LIMIT` (R463). -/
def execRetransmitLimit (x : Nat) (s : State) : Out :=
  .next (match s.xfer? x with | some y => s.xferFail y true | none => s)

/-- `PEER_REFUSAL` (R406, R463): the peer's context is free or of another job (why 0), or the page of a hand-off is not borrowed
there (why 1), which ends the hand-off with PEER and posts nothing. -/
def execPeerRefusal (x why : Nat) (s : State) : Out :=
  .next (match s.xfer? x with
    | none => s
    | some y => match y.kind with
      | .page .. => s.xferFail y (why = 0)
      | _ => s.xferFail y true)

/-- `PEER_ABORT_NOTICE` (R451, step 6): an open hand-off or collective of a context ends with PEER. -/
def execPeerAbortNotice (cx uid : Nat) (s : State) : Out :=
  .next (match s.job? uid with
    | none => s
    | some j =>
      if j.ctx ≠ cx || j.ended || !(j.kind = kCOLL || cardOp j.card = 0x43) then s
      else ((s.xfers.filter fun y => y.kind.job = some uid).foldl (fun s y => s.xferFail y false) s).jobEnd uid sPEER)

/-! ### Ports (R468, R469) -/

/-- A LEVT bit is set, and the physical function's link vector raised (R450, R456). -/
def State.linkEvent (s : State) (bit : Nat) : State :=
  { s with levt := s.levt ||| BitVec.ofNat 32 (2 ^ bit) }.raise 0 s.levv.toNat

/-- A port goes from one of some states to another. In recovery, and where bring-up has ended early, no port trains (R470, R472). -/
def State.portMove (s : State) (p : Nat) (when_ : List PortSt) (f : Port → Port) : State :=
  match s.ports[p]? with
  | some x => if s.exposed && x.st ∈ when_ then { s with ports := s.ports.set p (f x) }.linkEvent p else s
  | none => s

/-- `PARTNER_DETECTED` (R468). -/
def execPartnerDetected (p : Nat) (s : State) : Out := .next (s.portMove p [.down] fun x => { x with st := .training })

/-- `TRAINING_END` (R468): with the rate and width reached, and whether both are full; held packets go out. -/
def execTrainingEnd (p rate width : Nat) (full : Bool) (s : State) : Out :=
  .next (
    let t := s.portMove p [.training] fun x => { x with st := if full then .up else .degraded, rate := rate % 16, width := width % 256 }
    match s.ports[p]? with
    | some x => if s.exposed && x.st = .training && 2 ≤ p then t.releaseHeld (p - 2) else t
    | none => t)

/-- `TRAINING_FAILED` (R468): the transfers of an Ultra Ethernet port are dropped (R463); accesses through a host port fail from now on
(R455). -/
def execTrainingFailed (p : Nat) (s : State) : Out :=
  .next (match s.ports[p]? with
    | some x =>
      if x.st ≠ .training || !s.exposed then s
      else
        let s := s.portMove p [.training] fun x => { x with st := .failed }
        let s := if 2 ≤ p then s.releaseHeld (p - 2) else s
        (s.xfers.filter fun y => y.port + 2 = p).foldl (fun s y => s.xferFail y true) s
    | none => s)

/-- `LANE_LOST` (R468): a lane lost, or an error rate above the retrain threshold. -/
def execLaneLost (p : Nat) (s : State) : Out :=
  .next (s.portMove p [.up, .degraded] fun x => { x with st := .training, retrain := min (x.retrain + 1) (2 ^ 15 - 1) })

/-- `PARTNER_LOST` (R468). -/
def execPartnerLost (p : Nat) (s : State) : Out := .next (s.portMove p [.up, .degraded] fun x => { x with st := .down })

/-- `LINK_RETRAIN_REQUEST` (R468, R469): the physical function writes 1 to bit 0 of a failed port's LSTAT. -/
def execLinkRetrainRequest (fn p : Nat) (s : State) : Out :=
  .next (
    if fn = 0 && s.fnOpen 0 then s.portMove p [.failed] fun x => { x with st := .training, retrain := 0 } else s)

/-! ### The die link (R460) -/

/-- Every bound context faulted, with a DIELINK record each, the link down until a package reset, and the link event. -/
def State.dieLinkFatal (s : State) : State :=
  let hit := (List.range s.ctxs.length).filter fun c =>
    let x := s.ctx c
    x.st ≠ .free && x.st ≠ .resetting && x.st ≠ .faulted
  let s := hit.foldl State.dieLinkFault s
  { s with ctl := { s.ctl with dead := true } }.linkEvent 14

/-- `DIE_LINK_FATAL_ERROR` (R460). -/
def execDieLinkFatalError (s : State) : Out := .next s.dieLinkFatal

/-! ### The clock (R464, R465) -/

/-- What is left of a hold after a measurement (R465): a backward step holds the count for the offset measured, and a hold that is on goes on
until true time reaches the count. -/
def Clock.holdFor (c : Clock) (offs : Int) : Nat :=
  if (c.st = 1 && 1000000 < offs) || c.hold ≠ 0 then offs.toNat else 0

/-- `TIME_SYNC` (R465): a measurement: this clock's time less the master's, in ns, and the state that the servo is in after it. In
acquiring, an offset above 1 ms is corrected by a step: forward at once, backward by holding the count. -/
def execTimeSync (offs : Int) (st : Nat) (s : State) : Out :=
  .next (
    let c := s.clock
    let c := { c with ns := if c.st = 1 && offs < -1000000 then c.ns + (-offs).toNat else c.ns, hold := c.holdFor offs }
    { s with clock := { c with offs := offs, st := if st ≤ 2 then st else c.st } })

end Sys2Proof.Machine
end

