-- ==== Sys2Proof/Machine/Remote.lean ====
section
/-! DEFINITION. What arrives from peers: messages, page bytes, collective data and barrier arrivals, in the windows of their senders (R199
to R202, R299, R313, R406, R466, R467). -/
namespace Sys2Proof.Machine

/-! ### Arrivals that wait (R201, R313) -/

/-- Store packets of a sender that are visible here, or refused, of windows up to one. -/
def State.heardOf (s : State) (cx src window : Nat) : Nat :=
  (s.heard.filter fun h => h.1 = cx && h.2.1 = src && h.2.2 ≤ window).length

/-- A barrier arrival is counted at its cell, and reported late where it is (R202, R313). -/
def State.countArrival (s : State) (a : Inbound) : State :=
  let s := match s.cellLoc (agent a.ctx) false a.addr .a with
    | (s, .error f) => s.post a.ctx { Rec.blank with cause := f.1, detail := f.2, kind := 5, addr := a.addr }
    | (s, .ok loc) => let r := s.readLoc loc 16; r.1.putCell loc (arriveCell (ofBytes r.2)).2
  s.applied a.ctx a.via a.addr a.late

/-- Every store that an arrival waits for is visible. -/
def State.arrivalDue (s : State) (a : Inbound) : Bool := a.via.seq ≤ s.heardOf a.ctx a.via.src a.via.window

/-- An arrival that waits for a store of its sender, of a window up to its own, that came late is late itself (R202, R467). -/
def Inbound.await (a : Inbound) (cx : Nat) (via : Via) (d : Nat) : Inbound :=
  if a.ctx = cx && a.via.src = via.src && via.window ≤ a.via.window && d ≠ 0 && a.late = 0 then { a with late := 1 } else a

/-- A store packet of a peer, which came late by detail d, is over: the arrivals that waited for it are counted. -/
def State.hear (s : State) (cx : Nat) (via : Via) (d : Nat) : State :=
  let s := { s with heard := s.heard ++ [(cx, via.src, via.window)], inbound := s.inbound.map fun (a : Inbound) => a.await cx via d }
  let due := s.inbound.filter s.arrivalDue
  due.foldl State.countArrival { s with inbound := s.inbound.filter fun a => !s.arrivalDue a }

/-- `REMOTE_ARRIVAL_APPLY` (R201, R313): an arrival from a peer at a cell of a context, counted at once or when the last store that it waits
for is visible. -/
def execRemoteArrivalApply (cx : Nat) (port : Sender) (addr : Dword) (window wink : Nat) (unsync : Bool) (s : State) : Out :=
  .next (
    let via : Via := ⟨port, window, wink, unsync⟩
    let a : Inbound := ⟨cx, via, addr, s.lateness via⟩
    if port.unrel || !s.exposed then s
    else if (s.ctx cx).st = .free then s.answer a.via 5 cx addr false
    else if s.arrivalDue a then s.countArrival a
    else { s with inbound := s.inbound ++ [a] })

/-! ### Messages (R299, R300) -/

/-- The message at a place takes its slot, once the slot is empty: the payload is written and the slot is full; the `send` is complete, or
the peer is told, with a WINDOW record where its packet came late (R199, R202, R466). A `send` of a context that is being saved stands still (R442). A message whose slot can no longer be written faults the lanes of
its `send`, or is refused. -/
def State.putMsg (s : State) (k : Nat) : State :=
  match s.msgs[k]? with
  | none => s
  | some m =>
    if !s.msgFirst k m || (m.op.isSome && !(s.ctx m.ctx).st.live && (s.ctx m.ctx).st ≠ .faulted) then s
    else
      match s.slotLoc m.ctx m.slot .w with
      | (t, .error f) =>
        if f.1 = cHOLD then s else
        let s := t
        let s := { s with msgs := s.msgs.eraseIdx k }
        let s := match m.op with
          | some o =>
            match (s.grp o.1).op? o.2 with
            | some x =>
              (s.deferAll o.1 x.pc x.hm false ((lanesOf x.lanes).map fun l => (l.val, f.1, f.2, m.slot))).complete o.1 o.2
            | none => s
          | none => s
        match m.via with
        | some v => (s.answer v.1 5 m.ctx v.2.1 false).hear m.ctx v.1 v.2.2
        | none => s
      | (s, .ok loc) =>
        if s.feAt loc then s
        else
          let s := (s.writeLoc loc (toBytes 16 m.data.toNat)).setFe loc true
          let s := { s with msgs := s.msgs.eraseIdx k }
          let s := match m.op with | some o => s.complete o.1 o.2 | none => s
          match m.via with
          | some v => (s.applied m.ctx v.1 v.2.1 v.2.2).hear m.ctx v.1 v.2.2
          | none => s

/-- `MBOX_SLOT_WRITE` (R300). -/
def execMboxSlotWrite (k : Nat) (s : State) : Out := .next (s.putMsg k)

/-- `LINK_MESSAGE_ARRIVAL` (R299, R467): a message from a peer claims a slot of the mailbox at its address, and takes it where it is empty;
`dep` is the depth that the mailbox was made with (log entry 25). A context that is not there, or a mailbox that cannot be claimed, refuses
it. -/
def execLinkMessageArrival (cx : Nat) (port : Sender) (mbx : Dword) (dep : Nat) (data : BitVec 128) (window wink : Nat) (unsync : Bool)
    (s : State) : Out :=
  .next (
    let via : Via := ⟨port, window, wink, unsync⟩
    let d := s.lateness via
    let no := fun (s : State) => (s.answer via 5 cx mbx false).hear cx via d
    if port.unrel || !s.exposed then s
    else if (s.ctx cx).st = .free || 8 < dep then no s
    else
      match s.checkCells (agent cx) (mboxCells mbx dep) with
      | (s, some _) => no s
      | (s, none) =>
        match s.claim (agent cx) mbx.toNat with
        | (s, .error _) => no s
        | (s, .ok w) =>
          let n := s.msgs.length
          { s with msgs := s.msgs ++ [(⟨cx, mboxSlot mbx dep w, data, none, some (via, mbx, d)⟩ : Msg)] }.putMsg n)

/-! ### Page bytes and collective data (R200, R406, R461) -/

/-- One packet was sent after another of its sender, as the order of their effects goes (R200). -/
def viaAfter (x y : Via) : Bool :=
  x.src = y.src && (y.window < x.window || (x.window = y.window && y.rod && y.seq < x.seq))

/-- A store that was sent after the packet has written a byte of a page already: its bytes stand (R200). -/
def State.overtaken (s : State) (cx : Nat) (via : Via) (pool page at_ : Nat) : Bool :=
  s.landed.any fun x => x.ctx = cx && x.pool = pool && x.page = page && x.off ≤ at_ && at_ < x.off + x.len && viaAfter x.via via

/-- The bytes of a packet written into a page's frame, but for those that a later store has written. -/
def State.putPage (s : State) (cx : Nat) (via : Via) (pool page frame off : Nat) (data : List Byte) : State × Bool :=
  match s.checkVa (agent cx) (frame + off) data.length .w with
  | (s, some _) => (s, false)
  | (s, none) =>
    let r := (List.range data.length).foldl (fun (r : State × Bool) i =>
      if s.overtaken cx via pool page (off + i) then r
      else match r.1.writeVa (agent cx) .gl (frame + off + i) [data.getD i 0] (some true) with
        | (s, some _) => (s, false)
        | (s, none) => (s, r.2)) (s, true)
    ({ r.1 with landed := r.1.landed ++ [⟨cx, via, pool, page, off, data.length⟩] }, r.2)

/-- A packet of page bytes lands in a borrowed page, within the PG bytes of it; any other is refused (R393, R406, R463). `last` makes the
page resident. The remote address is that of the bytes in the page's frame (R458). -/
def State.pageBytes (s : State) (cx : Nat) (via : Via) (pool page off : Nat) (data : List Byte) (last : Bool) : State :=
  let at_ := BitVec.ofNat 64 (match (s.ctx cx).pool? pool with
    | some p => p.frame 0 (s.recD cx p page).slot + off
    | none => 0)
  let d := s.lateness via
  let no := fun (s : State) => (s.answer via 5 cx at_ false).hear cx via d
  match decide ((s.ctx cx).st = .free), (s.ctx cx).pool? pool with
  | false, some p =>
    if p.np ≤ page || p.pg < off + data.length || (s.recD cx p page).st ≠ pBorrowed then no s
    else
      match s.putPage cx via pool page (p.frame 0 (s.recD cx p page).slot) off data with
      | (s, false) => no s
      | (s, true) =>
        let s := if last then s.onRec cx p page fun r => { r with st := pResident, full := true } else s
        let s := if last then ((s.pageCame cx pool page).freeIfDue cx pool p page).startPageIns else s
        (s.applied cx via at_ d).hear cx via d
  | _, _ => no s

/-- `HANDOFF_BYTES_ARRIVE` (R406): the last byte of a hand-off arrives. -/
def execHandoffBytesArrive (cx : Nat) (port : Sender) (pool page off : Nat) (data : List Byte) (window wink : Nat) (unsync : Bool)
    (s : State) : Out :=
  .next (if port.unrel || !s.exposed then s else s.pageBytes cx ⟨port, window, wink, unsync⟩ pool page off data true)

/-- One granule of a rank's collective data, but where a store that was sent after it has written it already (R200). -/
def State.putPart (s : State) (x : Coll) : State :=
  let same := fun (y : Coll) => y.ctx = x.ctx && y.fn = x.fn && y.id = x.id && y.rank = x.rank && y.off = x.off && y.job.isNone
  match x.via, s.colls.find? same with
  | some v, some y => if y.via.any fun w => viaAfter w v then s else { s with colls := (s.colls.filter fun y => !same y) ++ [x] }
  | _, _ => { s with colls := (s.colls.filter fun y => !same y) ++ [x] }

/-- The remote address of a rank's collective data (R458, R467): its place in the write region of the context's job of that collective; one
that no job here names yet is not stated (log entry 83). -/
def State.collPlace (s : State) (cx fn id rank off : Nat) : Dword :=
  match s.jobs.find? fun j => j.ctx = cx && !j.ended && j.kind = kCOLL && cardOp j.card = fn && cardP0 j.card = id with
  | some j => BitVec.ofNat 64
      ((regionAt j.wr 0).base + (if fn = 0x21 then rank * (regionAt j.rd 0).len else 0) + off)
  | none => Config.remoteAddr [cx, fn, id, rank, off]

/-- `REMOTE_STORE_ARRIVAL` (R461, R466): a packet of remote stores is applied: page bytes (kind 3: pool, page, offset), or a rank's
collective data (kind 4: the operation and, times 256, the granules of the whole; the identifier; the rank and, times 65,536, the
granule at which the packet begins). A late one is reported. -/
def execRemoteStoreArrival (cx : Nat) (port : Sender) (kind a b c : Nat) (data : List Byte) (window wink : Nat) (unsync : Bool)
    (s : State) : Out :=
  .next (
    let via : Via := ⟨port, window, wink, unsync⟩
    let d := s.lateness via
    let at_ := s.collPlace cx (a % 256) b (c % 65536) (16 * (c / 65536))
    if port.unrel || !s.exposed then s
    else if kind = 3 then s.pageBytes cx via a b c data false
    else if (s.ctx cx).st = .free then (s.answer via 5 cx at_ false).hear cx via d
    else
      let s := (List.range ((data.length + 15) / 16)).foldl (fun s i => s.putPart
        { ctx := cx, fn := a % 256, id := b, rank := c % 65536, data := (data.drop (16 * i)).take 16, job := none,
          off := 16 * (c / 65536 + i), total := 16 * (a / 256), via := some via }) s
      (s.applied cx via at_ d).hear cx via d)

end Sys2Proof.Machine
end

