-- ==== Sys2Proof/Machine/Trust.lean ====
section
/-! DEFINITION. The system controller: bring-up and package reset (R470 to R472), attestation (R473), key slots and vendor objects
(R474, R475), islands and the power cap (R476, R477). -/
namespace Sys2Proof.Machine

/-! ### Package reset (R470 to R472) -/

/-- The controller changed in place. -/
def State.onCtl (s : State) (f : Controller → Controller) : State := { s with ctl := f s.ctl }

/-- The ROM starts an image (R471): both signatures verify, each against its fused key over the image's digest and its SVN, and the SVN is not
below the floor. -/
def imageStarts (svnf : Nat) (image : List Byte) : Bool :=
  let signed := fun (verify : List Byte → List Byte → Nat → List Byte → Bool) (key sig : List Byte) =>
    verify key (Config.digest image) (Config.imageSvn image) sig
  signed Config.ecdsaVerify Config.ecdsaKey (Config.ecdsaSig image) && signed Config.lmsVerify Config.lmsKey (Config.lmsSig image)
    && decide (svnf ≤ Config.imageSvn image)

/-- Bring-up after a package reset. `strap` gives the mode of each host port; `linkOk` that the die link has trained. What lies behind the
host ports stays as it is, and so does the flash. Fuses or a flash that the ROM cannot read hold the device in recovery at step 1 or 2, an
image that does not start at step 3, a link that does not train ends it at step 4: memory is then not written and slot 0 has no key. -/
def State.packageReset (s : State) (strap0 strap1 linkOk : Bool) : State :=
  let z := State.reset
  let good := Config.bootReads s.freeIdx && imageStarts s.ctl.svnf s.ctl.flash
  let up := good && linkOk
  let svn := Config.imageSvn s.ctl.flash
  let t := { z with
    mem := if up then s.mem.filter (fun c => behindPort c.1) else s.mem, empty := if up then z.empty else s.empty,
    poison := s.poison.filter fun p => !up || behindPort (16 * p), memKeys := if up then z.memKeys else s.memKeys,
    outside := s.outside, errors := s.errors, agenda := s.agenda, freeIdx := s.freeIdx + 1, clk := s.clk, turn := s.turn,
    sent := s.sent,
    ports := z.ports.mapIdx fun i p => if i = 0 then { p with cxl := strap0 } else if i = 1 then { p with cxl := strap1 } else p,
    ctl := { z.ctl with
      recovery := !good, halted := good && !linkOk, flash := s.ctl.flash, svn := if good then svn else 0,
      keys := if up then z.ctl.keys else List.replicate 256 .empty,
      svnf := if good then max s.ctl.svnf svn else s.ctl.svnf } }
  if linkOk || !good then t else t.dieLinkFatal

/-- `PACKAGE_RESET` (R470). -/
def execPackageReset (strap0 strap1 linkOk : Bool) (s : State) : Out := .next (s.packageReset strap0 strap1 linkOk)

/-! ### Vendor-defined objects (R474, R475) -/

/-- The answer to an object: the head with its status, and a body. -/
def State.doeReply (s : State) (req : List Byte) (st : Nat) (body : List Byte) : State :=
  { s with sent := s.sent ++ [.doe (req.take 1 ++ toBytes 1 st ++ (req.drop 2).take 14 ++ body)] }

/-- An object of a code is answered: not in recovery (R472). -/
def State.doeFor (s : State) (req : List Byte) (obj : Nat) (f : Nat → Nat → State) : State :=
  if fieldAt req 0 1 ≠ obj || !s.exposed then s else f (fieldAt req 2 1) (fieldAt req 3 1)

/-- An object arrives inside a secured session. -/
def State.inSession (s : State) (secured : Bool) : Bool := secured && s.ctl.spdm = .secured

/-- A slot is owned by a function other than `fn`. -/
def KeySlot.foreign (k : KeySlot) (fn : Nat) : Bool :=
  match k with | .null f => f ≠ fn | .key f _ => f ≠ fn | _ => false

/-- A slot takes a new content: the lines recorded under it are written back under the old key and dropped (R474). -/
def State.setKey (s : State) (slot : Nat) (new : KeySlot) : State :=
  (s.evict (fun x => x.key = slot) true).onCtl fun c => { c with keys := c.keys.set slot new }

/-- `KEYLOAD` (R474, R475). -/
def execKeyload (req : List Byte) (secured : Bool) (s : State) : Out :=
  .next (s.doeFor req 1 fun tgt slot =>
    let bytes := (req.drop 16).take 64
    if !s.inSession secured then s.doeReply req 1 []
    else if slot = 0 then s.doeReply req 3 []
    else if (s.ctl.keys.getD slot .empty).foreign tgt then s.doeReply req 2 []
    else (s.setKey slot (if ofBytes bytes = 0 then .null tgt else .key tgt bytes)).doeReply req 0 [])

/-- One of the statuses that KEYERASE has (R475): OK, OWNED, BADSLOT. -/
def eraseStatus (n : Nat) : Nat := match n % 3 with | 0 => 0 | 1 => 2 | _ => 3

/-- `KEYERASE` (R474, R475). Outside a secured session it has no effect, and which of its statuses it gives is not stated (log entry 7). -/
def execKeyerase (req : List Byte) (secured : Bool) (s : State) : Out :=
  .next (s.doeFor req 2 fun tgt slot =>
    if !s.inSession secured then let f := s.free; f.2.doeReply req (eraseStatus f.1) []
    else if slot = 0 then s.doeReply req 3 []
    else if (s.ctl.keys.getD slot .empty).foreign tgt then s.doeReply req 2 []
    else (s.setKey slot .empty).doeReply req 0 [])

/-- `PCAP` (R475, R477): the cap that the next interval uses. -/
def execPcap (req : List Byte) (s : State) : Out :=
  .next (s.doeFor req 3 fun _ _ =>
    let w := fieldAt req 16 4
    if w < 1000 || 3200 < w then s.doeReply req 4 [] else (s.onCtl fun c => { c with pcap := w }).doeReply req 0 [])

/-- `FWLOAD` (R472, R475): a valid image replaces the one in flash and the package resets; answered in recovery too. -/
def execFwload (req : List Byte) (s : State) : Out :=
  .next (
    let image := req.drop 16
    if fieldAt req 0 1 ≠ 4 || s.ctl.halted then s
    else if imageStarts s.ctl.svnf image then
      let mode := fun (i : Nat) => match s.ports[i]? with | some p => p.cxl | none => false
      ((s.onCtl fun c => { c with flash := image }).doeReply req 0 []).packageReset (mode 0) (mode 1) true
    else s.doeReply req 5 [])

/-- `PSTAT` (R475). -/
def execPstat (req : List Byte) (s : State) : Out :=
  .next (s.doeFor req 5 fun _ _ =>
    s.doeReply req 0 (toBytes 4 s.ctl.pcap ++ toBytes 4 s.ctl.measured ++ toBytes 4 s.ctl.throttle))

/-- `DOE_UNKNOWN_OBJECT` (R475). -/
def execDoeUnknownObject (req : List Byte) (s : State) : Out :=
  .next (
    let o := fieldAt req 0 1
    if !s.exposed || (1 ≤ o && o ≤ 5) then s else s.doeReply req 0xff [])

/-! ### Attestation (R473) -/

/-- Measurement block 5: for each function, a bitmap of the slots it owns. -/
def State.keyMap (s : State) : List Byte :=
  (List.range 32).flatMap fun f => toBytes 32 ((List.range 256).map fun n =>
    match s.ctl.keys[n]? with | some k => if k.ownedBy f then 2 ^ n else 0 | none => 0).sum

/-- The measurement blocks 1 to 5. -/
def State.measurements (s : State) : List (List Byte) :=
  [Config.romDigest, Config.digest s.ctl.flash, toBytes 4 s.ctl.svn ++ toBytes 4 s.ctl.svnf, Config.fuseConfig, s.keyMap]

/-- An answer of the SPDM responder, whose bytes the SPDM standard and the device's keys give (log entry 8). -/
def State.spdmReply (s : State) (code : Nat) (data content : List Byte) : State :=
  { s with sent := s.sent ++ [.doe (Config.attest code (data ++ content))] }

/-- A request other than GET_VERSION: not answered in recovery (R472). -/
def State.spdmFor (s : State) (f : State) : State := if !s.exposed then s else f

/-- The versions of the responder, 1.2 and 1.3 (R473), as SPDM codes them (log entry 8). -/
def spdmVersions : List Byte := [0x12, 0x13]

/-- The responder's only algorithm set (R473): ECDSA P-384 and SHA-384, as SPDM codes them (log entry 8). -/
def spdmAlgorithms : List Byte := toBytes 4 0x80 ++ toBytes 4 0x02

/-- An answer that begins with bytes that R473 gives; the rest as `spdmReply` has it. -/
def State.spdmTells (s : State) (code : Nat) (said data : List Byte) : State :=
  { s with sent := s.sent ++ [.doe (said ++ Config.attest code (data ++ said))] }

/-- `GET_VERSION`: the versions; the connection starts anew (log entry 8). -/
def execGetVersion (data : List Byte) (s : State) : Out :=
  .next (if s.ctl.halted then s else (s.onCtl fun c => { c with spdm := .none }).spdmTells 0 spdmVersions data)

/-- `GET_CAPABILITIES`. -/
def execGetCapabilities (data : List Byte) (s : State) : Out := .next (s.spdmFor (s.spdmReply 1 data []))

/-- `NEGOTIATE_ALGORITHMS`: the one set. -/
def execNegotiateAlgorithms (data : List Byte) (s : State) : Out := .next (s.spdmFor (s.spdmTells 2 spdmAlgorithms data))

/-- `GET_DIGESTS`. -/
def execGetDigests (data : List Byte) (s : State) : Out := .next (s.spdmFor (s.spdmReply 3 data []))

/-- `GET_CERTIFICATE`. -/
def execGetCertificate (data : List Byte) (s : State) : Out := .next (s.spdmFor (s.spdmReply 4 data []))

/-- `CHALLENGE`: signed over the measurements. -/
def execChallenge (data : List Byte) (s : State) : Out := .next (s.spdmFor (s.spdmReply 5 data s.measurements.flatten))

/-- `GET_MEASUREMENTS`: the blocks, and the signature over them. -/
def execGetMeasurements (data : List Byte) (s : State) : Out :=
  .next (s.spdmFor (s.spdmTells 6 s.measurements.flatten data))

/-- `KEY_EXCHANGE`: a session is being established. -/
def execKeyExchange (data : List Byte) (s : State) : Out :=
  .next (s.spdmFor ((s.onCtl fun c => { c with spdm := .handshake }).spdmReply 7 data []))

/-- `FINISH`: the session is secured where the requester's proof verifies. -/
def execFinish (data : List Byte) (s : State) : Out :=
  .next (s.spdmFor (
    let ok := s.ctl.spdm = .handshake && Config.finishValid data
    (if ok then s.onCtl fun c => { c with spdm := .secured } else s).spdmReply 8 data []))

/-- `END_SESSION`. -/
def execEndSession (data : List Byte) (s : State) : Out :=
  .next (s.spdmFor ((s.onCtl fun c => { c with spdm := .none }).spdmReply 9 data []))

/-! ### Power (R476, R477) -/

/-- The throttle step after an interval (R477). -/
def throttleNext (pm cap t : Nat) : Nat := if cap < pm then min (t + 1) 12 else if pm + 100 < cap then t - 1 else t

/-- `POWER_INTERVAL` (R477): the power measured over the interval. -/
def execPowerInterval (pm : Nat) (s : State) : Out :=
  .next (
    let t := throttleNext pm s.ctl.pcap s.ctl.throttle
    let s := s.onCtl fun c => { c with measured := pm, throttle := t }
    { s with
      islands := s.islands.map (fun x => { x with rate := 48 * (16 - t), mhz := 1100 - 50 * t }),
      ring := { s.ring with gp := 16 - t / 2 } })

/-- The voltage of an island, set from its frequency (R476; log entry 8). -/
def Island.voltage (i : Island) : Nat := Config.voltage i.mhz

/-- An island's clk edges stretched or not (R476). -/
def State.stretch (s : State) (isl : Nat) (b : Bool) : State := { s with islands := updAt s.islands isl fun x => { x with stretched := b } }

/-- `DROOP` (R476). -/
def execDroop (isl : Nat) (s : State) : Out := .next (s.stretch isl true)

/-- `SUPPLY_RECOVERY` (R476). -/
def execSupplyRecovery (isl : Nat) (s : State) : Out := .next (s.stretch isl false)

end Sys2Proof.Machine
end

