-- ==== Sys2Proof/Machine/Seq.lean ====
section
/-! DEFINITION. Sequences: records, admission, the steps at a lap boundary, the SEQ instructions, migration (R346 to R375). -/
namespace Sys2Proof.Machine

/-! ### Fields of a record (R346) -/

def Seq.word (q : Seq) (k : Nat) : Nat := (q.w.getD k 0).toNat
def Seq.byte (q : Seq) (off : Nat) : Nat := fld (q.word (off / 4)) (8 * (off % 4) + 7) (8 * (off % 4))
def Seq.dword (q : Seq) (off : Nat) : Nat := q.word (off / 4) + q.word (off / 4 + 1) * 2 ^ 32

/-- A word of a record written. -/
def Seq.setWord (q : Seq) (k n : Nat) : Seq := { q with w := q.w.setIfInBounds k (BitVec.ofNat 32 n) }

/-- A byte of a record written. -/
def Seq.setByte (q : Seq) (off n : Nat) : Seq :=
  q.setWord (off / 4) (setFld (q.word (off / 4)) (8 * (off % 4) + 7) (8 * (off % 4)) (n % 256))

/-- Eight bytes of a record written. -/
def Seq.setDword (q : Seq) (off n : Nat) : Seq := (q.setWord (off / 4) (n % 2 ^ 32)).setWord (off / 4 + 1) (n / 2 ^ 32 % 2 ^ 32)

def Seq.pos (q : Seq) : Nat := q.word 5
def Seq.plen (q : Seq) : Nat := q.word 8
def Seq.pfx (q : Seq) : Nat := q.word 9
def Seq.gcount (q : Seq) : Nat := q.word 10
def Seq.maxgen (q : Seq) : Nat := q.word 11
def Seq.an (q : Seq) : Nat := q.word 29
def Seq.cat (q : Seq) : Nat := q.dword 104
def Seq.npg (q : Seq) : Nat := q.word 28
def Seq.ckptAt (q : Seq) : Nat := q.dword 120
def Seq.ckpos (q : Seq) : Nat := q.word 32
def Seq.slen (q : Seq) : Nat := q.byte 132
def Seq.nd (q : Seq) : Nat := q.byte 133
def Seq.di (q : Seq) : Nat := q.byte 19
def Seq.flg (q : Seq) (b : Nat) : Bool := (q.byte 18).testBit b
def Seq.stop (q : Seq) : List Nat := (List.range 8).map fun i => q.word (18 + i)
def Seq.drafts (q : Seq) : List Nat := (List.range 8).map fun i => q.word (34 + i)
def Seq.tail (q : Seq) : List Nat := (List.range 16).map fun i => q.word (48 + i)
def Seq.tag (q : Seq) : Word := BitVec.ofNat 32 (q.word 2)

/-- The handle of a record (R347). -/
def Seq.handle (q : Seq) : Nat := q.slot + q.gen * 2 ^ 14

/-- The state that was remembered last comes back (R351). -/
def Seq.recall (q : Seq) : Seq := { q with prev := q.prev.tail }.setSt (q.prev.headD 0)

/-- The state is remembered and another taken (R351). -/
def Seq.leave (q : Seq) (st : Nat) : Seq := { q with prev := q.st :: q.prev }.setSt st

/-- A flag of a record written. -/
def Seq.setFlg (q : Seq) (b : Nat) (x : Bool) : Seq := q.setByte 18 (setFld (q.byte 18) b b (if x then 1 else 0))

/-- State codes (R350). -/
def qAdmitted : Nat := 1
def qPrefilling : Nat := 2
def qDecoding : Nat := 3
def qVerifying : Nat := 4
def qStalled : Nat := 5
def qParked : Nat := 6
def qFinishing : Nat := 7
def qFinished : Nat := 8
def qMigOut : Nat := 9
def qMigIn : Nat := 10
def qFailed : Nat := 11

/-- A record by its slot. -/
def State.seq? (s : State) (slot : Nat) : Option Seq := s.seqs.find? fun q => q.slot = slot

/-- The class and the pool of a record. -/
def State.seqClass (s : State) (q : Seq) : SeqClass := (s.ctx q.ctx).classes.getD (q.byte 12) ⟨0, 0, 0, 0, 0, 0, 0, 0, 0, 0⟩
def State.seqPool (s : State) (q : Seq) : Pool := ((s.ctx q.ctx).pool? (s.seqClass q).pool).getD Pool.none

/-- The stop-string hash (R349). -/
def tokHash (ts : List Nat) : Nat := ts.foldl (fun h t => (h ^^^ t) * 0x01000193 % 2 ^ 32) 0x811c9dc5

/-- `stopck` (R366). -/
def Seq.stopck (q : Seq) (x : Nat) : Nat :=
  if x ≠ 0xffffffff && q.stop.contains x then 1
  else if q.slen ≠ 0 && q.slen ≤ q.gcount + 1 && tokHash (q.tail.drop (17 - q.slen) ++ [x]) = q.word 17 then 2
  else if q.maxgen ≤ q.gcount + 1 then 3 else 0

/-- A reason that a program supplies (R350). -/
def reasonOf (n : Nat) : Nat := if n = 0 || n ≤ 3 || (0x10 ≤ n && n ≤ 0x2f) then n else 4

/-- A token appended (R367): the tail, POS and GEN; `tp` sets TP; a reason ends the sequence. -/
def Seq.append (q : Seq) (t e : Nat) (tp : Bool) : Seq :=
  let q := (List.range 16).foldl (fun r i => r.setWord (48 + i) ((q.tail.drop 1 ++ [t]).getD i 0)) q
  let q := { q with toks := q.toks ++ [BitVec.ofNat 32 t] }
  let q := (q.setWord 5 (q.pos + 1)).setWord 10 (q.gcount + 1)
  let q := if tp then q.setFlg 0 true else q
  let q := if q.st = qPrefilling then q.setSt qDecoding else q
  if e ≠ 0 then (q.setByte 17 e).setSt qFinishing else q

/-- The reason that a token ends with: MAXGEN where no other applies (R367). -/
def Seq.endReason (q : Seq) (e : Nat) : Nat := if e = 0 && q.gcount + 1 = q.maxgen then 3 else e

/-! ### Entries of sequences (R336, R354, R355) -/

/-- The scheduler may write an entry to a queue now: it never waits (R355). -/
def State.canPost (s : State) (c q : Nat) : Bool :=
  ((s.ctx c).queue q).room && !((s.ctx c).posts.any fun p => p.queue = q)

/-- A token's output entry, behind what waits for the queue. -/
def State.tokenOut (s : State) (q : Seq) (end_ t : Nat) (op : Option (Nat × Nat)) : State :=
  s.postEntry q.ctx ⟨q.byte 15, outputEntry end_ (BitVec.ofNat 32 (q.pos - 1)) (BitVec.ofNat 32 t) q.tag, op, none⟩

/-- The final output entry of a sequence that ends without a token (R354): written, or found its queue full. A queue that is no OUTPUT
queue takes none. -/
def State.finalOut (s : State) (q : Seq) : State × Bool :=
  let oq := q.byte 15
  if ((s.ctx q.ctx).queue oq).kind ≠ .output then (s, true)
  else if s.canPost q.ctx oq then
    (s.queueWrite q.ctx oq (outputEntry (q.byte 17) (BitVec.ofNat 32 q.pos) 0xffffffff#32 q.tag), true)
  else (s, false)

/-- The completion of a sequence (R354). -/
def State.seqCompletion (s : State) (q : Seq) : State × Bool :=
  let cq := (s.ctx q.ctx).d.scq
  if ((s.ctx q.ctx).queue cq).kind ≠ .completion then (s, true)
  else if s.canPost q.ctx cq then
    (s.queueWrite q.ctx cq (completionEntry (q.byte 17) 6 (BitVec.ofNat 32 q.gcount) q.tag), true)
  else (s, false)

/-- A sequence ends without a token: END and its state, and its final output entry (R354). -/
def State.seqEnd (s : State) (q : Seq) (e st : Nat) : State :=
  let q := (q.setByte 17 e).setSt st
  match s.finalOut q with
  | (s, ok) => s.onSeq q.slot fun _ => { q with outDue := !ok }

/-! ### Pages of sequences (R398) -/

/-- A pass of the scheduler: the state, or the state in which an access of its own has failed (R394; log entry 24). -/
abbrev SeqRes := Except State State

/-- Every record of a pool can be read; a fault puts the context in faulted (R394). -/
def State.poolOk (s : State) (c : Nat) (p : Pool) : Bool :=
  (List.range p.np).all fun n => match s.pageRec c p n with | .ok _ => true | .error _ => false

/-- Pages that can be taken. -/
def State.poolFree (s : State) (c pi : Nat) (p : Pool) : Nat :=
  min ((List.range p.np).filter fun n => (s.recD c p n).st = pFree).length
    ((List.range p.nn).filter fun k => !(s.used c pi p 0).contains k).length

/-- A page taken into a catalogue entry (R395, R398). An entry that has an uncorrectable error takes none: the next step 1 fails its
sequence (R351). -/
def State.takePage (s : State) (c pi : Nat) (p : Pool) (cat i st dom ntok nv : Nat) : SeqRes :=
  if !s.poolOk c p then .error s
  else
    match s.newPage c pi p st with
    | none => .error s
    | some (t, n) =>
      match t.catWrite (agent c) cat i (mkEntry n dom ntok true) (some nv) none with
      | (t, some f) => if f.1 = cMACHINE && f.2.1 = 1 then .ok s else .error t
      | (t, none) => .ok t

/-- The catalogue header of a new sequence (R396). -/
def State.catOpen (s : State) (c pi : Nat) (p : Pool) (cat handle : Nat) : SeqRes :=
  match s.writeVa (agent c) .gl cat
      (toBytes 4 p.cmax ++ toBytes 4 0 ++ toBytes 1 pi ++ List.replicate 7 0 ++ toBytes 4 handle ++ List.replicate 44 0) none with
  | (s, some _) => .error s
  | (s, none) => .ok s

/-- A failed access met an uncorrectable error. -/
def isPoison (f : Nat × Nat × Nat) : Bool := f.1 = cMACHINE && f.2.1 = 1

/-- A pass goes on after a failed access of a catalogue that met an uncorrectable error, and ends at any other. -/
def pastPoison (s : State) (f : Nat × Nat × Nat) : SeqRes := if isPoison f then .ok s else .error s

/-- The entry i of a sequence that ends is zeroed and its reference dropped. One that has an uncorrectable error names no page that could be
released (R351; log entry 24). -/
def State.entryRelease (s : State) (q : Seq) (i : Nat) : SeqRes :=
  let c := q.ctx
  let p := s.seqPool q
  match s.catRead (agent c) q.cat i with
  | (s, .error f) => pastPoison s f
  | (s, .ok e) =>
    if !eValid e then .ok s
    else
      let drop := fun (s : State) => if ePage e < p.np then s.dropRef c (s.seqClass q).pool p (ePage e) else s
      match s.catWrite (agent c) q.cat i 0 none none with
      | (s, some f) => if isPoison f then .ok (drop s) else .error s
      | (s, none) => .ok (drop s)

/-- The references of a sequence's entries dropped and its header zeroed (R398); the record's own count stands for a header that has an
uncorrectable error. -/
def State.catRelease (s : State) (q : Seq) : SeqRes :=
  if !q.hasCat then .ok s
  else
    let c := q.ctx
    let p := s.seqPool q
    if !s.poolOk c p then .error s
    else
      let h := s.catHdr (agent c) q.cat
      let n : Option Nat := match h.2 with
        | .ok h => some (min h.nv p.cmax)
        | .error f => if isPoison f then some (min q.npg p.cmax) else none
      match n with
      | none => .error h.1
      | some n =>
        match (List.range n).foldlM (fun s i => State.entryRelease s q i) h.1 with
        | .error s => .error s
        | .ok s =>
          match s.writeVa (agent c) .gl q.cat (List.replicate 64 0) none with
          | (s, some f) => if isPoison f then .ok s.startPageIns else .error s
          | (s, none) => .ok s.startPageIns

/-! ### Admission (R352, R364, R374) -/

/-- The words of a run of bytes. -/
def wordsOf (bs : List Byte) : List Nat := (List.range (bs.length / 4)).map fun i => fieldAt bs (4 * i) 4

/-- The lowest free slot of the sequence table, and the generation that its next allocation has (R347). -/
def State.freeSeq (s : State) : Option Nat := (List.range 16384).find? fun n => (s.seq? n).isNone
def State.nextGen (s : State) (slot : Nat) : Nat :=
  ((match s.gens.find? fun x => x.1 = slot with | some x => x.2 | none => 0) + 1) % (2 ^ 18 - 1)

/-- The PARAM block of a request: zeros where it names none; nothing where it cannot be read (R349). -/
def State.paramOf (s : State) (c va : Nat) : Option (List Byte) :=
  if va = 0 then some (List.replicate 128 0)
  else match (s.readVa (agent c) .gl va 128 .r).2 with | .ok bs => some bs | .error _ => none

/-- A request is not valid (R352). -/
def State.requestBad (s : State) (c : Nat) (bs : List Byte) (par : Option (List Byte)) : Bool :=
  let f := fieldAt bs
  let cls := (s.ctx c).classes.getD (f 1 1) ⟨0, 0, 0, 0, 0, 0, 0, 0, 0, 0⟩
  let plen := f 24 4
  let bytes := if f 0 1 = 0x10 then 4 * plen else plen
  (f 0 1 ≠ 0x10 && f 0 1 ≠ 0x11) || 16 ≤ f 1 1 || cls.chunk = 0 || plen = 0 || 2 ^ 24 < plen || f 28 4 = 0
    || 32 ≤ f 3 1 || ((s.ctx c).queue (f 3 1)).kind ≠ .output || f 44 4 ≠ 0 || f 56 8 ≠ 0
    || !s.readable c (f 16 8) bytes
    || match par with
      | none => true
      | some p => 16 < fieldAt p 32 1 || fieldAt p 33 7 ≠ 0 || fieldAt p 120 8 ≠ 0

/-- The fingerprint of the ring program that a context has in force. -/
def State.installedFp (s : State) (c : Nat) : Option Nat := (s.ring.progs.find? fun p => p.ctx = c).map Prog.fp

/-- SMODE of a context's step program (R373): the modes of its final projection. -/
def State.smode (s : State) (c : Nat) : Nat :=
  match (s.ctx c).step with
  | some p => let h := fieldAt (s.readOr0 c (p.kernels.getLastD 0) 4) 2 2; fld h 1 1 + fld h 0 0 * 2
  | none => 0

/-- A migration image's parts (R373). -/
structure MigImage where
  bytes : List Byte
  ntok : Nat
  ncat : Nat
  ckb : Nat
  gb : Nat
  rcmp : Bool
  smode : Nat
  deriving DecidableEq, Repr

def MigImage.ofBytes (bs : List Byte) : MigImage :=
  let f := fieldAt bs
  ⟨bs, f 4 4, f 8 4, f 12 4, f 16 4, f 20 4 % 2 = 1, f 24 4⟩

/-- Where the sections of an image begin: the record at 64, the tokens at 320. -/
def MigImage.catOff (m : MigImage) : Nat := 320 + (4 * m.ntok + 15) / 16 * 16
def MigImage.ckOff (m : MigImage) : Nat := m.catOff + (8 * m.ncat + 15) / 16 * 16
def MigImage.gramOff (m : MigImage) : Nat := m.ckOff + (m.ckb + 15) / 16 * 16

/-- An image is invalid or incompatible (R374). -/
def State.imageBad (s : State) (c : Nat) (m : MigImage) : Bool :=
  fieldAt m.bytes 0 2 ≠ 1 || m.bytes.length < m.gramOff + m.gb || m.ntok = 0
    || s.installedFp c ≠ some (fieldAt m.bytes (64 + 184) 8) || m.smode ≠ s.smode c

/-- The words of a record from its bytes. -/
def recWords (bs : List Byte) : Vector Word 64 := Vector.ofFn fun i => BitVec.ofNat 32 (fieldAt bs (4 * i.val) 4)

/-- A record as a request builds it, before its pages: `e` is the check that failed, or 0 (R352). A class with recurrent state has a
checkpoint area at a place that the specification leaves open (R370; log entry 67). -/
def State.buildRecord (s : State) (c slot : Nat) (bs par : List Byte) (e : Nat) : Seq :=
  let f := fieldAt bs
  let cls := (s.ctx c).classes.getD (f 1 1) ⟨0, 0, 0, 0, 0, 0, 0, 0, 0, 0⟩
  let none_ := f 48 8 = 0
  let slen := min (fieldAt par 32 1) 16
  let plen := f 24 4
  let n := min plen 16
  let ts := if e = 0 then wordsOf (s.readOr0 c (f 16 8 + 4 * (plen - n)) (4 * n)) else []
  let tail := List.replicate (16 - ts.length) 0xffffffff ++ ts
  let area := if cls.cksz = 0 then 0 else 16 * Config.ckptArea c (s.ctx c).admitted
  let bytes : List Byte :=
    (bs.drop 8).take 8 ++ (bs.drop 4).take 4 ++ (bs.drop 1).take 1 ++ toBytes 1 qAdmitted ++ (bs.drop 2).take 2
      ++ toBytes 1 (s.ctx c).d.fn ++ toBytes 3 0 ++ toBytes 4 plen ++ (bs.drop 16).take 8 ++ toBytes 4 plen ++ toBytes 8 0
      ++ toBytes 4 (min (f 28 4) cls.maxgen) ++ (bs.drop 32).take 12 ++ toBytes 4 cls.eps.toNat ++ toBytes 4 cls.delta.toNat
      ++ toBytes 4 (tokHash (wordsOf ((par.drop 56).take (4 * slen))))
      ++ (if none_ then List.replicate 32 0xff else par.take 32)
      ++ toBytes 12 0 ++ toBytes 4 (s.ctx c).admitted ++ toBytes 8 area ++ toBytes 4 0
      ++ toBytes 1 slen ++ toBytes 3 0 ++ toBytes 32 0
      ++ (par.drop 40).take 16 ++ toBytes 8 ((s.installedFp c).getD 0) ++ tail.flatMap fun t => toBytes 4 t
  { slot := slot, gen := s.nextGen slot, ctx := c, w := recWords bytes, hurt := false, prev := [], rpl := 0, ckj := 0xff, lap := none,
    image := 0, owed := [], outDue := false, toks := [] }

/-- A record as a migration image gives it: what is local to this device comes from the request, and the prompt, the checkpoint area and the
grammar blob lie in the image. Drafts and recurrent state come back, unless all is to be computed again (R374). -/
def migRecord (q : Seq) (m : MigImage) (image : Nat) : Seq :=
  let old : Seq := { q with w := recWords ((m.bytes.drop 64).take 256) }
  let toks := wordsOf ((m.bytes.drop 320).take (4 * m.ntok))
  let r := (((((old.setWord 2 (q.word 2)).setByte 12 (q.byte 12)).setByte 14 (q.byte 14)).setByte 15 (q.byte 15)).setByte 16 (q.byte 16)).setByte 17 0
  let r := (((r.setByte 18 (if m.rcmp then 4 else 0)).setByte 19 0).setWord 29 q.an).setDword 104 0
  let r := (r.setDword 120 (if m.ckb = 0 then 0 else image + m.ckOff)).setDword 24 (image + 320)
  let r := if m.gb = 0 then r else r.setDword 168 (image + m.gramOff)
  if m.rcmp then
    { (((((r.setWord 5 m.ntok).setWord 8 m.ntok).setWord 9 0).setByte 133 0).setSt qMigIn) with toks := [] }
  else { (r.setSt qMigIn) with toks := (toks.drop old.plen).map fun t => BitVec.ofNat 32 t }

/-- A new record put into the table: its generation and the context's admission count move on. -/
def State.addSeq (s : State) (q : Seq) : State :=
  ({ s with
    seqs := s.seqs ++ [q],
    gens := s.gens.filter (fun (x : Nat × Nat) => x.1 ≠ q.slot) ++ [(q.slot, q.gen)] }).onCtx q.ctx fun x =>
      { x with admitted := (x.admitted + 1) % 2 ^ 32 }

/-- How an admission goes: no room now, a handle, or a failed access. -/
inductive Adm where
  | full (s : State)
  | ok (s : State) (handle : Nat)
  | bad (s : State)

/-- Pages of an admitted record: entry i takes a page in a state that `f` gives with its DOM and NTOK. -/
def State.takePages (s : State) (q : Seq) (need : Nat) (f : Nat → Nat × Nat × Nat) : SeqRes :=
  let pi := (s.seqClass q).pool
  let p := s.seqPool q
  let cat := p.catb + q.slot * (64 + 8 * p.cmax)
  let q' := { (q.setDword 104 cat).setWord 28 need with hasCat := true }
  match s.catOpen q.ctx pi p cat q.handle with
  | .error s => .error s
  | .ok s =>
    match (List.range need).foldlM (fun s i => s.takePage q.ctx pi p cat i (f i).1 (f i).2.1 (f i).2.2 (i + 1)) s with
    | .error s => .error s
    | .ok s => .ok (s.onSeq q.slot fun _ => q')

/-- Bytes that a request names wait for a port in training (R468): its prompt or its image, its parameters. -/
def State.requestHeld (s : State) (c : Nat) (bs : List Byte) : Bool :=
  let f := fieldAt bs
  s.vaHeld (agent c) .gl (f 48 8) (if f 48 8 = 0 then 0 else 128)
    || s.vaHeld (agent c) .gl (f 16 8) (if f 0 1 = 0x10 then 4 * f 24 4 else f 24 4)

/-- Admission of a request entry (R352, R374). -/
def State.takeRequest (s : State) (c : Nat) (bs : List Byte) : Adm :=
  let f := fieldAt bs
  let mine := (s.seqs.filter fun q => q.ctx = c).length
  match s.freeSeq with
  | none => .full s
  | some slot =>
    if (s.ctx c).d.seqmax ≤ mine then .full s
    else
      let par := s.paramOf c (f 48 8)
      let e := if s.requestBad c bs par then 0x30
        else if (s.installedFp c).isNone || (s.ctx c).step.isNone then 0x31 else 0
      let q := s.buildRecord c slot bs (par.getD (List.replicate 128 0)) (if f 0 1 = 0x10 then e else 1)
      let m := MigImage.ofBytes (if f 0 1 = 0x11 && e = 0 then s.readOr0 c (f 16 8) (f 24 4) else [])
      let mig := f 0 1 = 0x11
      let e := if e = 0 && mig && s.imageBad c m then 0x34 else e
      let q := if e = 0 && mig then migRecord q m (f 16 8) else q
      let p := s.seqPool q
      let pi := (s.seqClass q).pool
      let need := if e = 0 then max ((q.pos + 2 ^ p.l) / 2 ^ p.l) m.ncat else 0
      let e := if e = 0 && (p.np = 0 || min p.nn p.cmax < need) then 0x33 else e
      if e ≠ 0 then .ok ((s.addSeq q).seqEnd q e qFailed) q.handle
      else if !s.poolOk c p then .bad s
      else if s.poolFree c pi p < need then .full s
      else
        let entry := fun (i : Nat) =>
          let v := fieldAt m.bytes (m.catOff + 8 * i) 8
          if i < m.ncat && eValid v && !m.rcmp then (pBorrowed, eDom v, eNtok v) else (pReserved, 0, 0)
        match (s.addSeq q).takePages q need entry with
        | .error s => .bad s
        | .ok s => .ok s q.handle

/-! ### Step 1: settling and retiring (R351, R353 to R355, R371) -/

/-- A kernel has not retired. -/
def Kernel.active (k : Kernel) : Bool := k.st ≠ .done && k.st ≠ .cancelled

/-- Kernels launched for a lap, or for a herd of a lap, that have not retired. -/
def State.lapBusy (s : State) (c lap : Nat) : Bool :=
  s.kernels.any fun k => k.ctx = c && k.active && match k.herd with | some h => h.1 = lap | none => false
def State.herdBusy (s : State) (c : Nat) (h : Nat × Nat) : Bool := s.kernels.any fun k => k.ctx = c && k.active && k.herd = some h

/-- The herd that last served a sequence has ended (R356). -/
def State.idle (s : State) (q : Seq) : Bool := match q.lap with | some h => !s.herdBusy q.ctx h | none => true

/-- The header of a checkpoint area: VALID, and POSN of each slot (R370). -/
def State.ckptHeader (s : State) (q : Seq) : Nat × List Nat :=
  if q.ckptAt = 0 then (0, [])
  else
    let bs := s.readOr0 q.ctx q.ckptAt 40
    (fieldAt bs 0 4, (List.range 9).map fun j => fieldAt bs (4 + 4 * j) 4)

/-- The committed slot that a settling takes: the greatest POSN that is above CKPOS and not above T (R371). -/
def bestCkpt (valid : Nat) (posn : List Nat) (ckpos t : Nat) : Option (Nat × Nat) :=
  (List.range posn.length).foldl (fun b j =>
    let p := posn.getD j 0
    if valid.testBit j && ckpos < p && p ≤ t && (match b with | some x => x.2 < p | none => true) then some (j, p) else b) none

/-- A verifying sequence settled (R371). -/
def State.settleSeq (s : State) (q : Seq) : State :=
  let t := q.pos - 2
  let h := s.ckptHeader q
  let b := bestCkpt h.1 h.2 q.ckpos t
  let s := if q.ckptAt = 0 then s else (s.writeVa (agent q.ctx) .gl q.ckptAt (toBytes 4 0) none).1
  let from_ := match b with | some x => x.2 | none => q.ckpos
  s.onSeq q.slot fun q =>
    { (((q.setWord 32 t).setByte 133 0).setSt qDecoding) with
      rpl := t - from_, ckj := match b with | some x => x.1 | none => 0xff }

/-- A catalogue, its header and all its entries, has an uncorrectable error (R351, R396). -/
def State.catPoisoned (s : State) (q : Seq) : Bool :=
  q.hasCat && match (s.readVa (agent q.ctx) .gl q.cat (64 + 8 * (s.seqPool q).cmax) .r).2 with
    | .error f => isPoison f
    | .ok _ => false

/-- Settling once the sequence's herd has ended (R375), and the flags of the lap cleared in every active record (R353). An uncorrectable error
on the record or its catalogue fails the sequence, also one that is finishing or migrating out, whose output entry stands (R351). -/
def State.step1Settle (s : State) (slot : Nat) : State :=
  match s.seq? slot with
  | none => s
  | some q =>
    let lives := q.active || q.st = qMigIn
    if !(lives || q.st = qFinishing || q.st = qMigOut) then s
    else if q.hurt || s.catPoisoned q then
      if lives then s.seqEnd q 6 qFailed else s.onSeq slot fun q => (q.setByte 17 6).setSt qFailed
    else if !q.active then s
    else
      let s := if q.st = qVerifying && s.idle q then s.settleSeq q else s
      s.onSeq slot fun q => ((q.setFlg 0 false).setFlg 1 false).setByte 19 0

/-- Bytes of a migration image, written as step 1 writes them (R373). A lap of drafts that was under way is settled (R375): ND is 0, and the
replay follows from the checkpoint area. -/
def State.migBytes (s : State) (q : Seq) : List Byte :=
  let rcmp := q.flg 2
  let rec_ := if q.prev.headD 0 = qVerifying then q.setByte 133 0 else q
  let prompt := wordsOf (s.readOr0 q.ctx (q.dword 24) (4 * q.plen))
  let toks := (prompt ++ q.toks.map BitVec.toNat).take q.pos
  let ncat := if rcmp then 0 else q.npg
  let cats := s.readOr0 q.ctx (q.cat + 64) (8 * ncat)
  let ck := if q.ckptAt = 0 then [] else s.readOr0 q.ctx q.ckptAt (64 + 9 * (s.seqClass q).cksz)
  let gram := if q.dword 168 = 0 then [] else s.readOr0 q.ctx (q.dword 168) (q.word 44)
  let pad := fun (bs : List Byte) => bs ++ List.replicate ((16 - bs.length % 16) % 16) (0 : Byte)
  toBytes 4 1 ++ toBytes 4 toks.length ++ toBytes 4 ncat ++ toBytes 4 ck.length ++ toBytes 4 gram.length
    ++ toBytes 4 (if rcmp then 1 else 0) ++ toBytes 4 (s.smode q.ctx) ++ List.replicate 36 0
    ++ (rec_.w.toList.flatMap fun w => toBytes 4 w.toNat) ++ pad (toks.flatMap fun t => toBytes 4 t) ++ pad cats ++ pad ck ++ gram

/-- A record leaves the table. -/
def State.dropSeq (s : State) (slot : Nat) : State := { s with seqs := s.seqs.filter fun q => q.slot ≠ slot }

/-- The final output entry that is still due, then the completion; neither waits (R355). -/
def State.closeOut (s : State) (q : Seq) : State × Bool :=
  let r := if q.outDue then s.finalOut q else (s, true)
  if !r.2 then r
  else (r.1.onSeq q.slot fun q => { q with outDue := false }).seqCompletion q

/-- The finishing, failed, migrating-out and finished rows of R351. -/
def State.step1Retire (s : State) (slot : Nat) : SeqRes :=
  match s.seq? slot with
  | none => .ok s
  | some q =>
    let past := match q.lap with | some h => !s.lapBusy q.ctx h.1 | none => true
    if q.st = qFinished then .ok (s.dropSeq slot)
    else if !past then .ok s
    else if q.st = qFinishing || q.st = qFailed then
      match s.closeOut q with
      | (s, false) => .ok s
      | (s, true) =>
        match s.catRelease q with
        | .error s => .error s
        | .ok s => .ok (s.onSeq slot fun q => { ((q.setSt qFinished).setWord 28 0).setDword 104 0 with hasCat := false })
    else if q.st = qMigOut then
      let q := q.setByte 17 5
      match s.closeOut q with
      | (s, false) => .ok s
      | (s, true) =>
        let s := (s.writeVa (agent q.ctx) .gl q.image (s.migBytes q) none).1
        match s.catRelease q with
        | .error s => .error s
        | .ok s => .ok (s.dropSeq slot)
    else .ok s

/-- The slots of a context's records. -/
def State.slotsOf (s : State) (c : Nat) : List Nat := (s.seqs.filter fun q => q.ctx = c).map Seq.slot

/-- Nothing remains of the scratchpads of the teams of ended kernels that the scheduler has launched (R491; log entry 86). -/
def State.clearHerds (s : State) (c : Nat) : State :=
  let gone := fun (t : Team) => t.st = .retired && (s.kernels[t.kernel]?).any fun k => k.ctx = c && k.herd.isSome
  { s with teams := s.teams.map fun t => if gone t then { t with sp := [], spEmpty := [], spPoison := [] } else t }

/-- Step 1. -/
def State.step1 (s : State) (c : Nat) : SeqRes :=
  (s.slotsOf c).foldlM State.step1Retire (((s.slotsOf c).foldl State.step1Settle s).clearHerds c)

/-! ### Step 2: admission (R353) -/

/-- Requests of a queue in order; false ends the admission of the lap. -/
def State.admitQueue : Nat → State → Nat → Nat → Except State (State × Bool)
  | 0, s, _, _ => .ok (s, true)
  | k + 1, s, c, q =>
    let x := (s.ctx c).queue q
    if !x.hasEntry .request then .ok (s, true)
    else
      if s.entryHeld c x || s.requestHeld c (s.queueEntry c x) then .ok (s, false) else
      match s.takeRequest c (s.queueEntry c x) with
      | .full s => .ok (s, false)
      | .bad s => .error s
      | .ok s _ => State.admitQueue k (s.consume c q) c q

/-- Step 2: ascending queues, each in its order, to the first entry for which there is no room. -/
def State.step2 (s : State) (c : Nat) : SeqRes :=
  match (List.range 32).foldlM (fun (a : State × Bool) q =>
      if a.2 then a.1.admitQueue (2 ^ 16) c q else .ok a) (s, true) with
  | .ok a => .ok a.1
  | .error s => .error s

/-! ### Step 3: the batch (R356, R357) -/

/-- An insertion by an order on numbers; equal ones keep their order. -/
def insBy {α : Type} (key : α → Nat) (a : α) : List α → List α
  | [] => [a]
  | b :: bs => if key a < key b then a :: b :: bs else b :: insBy key a bs

def sortBy {α : Type} (key : α → Nat) (l : List α) : List α := l.foldl (fun acc a => insBy key a acc) []

/-- A member of a herd: its record's slot, kind, drafts, replay inputs, checkpoint slot, first position, input tokens (R358). -/
structure Member where
  slot : Nat
  an : Nat
  pri : Nat
  pool : Nat
  kind : Nat
  nd : Nat
  rpl : Nat
  ckj : Nat
  pos0 : Nat
  toks : List Nat
  grow : Nat
  deriving DecidableEq, Repr

/-- A context's records in ascending AN. -/
def State.byAn (s : State) (c : Nat) : List Seq := sortBy Seq.an (s.seqs.filter fun q => q.ctx = c)

/-- Step 3, first: what a changed program, a page-in that has come, or a free page does to a record (R351). A sequence whose pages were handed
over takes up its recurrent state as a settling does, its drafts kept (R374; log entry 39). `free` counts the pages that a pool has left for
parked sequences. -/
def State.wake (a : State × List (Nat × Nat)) (slot : Nat) : State × List (Nat × Nat) :=
  let s := a.1
  match s.seq? slot with
  | none => a
  | some q =>
    let pi := (s.seqClass q).pool
    let p := s.seqPool q
    let left := match a.2.find? fun x => x.1 = pi with | some x => x.2 | none => s.poolFree q.ctx pi p
    if !(q.active || q.st = qMigIn) then a
    else if (s.ctx q.ctx).step.isNone || (s.installedFp q.ctx).isNone then (s.seqEnd q 0x31 qFailed, a.2)
    else if s.installedFp q.ctx ≠ some (q.dword 184) then (s.seqEnd q 0x32 qFailed, a.2)
    else if q.st = qStalled then (if q.owed = [] then (s.onSeq slot Seq.recall, a.2) else a)
    else if q.st = qParked then
      if left = 0 then a else (s.onSeq slot Seq.recall, (pi, left - 1) :: a.2.filter fun x => x.1 ≠ pi)
    else if q.st = qMigIn then
      if q.flg 2 then (s.onSeq slot fun q => (q.setSt qPrefilling).setWord 9 0, a.2)
      else
        let here := (List.range q.npg).all fun i => match (s.catRead (agent q.ctx) q.cat i).2 with
          | .ok e => !eValid e || (s.recD q.ctx p (ePage e)).st ≠ pBorrowed
          | .error _ => false
        if !here then a
        else if q.pfx = q.plen then ((s.settleSeq q).onSeq slot fun r => r.setByte 133 q.nd, a.2)
        else (s.onSeq slot fun q => q.setSt qDecoding, a.2)
    else a

/-- First pass (R356, R357): a decoding or verifying sequence's positions: the state, the budget left, the members. -/
def State.firstPass (a : State × Nat × List Member) (q : Seq) : State × Nat × List Member :=
  let s := a.1
  let budget := a.2.1
  let p := s.seqPool q
  let lim := p.cmax * 2 ^ p.l
  if !(q.st = qDecoding || q.st = qVerifying) || !s.idle q then a
  else if lim ≤ q.pos - 1 then (s.seqEnd q 7 qFinishing, budget, a.2.2)
  else
    let nd := min (min q.nd (lim - q.pos)) (budget - q.rpl - 1)
    let s := s.onSeq q.slot fun q => q.setByte 133 nd
    if budget < q.rpl + 1 then (s, budget, a.2.2)
    else
      let m : Member :=
        { slot := q.slot, an := q.an, pri := q.byte 14, pool := (s.seqClass q).pool, kind := if nd = 0 then 3 else 4, nd := nd,
          rpl := q.rpl, ckj := q.ckj, pos0 := q.pos - 1 - q.rpl, toks := q.tail.drop (15 - q.rpl) ++ q.drafts.take nd,
          grow := (q.pos - 1 + nd) / 2 ^ p.l + 1 - q.npg }
      (s, budget - (q.rpl + 1 + nd), a.2.2 ++ [m])

/-- Second pass (R356): a chunk of the prompt. -/
def State.secondPass (a : State × Nat × List Member) (q : Seq) : Except State (State × Nat × List Member) :=
  let s := a.1
  let budget := a.2.1
  if !(q.st = qAdmitted || q.st = qPrefilling) || !s.idle q then .ok a
  else
    let n := min (min (s.seqClass q).chunk (q.plen - q.pfx)) budget
    if n = 0 then .ok a
    else
      match s.readVa (agent q.ctx) .gl (q.dword 24 + 4 * q.pfx) (4 * n) .r with
      | (t, .error f) => if f.1 = cHOLD then .ok a else .error t
      | (s, .ok bs) =>
        .ok (s, budget - n, a.2.2 ++ [
          { slot := q.slot, an := q.an, pri := q.byte 14, pool := (s.seqClass q).pool, kind := if q.pfx + n = q.plen then 2 else 1,
            nd := 0, rpl := 0, ckj := 0xff, pos0 := q.pfx, toks := wordsOf bs, grow := 0 }])

/-- The candidate that is parked: lowest PRI, then highest AN (R351). -/
def parkChoice : List Member → Option Member
  | [] => none
  | m :: ms => match parkChoice ms with
    | none => some m
    | some x => if m.pri < x.pri || (m.pri = x.pri && x.an < m.an) then some m else some x

/-- Candidates parked until the pages of a pool suffice (R351, R356): the members that stay. -/
def State.parkFor : Nat → State → Nat → Nat → List Member → State × List Member
  | 0, s, _, _, ms => (s, ms)
  | k + 1, s, pi, free, ms =>
    let want := ms.filter fun m => m.pool = pi && m.grow ≠ 0
    if (want.map Member.grow).sum ≤ free then (s, ms)
    else
      match parkChoice want with
      | none => (s, ms)
      | some m =>
        State.parkFor k (s.onSeq m.slot fun q => q.leave qParked) pi free (ms.filter fun x => x.slot ≠ m.slot)

/-- The pages that a member crosses into taken (R356, R398). -/
def State.growFor (s : State) (m : Member) : SeqRes :=
  match s.seq? m.slot with
  | none => .ok s
  | some q =>
    let p := s.seqPool q
    match (List.range m.grow).foldlM
        (fun s i => s.takePage q.ctx m.pool p q.cat (q.npg + i) pReserved 0 0 (q.npg + i + 1)) s with
    | .error s => .error s
    | .ok s => .ok (s.onSeq m.slot fun q => q.setWord 28 (q.npg + m.grow))

/-- What a lap's positions do to a member's record (R351, R346). -/
def Member.served (m : Member) (q : Seq) (lap herd : Nat) : Seq :=
  let q := { q with lap := some (lap, herd), rpl := 0, ckj := 0xff }
  if m.kind = 4 then q.setSt qVerifying
  else if m.kind = 3 then q.setWord 32 (q.pos - 1)
  else ((q.setWord 9 (q.pfx + m.toks.length)).setWord 32 (q.pfx + m.toks.length - 1)).setSt qPrefilling

/-- Step 3: the members of the lap in ascending AN. -/
def State.step3 (s : State) (c : Nat) : Except State (State × List Member) := do
  let pools := ((s.ctx c).classes.map SeqClass.pool).dedup
  if !(pools.all fun i => match (s.ctx c).pool? i with | some p => s.seqs.all (fun q => q.ctx ≠ c) || s.poolOk c p | none => true) then
    .error s
  else
    let s := (((s.byAn c).map Seq.slot).foldl State.wake (s, [])).1
    let a := (s.byAn c).foldl State.firstPass (s, (s.ctx c).d.tbud, [])
    let a ← (a.1.byAn c).foldlM State.secondPass a
    let r := pools.foldl (fun (r : State × List Member) pi =>
      let p := ((r.1.ctx c).pool? pi).getD Pool.none
      State.parkFor r.2.length r.1 pi (r.1.poolFree c pi p) r.2) (a.1, a.2.2)
    let s ← r.2.foldlM State.growFor r.1
    pure (s, sortBy Member.an r.2)

/-! ### Steps 4 and 5: herds (R358 to R360) -/

/-- A list cut into runs of at most n. -/
def chunks {α : Type} (n : Nat) : Nat → List α → List (List α)
  | 0, _ => []
  | k + 1, l => if l = [] then [] else l.take n :: chunks n k (l.drop n)

/-- A herd: its number and members. -/
structure Herd where
  num : Nat
  ms : List Member
  deriving DecidableEq, Repr

def Herd.npos (h : Herd) : Nat := (h.ms.map fun m => m.toks.length).sum

/-- The draft member of a member of an `mbox` class (R359). -/
def State.draftMember (s : State) (m : Member) : Member :=
  let q := (s.seq? m.slot)
  { m with kind := 3, nd := 0, rpl := 0, ckj := 0xff, pos0 := (match q with | some q => q.pos - 1 | none => 0),
           toks := match q with | some q => [q.tail.getD 15 0] | none => [0] }

/-- The ordinary herds and the draft herds of a lap. -/
def State.herds (s : State) (p : StepProg) (ms : List Member) : List Herd × List Herd :=
  let os := (chunks p.hmax ms.length ms).mapIdx fun i l => (⟨i, l⟩ : Herd)
  let mbox := ms.filter fun m => match s.seq? m.slot with | some q => (s.seqClass q).draft = 2 | none => false
  let ds := if p.draft = 0 then [] else
    (chunks p.hmax mbox.length (mbox.map s.draftMember)).mapIdx fun i l => (⟨os.length + i, l⟩ : Herd)
  (os, ds)

/-- A member entry (R358). -/
def State.memberBytes (s : State) (m : Member) (toff : Nat) : List Byte :=
  let q := s.seq? m.slot
  toBytes 4 (match q with | some q => q.handle | none => 0) ++ toBytes 1 m.kind ++ toBytes 1 m.nd ++ toBytes 1 m.rpl
    ++ toBytes 1 m.ckj ++ toBytes 4 m.pos0 ++ toBytes 4 m.toks.length ++ toBytes 4 toff ++ toBytes 4 0
    ++ toBytes 8 (match q with | some q => q.cat | none => 0)

/-- The bank of a lap, and a herd descriptor's place in it. -/
def Ctx.bank (x : Ctx) (lap : Nat) : Nat := x.d.starea.toNat + lap % 2 * (x.d.stsz / 2)
def Ctx.herdAt (x : Ctx) (p : StepProg) (lap h : Nat) : Nat := x.bank lap + h * (64 + 32 * p.hmax)

/-- One herd's descriptor and tokens written, the buffer at the next multiple of 64 (R358). -/
def State.writeHerd (s : State) (c lap : Nat) (p : StepProg) (at_ : Nat) (h : Herd) : Except State (State × Nat) :=
  let tb := (at_ + 63) / 64 * 64
  let offs := h.ms.foldl (fun (a : List Nat × Nat) m => (a.1 ++ [a.2], a.2 + m.toks.length)) ([], 0)
  let head := toBytes 8 (lap % 2 ^ 48) ++ toBytes 4 h.num ++ toBytes 4 h.ms.length ++ toBytes 4 h.npos ++ toBytes 4 0 ++ toBytes 8 tb
    ++ List.replicate 32 0
  let ents := (h.ms.zip offs.1).flatMap fun x => s.memberBytes x.1 x.2
  match s.writeVa (agent c) .gl ((s.ctx c).herdAt p lap h.num) (head ++ ents) none with
  | (s, some _) => .error s
  | (s, none) =>
    match s.writeVa (agent c) .gl tb (h.ms.flatMap fun m => m.toks.flatMap fun t => toBytes 4 t) none with
    | (s, some _) => .error s
    | (s, none) => .ok (s, tb + 4 * h.npos)

/-- Step 4. -/
def State.step4 (s : State) (c lap : Nat) (p : StepProg) (hs : List Herd) : SeqRes :=
  let x := s.ctx c
  let tb := x.bank lap + herdsMax x.d.seqmax p.hmax * (64 + 32 * p.hmax)
  match hs.foldlM (fun (a : State × Nat) h => a.1.writeHerd c lap p a.2 h) (s, tb) with
  | .ok a => .ok a.1
  | .error s => .error s

/-- A kernel launched by the scheduler for a herd (R359). -/
def State.launchFor (s : State) (c lap : Nat) (p : StepProg) (h : Herd) (addr : Nat) (final : Bool) : State :=
  let d := (s.ctx c).herdAt p lap h.num
  let n := h.ms.length
  (s.startKernel c addr n
    [(60, BitVec.ofNat 32 d), (61, BitVec.ofNat 32 (d / 2 ^ 32)), (62, BitVec.ofNat 32 h.num), (63, BitVec.ofNat 32 n)]
    none (some (lap, h.num)) (if final then .final d n else .step)).1

/-- The kernels of a herd in launch order: the replay kernel, where a member replays, ahead of the final projection. -/
def herdKernels (p : StepProg) (h : Herd) : List (Nat × Bool) :=
  (p.kernels.dropLast.map fun a => (a, false))
    ++ (if p.replay ≠ 0 && h.ms.any (fun m => m.rpl ≠ 0) then [(p.replay, false)] else [])
    ++ [(p.kernels.getLastD 0, true)]

/-- Step 5: the draft herds' kernels, then every herd's kernels in list order. -/
def State.step5 (s : State) (c lap : Nat) (p : StepProg) (hs ds : List Herd) : State :=
  let s := ds.foldl (fun s h => s.launchFor c lap p h p.draft false) s
  hs.foldl (fun s h => (herdKernels p h).foldl (fun s k => s.launchFor c lap p h k.1 k.2) s) s

/-- The records of a lap's members, as its positions leave them. -/
def State.serve (s : State) (lap : Nat) (hs : List Herd) : State :=
  hs.foldl (fun s h => h.ms.foldl (fun s m => s.onSeq m.slot fun q => m.served q lap h.num) s) s

/-- Steps 2 to 5 of a context (R353). A kernel of the lap before the last that still runs leaves the lap without a batch (R358). -/
def State.seqSteps (s : State) (c : Nat) : SeqRes := do
  let s ← s.step2 c
  let lap := s.ring.lap
  if 2 ≤ lap && s.lapBusy c (lap - 2) then pure s
  else
    let r ← s.step3 c
    match (r.1.ctx c).step with
    | none => pure r.1
    | some p =>
      let h := r.1.herds p r.2
      let s ← r.1.step4 c lap p (h.1 ++ h.2)
      pure ((s.serve lap h.1).step5 c lap p h.1 h.2)

/-- The lap event of a context (R450). -/
def State.lapEvent (s : State) (c : Nat) : State :=
  let d := (s.ctx c).d
  if d.lapk ≠ 0xff && s.ring.lap % 2 ^ 48 % 2 ^ d.lapk = 0 then s.raiseCtx c d.lapv else s

/-- The scheduler's steps for a context (R353, R446): a context that is saved, or on its way, has step 1 only, and one whose descriptor
copy has an uncorrectable error becomes faulted (R438). -/
def State.schedule (s : State) (c : Nat) : State :=
  let go := fun (r : SeqRes) (f : State → State) => match r with
    | .ok t => f t
    | .error t => t.contextFault c true
  let st := (s.ctx c).st
  if (s.ctx c).hurt then s.contextFault c true
  else if st.live then go (s.step1 c) fun s => go (s.seqSteps c) fun s => s.lapEvent c
  else if st = .saving || st = .saved || st = .restoring then go (s.step1 c) id
  else s

/-- `LAP_BOUNDARY` (R273, R353): the ring's own steps, then the scheduler's for each context in ascending number. `noise` names what of the
new lap's first beat is damaged on its way. -/
def execLapBoundary (noise : List (Nat × Nat × Nat)) (s : State) : Out :=
  .next (
    if !s.exposed || !s.ring.governed || s.ring.pos + 1 < s.ring.len then s
    else
      let s := s.resolveClaims.ringBoundary
      let s := { s with ring := s.ring.tick }
      let s := (List.range s.ctxs.length).foldl State.schedule s
      s.beatsNow noise)

/-! ### The SEQ instructions (R362 to R370) -/

/-- The registers of the SEQ words. -/
def specSeqld (h : Hdr) (d a : BitVec 6) : WordSpec :=
  { h := h, pipe := .x, sr := [a.toNat], sw := [d.toNat], cnt := some .ld, side := true }
def specSeqst (h : Hdr) (d a : BitVec 6) : WordSpec :=
  { h := h, pipe := .x, sr := [a.toNat, d.toNat], cnt := some .st, side := true }
def specAdmit (h : Hdr) (d a : BitVec 6) : WordSpec :=
  { h := h, pipe := .x, sr := pairOf a, sw := [d.toNat], cnt := some .st, side := true }
def specRetire (h : Hdr) (a b : BitVec 6) : WordSpec :=
  { h := h, pipe := .x, sr := [a.toNat, b.toNat], cnt := some .st, side := true }
def specPairSt (h : Hdr) (a b : BitVec 6) : WordSpec :=
  { h := h, pipe := .x, sr := a.toNat :: pairOf b, cnt := some .st, side := true }
def specTokput (h : Hdr) (d a b : BitVec 6) : WordSpec :=
  { h := h, pipe := .x, sr := [a.toNat, b.toNat, d.toNat], cnt := some .st, side := true }
def specAccept (h : Hdr) (d a b : BitVec 6) : WordSpec :=
  { h := h, pipe := .x, sr := a.toNat :: runOf b.toNat 3, sw := [d.toNat], side := true }
def specDraft (h : Hdr) (d a b : BitVec 6) : WordSpec :=
  { h := h, pipe := .x, sr := a.toNat :: pairOf b, sw := [d.toNat], cnt := some .ld, side := true }
def specStopck (h : Hdr) (d a b : BitVec 6) : WordSpec :=
  { h := h, pipe := .x, sr := [a.toNat, b.toNat], sw := [d.toNat], side := true }

/-- A SEQ word on the record that its handle names (R362): a handle of another context or another generation is SEQH. -/
def seqWord (w : WordSpec) (a : BitVec 6) (s : State) (body : Wctx → State → Seq → Res) : State :=
  word w s fun c s =>
    if blockedAccess c then .hold c.blockKind
    else match seqAt s (s.ctxOf c.snap) (c.snap.sreg a.toNat).toNat with
      | none => .raise cPROT 6
      | some q => body c s q

/-- `SEQLD` (R363). -/
def execSeqld (h : Hdr) (d a b : BitVec 6) (s : State) : Out :=
  .next (seqWord (specSeqld h d a) a s fun c s q =>
    .ok (s.start c .ld 0 (.regs [d.toNat] [q.w.getD b.toNat 0]) [] [d.toNat]))

/-- Words that `seqst` writes (R363). -/
def seqWritable (k : Nat) : Bool := (12 ≤ k && k ≤ 16) || k = 45

/-- `SEQST` (R363). -/
def execSeqst (h : Hdr) (d a b : BitVec 6) (s : State) : Out :=
  .next (seqWord (specSeqst h d a) a s fun c s q =>
    if !seqWritable b.toNat then .raise cPROT 7
    else if !q.active then .raise cPROT 8
    else .ok ((s.onSeq q.slot fun q => q.setWord b.toNat (c.snap.sreg d.toNat).toNat).start c .st 0 .posted [] []))

/-- A SEQ word whose access fails: the lanes are deferred at it, and it has no effect (R364). -/
def State.seqFail (s : State) (c : Wctx) (cls : Cls) (ds : List Nat) (f : Nat × Nat) (addr : Nat) : State :=
  let id := (s.grp c.gi).nextOp
  ((s.start c cls 0 .posted [] ds).catFail c (f.1, f.2, addr)).complete c.gi id

/-- A SEQ word whose access is not made: it waits for a port in training (R468), or fails. -/
def State.seqStop (s : State) (c : Wctx) (cls : Cls) (ds : List Nat) (f : Nat × Nat) (addr : Nat) : Res :=
  if f.1 = cHOLD then .hold .side else .ok (s.seqFail c cls ds f addr)

/-- `ADMIT` (R364). -/
def execAdmitSeq (h : Hdr) (d a : BitVec 6) (s : State) : Out :=
  .next (word (specAdmit h d a) s fun c s =>
    if blockedAccess c then .hold c.blockKind
    else
      let cx := s.ctxOf c.snap
      let va := c.snap.spair a.toNat
      let u := s.whoOf c.snap
      match s.locate u { space := .gl, bytes := 64, acc := .r } va with
      | (s, .error f) => .ok (s.seqFail c .st [] f va.toNat)
      | (s, .ok loc) =>
        match s.heldFault u loc 64 with
        | some f => s.seqStop c .st [] f va.toNat
        | none =>
          let r := s.readLoc loc 64
          if r.1.requestHeld cx r.2 then .hold .side else
          let put := fun (s : State) (x : Nat) =>
            (s.onGrp c.gi fun g => g.setS d.toNat (BitVec.ofNat 32 x)).start c .st 0 .posted [] []
          match r.1.takeRequest cx r.2 with
          | .ok s x => .ok (put s x)
          | .full s => .ok (put s 0xffffffff)
          | .bad s => .ok (put (s.contextFault cx true) 0xffffffff))

/-- `RETIRE` (R365): a reason of 0 is taken as 0x04. -/
def execRetire (h : Hdr) (a b : BitVec 6) (s : State) : Out :=
  .next (seqWord (specRetire h a b) a s fun c s q =>
    if !q.active then .raise cPROT 8
    else
      let e := reasonOf ((c.snap.sreg b.toNat).toNat % 256)
      .ok ((s.seqEnd q (if e = 0 then 4 else e) qFinishing).start c .st 0 .posted [] []))

/-- `RETIRE_MIG` (R365, R373): bit 0 of the pair asks for recomputation. -/
def execRetireMig (h : Hdr) (a b : BitVec 6) (s : State) : Out :=
  .next (seqWord (specPairSt h a b) a s fun c s q =>
    let x := (c.snap.spair b.toNat).toNat
    let at_ := x / 2 * 2
    if !q.active then .raise cPROT 8
    else
      match s.locate (s.whoOf c.snap) { space := .gl, bytes := 64, acc := .w, align := 16 } (BitVec.ofNat 64 at_) with
      | (s, .error f) => .ok (s.seqFail c .st [] f at_)
      | (s, .ok _) =>
        .ok ((s.onSeq q.slot fun q =>
          { ((q.leave qMigOut).setFlg 2 (x % 2 = 1)) with image := at_, outDue := true }).start c .st 0 .posted [] []))

/-- States in which a token can be put or tested. -/
def Seq.tokens (q : Seq) : Bool := q.st = qPrefilling || q.st = qDecoding || q.st = qVerifying

/-- `TOKPUT` (R367): the operation completes with its output entry. -/
def execTokput (h : Hdr) (d a b : BitVec 6) (s : State) : Out :=
  .next (seqWord (specTokput h d a b) a s fun c s q =>
    if !q.tokens || q.flg 0 || (q.st = qPrefilling && q.pfx ≠ q.plen) then .raise cPROT 8
    else
      let t := (c.snap.sreg b.toNat).toNat
      let e := q.endReason (reasonOf ((c.snap.sreg d.toNat).toNat % 256))
      let q' := q.append t e true
      let id := (s.grp c.gi).nextOp
      let s := (s.onSeq q.slot fun _ => q').start c .st 0 .tokput [] []
      if ((s.ctx q.ctx).queue (q.byte 15)).kind = .output then .ok (s.tokenOut q' e t (some (c.gi, id)))
      else .ok (s.complete c.gi id))

/-- e^x for x = ±m * 2^e, to 2^-300 of its size (R369; log entry 6). -/
def expVal (neg : Bool) (m : Nat) (e : Int) : Val :=
  if m = 0 then .fin false 1 0 false
  else if magGe m e 9 then .fin false 1 (if neg then -600 else 600) false
  else
    let x := fxOf m e
    if neg then let n := (x + fxLn2 - 1) / fxLn2; fxScaled (fxExp (n * fxLn2 - x)) (-(n : Int))
    else let p := expParts x; fxScaled p.1 p.2

/-- e^(-H) of a code. -/
def expNeg (hv : Val) : Val :=
  match hv with
  | .nan x => .nan x
  | .inf neg => if neg then .inf false else .fin false 0 0 false
  | .fin neg m e _ => expVal (!neg) m e

/-- `accept`'s test (R369): p ≥ min(EPS, DELTA e^(-H)), with a NaN anywhere a refusal. -/
def acceptTest (p hh eps delta : Nat) : Bool :=
  let v := Fmt.f32.val
  let t := (mulV (v delta) (expNeg (v hh))).1
  if (v p).isNan || (v hh).isNan || (v eps).isNan || t.isNan then false
  else !ltV (v p) (if ltV t (v eps) then t else v eps)

/-- `ACCEPT` (R369). -/
def execAccept (h : Hdr) (d a b : BitVec 6) (s : State) : Out :=
  .next (seqWord (specAccept h d a b) a s fun c s q =>
    let x := fun (i : Nat) => (c.snap.sreg (b.toNat + i)).toNat
    let put := fun (s : State) (n : Nat) => s.onGrp c.gi fun g => g.setS d.toNat (BitVec.ofNat 32 n)
    if q.st ≠ qVerifying || q.flg 0 || q.flg 1 || x 0 ≠ q.di || q.nd ≤ q.di then .ok (put s 3)
    else
      let q1 := q.setByte 19 (q.di + 1)
      if !acceptTest (x 1) (x 2) (q.word 15) (q.word 16) then .ok (put (s.onSeq q.slot fun _ => q1.setFlg 1 true) 0)
      else
        let t := q.drafts.getD (x 0) 0
        let e := q.endReason (q.stopck t)
        let q2 := q1.append t e false
        let s := s.onSeq q.slot fun _ => q2
        let s := if ((s.ctx q.ctx).queue (q.byte 15)).kind = .output then s.tokenOut q2 e t none else s
        .ok (put s (if e ≠ 0 then 2 else 1)))

/-- `DRAFT` (R368). -/
def execDraft (h : Hdr) (d a b : BitVec 6) (s : State) : Out :=
  .next (seqWord (specDraft h d a b) a s fun c s q =>
    let va := (c.snap.spair b.toNat).toNat
    let u := s.whoOf c.snap
    let put := fun (s : State) (n : Nat) =>
      s.start c .ld 0 (.regs [d.toNat] [BitVec.ofNat 32 n]) [] [d.toNat]
    if !(q.st = qDecoding || q.st = qVerifying) || q.flg 0 then .ok (put s 0)
    else if va % 4 ≠ 0 then .ok (s.seqFail c .ld [d.toNat] (cALIGN, 1) va)
    else
      match s.readVa u .gl va 4 .r with
      | (s, .error f) => s.seqStop c .ld [d.toNat] (f.1, f.2.1) f.2.2
      | (s, .ok n) =>
        let n := min (ofBytes n) (s.seqClass q).k
        match s.readVa u .gl (va + 4) (4 * n) .r with
        | (s, .error f) => s.seqStop c .ld [d.toNat] (f.1, f.2.1) f.2.2
        | (s, .ok bs) =>
          let ts := wordsOf bs
          .ok (put (s.onSeq q.slot fun q =>
            (List.range n).foldl (fun q i => q.setWord (34 + i) (ts.getD i 0)) (q.setByte 133 n)) n))

/-- `STOPCK` (R366). -/
def execStopck (h : Hdr) (d a b : BitVec 6) (s : State) : Out :=
  .next (seqWord (specStopck h d a b) a s fun c s q =>
    if !q.tokens then .raise cPROT 8
    else putS c s d.toNat (BitVec.ofNat 32 (q.stopck (c.snap.sreg b.toNat).toNat)))

/-- `CKPT` (R370): one access of the header of the checkpoint area. -/
def execCkpt (h : Hdr) (a b : BitVec 6) (s : State) : Out :=
  .next (seqWord (specPairSt h a b) a s fun c s q =>
    let j := (c.snap.sreg b.toNat).toNat
    let n := (c.snap.sreg (b.toNat + 1)).toNat
    if q.ckptAt = 0 || 8 < j then .raise cPROT 8
    else
      let u := s.whoOf c.snap
      match s.locate u { space := .gl, bytes := 40, acc := .a, align := 4 } (BitVec.ofNat 64 q.ckptAt) with
      | (s, .error f) => .ok (s.seqFail c .st [] f q.ckptAt)
      | (s, .ok loc) =>
        match s.heldFault u loc 40 with
        | some f => s.seqStop c .st [] f q.ckptAt
        | none =>
          let r := s.readLoc loc 40
          let v := fieldAt r.2 0 4
          let bs := toBytes 4 (if v.testBit j then v else v + 2 ^ j) ++ ((r.2.drop 4).take (4 * j)) ++ toBytes 4 n ++ r.2.drop (8 + 4 * j)
          .ok ((r.1.writeLoc loc bs).start c .st 0 .posted [] []))

end Sys2Proof.Machine
end

