-- ==== Sys2Proof/Machine/Xlane.lean ====
section
/-! DEFINITION. The cross-lane words: class XLANE (R145 to R152). -/
namespace Sys2Proof.Machine

/-- The member lanes that a mask operand selects (R145). -/
def members (c : Wctx) (b : BitVec 6) : Lanes := if b = 63#6 then allLanes else c.snap.mreg b.toNat

/-- `.part`: p3 of every issuing lane says whether some member does not issue (R145). -/
def putPart (c : Wctx) (on : Bool) (mem : Lanes) (g : Group) : Group :=
  if on then g.putP 3 c.lanes (if mem &&& ~~~c.lanes ≠ 0#32 then allLanes else 0) else g

/-- A `.part` on a result. DESIGN CHOICE (log entry 77): p3 is written also in an issuing lane whose FPE withholds the word's result (R426). -/
def withPart (c : Wctx) (on : Bool) (mem : Lanes) : Res → Res
  | .ok s => .ok (s.onGrp c.gi (putPart c on mem))
  | r => r

/-- The words of group 0x00 to 0x03 and 0x06 (R146). -/
def specVote (h : Hdr) (m : Bool) (d : BitVec 6) : WordSpec := { h := h, pipe := .v, sw := [d.toNat], pw := partW m }
def specShfl (h : Hdr) (m : Bool) (d a : BitVec 6) : WordSpec :=
  { h := h, pipe := .v, vr := [a.toNat, d.toNat], vw := [d.toNat], pw := partW m }
def specPush (h : Hdr) (d a b : BitVec 6) : WordSpec :=
  { h := h, pipe := .v, vr := [a.toNat, b.toNat, d.toNat], vw := [d.toNat] }
def specBcast (h : Hdr) (m : Bool) (d a : BitVec 6) : WordSpec :=
  { h := h, pipe := .v, vr := [a.toNat], vw := if m then [] else [d.toNat], sw := if m then [d.toNat] else [] }
def specElect (h : Hdr) (p : BitVec 2) (a : BitVec 6) : WordSpec :=
  { h := h, pipe := .v, sw := [a.toNat], pw := [p.toNat] }

/-- `red`, `scan`, `walk` (R148, R149): `n` destination registers, scalar when `sd`. -/
def specRed (h : Hdr) (m sd : Bool) (d a : BitVec 6) (n : Nat) : WordSpec :=
  { h := h, pipe := .v, vr := [a.toNat], vw := if sd then [] else runOf d.toNat n,
    sw := if sd then runOf d.toNat n else [], pw := partW m }
def specTopk (h : Hdr) (d a : BitVec 6) (p : BitVec 2) (ks : Bool) (kv : BitVec 6) : WordSpec :=
  { h := h, pipe := .v, vr := [a.toNat], vw := [d.toNat], sr := if ks then [kv.toNat] else [], pw := [p.toNat] }
def specHist (h : Hdr) (d a b : BitVec 6) : WordSpec :=
  { h := h, pipe := .v, vr := [a.toNat], vw := [d.toNat], sr := [b.toNat] }
def specRng (h : Hdr) (d a b x : BitVec 6) (bsel : Bool) (n : BitVec 2) : WordSpec :=
  { h := h, pipe := .v, vw := runOf d.toNat (n.toNat + 1), sr := pairOf a ++ pairOf x ++ if bsel then pairOf b else [] }

/-- `VOTE` (R146). -/
def execVote (h : Hdr) (m : Bool) (d : BitVec 6) (p : BitVec 2) (b : BitVec 6) (s : State) : Out :=
  .next (word (specVote h m d) s fun c s =>
    let mem := members c b
    withPart c m mem (putS c s d.toNat (mem &&& c.snap.pred p.toNat)))

/-- `SHFL` (R146): a member's value, or the lane's own. -/
def execShfl (h : Hdr) (m : Bool) (d a b : BitVec 6) (s : State) : Out :=
  .next (word (specShfl h m d a) s fun c s =>
    let mem := members c b
    let idx := c.snap.rows d.toNat
    let x := c.snap.rows a.toNat
    withPart c m mem (putLanes c s d.toNat fun l =>
      let i := Fin.ofNat 32 (idx[l].toNat % 32)
      if mem.getLsbD i then x[i] else x[l]))

/-- The sources that push to lane t, ascending (R146). -/
def pushers (c : Wctx) (idx : PerLane Word) (t : Fin 32) : List (Fin 32) :=
  (lanesOf c.lanes).filter fun l => idx[l].toNat % 32 = t

/-- `PUSH` (R146): the highest source of each target, in any state of the target. -/
def execPush (h : Hdr) (d a b : BitVec 6) (s : State) : Out :=
  .next (word (specPush h d a b) s fun c s =>
    if (c.snap.tag d.toNat).haar then .raise cDOMAIN 2
    else
      let idx := c.snap.rows b.toNat
      let x := c.snap.rows a.toNat
      let old := c.snap.vreg d.toNat
      .ok (s.onGrp c.gi fun g =>
        (g.setV d.toNat (Vector.ofFn fun t =>
            match (pushers c idx t).getLast? with | some l => x[l] | none => old[t]) Tag.spatial).orXf
          (lanesWhere fun t => 1 < (pushers c idx t).length) fun _ => 0x80#32))

/-- `BCAST` (R146). -/
def execBcast (h : Hdr) (m : Bool) (d a : BitVec 6) (k : BitVec 5) (s : State) : Out :=
  .next (word (specBcast h m d a) s fun c s =>
    let x := srcA c a (Fin.ofNat 32 k.toNat)
    if m then putS c s d.toNat x else putLanes c s d.toNat fun _ => x)

/-- `ELECT` (R146): the least issuing member, 32 if none. -/
def execElect (h : Hdr) (p : BitVec 2) (a b : BitVec 6) (s : State) : Out :=
  .next (word (specElect h p a) s fun c s =>
    let e := leastLane (c.lanes &&& members c b)
    .ok (s.onGrp c.gi fun g =>
      (g.putP p.toNat c.lanes (lanesWhere fun l => l.val = e)).setS a.toNat (BitVec.ofNat 32 e)))

/-! ### Reductions (R147 to R149) -/

/-- The anchor field as an integer. -/
def anchorOf (anc : BitVec 9) : Int := anc.toInt

/-- What a reduction gives: the words (three for a raw cell), the flags of bits [4:0], and ACL and AGX. -/
structure Folded where
  ws : List Word
  fl : BitVec 5
  xf : Word
  deriving DecidableEq, Repr

/-- An integer operation of R147. -/
def redInt (op : Nat) (x y : Word) : Word :=
  match op with
  | 0 => x + y
  | 1 => if x.toInt ≤ y.toInt then x else y
  | 2 => if x.toNat ≤ y.toNat then x else y
  | 3 => if x.toInt ≤ y.toInt then y else x
  | 4 => if x.toNat ≤ y.toNat then y else x
  | 5 => x &&& y
  | 6 => x ||| y
  | _ => x ^^^ y

/-- The identity of an operation (R147). -/
def redId (op : Nat) : Word :=
  match op with
  | 1 => 0x7fffffff#32
  | 2 => 0xffffffff#32
  | 3 => 0x80000000#32
  | 5 => 0xffffffff#32
  | 8 => 0x7f800000#32
  | 9 => 0xff800000#32
  | _ => 0#32

/-- `fmin` or `fmax` over values that are not none; a result that is a NaN is the canonical one (R64, R136). -/
def redFloat (big : Bool) (x : Word) (xs : List Word) : Word × BitVec 5 :=
  let r := xs.foldl (fun a y => (fMinMax .f32 big a y.toNat).1) x.toNat
  let sig := (x :: xs).any fun w => (Fmt.f32.val w.toNat).isSig
  (if (Fmt.f32.val r).isNan then BitVec.ofNat 32 Fmt.f32.nan else BitVec.ofNat 32 r, flagIf sig fNV)

/-- The anchored sum of words (R78), as FP32 or as integers. -/
def anchoredSum (flt : Bool) (A : Int) (xs : List Word) : Cell96 :=
  xs.foldl (fun k w => anchorAdd A k (if flt then Fmt.f32.val w.toNat else intVal w.toInt)) Cell96.zero

/-- A cell's value out, with INV's NV (R81, R147). -/
def sumOut (flt cnt : Bool) (A : Int) (k : Cell96) : Word × BitVec 5 :=
  let r := conv (if flt then .flt .f32 else .int 32 true) (.mode .rne) cnt false (cellVal A k.n)
  (BitVec.ofNat 32 r.code, r.flags ||| flagIf k.inv fNV)

/-- An operation over member values (R147). -/
def redFold (op : Nat) (A : Int) (cnt raw : Bool) (xs : List Word) : Folded :=
  if 0x0a ≤ op then
    let k := anchoredSum (op = 0x0a) A xs
    let xf := anchorXf k.clamp k.gnx
    if raw then ⟨toWords 3 k.n.toNat, flagIf k.inv fNV, xf⟩
    else
      let r := sumOut (op = 0x0a) cnt A k
      ⟨[r.1], r.2, xf⟩
  else
    match xs with
    | [] => ⟨[redId op], 0#5, 0⟩
    | x :: xs =>
      if 8 ≤ op then
        let r := redFloat (op = 9) x xs
        ⟨[r.1], r.2, 0⟩
      else ⟨[xs.foldl (redInt op) x], 0#5, 0⟩

/-- The values of the members of a set, in lane order. -/
def valuesOf (x : PerLane Word) (mem : Lanes) : List Word := (lanesOf mem).map fun l => x[l]

/-- Per-lane results of a reduction (R147, R426): a lane with an enabled flag is withheld with all of its flags. -/
def putFolds (c : Wctx) (s : State) (q : Bool) (d n : Nat) (r : Fin 32 → Folded) : Res :=
  if partialHaar c (runOf d n) then .raise cDOMAIN 2
  else .ok (putFloat c s q (fun l => (r l).fl) fun good g =>
    (g.putRun d good (fun l => (r l).ws) n).orXf good fun l => (r l).xf)

/-- `SCAN` (R148). -/
def execScan (h : Hdr) (m : Bool) (d a : BitVec 6) (op : BitVec 5) (anc : BitVec 9) (excl q : Bool) (mask : BitVec 6)
    (s : State) : Out :=
  .next (word (specRed h m false d a 1) s fun c s =>
    let mem := members c mask
    let x := c.snap.rows a.toNat
    withPart c m mem (putFolds c s q d.toNat 1 fun l =>
      redFold op.toNat (anchorOf anc) c.snap.ovp false
        (valuesOf x (lanesWhere fun j => mem.getLsbD j && (if excl then j < l else j ≤ l)))))

/-- `RED` (R148). A scalar result is written in full, and the issuing lanes receive the flags (R147, R426). -/
def execRed (h : Hdr) (m : Bool) (d a : BitVec 6) (op : BitVec 5) (anc : BitVec 9) (raw sd q : Bool) (mask : BitVec 6)
    (s : State) : Out :=
  .next (word (specRed h m sd d a (if raw then 3 else 1)) s fun c s =>
    let mem := members c mask
    let n := if raw then 3 else 1
    let r := redFold op.toNat (anchorOf anc) c.snap.ovp raw (valuesOf (c.snap.rows a.toNat) mem)
    if sd then
      let s := s.onGrp c.gi fun g =>
        putPart c m mem ((List.range n).foldl (fun g k => g.setS (d.toNat + k) (r.ws.getD k 0)) g)
      .ok (putFloat c s q (fun _ => r.fl) fun good g => g.orXf good fun _ => r.xf)
    else withPart c m mem (putFolds c s q d.toNat n fun _ => r))

/-- The segment of a lane (R149): the members from its segment's head to the next head. -/
def walkSegment (mem seg : Lanes) (l : Fin 32) : Option (List (Fin 32)) :=
  let ms := lanesOf mem
  let heads := ms.filter fun (j : Fin 32) => seg.getLsbD j || ms.head? = some j
  match (heads.filter fun j => j ≤ l).getLast? with
  | none => none
  | some h =>
    let next := match (heads.filter fun j => h < j).head? with | some j => j.val | none => 32
    some (ms.filter fun j => h ≤ j && j.val < next)

/-- `WALK` (R149). -/
def execWalk (h : Hdr) (d a : BitVec 6) (op : BitVec 5) (anc : BitVec 9) (mode : BitVec 2) (q : Bool)
    (mask seg : BitVec 6) (s : State) : Out :=
  .next (word (specRed h false false d a 1) s fun c s =>
    let mem := members c mask
    let heads := members c seg
    let x := c.snap.rows a.toNat
    let fold := redFold op.toNat (anchorOf anc) c.snap.ovp false
    putFolds c s q d.toNat 1 fun l =>
      match walkSegment mem heads l, mode.toNat with
      | none, 3 => ⟨[0], 0#5, 0⟩
      | none, _ => fold []
      | some g, 0 => fold ((g.filter fun j => j ≤ l).map fun j => x[j])
      | some g, 1 => fold ((g.filter fun j => j < l).map fun j => x[j])
      | some g, 2 => fold (g.map fun j => x[j])
      | some g, _ => ⟨[match g with | j :: _ => x[j] | [] => 0], 0#5, 0⟩)

/-! ### Order statistics and random words (R150 to R152) -/

/-- The order map of a key type (R151). -/
def orderMap (ty : Nat) (x : Word) : Nat :=
  match ty with
  | 0 => x.toNat
  | 1 => (x ^^^ 0x80000000#32).toNat
  | _ => if x.getLsbD 31 then (~~~x).toNat else (x ^^^ 0x80000000#32).toNat

/-- `TOPK` (R150). -/
def execTopk (h : Hdr) (d a : BitVec 6) (p ty : BitVec 2) (ks : Bool) (kv : BitVec 6) (small : Bool) (mask : BitVec 6)
    (s : State) : Out :=
  .next (word (specTopk h d a p ks kv) s fun c s =>
    let mem := members c mask
    let x := c.snap.rows a.toNat
    let u := fun (l : Fin 32) => orderMap ty.toNat x[l]
    let k := if ks then min 32 (c.snap.sreg kv.toNat).toNat else kv.toNat
    let rank := fun (l : Fin 32) => ((lanesOf mem).filter fun j =>
      (if small then u j < u l else u l < u j) || (u j = u l && j < l)).length
    if partialHaar c [d.toNat] then .raise cDOMAIN 2
    else .ok (s.onGrp c.gi fun g =>
      (g.putV d.toNat c.lanes fun l => if mem.getLsbD l then BitVec.ofNat 32 (rank l) else 0xffffffff#32).putP p.toNat
        c.lanes (lanesWhere fun l => mem.getLsbD l && rank l < k)))

/-- `HIST` (R151). -/
def execHist (h : Hdr) (d a b : BitVec 6) (shift : BitVec 5) (w : BitVec 3) (mask : BitVec 6) (ty : BitVec 2)
    (s : State) : Out :=
  .next (word (specHist h d a b) s fun c s =>
    let x := c.snap.rows a.toNat
    let us := (valuesOf x (members c mask)).map (orderMap ty.toNat)
    let top := shift.toNat + w.toNat
    let pre := (c.snap.sreg b.toNat).toNat
    putLanes c s d.toNat fun l => BitVec.ofNat 32 (us.filter fun u =>
      (top = 32 || u / 2 ^ top = pre / 2 ^ top) && u / 2 ^ shift.toNat % 2 ^ w.toNat = l.val).length)

/-- One round of Philox4x32 (R152). -/
def philoxRound (c : Word × Word × Word × Word) (k0 k1 : Word) : Word × Word × Word × Word :=
  let p0 := (0xd2511f53 : Nat) * c.1.toNat
  let p1 := (0xcd9e8d57 : Nat) * c.2.2.1.toNat
  (BitVec.ofNat 32 (p1 / 2 ^ 32) ^^^ c.2.1 ^^^ k0, BitVec.ofNat 32 p1,
   BitVec.ofNat 32 (p0 / 2 ^ 32) ^^^ c.2.2.2 ^^^ k1, BitVec.ofNat 32 p0)

/-- Rounds of Philox, the keys moving on before each but the first (R152). -/
def philoxRounds : Nat → Word × Word × Word × Word → Word → Word → Word × Word × Word × Word
  | 0, c, _, _ => c
  | n + 1, c, k0, k1 => philoxRounds n (philoxRound c k0 k1) (k0 + 0x9e3779b9#32) (k1 + 0xbb67ae85#32)

/-- Philox4x32-10 (R152). -/
def philox (c0 c1 c2 c3 k0 k1 : Word) : List Word :=
  let r := philoxRounds 10 (c0, c1, c2, c3) k0 k1
  [r.1, r.2.1, r.2.2.1, r.2.2.2]

/-- `RNG` (R152). -/
def execRng (h : Hdr) (d a b x : BitVec 6) (bsel : Bool) (n : BitVec 2) (s : State) : Out :=
  .next (word (specRng h d a b x bsel n) s fun c s =>
    let g := c.snap
    let key := match s.ctxs[s.ctxOf g]? with | some k => k.d.rkey | none => 0
    let base : Dword := if bsel then g.spair b.toNat else BitVec.ofNat 64 (workId s g 0)
    let out := fun (l : Fin 32) =>
      let k := base + BitVec.ofNat 64 l.val
      philox (lowW k) (highW k) (g.sreg x.toNat) (g.sreg (x.toNat + 1)) (lowW key ^^^ g.sreg a.toNat)
        (highW key ^^^ g.sreg (a.toNat + 1))
    if partialHaar c (runOf d.toNat (n.toNat + 1)) then .raise cDOMAIN 2
    else .ok (s.onGrp c.gi fun g => g.putRun d.toNat c.lanes out (n.toNat + 1)))

end Sys2Proof.Machine
end

