-- ==== Sys2Proof/Machine/Dispatch.lean ====
section
/-! DEFINITION. The meaning of an instruction: one direct call of its own definition for each constructor of `Instr`.
The definitions stand in the family files beside this one. -/
namespace Sys2Proof.Machine

def exec (i : Instr) (s : State) : Host.Outcome State Fault Refusal :=
  match i with
  | .csrr h d a b => Sys2Proof.Machine.execCsrr h d a b s
  | .csrw h d a b => Sys2Proof.Machine.execCsrw h d a b s
  | .tlbinvPage h a => Sys2Proof.Machine.execTlbinvPage h a s
  | .tlbinvRange h a b => Sys2Proof.Machine.execTlbinvRange h a b s
  | .tlbinvAll h => Sys2Proof.Machine.execTlbinvAll h s
  | .perf h d b => Sys2Proof.Machine.execPerf h d b s
  | .time h d sx => Sys2Proof.Machine.execTime h d sx s
  | .nop h => Sys2Proof.Machine.execNop h s
  | .exit h => Sys2Proof.Machine.execExit h s
  | .yield h => Sys2Proof.Machine.execYield h s
  | .sleep h n => Sys2Proof.Machine.execSleep h n s
  | .region h => Sys2Proof.Machine.execRegion h s
  | .trap h n => Sys2Proof.Machine.execTrap h n s
  | .eret h => Sys2Proof.Machine.execEret h s
  | .bra h off => Sys2Proof.Machine.execBra h off s
  | .brx h a => Sys2Proof.Machine.execBrx h a s
  | .call h off => Sys2Proof.Machine.execCall h off s
  | .callRegister h a => Sys2Proof.Machine.execCallRegister h a s
  | .ret h a => Sys2Proof.Machine.execRet h a s
  | .loop h l n k => Sys2Proof.Machine.execLoop h l n k s
  | .loopRegister h l n sx => Sys2Proof.Machine.execLoopRegister h l n sx s
  | .lbrk h l => Sys2Proof.Machine.execLbrk h l s
  | .ialuAdd h m d a b => Sys2Proof.Machine.execIaluAdd h m d a b s
  | .ialuSub h m d a b => Sys2Proof.Machine.execIaluSub h m d a b s
  | .ialuMul h m d a b => Sys2Proof.Machine.execIaluMul h m d a b s
  | .ialuMulhiN32 h m d a b => Sys2Proof.Machine.execIaluMulhiN32 h m d a b s
  | .ialuMulhiI32 h m d a b => Sys2Proof.Machine.execIaluMulhiI32 h m d a b s
  | .ialuMad h m d a b c sc => Sys2Proof.Machine.execIaluMad h m d a b c sc s
  | .ialuDivN32 h m d a b => Sys2Proof.Machine.execIaluDivN32 h m d a b s
  | .ialuDivI32 h m d a b => Sys2Proof.Machine.execIaluDivI32 h m d a b s
  | .ialuRemN32 h m d a b => Sys2Proof.Machine.execIaluRemN32 h m d a b s
  | .ialuRemI32 h m d a b => Sys2Proof.Machine.execIaluRemI32 h m d a b s
  | .ialuMinN32 h m d a b => Sys2Proof.Machine.execIaluMinN32 h m d a b s
  | .ialuMinI32 h m d a b => Sys2Proof.Machine.execIaluMinI32 h m d a b s
  | .ialuMaxN32 h m d a b => Sys2Proof.Machine.execIaluMaxN32 h m d a b s
  | .ialuMaxI32 h m d a b => Sys2Proof.Machine.execIaluMaxI32 h m d a b s
  | .ialuAnd h m d a b => Sys2Proof.Machine.execIaluAnd h m d a b s
  | .ialuOr h m d a b => Sys2Proof.Machine.execIaluOr h m d a b s
  | .ialuXor h m d a b => Sys2Proof.Machine.execIaluXor h m d a b s
  | .ialuShl h m d a b => Sys2Proof.Machine.execIaluShl h m d a b s
  | .ialuShr h m d a b => Sys2Proof.Machine.execIaluShr h m d a b s
  | .ialuSra h m d a b => Sys2Proof.Machine.execIaluSra h m d a b s
  | .ialuRot h m d a b => Sys2Proof.Machine.execIaluRot h m d a b s
  | .ialuAbs h m d a => Sys2Proof.Machine.execIaluAbs h m d a s
  | .ialuNeg h m d a => Sys2Proof.Machine.execIaluNeg h m d a s
  | .ialuNot h m d a => Sys2Proof.Machine.execIaluNot h m d a s
  | .ialuClz h m d a => Sys2Proof.Machine.execIaluClz h m d a s
  | .ialuPopc h m d a => Sys2Proof.Machine.execIaluPopc h m d a s
  | .ialuBrev h m d a => Sys2Proof.Machine.execIaluBrev h m d a s
  | .ialuMov h m d a => Sys2Proof.Machine.execIaluMov h m d a s
  | .ialuBfxN32 h m d a pos len => Sys2Proof.Machine.execIaluBfxN32 h m d a pos len s
  | .ialuBfxI32 h m d a pos len => Sys2Proof.Machine.execIaluBfxI32 h m d a pos len s
  | .ialuBfi h m d a b pos len => Sys2Proof.Machine.execIaluBfi h m d a b pos len s
  | .ialuSel h m d a b p => Sys2Proof.Machine.execIaluSel h m d a b p s
  | .ialuLea h m d a b sh zx => Sys2Proof.Machine.execIaluLea h m d a b sh zx s
  | .ialuWid h m d sel pr => Sys2Proof.Machine.execIaluWid h m d sel pr s
  | .ialuEscape64 h m d a b ifn ty => Sys2Proof.Machine.execIaluEscape64 h m d a b ifn ty s
  | .ialuiAdd h k d a imm => Sys2Proof.Machine.execIaluiAdd h k d a imm s
  | .ialuiSub h k d a imm => Sys2Proof.Machine.execIaluiSub h k d a imm s
  | .ialuiMul h k d a imm => Sys2Proof.Machine.execIaluiMul h k d a imm s
  | .ialuiMinN32 h k d a imm => Sys2Proof.Machine.execIaluiMinN32 h k d a imm s
  | .ialuiMinI32 h k d a imm => Sys2Proof.Machine.execIaluiMinI32 h k d a imm s
  | .ialuiMaxN32 h k d a imm => Sys2Proof.Machine.execIaluiMaxN32 h k d a imm s
  | .ialuiMaxI32 h k d a imm => Sys2Proof.Machine.execIaluiMaxI32 h k d a imm s
  | .ialuiAnd h k d a imm => Sys2Proof.Machine.execIaluiAnd h k d a imm s
  | .ialuiOr h k d a imm => Sys2Proof.Machine.execIaluiOr h k d a imm s
  | .ialuiXor h k d a imm => Sys2Proof.Machine.execIaluiXor h k d a imm s
  | .ialuiShl h k d a imm => Sys2Proof.Machine.execIaluiShl h k d a imm s
  | .ialuiShr h k d a imm => Sys2Proof.Machine.execIaluiShr h k d a imm s
  | .ialuiSra h k d a imm => Sys2Proof.Machine.execIaluiSra h k d a imm s
  | .ialuiRot h k d a imm => Sys2Proof.Machine.execIaluiRot h k d a imm s
  | .ialuiLi h k d imm => Sys2Proof.Machine.execIaluiLi h k d imm s
  | .saluAdd h d a b => Sys2Proof.Machine.execSaluAdd h d a b s
  | .saluSub h d a b => Sys2Proof.Machine.execSaluSub h d a b s
  | .saluMul h d a b => Sys2Proof.Machine.execSaluMul h d a b s
  | .saluMulhiN32 h d a b => Sys2Proof.Machine.execSaluMulhiN32 h d a b s
  | .saluMulhiI32 h d a b => Sys2Proof.Machine.execSaluMulhiI32 h d a b s
  | .saluMad h d a b c => Sys2Proof.Machine.execSaluMad h d a b c s
  | .saluDivN32 h d a b => Sys2Proof.Machine.execSaluDivN32 h d a b s
  | .saluDivI32 h d a b => Sys2Proof.Machine.execSaluDivI32 h d a b s
  | .saluRemN32 h d a b => Sys2Proof.Machine.execSaluRemN32 h d a b s
  | .saluRemI32 h d a b => Sys2Proof.Machine.execSaluRemI32 h d a b s
  | .saluMinN32 h d a b => Sys2Proof.Machine.execSaluMinN32 h d a b s
  | .saluMinI32 h d a b => Sys2Proof.Machine.execSaluMinI32 h d a b s
  | .saluMaxN32 h d a b => Sys2Proof.Machine.execSaluMaxN32 h d a b s
  | .saluMaxI32 h d a b => Sys2Proof.Machine.execSaluMaxI32 h d a b s
  | .saluAnd h d a b => Sys2Proof.Machine.execSaluAnd h d a b s
  | .saluOr h d a b => Sys2Proof.Machine.execSaluOr h d a b s
  | .saluXor h d a b => Sys2Proof.Machine.execSaluXor h d a b s
  | .saluShl h d a b => Sys2Proof.Machine.execSaluShl h d a b s
  | .saluShr h d a b => Sys2Proof.Machine.execSaluShr h d a b s
  | .saluSra h d a b => Sys2Proof.Machine.execSaluSra h d a b s
  | .saluRot h d a b => Sys2Proof.Machine.execSaluRot h d a b s
  | .saluAbs h d a => Sys2Proof.Machine.execSaluAbs h d a s
  | .saluNeg h d a => Sys2Proof.Machine.execSaluNeg h d a s
  | .saluNot h d a => Sys2Proof.Machine.execSaluNot h d a s
  | .saluClz h d a => Sys2Proof.Machine.execSaluClz h d a s
  | .saluPopc h d a => Sys2Proof.Machine.execSaluPopc h d a s
  | .saluBrev h d a => Sys2Proof.Machine.execSaluBrev h d a s
  | .saluMov h d a => Sys2Proof.Machine.execSaluMov h d a s
  | .saluBfxN32 h d a pos len => Sys2Proof.Machine.execSaluBfxN32 h d a pos len s
  | .saluBfxI32 h d a pos len => Sys2Proof.Machine.execSaluBfxI32 h d a pos len s
  | .saluBfi h d a b pos len => Sys2Proof.Machine.execSaluBfi h d a b pos len s
  | .saluLea h d a b sh zx => Sys2Proof.Machine.execSaluLea h d a b sh zx s
  | .saluWid h d sel pr => Sys2Proof.Machine.execSaluWid h d sel pr s
  | .saluEscape64 h d a b ifn ty => Sys2Proof.Machine.execSaluEscape64 h d a b ifn ty s
  | .saluiAdd h k d a imm => Sys2Proof.Machine.execSaluiAdd h k d a imm s
  | .saluiSub h k d a imm => Sys2Proof.Machine.execSaluiSub h k d a imm s
  | .saluiMul h k d a imm => Sys2Proof.Machine.execSaluiMul h k d a imm s
  | .saluiMinN32 h k d a imm => Sys2Proof.Machine.execSaluiMinN32 h k d a imm s
  | .saluiMinI32 h k d a imm => Sys2Proof.Machine.execSaluiMinI32 h k d a imm s
  | .saluiMaxN32 h k d a imm => Sys2Proof.Machine.execSaluiMaxN32 h k d a imm s
  | .saluiMaxI32 h k d a imm => Sys2Proof.Machine.execSaluiMaxI32 h k d a imm s
  | .saluiAnd h k d a imm => Sys2Proof.Machine.execSaluiAnd h k d a imm s
  | .saluiOr h k d a imm => Sys2Proof.Machine.execSaluiOr h k d a imm s
  | .saluiXor h k d a imm => Sys2Proof.Machine.execSaluiXor h k d a imm s
  | .saluiShl h k d a imm => Sys2Proof.Machine.execSaluiShl h k d a imm s
  | .saluiShr h k d a imm => Sys2Proof.Machine.execSaluiShr h k d a imm s
  | .saluiSra h k d a imm => Sys2Proof.Machine.execSaluiSra h k d a imm s
  | .saluiRot h k d a imm => Sys2Proof.Machine.execSaluiRot h k d a imm s
  | .saluiLi h k d imm => Sys2Proof.Machine.execSaluiLi h k d imm s
  | .fadd h m d a b => Sys2Proof.Machine.execFadd h m d a b s
  | .fsub h m d a b => Sys2Proof.Machine.execFsub h m d a b s
  | .fmul h m d a b => Sys2Proof.Machine.execFmul h m d a b s
  | .fmin h m d a b => Sys2Proof.Machine.execFmin h m d a b s
  | .fmax h m d a b => Sys2Proof.Machine.execFmax h m d a b s
  | .fneg h m d a => Sys2Proof.Machine.execFneg h m d a s
  | .fabs h m d a => Sys2Proof.Machine.execFabs h m d a s
  | .fscl h m d a b => Sys2Proof.Machine.execFscl h m d a b s
  | .fclass h m d a => Sys2Proof.Machine.execFclass h m d a s
  | .frnd h m d a r => Sys2Proof.Machine.execFrnd h m d a r s
  | .faluEscape h m d a b ifn ty bs => Sys2Proof.Machine.execFaluEscape h m d a b ifn ty bs s
  | .ffma h m d a b c ty bs sc rm np na => Sys2Proof.Machine.execFfma h m d a b c ty bs sc rm np na s
  | .fexp2 h m d a => Sys2Proof.Machine.execFexp2 h m d a s
  | .flog2 h m d a => Sys2Proof.Machine.execFlog2 h m d a s
  | .frcp h m d a => Sys2Proof.Machine.execFrcp h m d a s
  | .frsq h m d a => Sys2Proof.Machine.execFrsq h m d a s
  | .fsqrt h m d a => Sys2Proof.Machine.execFsqrt h m d a s
  | .fsin h m d a => Sys2Proof.Machine.execFsin h m d a s
  | .fcos h m d a => Sys2Proof.Machine.execFcos h m d a s
  | .ftanh h m d a => Sys2Proof.Machine.execFtanh h m d a s
  | .ferf h m d a => Sys2Proof.Machine.execFerf h m d a s
  | .cvt h m d a st dt rm dith js jd => Sys2Proof.Machine.execCvt h m d a st dt rm dith js jd s
  | .qnt h m d a e sb fmt st dith => Sys2Proof.Machine.execQnt h m d a e sb fmt st dith s
  | .dq h m d a e sb fmt dt => Sys2Proof.Machine.execDq h m d a e sb fmt dt s
  | .pack h m d a j w => Sys2Proof.Machine.execPack h m d a j w s
  | .unpack h m d a j w => Sys2Proof.Machine.execUnpack h m d a j w s
  | .cmpEq h m n p a b => Sys2Proof.Machine.execCmpEq h m n p a b s
  | .cmpNe h m n p a b => Sys2Proof.Machine.execCmpNe h m n p a b s
  | .cmpLtI32 h m n p a b => Sys2Proof.Machine.execCmpLtI32 h m n p a b s
  | .cmpLeI32 h m n p a b => Sys2Proof.Machine.execCmpLeI32 h m n p a b s
  | .cmpGtI32 h m n p a b => Sys2Proof.Machine.execCmpGtI32 h m n p a b s
  | .cmpGeI32 h m n p a b => Sys2Proof.Machine.execCmpGeI32 h m n p a b s
  | .cmpLtN32 h m n p a b => Sys2Proof.Machine.execCmpLtN32 h m n p a b s
  | .cmpLeN32 h m n p a b => Sys2Proof.Machine.execCmpLeN32 h m n p a b s
  | .cmpGtN32 h m n p a b => Sys2Proof.Machine.execCmpGtN32 h m n p a b s
  | .cmpGeN32 h m n p a b => Sys2Proof.Machine.execCmpGeN32 h m n p a b s
  | .fcmpEq h m n q p a b => Sys2Proof.Machine.execFcmpEq h m n q p a b s
  | .fcmpNe h m n q p a b => Sys2Proof.Machine.execFcmpNe h m n q p a b s
  | .fcmpLt h m n q p a b => Sys2Proof.Machine.execFcmpLt h m n q p a b s
  | .fcmpLe h m n q p a b => Sys2Proof.Machine.execFcmpLe h m n q p a b s
  | .fcmpGt h m n q p a b => Sys2Proof.Machine.execFcmpGt h m n q p a b s
  | .fcmpGe h m n q p a b => Sys2Proof.Machine.execFcmpGe h m n q p a b s
  | .fcmpUn h m n q p a b => Sys2Proof.Machine.execFcmpUn h m n q p a b s
  | .fcmpOrd h m n q p a b => Sys2Proof.Machine.execFcmpOrd h m n q p a b s
  | .vote h m d p b => Sys2Proof.Machine.execVote h m d p b s
  | .shfl h m d a b => Sys2Proof.Machine.execShfl h m d a b s
  | .push h d a b => Sys2Proof.Machine.execPush h d a b s
  | .bcast h m d a k => Sys2Proof.Machine.execBcast h m d a k s
  | .scan h m d a op anc excl q mask => Sys2Proof.Machine.execScan h m d a op anc excl q mask s
  | .red h m d a op anc raw sd q mask => Sys2Proof.Machine.execRed h m d a op anc raw sd q mask s
  | .elect h p a b => Sys2Proof.Machine.execElect h p a b s
  | .topk h d a p ty ks kv small mask => Sys2Proof.Machine.execTopk h d a p ty ks kv small mask s
  | .hist h d a b shift w mask ty => Sys2Proof.Machine.execHist h d a b shift w mask ty s
  | .rng h d a b x bsel n => Sys2Proof.Machine.execRng h d a b x bsel n s
  | .walk h d a op anc mode q mask seg => Sys2Proof.Machine.execWalk h d a op anc mode q mask seg s
  | .join h d => Sys2Proof.Machine.execJoin h d s
  | .leave h d => Sys2Proof.Machine.execLeave h d s
  | .wait h d => Sys2Proof.Machine.execWait h d s
  | .trywait h d a => Sys2Proof.Machine.execTrywait h d a s
  | .mset h d a => Sys2Proof.Machine.execMset h d a s
  | .mmov h d a => Sys2Proof.Machine.execMmov h d a s
  | .mand h d a b => Sys2Proof.Machine.execMand h d a b s
  | .mor h d a b => Sys2Proof.Machine.execMor h d a b s
  | .mxor h d a b => Sys2Proof.Machine.execMxor h d a b s
  | .mnot h d a => Sys2Proof.Machine.execMnot h d a s
  | .mpop h d a => Sys2Proof.Machine.execMpop h d a s
  | .ldN8 h mode d a b => Sys2Proof.Machine.execLdN8 h mode d a b s
  | .ldI8 h mode d a b => Sys2Proof.Machine.execLdI8 h mode d a b s
  | .ldN16 h mode d a b => Sys2Proof.Machine.execLdN16 h mode d a b s
  | .ldI16 h mode d a b => Sys2Proof.Machine.execLdI16 h mode d a b s
  | .ld32 h mode d a b => Sys2Proof.Machine.execLd32 h mode d a b s
  | .ld64 h mode d a b => Sys2Proof.Machine.execLd64 h mode d a b s
  | .ld128 h mode d a b => Sys2Proof.Machine.execLd128 h mode d a b s
  | .ldfe32 h mode d a b => Sys2Proof.Machine.execLdfe32 h mode d a b s
  | .ldfe64 h mode d a b => Sys2Proof.Machine.execLdfe64 h mode d a b s
  | .ldfe128 h mode d a b => Sys2Proof.Machine.execLdfe128 h mode d a b s
  | .ldfeClr32 h mode d a b => Sys2Proof.Machine.execLdfeClr32 h mode d a b s
  | .ldfeClr64 h mode d a b => Sys2Proof.Machine.execLdfeClr64 h mode d a b s
  | .ldfeClr128 h mode d a b => Sys2Proof.Machine.execLdfeClr128 h mode d a b s
  | .st8 h mode d a b => Sys2Proof.Machine.execSt8 h mode d a b s
  | .st16 h mode d a b => Sys2Proof.Machine.execSt16 h mode d a b s
  | .st32 h mode d a b => Sys2Proof.Machine.execSt32 h mode d a b s
  | .st64 h mode d a b => Sys2Proof.Machine.execSt64 h mode d a b s
  | .st128 h mode d a b => Sys2Proof.Machine.execSt128 h mode d a b s
  | .stfe32 h mode d a b => Sys2Proof.Machine.execStfe32 h mode d a b s
  | .stfe64 h mode d a b => Sys2Proof.Machine.execStfe64 h mode d a b s
  | .stfe128 h mode d a b => Sys2Proof.Machine.execStfe128 h mode d a b s
  | .atomAdd h m d a b mode sx scope w rt bs => Sys2Proof.Machine.execAtomAdd h m d a b mode sx scope w rt bs s
  | .atomMinI h m d a b mode sx scope w rt bs => Sys2Proof.Machine.execAtomMinI h m d a b mode sx scope w rt bs s
  | .atomMinN h m d a b mode sx scope w rt bs => Sys2Proof.Machine.execAtomMinN h m d a b mode sx scope w rt bs s
  | .atomMaxI h m d a b mode sx scope w rt bs => Sys2Proof.Machine.execAtomMaxI h m d a b mode sx scope w rt bs s
  | .atomMaxN h m d a b mode sx scope w rt bs => Sys2Proof.Machine.execAtomMaxN h m d a b mode sx scope w rt bs s
  | .atomAnd h m d a b mode sx scope w rt bs => Sys2Proof.Machine.execAtomAnd h m d a b mode sx scope w rt bs s
  | .atomOr h m d a b mode sx scope w rt bs => Sys2Proof.Machine.execAtomOr h m d a b mode sx scope w rt bs s
  | .atomXor h m d a b mode sx scope w rt bs => Sys2Proof.Machine.execAtomXor h m d a b mode sx scope w rt bs s
  | .atomXchg h m d a b mode sx scope w rt bs => Sys2Proof.Machine.execAtomXchg h m d a b mode sx scope w rt bs s
  | .atomCas h m d a b mode sx scope w rt cr bs cs => Sys2Proof.Machine.execAtomCas h m d a b mode sx scope w rt cr bs cs s
  | .atomInc h m d a b mode sx scope w rt bs => Sys2Proof.Machine.execAtomInc h m d a b mode sx scope w rt bs s
  | .atomIncb h m d a b mode sx scope w rt bs => Sys2Proof.Machine.execAtomIncb h m d a b mode sx scope w rt bs s
  | .aadd h a b mode sx scope w bs => Sys2Proof.Machine.execAadd h a b mode sx scope w bs s
  | .ordend h => Sys2Proof.Machine.execOrdend h s
  | .lock h d a b => Sys2Proof.Machine.execLock h d a b s
  | .unlock h a b => Sys2Proof.Machine.execUnlock h a b s
  | .pref h m l a b => Sys2Proof.Machine.execPref h m l a b s
  | .fenceSys h => Sys2Proof.Machine.execFenceSys h s
  | .fenceWin h => Sys2Proof.Machine.execFenceWin h s
  | .waitc h ld st cp tl => Sys2Proof.Machine.execWaitc h ld st cp tl s
  | .acq h d => Sys2Proof.Machine.execAcq h d s
  | .rel h d => Sys2Proof.Machine.execRel h d s
  | .mmaE2m1 h m acc a b sa bsp clr => Sys2Proof.Machine.execMmaE2m1 h m acc a b sa bsp clr s
  | .mmaE4m3 h m acc a b sa sel bsp clr => Sys2Proof.Machine.execMmaE4m3 h m acc a b sa sel bsp clr s
  | .mmaE5m2 h m acc a b sa sel bsp clr => Sys2Proof.Machine.execMmaE5m2 h m acc a b sa sel bsp clr s
  | .mmaE3m2 h m acc a b sa sel bsp clr => Sys2Proof.Machine.execMmaE3m2 h m acc a b sa sel bsp clr s
  | .mmaE2m3 h m acc a b sa sel bsp clr => Sys2Proof.Machine.execMmaE2m3 h m acc a b sa sel bsp clr s
  | .mmaI8 h m acc a b bsp clr => Sys2Proof.Machine.execMmaI8 h m acc a b bsp clr s
  | .mmaBf16 h m acc a b bsp clr => Sys2Proof.Machine.execMmaBf16 h m acc a b bsp clr s
  | .mmaF16 h m acc a b bsp clr => Sys2Proof.Machine.execMmaF16 h m acc a b bsp clr s
  | .acz h a => Sys2Proof.Machine.execAcz h a s
  | .acanch h ix a j => Sys2Proof.Machine.execAcanch h ix a j s
  | .acanchScalar h a b => Sys2Proof.Machine.execAcanchScalar h a b s
  | .acvt h d acc b dt c0 n noba nobb => Sys2Proof.Machine.execAcvt h d acc b dt c0 n noba nobb s
  | .acld h a b => Sys2Proof.Machine.execAcld h a b s
  | .acst h a b => Sys2Proof.Machine.execAcst h a b s
  | .gang h k a b => Sys2Proof.Machine.execGang h k a b s
  | .tgset h d a b => Sys2Proof.Machine.execTgset h d a b s
  | .tgget h d a sx => Sys2Proof.Machine.execTgget h d a sx s
  | .wvf h m d a u sx x l => Sys2Proof.Machine.execWvf h m d a u sx x l s
  | .wvi h m d a => Sys2Proof.Machine.execWvi h m d a s
  | .stw h m a b mode l x sx t n rw => Sys2Proof.Machine.execStw h m a b mode l x sx t n rw s
  | .ldw h d b mode rw => Sys2Proof.Machine.execLdw h d b mode rw s
  | .wthr h d a n => Sys2Proof.Machine.execWthr h d a n s
  | .board h d a b mr all => Sys2Proof.Machine.execBoard h d a b mr all s
  | .bwait h d a => Sys2Proof.Machine.execBwait h d a s
  | .btry h d a => Sys2Proof.Machine.execBtry h d a s
  | .bfree h a => Sys2Proof.Machine.execBfree h a s
  | .lapr h d sx => Sys2Proof.Machine.execLapr h d sx s
  | .job h d a b => Sys2Proof.Machine.execJob h d a b s
  | .send h a b => Sys2Proof.Machine.execSend h a b s
  | .recv h d a => Sys2Proof.Machine.execRecv h d a s
  | .jstat h d a sx => Sys2Proof.Machine.execJstat h d a sx s
  | .seqld h d a b => Sys2Proof.Machine.execSeqld h d a b s
  | .seqst h d a b => Sys2Proof.Machine.execSeqst h d a b s
  | .admitSeq h d a => Sys2Proof.Machine.execAdmitSeq h d a s
  | .retire h a b => Sys2Proof.Machine.execRetire h a b s
  | .retireMig h a b => Sys2Proof.Machine.execRetireMig h a b s
  | .tokput h d a b => Sys2Proof.Machine.execTokput h d a b s
  | .accept h d a b => Sys2Proof.Machine.execAccept h d a b s
  | .draft h d a b => Sys2Proof.Machine.execDraft h d a b s
  | .stopck h d a b => Sys2Proof.Machine.execStopck h d a b s
  | .ckpt h a b => Sys2Proof.Machine.execCkpt h a b s
  | .pgref h d a b => Sys2Proof.Machine.execPgref h d a b s
  | .pgcow h d a b => Sys2Proof.Machine.execPgcow h d a b s
  | .pgmove h d a b => Sys2Proof.Machine.execPgmove h d a b s
  | .pgpin h d a b => Sys2Proof.Machine.execPgpin h d a b s
  | .pghand h d a b => Sys2Proof.Machine.execPghand h d a b s
  | .catld h d a b => Sys2Proof.Machine.execCatld h d a b s
  | .catst h d a b => Sys2Proof.Machine.execCatst h d a b s
  | .bar h d a p sx => Sys2Proof.Machine.execBar h d a p sx s
  | .barr h d a p sx => Sys2Proof.Machine.execBarr h d a p sx s
  | .barrRem h d a => Sys2Proof.Machine.execBarrRem h d a s
  | .barw h d a p sx => Sys2Proof.Machine.execBarw h d a p sx s
  | .bart h d a hint p sx => Sys2Proof.Machine.execBart h d a hint p sx s
  | .gbar h d => Sys2Proof.Machine.execGbar h d s
  | .phaseRd h d a p sx => Sys2Proof.Machine.execPhaseRd h d a p sx s
  | .phaseArr h d a p sx => Sys2Proof.Machine.execPhaseArr h d a p sx s
  | .phaseInit h d a p sx => Sys2Proof.Machine.execPhaseInit h d a p sx s
  | .timeoutStarve gi => Sys2Proof.Machine.execTimeoutStarve gi s
  | .timeoutAcq gi => Sys2Proof.Machine.execTimeoutAcq gi s
  | .timeoutFewait gi => Sys2Proof.Machine.execTimeoutFewait gi s
  | .timeoutRendez gi => Sys2Proof.Machine.execTimeoutRendez gi s
  | .timeoutBoard gi => Sys2Proof.Machine.execTimeoutBoard gi s
  | .timeoutBarwait gi => Sys2Proof.Machine.execTimeoutBarwait gi s
  | .sleepWake gi => Sys2Proof.Machine.execSleepWake gi s
  | .acqGrant core => Sys2Proof.Machine.execAcqGrant core s
  | .loadDataArrival gi id => Sys2Proof.Machine.execLoadDataArrival gi id s
  | .storeCompletion gi id => Sys2Proof.Machine.execStoreCompletion gi id s
  | .ldfeAccess gi id l => Sys2Proof.Machine.execLdfeAccess gi id l s
  | .fenceSysComplete gi => Sys2Proof.Machine.execFenceSysComplete gi s
  | .windowBoundary cx => Sys2Proof.Machine.execWindowBoundary cx s
  | .tlbinvComplete gi => Sys2Proof.Machine.execTlbinvComplete gi s
  | .orderTokenPass k => Sys2Proof.Machine.execOrderTokenPass k s
  | .ordAtomicApply gi => Sys2Proof.Machine.execOrdAtomicApply gi s
  | .tokenPark t => Sys2Proof.Machine.execTokenPark t s
  | .gridBarrierPark t => Sys2Proof.Machine.execGridBarrierPark t s
  | .barrierWaitComplete gi => Sys2Proof.Machine.execBarrierWaitComplete gi s
  | .bartExpiry gi => Sys2Proof.Machine.execBartExpiry gi s
  | .remoteArrivalApply cx port addr window wink unsync => Sys2Proof.Machine.execRemoteArrivalApply cx port addr window wink unsync s
  | .bandGrant t k => Sys2Proof.Machine.execBandGrant t k s
  | .gangDissolve t => Sys2Proof.Machine.execGangDissolve t s
  | .enginePassStart isl => Sys2Proof.Machine.execEnginePassStart isl s
  | .tileOperationComplete gi id => Sys2Proof.Machine.execTileOperationComplete gi id s
  | .waveComplete gi id => Sys2Proof.Machine.execWaveComplete gi id s
  | .ringBeat noise => Sys2Proof.Machine.execRingBeat noise s
  | .boardGrant cluster => Sys2Proof.Machine.execBoardGrant cluster s
  | .boardingDeadline cluster => Sys2Proof.Machine.execBoardingDeadline cluster s
  | .lapBoundary noise => Sys2Proof.Machine.execLapBoundary noise s
  | .governorEvaluation held => Sys2Proof.Machine.execGovernorEvaluation held s
  | .dieRangeTake die k => Sys2Proof.Machine.execDieRangeTake die k s
  | .teamPlacement core => Sys2Proof.Machine.execTeamPlacement core s
  | .teamPark t => Sys2Proof.Machine.execTeamPark t s
  | .teamResume core => Sys2Proof.Machine.execTeamResume core s
  | .groupFree gi => Sys2Proof.Machine.execGroupFree gi s
  | .kernelEndSequence k => Sys2Proof.Machine.execKernelEndSequence k s
  | .kernelCancelComplete k => Sys2Proof.Machine.execKernelCancelComplete k s
  | .jobSlotGrant core => Sys2Proof.Machine.execJobSlotGrant core s
  | .jobEdgeCheck uid => Sys2Proof.Machine.execJobEdgeCheck uid s
  | .jobGranuleAccess uid => Sys2Proof.Machine.execJobGranuleAccess uid s
  | .jobMark uid => Sys2Proof.Machine.execJobMark uid s
  | .jobCopy uid => Sys2Proof.Machine.execJobCopy uid s
  | .jobFill uid => Sys2Proof.Machine.execJobFill uid s
  | .jobConv uid => Sys2Proof.Machine.execJobConv uid s
  | .jobGather uid => Sys2Proof.Machine.execJobGather uid s
  | .jobReduce uid => Sys2Proof.Machine.execJobReduce uid s
  | .jobAllgather uid => Sys2Proof.Machine.execJobAllgather uid s
  | .jobBcast uid => Sys2Proof.Machine.execJobBcast uid s
  | .jobSuffix uid => Sys2Proof.Machine.execJobSuffix uid s
  | .jobPgmoveCard uid => Sys2Proof.Machine.execJobPgmoveCard uid s
  | .jobPgcowCard uid => Sys2Proof.Machine.execJobPgcowCard uid s
  | .jobPgrefCard uid => Sys2Proof.Machine.execJobPgrefCard uid s
  | .jobPghandCard uid => Sys2Proof.Machine.execJobPghandCard uid s
  | .pageInComplete k => Sys2Proof.Machine.execPageInComplete k s
  | .pageCopyComplete k => Sys2Proof.Machine.execPageCopyComplete k s
  | .handoffBytesArrive cx port pool page off data window wink unsync => Sys2Proof.Machine.execHandoffBytesArrive cx port pool page off data window wink unsync s
  | .handoffAck x => Sys2Proof.Machine.execHandoffAck x s
  | .mboxSlotWrite k => Sys2Proof.Machine.execMboxSlotWrite k s
  | .mboxSlotRead gi id => Sys2Proof.Machine.execMboxSlotRead gi id s
  | .linkMessageArrival cx port mbx dep data window wink unsync => Sys2Proof.Machine.execLinkMessageArrival cx port mbx dep data window wink unsync s
  | .deviceQueueEntryWrite cx q => Sys2Proof.Machine.execDeviceQueueEntryWrite cx q s
  | .doorbellWrite fn cx off val => Sys2Proof.Machine.execDoorbellWrite fn cx off val s
  | .launchKernel cx q => Sys2Proof.Machine.execLaunchKernel cx q s
  | .launchRing cx q => Sys2Proof.Machine.execLaunchRing cx q s
  | .launchGrant cx q => Sys2Proof.Machine.execLaunchGrant cx q s
  | .launchCancel cx q => Sys2Proof.Machine.execLaunchCancel cx q s
  | .launchNop cx q => Sys2Proof.Machine.execLaunchNop cx q s
  | .launchBadentry cx q => Sys2Proof.Machine.execLaunchBadentry cx q s
  | .timeTriggeredFiring cx slot => Sys2Proof.Machine.execTimeTriggeredFiring cx slot s
  | .faultRecordWrite cx => Sys2Proof.Machine.execFaultRecordWrite cx s
  | .fqciWrite fn cx val => Sys2Proof.Machine.execFqciWrite fn cx val s
  | .resolveResume fn rid => Sys2Proof.Machine.execResolveResume fn rid s
  | .resolveCancel fn rid => Sys2Proof.Machine.execResolveCancel fn rid s
  | .bind fn addr => Sys2Proof.Machine.execBind fn addr s
  | .unbind fn cx => Sys2Proof.Machine.execUnbind fn cx s
  | .save fn cx => Sys2Proof.Machine.execSave fn cx s
  | .saveComplete cx => Sys2Proof.Machine.execSaveComplete cx s
  | .restore fn cx addr => Sys2Proof.Machine.execRestore fn cx addr s
  | .restoreComplete cx => Sys2Proof.Machine.execRestoreComplete cx s
  | .qreload fn cx q => Sys2Proof.Machine.execQreload fn cx q s
  | .tlbinvRegisterWrite fn cx => Sys2Proof.Machine.execTlbinvRegisterWrite fn cx s
  | .functionReset fn => Sys2Proof.Machine.execFunctionReset fn s
  | .functionResetComplete fn => Sys2Proof.Machine.execFunctionResetComplete fn s
  | .shareWrite fn f val => Sys2Proof.Machine.execShareWrite fn f val s
  | .peerTableWrite fn val => Sys2Proof.Machine.execPeerTableWrite fn val s
  | .linkRetrainRequest fn p => Sys2Proof.Machine.execLinkRetrainRequest fn p s
  | .msixUnmask fn vec => Sys2Proof.Machine.execMsixUnmask fn vec s
  | .registerWrite fn off val => Sys2Proof.Machine.execRegisterWrite fn off val s
  | .hostWindowRequest fn off kind n data => Sys2Proof.Machine.execHostWindowRequest fn off kind n data s
  | .partnerDetected p => Sys2Proof.Machine.execPartnerDetected p s
  | .trainingEnd p rate width full => Sys2Proof.Machine.execTrainingEnd p rate width full s
  | .trainingFailed p => Sys2Proof.Machine.execTrainingFailed p s
  | .laneLost p => Sys2Proof.Machine.execLaneLost p s
  | .partnerLost p => Sys2Proof.Machine.execPartnerLost p s
  | .dieLinkFatalError => Sys2Proof.Machine.execDieLinkFatalError s
  | .remoteStoreArrival cx port kind a b c data window wink unsync => Sys2Proof.Machine.execRemoteStoreArrival cx port kind a b c data window wink unsync s
  | .remoteAckArrival x d => Sys2Proof.Machine.execRemoteAckArrival x d s
  | .retransmitLimit x => Sys2Proof.Machine.execRetransmitLimit x s
  | .timeSync offs st => Sys2Proof.Machine.execTimeSync offs st s
  | .packageReset strap0 strap1 linkOk => Sys2Proof.Machine.execPackageReset strap0 strap1 linkOk s
  | .keyload req secured => Sys2Proof.Machine.execKeyload req secured s
  | .keyerase req secured => Sys2Proof.Machine.execKeyerase req secured s
  | .pcap req => Sys2Proof.Machine.execPcap req s
  | .fwload req => Sys2Proof.Machine.execFwload req s
  | .pstat req => Sys2Proof.Machine.execPstat req s
  | .doeUnknownObject req => Sys2Proof.Machine.execDoeUnknownObject req s
  | .getVersion data => Sys2Proof.Machine.execGetVersion data s
  | .getCapabilities data => Sys2Proof.Machine.execGetCapabilities data s
  | .negotiateAlgorithms data => Sys2Proof.Machine.execNegotiateAlgorithms data s
  | .getDigests data => Sys2Proof.Machine.execGetDigests data s
  | .getCertificate data => Sys2Proof.Machine.execGetCertificate data s
  | .challenge data => Sys2Proof.Machine.execChallenge data s
  | .getMeasurements data => Sys2Proof.Machine.execGetMeasurements data s
  | .keyExchange data => Sys2Proof.Machine.execKeyExchange data s
  | .finish data => Sys2Proof.Machine.execFinish data s
  | .endSession data => Sys2Proof.Machine.execEndSession data s
  | .powerInterval pm => Sys2Proof.Machine.execPowerInterval pm s
  | .droop isl => Sys2Proof.Machine.execDroop isl s
  | .supplyRecovery isl => Sys2Proof.Machine.execSupplyRecovery isl s
  | .peerAbortNotice cx uid => Sys2Proof.Machine.execPeerAbortNotice cx uid s
  | .peerRefusal x why => Sys2Proof.Machine.execPeerRefusal x why s

end Sys2Proof.Machine
end

