-- ==== Sys2Proof/Machine/Specs.lean ====
section
/-! DEFINITION. What each word reads, writes and counts, and its pipe, for the checks of a chain (R30, R31). Each arm names the
operand form that the word's meaning goes through. A step of another agent has no word. -/
namespace Sys2Proof.Machine

/-- The operand form of an instruction. -/
def specOf : Instr → Option WordSpec
  | .csrr h d a b => some (specCsrr h d a b)
  | .csrw h d a b => some (specCsrw h d a b)
  | .tlbinvPage h a => some (specTlbinv h (pairOf a))
  | .tlbinvRange h a b => some (specTlbinv h (pairOf a ++ [b.toNat]))
  | .tlbinvAll h => some (specTlbinv h [])
  | .perf h d _ => some (specPair h d)
  | .time h d _ => some (specPair h d)
  | .nop h => some (specCtl h false)
  | .exit h => some (specCtl h true)
  | .yield h => some (specCtl h true)
  | .sleep h _ => some (specCtl h true)
  | .region h => some (specRegion h)
  | .trap h _ => some (specCtl h false)
  | .eret h => some (specCtl h false)
  | .bra h _ => some (specCtl h false)
  | .brx h a => some (specBrx h a)
  | .call h _ => some (specCall h [])
  | .callRegister h a => some (specCall h [a.toNat])
  | .ret h a => some (specBrx h a)
  | .loop h l _ _ => some (specLoop h l [])
  | .loopRegister h l _ a => some (specLoop h l [a.toNat])
  | .lbrk h _ => some (specCtl h true)
  | .ialuAdd h m d a b => some (specV2 h m d a b)
  | .ialuSub h m d a b => some (specV2 h m d a b)
  | .ialuMul h m d a b => some (specV2 h m d a b)
  | .ialuMulhiN32 h m d a b => some (specV2 h m d a b)
  | .ialuMulhiI32 h m d a b => some (specV2 h m d a b)
  | .ialuMad h m d a b e sc => some (specMad h m d a b e sc)
  | .ialuDivN32 h m d a b => some (specV2 h m d a b)
  | .ialuDivI32 h m d a b => some (specV2 h m d a b)
  | .ialuRemN32 h m d a b => some (specV2 h m d a b)
  | .ialuRemI32 h m d a b => some (specV2 h m d a b)
  | .ialuMinN32 h m d a b => some (specV2 h m d a b)
  | .ialuMinI32 h m d a b => some (specV2 h m d a b)
  | .ialuMaxN32 h m d a b => some (specV2 h m d a b)
  | .ialuMaxI32 h m d a b => some (specV2 h m d a b)
  | .ialuAnd h m d a b => some (specV2 h m d a b)
  | .ialuOr h m d a b => some (specV2 h m d a b)
  | .ialuXor h m d a b => some (specV2 h m d a b)
  | .ialuShl h m d a b => some (specV2 h m d a b)
  | .ialuShr h m d a b => some (specV2 h m d a b)
  | .ialuSra h m d a b => some (specV2 h m d a b)
  | .ialuRot h m d a b => some (specV2 h m d a b)
  | .ialuAbs h m d a => some (specV1 h m d a)
  | .ialuNeg h m d a => some (specV1 h m d a)
  | .ialuNot h m d a => some (specV1 h m d a)
  | .ialuClz h m d a => some (specV1 h m d a)
  | .ialuPopc h m d a => some (specV1 h m d a)
  | .ialuBrev h m d a => some (specV1 h m d a)
  | .ialuMov h m d a => some (specV1 h m d a)
  | .ialuBfxN32 h m d a _ _ => some (specV1 h m d a)
  | .ialuBfxI32 h m d a _ _ => some (specV1 h m d a)
  | .ialuBfi h m d a b _ _ => some (specV2 h m d a b)
  | .ialuSel h m d a b _ => some (specV2 h m d a b)
  | .ialuLea h m d a b _ _ => some (specLea h m d a b)
  | .ialuWid h _ d _ pr => some (specWid h d pr)
  | .ialuEscape64 h m d a b ifn _ => some (specEsc h m d a b ifn)
  | .ialuiAdd h _ d a _ => some (specV1 h false d a)
  | .ialuiSub h _ d a _ => some (specV1 h false d a)
  | .ialuiMul h _ d a _ => some (specV1 h false d a)
  | .ialuiMinN32 h _ d a _ => some (specV1 h false d a)
  | .ialuiMinI32 h _ d a _ => some (specV1 h false d a)
  | .ialuiMaxN32 h _ d a _ => some (specV1 h false d a)
  | .ialuiMaxI32 h _ d a _ => some (specV1 h false d a)
  | .ialuiAnd h _ d a _ => some (specV1 h false d a)
  | .ialuiOr h _ d a _ => some (specV1 h false d a)
  | .ialuiXor h _ d a _ => some (specV1 h false d a)
  | .ialuiShl h _ d a _ => some (specV1 h false d a)
  | .ialuiShr h _ d a _ => some (specV1 h false d a)
  | .ialuiSra h _ d a _ => some (specV1 h false d a)
  | .ialuiRot h _ d a _ => some (specV1 h false d a)
  | .ialuiLi h _ d _ => some (specV0 h d)
  | .saluAdd h d a b => some (specS2 h d a b)
  | .saluSub h d a b => some (specS2 h d a b)
  | .saluMul h d a b => some (specS2 h d a b)
  | .saluMulhiN32 h d a b => some (specS2 h d a b)
  | .saluMulhiI32 h d a b => some (specS2 h d a b)
  | .saluMad h d a b e => some (specSMad h d a b e)
  | .saluDivN32 h d a b => some (specS2 h d a b)
  | .saluDivI32 h d a b => some (specS2 h d a b)
  | .saluRemN32 h d a b => some (specS2 h d a b)
  | .saluRemI32 h d a b => some (specS2 h d a b)
  | .saluMinN32 h d a b => some (specS2 h d a b)
  | .saluMinI32 h d a b => some (specS2 h d a b)
  | .saluMaxN32 h d a b => some (specS2 h d a b)
  | .saluMaxI32 h d a b => some (specS2 h d a b)
  | .saluAnd h d a b => some (specS2 h d a b)
  | .saluOr h d a b => some (specS2 h d a b)
  | .saluXor h d a b => some (specS2 h d a b)
  | .saluShl h d a b => some (specS2 h d a b)
  | .saluShr h d a b => some (specS2 h d a b)
  | .saluSra h d a b => some (specS2 h d a b)
  | .saluRot h d a b => some (specS2 h d a b)
  | .saluAbs h d a => some (specS1 h d a)
  | .saluNeg h d a => some (specS1 h d a)
  | .saluNot h d a => some (specS1 h d a)
  | .saluClz h d a => some (specS1 h d a)
  | .saluPopc h d a => some (specS1 h d a)
  | .saluBrev h d a => some (specS1 h d a)
  | .saluMov h d a => some (specS1 h d a)
  | .saluBfxN32 h d a _ _ => some (specS1 h d a)
  | .saluBfxI32 h d a _ _ => some (specS1 h d a)
  | .saluBfi h d a b _ _ => some (specS2 h d a b)
  | .saluLea h d a b _ _ => some (specSLea h d a b)
  | .saluWid h d _ pr => some (specSWid h d pr)
  | .saluEscape64 h d a b ifn _ => some (specSEsc h d a b ifn)
  | .saluiAdd h _ d a _ => some (specS1 h d a)
  | .saluiSub h _ d a _ => some (specS1 h d a)
  | .saluiMul h _ d a _ => some (specS1 h d a)
  | .saluiMinN32 h _ d a _ => some (specS1 h d a)
  | .saluiMinI32 h _ d a _ => some (specS1 h d a)
  | .saluiMaxN32 h _ d a _ => some (specS1 h d a)
  | .saluiMaxI32 h _ d a _ => some (specS1 h d a)
  | .saluiAnd h _ d a _ => some (specS1 h d a)
  | .saluiOr h _ d a _ => some (specS1 h d a)
  | .saluiXor h _ d a _ => some (specS1 h d a)
  | .saluiShl h _ d a _ => some (specS1 h d a)
  | .saluiShr h _ d a _ => some (specS1 h d a)
  | .saluiSra h _ d a _ => some (specS1 h d a)
  | .saluiRot h _ d a _ => some (specS1 h d a)
  | .saluiLi h _ d _ => some (specS0 h d)
  | .fadd h _ d a b => some (specF2 h d a b)
  | .fsub h _ d a b => some (specF2 h d a b)
  | .fmul h _ d a b => some (specF2 h d a b)
  | .fmin h _ d a b => some (specF2 h d a b)
  | .fmax h _ d a b => some (specF2 h d a b)
  | .fneg h _ d a => some (specF1 h d a)
  | .fabs h _ d a => some (specF1 h d a)
  | .fscl h _ d a b => some (specF2 h d a b)
  | .fclass h _ d a => some (specF1 h d a)
  | .frnd h _ d a _ => some (specF1 h d a)
  | .faluEscape h _ d a b ifn _ bs => some (specFEsc h d a b ifn bs)
  | .ffma h _ d a b e _ bs sc _ _ _ => some (specFma h d a b e bs sc)
  | .fexp2 h _ d a => some (specF1 h d a)
  | .flog2 h _ d a => some (specF1 h d a)
  | .frcp h _ d a => some (specF1 h d a)
  | .frsq h _ d a => some (specF1 h d a)
  | .fsqrt h _ d a => some (specF1 h d a)
  | .fsin h _ d a => some (specF1 h d a)
  | .fcos h _ d a => some (specF1 h d a)
  | .ftanh h _ d a => some (specF1 h d a)
  | .ferf h _ d a => some (specF1 h d a)
  | .cvt h _ d a st dt _ _ _ _ => some (specCvt h d a dt st)
  | .qnt h _ d a e _ fmt st _ => some (specQnt h d a e fmt st)
  | .dq h _ d a e _ fmt dt => some (specDq h d a e fmt dt)
  | .pack h _ d a _ w => some (specPack h d a w)
  | .unpack h _ d a _ w => some (specUnpack h d a w)
  | .cmpEq h m _ p a b => some (specCmp h m p a b)
  | .cmpNe h m _ p a b => some (specCmp h m p a b)
  | .cmpLtI32 h m _ p a b => some (specCmp h m p a b)
  | .cmpLeI32 h m _ p a b => some (specCmp h m p a b)
  | .cmpGtI32 h m _ p a b => some (specCmp h m p a b)
  | .cmpGeI32 h m _ p a b => some (specCmp h m p a b)
  | .cmpLtN32 h m _ p a b => some (specCmp h m p a b)
  | .cmpLeN32 h m _ p a b => some (specCmp h m p a b)
  | .cmpGtN32 h m _ p a b => some (specCmp h m p a b)
  | .cmpGeN32 h m _ p a b => some (specCmp h m p a b)
  | .fcmpEq h m _ _ p a b => some (specCmp h m p a b)
  | .fcmpNe h m _ _ p a b => some (specCmp h m p a b)
  | .fcmpLt h m _ _ p a b => some (specCmp h m p a b)
  | .fcmpLe h m _ _ p a b => some (specCmp h m p a b)
  | .fcmpGt h m _ _ p a b => some (specCmp h m p a b)
  | .fcmpGe h m _ _ p a b => some (specCmp h m p a b)
  | .fcmpUn h m _ _ p a b => some (specCmp h m p a b)
  | .fcmpOrd h m _ _ p a b => some (specCmp h m p a b)
  | .vote h m d _ _ => some (specVote h m d)
  | .shfl h m d a _ => some (specShfl h m d a)
  | .push h d a b => some (specPush h d a b)
  | .bcast h m d a _ => some (specBcast h m d a)
  | .scan h m d a _ _ _ _ _ => some (specRed h m false d a 1)
  | .red h m d a _ _ raw sd _ _ => some (specRed h m sd d a (if raw then 3 else 1))
  | .elect h p a _ => some (specElect h p a)
  | .topk h d a p _ ks kv _ _ => some (specTopk h d a p ks kv)
  | .hist h d a b _ _ _ _ => some (specHist h d a b)
  | .rng h d a b x bsel n => some (specRng h d a b x bsel n)
  | .walk h d a _ _ _ _ _ _ => some (specRed h false false d a 1)
  | .join h d => some (specMask h [] [] [d.toNat] [] true)
  | .leave h d => some (specMask h [] [] [d.toNat] [] true)
  | .wait h _ => some (specMask h [] [] [] [] true)
  | .trywait h d _ => some (specMask h [] [] [] [d.toNat] true)
  | .mset h d a => some (specMask h [a.toNat] [] [d.toNat] [] false)
  | .mmov h d _ => some (specMask h [] [d.toNat] [] [] false)
  | .mand h d _ _ => some (specMask h [] [] [d.toNat] [] false)
  | .mor h d _ _ => some (specMask h [] [] [d.toNat] [] false)
  | .mxor h d _ _ => some (specMask h [] [] [d.toNat] [] false)
  | .mnot h d _ => some (specMask h [] [] [d.toNat] [] false)
  | .mpop h d _ => some (specMask h [] [d.toNat] [] [] false)
  | .ldN8 h mode d a b => some (specLd h 1 mode d a b)
  | .ldI8 h mode d a b => some (specLd h 1 mode d a b)
  | .ldN16 h mode d a b => some (specLd h 2 mode d a b)
  | .ldI16 h mode d a b => some (specLd h 2 mode d a b)
  | .ld32 h mode d a b => some (specLd h 4 mode d a b)
  | .ld64 h mode d a b => some (specLd h 8 mode d a b)
  | .ld128 h mode d a b => some (specLd h 16 mode d a b)
  | .ldfe32 h mode d a b => some (specLd h 4 mode d a b)
  | .ldfe64 h mode d a b => some (specLd h 8 mode d a b)
  | .ldfe128 h mode d a b => some (specLd h 16 mode d a b)
  | .ldfeClr32 h mode d a b => some (specLd h 4 mode d a b)
  | .ldfeClr64 h mode d a b => some (specLd h 8 mode d a b)
  | .ldfeClr128 h mode d a b => some (specLd h 16 mode d a b)
  | .st8 h mode d a b => some (specSt h 1 mode d a b)
  | .st16 h mode d a b => some (specSt h 2 mode d a b)
  | .st32 h mode d a b => some (specSt h 4 mode d a b)
  | .st64 h mode d a b => some (specSt h 8 mode d a b)
  | .st128 h mode d a b => some (specSt h 16 mode d a b)
  | .stfe32 h mode d a b => some (specSt h 4 mode d a b)
  | .stfe64 h mode d a b => some (specSt h 8 mode d a b)
  | .stfe128 h mode d a b => some (specSt h 16 mode d a b)
  | .atomAdd h _ d a b mode sr _ w rt bs => some (specAtom h d a b mode sr w rt bs true false false 0#6)
  | .atomMinI h _ d a b mode sr _ w rt bs => some (specAtom h d a b mode sr w rt bs true false false 0#6)
  | .atomMinN h _ d a b mode sr _ w rt bs => some (specAtom h d a b mode sr w rt bs true false false 0#6)
  | .atomMaxI h _ d a b mode sr _ w rt bs => some (specAtom h d a b mode sr w rt bs true false false 0#6)
  | .atomMaxN h _ d a b mode sr _ w rt bs => some (specAtom h d a b mode sr w rt bs true false false 0#6)
  | .atomAnd h _ d a b mode sr _ w rt bs => some (specAtom h d a b mode sr w rt bs true false false 0#6)
  | .atomOr h _ d a b mode sr _ w rt bs => some (specAtom h d a b mode sr w rt bs true false false 0#6)
  | .atomXor h _ d a b mode sr _ w rt bs => some (specAtom h d a b mode sr w rt bs true false false 0#6)
  | .atomXchg h _ d a b mode sr _ w rt bs => some (specAtom h d a b mode sr w rt bs true false false 0#6)
  | .atomCas h _ d a b mode sr _ w rt cr bs cs => some (specAtom h d a b mode sr w rt bs true true cs cr)
  | .atomInc h _ d a b mode sr _ w rt bs => some (specAtom h d a b mode sr w rt bs false false false 0#6)
  | .atomIncb h _ d a b mode sr _ w rt bs => some (specAtom h d a b mode sr w rt bs true false false 0#6)
  | .aadd h a b mode sr _ _ bs => some (specAtom h 0#6 a b mode sr false false bs true false false 0#6)
  | .ordend h => some (specOrdend h)
  | .lock h d a b => some (specLock h d a b)
  | .unlock h a b => some (specUnlock h a b)
  | .pref h m _ a b => some (specPref h m a b)
  | .fenceSys h => some (specBare h .m)
  | .fenceWin h => some (specBare h .m)
  | .waitc h _ _ _ _ => some (specBare h .m)
  | .acq h _ => some (specBare h .m)
  | .rel h _ => some (specBare h .m)
  | .mmaE2m1 h _ _ a b sa _ _ => some (mmaSpec h .e2m1 a b sa)
  | .mmaE4m3 h _ _ a b sa _ _ _ => some (mmaSpec h .e4m3 a b sa)
  | .mmaE5m2 h _ _ a b sa _ _ _ => some (mmaSpec h .e5m2 a b sa)
  | .mmaE3m2 h _ _ a b sa _ _ _ => some (mmaSpec h .e3m2 a b sa)
  | .mmaE2m3 h _ _ a b sa _ _ _ => some (mmaSpec h .e2m3 a b sa)
  | .mmaI8 h _ _ a b _ _ => some (mmaSpec h .i8 a b 0#6)
  | .mmaBf16 h _ _ a b _ _ => some (mmaSpec h .bf16 a b 0#6)
  | .mmaF16 h _ _ a b _ _ => some (mmaSpec h .f16 a b 0#6)
  | .acz h _ => some (specBand h [])
  | .acanch h _ _ _ => some (specBand h [])
  | .acanchScalar h _ b => some (specBand h [b.toNat])
  | .acvt h d _ b _ _ n noba _ => some (specAcvt h d b n noba)
  | .acld h _ b => some (specBand h [b.toNat])
  | .acst h _ b => some (specBand h [b.toNat])
  | .gang h _ a _ => some (specGang h a)
  | .tgset h d a b => some (specTgset h d a b)
  | .tgget h d a sel => some (specTgget h d a sel)
  | .wvf h _ d a _ _ _ _ => some (specWv h d a)
  | .wvi h _ d a => some (specWv h d a)
  | .stw h _ a b mode _ _ _ _ _ rw => some (specStw h a b mode rw)
  | .ldw h d b mode rw => some (specLdw h d b mode rw)
  | .wthr h d a _ => some (specWv h d a)
  | .board h d a b mr all => some (specBoard h d a b mr all)
  | .bwait h d a => some (specAsk h d a)
  | .btry h d a => some (specAsk h d a)
  | .bfree h a => some { h := h, pipe := .x, sr := [a.toNat] }
  | .lapr h d sel => some (specLapr h d sel)
  | .job h d _ b => some (specJob h d b)
  | .send h _ b => some (specSend h b)
  | .recv h d _ => some (specRecv h d)
  | .jstat h d a sel => some (specJstat h d a sel)
  | .seqld h d a _ => some (specSeqld h d a)
  | .seqst h d a _ => some (specSeqst h d a)
  | .admitSeq h d a => some (specAdmit h d a)
  | .retire h a b => some (specRetire h a b)
  | .retireMig h a b => some (specPairSt h a b)
  | .tokput h d a b => some (specTokput h d a b)
  | .accept h d a b => some (specAccept h d a b)
  | .draft h d a b => some (specDraft h d a b)
  | .stopck h d a b => some (specStopck h d a b)
  | .ckpt h a b => some (specPairSt h a b)
  | .pgref h d _ b => some (specPg h d b)
  | .pgcow h d _ b => some (specPg h d b)
  | .pgmove h d _ b => some (specPg h d b)
  | .pgpin h d _ b => some (specPg h d b)
  | .pghand h d _ b => some (specPg h d b)
  | .catld h d _ b => some (specCatld h d b)
  | .catst h d _ b => some (specCatst h d b)
  | .bar h d a p _ => some (specBar h d a p)
  | .barr h d a p _ => some (specBarr h d a p)
  | .barrRem h _ a => some (specBarrRem h a)
  | .barw h d a p _ => some (specBarw h d a p)
  | .bart h d a _ p _ => some (specBart h d a p)
  | .gbar h d => some (specGbar h d)
  | .phaseRd h d a p _ => some (specPhaseRd h d a p)
  | .phaseArr h d a p _ => some (specPhaseRd h d a p)
  | .phaseInit h d a p _ => some (specPhaseInit h d a p)
  | _ => none

end Sys2Proof.Machine
end

