-- ==== Sys2Proof/Machine/Fetch.lean ====
section
/-! DEFINITION. Fetching a packet, the checks of a chain, and its issue (R20 to R32, R85). -/
namespace Sys2Proof.Machine

noncomputable section

/-! ### Chains (R29 to R32, R41) -/

/-- The registers that a word writes, each once: kind and number. DESIGN CHOICE (log entry 49): p0 counts, though what is written to it is
discarded. -/
def writeKeys (w : WordSpec) : List (Nat × Nat) :=
  (w.vw.map (fun n => (0, n)) ++ w.sw.map (fun n => (1, n)) ++ w.pw.map (fun n => (2, n)) ++ w.mw.map (fun n => (3, n))
    ++ w.lw.map fun n => (4, n)).dedup

/-- The operand forms of a chain. -/
def chainSpecs (gs : List Got) : List WordSpec := gs.filterMap fun g => g.instr.bind specOf

/-- The registers that the word at a slot writes; of a cut word, those that its first word names (R37). -/
def Got.writes (g : Got) : List (Nat × Nat) :=
  match g.instr.bind specOf with
  | none => []
  | some w => match g.alt with
    | none => writeKeys w
    | some i => (writeKeys w).filter fun k => (specOf i).any fun v => (writeKeys v).contains k

/-- The registers that the words of a chain write. -/
def chainWrites (gs : List Got) : List (Nat × Nat) := gs.flatMap Got.writes

/-- The detail codes of the rules that a word breaks: those of its bits, and FUNC where it thresholds by a register with MODE 3 (R41,
R242). -/
def Got.codes (g : Group) (x : Got) : List Nat :=
  let mode := fun (n : BitVec 3) => if modeBad (g.wth.getD n.toNat 0) then [0x02] else []
  x.bad ++ match x.instr with
    | some (.wthr _ _ _ n) => mode n
    | some (.stw _ _ _ _ _ _ _ _ t n _) => if t then mode n else []
    | _ => []

/-- The detail codes that a chain's words and the chain itself raise (R31, R41, R242). -/
def chainViol (g : Group) (gs : List Got) : List Nat :=
  gs.flatMap (Got.codes g) ++ (if chainEnds gs then [] else [4])
    ++ (if ((chainSpecs gs).map WordSpec.pipe).Nodup then [] else [5])
    ++ (if (chainWrites gs).Nodup then [] else [6])

/-- The lanes that a chain's ILLEGAL marks (R24, R418): those that a word that breaks a rule would issue for, or any word where
only the chain breaks one; all at the PC where no lane issues. -/
def chainLanes (g : Group) (at_ : Lanes) (gs : List Got) : Lanes :=
  let own := gs.filter fun x => Got.codes g x ≠ []
  let ls := (if own = [] then gs else own).foldl (fun m x => m ||| g.pred x.guard.toNat) 0#32 &&& at_
  if ls = 0#32 then at_ else ls

/-! ### Fetch (R20, R22) -/

/-- The words of a packet of a group's code segment, through the translation of its core; X permission is needed. -/
def State.packet (s : State) (g : Group) (p : Nat) : State × Except (Nat × Nat × Nat) (List Word) :=
  let base := match s.kernels[g.kernel]? with | some k => k.h.code.toNat | none => 0
  match s.readVa (s.whoOf g) .gl (base + 12 * p) 12 .x with
  | (s, .error f) => (s, .error f)
  | (s, .ok bs) => (s, .ok [BitVec.ofNat 32 (ofBytes (bs.take 4)), BitVec.ofNat 32 (ofBytes ((bs.drop 4).take 4)),
      BitVec.ofNat 32 (ofBytes (bs.drop 8))])

/-- Lanes at a PC at which nothing can issue are faulted, each by itself: PCPOS (R22). -/
def State.pcFault (s : State) (gi : Nat) (pc : Word) : State :=
  let g := s.grp gi
  (s.defer gi (g.lanesAt pc) pc g.hm false cILLEGAL 0x0b fun _ => 0).settle gi false

/-- The runnable lanes whose PC names a packet; all in handler mode (R387). -/
def Group.lanesIn (g : Group) (p : Nat) : Lanes :=
  if g.hm then allLanes else g.inState .runnable &&& lanesWhere fun (l : Fin 32) => pkt g.lanes[l].pcv = p

/-- A packet whose fetch fails faults every lane whose PC names it, each at its own PC (R387). -/
def State.fetchFault (s : State) (gi : Nat) (pc : Word) (cause detail : Nat) (addr : Nat) : State :=
  let g := s.grp gi
  let at_ := fun (l : Fin 32) => if g.hm then pc else g.lanes[l].pcv
  let s := if g.hm then s.defer gi allLanes pc true false cause detail fun _ => BitVec.ofNat 64 addr
    else (lanesOf (g.lanesIn (pkt pc))).foldl (fun s (l : Fin 32) => s.defer gi (lane1 l) (at_ l) false false cause detail fun _ => BitVec.ofNat 64 addr) s
  s.settle gi false

/-! ### Issue -/

/-- The issue latch of a chain. -/
def State.latch (s : State) (gi : Nat) (pc : Word) (words len : Nat) : State :=
  let g := s.grp gi
  { s with iss := { gi := gi, pc := pc, next := pcAfter pc len, at_ := g.lanesAt pc, snap := g, advanced := false,
                    left := words, raised := none, hold := none, wait := none, fell := none, back := 0, locks := none } }

/-- The words of a chain in slot order. A fault or a hold in any of them cancels the whole chain (R32, R43). -/
def runChain (s0 : State) : List Instr → State → Out
  | [], s => .next s
  | i :: is, s =>
    match exec i s with
    | .next t =>
      match t.iss.raised, t.iss.hold with
      | some r, _ => .next (s0.precise r.1 r.2.1 r.2.2)
      | none, some k => .next (s0.holdIssue k)
      | none, none => runChain s0 is t
    | o => o

/-- The instruction or chain that starts at a slot of a fetched packet issues. -/
def State.issueAt (s : State) (gi : Nat) (pc : Word) (ws : List Word) : Out :=
  let gs := chainAt ws (slotOf pc)
  let s := s.latch gi pc gs.length (chainLen gs)
  match leastOf (chainViol s.iss.snap gs) with
  | some d => .next (s.precise cILLEGAL d (chainLanes s.iss.snap s.iss.at_ gs))
  | none =>
    match gs.filterMap Got.instr with
    | [i] => exec i s
    | is => runChain s is s

/-- The core of a group has chosen it: what `yield` did is over, and the group's wait for an issue begins again (R114, R439). -/
def State.choose (s : State) (gi : Nat) : State :=
  let core := (s.grp gi).core
  let s := { s with groups := s.groups.map fun (g : Group) => if g.core = core && g.yielded then { g with yielded := false } else g }
  s.onGrp gi fun g =>
    { (g.dropStale.takeKept s.clk).endReady with last := s.clk }

/-- A group issues at its issue PC (R85). A packet behind a port in training is fetched when the training has ended (R468). -/
def State.issue (s : State) (gi : Nat) : Out :=
  let s := s.choose gi
  let g := s.grp gi
  match g.issuePc with
  | none => .next s
  | some pc =>
    if g.cur.any fun t => t.resume.isSome && g.waitStands t then .next s
    else if !(slotOf pc < 3 && pkt pc < s.segment g) then .next (s.pcFault gi pc)
    else
      match s.packet g (pkt pc) with
      | (s, .error f) => .next (if f.1 = cHOLD then s else s.fetchFault gi pc f.1 f.2.1 f.2.2)
      | (s, .ok ws) =>
        if issuable ws (slotOf pc) then s.issueAt gi pc ws else .next (s.pcFault gi pc)

/-- A group can issue: it runs, it has a lane to issue for, no park is due at its PC, no event is awaited, and no TIMEOUT
comes first (R42, R87, R94, R442). -/
def State.canIssue (s : State) (gi : Nat) : Bool :=
  let g := s.grp gi
  (g.status = .running || g.status = .handler) &&
    match g.issuePc with
    | none => false
    | some pc =>
      !(g.parkReq && slotOf pc = 0) && !g.overdue s.clk 1 &&
        match g.cur with
        | some t => !(t.resume.isSome && g.waitStands t)
        | none => true

/-- A function has issued fewer chains on a core than its issue share of the last 65,536 (R439, R448). -/
def State.belowShare (s : State) (gi : Nat) : Bool :=
  let g := s.grp gi
  let fn := (s.ctx (s.ctxOf g)).d.fn
  let share := match s.fns[fn]? with | some f => f.ish | none => 0
  256 * (s.chainLog.filter fun x => x.1 = g.core && x.2 = fn).length < share * 65536

/-- What a core orders its groups by (R114, R439): a group that has yielded last, functions below their share first, then the one that
has waited longest. -/
def State.choiceKey (s : State) (gi : Nat) : Nat :=
  let g := s.grp gi
  ((if g.yielded then 2 else 0) + if s.belowShare gi then 0 else 1) * (s.clk + 1) + min g.last s.clk

/-- The first group of a list with the least key. -/
def leastBy (f : Nat → Nat) : List Nat → Option Nat
  | [] => none
  | x :: xs => match leastBy f xs with | some y => if f x ≤ f y then some x else some y | none => some x

/-- The group that issues next: the cores take turns, and a core chooses among its groups by R439. -/
def State.pick (s : State) : Option Nat :=
  let n := s.groups.length
  match ((List.range n).map fun i => (s.turn / 2 + i) % n).find? s.canIssue with
  | some gi => leastBy s.choiceKey ((List.range n).filter fun k => (s.grp k).core = (s.grp gi).core && s.canIssue k)
  | none => none

end

end Sys2Proof.Machine
end

