-- ==== Sys2Proof/Machine/Sched.lean ====
section
/-! DEFINITION. The event that the package comes to by itself where the outside world gives none (log entry 1): of every event that
needs no outside cause, the first that would change the state, the search beginning at a place that moves on with each step. -/
namespace Sys2Proof.Machine

noncomputable section

/-- Events of one group: waits that time or a release ends, accesses, completions. -/
def State.groupEvents (s : State) (gi : Nat) : List Instr :=
  let g := s.grp gi
  if g.status = .free then []
  else
    [.sleepWake gi, .fenceSysComplete gi, .tlbinvComplete gi, .ordAtomicApply gi, .barrierWaitComplete gi, .bartExpiry gi, .groupFree gi,
     .timeoutStarve gi, .timeoutAcq gi, .timeoutFewait gi, .timeoutRendez gi, .timeoutBoard gi, .timeoutBarwait gi]
    ++ g.ops.flatMap fun o =>
      if o.done then []
      else
        [.loadDataArrival gi o.id, .storeCompletion gi o.id, .tileOperationComplete gi o.id, .waveComplete gi o.id, .mboxSlotRead gi o.id]
        ++ (List.finRange 32).filterMap fun (l : Fin 32) => if o.todo.getLsbD l then some (.ldfeAccess gi o.id l) else none

/-- The step of a running job, by its operation (R292). -/
def jobEvent (j : Job) : Instr :=
  match cardOp j.card with
  | 0x00 => .jobMark j.uid | 0x01 => .jobCopy j.uid | 0x02 => .jobFill j.uid | 0x03 => .jobConv j.uid
  | 0x10 => .jobGather j.uid | 0x20 => .jobReduce j.uid | 0x21 => .jobAllgather j.uid | 0x22 => .jobBcast j.uid
  | 0x30 => .jobSuffix j.uid | 0x40 => .jobPgmoveCard j.uid | 0x41 => .jobPgcowCard j.uid | 0x42 => .jobPgrefCard j.uid
  | 0x43 => .jobPghandCard j.uid | _ => .jobGranuleAccess j.uid

/-- Events of one context: its queues, its records, its table, its window, the ends of a save and a restore. -/
def State.ctxEvents (s : State) (c : Nat) : List Instr :=
  let x := s.ctx c
  if x.st = .free then []
  else
    [.windowBoundary c, .faultRecordWrite c, .saveComplete c, .restoreComplete c]
    ++ ((List.range 32).flatMap fun q =>
      match (x.queue q).kind with
      | .launch => [.launchKernel c q, .launchRing c q, .launchGrant c q, .launchCancel c q, .launchNop c q, .launchBadentry c q]
      | .completion => [.deviceQueueEntryWrite c q]
      | .output => [.deviceQueueEntryWrite c q]
      | _ => [])
    ++ (List.range x.tt.length).map fun i => .timeTriggeredFiring c i

/-- Events of one kernel. -/
def kernelEvents (k : Nat) : List Instr :=
  [.kernelEndSequence k, .kernelCancelComplete k, .orderTokenPass k, .dieRangeTake 0 k, .dieRangeTake 1 k]

/-- Events of one team. -/
def teamEvents (t : Nat) : List Instr :=
  [.teamPark t, .tokenPark t, .gridBarrierPark t, .gangDissolve t] ++ (List.range 8).map fun k => .bandGrant t k

/-- Events of one core. -/
def coreEvents (n : Nat) : List Instr := [.acqGrant n, .jobSlotGrant n, .teamResume n, .teamPlacement n]

/-- The ring: the next beat, the boundary after the last, the governor once in 4,096 beats (R263, R273, R281). -/
def State.ringEvents (s : State) : List Instr :=
  [.ringBeat [], .lapBoundary []] ++ if 4096 ≤ s.ring.beats then [.governorEvaluation s.ring.held] else []

/-- Every event that needs no outside cause. -/
def State.ownEvents (s : State) : List Instr :=
  ((List.range s.groups.length).flatMap s.groupEvents)
    ++ ((List.range s.msgs.length).map Instr.mboxSlotWrite)
    ++ ((s.jobs.filter fun j => !j.ended).flatMap fun j => [.jobEdgeCheck j.uid, jobEvent j])
    ++ ((List.range s.copies.length).flatMap fun k => [.pageCopyComplete k, .pageInComplete k])
    ++ ((List.range s.teams.length).flatMap teamEvents)
    ++ ((List.range s.kernels.length).flatMap kernelEvents)
    ++ ((List.range s.ctxs.length).flatMap s.ctxEvents)
    ++ ((List.range s.fns.length).map Instr.functionResetComplete)
    ++ ((List.range 32).map Instr.enginePassStart)
    ++ ((List.range Config.clusters).flatMap fun n => [.boardGrant n, .boardingDeadline n])
    ++ ((List.range Config.cores).flatMap coreEvents)
    ++ s.ringEvents

/-- An event has an effect now. -/
def State.acts (s : State) (i : Instr) : Bool :=
  match exec i s with
  | .next t => decide (t ≠ s)
  | _ => false

/-- The event that happens next. -/
def State.nextEvent (s : State) : Option Instr :=
  let es := s.ownEvents
  (es.rotateLeft (s.turn % (es.length + 1))).find? s.acts

end

end Sys2Proof.Machine
end

