-- ==== Sys2Proof/Machine/Step.lean ====
section
/-! DEFINITION. The step function. A step is one instruction: the first of the agenda, which holds what the outside world does to
the package, else a chain of a group, else an event that the package comes to by itself (log entry 1). -/
namespace Sys2Proof.Machine

noncomputable section

/-- One step, before which outside agents may have written memory behind the host ports (R492). -/
def step (s : State) : Host.Outcome State Fault Refusal :=
  let s := s.outsideWrites
  match s.agenda with
  | i :: is => exec i { s.tick with agenda := is }
  | [] =>
    let t := s.tick
    let own := match t.nextEvent with | some i => exec i t | none => .next t
    match s.pick with
    | some gi => if s.turn % 2 = 0 then t.issue gi else own
    | none => own

/-- The state with an instruction placed where the next step fetches (log entry 3). -/
def State.withFetchWord (s : State) (nbits w : Nat) : State := s.loadPacket (w % 2 ^ nbits)

end

end Sys2Proof.Machine
end

