-- ==== Sys2Proof/Safety.lean ====
section
/-! DEFINITION. What a run must keep, and the terms that the claims are stated in: the canonical form of memory, and a state with
everything put away that the end of a chain may change whatever the chain's words were (the lanes' PCs and states, loop levels, the trap
that the group may take, counts of chains): what is left is what the words themselves changed. -/
namespace Sys2Proof.Machine

/-- The memories of a state are in canonical form. -/
def State.memWf (s : State) : Prop :=
  Memory.wf s.mem ∧ Memory.wf s.bb ∧ ∀ t ∈ s.teams, Memory.wf t.sp

/-! ### What words themselves change -/

/-- A lane without its PC, its state and its wait position (R84, R85, R102). -/
def Lane.still (x : Lane) : Lane := { x with pcv := 0, st := .runnable, wt := 0 }

/-- A group without its lanes' sequencing, its loop levels, and what taking a trap, waiting, starving and ending change: status, handler
PC, group fault, the pending TIMEOUT, the stalls, the park request, the counts of `perf` (R85, R94, R102, R111, R420, R424). -/
def Group.still (g : Group) : Group :=
  { g with
    lanes := g.lanes.map Lane.still, lc := Vector.replicate 3 0, levels := [], status := .free, parkReq := false, hpc := 0, gfc := 0,
    starve := 0, stall := none, hstall := none, tokenDone := false, due := none, seen := [], kept := [],
    hmarks := [], fellAt := none, perf := Vector.replicate 6 0 }

/-- A team without its scheduling state and its count of chains (R325, R439). -/
def Team.still (t : Team) : Team := { t with st := .resident, quant := 0 }

/-- A kernel without its grid barrier's counts, which move when a group ends (R314). -/
def Kernel.still (k : Kernel) : Kernel := { k with barGen := 0, arrived := [] }

/-- A context without its records, to which a trap on the system path adds one (R428). -/
def Ctx.still (c : Ctx) : Ctx := { c with recs := [] }

/-- A state with everything put away that the end of a chain may change whatever its words were. -/
def State.still (s : State) : State :=
  { s with
    groups := s.groups.map Group.still, teams := s.teams.map Team.still, kernels := s.kernels.map Kernel.still,
    ctxs := s.ctxs.map Ctx.still, chainLog := [], iss := Issue.idle }

end Sys2Proof.Machine

namespace Sys2Proof.Claims
open Sys2Proof.Machine

/-- The checks of a word let it through: its registers are held and none is pending, its counter is below 63, no ordered atomic and no
matrix operation of the group holds it back, and the mode of the group admits it (R40, R43, R45, R190, R220, R424). -/
def Clear (w : WordSpec) (s : State) : Prop := stopped w (wctx w.h s) = none

/-- The lanes that a word issues for (R24, R26). -/
def lanes (w : WordSpec) (s : State) : Lanes := (wctx w.h s).lanes

/-- The state that a word leaves, with the region that a side-effecting word opens (R115). -/
def opened (w : WordSpec) (s e : State) : State := if w.side then e.region (wctx w.h s) (newFaults s.iss.gi s e) else e

/-- A word that is let through completes. Where no lane issues its lanes only advance; else it leaves `e`, and where it is
side-effecting a new region is open. Nothing else is changed, but for the sequencing that `State.still` puts away. -/
def Does (i : Instr) (w : WordSpec) (s e : State) : Prop :=
  Clear w s → ∃ t, exec i s = .next t ∧ t.still = (if lanes w s = 0#32 then s.advance else opened w s e).still

/-- As `Does`, for a word that moves or ends lanes: the chain ends on exactly the state `e`. -/
def Moves (i : Instr) (w : WordSpec) (s e : State) : Prop :=
  Clear w s → lanes w s ≠ 0#32 → exec i s = .next e.finish

/-- A word that is let through and faults its issuing lanes at its own PC (R418). -/
def Raises (i : Instr) (w : WordSpec) (s : State) (cause detail : Nat) : Prop :=
  Clear w s → lanes w s ≠ 0#32 → exec i s = .next (s.precise cause detail (lanes w s))

/-- A word that breaks a rule of the state it is in, ILLEGAL, whatever else stops it: its issuing lanes are faulted at its own PC, and where
no lane issues the lanes that stand there (R24, R41, R418). -/
def Unlawful (i : Instr) (w : WordSpec) (s : State) (detail : Nat) : Prop :=
  exec i s = .next (s.precise cILLEGAL detail (if lanes w s = 0#32 then s.iss.at_ else lanes w s))

/-- A word that is let through and whose issue is held for an event (R42). -/
def Holds (i : Instr) (w : WordSpec) (s : State) (k : StallKind) : Prop :=
  Clear w s → lanes w s ≠ 0#32 → exec i s = .next (s.holdIssue k)

/-- A word that is let through, for lanes, ends as `r` says: with its effect, with a precise fault, held, or waiting with its effect
made. Where no lane issues its lanes only advance. -/
def Ends (i : Instr) (w : WordSpec) (s : State) (r : Res) : Prop :=
  Clear w s → ∃ t, exec i s = .next t ∧
    if lanes w s = 0#32 then t.still = s.advance.still
    else match r with
      | .ok e => t.still = (opened w s e).still
      | .raise cause detail => t = s.precise cause detail (lanes w s)
      | .hold k => t = s.holdIssue k
      | .wait k e => t = ({ opened w s e with iss := { (opened w s e).iss with wait := some (k, lanes w s) } }).finish

/-- The group that issues, changed after its lanes have advanced. -/
def group (s : State) (f : Group → Group) : State := s.advance.onGrp s.iss.gi f

/-- A word that writes its issuing lanes of vector register `d` and tags it spatial; a write that would leave lanes of a Haar register
as they were is DOMAIN 2 (R122, R124). -/
def PutsLanes (i : Instr) (w : WordSpec) (s : State) (d : BitVec 6) (f : Fin 32 → Word) : Prop :=
  (partialHaar (wctx w.h s) [d.toNat] = false → Does i w s (group s fun g => g.putV d.toNat (lanes w s) f))
    ∧ (partialHaar (wctx w.h s) [d.toNat] = true → Raises i w s cDOMAIN 2)

/-- As `PutsLanes`, for a pair, the low word in the even register (R60). -/
def PutsPair (i : Instr) (w : WordSpec) (s : State) (d : BitVec 6) (f : Fin 32 → Dword) : Prop :=
  (partialHaar (wctx w.h s) [d.toNat, d.toNat + 1] = false → Does i w s (group s fun g =>
      (g.putV d.toNat (lanes w s) fun l => lowW (f l)).putV (d.toNat + 1) (lanes w s) fun l => highW (f l)))
    ∧ (partialHaar (wctx w.h s) [d.toNat, d.toNat + 1] = true → Raises i w s cDOMAIN 2)

/-- A word that writes one scalar register, once for the group (R24). -/
def PutsS (i : Instr) (w : WordSpec) (s : State) (d : BitVec 6) (x : Word) : Prop := Does i w s (group s fun g => g.setS d.toNat x)

/-- A word that writes a scalar pair. -/
def PutsSpair (i : Instr) (w : WordSpec) (s : State) (d : BitVec 6) (x : Dword) : Prop :=
  Does i w s (group s fun g => g.setSpair d.toNat x)

end Sys2Proof.Claims
end

