-- ==== Sys2Proof/Certificates/Slice0/Obligations.lean ====
section
/-! DEFINITION. The statements for the provers. The claims of one shape share the terms of `Sys2Proof.Claims`: `Does` says that a word
completes, what it leaves, and that it leaves nothing else, up to what the end of any chain changes (`State.still` of Safety.lean). -/
namespace Sys2Proof.Claims
open Sys2Proof.Machine

noncomputable section

/-! ### Integer words -/

abbrev Vec2 := Hdr → Bool → BitVec 6 → BitVec 6 → BitVec 6 → Instr
abbrev Vec1 := Hdr → Bool → BitVec 6 → BitVec 6 → Instr
abbrev Sca2 := Hdr → BitVec 6 → BitVec 6 → BitVec 6 → Instr
abbrev Sca1 := Hdr → BitVec 6 → BitVec 6 → Instr

/-- The words of IALU with two sources, by function (R126, R127). -/
def ialu2 : List (BinFn × Vec2) :=
  [(.add, .ialuAdd), (.sub, .ialuSub), (.mul, .ialuMul), (.mulhiN, .ialuMulhiN32), (.mulhiI, .ialuMulhiI32),
   (.divN, .ialuDivN32), (.divI, .ialuDivI32), (.remN, .ialuRemN32), (.remI, .ialuRemI32), (.minN, .ialuMinN32),
   (.minI, .ialuMinI32), (.maxN, .ialuMaxN32), (.maxI, .ialuMaxI32), (.and, .ialuAnd), (.or, .ialuOr), (.xor, .ialuXor),
   (.shl, .ialuShl), (.shr, .ialuShr), (.sra, .ialuSra), (.rot, .ialuRot)]

/-- The words of IALUI with a source and an immediate (R129). -/
def ialui : List (BinFn × Vec2) :=
  [(.add, .ialuiAdd), (.sub, .ialuiSub), (.mul, .ialuiMul), (.minN, .ialuiMinN32), (.minI, .ialuiMinI32), (.maxN, .ialuiMaxN32),
   (.maxI, .ialuiMaxI32), (.and, .ialuiAnd), (.or, .ialuiOr), (.xor, .ialuiXor), (.shl, .ialuiShl), (.shr, .ialuiShr),
   (.sra, .ialuiSra), (.rot, .ialuiRot)]

/-- The words of IALU with one source (R128). -/
def ialu1 : List (UnFn × Vec1) :=
  [(.abs, .ialuAbs), (.neg, .ialuNeg), (.not, .ialuNot), (.clz, .ialuClz), (.popc, .ialuPopc), (.brev, .ialuBrev)]

/-- The words of SALU with two sources (R132). -/
def salu2 : List (BinFn × Sca2) :=
  [(.add, .saluAdd), (.sub, .saluSub), (.mul, .saluMul), (.mulhiN, .saluMulhiN32), (.mulhiI, .saluMulhiI32),
   (.divN, .saluDivN32), (.divI, .saluDivI32), (.remN, .saluRemN32), (.remI, .saluRemI32), (.minN, .saluMinN32),
   (.minI, .saluMinI32), (.maxN, .saluMaxN32), (.maxI, .saluMaxI32), (.and, .saluAnd), (.or, .saluOr), (.xor, .saluXor),
   (.shl, .saluShl), (.shr, .saluShr), (.sra, .saluSra), (.rot, .saluRot)]

/-- The words of SALUI with a source and an immediate (R129, R132). -/
def salui : List (BinFn × (Hdr → Bool → BitVec 6 → BitVec 6 → BitVec 6 → Instr)) :=
  [(.add, .saluiAdd), (.sub, .saluiSub), (.mul, .saluiMul), (.minN, .saluiMinN32), (.minI, .saluiMinI32), (.maxN, .saluiMaxN32),
   (.maxI, .saluiMaxI32), (.and, .saluiAnd), (.or, .saluiOr), (.xor, .saluiXor), (.shl, .saluiShl), (.shr, .saluiShr),
   (.sra, .saluiSra), (.rot, .saluiRot)]

/-- The words of SALU with one source (R132). -/
def salu1 : List (UnFn × Sca1) :=
  [(.abs, .saluAbs), (.neg, .saluNeg), (.not, .saluNot), (.clz, .saluClz), (.popc, .saluPopc), (.brev, .saluBrev), (.mov, .saluMov)]

/-! ### Float words -/

/-- The words of FALU with two sources (R136). -/
def falu2s : List (FFn × Vec2) :=
  [(.add, .fadd), (.sub, .fsub), (.mul, .fmul), (.min, .fmin), (.max, .fmax), (.scl, .fscl)]

/-- The words of FALU with one source and no rounding mode (R136). -/
def falu1s : List (FFn × Vec1) := [(.neg, .fneg), (.abs, .fabs), (.cls, .fclass)]

/-- The special functions (R139). -/
def sfus : List (SfuFn × Vec1) :=
  [(.exp2, .fexp2), (.log2, .flog2), (.rcp, .frcp), (.rsq, .frsq), (.sqrt, .fsqrt), (.sin, .fsin), (.cos, .fcos), (.tanh, .ftanh),
   (.erf, .ferf)]

abbrev Cmp := Hdr → Bool → Bool → BitVec 2 → BitVec 6 → BitVec 6 → Instr
abbrev Fcmp := Hdr → Bool → Bool → Bool → BitVec 2 → BitVec 6 → BitVec 6 → Instr

/-- The integer compares (R134). -/
def icmps : List (ICond × Cmp) :=
  [(.eq, .cmpEq), (.ne, .cmpNe), (.ltI, .cmpLtI32), (.leI, .cmpLeI32), (.gtI, .cmpGtI32), (.geI, .cmpGeI32), (.ltN, .cmpLtN32),
   (.leN, .cmpLeN32), (.gtN, .cmpGtN32), (.geN, .cmpGeN32)]

/-- The float compares (R135). -/
def fcmps : List (FCond × Fcmp) :=
  [(.eq, .fcmpEq), (.ne, .fcmpNe), (.lt, .fcmpLt), (.le, .fcmpLe), (.gt, .fcmpGt), (.ge, .fcmpGe), (.un, .fcmpUn), (.ord, .fcmpOrd)]

/-- A word of a FALU function works lane by lane on reconstructed sources (R121, R122): every word whose function has no linear form or of
which not every lane issues, a product of two vector registers, and a word on spatial sources. `uni` says that b is lane-uniform. -/
def lanewise (c : Wctx) (k : FFn) (uni : Bool) (a b : BitVec 6) : Prop :=
  k = .min ∨ k = .max ∨ k = .abs ∨ k = .cls ∨ k = .rnd ∨ c.lanes ≠ allLanes ∨ ((k = .mul ∨ k = .scl) ∧ uni = false)
    ∨ ((c.snap.tag a.toNat).haar = false ∧ (uni = true ∨ k = .neg ∨ (c.snap.tag b.toNat).haar = false))

/-- A float result written to the lanes of a spatial register with its flags, or the check of R124 (R66, R426). -/
def PutsFloat (i : Instr) (w : WordSpec) (s : State) (q : Bool) (d : BitVec 6) (f : Fin 32 → Word × BitVec 5) : Prop :=
  (partialHaar (wctx w.h s) [d.toNat] = false → Does i w s (putFlt (wctx w.h s) s.advance q d.toNat Tag.spatial f))
    ∧ (partialHaar (wctx w.h s) [d.toNat] = true → Raises i w s cDOMAIN 2)

/-! ### Memory words -/

abbrev Mem := Hdr → BitVec 2 → BitVec 6 → BitVec 6 → BitVec 6 → Instr

/-- The loads: bytes, sign extension, full-empty, emptying (R162, R167). -/
def loads : List (Nat × Bool × Bool × Bool × Mem) :=
  [(1, false, false, false, .ldN8), (1, true, false, false, .ldI8), (2, false, false, false, .ldN16), (2, true, false, false, .ldI16),
   (4, false, false, false, .ld32), (8, false, false, false, .ld64), (16, false, false, false, .ld128), (4, false, true, false, .ldfe32),
   (8, false, true, false, .ldfe64), (16, false, true, false, .ldfe128), (4, false, true, true, .ldfeClr32),
   (8, false, true, true, .ldfeClr64), (16, false, true, true, .ldfeClr128)]

/-- The stores: bytes, whether they fill the granule (R163, R169). -/
def stores : List (Nat × Bool × Mem) :=
  [(1, false, .st8), (2, false, .st16), (4, false, .st32), (8, false, .st64), (16, false, .st128), (4, true, .stfe32), (8, true, .stfe64),
   (16, true, .stfe128)]

abbrev Atom := Hdr → Bool → BitVec 6 → BitVec 6 → BitVec 6 → BitVec 2 → BitVec 6 → BitVec 2 → Bool → Bool → Bool → Instr

/-- The atomics but for `atom.cas`, which has one operand more (R172). -/
def atoms : List (AtomFn × Atom) :=
  [(.add, .atomAdd), (.minI, .atomMinI), (.minN, .atomMinN), (.maxI, .atomMaxI), (.maxN, .atomMaxN), (.and, .atomAnd), (.or, .atomOr),
   (.xor, .atomXor), (.xchg, .atomXchg), (.inc, .atomInc), (.incb, .atomIncb)]

/-- A byte of a team's scratchpad. -/
def spByte (s : State) (t off : Nat) : Byte := match s.teams[t]? with | some x => Memory.byte x.sp off | none => 0

/-- No two bytes of memory are kept in one place: no ranges of a decoder table overlap behind their port (R454). -/
def PlacesApart (s : State) : Prop := ∀ p q, s.place p = s.place q → p = q

/-- The lines of the L2 are distinct and hold 128 bytes each, a clean one what memory holds under the key pair of its slot, and no two bytes
share a place (R157, R384, R454). -/
def SoundLines (s : State) : Prop :=
  (s.l2.map L2Line.line).Nodup ∧ PlacesApart s ∧ ∀ x ∈ s.l2, x.data.length = 128
    ∧ (x.dirty = false → x.data = s.memLine x.line (s.memKey x.line) ∧ (behindPort (x.line * 128) = true ∨ s.memKey x.line = s.keyOf x.key))

/-- The key pair that the bytes of a line stand under (R384): of its slot in the L2, or the one that memory holds it under. -/
def lineKey (s : State) (line : Nat) : List Byte :=
  match s.l2.find? fun x => x.line = line with
  | some x => s.keyOf x.key
  | none => s.memKey line

/-- A byte of memory as an access under the key pair of its line sees it (R384). -/
def plainByte (s : State) (pa : Nat) : Byte := s.byteAt pa (lineKey s (pa / 128))

/-- The lines of a range stand under a key pair, or behind a host port, where nothing is enciphered (R384). -/
def UnderKey (s : State) (key : List Byte) (pa n : Nat) : Prop := ∀ i, i < n → behindPort (pa + i) = true ∨ lineKey s ((pa + i) / 128) = key

/-- The address of every issuing lane passes the checks of R159 at a place of global memory, whose lines stand under the key pair of its page,
and the core's TLB holds its translation (the check changes no state). -/
def Lands (s : State) (r : Req) (ls : Lanes) (addr : PerLane Dword) : Prop :=
  ∀ l : Fin 32, ls.getLsbD l = true → ∃ q y,
    s.locate (s.whoOf (s.grp s.iss.gi)) r addr[l] = (s, .ok (.gl q y)) ∧ UnderKey s (s.keyOf y.key) q r.bytes

/-- A byte of memory lies in the access of an issuing lane. -/
def Hit (s : State) (r : Req) (ls : Lanes) (addr : PerLane Dword) (pa : Nat) : Prop :=
  ∃ (l : Fin 32) (q : Nat) (y : Xlat), ls.getLsbD l = true ∧
    s.locate (s.whoOf (s.grp s.iss.gi)) r addr[l] = (s, .ok (.gl q y)) ∧ q ≤ pa ∧ pa < q + r.bytes

/-- The operations of the group that issues are numbered, and none of them is an ordered atomic with lanes to apply. -/
def Numbered (s : State) : Prop :=
  ∀ o ∈ (s.grp s.iss.gi).ops, o.id < (s.grp s.iss.gi).nextOp ∧ (o.kind.ordered = true → o.todo = 0#32)

/-- The group that issues stands as it did when its chain began, with nothing outstanding. -/
def Quiet (s : State) : Prop := s.grp s.iss.gi = s.iss.snap ∧ s.iss.snap.ops = [] ∧ s.iss.gi < s.groups.length

/-- The slots of a stored run, `len` bytes of each (R249). -/
def readSlots (s : State) (u : Who) (sp : Space) (base z : Nat) (len : Nat → Nat) (n : Nat) : State × List (List Byte) :=
  (List.range n).foldl (fun r i =>
    match r.1.readVa u sp (base + i * z) (len i) .r with
    | (s, .ok bs) => (s, r.2 ++ [bs])
    | (s, .error _) => (s, r.2 ++ [[]])) (s, [])

/-- What an atomic starts (R171, R172, R174). -/
def atomOp (f : AtomFn) (c : Wctx) (h : Hdr) (ord : Bool) (d a b : BitVec 6) (mode : BitVec 2) (sr : BitVec 6) (scope : BitVec 2)
    (w rt : Bool) (cr : BitVec 6) (bs cs : Bool) : OpKind :=
  .atom f (if w then 8 else 4) (spaceOf mode) (scope = 3#2) ord rt d.toNat (addrOf c h mode a sr)
    (if f = .inc then Vector.replicate 32 0 else atomArg c w bs b) (if f = .cas then atomArg c w cs cr else Vector.replicate 32 0)

/-- The registers that an atomic writes. -/
def atomRun (w rt : Bool) (d : BitVec 6) : List Nat := if rt then (if w then pairOf d else [d.toNat]) else []

/-- The matrix words, with the scale operands that the plain formats do not have (R213). -/
def mmas : List (MmaFmt × (Hdr → Bool → BitVec 3 → BitVec 6 → BitVec 6 → BitVec 6 → BitVec 2 → Bool → Bool → Instr)) :=
  [(.e2m1, fun h m acc a b sa _ bsp clr => .mmaE2m1 h m acc a b sa bsp clr), (.e4m3, .mmaE4m3), (.e5m2, .mmaE5m2), (.e3m2, .mmaE3m2),
   (.e2m3, .mmaE2m3), (.i8, fun h m acc a b _ _ bsp clr => .mmaI8 h m acc a b bsp clr),
   (.bf16, fun h m acc a b _ _ bsp clr => .mmaBf16 h m acc a b bsp clr), (.f16, fun h m acc a b _ _ bsp clr => .mmaF16 h m acc a b bsp clr)]

/-- The page words, by the operation that they submit (R400). -/
def pages : List (Nat × (Hdr → BitVec 6 → BitVec 6 → BitVec 6 → Instr)) :=
  [(0x42, .pgref), (0x41, .pgcow), (0x40, .pgmove), (0x44, .pgpin), (0x43, .pghand)]

/-- The words that write global memory, with the access of each lane and its address (R163, R172, R176). -/
def writers (c : Wctx) (h : Hdr) (m : Bool) (d a b : BitVec 6) (mode : BitVec 2) (sr : BitVec 6) (scope : BitVec 2) (w rt : Bool)
    (cr : BitVec 6) (bs cs : Bool) : List (Instr × Req × PerLane Dword) :=
  (stores.map fun x => (x.2.2 h mode d a b, { space := .gl, bytes := x.1, acc := .w }, addrOf c h mode a b))
    ++ (atoms.map fun x => (x.2 h m d a b mode sr scope w rt bs,
      { space := .gl, bytes := if w then 8 else 4, acc := .a, noPort := scope = 3#2 && !x.1.portable }, addrOf c h mode a sr))
    ++ [(.atomCas h m d a b mode sr scope w rt cr bs cs, { space := .gl, bytes := if w then 8 else 4, acc := .a }, addrOf c h mode a sr),
      (.aadd h a b mode sr scope w bs, { space := .gl, bytes := 16, acc := .a, noPort := scope = 3#2 }, addrOf c h mode a sr)]

/-! ### Control registers -/

/-- The per-lane control registers, by number, with what a `csrr` gives (R91, R421). -/
def laneRegs : List (Nat × (Lane → Word)) :=
  [(0x010, fun x => match x.newPc with | some p => p | none => x.pcv), (0x011, Lane.lst), (0x012, Lane.rpc), (0x017, Lane.xf),
   (0x032, Lane.fcs), (0x033, fun x => lowW x.fad), (0x034, fun x => highW x.fad), (0x035, Lane.frgn)]

/-- The group's control registers, by number, with what a `csrr` gives (R67, R91, R178, R210, R226, R241, R421). -/
def groupRegs (s : State) (g : Group) : List (Nat × Word) :=
  [(0x013, g.rgn), (0x014, g.held.setWidth 32), (0x015, g.wdog), (0x016, if g.hm then 1 else 0), (0x030, g.htv), (0x031, g.hcm),
   (0x036, g.gfc), (0x040, g.nmode), (0x041, g.cvc), (0x042, g.cvth), (0x043, g.dph), (0x044, g.xen),
   (0x050, BitVec.ofNat 32 ((s.iss.locks.getD (s.locksOf (s.ctxOf g)).length) % 65536 * 65536 + (s.ctx (s.ctxOf g)).d.lkq % 65536)), (0x060, g.gng),
   (0x061, match s.islands[islandOf g.core]? with
      | some i => BitVec.ofNat 32 (i.rate % 65536 * 65536 + min i.level 65535) | none => 0), (0x078, g.wctl)]
    ++ ((List.range 3).map fun i => (0x018 + i, g.lreg i)) ++ ((List.range 12).map fun i => (0x020 + i, g.mreg i))
    ++ ((List.range 4).map fun i => (0x038 + i, g.hs.getD i 0)) ++ (List.range 8).map fun i => (0x070 + i, g.wth.getD i 0)

/-- The per-lane control registers that are written, by number, with what a `csrw` leaves of a lane (R91, R421). -/
def laneWrites : List (Nat × (Lane → Word → Lane)) :=
  [(0x010, fun x v => { x with newPc := some v }), (0x011, fun x v => x.putSt (v.extractLsb' 0 2)), (0x012, fun x v => { x with rpc := v }),
   (0x017, fun x v => { x with xf := v &&& 0xff#32 }), (0x032, fun x v => { x with fcs := v &&& 0x1ffff#32 }),
   (0x033, fun x v => { x with fad := pair v (highW x.fad) }), (0x034, fun x v => { x with fad := pair (lowW x.fad) v }),
   (0x035, fun x v => { x with frgn := v })]

/-- The bits of a threshold register that hold a value: a count in mode 2, else a value (R241). -/
def wthBits (v : Word) : Word := if v.extractLsb' 30 2 = 2#2 then v &&& 0xc000003f#32 else v &&& 0xc000ffff#32

/-- The group's control registers that are written, by number, with what a `csrw` leaves of the group (R67, R91, R241, R421). -/
def groupWrites : List (Nat × (Group → Word → Group)) :=
  [(0x013, fun g v => { g with rgn := v }), (0x015, fun g v => { g with wdog := v }), (0x030, fun g v => { g with htv := v &&& ~~~2#32 }),
   (0x031, fun g v => { g with hcm := v &&& 0x2bf2f#32 }), (0x040, fun g v => { g with nmode := v &&& 1#32 }),
   (0x041, fun g v => { g with cvc := v &&& 0x3fffffff#32 }), (0x042, fun g v => { g with cvth := v &&& 0x7ff#32 }),
   (0x043, fun g v => { g with dph := v &&& 7#32 }), (0x044, fun g v => { g with xen := v &&& 0x1f#32 }),
   (0x078, fun g v => { g with wctl := v &&& 1#32 })]
    ++ ((List.range 3).map fun i => (0x018 + i, fun g v => g.setL i v)) ++ ((List.range 12).map fun i => (0x020 + i, fun g v => g.setM i v))
    ++ ((List.range 4).map fun i => (0x038 + i, fun g v => { g with hs := g.hs.setIfInBounds i v }))
    ++ (List.range 8).map fun i => (0x070 + i, fun g v => { g with wth := g.wth.setIfInBounds i (wthBits v) })
/-! ### Jobs -/

/-- The jobs' own steps, by the operation of the card (R292, R372, R400, R409). -/
def jobSteps (uid : Nat) : List (Nat × Instr × (State → Job → State)) :=
  [(0x00, .jobMark uid, stepMark), (0x01, .jobCopy uid, stepCopy), (0x02, .jobFill uid, stepFill), (0x03, .jobConv uid, stepConv),
   (0x10, .jobGather uid, stepGather), (0x20, .jobReduce uid, stepReduce), (0x21, .jobAllgather uid, stepAllgather),
   (0x22, .jobBcast uid, stepBcast), (0x30, .jobSuffix uid, stepSuffix), (0x40, .jobPgmoveCard uid, fun s j => s.pageStep j.uid),
   (0x41, .jobPgcowCard uid, fun s j => s.pageStep j.uid), (0x42, .jobPgrefCard uid, fun s j => s.pageStep j.uid),
   (0x43, .jobPghandCard uid, fun s j => s.pageStep j.uid)]

/-- The place of the next granule of a job's write region, where nothing fails or holds the write (R159, R160, R468). -/
def WritePlace (s s1 : State) (j : Job) (loc : Loc) : Prop :=
  let w := regionAt j.wr 0
  let a := w.base + 16 * j.at_
  a % 16 = 0 ∧ s.vaHeld (jobWho j w.sp) (spaceIf w.sp) a 16 = false
    ∧ s.locate (jobWho j w.sp) { space := spaceIf w.sp, bytes := 16, acc := .w } (BitVec.ofNat 64 a) = (s1, .ok loc)
    ∧ s1.heldFault (jobWho j w.sp) loc 16 = none

/-- What a job's step that writes a granule leaves (R195, R294): the bytes at the place, which is full; the job counts the granule and goes on
with the next, or is done with the last of `total`. -/
def WritesGranule (i : Instr) (s s1 : State) (j : Job) (loc : Loc) (bs : List Byte) (total : Nat) : Prop :=
  let v := ((s1.writeLoc loc bs).setFe loc true).onJob j.uid fun x => { x with granules := x.granules + 1, at_ := x.at_ + 1 }
  exec i s = .next (if total ≤ j.at_ + 1 then v.jobEnd j.uid 0 else v)
    ∧ (j.team < s.teams.length → PlacesApart s → (∀ x ∈ s.l2, x.data.length = 128) → (v.readLoc loc 16).2 = bs ∧ v.feAt loc = true)

/-- A job's step that writes the next granule of elements of `w` bits, all of which fit (R292, R293): element k of the granule is `elem k`,
and the counts of the elements are added. -/
def WritesElems (i : Instr) (s : State) (j : Job) (w total : Nat) (elem : Nat → Conv) : Prop :=
  ∀ (cnt : Word) (s1 : State) (loc : Loc), let n := 128 / w
    let es := (List.range n).map fun k => elem (n * j.at_ + k)
    let s0 := s.onJob j.uid fun x => { x with counts := cnt }
    w ∈ [4, 8, 16, 32] → n * (j.at_ + 1) ≤ total →
    countElems (fld (cardCth j.card) 10 10 = 1) (fld (cardCth j.card) 9 0) j.counts es = (cnt, es, false) →
    WritePlace s0 s1 j loc →
    WritesGranule i s (s1.readLoc loc 16).1 j loc (toBytes 16 (es.foldr (fun x acc => x.code % 2 ^ w + acc * 2 ^ w) 0))
      ((regionAt j.wr 0).len / 16)
/-! ### Decoding and issue -/

/-- Instructions whose words the spec writes out, as its assembly reads (R38, R54, R109, R116, R133, R138, R142, R170, R190, R281,
R298, R315, the worked programs): the words in packet order, the first at the lowest address. -/
def workedControl : List (List Word × Instr) :=
  let h : Hdr := ⟨false, 0#2, none⟩
  let g1 : Hdr := ⟨false, 1#2, none⟩
  [([0x04000000], .nop h), ([0x05140007], .trap g1 7#12), ([0x04180000], .eret h), ([0x000c0080], .tlbinvPage h 2#6),
   ([0x000a8030], .csrw h 40#6 0#6 0x30#6), ([0x00058011], .csrr h 24#6 0#6 0x11#6), ([0x09000002], .bra g1 2#18),
   ([0x10800308], .loop h 0#2 3#8 8#8), ([0x40000000], .join h 0#6), ([0x40080000], .wait h 0#6), ([0x401011c0], .mset h 1#6 7#6)]

def workedArithmetic : List (List Word × Instr) :=
  let h : Hdr := ⟨false, 0#2, none⟩
  let g1 : Hdr := ⟨false, 1#2, none⟩
  let ch : Hdr := ⟨true, 0#2, none⟩
  [([0x180440c2], .ialuSub h false 4#6 3#6 2#6), ([0x18947083, 0x24000000], .ialuMad h true 7#6 2#6 3#6 9#6 false),
   ([0x18552245], .ialuBrev h false 18#6 9#6), ([0x18599640, 0x01000000], .ialuBfxN32 h false 25#6 25#6 0#5 8#6),
   ([0x1d718003], .ialuiLi g1 false 24#6 3#12), ([0xa4009241], .saluiAdd ch false 9#6 9#6 1#6),
   ([0xa8005187], .fadd ch false 5#6 6#6 7#6), ([0x28088189], .fmul h false 8#6 6#6 9#6),
   ([0x2c003105, 0x18000000], .ffma h false 3#6 4#6 5#6 6#6 0#2 false false 0#2 false false),
   ([0x30019600], .fexp2 h false 25#6 24#6), ([0x34054200, 0x55000000], .qnt h false 20#6 8#6 21#6 1#2 0#3 0#2 false),
   ([0x38081083], .cmpLtI32 h false false 1#2 2#6 3#6), ([0x3c01407f], .vote h false 20#6 1#2 63#6),
   ([0x3c94a1c0, 0x57f10200], .red h true 10#6 7#6 0x0a#5 0x1fc#9 false true false 2#6)]

def workedMemory : List (List Word × Instr) :=
  let h : Hdr := ⟨false, 0#2, none⟩
  let g1 : Hdr := ⟨false, 1#2, none⟩
  [([0x14000300, 0x44014548], .ldN8 ⟨false, 0#2, some 0x300#26⟩ 0#2 20#6 21#6 8#6), ([0x48106044], .st32 h 0#2 6#6 1#6 4#6),
   ([0x48606048], .stfe32 h 1#2 6#6 1#6 8#6), ([0x44709048], .ldfeClr32 h 1#2 9#6 1#6 8#6),
   ([0x4dac61c9, 0x48102000], .atomIncb g1 true 6#6 7#6 9#6 1#2 8#6 0#2 false true true), ([0x4c780000], .ordend h),
   ([0x50100000, 0x00fff03f], .waitc h 63#6 63#6 0#6 63#6)]

def workedExchange : List (List Word × Instr) :=
  let h : Hdr := ⟨false, 0#2, none⟩
  [([0x54140219, 0x00000000], .mmaI8 h false 0#3 8#6 25#6 false false), ([0x58140741], .gang h 0#3 29#6 1#6),
   ([0x58098000, 0x000e0000], .acvt h 24#6 0#3 0#6 0#4 0#6 3#4 true false), ([0x5c01a662], .wvf h false 26#6 25#6 true false false 2#3),
   ([0x6000a105, 0x18000000], .board h 10#6 4#6 5#6 6#6 false), ([0x6004b280], .bwait h 11#6 10#6), ([0x60114000], .lapr h 20#6 0#3),
   ([0x6400a0c8], .job h 10#6 3#6 8#6), ([0x640d42c0], .jstat h 20#6 11#6 0#3), ([0x6802812d], .seqld h 40#6 4#6 45#6),
   ([0x6814a10c], .accept h 10#6 4#6 12#6), ([0x6c00a08c], .pgref h 10#6 2#6 12#6), ([0x70006204], .bar h 6#6 8#6 true 0#2),
   ([0x70105000], .gbar h 5#6)]

/-- The words of MMA, which look at the gang before they look at their registers' pending bits (R217). -/
def isMma : Instr → Bool
  | .mmaE2m1 .. => true | .mmaE4m3 .. => true | .mmaE5m2 .. => true | .mmaE3m2 .. => true | .mmaE2m3 .. => true
  | .mmaI8 .. => true | .mmaBf16 .. => true | .mmaF16 .. => true | _ => false

/-- The loops, whose lanes that do not issue go past the body (R111). -/
def isLoop : Instr → Bool
  | .loop .. => true | .loopRegister .. => true | _ => false

/-- The code of the rule of its own that a word breaks in the state it is in: MODE for `eret` and for `csrw` of a handler's register outside
handler mode (R91, R117), REGNUM for a block that the group does not have (R92), LOOPLEN (R110), FUNC for `wthr` and the thresholding `stw` with a
threshold register of MODE 3 (R242). -/
def ownRule (i : Instr) (s : State) : Option Nat :=
  let hm := s.iss.snap.hm
  let mode3 := fun (n : BitVec 3) => (s.iss.snap.wth.getD n.toNat 0).extractLsb' 30 2 = 3#2
  match i with
  | .eret _ => if hm then none else some 0x0d
  | .csrw _ _ a b => if !hm && (0x010 ≤ csrNum a b && csrNum a b ≤ 0x013) then some 0x0d else none
  | .acq h d => s.blockBad d (wctx h s)
  | .rel h d => s.blockBad d (wctx h s)
  | .loop h l n _ => if loopBad (wctx h s).snap l.toNat n.toNat (pkt s.iss.pc + n.toNat) then some 0x0c else none
  | .loopRegister h l n _ => if loopBad (wctx h s).snap l.toNat n.toNat (pkt s.iss.pc + n.toNat) then some 0x0c else none
  | .wthr _ _ _ n => if mode3 n then some 0x02 else none
  | .stw _ _ _ _ _ _ _ _ t n _ => if t = true ∧ mode3 n then some 0x02 else none
  | _ => none

/-- The chain breaks a rule of R31: its last instruction names a successor outside the packet, two of its words share a pipe, or two write one
register (of a word that the packet's end cuts, those that its first word names). -/
def chainBroken (gs : List Got) : Prop :=
  chainEnds gs = false ∨ ¬((chainSpecs gs).map WordSpec.pipe).Nodup ∨ ¬(chainWrites gs).Nodup

/-- What software sets in a group beside its vector and scalar registers, but for the loop counters, which a loop end moves: predicates, masks,
blocks, the control registers that it writes, and what is outstanding (R45, R67, R90 to R94, R241, R421). -/
def softRegs (g : Group) :=
  ((g.p1, g.p2, g.p3, g.m, g.held, g.rgn), (g.wdog, g.htv, g.hcm, g.hs), (g.nmode, g.cvc, g.cvth, g.dph, g.xen), (g.wth, g.wctl, g.gng),
    g.ops, g.pendV, g.pendS)

/-- What software sets in a lane beside its PC and its state: the region entry and the fault registers (R86, R421). -/
def softLane (x : Lane) : Word × Word × Dword × Word := (x.rpc, x.fcs, x.fad, x.frgn)

/-- The integer words (R126 to R133), with every operand field that one of them has: `e` is also a length, `pos` an inner function. -/
def integerWords (h : Hdr) (m : Bool) (d a b e : BitVec 6) (pos : BitVec 5) (sel : BitVec 3) (p : BitVec 2) : List Instr :=
  (ialu2.map fun x => x.2 h m d a b) ++ (ialu1.map fun x => x.2 h m d a) ++ (ialui.map fun x => x.2 h m d a b)
    ++ (salu2.map fun x => x.2 h d a b) ++ (salu1.map fun x => x.2 h d a) ++ (salui.map fun x => x.2 h m d a b)
    ++ [.ialuiLi h m d (a ++ b), .ialuMov h m d a, .ialuMad h m d a b e (p == 0#2), .ialuSel h m d a b p, .ialuBfxN32 h m d a pos e,
      .ialuBfxI32 h m d a pos e, .ialuBfi h m d a b pos e, .ialuLea h m d a b sel (p == 0#2), .ialuWid h m d sel (p == 0#2),
      .ialuEscape64 h m d a b pos p, .saluiLi h m d (a ++ b), .saluMad h d a b e, .saluBfxN32 h d a pos e, .saluBfxI32 h d a pos e,
      .saluBfi h d a b pos e, .saluLea h d a b sel (p == 0#2), .saluWid h d sel (p == 0#2), .saluEscape64 h d a b pos p]

/-- A team that holds its core leaves it for a trap (R420, R494). -/
def LeavesForTrap (s t : State) (n : Nat) : Prop :=
  ∀ x, s.teams[n]? = some x → x.holds = true → ∃ y, t.teams[n]? = some y ∧ y.st = .leaving .trap
end

end Sys2Proof.Claims

section
open Sys2Proof Sys2Proof.Machine Sys2Proof.Claims

/-- R126, R127: every lane of the destination gets the function of the two sources, read before any register is written; every other
register, flag and byte of memory is as it was. -/
def Obligations.IaluTwoSources : Prop :=
  ∀ x ∈ ialu2, ∀ (h : Hdr) (m : Bool) (d a b : BitVec 6) (s : State),
    PutsLanes (x.2 h m d a b) (specV2 h m d a b) s d fun l => binFn x.1 (srcA (wctx h s) a l) (srcB (wctx h s) h m b l)

/-- R128, R129: the words of IALU with one source, those of IALUI, and `li`. R128, R121, R125: `mov` copies; a whole copy of a Haar
register keeps its coefficients and its tag. R130, R131: `mad`, `sel`, the bit fields, and the words that write a pair. -/
def Obligations.IaluOtherWords : Prop :=
  ((∀ x ∈ ialu1, ∀ (h : Hdr) (m : Bool) (d a : BitVec 6) (s : State),
      PutsLanes (x.2 h m d a) (specV1 h m d a) s d fun l => unFn x.1 (srcU (wctx h s) m a l))
    ∧ (∀ x ∈ ialui, ∀ (h : Hdr) (k : Bool) (d a imm : BitVec 6) (s : State),
      PutsLanes (x.2 h k d a imm) (specV1 h false d a) s d fun l =>
        binFn x.1 (srcA (wctx h s) a l) (immOf h (BitVec.ofBool k ++ imm)))
    ∧ ∀ (h : Hdr) (k : Bool) (d : BitVec 6) (imm : BitVec 12) (s : State),
      PutsLanes (.ialuiLi h k d imm) (specV0 h d) s d fun _ => immOf h (BitVec.ofBool k ++ imm))
  ∧ (∀ (h : Hdr) (m : Bool) (d a : BitVec 6) (s : State),
      let c := wctx h s
      if m = false ∧ c.lanes = allLanes ∧ (c.snap.tag a.toNat).haar = true then
        Does (.ialuMov h m d a) (specV1 h m d a) s (group s fun g => g.setV d.toNat (c.snap.vreg a.toNat) (c.snap.tag a.toNat))
      else PutsLanes (.ialuMov h m d a) (specV1 h m d a) s d (srcU c m a))
  ∧ (∀ (h : Hdr) (m : Bool) (d a b e : BitVec 6) (s : State),
      let c := wctx h s
      (∀ sc, PutsLanes (.ialuMad h m d a b e sc) (specMad h m d a b e sc) s d fun l => srcA c a l * srcU c m b l + srcU c sc e l)
      ∧ (∀ p, PutsLanes (.ialuSel h m d a b p) (specV2 h m d a b) s d fun l =>
          if (c.snap.pred p.toNat).getLsbD l then srcA c a l else srcB c h m b l)
      ∧ (∀ pos len, PutsLanes (.ialuBfxN32 h m d a pos len) (specV1 h m d a) s d fun l => bitField false (srcU c m a l) pos len)
      ∧ (∀ pos len, PutsLanes (.ialuBfxI32 h m d a pos len) (specV1 h m d a) s d fun l => bitField true (srcU c m a l) pos len)
      ∧ (∀ pos len, PutsLanes (.ialuBfi h m d a b pos len) (specV2 h m d a b) s d fun l =>
          bitInsert (srcA c a l) (srcB c h m b l) pos len)
      ∧ (∀ sh zx, PutsPair (.ialuLea h m d a b sh zx) (specLea h m d a b) s d fun l => leaFn (srcPair c a l) (srcU c m b l) sh zx)
      ∧ (∀ sel, PutsPair (.ialuWid h m d sel true) (specWid h d true) s d fun l => widPart s.advance c.snap l sel)
      ∧ (∀ sel, PutsLanes (.ialuWid h m d sel false) (specWid h d false) s d fun l => lowW (widPart s.advance c.snap l sel))
      ∧ ∀ ifn ty, PutsPair (.ialuEscape64 h m d a b ifn ty) (specEsc h m d a b ifn) s d fun l =>
          escFn ifn b (if ifn == 0x15#5 && m then c.snap.spair a.toNat else srcPair c a l)
            (if m then c.snap.spair b.toNat else srcPair c b l))

/-- R129, R132: the scalar words, once for the group; where no lane issues they write nothing (R24). -/
def Obligations.SaluWords : Prop :=
  ∀ (h : Hdr) (d a b e : BitVec 6) (s : State),
    let g := (wctx h s).snap
    (∀ x ∈ salu2, PutsS (x.2 h d a b) (specS2 h d a b) s d (binFn x.1 (g.sreg a.toNat) (sB (wctx h s) h b)))
    ∧ (∀ x ∈ salu1, PutsS (x.2 h d a) (specS1 h d a) s d (unFn x.1 (g.sreg a.toNat)))
    ∧ (∀ x ∈ salui, ∀ k, PutsS (x.2 h k d a b) (specS1 h d a) s d (binFn x.1 (g.sreg a.toNat) (immOf h (BitVec.ofBool k ++ b))))
    ∧ (∀ k (imm : BitVec 12), PutsS (.saluiLi h k d imm) (specS0 h d) s d (immOf h (BitVec.ofBool k ++ imm)))
    ∧ PutsS (.saluMad h d a b e) (specSMad h d a b e) s d (g.sreg a.toNat * g.sreg b.toNat + g.sreg e.toNat)
    ∧ (∀ pos len, PutsS (.saluBfxN32 h d a pos len) (specS1 h d a) s d (bitField false (g.sreg a.toNat) pos len))
    ∧ (∀ pos len, PutsS (.saluBfxI32 h d a pos len) (specS1 h d a) s d (bitField true (g.sreg a.toNat) pos len))
    ∧ (∀ pos len, PutsS (.saluBfi h d a b pos len) (specS2 h d a b) s d (bitInsert (g.sreg a.toNat) (sB (wctx h s) h b) pos len))
    ∧ (∀ sh zx, PutsSpair (.saluLea h d a b sh zx) (specSLea h d a b) s d (leaFn (g.spair a.toNat) (g.sreg b.toNat) sh zx))
    ∧ (∀ sel, PutsSpair (.saluWid h d sel true) (specSWid h d true) s d (widPart s.advance g 0 sel))
    ∧ (∀ sel, PutsS (.saluWid h d sel false) (specSWid h d false) s d (lowW (widPart s.advance g 0 sel)))
    ∧ ∀ ifn ty, PutsSpair (.saluEscape64 h d a b ifn ty) (specSEsc h d a b ifn) s d
        (escFn ifn b (g.spair a.toNat) (g.spair b.toNat))

/-- R136, R137, R139, R121, R122, R123: the float words that work lane by lane, on spatial operands or on Haar registers that they
reconstruct: the functions that have no linear form, whatever the tags; every word of which not every lane issues; products of two vector
registers. Every lane's result and flags; a lane with an enabled flag keeps its old value and takes FPE (R426). R138, R121, R123: `ffma`
where its addend and its multiplicand are spatial, and whatever the tags where not every lane issues, b is a vector register or the format
is not FP32: the exact product and sum of the reconstructed sources, rounded once. The results of the special functions within their
stated bounds are the model's (log entry 6). -/
def Obligations.FloatSpatial : Prop :=
  (∀ (h : Hdr) (q : Bool) (d a b : BitVec 6) (s : State),
      let c := wctx h s
      (∀ x ∈ falu2s, lanewise c x.1 h.limm.isSome a b →
        PutsFloat (x.2 h q d a b) (specF2 h d a b) s q d fun l => faluLane x.1 0 0 (c.snap.rows a.toNat)[l] (srcB c h false b l))
      ∧ (∀ x ∈ falu1s, lanewise c x.1 false a b →
        PutsFloat (x.2 h q d a) (specF1 h d a) s q d fun l => faluLane x.1 0 0 (c.snap.rows a.toNat)[l] 0)
      ∧ (∀ r, PutsFloat (.frnd h q d a r) (specF1 h d a) s q d fun l => faluLane .rnd 0 r (c.snap.rows a.toNat)[l] 0)
      ∧ (∀ ifn ty bs, (ty ≠ 0#2 ∨ lanewise c (faluOf ifn) bs a b) →
        PutsFloat (.faluEscape h q d a b ifn ty bs) (specFEsc h d a b ifn bs) s q d fun l =>
          faluLane (faluOf ifn) ty (b.setWidth 2) (c.snap.rows a.toNat)[l] (srcU c bs b l))
      ∧ ∀ x ∈ sfus, PutsFloat (x.2 h q d a) (specF1 h d a) s q d fun l =>
          let r := sfu x.1 (c.snap.rows a.toNat)[l].toNat
          (BitVec.ofNat 32 r.1, r.2))
  ∧ (∀ (h : Hdr) (q : Bool) (d a b e : BitVec 6) (ty : BitVec 2) (bs sc : Bool) (rm : BitVec 2) (np na : Bool) (s : State),
      let c := wctx h s
      (ty ≠ 0#2 ∨ bs = false ∨ c.lanes ≠ allLanes ∨ ((c.snap.tag a.toNat).haar = false ∧ (sc = false → (c.snap.tag e.toNat).haar = false))) →
      PutsFloat (.ffma h q d a b e ty bs sc rm np na) (specFma h d a b e bs sc) s q d fun l =>
        fmaLane ty rm np na (c.snap.rows a.toNat)[l] (srcU c bs b l) (some (srcU c sc e l)))

/-- R121, R123, R125, R138: in a whole word the linear forms compute on coefficients: a sum of like-tagged registers coefficient by
coefficient, under the joined tag; a sum with a uniform value in the approximation lanes alone; a negation and a product with a uniform
value under the source's tag; a product with a uniform value with a like-tagged or a uniform addend. Registers that are not like-tagged
are DOMAIN 1, but where auto-forward is on and one of them is spatial, which is transformed first. That the linear forms of `ffma` round
by the word's `rm`, where R121 has values rounded to nearest even, and that a register takes the new tag also where FPE withholds lanes,
are the model's choices (log entries 80, 88). -/
def Obligations.FaluCoefficients : Prop :=
  ∀ (h : Hdr) (q : Bool) (d a b e : BitVec 6) (s : State),
    let c := wctx h s
    let tag := fun (r : BitVec 6) => c.snap.tag r.toNat
    let raw := fun (r : BitVec 6) => c.snap.vreg r.toNat
    let ta := tag a
    let x := raw a
    let ap := approxLanes (descL ta.desc)
    let fwd := fun (r : BitVec 6) (t : Tag) => autoForward c.snap.ovp (raw r) t
    let put := fun (t : Tag) (f : Fin 32 → Word × BitVec 5) => putFlt c s.advance q d.toNat t f
    -- the linear forms of two vector registers `a` and `r`: `i` with registers `w`, each lane `f` of the coefficients
    let sums := fun (i : Instr) (w : WordSpec) (r : BitVec 6) (f : Word → Word → Word × BitVec 5) =>
      let y := raw r
      (likeTagged ta (tag r) = true → Does i w s (put (joinTag ta (tag r)) fun l => f x[l] y[l]))
      ∧ (likeTagged ta (tag r) = false → (ta.haar = true ∨ (tag r).haar = true) →
        (ta.haar = (tag r).haar ∨ c.snap.wctl.getLsbD 0 = false → Raises i w s cDOMAIN 1)
        ∧ (c.snap.wctl.getLsbD 0 = true → ta.haar = true → (tag r).haar = false →
          Does i w s (put (joinTag ta (fwd r ta).2) fun l => f x[l] ((fwd r ta).1)[l]))
        ∧ (c.snap.wctl.getLsbD 0 = true → ta.haar = false → (tag r).haar = true →
          Does i w s (put (joinTag (fwd a (tag r)).2 (tag r)) fun l => f ((fwd a (tag r)).1)[l] y[l])))
    c.lanes = allLanes →
      (∀ (ifn : BitVec 5) (bs : Bool), ∀ p ∈ [(FFn.add, Instr.fadd h q d a b, specF2 h d a b, h.limm.isSome, srcB c h false b),
          (.sub, .fsub h q d a b, specF2 h d a b, h.limm.isSome, srcB c h false b),
          (.mul, .fmul h q d a b, specF2 h d a b, h.limm.isSome, srcB c h false b),
          (.scl, .fscl h q d a b, specF2 h d a b, h.limm.isSome, srcB c h false b), (.neg, .fneg h q d a, specF1 h d a, false, fun _ => 0),
          (faluOf ifn, .faluEscape h q d a b ifn 0#2 bs, specFEsc h d a b ifn bs, bs, srcU c bs b)],
        let k := p.1
        let i := p.2.1
        let w := p.2.2.1
        let uni := p.2.2.2.1
        let y := p.2.2.2.2
        ((k = .add ∨ k = .sub) → uni = false → sums i w b fun u v => faluLane k 0 0 u v)
        ∧ ((k = .add ∨ k = .sub) → uni = true → ta.haar = true →
          Does i w s (put (addendTag ta) fun l => if ap.getLsbD l then faluLane k 0 0 x[l] (y l) else (x[l], 0#5)))
        ∧ (((k = .mul ∨ k = .scl) ∧ uni = true ∨ k = .neg) → ta.haar = true → Does i w s (put ta fun l => faluLane k 0 0 x[l] (y l))))
      ∧ ∀ (rm : BitVec 2) (np na : Bool),
        let i := fun (sc : Bool) => Instr.ffma h q d a b e 0#2 true sc rm np na
        let w := fun (sc : Bool) => specFma h d a b e true sc
        let y := c.snap.sreg b.toNat
        sums (i false) (w false) e (fun u v => fmaLane 0 rm np na u y (some v))
        ∧ (ta.haar = true → Does (i true) (w true) s (put (addendTag ta) fun l =>
          fmaLane 0 rm np na x[l] y (if ap.getLsbD l then some (c.snap.sreg e.toNat) else none)))

/-- R134, R135: a compare writes the issuing lanes of its predicate, and nothing where it is p0 (R90). R140 to R144: the conversions. A
Haar register that a word would write in part is DOMAIN 2; where the counting rule applies, the word waits for the counts of earlier
`acvt` words (R71), raises CONVX above the threshold (R70), and adds its counts (R69). That `qnt` writes its scale over its elements, that
`dq` reconstructs a Haar-tagged scale register and counts an infinite element, and that the elements of lanes whose result is withheld are
counted, are the model's choices (log entries 77, 78, 79). -/
def Obligations.ComparesAndConversions : Prop :=
  (∀ (h : Hdr) (m n q : Bool) (p : BitVec 2) (a b : BitVec 6) (s : State),
      let c := wctx h s
      let w := specCmp h m p a b
      (∀ x ∈ icmps, Does (x.2 h m n p a b) w s
        (group s fun g => g.putP p.toNat c.lanes (lanesWhere fun l => iCond x.1 (srcA c a l) (srcB c h m b l) != n)))
      ∧ ∀ x ∈ fcmps, Does (x.2 h m n q p a b) w s
        (putFloat c s.advance q (fun l => (fCmp x.1 (srcA c a l).toNat (srcB c h m b l).toNat).2) fun good g =>
          g.putP p.toNat good (lanesWhere fun l => (fCmp x.1 (srcA c a l).toNat (srcB c h m b l).toNat).1 != n)))
  ∧ (∀ (h : Hdr) (q : Bool) (d a e : BitVec 6) (s : State),
      let c := wctx h s
      (∀ st dt rm dith js jd, Ends (.cvt h q d a st dt rm dith js jd) (specCvt h d a dt st) s <|
        let src := cvtType st
        let dst := cvtType dt
        let n := cvtRun dt
        let cnt := c.snap.ovp && !widens src dst
        let x := fun l => conv dst (if dith then .dither (ditherOff jd.toNat c.snap.ph) else .mode (Rm.of rm)) cnt false
          (src.val (Machine.getElem src.width js.toNat (runAt c a.toNat (cvtRun st) l)))
        if haarRun c d.toNat n then .raise cDOMAIN 2
        else convert c s.advance q cnt dith (fun l => [x l]) fun good g =>
          g.putRun d.toNat good (fun l => putElem dst.width jd.toNat (rawAt c d.toNat n l) (x l).code) n)
      ∧ (∀ sb fmt st dith, Ends (.qnt h q d a e sb fmt st dith) (specQnt h d a e fmt st) s <|
        let f := qntFmt fmt
        let n := qntDst fmt
        let r := fun l => quantise f (fun j => if dith then Rounder.dither (ditherOff j c.snap.ph) else .mode .rne) c.snap.ovp
          ((List.range (blockLen fmt)).map fun j =>
            (wideFmt st).val (Machine.getElem (wideFmt st).width j (runAt c a.toNat (qntSrc fmt st) l)))
        if (c.snap.tag e.toNat).haar || partialHaar c (runOf d.toNat n) then .raise cDOMAIN 2
        else convert c s.advance q c.snap.ovp dith (fun l => (r l).2) fun good g =>
          (g.putRun d.toNat good (fun l => packCodes n f.width ((r l).2.map Conv.code)) n).putV e.toNat good fun l =>
            BitVec.ofNat 32 (setFld ((c.snap.vreg e.toNat)[l]).toNat (8 * sb.toNat + 7) (8 * sb.toNat) (r l).1))
      ∧ (∀ sb fmt dt, Ends (.dq h q d a e sb fmt dt) (specDq h d a e fmt dt) s <|
        let n := qntSrc fmt dt
        let r := fun l => (List.range (blockLen fmt)).map fun j =>
          let v := dqVal ((qntFmt fmt).val (Machine.getElem (qntFmt fmt).width j (runAt c a.toNat (qntDst fmt) l)))
            (Fmt.e3m5.val ((srcA c e l).toNat / 256 ^ sb.toNat % 256))
          convFlt (wideFmt dt) (.mode .rne) (c.snap.ovp && dt ≠ 0#2) v.2 v.1
        if partialHaar c (runOf d.toNat n) then .raise cDOMAIN 2
        else convert c s.advance q (c.snap.ovp && dt ≠ 0#2) false r fun good g =>
          g.putRun d.toNat good (fun l => packCodes n (wideFmt dt).width ((r l).map Conv.code)) n)
      ∧ (∀ j w, Ends (.pack h q d a j w) (specPack h d a w) s <|
        if haarRun c d.toNat (packRun w) then .raise cDOMAIN 2
        else .ok (group s fun g => g.putRun d.toNat c.lanes
          (fun l => putElem (packWidth w) j.toNat (rawAt c d.toNat (packRun w) l) (srcA c a l).toNat) (packRun w)))
      ∧ ∀ j w, PutsLanes (.unpack h q d a j w) (specUnpack h d a w) s d fun l =>
          BitVec.ofNat 32 (Machine.getElem (packWidth w) j.toNat (runAt c a.toNat (packRun w) l)))

/-- R145, R146: votes, shuffles, broadcasts and elections over the member lanes; `.part` writes p3. -/
def Obligations.LaneExchange : Prop :=
  ∀ (h : Hdr) (m : Bool) (d a b : BitVec 6) (s : State),
    let c := wctx h s
    let x := c.snap.rows a.toNat
    (∀ p, Does (.vote h m d p b) (specVote h m d) s <|
      (group s fun g => g.setS d.toNat (members c b &&& c.snap.pred p.toNat)).onGrp s.iss.gi (putPart c m (members c b)))
    ∧ Ends (.shfl h m d a b) (specShfl h m d a) s (withPart c m (members c b) <| putLanes c s.advance d.toNat fun l =>
        let i := Fin.ofNat 32 (((c.snap.rows d.toNat)[l]).toNat % 32)
        if (members c b).getLsbD i then x[i] else x[l])
    ∧ Ends (.push h d a b) (specPush h d a b) s
        (if (c.snap.tag d.toNat).haar then .raise cDOMAIN 2
        else .ok (group s fun g =>
          (g.setV d.toNat (Vector.ofFn fun t => match (pushers c (c.snap.rows b.toNat) t).getLast? with
            | some l => x[l] | none => (c.snap.vreg d.toNat)[t]) Tag.spatial).orXf
            (lanesWhere fun t => 1 < (pushers c (c.snap.rows b.toNat) t).length) fun _ => 0x80#32))
    ∧ (∀ k, PutsS (.bcast h true d a k) (specBcast h true d a) s d (srcA c a (Fin.ofNat 32 k.toNat)))
    ∧ (∀ k, PutsLanes (.bcast h false d a k) (specBcast h false d a) s d fun _ => srcA c a (Fin.ofNat 32 k.toNat))
    ∧ ∀ p, Does (.elect h p a b) (specElect h p a) s (group s fun g =>
        (g.putP p.toNat c.lanes (lanesWhere fun l => l.val = leastLane (c.lanes &&& members c b))).setS a.toNat
          (BitVec.ofNat 32 (leastLane (c.lanes &&& members c b))))

/-- R147 to R149: a reduction of the member lanes, a prefix of them for each lane, and the segments of a walk; the flags of a result
follow R426. R150 to R152: ranks and the predicate of the k first, counts of digit values, and the Philox words of a key and a counter.
That `.part` writes p3 also in lanes whose result FPE withholds is the model's choice (log entry 77). -/
def Obligations.ReductionsAndOrder : Prop :=
  (∀ (h : Hdr) (m q : Bool) (d a : BitVec 6) (op : BitVec 5) (anc : BitVec 9) (mask seg : BitVec 6) (s : State),
      let c := wctx h s
      let mem := members c mask
      let x := c.snap.rows a.toNat
      let fold := redFold op.toNat (anchorOf anc) c.snap.ovp
      (∀ excl, Ends (.scan h m d a op anc excl q mask) (specRed h m false d a 1) s <|
        withPart c m mem (putFolds c s.advance q d.toNat 1 fun l =>
          fold false (valuesOf x (lanesWhere fun j => mem.getLsbD j && (if excl then j < l else j ≤ l)))))
      ∧ (∀ raw, Ends (.red h m d a op anc raw false q mask) (specRed h m false d a (if raw then 3 else 1)) s <|
        withPart c m mem (putFolds c s.advance q d.toNat (if raw then 3 else 1) fun _ => fold raw (valuesOf x mem)))
      ∧ (∀ raw, Does (.red h m d a op anc raw true q mask) (specRed h m true d a (if raw then 3 else 1)) s <|
        let r := fold raw (valuesOf x mem)
        putFloat c (group s fun g => putPart c m mem
            ((List.range (if raw then 3 else 1)).foldl (fun g k => g.setS (d.toNat + k) (r.ws.getD k 0)) g))
          q (fun _ => r.fl) fun good g => g.orXf good fun _ => r.xf)
      ∧ ∀ mode, Ends (.walk h d a op anc mode q mask seg) (specRed h false false d a 1) s <|
        putFolds c s.advance q d.toNat 1 fun l =>
          match walkSegment mem (members c seg) l, mode.toNat with
          | none, 3 => ⟨[0], 0#5, 0⟩
          | none, _ => fold false []
          | some g, 0 => fold false ((g.filter fun j => j ≤ l).map fun j => x[j])
          | some g, 1 => fold false ((g.filter fun j => j < l).map fun j => x[j])
          | some g, 2 => fold false (g.map fun j => x[j])
          | some g, _ => ⟨[match g with | j :: _ => x[j] | [] => 0], 0#5, 0⟩)
  ∧ (∀ (h : Hdr) (d a b : BitVec 6) (s : State),
      let c := wctx h s
      let x := c.snap.rows a.toNat
      (∀ p ty ks kv small mask, Ends (.topk h d a p ty ks kv small mask) (specTopk h d a p ks kv) s <|
        let mem := members c mask
        let u := fun (l : Fin 32) => orderMap ty.toNat x[l]
        let k := if ks then min 32 (c.snap.sreg kv.toNat).toNat else kv.toNat
        let rank := fun (l : Fin 32) => ((lanesOf mem).filter fun j =>
          (if small then u j < u l else u l < u j) || (u j = u l && j < l)).length
        if partialHaar c [d.toNat] then .raise cDOMAIN 2
        else .ok (group s fun g =>
          (g.putV d.toNat c.lanes fun l => if mem.getLsbD l then BitVec.ofNat 32 (rank l) else 0xffffffff#32).putP p.toNat c.lanes
            (lanesWhere fun l => mem.getLsbD l && rank l < k)))
      ∧ (∀ shift w mask ty, PutsLanes (.hist h d a b shift w mask ty) (specHist h d a b) s d fun l =>
        BitVec.ofNat 32 (((valuesOf x (members c mask)).map (orderMap ty.toNat)).filter fun u =>
          (shift.toNat + w.toNat = 32 || u / 2 ^ (shift.toNat + w.toNat) = (c.snap.sreg b.toNat).toNat / 2 ^ (shift.toNat + w.toNat))
            && u / 2 ^ shift.toNat % 2 ^ w.toNat = l.val).length)
      ∧ ∀ y bsel n, Ends (.rng h d a b y bsel n) (specRng h d a b y bsel n) s <|
        let g := c.snap
        let key := match s.ctxs[s.ctxOf g]? with | some k => k.d.rkey | none => 0
        let base : Dword := if bsel then g.spair b.toNat else BitVec.ofNat 64 (workId s g 0)
        if partialHaar c (runOf d.toNat (n.toNat + 1)) then .raise cDOMAIN 2
        else .ok (group s fun g' => g'.putRun d.toNat c.lanes (fun l =>
          let k := base + BitVec.ofNat 64 l.val
          philox (lowW k) (highW k) (g.sreg y.toNat) (g.sreg (y.toNat + 1)) (lowW key ^^^ g.sreg a.toNat)
            (highW key ^^^ g.sreg (a.toNat + 1))) (n.toNat + 1)))

/-- R90, R95, R97, R100: the mask words; `join` and `leave` for the issuing lanes, the others whole. -/
def Obligations.MaskWords : Prop :=
  ∀ (h : Hdr) (d a b : BitVec 6) (s : State),
    let c := wctx h s
    let g := c.snap
    Does (.join h d) (specMask h [] [] [d.toNat] [] true) s (group s fun x => x.setM d.toNat (g.mreg d.toNat ||| c.lanes))
    ∧ Does (.leave h d) (specMask h [] [] [d.toNat] [] true) s (group s fun x => x.setM d.toNat (g.mreg d.toNat &&& ~~~c.lanes))
    ∧ Does (.mset h d a) (specMask h [a.toNat] [] [d.toNat] [] false) s (group s fun x => x.setM d.toNat (g.sreg a.toNat))
    ∧ PutsS (.mmov h d a) (specMask h [] [d.toNat] [] [] false) s d (g.mreg a.toNat)
    ∧ PutsS (.mpop h d a) (specMask h [] [d.toNat] [] [] false) s d (BitVec.ofNat 32 (card (g.mreg a.toNat)))
    ∧ (∀ p ∈ [(Instr.mand h d a b, g.mreg a.toNat &&& g.mreg b.toNat), (.mor h d a b, g.mreg a.toNat ||| g.mreg b.toNat),
        (.mxor h d a b, g.mreg a.toNat ^^^ g.mreg b.toNat), (.mnot h d a, ~~~g.mreg a.toNat)],
      Does p.1 (specMask h [] [] [d.toNat] [] false) s (group s fun x => x.setM d.toNat p.2))

/-- R114, R115, R180: `nop` and `pref` change nothing but where their lanes stand; `yield` puts its group last in the core's next choice;
`region` opens a region: the count rises and the issuing lanes' entries move past the chain. R98, R99, R114: lanes that exit, wait or
sleep. A lane that another word of the chain has faulted stays faulted. -/
def Obligations.ControlWords : Prop :=
  (∀ (h : Hdr) (m : Bool) (l : BitVec 2) (a b : BitVec 6) (s : State),
      Does (.nop h) (specCtl h false) s s.advance
      ∧ Does (.yield h) (specCtl h true) s (group s fun g => { g with yielded := true })
      ∧ Does (.pref h m l a b) (specPref h m a b) s s.advance
      ∧ ((wctx h s).hm = false → Does (.region h) (specRegion h) s s.advance
        ∧ opened (specRegion h) s s.advance
          = s.advance.onGrp s.iss.gi fun g =>
              { g.onLanes (lanes (specRegion h) s &&& ~~~newFaults s.iss.gi s s.advance &&& ~~~s.iss.back)
                (fun _ x => { x with rpc := s.iss.next }) with rgn := g.rgn + 1 }))
  ∧ (∀ (h : Hdr) (d a : BitVec 6) (n : BitVec 12) (s : State),
      let c := wctx h s
      Moves (.exit h) (specCtl h true) s (group s fun g => g.onLanes c.lanes fun _ x =>
        if x.st = .runnable then { x with st := .exited, wt := 15 } else x)
      ∧ Moves (.wait h d) (specMask h [] [] [] [] true) s (group s fun g => g.onLanes (c.lanes &&& c.snap.mreg d.toNat) fun _ x =>
        if x.st = .runnable then { x with st := .waiting, wt := d.toNat, pcv := c.pc, wnext := c.next } else x)
      ∧ Moves (.trywait h d a) (specMask h [] [] [] [d.toNat] true) s (group s fun g =>
        let ok := (List.finRange 32).all fun l => !(c.snap.mreg a.toNat).getLsbD l || c.lanes.getLsbD l || c.snap.lanes[l].st = .exited
          || (c.snap.lanes[l].st = .waiting && c.snap.lanes[l].wt = a.toNat)
        let g := g.putP d.toNat c.lanes (if ok then allLanes else 0)
        if ok then g.release a.toNat fun x => x.wnext else g)
      ∧ (¬(n = 0#12 ∧ (s.advance.grp s.iss.gi).ops = []) → Moves (.sleep h n) (specCtl h true) s (group s fun g =>
        { g with status := .sleeping (if n = 0#12 then none else some (s.clk + n.toNat * 64)) }))
      ∧ (n = 0#12 ∧ (s.advance.grp s.iss.gi).ops = [] → Moves (.sleep h n) (specCtl h true) s (group s fun g => g)))

/-- R105 to R108: branches, calls and returns move the issuing lanes; a call leaves the PC after it in `v31`; a target of `brx` outside
the segment faults its lane at the `brx`, in handler mode the group at it, where lane 0 alone gives the target (R424, R425). That a call's
register is taken modulo 2^30 is the model's choice (log entry 51). -/
def Obligations.Branches : Prop :=
  ∀ (h : Hdr) (off : BitVec 18) (a : BitVec 6) (s : State),
    let c := wctx h s
    let link := s.advance.onGrp s.iss.gi fun g => g.putV 31 c.lanes fun _ => c.next
    Moves (.bra h off) (specCtl h false) s (s.advance.jump c fun _ => relTarget c.pc off)
    ∧ Moves (.ret h a) (specBrx h a) s (s.advance.jump c (srcA c a))
    ∧ (partialHaar c [31] = false → Moves (.call h off) (specCall h []) s (link.jump c fun _ => relTarget c.pc off))
    ∧ (partialHaar c [31] = false →
      Moves (.callRegister h a) (specCall h [a.toNat]) s (link.jump c fun _ => mkPc (c.snap.sreg a.toNat).toNat 0))
    ∧ (partialHaar c [31] = true → Raises (.call h off) (specCall h []) s cDOMAIN 2
      ∧ Raises (.callRegister h a) (specCall h [a.toNat]) s cDOMAIN 2)
    ∧ (let out := lanesWhere fun l => c.lanes.getLsbD l && decide (s.segment c.snap ≤ (srcA c a l).toNat)
      let dest := s.advance.jump c fun l => mkPc (srcA c a l).toNat 0
      let bad := if c.hm then out &&& 1#32 else out
      (bad = 0#32 → Moves (.brx h a) (specBrx h a) s dest)
      ∧ (bad ≠ 0#32 → Moves (.brx h a) (specBrx h a) s (dest.defer s.iss.gi bad c.pc c.hm false cILLEGAL 0x0b fun _ => 0)))

/-- R110, R111, R113: a loop opens a level for the issuing lanes and sends the others, and a count of 0, past its body; a body that breaks
R110 is ILLEGAL LOOPLEN whatever else stops the word, the lowest code, and also where no lane issues (R24, R41); `lbrk` leaves the level
of its counter and every level inside it. -/
def Obligations.Loops : Prop :=
  ∀ (h : Hdr) (l : BitVec 2) (n k : BitVec 8) (a : BitVec 6) (s : State),
    let c := wctx h s
    let last := pkt c.pc + n.toNat
    let others := group s fun g => g.onLanes (c.at_ &&& ~~~c.lanes) fun _ x =>
      if x.st = .runnable then { x with pcv := mkPc (last + 1) 0 } else x
    let enter := fun (x : Word) => others.onGrp s.iss.gi fun g =>
      { g.setL l.toNat x with levels := g.levels ++ [⟨l.toNat, pkt c.pc + 1, last, c.lanes⟩] }
    let past := others.jump c fun _ => mkPc (last + 1) 0
    (loopBad c.snap l.toNat n.toNat last = false →
      Moves (.loop h l n k) (specLoop h l []) s (if k = 0#8 then past else enter (k.setWidth 32))
      ∧ Moves (.loopRegister h l n a) (specLoop h l [a.toNat]) s
          (if c.snap.sreg a.toNat = 0#32 then past else enter (c.snap.sreg a.toNat)))
    ∧ (loopBad c.snap l.toNat n.toNat last = true →
      Unlawful (.loop h l n k) (specLoop h l []) s 0x0c ∧ Unlawful (.loopRegister h l n a) (specLoop h l [a.toNat]) s 0x0c)
    ∧ Moves (.lbrk h l) (specCtl h true) s (match c.snap.levels.findIdx? fun v => v.lc = l.toNat with
      | none => s.advance
      | some i => (s.advance.jump c fun _ => mkPc ((match c.snap.levels[i]? with | some v => v.last | none => 0) + 1) 0).onGrp s.iss.gi
          fun g => g.leaveLevels i c.lanes)

/-- R116, R418, R425: `trap` faults the issuing lanes, PROGRAM with the low byte of n; each keeps the PC of the `trap`. In handler mode
the group parks at the `trap` when its chain has ended, with a record marked H, unless an earlier word of the chain has faulted. R117,
R91, R192: `eret` leaves handler mode with what the handler wrote to `lst` and `pcv` applied, a lane that goes on elsewhere than at the
ordered atomic that it failed owing no replay, the lanes that an ordered atomic has aborted going on once no lane that failed it is
faulted (R192), and the faults of main code that arrived meanwhile raised (R424); outside handler mode it is ILLEGAL, whether or not a
lane issues (R24). That the record's detail is n mod 256, that a fault of a handler word parks the group when its chain has ended, the
earliest faulted word standing, that faults which arrive while the handler runs are raised at `eret`, and which aborted lanes go on, are
the model's readings (log entries 23, 29, 70, 71). -/
def Obligations.TrapAndReturn : Prop :=
  (∀ (h : Hdr) (n : BitVec 12) (s : State), let ls := lanes (specCtl h false) s
      ((wctx h s).hm = false → (s.advance.grp s.iss.gi).hm = false → s.advance.goneLanes s.iss.gi &&& ls = 0#32 →
        (s.advance.grp s.iss.gi).inState .faulted &&& ls = 0#32 →
        Moves (.trap h n) (specCtl h false) s (group s fun g => g.onLanes ls fun _ x =>
          { x with st := .faulted, pcv := s.iss.pc, wt := 15, fcs := mkFcs false cPROGRAM (n.toNat % 256), fad := 0, frgn := g.rgn,
                   torn := false }))
      ∧ ((wctx h s).hm = true → s.iss.left ≠ 0 → s.iss.fell = none → Moves (.trap h n) (specCtl h false) s
          { s.advance with iss := { s.advance.iss with fell := some (laneFaults ls cPROGRAM (n.toNat % 256) fun _ => 0, s.iss.pc) } })
      ∧ ((wctx h s).hm = true → (s.grp s.iss.gi).status = .handler → (s.grp s.iss.gi).fellAt = none → s.iss.left = 1 → s.iss.fell = none →
        s.iss.gi < s.groups.length → Clear (specCtl h false) s → ls ≠ 0#32 →
        ∃ t, exec (.trap h n) s = .next t ∧ (t.grp s.iss.gi).status = .parked true ∧ (t.grp s.iss.gi).hpc = s.iss.pc
          ∧ (s.ctxOf (s.grp s.iss.gi) < s.ctxs.length → ∃ r ∈ (t.ctx (s.ctxOf (s.grp s.iss.gi))).recs, r.kind = 1 ∧ r.gi = some s.iss.gi
            ∧ r.cause = cPROGRAM ∧ r.detail = n.toNat % 256 ∧ r.flg.testBit 0 = true ∧ r.fmask = ls ∧ r.pc = s.iss.pc)))
  ∧ (∀ (h : Hdr) (s : State), let c := wctx h s
      (c.hm = true → Moves (.eret h) (specCtl h false) s
        ((group s fun g => { (g.freeAborted (g.onLanes allLanes fun _ x => x.eret)).dropOwed with status := .running, gfc := 0 }).raiseLater
          s.iss.gi))
      ∧ (c.hm = false → Unlawful (.eret h) (specCtl h false) s 0x0d))

/-- R432, R91: `csrr` reads a control register: of each lane in a vector register, of the group in a scalar register; a read of `cvc`
waits for earlier `acvt` words (R71). R432, R91, R4: `csrw` writes the fields of a control register that hold a value, of each issuing
lane from a vector register, of the group from a scalar register, and nothing else; outside handler mode `pcv`, `lst`, `rpc` and `rgn` are
ILLEGAL HMODE, or EXTREG where that applies too, whether or not a lane issues (R24, R41). R433, R434, R476: `perf` and `time`: chains
issued, clk since dispatch, engine passes. A count that depends on timing is the next free value (log entries 7, 44). That `hcm` keeps bit
0 among the bits that a write sets (0x2bf2f) is the model's reading (log entry 42). -/
def Obligations.ControlRegisters : Prop :=
  (∀ (h : Hdr) (d a b : BitVec 6) (s : State), let c := wctx h s
      let n := csrNum a b
      let w := specCsrr h d a b
      (∀ x ∈ laneRegs, x.1 = n → PutsLanes (.csrr h d a b) w s d fun l => x.2 (c.snap.lane l))
      ∧ (∀ x ∈ groupRegs s.advance c.snap, x.1 = n → ¬(n = 0x041 ∧ c.snap.countsDue = true) → PutsS (.csrr h d a b) w s d x.2)
      ∧ (n = 0x041 → c.snap.countsDue = true → Holds (.csrr h d a b) w s .counting))
  ∧ (∀ (h : Hdr) (d a b : BitVec 6) (s : State), let c := wctx h s
      let n := csrNum a b
      let w := specCsrw h d a b
      let barred := c.hm = false ∧ 0x010 ≤ n ∧ n ≤ 0x013
      (barred → Unlawful (.csrw h d a b) w s (if extBad w c.snap then 0x0a else 0x0d))
      ∧ (∀ x ∈ laneWrites, x.1 = n → ¬barred →
        Does (.csrw h d a b) w s (group s fun g => g.onLanes c.lanes fun l y => x.2 y (srcA c d l)))
      ∧ (∀ x ∈ groupWrites, x.1 = n → ¬barred → Does (.csrw h d a b) w s (group s fun g => x.2 g (c.snap.sreg d.toNat))))
  ∧ (∀ (h : Hdr) (d b : BitVec 6) (s : State), let g := (wctx h s).snap
      PutsSpair (.time h d false) (specPair h d) s d (BitVec.ofNat 64 s.clock.ns)
      ∧ PutsSpair (.time h d true) (specPair h d) s d (BitVec.ofNat 64 (s.clock.ns / (1000 * 2 ^ (s.ctx (s.ctxOf g)).d.wink)))
      ∧ (b = 0#6 → PutsSpair (.perf h d b) (specPair h d) s d (BitVec.ofNat 64 g.perf[0]))
      ∧ (b = 5#6 → PutsSpair (.perf h d b) (specPair h d) s d (BitVec.ofNat 64 g.perf[5]))
      ∧ (b = 1#6 → PutsSpair (.perf h d b) (specPair h d) s d (BitVec.ofNat 64 (s.clk - g.born)))
      ∧ (b ≠ 0#6 → b ≠ 1#6 → b ≠ 5#6 → Does (.perf h d b) (specPair h d) s
        ({ s.advance with freeIdx := s.freeIdx + 1 }.onGrp s.iss.gi fun g => g.setSpair d.toNat (BitVec.ofNat 64 (Config.freeValue s.freeIdx)))))

/-- R43, R45, R162, R167: a load starts an operation counted in `ld`, with the addresses and destinations read at issue, and makes the
accesses that nothing stands before; its destinations are spatial and pending. R43, R163, R169: a store starts an operation counted in
`st`, with its addresses and data read at issue. R171 to R176, R190: an atomic starts an operation counted in `ld` where it returns a
value and in `st` where not; an ordered one after the group's token-done mark is TOKEN 1, one that would write a part of a Haar register
DOMAIN 2; `ordend` sets the mark in deterministic mode. That accesses are made when their word issues, as far as no earlier one stands
before them, is the model's choice (log entry 5). -/
def Obligations.MemoryWords : Prop :=
  (∀ x ∈ loads, ∀ (h : Hdr) (mode : BitVec 2) (d a b : BitVec 6) (s : State), let c := wctx h s
      let w := specLd h x.1 mode d a b
      let run := dataRun x.1 d
      (partialHaar c run = false → Does (x.2.2.2.2 h mode d a b) w s (s.advance.startMem c .ld
        (.load x.1 x.2.1 (spaceOf mode) d.toNat x.2.2.1 x.2.2.2.1 (addrOf c h mode a b)) run))
      ∧ (partialHaar c run = true → Raises (x.2.2.2.2 h mode d a b) w s cDOMAIN 2))
  ∧ (∀ x ∈ stores, ∀ (h : Hdr) (mode : BitVec 2) (d a b : BitVec 6) (s : State), let c := wctx h s
      Does (x.2.2 h mode d a b) (specSt h x.1 mode d a b) s
        (s.advance.startMem c .st (.store x.1 (spaceOf mode) x.2.1 (addrOf c h mode a b) (dataOf c d x.1)) []))
  ∧ (∀ (h : Hdr) (m : Bool) (d a b : BitVec 6) (mode : BitVec 2) (sr : BitVec 6) (scope : BitVec 2) (w rt : Bool) (cr : BitVec 6)
      (bs cs : Bool) (s : State), let c := wctx h s
      let ord := m && s.det c.snap
      let cls : Cls := if rt then .ld else .st
      let run := atomRun w rt d
      (partialHaar c run = false → (ord && c.snap.tokenDone) = false →
        (∀ x ∈ atoms, Does (x.2 h m d a b mode sr scope w rt bs) (specAtom h d a b mode sr w rt bs (x.1 != .inc) false false 0#6) s
          (s.advance.startMem c cls (atomOp x.1 c h ord d a b mode sr scope w rt 0#6 bs false) run))
        ∧ Does (.atomCas h m d a b mode sr scope w rt cr bs cs) (specAtom h d a b mode sr w rt bs true true cs cr) s
          (s.advance.startMem c cls (atomOp .cas c h ord d a b mode sr scope w rt cr bs cs) run))
      ∧ (partialHaar c run = false → (ord && c.snap.tokenDone) = true → ∀ x ∈ atoms,
        Raises (x.2 h m d a b mode sr scope w rt bs) (specAtom h d a b mode sr w rt bs (x.1 != .inc) false false 0#6) s cTOKEN 1)
      ∧ (partialHaar c run = false → (ord && c.snap.tokenDone) = true →
        Raises (.atomCas h m d a b mode sr scope w rt cr bs cs) (specAtom h d a b mode sr w rt bs true true cs cr) s cTOKEN 1)
      ∧ (partialHaar c run = true → (∀ x ∈ atoms,
          Raises (x.2 h m d a b mode sr scope w rt bs) (specAtom h d a b mode sr w rt bs (x.1 != .inc) false false 0#6) s cDOMAIN 2)
        ∧ Raises (.atomCas h m d a b mode sr scope w rt cr bs cs) (specAtom h d a b mode sr w rt bs true true cs cr) s cDOMAIN 2)
      ∧ Does (.aadd h a b mode sr scope w bs) (specAtom h 0#6 a b mode sr false false bs true false false 0#6) s
          (s.advance.startMem c .st (.aadd (spaceOf mode) (scope = 3#2) w (addrOf c h mode a sr)
            ((atomArg c false bs b).map fun x => lowW x)) [])
      ∧ Does (.ordend h) (specOrdend h) s
          (if s.det c.snap then group s fun g => { g with tokenDone := true } else s.advance))

/-- R162, R163, R167, R169, R172, R176: the access that a word of one lane makes, in any space that its form has, where nothing of the
group is outstanding, the address passes the checks of R159 at the place `loc`, nothing fails the data (R160), no port in training holds
it (R468) and the granule of an `ldfe` is full: the load gets the bytes at the place, and `.clr` empties the granule; the store leaves its
data there, and `stfe` fills the granule; the atomic gets the old value, a `.sys` atomic on memory behind a host port the one that stands
at the port (R173), and leaves the new one; `aadd` leaves the cell with its term added; an `.ord` atomic does so where its group holds the
order token and owes no replay (R189). `ordend` sets the token-done mark in deterministic mode and has no effect outside it (R175). That
the accesses are made when their word issues, and which accesses a port in training holds, are the model's choices (log entries 5, 84). -/
def Obligations.MemoryAccesses : Prop :=
  ∀ (h : Hdr) (mode : BitVec 2) (d a b : BitVec 6) (s s' : State) (l : Fin 32) (loc : Loc), let c := wctx h s
    let who := s.whoOf c.snap
    (s.det c.snap = true → Does (.ordend h) (specOrdend h) s (group s fun g => { g with tokenDone := true }))
    ∧ (s.det c.snap = false → Does (.ordend h) (specOrdend h) s s.advance)
    ∧ (c.lanes = lane1 l.val → Quiet s → c.snap.team < s.teams.length → (∀ x ∈ s.l2, x.data.length = 128) → PlacesApart s →
      (∀ x ∈ loads, let r : Req := { space := spaceOf mode, bytes := x.1, acc := .r }
        Clear (specLd h x.1 mode d a b) s → partialHaar c (dataRun x.1 d) = false →
        s.locate who r (addrOf c h mode a b)[l] = (s', .ok loc) → s.heldFault who loc x.1 = none →
        (x.2.2.1 = true → mode ≠ 2#2 ∧ s.feAt loc = true) →
        ∃ t o, exec (x.2.2.2.2 h mode d a b) s = .next t ∧ (t.grp s.iss.gi).ops = [o] ∧ o.cls = .ld ∧ o.todo = 0#32
          ∧ o.got[l] = some (BitVec.ofNat 128 (ofBytes (s'.readLoc loc x.1).2))
          ∧ (x.2.2.1 = true → t.feAt loc = !x.2.2.2.1))
      ∧ (∀ x ∈ stores, let r : Req := { space := spaceOf mode, bytes := x.1, acc := .w }
        mode ≠ 2#2 → Clear (specSt h x.1 mode d a b) s →
        s.locate who r (addrOf c h mode a b)[l] = (s', .ok loc) → s.heldFault who loc x.1 = none →
        ∃ t o, exec (x.2.2 h mode d a b) s = .next t ∧ (t.grp s.iss.gi).ops = [o] ∧ o.cls = .st ∧ o.todo = 0#32
          ∧ (t.readLoc loc x.1).2 = toBytes x.1 ((dataOf c d x.1)[l]).toNat ∧ t.feAt loc = (x.2.1 || s.feAt loc))
      ∧ ∀ (m : Bool) (sr : BitVec 6) (scope : BitVec 2) (w rt : Bool) (cr : BitVec 6) (bs cs : Bool),
        let n := if w then 8 else 4
        let ord := m && s.det c.snap
        let at_ := (addrOf c h mode a sr)[l]
        let sys := decide (scope = 3#2)
        let old := fun (n : Nat) => ofBytes ((if sys then s'.toPort loc else s').readLoc (portLoc sys loc) n).2
        let made := fun (f : AtomFn) (i : Instr) => ∃ t o, exec i s = .next t ∧ (t.grp s.iss.gi).ops = [o]
          ∧ o.cls = (if rt then .ld else .st) ∧ o.todo = 0#32
          ∧ o.got[l] = some (BitVec.ofNat 128 (old n))
          ∧ (t.readLoc loc n).2 = toBytes n (f.apply (8 * n) (old n) ((atomArg c w bs b)[l]).toNat
              ((atomArg c w cs cr)[l]).toNat)
        mode ≠ 2#2 →
        (partialHaar c (atomRun w rt d) = false → (ord = true → c.snap.tokenDone = false ∧ c.snap.owed = 0#32 ∧ s.holdsToken c.snap = true
            ∧ s.onCore s.iss.gi = true) → s.heldFault who loc n = none →
          (∀ x ∈ atoms, Clear (specAtom h d a b mode sr w rt bs (x.1 != .inc) false false 0#6) s →
            s.locate who { space := spaceOf mode, bytes := n, acc := .a, noPort := scope = 3#2 && !x.1.portable } at_ = (s', .ok loc) →
            made x.1 (x.2 h m d a b mode sr scope w rt bs))
          ∧ (Clear (specAtom h d a b mode sr w rt bs true true cs cr) s →
            s.locate who { space := spaceOf mode, bytes := n, acc := .a } at_ = (s', .ok loc) →
            made .cas (.atomCas h m d a b mode sr scope w rt cr bs cs)))
        ∧ (Clear (specAtom h 0#6 a b mode sr false false bs true false false 0#6) s → s.heldFault who loc 16 = none →
          s.locate who { space := spaceOf mode, bytes := 16, acc := .a, noPort := scope = 3#2 } at_ = (s', .ok loc) →
          ∃ t o, exec (.aadd h a b mode sr scope w bs) s = .next t ∧ (t.grp s.iss.gi).ops = [o] ∧ o.cls = .st ∧ o.todo = 0#32
            ∧ (t.readLoc loc 16).2 = toBytes 16 (aaddCell w (old 16) (lowW (atomArg c false bs b)[l]))))

/-- R157, R161, R384, R454: bytes written in physical memory are read back, whether or not the L2 holds their line, whatever the policy
and whatever the key pair that their lines stand under, and every other byte reads as before. -/
def Obligations.PhysicalBytes : Prop :=
  ∀ (s : State) (pa : Nat) (bs : List Byte) (pol a : Nat) (x : Xlat), SoundLines s →
    (UnderKey s [] pa bs.length →
      (s.physWrite pa bs pol).physByte a = if pa ≤ a ∧ a < pa + bs.length then bs.getD (a - pa) 0 else s.physByte a)
    ∧ (UnderKey s (s.keyOf x.key) pa bs.length →
      plainByte (s.writeLoc (.gl pa x) bs) a = if pa ≤ a ∧ a < pa + bs.length then bs.getD (a - pa) 0 else plainByte s a)

/-- R153, R163: a store to the scratchpad changes no byte of any memory but those that an issuing lane's address and the store's width
give. -/
def Obligations.ScratchpadStoreFrame : Prop :=
  ∀ x ∈ stores, ∀ (h : Hdr) (d a b : BitVec 6) (s t : State), (∀ o ∈ (s.grp s.iss.gi).ops, o.id < (s.grp s.iss.gi).nextOp) →
    exec (x.2.2 h 1#2 d a b) s = .next t →
    let c := wctx h s
    t.mem = s.mem ∧ t.l2 = s.l2 ∧ t.bb = s.bb ∧ ∀ n off,
      (n = (s.grp s.iss.gi).team → ∀ l : Fin 32, c.lanes.getLsbD l = true →
        ¬(((addrOf c h 1#2 a b)[l]).toNat ≤ off ∧ off < ((addrOf c h 1#2 a b)[l]).toNat + x.1)) →
      spByte t n off = spByte s n off

/-- R159, R161, R163, R384: a store of one lane to global memory, where its address passes the checks of R159 and nothing fails or holds
its data, leaves its data at the physical address that the translation gives, and every other byte of memory as it was, in the clear or
under a key pair. A store, an atomic and an `aadd` of any number of lanes change no byte of memory but those that the addresses of issuing
lanes and the width of the form give, and none of a scratchpad or of the boarding buffer (R153, R172, R176). That they are made when the
word issues is the model's choice (log entry 5). -/
def Obligations.GlobalStore : Prop :=
  (∀ x ∈ stores, ∀ (h : Hdr) (mode : BitVec 2) (d a b : BitVec 6) (s s' : State) (l : Fin 32) (q : Nat) (y : Xlat),
    let c := wctx h s
    mode = 0#2 ∨ mode = 3#2 → Clear (specSt h x.1 mode d a b) s → c.lanes = lane1 l.val → Quiet s → SoundLines s →
    s.locate (s.whoOf (s.grp s.iss.gi)) { space := .gl, bytes := x.1, acc := .w } (addrOf c h mode a b)[l] = (s', .ok (.gl q y)) →
    s.heldFault (s.whoOf (s.grp s.iss.gi)) (.gl q y) x.1 = none → UnderKey s (s.keyOf y.key) q x.1 →
    ∃ t, exec (x.2.2 h mode d a b) s = .next t ∧ ∀ pa, plainByte t pa =
      if q ≤ pa ∧ pa < q + x.1 then (toBytes x.1 ((dataOf c d x.1)[l]).toNat).getD (pa - q) 0 else plainByte s pa)
  ∧ ∀ (h : Hdr) (m : Bool) (d a b : BitVec 6) (mode : BitVec 2) (sr : BitVec 6) (scope : BitVec 2) (w rt : Bool) (cr : BitVec 6)
    (bs cs : Bool) (s t : State),
    let c := wctx h s
    ∀ x ∈ writers c h m d a b mode sr scope w rt cr bs cs,
      mode = 0#2 ∨ mode = 3#2 → Numbered s → SoundLines s → Lands s x.2.1 c.lanes x.2.2 → exec x.1 s = .next t →
      (∀ pa, ¬Hit s x.2.1 c.lanes x.2.2 pa → plainByte t pa = plainByte s pa)
        ∧ t.bb = s.bb ∧ ∀ n off, spByte t n off = spByte s n off

/-- R162, R167, R384: a load changes no byte of any memory: where nothing is enciphered, whatever its addresses; and where the lines that
it reads stand under the key pairs of their pages. -/
def Obligations.LoadFrame : Prop :=
  ∀ x ∈ loads, ∀ (h : Hdr) (mode : BitVec 2) (d a b : BitVec 6) (s t : State), SoundLines s →
    (∀ o ∈ (s.grp s.iss.gi).ops, o.id < (s.grp s.iss.gi).nextOp) → exec (x.2.2.2.2 h mode d a b) s = .next t →
    (s.memKeys = [] → (∀ k, s.keyOf k = []) → ∀ pa, t.physByte pa = s.physByte pa)
      ∧ (mode = 1#2 ∨ mode = 2#2 ∨ Lands s { space := .gl, bytes := x.1, acc := .r } (wctx h s).lanes (addrOf (wctx h s) h mode a b) →
        ∀ pa, plainByte t pa = plainByte s pa)
      ∧ t.bb = s.bb ∧ ∀ n off, spByte t n off = spByte s n off

/-- R162, R44, R161: the data of a load whose accesses are made are written, narrow data extended with zeros or with their sign, wide data
register by register with the lowest bytes first; a lane without data keeps its registers, and the operation completes. The event that
lands the data is the model's (log entry 5). -/
def Obligations.LoadArrives : Prop :=
  ∀ (s : State) (gi id : Nat) (o : Op) (bytes d : Nat) (sg fe clr : Bool) (z : Space) (addr : PerLane Dword),
    gi < s.groups.length → (s.grp gi).op? id = some o → o.kind = .load bytes sg z d fe clr addr → o.todo = 0#32 → o.done = false →
    o.late = [] → bytes ∈ [1, 2, 4, 8, 16] → d < 64 →
    (∃ t, exec (.loadDataArrival gi id) s = .next t ∧ t.still = ((s.onGrp gi fun g => g.land o).onGrp gi fun g =>
        (g.onOp id fun o => { o with done := true, todo := 0 }).retire).still)
    ∧ (∀ (l : Fin 32) (v : BitVec 128), o.got[l] = some v → v.toNat < 2 ^ (8 * bytes) →
      (4 ≤ bytes → ∀ i, i < bytes / 4 → d + i < 64 → (((s.grp gi).land o).vreg (d + i))[l] = v.extractLsb' (32 * i) 32)
      ∧ (bytes < 4 → sg = false → (((s.grp gi).land o).vreg d)[l] = v.setWidth 32)
      ∧ (bytes < 4 → sg = true → (((s.grp gi).land o).vreg d)[l] = (v.setWidth (8 * bytes)).signExtend 32))
    ∧ (∀ (l : Fin 32) (r : Nat), o.got[l] = none → (((s.grp gi).land o).vreg r)[l] = ((s.grp gi).vreg r)[l])
    ∧ ∀ r, (r < d ∨ d + max 1 (bytes / 4) ≤ r) → ((s.grp gi).land o).vreg r = (s.grp gi).vreg r

/-- R177 to R182, R47, R92: the words of MEMCTL. A lock's status is written when its operation completes; a fence and an `acq` are held
for their events, a `fence.win` until the window after the one in which its wait began, and a granted `acq` takes its block; a block that
the kernel's header does not allow is ILLEGAL REGNUM, the lowest code, whether or not a lane issues (R24, R41). R389, R178: a `tlbinv` is
held until the group's earlier stores have completed, and then drops the translations of its context that meet its range, and the locks in
the range on pages that are no longer mapped where they were locked; an address that is not canonical is PROT 2. Which pending marks
`waitc` clears, the order of a lock's checks, when an unmapping ends a lock, and that `unlock` rounds its address down to 512 and takes
any count, are the model's readings and choices (log entries 41, 42, 59, 81). -/
def Obligations.MemoryControlWords : Prop :=
  (∀ (h : Hdr) (d a b e f : BitVec 6) (s : State), let c := wctx h s
      let g := c.snap
      let cx := s.ctxOf g
      let va := (g.spair a.toNat).toNat
      let n := (g.sreg b.toNat).toNat
      let lim := match s.kernels[g.kernel]? with | some k => k.h.xreg | none => 0
      let bare := specBare h .m
      Does (.lock h d a b) (specLock h d a b) s ((s.advance.onCtx cx fun x => { x with locks := (s.advance.lockOutcome cx va n).2 }).start c
        .ld 0 (.regs [d.toNat] [BitVec.ofNat 32 (s.advance.lockOutcome cx va n).1]) [] [d.toNat])
      ∧ Does (.unlock h a b) (specUnlock h a b) s ((s.advance.dropLocks cx (va / 512 * 512) n).start c .st 0 .posted [] [])
      ∧ (c.ready (.fenceSys 0) = false → Holds (.fenceSys h) bare s (.fenceSys g.nextOp))
      ∧ (c.ready (.fenceSys 0) = true → Does (.fenceSys h) bare s s.advance)
      ∧ (let now := s.windowOf cx
        (c.ready (.fenceWin 0) = false → now ≤ c.firstWindow now → Holds (.fenceWin h) bare s (.fenceWin (c.firstWindow now)))
        ∧ ((c.ready (.fenceWin 0) = true ∨ c.firstWindow now < now) → Does (.fenceWin h) bare s s.advance))
      ∧ (g.within d.toNat a.toNat b.toNat e.toNat = false →
        Holds (.waitc h d a b e) bare s (.waitc d.toNat a.toNat b.toNat e.toNat))
      ∧ (g.within d.toNat a.toNat b.toNat e.toNat = true →
        Does (.waitc h d a b e) bare s (group s fun g => g.clearPending c.snap.issued (boundOf d.toNat a.toNat b.toNat e.toNat)))
      ∧ (lim ≤ blockOf f → Unlawful (.acq h f) bare s 0x09 ∧ Unlawful (.rel h f) bare s 0x09)
      ∧ (blockOf f < lim → g.held.getLsbD (blockOf f) = true → Does (.acq h f) bare s s.advance)
      ∧ (blockOf f < lim → g.held.getLsbD (blockOf f) = false →
        (c.ready (.acq 0) = false → Holds (.acq h f) bare s (.acq (blockOf f)))
        ∧ (c.ready (.acq 0) = true → Does (.acq h f) bare s (group s fun g => g.takeBlock (blockOf f)))
        ∧ Does (.rel h f) bare s s.advance)
      ∧ (blockOf f < lim → g.held.getLsbD (blockOf f) = true →
        (∀ i, i < 8 → g.pendV.getD (32 + 8 * blockOf f + i) none = none) →
        Does (.rel h f) bare s (group s fun g => { g with held := g.held &&& ~~~(BitVec.ofNat 4 (2 ^ blockOf f)) })))
  ∧ (∀ (h : Hdr) (a b : BitVec 6) (s : State), let c := wctx h s
      let ok := canonical (c.snap.spair a.toNat).toNat
      let drop := fun r => (s.advance.dropTlb (s.advance.ctxOf c.snap) r).dropUnmapped (s.advance.ctxOf c.snap) r
      (ok = false → Raises (.tlbinvPage h a) (specTlbinv h (pairOf a)) s cPROT 2
        ∧ Raises (.tlbinvRange h a b) (specTlbinv h (pairOf a ++ [b.toNat])) s cPROT 2)
      ∧ (c.ready (.tlbinv 0) = false → Holds (.tlbinvAll h) (specTlbinv h []) s (.tlbinv c.snap.nextOp)
        ∧ (ok = true → Holds (.tlbinvPage h a) (specTlbinv h (pairOf a)) s (.tlbinv c.snap.nextOp)
          ∧ (invRange c 1 a b ≠ none → Holds (.tlbinvRange h a b) (specTlbinv h (pairOf a ++ [b.toNat])) s (.tlbinv c.snap.nextOp))))
      ∧ (ok = true → c.snap.sreg b.toNat = 0#32 → Does (.tlbinvRange h a b) (specTlbinv h (pairOf a ++ [b.toNat])) s s.advance)
      ∧ (c.ready (.tlbinv 0) = true → Does (.tlbinvAll h) (specTlbinv h []) s (drop none)
        ∧ (ok = true →
          Does (.tlbinvPage h a) (specTlbinv h (pairOf a)) s (drop (some ((c.snap.spair a.toNat).toNat / 65536 * 65536, 65536)))
          ∧ Does (.tlbinvRange h a b) (specTlbinv h (pairOf a ++ [b.toNat])) s
            (match invRange c 1 a b with | none => s.advance | some r => drop r))))

/-- R306 to R311: the words on a barrier cell that passes its checks: an arrival counts and, where it is the last, ends the phase; a wait
ends at once where the phase has passed, and a try-wait lasts 2^(h+5) clk. R313, R314: `barr.rem` sends an arrival through a link that its
entry allows, where the group's earlier accesses are made; where the group's earlier accesses are made, the arrival of a `gbar` that is
not the last waits for the generation to pass, and the last one advances it and waits for nothing. -/
def Obligations.BarrierWords : Prop :=
  (∀ (h : Hdr) (d a : BitVec 6) (p : Bool) (sc : BitVec 2) (hint : BitVec 3) (s s1 : State) (loc : Loc),
      let c := wctx h s
      let at_ := cellAddr c.snap a p
      let r := s1.readLoc loc 16
      let n := ofBytes r.2
      let x := arriveCell n
      let t := c.snap.sreg d.toNat
      blockedAccess c = false →
      (s.advance.cellLoc (s.advance.whoOf c.snap) p at_ .a = (s1, .ok loc) →
        Ends (.bar h d a p sc) (specBar h d a p) s (.wait (.bar p at_ x.1) ((r.1.putCell loc x.2).onGrp c.gi fun g => g.setS d.toNat x.1))
        ∧ Does (.barr h d a p sc) (specBarr h d a p) s ((r.1.putCell loc x.2).onGrp c.gi fun g => g.setS d.toNat x.1)
        ∧ Does (.phaseInit h d a p sc) (specPhaseInit h d a p) s (r.1.putCell loc (setFld (setFld n 31 0 0) 63 32 t.toNat)))
      ∧ (s.advance.cellLoc (s.advance.whoOf c.snap) p at_ .r = (s1, .ok loc) →
        Does (.phaseRd h d a p sc) (specPhaseRd h d a p) s (r.1.onGrp c.gi fun g => g.setS d.toNat (cellPh n))
        ∧ Does (.phaseArr h d a p sc) (specPhaseRd h d a p) s (r.1.onGrp c.gi fun g => g.setS d.toNat (BitVec.ofNat 32 (cellArr n)))
        ∧ (phasePassed (cellPh n) t = true →
          Does (.barw h d a p sc) (specBarw h d a p) s r.1
          ∧ Does (.bart h d a hint p sc) (specBart h d a p) s (r.1.onGrp c.gi fun g => g.setS d.toNat 1))
        ∧ (phasePassed (cellPh n) t = false →
          Ends (.barw h d a p sc) (specBarw h d a p) s (.wait (.barw p at_ t) r.1)
          ∧ (hint = 0#3 → Does (.bart h d a hint p sc) (specBart h d a p) s (r.1.onGrp c.gi fun g => g.setS d.toNat 0))
          ∧ (hint ≠ 0#3 → Ends (.bart h d a hint p sc) (specBart h d a p) s
              (.wait (.bart p at_ t d.toNat (r.1.clk + 2 ^ (hint.toNat + 5))) r.1)))))
  ∧ (∀ (h : Hdr) (d a : BitVec 6) (s : State), let c := wctx h s
      let g := c.snap
      let t := s.advance
      let e := t.cap g d.toNat
      let gen := t.generation g.kernel
      let v := ((t.onKernel g.kernel fun kn => { kn with arrived := addOnce kn.arrived c.gi }).gridCheck g.kernel).onGrp c.gi fun g =>
        g.setS d.toNat (BitVec.ofNat 32 gen)
      (∀ f, capFault e [kLINK] permS = some f → Raises (.barrRem h d a) (specBarrRem h a) s cCAP f)
      ∧ (capFault e [kLINK] permS = none → blockedAccess c = false → Does (.barrRem h d a) (specBarrRem h a) s
        ((t.useCap g d.toNat).transfer (t.ctxOf g) (capIdx e) .arrival (fun _ => g.spair a.toNat) [] none).1)
      ∧ (blockedAccess c = false → v.generation g.kernel ≤ gen → Ends (.gbar h d) (specGbar h d) s (.wait (.gbar gen) v))
      ∧ (blockedAccess c = false → gen < v.generation g.kernel → Does (.gbar h d) (specGbar h d) s v))

/-- R209, R211: `gang` of a member of no gang waits for its rendezvous, which its last member completes: the gang then waits for its
bands; of a formed gang's member with a count of 0 it waits for the gang to dissolve; with no gang there is nothing to dissolve. A request
that is not valid is GANG 4, one that asks for too many bands GANG 5; one whose gang stands already is held, as is every `gang` behind an
`mma` that waits. R229 to R231: a band word of a gang's member starts an operation counted in `tl` with its operands read at issue;
without a gang, or on an accumulator that the gang does not have, it is GANG 1. R232, R233: `tgset` writes a tag and keeps the register's
words, `tgget` reads a tag's parts. What the band words wait for, what an `acvt` keeps of its issue, and what is left of a rendezvous that
fails in part are the model's choices (log entries 5, 53, 56, 73). -/
def Obligations.GangWords : Prop :=
  (∀ (h : Hdr) (k : BitVec 3) (a b : BitVec 6) (s : State), let c := wctx h s
      let g := c.snap
      let t := s.advance.teamOf g
      let mask := (g.sreg a.toNat).toNat % 65536
      let lim := s.advance.gangLimits g
      let w := specGang h a
      (g.mmaWaits = true → Holds (.gang h k a b) w s .side)
      ∧ (g.mmaWaits = false →
        (b.toNat ≠ 0 → gangBad lim t g.idx k.toNat mask = true → Raises (.gang h k a b) w s cGANG 4)
        ∧ (b.toNat ≠ 0 → gangBad lim t g.idx k.toNat mask = false →
          (128 < b.toNat * popN 16 mask ∨ lim.2.1 < b.toNat * popN 16 mask) → Raises (.gang h k a b) w s cGANG 5)
        ∧ (b.toNat ≠ 0 → gangBad lim t g.idx k.toNat mask = false → b.toNat * popN 16 mask ≤ 128 → b.toNat * popN 16 mask ≤ lim.2.1 →
          (∃ x ∈ t.gangs, x.k = k.toNat) → Holds (.gang h k a b) w s (.gangWait k.toNat mask b.toNat))
        ∧ (b.toNat ≠ 0 → gangBad lim t g.idx k.toNat mask = false → (∀ x ∈ t.gangs, x.k ≠ k.toNat) → t.reqs = [] →
          b.toNat * popN 16 mask ≤ 128 → b.toNat * popN 16 mask ≤ lim.2.1 →
          Ends (.gang h k a b) w s (.wait (.gang k.toNat mask b.toNat) (s.advance.onTeam g.team fun t =>
            { t with reqs := [⟨c.gi, g.idx, k.toNat, mask, b.toNat, c.lanes, c.pc⟩] })))
        ∧ (b.toNat ≠ 0 → gangBad lim t g.idx k.toNat mask = false → (∀ x ∈ t.gangs, x.k ≠ k.toNat) →
          (∀ r ∈ t.reqs, s.advance.reqStands r = true ∧ r.gi ≠ c.gi ∧ r.k = k.toNat ∧ mask.testBit r.idx = true ∧ r.mask = mask
            ∧ r.nacc = b.toNat) → t.reqs.length + 1 = popN 16 mask →
          b.toNat * popN 16 mask ≤ 128 → b.toNat * popN 16 mask ≤ lim.2.1 →
          Ends (.gang h k a b) w s (.wait (.gang k.toNat mask b.toNat)
            { s.advance.onTeam g.team (fun t => { t with
                reqs := [], gangs := t.gangs ++ [⟨k.toNat, mask, b.toNat, false, [], s.meets⟩] }) with meets := s.meets + 1 }))
        ∧ (b.toNat = 0 → t.gangOf g.idx = none → Does (.gang h k a b) w s s.advance)
        ∧ ∀ x, b.toNat = 0 → t.gangOf g.idx = some x → Ends (.gang h k a b) w s (.wait (.ungang x.k) (s.advance.onTeam g.team fun t =>
            { t with gangs := t.gangs.map fun y => if y.k = x.k then { y with leaving := addOnce y.leaving g.idx } else y }))))
  ∧ (∀ (h : Hdr) (i acc : BitVec 3) (j d b c0 : BitVec 6) (dt n : BitVec 4) (noba nobb : Bool) (s : State), let c := wctx h s
      let g := c.snap
      let t := s.advance.teamOf g
      let off := (g.sreg b.toNat).toNat
      let all := [(Instr.acz h acc, specBand h [], ([] : List Nat), TileFn.acz), (.acanch h i acc j, specBand h [], [], .acanch (i ++ j)),
        (.acanchScalar h acc b, specBand h [b.toNat], [], .acanch ((g.sreg b.toNat).extractLsb' 0 9)),
        (.acvt h d acc b dt c0 n noba nobb, specAcvt h d b n noba, runOf d.toNat (n.toNat + 1),
          .acvt d.toNat (n.toNat + 1) c0.toNat dt.toNat noba nobb ((g.sreg b.toNat).extractLsb' 0 16) g.ovp g.cvth)]
      (∀ x y, t.gangOf g.idx = some y → acc.toNat < y.nacc → x ∈ all →
        Does x.1 x.2.1 s (s.advance.start c .tl 0 (.tile acc.toNat x.2.2.2) x.2.2.1 []))
      ∧ (∀ x, (∀ y, t.gangOf g.idx = some y → y.nacc ≤ acc.toNat) → x ∈ all → Raises x.1 x.2.1 s cGANG 1)
      ∧ ∀ y, t.gangOf g.idx = some y → acc.toNat < y.nacc → off % 16 = 0 → off + imageBytes ≤ s.advance.spSize g.kernel →
        Does (.acst h acc b) (specBand h [b.toNat]) s (s.advance.start c .tl 0 (.tile acc.toNat (.acst (g.sreg b.toNat))) [] [])
        ∧ Does (.acld h acc b) (specBand h [b.toNat]) s (s.advance.start c .tl 0 (.tile acc.toNat (.acld (g.sreg b.toNat))) [] []))
  ∧ (∀ (h : Hdr) (d a b : BitVec 6) (s : State), let c := wctx h s
      let g := c.snap
      let desc := (g.sreg a.toNat).extractLsb' 0 8
      (descReserved desc = false → Does (.tgset h d a b) (specTgset h d a b) s
        (group s fun x => x.setV d.toNat (x.vreg d.toNat) ⟨desc, g.sreg b.toNat⟩))
      ∧ (descReserved desc = true → Raises (.tgset h d a b) (specTgset h d a b) s cDOMAIN 3)
      ∧ PutsS (.tgget h d a 0#3) (specTgget h d a 0#3) s d ((g.tag a.toNat).desc.setWidth 32)
      ∧ PutsS (.tgget h d a 1#3) (specTgget h d a 1#3) s d (g.tag a.toNat).live
      ∧ ∀ x bd, (s.advance.teamOf g).gangOf g.idx = some x → a.toNat < x.nacc → g.bandFree a.toNat g.nextOp = true →
        (s.advance.teamOf g).band? x.k a.toNat (memberIx x.mask g.idx) = some bd →
        PutsS (.tgget h d a 2#3) (specTgget h d a 2#3) s d (BitVec.ofNat 32 bd.header)
        ∧ PutsS (.tgget h d a 3#3) (specTgget h d a 3#3) s d (BitVec.ofNat 32 (bd.header / 2 ^ 64))
        ∧ PutsS (.tgget h d a 4#3) (specTgget h d a 4#3) s d (BitVec.ofNat 32 (bd.header / 2 ^ 96)))

/-- R213 to R220: an `mma` of a gang's member that keeps no operand, or the one that it names, with its registers not pending, its
operand's tags as R235 wants, its accumulator cleared first or of a matching tag, behind no ordered atomic, and fewer than four that are
not complete, latches its operand, opens its region and waits at its rendezvous, which the last member completes. That an `mma` is not
held back by the group's other matrix operations, and what its checks wait for, are the model's readings (log entries 42, 58). -/
def Obligations.MmaWords : Prop :=
  ∀ x ∈ mmas, ∀ (h : Hdr) (reuse : Bool) (acc : BitVec 3) (a b sa : BitVec 6) (sel : BitVec 2) (bsp clr : Bool) (s : State) (y : Gang),
    let plain := x.1 = .i8 ∨ x.1 = .bf16 ∨ x.1 = .f16
    let sa := if plain then 0#6 else sa
    let sel := if plain ∨ x.1 = .e2m1 then 0#2 else sel
    let w := mmaSpec h x.1 a b sa
    let c := wctx h s
    let g := c.snap
    let t := s.teamOf g
    let l := match g.keptA with | some k => k | none => latchOf g x.1 a sa sel
    let op : MmaOp := { fmt := x.1, acc := acc.toNat, reuse := reuse, bsp := bsp, clr := clr, sa := sa.toNat, sel := sel.toNat, a := a.toNat,
                        breg := b.toNat, boff := g.sreg b.toNat, hc := h.c, hg := h.g, latch := l, prev := g.keptA }
    let s1 := (s.advance.start c .tl c.lanes (.mma op g.mmaCount) [] []).onGrp c.gi fun g =>
      { g with mmaCount := g.mmaCount + 1, keptA := if reuse then some l else none }
    let dom := g.domAt t y.k acc.toNat (memberIx y.mask g.idx)
    extBad w g = false → c.lanes ≠ 0#32 → t.gangOf g.idx = some y → acc.toNat < y.nacc →
    (g.keptA = none → leastOf (pendingOf w g) = none ∧ runTagsOk g x.1 a = true) →
    (∀ k, g.keptA = some k → k.fmt = x.1 ∧ k.a = a.toNat ∧ k.sa = sa.toNat ∧ k.sel = sel.toNat
      ∧ leastOf (pendingOf { w with vr := [] } g) = none) →
    (clr = false → g.loading acc.toNat = false ∧ (dom.2 = true ∨ domAgrees l.desc dom.1 = true)) →
    c.now.cnt .tl < 63 → sideHeld g true = false → c.ownOrd = false →
    (g.ops.filter fun o => !o.done && (match o.kind with | .mma _ _ => true | _ => false)).length < 4 →
    ∃ u, exec (x.2 h reuse acc a b sa sel bsp clr) s = .next u ∧ u.still = ((s1.region c 0#32).meets4 g.team y).still

/-- R244 to R247, R242: the one-word forms of WAVE start an operation counted in `tl` with the results formed from the sources at issue. A
threshold register with MODE 3 is ILLEGAL FUNC, the lowest code, whether or not a lane issues (R24, R41). R243, R248 to R251: `stw` writes
the slots of its register runs and `ldw` reads them, each where the group's earlier accesses are made, every granule of the extent is
accessible, the bytes that it accesses have no error and, for `ldw`, every slot's header is consistent. Behind an access of an earlier
slot of its own chain a word issues, and its accesses are made when they may be (R32); behind one of an earlier word it is held. A
threshold register with MODE 3 is ILLEGAL FUNC for `stw`, the lowest code, whether or not a lane issues (R24, R41, R242). That a stored
segment is read or written when its word issues, what it waits for, and that a port in training holds it, are the model's choices (log
entries 5, 53, 84). -/
def Obligations.CoefficientWords : Prop :=
  (∀ (h : Hdr) (m : Bool) (d a : BitVec 6) (s : State), let c := wctx h s
      let g := c.snap
      let t := g.tag a.toNat
      (∀ u sc x (l : BitVec 3), Does (.wvf h m d a u sc x l) (specWv h d a) s <|
        let r := forwardReg (if u then .sum else if sc then .str else .avg) g.ovp l.toNat (g.rows a.toNat)
        s.advance.startWave c m [(d.toNat, r.1, if u then Tag.spatial else valueTag l.toNat x (if sc then mSTR else 0) r.1)] r.2 [d.toNat])
      ∧ Does (.wvi h m d a) (specWv h d a) s
        (let r := inverseReg t g.ovp (g.vreg a.toNat)
        s.advance.startWave c m [(d.toNat, r.1, Tag.spatial)] r.2 [d.toNat])
      ∧ ∀ n : BitVec 3, let th := g.wth.getD n.toNat 0
        (modeBad th = true → Unlawful (.wthr h d a n) (specWv h d a) s 0x02)
        ∧ (modeBad th = false → (t.haar = false ∨ descM t.desc = mSTR) → Raises (.wthr h d a n) (specWv h d a) s cDOMAIN 4)
        ∧ (modeBad th = false → t.haar = true → descM t.desc ≠ mSTR → Does (.wthr h d a n) (specWv h d a) s (
          let v := thresholdReg th (descL t.desc) (g.vreg a.toNat)
          s.advance.startWave c true [(d.toNat, v, valueTag (descL t.desc) (descX t.desc) (n.toNat + 1) v)] (Vector.replicate 32 0) [d.toNat])))
  ∧ (∀ (h : Hdr) (m : Bool) (d b : BitVec 6) (mode : BitVec 2) (l : BitVec 3) (x sc t : Bool) (n : BitVec 3) (rw : BitVec 4)
      (s s1 s2 s3 s4 s5 s6 : State) (g0 : List Byte) (hs slots : List (List Byte)), let c := wctx h s
      let w := rw.toNat + 1
      let sb := slotBase c mode b
      let u := s.advance.whoOf c.snap
      let th := c.snap.wth.getD n.toNat 0
      let L := l.toNat
      let cs := (runOf d.toNat w).map fun r => coeffReg c.snap L x sc r
      let bytes :=
        let desc := mkDesc L x (if sc then mSTR else if t then n.toNat + 1 else 0)
        (List.range (32 / 2 ^ L)).flatMap fun g =>
          slotImage desc L w (if t then some th else none) sc
            ((List.range (2 ^ L)).map fun o => cs.map fun v => v.1.toList.getD (g * 2 ^ L + o) 0)
      let fl : PerLane (BitVec 5) := Vector.ofFn fun i => cs.foldl (fun f v => f ||| v.2[i]) 0#5
      let granules := 32 / 2 ^ L * slotBytes L w / 16
      ((t && modeBad th) = true → Unlawful (.stw h m d b mode l x sc t n rw) (specStw h d b mode rw) s 0x02)
      ∧ (c.groupBlocked = true → c.priorBlocked = true → Holds (.ldw h d b mode rw) (specLdw h d b mode rw) s c.blockKind
        ∧ ((t && modeBad th) = false → Holds (.stw h m d b mode l x sc t n rw) (specStw h d b mode rw) s c.blockKind))
      ∧ (c.groupBlocked = true → c.priorBlocked = false →
        Does (.ldw h d b mode rw) (specLdw h d b mode rw) s (s.advance.start c .tl 0
          (.seg ⟨sb.1, sb.2, true, d.toNat, w, [], 0, true, Vector.replicate 32 0⟩) (runOf d.toNat w) [])
        ∧ ((t && modeBad th) = false → Does (.stw h m d b mode l x sc t n rw) (specStw h d b mode rw) s (s.advance.start c .tl 0
          (.seg ⟨sb.1, sb.2, false, 0, w, bytes, granules, m, fl⟩) [] [])))
      ∧ (c.groupBlocked = false → ((t && modeBad th) = false →
        s.advance.scanExtent u sb.1 .w sb.2 granules (List.range granules) = (s1, none) →
        Does (.stw h m d b mode l x sc t n rw) (specStw h d b mode rw) s ((s1.writeVa u sb.1 sb.2 bytes none).1.startWave c m [] fl []))
      ∧ (s.advance.scanExtent u sb.1 .r sb.2 1 [0] = (s1, none) → s1.readVa u sb.1 sb.2 16 .r = (s2, .ok g0) →
        let desc := fld (slotHeader g0).1 31 24
        let L := desc / 32
        let z := slotBytes L w
        let k := 32 / 2 ^ L
        let len := fun i => 8 + 4 * w * popN 32 (slotHeader (hs.getD i [])).2
        let mask := fun i => (slotHeader (slots.getD i [])).2
        descReserved (BitVec.ofNat 8 desc) = false → desc / 32 ≠ 0 →
        s2.scanExtent u sb.1 .r sb.2 (k * z / 16) ((List.range k).map fun i => i * z / 16) = (s3, none) →
        readSlots s3 u sb.1 sb.2 z (fun _ => 16) k = (s4, hs) → (∀ i, i < k → slotFault L w desc (slotHeader (hs.getD i [])) = none) →
        s4.lateScan u sb.1 .r sb.2 ((List.range k).flatMap fun i => (List.range ((len i + 15) / 16)).map fun j => i * z / 16 + j) = (s5, none) →
        readSlots s5 u sb.1 sb.2 z len k = (s6, slots) →
        Does (.ldw h d b mode rw) (specLdw h d b mode rw) s
          (s6.startWave c true ((List.range w).map fun r =>
            (d.toNat + r, Vector.ofFn fun (l : Fin 32) =>
              slotWord (slots.getD (l.val / 2 ^ L) []) w (mask (l.val / 2 ^ L)) (l.val % 2 ^ L) r,
              (⟨BitVec.ofNat 8 desc, BitVec.ofNat 32 (((List.range k).map fun i => mask i * 2 ^ (i * 2 ^ L)).foldl (· + ·) 0)⟩ : Tag)))
            (Vector.replicate 32 0) (runOf d.toNat w)))))

/-- R269, R270: `board` with a valid request, an entry and a run of bytes that are free, behind no earlier request of its cluster, makes a
boarding and answers its handle: entry, offset, launch and generation. A request that is not valid answers its status; with no room, or
behind another request, or with 63 boardings outstanding, it is held. R277, R278: a handle that names no boarding answers 3 or 5; a
boarding that has not ended answers 4 to `btry` and holds `bwait`, which answers CANCELLED where a handler has freed it meanwhile (R283);
one that has ended answers its result, and its bytes may be read; `bfree` frees the entry. R279: `lapr` reads the lap and the position,
the lap's high bits, the length, the governor's g, and the context's missed and poisoned counts. The first GEN of an entry, and that a
pending cut of a track share does not narrow the program that `board` tests, are the model's choices (log entries 43, 90). -/
def Obligations.RingWords : Prop :=
  ∀ (h : Hdr) (d a b mr : BitVec 6) (all : Bool) (s : State), let c := wctx h s
    let g := c.snap
    let t := s.advance
    let layer := (g.sreg a.toNat).toNat
    let f := (g.sreg b.toNat).toNat % 65536
    let n := (g.sreg b.toNat).toNat / 65536
    let p := t.ring.nextProg (t.ctxOf g)
    let st := boardStatus p layer f n (g.sreg mr.toNat).toNat all
    let cl := g.core / 4
    let hd := g.sreg a.toNat
    let w := specBoard h d a b mr all
    let first := c.ready .board = true ∨ ∀ x ∈ t.boardQueue cl, x = c.gi
    let free : WordSpec := { h := h, pipe := .x, sr := [a.toNat] }
    (st.1 ≠ 0 → PutsS (.board h d a b mr all) w s d (BitVec.ofNat 32 (st.1 * 2 ^ 29)))
    ∧ (∀ pr, st.1 = 0 → p = some pr →
      let fmt := match pr.rows[layer]? with | some r => r.fmt | none => 0
      let ts := tracksOf st.2
      let run := t.ring.freeRun cl (n * ts.length * tileBytes fmt)
      (∀ e off, c.now.cnt .cp < 63 → first → t.ring.freeEntry cl = some e → run = some off →
        let r := t.newBoarding c.gi pr layer f n ts e off (t.grp c.gi).nextOp
        Does (.board h d a b mr all) w s ((r.1.start c .cp 0 (.board cl e r.2) [] []).onGrp c.gi fun x =>
          x.setS d.toNat (BitVec.ofNat 32 (e * 2 ^ 21 + off / 512 * 2 ^ 9 + g.epoch % 16 * 32 + r.2))))
      ∧ (63 ≤ c.now.cnt .cp → Holds (.board h d a b mr all) w s (.counter .cp))
      ∧ (c.now.cnt .cp < 63 → (¬first ∨ t.ring.freeEntry cl = none ∨ run = none) → Holds (.board h d a b mr all) w s .board))
    ∧ (∀ e, t.handle c.gi hd = .error e →
      PutsS (.bwait h d a) (specAsk h d a) s d (if e = 3 then (c.freedBoard hd).getD (resWord e none) else resWord e none)
      ∧ PutsS (.btry h d a) (specAsk h d a) s d (resWord e none)
      ∧ Does (.bfree h a) free s t)
    ∧ (∀ x, t.handle c.gi hd = .ok x →
      (x.open_ = true → Holds (.bwait h d a) (specAsk h d a) s (.bwait hd none)
        ∧ PutsS (.btry h d a) (specAsk h d a) s d (resWord 4 (some x)))
      ∧ (x.open_ = false → ∀ i ∈ [Instr.bwait h d a, .btry h d a],
        (x.st = .done ∨ x.st = .poisoned → Does i (specAsk h d a) s
          ((t.onBoard x.cluster x.ent fun y => { y with readable := true }).onGrp c.gi fun g =>
            g.setS d.toNat (resWord (if x.st = .done then 0 else 1) (some x))))
        ∧ (x.st = .cancelled → PutsS i (specAsk h d a) s d (resWord 2 (some x))))
      ∧ Does (.bfree h a) free s ((t.boardEnd x .free).onGrp c.gi fun g =>
          { g with stall := g.stall.map fun w => w.freed hd (resWord x.res (some x)) }))
    ∧ PutsSpair (.lapr h d 0#3) (specLapr h d 0#3) s d (pair (BitVec.ofNat 32 s.ring.lap) (BitVec.ofNat 32 s.ring.pos))
    ∧ PutsS (.lapr h d 1#3) (specLapr h d 1#3) s d (BitVec.ofNat 32 (s.ring.lap / 2 ^ 32 % 65536))
    ∧ PutsS (.lapr h d 2#3) (specLapr h d 2#3) s d (BitVec.ofNat 32 s.ring.len)
    ∧ PutsS (.lapr h d 3#3) (specLapr h d 3#3) s d (BitVec.ofNat 32 s.ring.g)
    ∧ PutsS (.lapr h d 4#3) (specLapr h d 4#3) s d (BitVec.ofNat 32 (s.ctx (s.ctxOf g)).missed)
    ∧ PutsS (.lapr h d 5#3) (specLapr h d 5#3) s d (BitVec.ofNat 32 (s.ctx (s.ctxOf g)).poisoned)

/-- R300 to R303: `send` to a queue, a link's peer or a mailbox and `recv` from one, through an entry of the capability table that allows
it; an entry that does not is CAP. R302, R303, R400, R402 to R406: a job card and a page operation are submitted through an entry of the
capability table, where a job slot of the core is free and no group waits for one; `jstat` reads a job of its context, the uses that are
left of an entry, and of a mailbox how many messages have claimed a slot and not been received, 0 where its header cannot be read. The
order of checks that the spec leaves open is the model's (log entry 42). -/
def Obligations.ChannelWords : Prop :=
  (∀ (h : Hdr) (d a b : BitVec 6) (s : State), let c := wctx h s
      let g := c.snap
      let t := s.advance
      let e := t.cap g a.toNat
      let cx := t.ctxOf g
      let id := (t.grp c.gi).nextOp
      let u := t.whoOf g
      let data := sendPayload g b
      (∀ f, capFault e [kMBOX, kQUEUE, kLINK] permS = some f → Raises (.send h a b) (specSend h b) s cCAP f)
      ∧ (∀ f, capFault e [kMBOX] permRV = some f → Raises (.recv h d a) (specRecv h d) s cCAP f)
      ∧ (capFault e [kMBOX, kQUEUE, kLINK] permS = none → blockedAccess c = false →
        (capKind e = kQUEUE → Does (.send h a b) (specSend h b) s
          (((t.useCap g a.toNat).start c .cp 0 .send [] []).postEntry cx ⟨capIdx e, data, some (c.gi, id), none⟩))
        ∧ (∀ s1 s2 w, capKind e = kMBOX → t.checkCells u (mboxCells (capAddr e) (capDep e)) = (s1, none) →
          s1.claim u (capAddr e).toNat = (s2, .ok w) → Does (.send h a b) (specSend h b) s
            { (s2.useCap g a.toNat).start c .cp c.lanes .send [] [] with
              msgs := s2.msgs ++ [⟨cx, mboxSlot (capAddr e) (capDep e) w, data, some (c.gi, id), none⟩] })
        ∧ ∀ r, capKind e = kLINK → ((t.useCap g a.toNat).start c .cp 0 .send [] []).transfer cx (capIdx e) .message (fun p => p.rmbx)
            (toBytes 16 data.toNat) (some (c.gi, id)) = (r, true) → Does (.send h a b) (specSend h b) s r)
      ∧ (∀ s1 s2 q, capFault e [kMBOX] permRV = none → blockedAccess c = false →
        t.checkCells u (mboxCells (capAddr e) (capDep e)) = (s1, none) → s1.claim u ((capAddr e).toNat + 4) = (s2, .ok q) →
        Does (.recv h d a) (specRecv h d) s ((s2.useCap g a.toNat).start c .ld 0
          (.recv d.toNat (mboxSlot (capAddr e) (capDep e) q)) [] (runOf d.toNat 4))))
  ∧ (∀ (h : Hdr) (d a b : BitVec 6) (s : State) (n : Nat), let c := wctx h s
      let g := c.snap
      let t := s.advance
      let e := t.cap g a.toNat
      let off := (g.sreg b.toNat).toNat
      let id := (t.grp c.gi).nextOp
      let v := (t.useCap g a.toNat).start c .cp 0 .job [] []
      let free := fun (v : State) => v.freeSlot g.core = some n ∧ ∀ gi ∈ v.slotQ, (v.grp gi).core ≠ g.core
      (capFault e [kCOPY, kGATHER, kCOLL, kCONC, kPAGEENG] permJ = none → off % 64 = 0 → off + 256 ≤ t.spSize g.kernel →
        blockedAccess c = false → free v → (∀ k f, t.cardLink g (capKind e) (t.cardAt g.team off) ≠ some (k, some f)) →
        Does (.job h d a b) (specJob h d b) s (v.submitCard c.gi d.toNat id (capKind e) (capIdx e) off n))
      ∧ (∀ x ∈ pages, x.1 ≠ 0x43 → capFault e [kPOOL] permP = none → blockedAccess c = false → free v →
        Does (x.2 h d a b) (specPg h d b) s (v.submitPage c.gi d.toNat id x.1 (capIdx e) (g.spair b.toNat) (g.sreg (b.toNat + 2)).toNat
          (g.sreg (b.toNat + 3)).toNat (capIdx (t.cap g ((g.sreg (b.toNat + 3)).toNat % 64))) n))
      ∧ (let lk := (g.sreg (b.toNat + 3)).toNat
        let v := ((t.useCap g a.toNat).useCap g (lk % 64)).start c .cp 0 .job [] []
        capFault e [kPOOL] permP = none → capFault (t.cap g (lk % 64)) [kLINK] permS = none → blockedAccess c = false → free v →
        Does (.pghand h d a b) (specPg h d b) s (v.submitPage c.gi d.toNat id 0x43 (capIdx e) (g.spair b.toNat)
          (g.sreg (b.toNat + 2)).toNat lk (capIdx (t.cap g (lk % 64))) n))
      ∧ PutsS (.jstat h d a 0#3) (specJstat h d a 0#3) s d
          (match t.jobOf (t.ctxOf g) (g.sreg a.toNat) with | some j => j.word | none => 0xf)
      ∧ PutsS (.jstat h d a 1#3) (specJstat h d a 1#3) s d
          (match t.jobOf (t.ctxOf g) (g.sreg a.toNat) with | some j => j.counts | none => 0)
      ∧ PutsS (.jstat h d a 2#3) (specJstat h d a 2#3) s d
          (match t.jobOf (t.ctxOf g) (g.sreg a.toNat) with | some j => BitVec.ofNat 32 j.granules | none => 0)
      ∧ (capKind e ≠ kMBOX → PutsS (.jstat h d a 5#3) (specJstat h d a 5#3) s d 0)
      ∧ (∀ s1 f, capKind e = kMBOX → t.fetch (t.whoOf g) .gl (capAddr e).toNat 8 .r = (s1, .error f) →
        Does (.jstat h d a 5#3) (specJstat h d a 5#3) s (s1.onGrp c.gi fun g => g.setS d.toNat 0))
      ∧ (∀ s1 bs, capKind e = kMBOX → t.fetch (t.whoOf g) .gl (capAddr e).toNat 8 .r = (s1, .ok bs) →
        Does (.jstat h d a 5#3) (specJstat h d a 5#3) s (s1.onGrp c.gi fun g =>
          g.setS d.toNat (BitVec.ofNat 32 (ofBytes (bs.take 4)) - BitVec.ofNat 32 (ofBytes (bs.drop 4)))))
      ∧ PutsS (.jstat h d a 4#3) (specJstat h d a 4#3) s d (BitVec.ofNat 32 (capAllow e)))

/-- R407, R408: `catld` of an entry that can be read, without writing, answers the entry with the state of its page; `catst` writes an
entry that R408 allows, and the page's record keeps its token count; an entry that is not valid is written alone. The order of checks that
the spec leaves open, that a catalogue is read and written when its word issues, and what it waits for are the model's choices (log
entries 5, 42, 53). -/
def Obligations.CatalogueWords : Prop :=
  ∀ (h : Hdr) (d a b : BitVec 6) (s s1 s2 : State) (p : Pool) (hd : CatHdr) (e : Nat) (r : PRec), let c := wctx h s
    let g := c.snap
    let t := s.advance
    let cap := t.cap g a.toNat
    let u := t.whoOf g
    let cx := t.ctxOf g
    let cat := (g.spair b.toNat).toNat
    let i := (g.sreg (b.toNat + 2)).toNat
    let v := (g.spair d.toNat).toNat
    let new := mkEntry (ePage v) (eDom v) (eNtok v) (eValid v)
    let t1 := t.useCap g a.toNat
    capFault cap [kPOOL] permP = none → blockedAccess c = false → (t1.ctx cx).pool? (capIdx cap) = some p →
    t1.catHdr u cat = (s1, .ok hd) → cat % 64 = 0 → i < hd.cmax → hd.pool = capIdx cap →
      (s1.catRead u cat i = (s2, .ok e) → eValid e = true → s2.pageRec cx p (ePage e) = .ok r → g.sreg (b.toNat + 3) = 0#32 →
        Does (.catld h d a b) (specCatld h d b) s (s2.catDone c d.toNat (catValue e r (catSt e r false))))
      ∧ (eValid new = true → ePage new < p.np → s1.pageRec cx p (ePage new) = .ok r → catstBad p (some r) new = false →
        s1.catWrite u cat i new (some (max hd.nv (i + 1))) none = (s2, none) →
        Does (.catst h d a b) (specCatst h d b) s
          ((s2.putRec cx p (ePage new) (r.stored (eNtok new) (2 ^ p.l))).start c .st 0 .posted [] []))
      ∧ (eValid new = false → catstBad p none new = false → s1.catWrite u cat i new none none = (s2, none) →
        Does (.catst h d a b) (specCatst h d b) s (s2.start c .st 0 .posted [] []))

/-- R363 to R370: the SEQ words on a record of the context: reads and writes of its words, its end, its tokens and drafts, the stop check
and the checkpoint. What the record's state does not admit is PROT 8: `seqst`, `retire` and `retire.mig` of a sequence that is not active,
`tokput` and `stopck` of one that is not prefilling, decoding or verifying, a second `tokput` of a lap or one before the prompt is read,
`ckpt` without a checkpoint area or past its slots. `accept` answers 3 where it decides nothing, and `draft` writes 0 where it takes none.
R364: `admit` of a readable request that the context can take answers the handle; one that finds no record free answers all ones; one of
whose bytes a port in training holds waits (R468). The order of checks that a word of SEQ makes, the alignment of a draft list, the
checkpoint area's address, and which accesses a port in training holds, are the model's readings and choices (log entries 39, 42, 67, 84). -/
def Obligations.SequenceAndAdmission : Prop :=
  (∀ (h : Hdr) (d a b : BitVec 6) (s : State) (q : Seq), let c := wctx h s
      let g := c.snap
      let t := s.advance
      let put := fun (s : State) (n : Nat) => s.onGrp c.gi fun g => g.setS d.toNat (BitVec.ofNat 32 n)
      let k := b.toNat
      let writable := (12 ≤ k ∧ k ≤ 16) ∨ k = 45
      let active := qAdmitted ≤ q.st ∧ q.st ≤ qParked
      let tokens := q.st = qPrefilling ∨ q.st = qDecoding ∨ q.st = qVerifying
      let unread := q.st = qPrefilling ∧ q.pfx ≠ q.plen
      blockedAccess c = false → seqAt t (t.ctxOf g) (g.sreg a.toNat).toNat = some q →
        Does (.seqld h d a b) (specSeqld h d a) s (t.start c .ld 0 (.regs [d.toNat] [q.w.getD b.toNat 0]) [] [d.toNat])
        ∧ (¬writable → Raises (.seqst h d a b) (specSeqst h d a) s cPROT 7)
        ∧ (writable → ¬active → Raises (.seqst h d a b) (specSeqst h d a) s cPROT 8)
        ∧ (writable → active → Does (.seqst h d a b) (specSeqst h d a) s
          ((t.onSeq q.slot fun q => q.setWord b.toNat (g.sreg d.toNat).toNat).start c .st 0 .posted [] []))
        ∧ (active → Does (.retire h a b) (specRetire h a b) s (
          let e := reasonOf ((g.sreg b.toNat).toNat % 256)
          (t.seqEnd q (if e = 0 then 4 else e) qFinishing).start c .st 0 .posted [] []))
        ∧ (¬active → Raises (.retire h a b) (specRetire h a b) s cPROT 8 ∧ Raises (.retireMig h a b) (specPairSt h a b) s cPROT 8)
        ∧ (∀ s1 loc, active →
          let x := (g.spair b.toNat).toNat
          t.locate (t.whoOf g) { space := .gl, bytes := 64, acc := .w, align := 16 } (BitVec.ofNat 64 (x / 2 * 2)) = (s1, .ok loc) →
          Does (.retireMig h a b) (specPairSt h a b) s ((s1.onSeq q.slot fun q =>
            { ((q.leave qMigOut).setFlg 2 (x % 2 = 1)) with image := x / 2 * 2, outDue := true }).start c .st 0 .posted [] []))
        ∧ (tokens → PutsS (.stopck h d a b) (specStopck h d a b) s d (BitVec.ofNat 32 (q.stopck (g.sreg b.toNat).toNat)))
        ∧ (¬tokens → Raises (.stopck h d a b) (specStopck h d a b) s cPROT 8)
        ∧ (¬tokens ∨ q.flg 0 = true ∨ unread → Raises (.tokput h d a b) (specTokput h d a b) s cPROT 8)
        ∧ (tokens → q.flg 0 = false → ¬unread →
          let tok := (g.sreg b.toNat).toNat
          let e := q.endReason (reasonOf ((g.sreg d.toNat).toNat % 256))
          let id := (t.grp c.gi).nextOp
          let v := (t.onSeq q.slot fun _ => q.append tok e true).start c .st 0 .tokput [] []
          ((v.ctx q.ctx).queue (q.byte 15)).kind = .output →
          Does (.tokput h d a b) (specTokput h d a b) s (v.tokenOut (q.append tok e true) e tok (some (c.gi, id))))
        ∧ (tokens → q.flg 0 = false → ¬unread →
          let e := q.endReason (reasonOf ((g.sreg d.toNat).toNat % 256))
          let v := (t.onSeq q.slot fun _ => q.append (g.sreg b.toNat).toNat e true).start c .st 0 .tokput [] []
          ((v.ctx q.ctx).queue (q.byte 15)).kind ≠ .output →
          Does (.tokput h d a b) (specTokput h d a b) s (v.complete c.gi (t.grp c.gi).nextOp))
        ∧ (q.st ≠ qVerifying ∨ q.flg 0 = true ∨ q.flg 1 = true ∨ (g.sreg b.toNat).toNat ≠ q.di ∨ q.nd ≤ q.di →
          Does (.accept h d a b) (specAccept h d a b) s (put t 3))
        ∧ (q.st = qVerifying → q.flg 0 = false → q.flg 1 = false → (g.sreg b.toNat).toNat = q.di → q.di < q.nd →
          acceptTest (g.sreg (b.toNat + 1)).toNat (g.sreg (b.toNat + 2)).toNat (q.word 15) (q.word 16) = false →
          Does (.accept h d a b) (specAccept h d a b) s
            (put (t.onSeq q.slot fun _ => (q.setByte 19 (q.di + 1)).setFlg 1 true) 0))
        ∧ (q.st = qVerifying → q.flg 0 = false → q.flg 1 = false → (g.sreg b.toNat).toNat = q.di → q.di < q.nd →
          acceptTest (g.sreg (b.toNat + 1)).toNat (g.sreg (b.toNat + 2)).toNat (q.word 15) (q.word 16) = true →
          let tok := q.drafts.getD (g.sreg b.toNat).toNat 0
          let e := q.endReason (q.stopck tok)
          let q2 := (q.setByte 19 (q.di + 1)).append tok e false
          let v := t.onSeq q.slot fun _ => q2
          Does (.accept h d a b) (specAccept h d a b) s
            (put (if ((v.ctx q.ctx).queue (q.byte 15)).kind = .output then v.tokenOut q2 e tok none else v) (if e ≠ 0 then 2 else 1)))
        ∧ ((q.st ≠ qDecoding ∧ q.st ≠ qVerifying) ∨ q.flg 0 = true → Does (.draft h d a b) (specDraft h d a b) s
          (t.start c .ld 0 (.regs [d.toNat] [0]) [] [d.toNat]))
        ∧ (∀ s1 s2 n bs, (q.st = qDecoding ∨ q.st = qVerifying) → q.flg 0 = false →
          let va := (g.spair b.toNat).toNat
          let k := min (ofBytes n) (s1.seqClass q).k
          va % 4 = 0 → t.readVa (t.whoOf g) .gl va 4 .r = (s1, .ok n) →
          s1.readVa (t.whoOf g) .gl (va + 4) (4 * k) .r = (s2, .ok bs) →
          Does (.draft h d a b) (specDraft h d a b) s
            ((s2.onSeq q.slot fun q => (List.range k).foldl (fun q i => q.setWord (34 + i) ((wordsOf bs).getD i 0)) (q.setByte 133 k)).start
              c .ld 0 (.regs [d.toNat] [BitVec.ofNat 32 k]) [] [d.toNat]))
        ∧ (q.ckptAt = 0 ∨ 8 < (g.sreg b.toNat).toNat → Raises (.ckpt h a b) (specPairSt h a b) s cPROT 8)
        ∧ (∀ s1 loc, let j := (g.sreg b.toNat).toNat
          q.ckptAt ≠ 0 → j ≤ 8 →
          t.locate (t.whoOf g) { space := .gl, bytes := 40, acc := .a, align := 4 } (BitVec.ofNat 64 q.ckptAt) = (s1, .ok loc) →
          s1.heldFault (t.whoOf g) loc 40 = none →
          let r := s1.readLoc loc 40
          let v := fieldAt r.2 0 4
          Does (.ckpt h a b) (specPairSt h a b) s ((r.1.writeLoc loc (toBytes 4 (if v.testBit j then v else v + 2 ^ j)
            ++ ((r.2.drop 4).take (4 * j)) ++ toBytes 4 (g.sreg (b.toNat + 1)).toNat ++ r.2.drop (8 + 4 * j))).start c .st 0 .posted [] [])))
  ∧ (∀ (h : Hdr) (d a : BitVec 6) (s s1 : State) (loc : Loc), let c := wctx h s
      let t := s.advance
      let g := c.snap
      let put := fun (s : State) (x : Nat) => (s.onGrp c.gi fun g => g.setS d.toNat (BitVec.ofNat 32 x)).start c .st 0 .posted [] []
      blockedAccess c = false →
      t.locate (t.whoOf g) { space := .gl, bytes := 64, acc := .r } (g.spair a.toNat) = (s1, .ok loc) →
      s1.heldFault (t.whoOf g) loc 64 = none →
      let r := s1.readLoc loc 64
      (r.1.requestHeld (t.ctxOf g) r.2 = true → Holds (.admitSeq h d a) (specAdmit h d a) s .side)
      ∧ (r.1.requestHeld (t.ctxOf g) r.2 = false →
      (∀ v x, r.1.takeRequest (t.ctxOf g) r.2 = .ok v x → Does (.admitSeq h d a) (specAdmit h d a) s (put v x))
      ∧ ∀ v, r.1.takeRequest (t.ctxOf g) r.2 = .full v → Does (.admitSeq h d a) (specAdmit h d a) s (put v 0xffffffff)))

/-- R87, R114, R181, R389, R92, R270, R307, R309, R311: the events that end a group's wait, each where its condition holds; a `fence.sys`
waits on while a port that is out has dirty lines of the group's own stores to come, and a repeated read that fails faults the lanes of
its wait. R94, R92, R170, R212, R277, R312: a TIMEOUT whose condition holds is raised, outside handler mode, as the group's pending fault
with its detail; one whose condition does not hold changes nothing. How the model counts clk, and what a failed repeated read of a cell
does, are its own choices, and that a `fence.sys` waits for the dirty lines that hold its group's stores is its reading (log entries 11,
46, 52, 62). -/
def Obligations.GroupWaits : Prop :=
  (∀ (s : State) (gi : Nat) (t : Stall),
      let g := s.grp gi
      (∀ n, g.status = .sleeping (some n) → n ≤ s.clk →
        exec (.sleepWake gi) s = .next (s.onGrp gi fun g => { g with status := .running }))
      ∧ (g.cur = some t →
        (∀ n, t.kind = .fenceSys n → g.storesDone n = true →
          let mine := fun (x : Owner) => decide (x = (s.whoOf g).owner)
          exec (.fenceSysComplete gi) s
            = .next (if (s.writeBack mine).flushed mine then (s.writeBack mine).onGrp gi Group.ended else s.writeBack mine))
        ∧ (∀ n, t.kind = .tlbinv n → g.storesDone n = true → exec (.tlbinvComplete gi) s = .next (s.onGrp gi Group.ended)))
      ∧ (∀ cx n, g.cur = some t → t.kind = .fenceWin n → s.ctxOf g = cx → n < s.windowOf cx → gi < s.groups.length →
        ∃ u, exec (.windowBoundary cx) s = .next u ∧ u.grp gi = g.ended ∧ u.mem = s.mem)
      ∧ (∀ core, s.firstAcq core = some gi → s.freeBlocks core ≠ 0 →
        exec (.acqGrant core) s = .next { s.onGrp gi Group.ended with acqQ := s.acqQ.filter fun x => x != gi })
      ∧ (∀ cl rest, s.boardQueue cl = gi :: rest → exec (.boardGrant cl) s = .next (s.onGrp gi Group.ended))
      ∧ (∀ w s1, g.cur = some t → t.kind.cell? = some w → s.onCore gi = true →
        (s.cellPassed gi w = (s1, .ok true) → exec (.barrierWaitComplete gi) s = .next ((s1.onGrp gi fun g => g.endBart 1).settle gi false))
        ∧ (s.cellPassed gi w = (s1, .ok false) → exec (.barrierWaitComplete gi) s = .next s1)
        ∧ ∀ e, s.cellPassed gi w = (s1, .error e) → exec (.barrierWaitComplete gi) s = .next (s1.waitFails gi w.2.1 e))
      ∧ (∀ sp a ph d till s1 ok, g.cur = some t → t.kind = .bart sp a ph d till → till ≤ s.clk → s.onCore gi = true →
        s.cellPassed gi (sp, a, ph) = (s1, .ok ok) →
        exec (.bartExpiry gi) s = .next ((s1.onGrp gi fun g => g.endBart (if ok then 1 else 0)).settle gi false)))
  ∧ (∀ (s : State) (gi : Nat), (s.grp gi).status = .running →
      ∀ p ∈ [(1, Instr.timeoutStarve gi), (3, .timeoutAcq gi), (4, .timeoutFewait gi), (5, .timeoutRendez gi), (6, .timeoutBoard gi),
        (7, .timeoutBarwait gi)],
        ((s.grp gi).overdue s.clk p.1 = true →
          exec p.2 s = .next ((s.onGrp gi fun g => { g with due := some p.1 }).settle gi false))
        ∧ ((s.grp gi).overdue s.clk p.1 = false → exec p.2 s = .next s))

/-- R163, R167, R168, R189, R188, R244: the steps in which a memory operation goes on: its stores complete, a waiting full-empty access is
made with those of its lanes that it may not part from (R168), the least lane of an ordered atomic is applied while the group holds the
token, lanes that replay it (R192) before the others, the token passes where no lane owes a replay, a WAVE operation writes. When accesses
are made, and what a token park leaves of an ordered atomic, are the model's choices (log entries 5, 54). -/
def Obligations.MemoryEvents : Prop :=
  ∀ (s : State) (gi id : Nat) (o : Op), (s.grp gi).op? id = some o → o.done = false →
    (o.todo = 0#32 → o.late = [] → (∀ n z fe addr data, o.kind = .store n z fe addr data →
      ∃ t, exec (.storeCompletion gi id) s = .next t
        ∧ t.still = (s.onGrp gi fun g => ((g.land o).onOp id fun o => { o with done := true, todo := 0 }).retire).still))
    ∧ (∀ l : Fin 32, o.kind.waitsFull = true → o.todo.getLsbD l = true → s.laneTurn gi o l = true → s.onCore gi = true →
      exec (.ldfeAccess gi id l) s = .next (
        let r := s.stepLanes gi id false (s.fullLanes gi o l)
        ((r.1.deferOp gi o r.2).pump gi).settle gi false))
    ∧ (∀ outs fl, o.kind = .wave outs fl → exec (.waveComplete gi id) s = .next
      ((flagLanes (s.onGrp gi fun g => outs.foldl (fun g x => g.setV x.1 x.2.1 x.2.2) g) gi o.lanes o.pc o.hm fun l => fl[l]).complete gi id))
    ∧ (∀ l rest s1 x, (s.grp gi).nextOrd = some o → s.holdsToken (s.grp gi) = true → s.onCore gi = true →
      (if o.pc = (s.grp gi).redoPc ∧ o.todo &&& (s.grp gi).owed ≠ 0#32 then lanesOf (o.todo &&& (s.grp gi).owed) else lanesOf o.todo) = l :: rest →
      (s.grp gi).turn o.id l = true → s.tryLane gi o l false = (s1, .made x) →
      exec (.ordAtomicApply gi) s
        = .next (((s1.onGrp gi fun v => { v.onOp o.id fun o => o.lane l (o.ea l) (.made x) with
            redo := if o.pc == v.redoPc then v.redo &&& ~~~(lane1 l.val) else v.redo }).pump gi).settle gi false))
    ∧ ∀ k kn g, s.kernels[k]? = some kn → kn.h.det = true → kn.token < kn.tokenEnd → s.groupAtToken k kn.token = some g →
      g.tokenDone = true → g.owed = 0#32 → g.nextOrd = none →
      exec (.orderTokenPass k) s = .next ((s.onKernel k fun kn => { kn with token := kn.token + 1 }).loosen k)

/-- R207, R209, R224 to R227: bands are granted in the order in which gangs met, within the kernel's limit, a gang with every member away
gives its bands back, a band word takes effect after the earlier ones on its band and once the member's earlier matrix operations have
passed their checks (R220), one on an image also after the member's earlier accesses, and an engine completes the rendezvous that it can
and starts its passes. When an engine looks for work, what a conversion keeps of its issue, that the header's limit holds at the grant,
who is a member then, and that `acst` writes its image over granules with an error, are the model's choices (log entries 1, 56, 58, 72,
73, 89). -/
def Obligations.TileEvents : Prop :=
  ∀ (s : State) (t k gi id : Nat) (tm : Team),
    (∀ x kn, s.teams[t]? = some tm → s.kernels[tm.kernel]? = some kn → (tm.gangs.find? fun x => x.k = k && !x.formed) = some x →
      (s.teams.all fun u => !u.holds || u.core / 4 ≠ tm.core / 4 || u.gangs.all fun y => y.formed || x.seq ≤ y.seq) = true →
      tm.holds = true → s.bandsUsed (tm.core / 4) + x.nacc * popN 16 x.mask ≤ 128 →
      tm.bands.length + x.nacc * popN 16 x.mask ≤ kn.h.bands →
      exec (.bandGrant t k) s = .next (
        let bands := (List.range x.nacc).flatMap fun acc => (List.range (popN 16 x.mask)).map fun i => Band.fresh k acc i
        let v := s.onTeam t fun u => { u with
          gangs := u.gangs.map fun y => if y.k = k && !y.formed then { y with formed := true } else y, bands := u.bands ++ bands }
        (v.members tm x.mask).foldl (fun s gi =>
          (s.onGrp gi fun g => { g with gng := gngOf k x.mask x.nacc, mmaCount := 0 }).endWaits gi StallKind.isGang) v))
    ∧ (let v := s.gangAbsent t
      let ends_ := fun (x : Gang) => x.formed && (v.members tm x.mask).all fun gi =>
        ((v.grp gi).gone || x.leaving.contains (v.grp gi).idx) && (v.grp gi).ops.all fun o => !o.tile
      v.teams[t]? = some tm →
      (tm.gangs.find? ends_ = none → exec (.gangDissolve t) s = .next v)
      ∧ ∀ x, tm.gangs.find? ends_ = some x → exec (.gangDissolve t) s = .next (
        let u := v.onTeam t fun u => { u with gangs := u.gangs.filter (fun y => y.k != x.k), bands := u.bands.filter (fun b => b.gang != x.k) }
        (u.members tm x.mask).foldl (fun s gi =>
          (s.onGrp gi fun g => { g with gng := 0, keptA := none, mmaCount := 0 }).endWaits gi StallKind.isUngang) u))
    ∧ (∀ o acc fn x, (s.grp gi).op? id = some o → o.kind = .tile acc fn → o.done = false → (s.grp gi).bandFree acc id = true →
      (∀ p ∈ (s.grp gi).ops, p.id < id → p.done = false → p.kind.isMma = true → p.todo = 0#32) → (fn.image = true → (s.grp gi).accessed id = true) →
      (s.teamOf (s.grp gi)).gangOf (s.grp gi).idx = some x →
      exec (.tileOperationComplete gi id) s
        = .next ((s.tileDone gi o x.k acc (memberIx x.mask (s.grp gi).idx) fn).complete gi id))
    ∧ ∀ isl, exec (.enginePassStart isl) s = .next (
        let v := { s with islands := updAt s.islands isl fun i => { i with level := min (i.level + i.rate) (32 * i.rate) } }
        (List.range 4).foldl (fun s k => State.startPasses (isl * 4 + k) isl 4 (s.meetCluster (isl * 4 + k))) v)

/-- R299 to R301, R336: an entry is written to a device-produced queue that has room; a message fills its slot once it is empty, which
completes its `send` or answers its peer, with a WINDOW record where its packet arrived late; a `recv` empties its slot once it is full; a
message from a peer claims a slot. What happens to an entry or a message whose memory refuses it is the model's choice, and that a message
is judged late by its packet's arrival its reading (log entries 24, 25, 60). -/
def Obligations.MessageEvents : Prop :=
  ∀ (s s1 : State) (loc : Loc),
    (∀ cx q p, ((s.ctx cx).posts.find? fun p => p.queue = q) = some p → ((s.ctx cx).queue q).room = true → (s.ctx cx).st ≠ .saved →
      (s.ctx cx).st ≠ .free → p.op = none → exec (.deviceQueueEntryWrite cx q) s = .next ((s.queueWrite cx q p.data).onCtx cx fun y =>
        { y with posts := y.posts.erase p, launches := y.launches.filter fun l => p.launch ≠ some l.id }))
    ∧ (∀ k m, s.msgs[k]? = some m → s.msgFirst k m = true → s.slotLoc m.ctx m.slot .w = (s1, .ok loc) → s1.feAt loc = false →
      let v := (s1.writeLoc loc (toBytes 16 m.data.toNat)).setFe loc true
      let v := { v with msgs := v.msgs.eraseIdx k }
      (m.op = none → m.via = none → exec (.mboxSlotWrite k) s = .next v)
      ∧ (∀ o, m.op = some o → m.via = none → (s.ctx m.ctx).st.live = true ∨ (s.ctx m.ctx).st = .faulted → exec (.mboxSlotWrite k) s = .next (v.complete o.1 o.2))
      ∧ ∀ x, m.op = none → m.via = some x → exec (.mboxSlotWrite k) s = .next ((v.applied m.ctx x.1 x.2.1 x.2.2).hear m.ctx x.1 x.2.2))
    ∧ (∀ gi id o d slot, (s.grp gi).op? id = some o → o.kind = .recv d slot → o.done = false → s.onCore gi = true →
      s.slotLoc (s.ctxOf (s.grp gi)) slot .r = (s1, .ok loc) → s1.feAt loc = true →
      exec (.mboxSlotRead gi id) s = .next (
        let r := s1.readLoc loc 16
        ((r.1.setFe loc false).onGrp gi fun g => (List.range 4).foldl
          (fun g i => g.setS (d + i) (BitVec.ofNat 32 (ofBytes ((r.2.drop (4 * i)).take 4)))) g).complete gi id))
    ∧ ∀ cx via mbx dep data s2 w, (via : Via).toSender.unrel = false → s.exposed = true → (s.ctx cx).st ≠ .free → dep ≤ 8 →
      s.checkCells (agent cx) (mboxCells mbx dep) = (s1, none) → s1.claim (agent cx) mbx.toNat = (s2, .ok w) →
      exec (.linkMessageArrival cx via.toSender mbx dep data via.window via.wink via.unsync) s = .next
        ({ s2 with msgs := s2.msgs ++ [(⟨cx, mboxSlot mbx dep w, data, none, some (via, mbx, s.lateness via)⟩ : Msg)] }.putMsg s2.msgs.length)

/-- R313, R406, R463, R466, R467, R451: what arrives from peers. An arrival at a cell of a live context counts there once every store that
it waits for is visible (R201); a packet by a mode that makes no promise, and what comes while the links are not exposed, is discarded;
page bytes and collective data are applied and answered, a granule of collective data but where a store that was sent after it stands
(R200); an acknowledgement ends its transfer, and the acknowledgement of a hand-off's last byte ends the hand-off; a limit, a refusal and
an abort end their transfers. The form in which packets reach the package, that a message is judged late by its packet's arrival, and the
address that a failed store's record names where this package does not hold it, are the model's choices (log entries 25, 60, 83). -/
def Obligations.LinkArrivals : Prop :=
  ∀ (s s1 : State) (cx : Nat) (via : Via) (addr : Dword) (loc : Loc) (data : List Byte) (x : Nat) (y : Xfer),
    let a : Inbound := ⟨cx, via, addr, s.lateness via⟩
    let d := s.lateness via
    (via.toSender.unrel = true ∨ s.exposed = false →
      exec (.remoteArrivalApply cx via.toSender addr via.window via.wink via.unsync) s = .next s)
    ∧ (via.toSender.unrel = false → s.exposed = true →
    ((s.ctx cx).st ≠ .free → s.arrivalDue a = false → exec (.remoteArrivalApply cx via.toSender addr via.window via.wink via.unsync) s = .next { s with inbound := s.inbound ++ [a] })
    ∧ ((s.ctx cx).st ≠ .free → s.arrivalDue a = true → s.cellLoc (agent cx) false addr .a = (s1, .ok loc) →
      exec (.remoteArrivalApply cx via.toSender addr via.window via.wink via.unsync) s = .next (
        let r := s1.readLoc loc 16
        let v := r.1.putCell loc (arriveCell (ofBytes r.2)).2
        (v.windowRec cx via.port addr via.window d).answer via 6 cx addr (d ≠ 0)))
    ∧ ((s.ctx cx).st = .free → exec (.remoteArrivalApply cx via.toSender addr via.window via.wink via.unsync) s = .next (s.answer via 5 cx addr false))
    ∧ (∀ pool page off, exec (.handoffBytesArrive cx via.toSender pool page off data via.window via.wink via.unsync) s = .next (s.pageBytes cx via pool page off data true)
      ∧ exec (.remoteStoreArrival cx via.toSender 3 pool page off data via.window via.wink via.unsync) s = .next (s.pageBytes cx via pool page off data false))
    ∧ (∀ a b c, (s.ctx cx).st ≠ .free → exec (.remoteStoreArrival cx via.toSender 4 a b c data via.window via.wink via.unsync) s = .next (
        let v := (List.range ((data.length + 15) / 16)).foldl (fun v i => v.putPart
          { ctx := cx, fn := a % 256, id := b, rank := c % 65536, data := (data.drop (16 * i)).take 16, job := none,
            off := 16 * (c / 65536 + i), total := 16 * (a / 256), via := some via }) s
        (v.applied cx via (s.collPlace cx (a % 256) b (c % 65536) (16 * (c / 65536))) d).hear cx via d)))
    ∧ (∀ z : Coll, z.job = none → z.via = some via →
      let same := fun (w : Coll) => w.ctx = z.ctx && w.fn = z.fn && w.id = z.id && w.rank = z.rank && w.off = z.off && w.job.isNone
      let fresh := { s with colls := (s.colls.filter fun w => !same w) ++ [z] }
      (s.colls.find? same = none → s.putPart z = fresh)
      ∧ ∀ w, s.colls.find? same = some w →
        ((w.via.any fun u => viaAfter u via) = true → s.putPart z = s) ∧ ((w.via.any fun u => viaAfter u via) = false → s.putPart z = fresh))
    ∧ (s.xfer? x = some y →
      (∀ uid pool page st, y.kind = .page uid pool page st →
        exec (.handoffAck x) s = .next (((s.dropXfer x).handBack y.ctx pool page st).pageNext uid)
        ∧ exec (.peerRefusal x 1) s = .next (s.xferFail y false))
      ∧ (y.kind = .arrival → y.op = none → exec (.remoteAckArrival x 0) s = .next ((s.windowRec y.ctx y.port y.addr y.window 0).dropXfer x)
        ∧ exec (.peerRefusal x 0) s = .next (s.xferFail y true))
      ∧ exec (.retransmitLimit x) s = .next (s.xferFail y true))
    ∧ ∀ uid j, s.job? uid = some j → j.ctx = cx → j.ended = false → j.kind = kCOLL →
      exec (.peerAbortNotice cx uid) s
        = .next (((s.xfers.filter fun y => y.kind.job = some uid).foldl (fun s y => s.xferFail y false) s).jobEnd uid sPEER)

/-- R195, R290, R292, R293, R294, R297, R302, R395, R402, R411: a running job that no save stops takes the step of its card's operation, a
card of another operation none; a save stops it where its destination allows. A `mark` is done at once. `fill`, `copy`, `conv`, `reduce`,
`allgather`, `bcast` and `suffix` write the granules of their write region in turn, each with its bytes, and are done with the last; a
gather writes a granule of an image from its page; a page operation changes its page's record. An access of a `fill` that fails suspends
the job for PAGE, and else fails it, with a record. An edge check ends, blocks or starts its job, an emptying for EOA empties its granule.
A job that ends has its status; no job keeps an edge from it, one that had learns of a failure, and its `cp` operation is complete. A slot
goes to the submission that waited first; a page-in's granules are copied with their full-empty bits. The granularity of a job's steps,
what reads a pool's record, that a longer region of `bcast` is done with the root's bytes, and which accesses a port in training holds,
are the model's choices (log entries 1, 65, 84, 91). -/
def Obligations.JobEvents : Prop :=
  ∀ (s : State) (uid : Nat) (j : Job),
    let w := regionAt j.wr 0
    let r := regionAt j.rd 0
    let o := 16 * j.at_
    let runs := s.job? uid = some j ∧ j.st = .running ∧ j.saved = false
    let turn := fun (op : Nat) => runs ∧ s.saveStop j = false ∧ cardOp j.card = op ∧ j.card.length = 256
    let ps := s.parts j
    (runs → s.saveStop j = false →
      (∀ x ∈ jobSteps uid, (cardOp j.card = x.1 → exec x.2.1 s = .next (x.2.2 s j) ∧ exec (.jobGranuleAccess uid) s = .next (x.2.2 s j))
        ∧ (cardOp j.card ≠ x.1 → exec x.2.1 s = .next s))
      ∧ exec (.jobGranuleAccess uid) s = .next (engineStep s j))
    ∧ (runs → s.saveStop j = true → ∀ x ∈ jobSteps uid, cardOp j.card = x.1 →
      exec x.2.1 s = .next (s.onJob uid fun x => { x with st := .suspended, saved := true }))
    ∧ (turn 0x00 → exec (.jobMark uid) s = .next (s.jobEnd uid 0))
    ∧ (∀ s1 loc, turn 0x02 → WritePlace s s1 j loc → WritesGranule (.jobFill uid) s s1 j loc ((j.card.drop 16).take 16) (w.len / 16))
    ∧ (∀ s1 cause detail, turn 0x02 → (w.base + o) % 16 = 0 → j.at_ < w.len / 16 →
      s.vaHeld (jobWho j w.sp) (spaceIf w.sp) (w.base + o) 16 = false → cause ≠ cHOLD →
      s.locate (jobWho j w.sp) { space := spaceIf w.sp, bytes := 16, acc := .w } (BitVec.ofNat 64 (w.base + o)) = (s1, .error (cause, detail)) →
      ∃ t k, exec (.jobFill uid) s = .next t ∧ t.job? uid = some k ∧ k.at_ = j.at_
        ∧ (cause = cPAGE → k.st = .suspended ∧ k.waits = true)
        ∧ (cause ≠ cPAGE → k.st = .failed ∧ k.status = if cause = cMACHINE then 5 else if cause = cRANGE then 3 else 4)
        ∧ (j.ctx < s.ctxs.length → ∃ x ∈ (t.ctx j.ctx).recs, x.kind = 2 ∧ x.cause = cause ∧ x.detail = detail
          ∧ x.addr = BitVec.ofNat 64 (w.base + o)))
    ∧ (∀ s1 s2 from_ loc, turn 0x01 →
      s.locate (jobWho j r.sp) { space := spaceIf r.sp, bytes := 16, acc := .r, align := 1 } (BitVec.ofNat 64 (r.base + o)) = (s1, .ok from_) →
      s1.heldFault (jobWho j r.sp) from_ 16 = none → WritePlace (s1.readLoc from_ 16).1 s2 j loc →
      WritesGranule (.jobCopy uid) s s2 j loc (s1.readLoc from_ 16).2 (w.len / 16))
    ∧ (let p0 := cardP0 j.card
      let src := convType (p0 % 16)
      let dst := convType (p0 / 16 % 16)
      let n := convCount j.card
      let first := 128 * j.at_ / dst.width
      let last := min n ((128 * (j.at_ + 1) + dst.width - 1) / dst.width)
      let lo := first * src.width / 8
      ∀ bs, turn 0x03 → first < last → rdMem s j r (r.base + lo) ((last * src.width + 7) / 8 - lo) = .ok bs →
        WritesElems (.jobConv uid) s j dst.width n fun k =>
          conv dst (if fld p0 10 10 = 1 then .dither (ditherOff k (fld p0 13 11)) else .mode (Rm.of (BitVec.ofNat 2 (fld p0 9 8))))
            (decide (fld (cardCth j.card) 11 11 = 1) && !widens src dst) false
            (src.val (ofBytes bs / 2 ^ (k * src.width - 8 * lo) % 2 ^ src.width)))
    ∧ (turn 0x20 → j.busy = true → allIn ps (collSize j.card) = true → WritesElems (.jobReduce uid) s j 32 (w.len / 4) (reduceElem j ps))
    ∧ (∀ s1 loc bs, turn 0x21 → j.busy = true → allIn ps (collSize j.card) = true →
      (((partOf ps (o / r.len)).getD []).drop (o % r.len)).take 16 = bs → bs.length = 16 → WritePlace s s1 j loc →
      WritesGranule (.jobAllgather uid) s s1 j loc bs (w.len / 16))
    ∧ (∀ s1 loc bs, turn 0x22 → j.busy = true → partOf ps (fld (cardP1 j.card) 63 48) = some bs → o + 16 ≤ bs.length → o < w.len →
      WritePlace s s1 j loc → WritesGranule (.jobBcast uid) s s1 j loc ((bs.drop o).take 16) (bs.length / 16))
    ∧ (∀ s1 loc, turn 0x30 → j.busy = true → WritePlace s s1 j loc →
      let bs := (j.data.drop o).take 16
      WritesGranule (.jobSuffix uid) s s1 j loc (bs ++ List.replicate (16 - bs.length) 0) (w.len / 16))
    ∧ (∀ pi p k x slot s1 s2 from_ loc, turn 0x10 → j.gpool s = some (pi, p) → j.imgs ≠ [] →
      gatherNext s j p (gImage j.card p / 16) = .fill k x slot →
      let a := w.base + k * gImage j.card p + 16 * (j.image k).done
      s.locate (jobWho j false) { space := .gl, bytes := 16, acc := .r, align := 1 }
        (BitVec.ofNat 64 (p.frame 0 slot + gOffset j.card p (j.image k).done)) = (s1, .ok from_) →
      s1.heldFault (jobWho j false) from_ 16 = none → let rd := s1.readLoc from_ 16
      a % 16 = 0 → rd.1.vaHeld (jobWho j w.sp) (spaceIf w.sp) a 16 = false →
      rd.1.locate (jobWho j w.sp) { space := spaceIf w.sp, bytes := 16, acc := .w } (BitVec.ofNat 64 a) = (s2, .ok loc) →
      s2.heldFault (jobWho j w.sp) loc 16 = none →
      exec (.jobGather uid) s = .next ((((s2.writeLoc loc rd.2).setFe loc true).onJob uid fun x =>
        { x with granules := x.granules + 1, at_ := x.at_ + 1, imgs := updAt x.imgs k fun m => { m with done := m.done + 1 } }).unpinFor
          uid pi x (gImage j.card p / 16)))
    ∧ (∀ p s1 s2 hd e r, let c := j.ctx
      let u := jobWho j false
      let cat := cardB j.card 16 8
      let i := j.entries.getD j.at_ 0
      let x := cardB j.card 4 4
      let gone := fun (t : State) =>
        let t := t.onJob uid fun k => { k with at_ := k.at_ + 1, busy := false }
        if j.at_ + 1 < j.entries.length then t else t.jobEnd uid 0
      j.busy = false → (s.ctx c).pool? j.inst = some p → cat % 64 = 0 → covers j.rd cat 16 = true → s.catHdr u cat = (s1, .ok hd) →
      i < hd.cmax → hd.pool = j.inst → covers j.rd (catEntry cat i) 8 = true → s1.catRead u cat i = (s2, .ok e) → eValid e = true →
      ePage e < p.np → s2.earlierOp c j.inst (ePage e) uid = false → s2.pageRec c p (ePage e) = .ok r →
      (turn 0x42 → x = 0 → r.ref < 65535 → r.st ∈ [pReserved, pFilling, pResident, pShared] →
        exec (.jobPgrefCard uid) s = .next (gone (s2.putRec c p (ePage e) { r with ref := r.ref + 1, st := pShared })))
      ∧ (turn 0x40 → x < 3 → r.st ≠ pFree → x = r.tier → exec (.jobPgmoveCard uid) s = .next (gone s2))
      ∧ (turn 0x40 → 1 ≤ x → x < 3 → x ≠ r.tier → r.pin = 0 → r.st ∈ [pResident, pShared, pFar, pPooled] →
        (∀ k ∈ s2.pins, ¬(k.ctx = c ∧ k.pool = j.inst ∧ k.page = ePage e)) → s2.tableFault c p = none →
        ∀ n, s2.freeFrame c j.inst p x = some n → exec (.jobPgmoveCard uid) s = .next (
          let t := s2.putRec c p (ePage e) { r with st := pEvicting }
          { t with copies := t.copies ++ [(⟨c, j.inst, ePage e, .move, (r.tier, r.slot), (x, n), some uid, none, 0, 0, 0⟩ : PageCopy)] }.onJob uid
            fun k => { k with busy := true })))
    ∧ (s.job? uid = some j → (j.st = .submitted ∨ j.st = .blocked) →
      (j.eoa = none →
        (j.depfail = true → exec (.jobEdgeCheck uid) s = .next (s.jobEnd uid 2))
        ∧ (j.depfail = false → j.edges ≠ [] → exec (.jobEdgeCheck uid) s = .next (s.onJob uid fun x => { x with st := .blocked }))
        ∧ (j.depfail = false → j.edges = [] → exec (.jobEdgeCheck uid) s = .next (s.onJob uid fun x => { x with st := .running })))
      ∧ ∀ n sp a s1 loc, j.eoa = some n → (eoaPlaces j).drop n = [(sp, a)] →
        s.locate (jobWho j sp) { space := spaceIf sp, bytes := 16, acc := .w } (BitVec.ofNat 64 a) = (s1, .ok loc) →
        s1.heldFault (jobWho j sp) loc 16 = none →
        exec (.jobEdgeCheck uid) s = .next ((s1.setFe loc false).onJob uid fun x => { x with eoa := none })
          ∧ (j.team < s.teams.length → (s1.setFe loc false).feAt loc = false))
    ∧ (s.job? uid = some j → ¬(j.st = .submitted ∨ j.st = .blocked) → exec (.jobEdgeCheck uid) s = .next s)
    ∧ (∀ status, s.job? uid = some j → j.ended = false → let t := s.jobEnd uid status
      (∃ k, t.job? uid = some k ∧ k.st = (if status = 0 then .done else .failed) ∧ k.status = status)
      ∧ (∀ (n : Nat) (y : Job), s.jobs[n]? = some y → y.uid ≠ uid → ∃ z, t.jobs[n]? = some z ∧ z.uid = y.uid
        ∧ z.edges = y.edges.filter (fun e => e ≠ uid) ∧ z.depfail = (y.depfail || (y.edges.contains uid && status ≠ 0)))
      ∧ ∀ x ∈ (t.grp j.gi).ops, x.id = j.op → x.done = true)
    ∧ (∀ core gi t d op cmd n, (s.slotQ.find? fun gi => (s.grp gi).core = core && (match (s.grp gi).status with
          | .running => true | .handler => true | .sleeping _ => true | _ => false)) = some gi →
      (s.grp gi).cur = some t → t.kind = .slot d op cmd → s.freeSlot core = some n →
      exec (.jobSlotGrant core) s = .next (
        ({ s with slotQ := s.slotQ.erase gi }.submitCmd gi d op cmd n).endWaits gi StallKind.isSlot))
    ∧ (∀ k c, s.copies[k]? = some c →
      exec (if c.why = .pageIn then .pageInComplete k else .pageCopyComplete k) s = .next (s.copyStep c))
    ∧ ∀ k c p s1 s2 l1 l2, s.copies[k]? = some c → c.why = .pageIn → (s.ctx c.ctx).pool? c.pool = some p → s.copyLive c = true →
      s.copyHeld c = false → c.done + 1 = p.pg / 16 →
      s.locate (agent c.ctx) { space := .gl, bytes := 16, acc := .r } (BitVec.ofNat 64 (p.frame c.src.1 c.src.2 + 16 * c.done)) = (s1, .ok l1) →
      s1.locate (agent c.ctx) { space := .gl, bytes := 16, acc := .w } (BitVec.ofNat 64 (p.frame c.dst.1 c.dst.2 + 16 * c.done)) = (s2, .ok l2) →
      s2.heldFault (agent c.ctx) l1 16 = none → s2.heldFault (agent c.ctx) l2 16 = none →
      let rd := s2.readLoc l1 16
      let v := (rd.1.writeLoc l2 rd.2).setFe l2 (rd.1.feAt l1)
      let last := { c with done := c.done + 1 }
      let v1 := { v with copies := v.copies.map fun y => if y = c then last else y }
      v1.copyRecFault p last = none →
      exec (.pageInComplete k) s = .next (v1.moveDone p last)
        ∧ (PlacesApart s → (∀ x ∈ s.l2, x.data.length = 128) → (v.readLoc l2 16).2 = rd.2)
        ∧ (v.feAt l2 = rd.1.feAt l1)

/-- R87, R323, R328, R330: a group with every lane exited and nothing outstanding is freed; a kernel's end sequence takes its next step,
the first once every port has reported the context's lines written; a cancelled kernel with nothing left completes with status 8. That
step 1 waits for the dirty lines that hold the context's stores, and that a cancelled kernel's interrupt comes before its completion
entry, are the model's reading and choice (log entries 46, 62, 95). -/
def Obligations.GroupAndKernelEnds : Prop :=
  ∀ (s : State) (gi k : Nat) (kn : Kernel),
    ((s.grp gi).status = .draining → (s.grp gi).ops = [] → exec (.groupFree gi) s = .next ((s.freeGroup gi).teamRetire (s.grp gi).team))
    ∧ ((s.grp gi).status ≠ .draining → exec (.groupFree gi) s = .next s)
    ∧ (s.kernels[k]? = some kn →
      (kn.st = .ending 1 →
        let mine := fun (x : Owner) => decide (x.1 = kn.ctx)
        exec (.kernelEndSequence k) s = .next (if (s.writeBack mine).flushed mine
          then (s.writeBack mine).onKernel k fun x => { x with st := .ending 2 } else s.writeBack mine))
      ∧ (∀ s1 ok, kn.st = .ending 2 → s.signalHeld kn = false → s.signal kn = (s1, ok) → exec (.kernelEndSequence k) s
          = .next ((s1.onKernel k fun x => { x with sigFault := !ok }).onKernel k fun x => { x with st := .ending 3 }))
      ∧ (kn.st = .ending 3 → kn.h.irq = true →
          exec (.kernelEndSequence k) s = .next ((s.raiseCtx kn.ctx kn.h.ivec).onKernel k fun x => { x with st := .ending 4 }))
      ∧ (kn.st = .ending 4 → kn.launch = none →
          exec (.kernelEndSequence k) s = .next ((s.onKernel k fun x => { x with st := .done }).clerkLaunch kn))
      ∧ (∀ l, kn.st = .cancelling → s.jobsOf k = [] → kn.h.irq = false → kn.launch = some l → exec (.kernelCancelComplete k) s
          = .next ((s.onKernel k fun kn => { kn with st := .cancelled }).postLaunch kn.ctx l 8 0)))

/-- R191, R315, R324, R325, R326, R345, R442, R494: the scheduler's steps: a die takes the next range of a kernel, die 0 before die 1, a
team starts or resumes on a core, and a team that must leave its core parks where a place for its record is left. Which core takes a team,
and the order in which cores are looked at, are the model's choices (log entry 10). -/
def Obligations.TeamEvents : Prop :=
  ∀ (s : State) (core k t : Nat) (kn : Kernel) (x : Team) (c : NextTeam),
    (s.kernels[k]? = some kn → kn.range 0 = none → kn.st = .running → (s.ctx kn.ctx).st.live = true → kn.loose = false → kn.next < kn.h.nteam →
      ((List.range 256).any fun i => s.fits i ⟨2 ^ kn.h.w1, spUp kn.h.scr, 0⟩ []) = true →
      exec (.dieRangeTake 0 k) s = .next (s.onKernel k fun x =>
        { x with next := min (x.next + x.h.chunk) x.h.nteam, range0 := some (kn.next, min (kn.next + kn.h.chunk) kn.h.nteam) }))
    ∧ (s.kernels[k]? = some kn → s.wantsRange 0 kn = true → exec (.dieRangeTake 1 k) s = .next s)
    ∧ (s.kernels[k]? = some kn → s.wantsRange 0 kn = false → s.wantsRange 1 kn = true →
      exec (.dieRangeTake 1 k) s = .next (s.onKernel k fun x =>
        { x with next := min (x.next + x.h.chunk) x.h.nteam, range1 := some (kn.next, min (kn.next + kn.h.chunk) kn.h.nteam) }))
    ∧ (core < Config.cores → (s.cands core).head? = some c → ((List.range 256).any fun i => s.fits (dieOf core * 256 + i) (s.need c) []) = true →
      ∀ y, s.chosen core = some y →
        (y.parked = none → s.templateHeld y.kernel = false → exec (.teamPlacement core) s = .next (s.placeTeam y.kernel y.idx core))
        ∧ ∀ n, y.parked = some n → exec (.teamResume core) s = .next (s.resumeTeam n core))
    ∧ (s.teams[t]? = some x →
      (s.tokenWait x = true → exec (.tokenPark t) s = .next (s.askPark t .token))
      ∧ (s.gridWait x = true → exec (.gridBarrierPark t) s = .next (s.askPark t .grid))
      ∧ ∀ why off, x.st = .leaving why → s.canPark x = true → s.kernels[x.kernel]? = some kn →
        s.savePlace kn.ctx kn.h.recordSize = some off → exec (.teamPark t) s = .next (s.parkTeam t off why))

/-- R263, R272, R273, R281, R353: a beat within a lap, before the governor's turn, resolves the claims that are due and moves the position
by one; the boundary comes at the last position, with the ring's steps and then the scheduler's for each context; requests whose deadline
has come claim ports; the governor acts once every 4,096 beats, forgets them and sets the rate that it finds, and no beat passes it.
Before the rings have trained, and in recovery, no beat comes (R470, R472). When a tile's source is read and which pass a request takes
are the model's readings (log entry 63). -/
def Obligations.RingEvents : Prop :=
  ∀ (s : State) (noise : List (Nat × Nat × Nat)) (cl : Nat) (held : Bool),
    (s.exposed = true → s.ring.beats < 4096 → s.ring.pos + 1 < s.ring.len → exec (.ringBeat noise) s = .next (
        let v := s.resolveClaims
        ({ v with ring := { v.ring.tick with pos := v.ring.tick.pos + 1 } }).beatsNow noise)
      ∧ exec (.lapBoundary noise) s = .next s)
    ∧ (s.exposed = false → exec (.ringBeat noise) s = .next s ∧ exec (.lapBoundary noise) s = .next s)
    ∧ (s.exposed = true → s.ring.beats < 4096 → s.ring.len ≤ s.ring.pos + 1 → exec (.ringBeat noise) s = .next s
      ∧ exec (.lapBoundary noise) s = .next (
        let v := s.resolveClaims.ringBoundary
        let v := { v with ring := v.ring.tick }
        ((List.range v.ctxs.length).foldl State.schedule v).beatsNow noise))
    ∧ (4096 ≤ s.ring.beats → exec (.ringBeat noise) s = .next s ∧ exec (.lapBoundary noise) s = .next s)
    ∧ exec (.boardingDeadline cl) s = .next ((s.ring.claimants cl).foldl State.claimPorts s)
    ∧ (s.ring.beats < 4096 → exec (.governorEvaluation held) s = .next s)
    ∧ (4096 ≤ s.ring.beats → exec (.governorEvaluation held) s = .next (
        let r : Ring := { s.ring with held := held }
        let now := (List.range Config.clusters).any fun c => (s.boardQueue c) ≠ []
        { s with ring := { r with newG := r.govern (r.full || now), full := now, beats := 0 } }))

/-- R333, R334: a doorbell gives a queue that the host fills its PI and one that the device fills its CI; a value that leaves more entries
than the queue holds halts the queue, with a record. R343: a slot of the time-triggered table, read at its examination: of the firings
that have come due since the last one, by the START and PERIOD that the slot has now, the latest fires and the earlier ones are reported;
where none has, nothing fires. How firings that were passed are counted is the model's reading (log entry 30). -/
def Obligations.QueueEvents : Prop :=
  (∀ (s : State) (fn cx q : Nat) (val : Word), q < 32 → s.owns fn cx = true →
      let x := (s.ctx cx).queue q
      ((x.kind = .launch ∨ x.kind = .request) →
        ((val - x.ci).toNat ≤ 2 ^ x.logn →
          exec (.doorbellWrite fn cx (8 * q) val) s = .next (s.onQueue cx q fun x => { x with pi := val }))
        ∧ (2 ^ x.logn < (val - x.ci).toNat → exec (.doorbellWrite fn cx (8 * q) val) s
          = .next ((s.onQueue cx q fun x => { x with err := true }).queueRecord cx)))
      ∧ ((x.kind = .completion ∨ x.kind = .output) →
        ((x.pi - val).toNat ≤ 2 ^ x.logn →
          exec (.doorbellWrite fn cx (8 * q) val) s = .next (s.onQueue cx q fun x => { x with ci := val }))
        ∧ (2 ^ x.logn < (x.pi - val).toNat → exec (.doorbellWrite fn cx (8 * q) val) s
          = .next ((s.onQueue cx q fun x => { x with err := true }).queueRecord cx)))
      ∧ (x.kind = .invalid → exec (.doorbellWrite fn cx (8 * q) val) s = .next s))
  ∧ (∀ (s s1 : State) (cx slot : Nat) (t : TtSlot) (bs : List Byte),
      let x := s.ctx cx
      let q := fieldAt bs 16 1
      let due := firingsDue (fieldAt bs 0 8) (fieldAt bs 8 8)
      let n := due s.clock.ns - (match t.last with | some x => due x | none => 0)
      let v := s.onSlot cx slot fun t => { t with last := some s.clock.ns }
      x.tt[slot]? = some t → x.st.live = true → t.pending = none → t.off = false →
      s.readVa (agent cx) .gl (x.d.ttt.toNat + 128 * slot) 128 .r = (s1, .ok bs) → fieldAt bs 17 1 ≤ 2 →
      (fieldAt bs 18 1 ≠ 1 → exec (.timeTriggeredFiring cx slot) s = .next s)
      ∧ (fieldAt bs 18 1 = 1 → q < 32 → (x.queue q).kind = .launch →
        (n = 0 → exec (.timeTriggeredFiring cx slot) s = .next v)
        ∧ (n = 1 → exec (.timeTriggeredFiring cx slot) s = .next (v.fire cx slot q (fieldAt bs 17 1) (bs.drop 64)))
        ∧ (1 < n → exec (.timeTriggeredFiring cx slot) s
          = .next ((v.skipped cx (Entry.ofBytes (bs.drop 64)) (n - 1)).fire cx slot q (fieldAt bs 17 1) (bs.drop 64)))))

/-- R264, R319, R323, R330, R337 to R340: the next entry of a launch queue that can be accepted, where its queue is the next in the
rotation, is taken, and does what its type says; its completion has status 0, or the status of what stands against it; a kernel that was
cancelled while queued ends when its entry is reached; a bad entry is answered BADENTRY. Orders of checks that the spec leaves open, where
the rotation begins and what a queued kernel's cancel finds are the model's (log entries 31, 66). -/
def Obligations.Launches : Prop :=
  ∀ (s : State) (cx q : Nat) (e : Entry) (slot : Option Nat), s.acceptable cx q = some (e, slot) →
    let v := (s.take cx q e slot).1
    let l := (s.take cx q e slot).2
    let raised := fun (t : Team) =>
      let n := fieldAt e.bytes 24 1
      { t with caps := t.caps.setIfInBounds n (capGrant (t.caps.getD n 0) (fieldAt e.bytes 26 2)) }
    (Entry.bad (s.ctx cx) e = false →
      (e.type = 1 → (v.ctx cx).struck.contains (q, v.entryPlace cx q l) = false →
        ∀ u st, v.startKernel cx (fieldAt e.bytes 8 8) 1 [] (some l) none .entry = (u, st) →
        exec (.launchKernel cx q) s = .next (if st = 0 then u else u.postLaunch cx l st 0))
      ∧ (e.type = 1 → (v.ctx cx).struck.contains (q, v.entryPlace cx q l) = true →
        exec (.launchKernel cx q) s = .next (v.startCancelled cx q (fieldAt e.bytes 8 8) l))
      ∧ (e.type = 2 →
        (fieldAt e.bytes 8 8 = 0 → exec (.launchRing cx q) s = .next ((v.ringChange cx none).postLaunch cx l 0 0))
        ∧ (fieldAt e.bytes 8 8 ≠ 0 → ∀ st, (∀ p, v.checkProgram cx (fieldAt e.bytes 8 8) = (st, some p) →
            exec (.launchRing cx q) s = .next ((v.ringChange cx (some p)).postLaunch cx l 0 0))
          ∧ (v.checkProgram cx (fieldAt e.bytes 8 8) = (st, none) → exec (.launchRing cx q) s = .next (v.postLaunch cx l st 0))))
      ∧ (e.type = 3 → v.target cx (fieldAt e.bytes 8 4) = none → exec (.launchGrant cx q) s = .next (v.postLaunch cx l 9 0))
      ∧ (e.type = 3 → ∀ k ti t, v.target cx (fieldAt e.bytes 8 4) = some k →
        ((List.range v.teams.length).find? fun ti => match v.teams[ti]? with
          | some t => t.kernel = k && t.idx = fieldAt e.bytes 16 8 && t.st ≠ .retired
          | none => false) = some ti →
        (v.onTeam ti raised).teams[ti]? = some t → t.st = .resident →
        exec (.launchGrant cx q) s = .next ((v.onTeam ti raised).postLaunch cx l 0 0))
      ∧ (e.type = 4 →
        (v.target cx (fieldAt e.bytes 8 4) = none →
          (v.queuedTarget cx q (fieldAt e.bytes 8 4) = none → exec (.launchCancel cx q) s = .next (v.postLaunch cx l 9 0))
          ∧ ∀ x, v.queuedTarget cx q (fieldAt e.bytes 8 4) = some x → exec (.launchCancel cx q) s
            = .next ((v.onCtx cx fun y => { y with struck := y.struck ++ [x] }).postLaunch cx l 0 0))
        ∧ ∀ k kn, v.target cx (fieldAt e.bytes 8 4) = some k → v.kernels[k]? = some kn →
          ((kn.st = .running ∨ kn.st = .cancelling) → exec (.launchCancel cx q) s = .next ((v.cancelKernel k true).postLaunch cx l 0 0))
          ∧ (¬(kn.st = .running ∨ kn.st = .cancelling) → exec (.launchCancel cx q) s = .next (v.postLaunch cx l 9 0)))
      ∧ (e.type = 5 → exec (.launchNop cx q) s = .next (v.postLaunch cx l 0 0))
      ∧ exec (.launchBadentry cx q) s = .next s)
    ∧ (Entry.bad (s.ctx cx) e = true → 1 ≤ e.type → e.type ≤ 5 → (v.ctx cx).completes e.cq = true →
      exec (.launchBadentry cx q) s = .next (v.postLaunch cx { l with kind := e.type } 0x0a 0))

/-- R437, R438, R457: the commands of a function on its contexts. BIND takes the lowest free number, or none with status 5, and the
context is faulted at once where the die link is down for good; a command on a context of another function is status 7, one that the
context's state does not admit is 6 or 8. R182, R204, R445 to R447: a save ends when nothing of the context is in motion and, where a
group stands in a `fence.sys`, what it waits for is written, with its jobs' records, its queues' indices and the header written; more jobs
than the area holds end it with the context running. A restore reads the descriptor and the job records again, and derives the jobs'
edges; what fails its checks faults the context. The order of the descriptor's checks, the queues' indices at BIND, what a save keeps for
jobs and which lines a fence waits for are the model's readings, as are the context that the die link faults at BIND (log entries 21, 32,
33, 62, 69). -/
def Obligations.ContextEvents : Prop :=
  (∀ (s : State) (fn cx q addr n : Nat), s.fnOpen fn = true →
      (((List.range 64).find? fun c => (s.ctx c).st = .free) = some n →
        let a := addr / 8192 * 8192 % 2 ^ 64
        let t := s.tryCtx n a fn (s.physRead a 8192)
        t.descStatus n (s.physRead a 8192) true = 0 →
          let v := ((t.onCtx n fun x => { x with queues := x.queues.map fun q => { q with pi := 0, ci := 0 } }).physWrite
            (a + 2) [BitVec.ofNat 8 fn] 0).cmdResult fn n 0
          exec (.bind fn addr) s = .next (if v.ctl.dead then v.dieLinkFault n else v))
      ∧ (((List.range 64).find? fun c => (s.ctx c).st = .free) = none →
        ∃ t, exec (.bind fn addr) s = .next t ∧ t.ctxs = s.ctxs ∧ t.mem = s.mem ∧ ∀ f, s.fns[fn]? = some f →
          ∃ g, t.fns[fn]? = some g ∧ g.cstat = 5)
      ∧ (s.owns fn cx = false → ∀ i ∈ [Instr.unbind fn cx, .qreload fn cx q, .save fn cx, .restore fn cx addr],
        exec i s = .next (s.cmdResult fn cx 7))
      ∧ (s.owns fn cx = true →
        ((s.ctx cx).st = .bound ∨ (s.ctx cx).st = .saved ∨ (s.ctx cx).st = .faulted →
          exec (.unbind fn cx) s = .next ((s.freeCtx cx).cmdResult fn cx 0))
        ∧ ((s.ctx cx).st = .running → exec (.unbind fn cx) s = .next (s.cmdResult fn cx 6))
        ∧ exec (.qreload fn cx q) s = .next ((s.onQueue cx (q % 32) fun x =>
            { Queue.load (s.physRead ((s.ctx cx).d.addr + 256 + 32 * (q % 32)) 32) with pi := x.pi, ci := x.ci }).cmdResult fn cx 0)
        ∧ ((s.ctx cx).st.live = false → exec (.save fn cx) s = .next (s.cmdResult fn cx 8))
        ∧ ((s.ctx cx).st.live = true → s.teams = [] →
          exec (.save fn cx) s = .next ((s.onCtx cx fun x => { x with st := .saving }).cmdResult fn cx 0))
        ∧ ((s.ctx cx).st ≠ .saved → exec (.restore fn cx addr) s = .next (s.cmdResult fn cx 8))
        ∧ ((s.ctx cx).st = .saved → exec (.restore fn cx addr) s = .next ((s.onCtx cx fun x =>
            { x with st := .restoring, d := { x.d with addr := addr / 8192 * 8192 % 2 ^ 64 } }).cmdResult fn cx 0))))
  ∧ (∀ (s : State) (cx : Nat),
      let js := s.jobs.filter fun j => j.ctx = cx && !j.ended
      let mine := s.fenced cx
      let drained := (s.writeBack mine).flushed mine = true
      (((s.ctx cx).st ≠ .saving ∨ s.saveReady cx = false) → exec (.saveComplete cx) s = .next s)
      ∧ ((s.ctx cx).st = .saving → s.saveReady cx = true → ¬drained → exec (.saveComplete cx) s = .next (s.writeBack mine))
      ∧ ((s.ctx cx).st = .saving → s.saveReady cx = true → drained → js.length ≤ (s.ctx cx).d.jmax →
        exec (.saveComplete cx) s = .next (
          let v := { s with jobs := s.jobs.map fun (j : Job) => if j.ctx = cx && !j.ended then { j with saved := true } else j }
          let v := ((v.writeBack (v.fenced cx)).saveWrites cx js).onCtx cx fun x => { x with st := .saved }
          v.raiseCtx cx (v.ctx cx).d.cev))
      ∧ ((s.ctx cx).st = .saving → s.saveReady cx = true → drained → (s.ctx cx).d.jmax < js.length →
        exec (.saveComplete cx) s = .next (
          let ks := (js.drop (s.ctx cx).d.jmax).map Job.kernel
          let told := ks.all fun k => match s.kernels[k]? with | some x => x.saveFull | none => true
          let v := ((ks.foldl State.saveFullRec s).unsaveJobs cx).onCtx cx fun x => { x with st := .running }
          if told then v.raiseCtx cx (v.ctx cx).d.cev else v))
      ∧ ((s.ctx cx).st ≠ .restoring → exec (.restoreComplete cx) s = .next s)
      ∧ ((s.ctx cx).st = .restoring → s.slotsFree cx = true →
        let x := s.ctx cx
        let bs := s.physRead x.d.addr 8192
        let t := s.tryCtx cx x.d.addr x.d.fn bs
        let y := t.ctx cx
        let away := s.jobs.filter fun j => j.ctx = cx && j.saved
        (t.descStatus cx bs false ≠ 0 → exec (.restoreComplete cx) s = .next (s.contextFault cx true))
        ∧ (t.descStatus cx bs false = 0 → s.poisoned y.d.save 4096 = false → ofBytes (s.physRead y.d.save 4) = 1 →
          ofBytes (s.physRead (y.d.save + 16) 4) = (s.records cx).length → ofBytes (s.physRead (y.d.save + 20) 4) = away.length →
          (s.jobRecsOk y.d.save away = false → exec (.restoreComplete cx) s = .next (s.contextFault cx true)) ∧
          (s.jobRecsOk y.d.save away = true →
          exec (.restoreComplete cx) s = .next (
            let runs := s.kernels.any fun k => k.ctx = cx && k.st = .running
            let v := s.onCtx cx fun x => { (x.reread y) with st := if runs then .runnable else .bound }
            ((v.unsaveJobs cx).deriveEdges cx).raiseCtx cx y.d.cev)))))

/-- R427, R429, R430: a record is written where the fault queue has room, and where it has none one that holds nothing is dropped and
counted; the host's CI returns records; an answer resumes what waits for the record or ends it. When a record is numbered and stamped is
the model's choice (log entry 29). -/
def Obligations.FaultQueue : Prop :=
  ∀ (s : State) (fn cx c i rid : Nat) (val : Word) (r : Rec),
    ((s.ctx cx).st ≠ .free → (s.ctx cx).st ≠ .resetting → (s.ctx cx).recs[i]? = some r →
      ((s.ctx cx).fqFull = false →
        ((List.range (s.ctx cx).recs.length).find? fun i => match (s.ctx cx).recs[i]? with | some r => s.recReady r | none => false) = some i →
        exec (.faultRecordWrite cx) s = .next (s.putRecord cx i r))
      ∧ ((s.ctx cx).fqFull = true →
        ((List.range (s.ctx cx).recs.length).find? fun i => match (s.ctx cx).recs[i]? with
          | some r => s.recReady r && r.droppable | none => false) = some i →
        exec (.faultRecordWrite cx) s = .next ((s.onCtx cx fun x => x.setRec i none).countDrop (s.ctx cx).d.fn)))
    ∧ (s.owns fn cx = true → exec (.fqciWrite fn cx val) s = .next (s.onCtx cx fun x => { x with fqCi := val }))
    ∧ (s.owns fn cx = false → exec (.fqciWrite fn cx val) s = .next s)
    ∧ (s.openRid fn rid = none → exec (.resolveResume fn rid) s = .next s ∧ exec (.resolveCancel fn rid) s = .next s)
    ∧ (s.openRid fn rid = some (c, i, r) →
      (r.job = none → exec (.resolveResume fn rid) s = .next (s.onCtx c fun x => x.setRec i (some { r with answered := true }))
        ∧ ∀ gi, r.gi = some gi → exec (.resolveCancel fn rid) s = .next (
          let v := s.onCtx c fun x => x.setRec i (some { r with answered := true })
          v.cancelKernel (v.grp gi).kernel true))
      ∧ ∀ j, r.job = some j → exec (.resolveResume fn rid) s = .next ((s.onCtx c fun x => x.setRec i none).jobResume j.1)
        ∧ exec (.resolveCancel fn rid) s = .next (((s.onCtx c fun x => x.setRec i (some { r with answered := true })).onCtx c
            fun x => x.setRec i none).jobEnd j.1 sCANCEL))

/-- R448, R450, R456, R458, R462: what the host writes in a function's registers. A share within the sums is set, one past a sum sets
SHERR and nothing else; an unmasked vector that is pending raises its message; a request through a window that is off is refused. What a
window request may carry, what a write of the table's doubleword is, that the TLBINV register ends the locks of unmapped pages, that a
window write of a whole granule ends its error, and that a window access does not wait for a port in training, are the model's readings
and choices (log entries 14, 37, 59, 62, 84). -/
def Obligations.HostRegisters : Prop :=
  ∀ (s : State) (fn cx f vec : Nat) (val : Dword), s.fnOpen fn = true →
    let ish := fld val.toNat 8 0
    let hsh := fld val.toNat 24 16
    let psh := fld val.toNat 40 32
    let rtr := fld val.toNat 53 48
    let past := 256 < s.shareSum f ish (fun i => (s.fn i).ish) ∨ 256 < s.shareSum f hsh (fun i => (s.fn i).hsh)
      ∨ 256 < s.shareSum f psh (fun i => (s.fn i).psh) ∨ 32 < s.shareSum f rtr s.trackShare
    (s.owns fn cx = true → exec (.tlbinvRegisterWrite fn cx) s = .next ((s.dropTlb cx none).dropUnmapped cx none))
    ∧ (s.owns fn cx = false → exec (.tlbinvRegisterWrite fn cx) s = .next s)
    ∧ (fn ≠ 0 → exec (.shareWrite fn f val) s = .next s)
    ∧ (fn = 0 → f < s.fns.length →
      (¬past → exec (.shareWrite fn f val) s = .next (
        let v := s.onFn f fun x => { x with ish := ish, hsh := hsh, psh := psh }
        { v with ring := { v.ring with shares := v.ring.shares.filter (fun x => x.1 ≠ f) ++ [(f, rtr)] } }))
      ∧ (past → exec (.shareWrite fn f val) s = .next { s with sherr := s.sherr ||| BitVec.ofNat 32 (2 ^ f) }))
    ∧ exec (.peerTableWrite fn val) s = .next (s.onFn fn fun f => { f with peert := val, peers := [] })
    ∧ (∀ v, (s.fn fn).msix[vec]? = some v → vec < s.vectors fn →
      let put := fun (x : Msix) => s.onFn fn fun f => { f with msix := f.msix.set vec x }
      (v.pend = false → exec (.msixUnmask fn vec) s = .next (put { v with masked := false }))
      ∧ (v.pend = true → exec (.msixUnmask fn vec) s = .next ((put { v with masked := false, pend := false }).raise fn vec)))
    ∧ exec (.registerWrite fn 0x58 val) s = .next (s.onFn fn fun f => { f with apctl := val &&& 0xffffffffffff00bf#64 })
    ∧ exec (.registerWrite fn 0x08 val) s = .next s
    ∧ (fn = 0 → exec (.registerWrite fn 0x1100 val) s = .next { s with sherr := s.sherr &&& ~~~(lowW val) }
      ∧ exec (.registerWrite fn 0x1190 val) s = .next { s with levt := s.levt &&& ~~~(lowW val) }
      ∧ exec (.registerWrite fn 0x1198 val) s = .next { s with levv := val.setWidth 8 })
    ∧ (∀ v, v < s.vectors fn → v < 4096 → exec (.registerWrite fn (0x20000 + 16 * v + 8) val) s
        = .next (s.onFn fn fun x => { x with msix := updAt x.msix v fun m => { m with data := lowW val } }))
    ∧ ∀ off n data, s.exposed = true → off + n ≤ 2 ^ 36 →
      let g := s.fn fn
      let c := fld g.apctl.toNat 5 0
      let va := (g.apctl.toNat / 2 ^ 16 * 2 ^ 16 + off) % 2 ^ 64
      (g.apctl.getLsbD 7 = false → exec (.hostWindowRequest fn off 0 n data) s = .next (s.windowRefuse fn va false)
        ∧ exec (.hostWindowRequest fn off 1 n data) s = .next (s.windowRefuse fn va true))
      ∧ (g.apctl.getLsbD 7 = true → s.owns fn c = true →
        ((s.healed c va n).windowOk c va n .w = true →
          exec (.hostWindowRequest fn off 1 n data) s = .next ((s.healed c va n).writeVa (agent c) .gl va (data.take n) none).1)
        ∧ ∀ t bs, s.windowOk c va n .r = true → s.readVa (agent c) .gl va n .r = (t, .ok bs) →
          exec (.hostWindowRequest fn off 0 n data) s = .next { t with sent := t.sent ++ [.window (some bs)] })

/-- R451, R452: a function's reset clears DONE, takes each of its contexts through the steps that `State.resetCtx` makes, and drops its
pending messages; at its end its key slots are erased and its contexts freed, and DONE reads 1. R470 to R472, R476, R477: a package reset
leaves the flash and what lies behind the host ports, empties the rest, holds the device in recovery where the ROM cannot read its fuses
or the flash, or the image does not pass both signature checks and the SVN floor, and ends where the die link does not train, in both
cases before memory is written; a power interval moves the throttle by a step of R477, which sets every island's rate and the governor's
limit; a droop stretches an island's clock until the supply recovers. That islands run at their ceiling, what a function reset leaves in
other registers, that a die link which does not train ends the bring-up with memory unwritten, and that whether the ROM reads fuses and
flash is a free value, are the model's choices and readings (log entries 11, 35, 69, 85). -/
def Obligations.ResetsAndPower : Prop :=
  (∀ (s : State) (fn : Nat),
      (s.fnOpen fn = true → exec (.functionReset fn) s = .next (
        let v := s.onFn fn fun f => { f with resetting := true, done := false }
        let v := (v.ctxsOf fn).foldl State.resetCtx v
        v.onFn fn fun f => { f with msix := f.msix.map fun m => { m with pend := false } }))
      ∧ (s.fnOpen fn = false → exec (.functionReset fn) s = .next s)
      ∧ ((s.fn fn).resetting = false → exec (.functionResetComplete fn) s = .next s)
      ∧ ((s.fn fn).resetting = true → exec (.functionResetComplete fn) s = .next (
        let v := s.eraseKeys fn
        let v := (v.ctxsOf fn).foldl State.freeCtx v
        v.onFn fn fun f => { f with resetting := false, done := true })))
  ∧ (∀ (s : State) (a b c : Bool) (pm isl : Nat),
      let svn := Config.imageSvn s.ctl.flash
      let good := Config.bootReads s.freeIdx && Config.ecdsaVerify Config.ecdsaKey (Config.digest s.ctl.flash) svn (Config.ecdsaSig s.ctl.flash)
        && Config.lmsVerify Config.lmsKey (Config.digest s.ctl.flash) svn (Config.lmsSig s.ctl.flash) && decide (s.ctl.svnf ≤ svn)
      (∃ t, exec (.packageReset a b c) s = .next t
        ∧ t.ctl.flash = s.ctl.flash ∧ t.groups = [] ∧ t.teams = [] ∧ t.kernels = []
        ∧ t.l2 = [] ∧ t.ctl.pcap = State.reset.ctl.pcap
        ∧ t.ctl.recovery = !good ∧ t.ctl.halted = (good && !c) ∧ t.ctl.dead = (good && !c)
        ∧ ((good && c) = true → t.mem = s.mem.filter (fun c => behindPort c.1) ∧ t.ctl.keys = State.reset.ctl.keys)
        ∧ ((good && c) = false → t.mem = s.mem ∧ t.ctl.keys = List.replicate 256 .empty))
      ∧ (let t := throttleNext pm s.ctl.pcap s.ctl.throttle
        exec (.powerInterval pm) s = .next { s with
          ctl := { s.ctl with measured := pm, throttle := t },
          islands := s.islands.map (fun x => { x with rate := 48 * (16 - t), mhz := 1100 - 50 * t }),
          ring := { s.ring with gp := 16 - t / 2 } })
      ∧ exec (.droop isl) s = .next { s with islands := updAt s.islands isl fun x => { x with stretched := true } }
      ∧ exec (.supplyRecovery isl) s = .next { s with islands := updAt s.islands isl fun x => { x with stretched := false } })

/-- R460, R463, R465, R468, R469: a port's state moves by its events only from the states that admit them, with a link event, and not
while the links are not exposed; packets held go out when training ends; a transfer is dropped when its port fails; the die link's fatal
error faults the bound contexts; the clock takes its measurement, of which a forward step is made at once and a backward one by a hold
that lasts until true time reaches the count. That the servo's state and the measured offset come with the event is the model's choice
(log entry 38). -/
def Obligations.LinkEvents : Prop :=
  ∀ (s : State) (p fn rate width st : Nat) (full : Bool) (offs : Int) (x : Port), s.ports[p]? = some x →
    let move := fun (y : Port) => ({ s with ports := s.ports.set p y } : State).linkEvent p
    (s.exposed = false → ∀ i ∈ [Instr.partnerDetected p, .trainingEnd p rate width full, .trainingFailed p, .laneLost p, .partnerLost p,
      .linkRetrainRequest fn p], exec i s = .next s)
    ∧ (s.exposed = true →
    (exec (.partnerDetected p) s = .next (if x.st = .down then move { x with st := .training } else s))
    ∧ (exec (.trainingEnd p rate width full) s = .next (if x.st = .training then
        let v := move { x with st := if full then .up else .degraded, rate := rate % 16, width := width % 256 }
        if 2 ≤ p then v.releaseHeld (p - 2) else v
      else s))
    ∧ (x.st ≠ .training → exec (.trainingFailed p) s = .next s)
    ∧ (x.st = .training → exec (.trainingFailed p) s = .next (
        let v := move { x with st := .failed }
        let v := if 2 ≤ p then v.releaseHeld (p - 2) else v
        (v.xfers.filter fun y => y.port + 2 = p).foldl (fun s y => s.xferFail y true) v))
    ∧ (exec (.laneLost p) s = .next (if x.st = .up ∨ x.st = .degraded then
        move { x with st := .training, retrain := min (x.retrain + 1) (2 ^ 15 - 1) } else s))
    ∧ (exec (.partnerLost p) s = .next (if x.st = .up ∨ x.st = .degraded then move { x with st := .down } else s))
    ∧ (s.fnOpen 0 = true → exec (.linkRetrainRequest 0 p) s = .next (if x.st = .failed then
        move { x with st := .training, retrain := 0 } else s)))
    ∧ (fn ≠ 0 → exec (.linkRetrainRequest fn p) s = .next s)
    ∧ (exec .dieLinkFatalError s = .next (
        let hit := (List.range s.ctxs.length).filter fun c =>
          (s.ctx c).st ≠ .free && (s.ctx c).st ≠ .resetting && (s.ctx c).st ≠ .faulted
        let v := hit.foldl (fun s c =>
          (s.post c { Rec.blank with cause := cMACHINE, detail := 7, kind := 5 }).contextFault c false) s
        ({ v with ctl := { v.ctl with dead := true } } : State).linkEvent 14))
    ∧ (st ≤ 2 → exec (.timeSync offs st) s = .next { s with clock := { s.clock with
        offs := offs, st := st,
        ns := if s.clock.st = 1 ∧ offs < -1000000 then s.clock.ns + (-offs).toNat else s.clock.ns,
        hold := if (s.clock.st = 1 ∧ 1000000 < offs) ∨ s.clock.hold ≠ 0 then offs.toNat else 0 } })

/-- R472, R474, R475, R477: the objects of a key manager and a power manager. A key is loaded or erased only in a secured session, never
in slot 0 or in a slot of another function; PCAP takes 1000 to 3200; an unknown object is answered 0xff; FWLOAD takes an image whose two
signatures verify, of an SVN at or above the floor, and resets (R471), where the ROM can read the fuses and the flash (R470). What
KEYERASE answers outside a session, whether a signature verifies, and whether the ROM reads fuses and flash, are free values; that PCAP
has its new value at once is the model's reading (log entries 7, 8, 38, 85). -/
def Obligations.VendorObjects : Prop :=
  ∀ (s : State) (req : List Byte) (secured : Bool),
    let tgt := fieldAt req 2 1
    let slot := fieldAt req 3 1
    let key := (req.drop 16).take 64
    (s.exposed = true →
      (fieldAt req 0 1 = 1 →
        (s.inSession secured = false → exec (.keyload req secured) s = .next (s.doeReply req 1 []))
        ∧ (s.inSession secured = true →
          (slot = 0 → exec (.keyload req secured) s = .next (s.doeReply req 3 []))
          ∧ (slot ≠ 0 → (s.ctl.keys.getD slot .empty).foreign tgt = true → exec (.keyload req secured) s = .next (s.doeReply req 2 []))
          ∧ (slot ≠ 0 → (s.ctl.keys.getD slot .empty).foreign tgt = false → exec (.keyload req secured) s
            = .next ((s.setKey slot (if ofBytes key = 0 then .null tgt else .key tgt key)).doeReply req 0 []))))
      ∧ (fieldAt req 0 1 = 2 → s.inSession secured = false → ∃ t st, exec (.keyerase req secured) s = .next t ∧ t.ctl = s.ctl
        ∧ st ∈ [0, 2, 3] ∧ t.sent = s.sent ++ [.doe (req.take 1 ++ toBytes 1 st ++ (req.drop 2).take 14)])
      ∧ (fieldAt req 0 1 = 2 → s.inSession secured = true →
        (slot = 0 → exec (.keyerase req secured) s = .next (s.doeReply req 3 []))
        ∧ (slot ≠ 0 → (s.ctl.keys.getD slot .empty).foreign tgt = true → exec (.keyerase req secured) s = .next (s.doeReply req 2 []))
        ∧ (slot ≠ 0 → (s.ctl.keys.getD slot .empty).foreign tgt = false → exec (.keyerase req secured) s
          = .next ((s.setKey slot .empty).doeReply req 0 [])))
      ∧ (fieldAt req 0 1 = 3 →
        (1000 ≤ fieldAt req 16 4 → fieldAt req 16 4 ≤ 3200 → exec (.pcap req) s
          = .next ((s.onCtl fun c => { c with pcap := fieldAt req 16 4 }).doeReply req 0 []))
        ∧ (¬(1000 ≤ fieldAt req 16 4 ∧ fieldAt req 16 4 ≤ 3200) → exec (.pcap req) s = .next (s.doeReply req 4 [])))
      ∧ (fieldAt req 0 1 = 5 → exec (.pstat req) s
        = .next (s.doeReply req 0 (toBytes 4 s.ctl.pcap ++ toBytes 4 s.ctl.measured ++ toBytes 4 s.ctl.throttle)))
      ∧ (¬(1 ≤ fieldAt req 0 1 ∧ fieldAt req 0 1 ≤ 5) → exec (.doeUnknownObject req) s = .next (s.doeReply req 0xff [])))
    ∧ (fieldAt req 0 1 = 4 → s.ctl.halted = false →
      let image := req.drop 16
      let svn := Config.imageSvn image
      let ecdsa := Config.ecdsaVerify Config.ecdsaKey (Config.digest image) svn (Config.ecdsaSig image)
      let lms := Config.lmsVerify Config.lmsKey (Config.digest image) svn (Config.lmsSig image)
      ((ecdsa = false ∨ lms = false ∨ svn < s.ctl.svnf) → exec (.fwload req) s = .next (s.doeReply req 5 []))
      ∧ (ecdsa = true → lms = true → s.ctl.svnf ≤ svn →
        ∃ t, exec (.fwload req) s = .next t ∧ t.ctl.flash = req.drop 16 ∧ t.groups = State.reset.groups
          ∧ t.ctl.recovery = !Config.bootReads s.freeIdx
          ∧ (Config.bootReads s.freeIdx = true → t.ctl.svnf = Config.imageSvn (req.drop 16) ∧ t.ctl.keys = State.reset.ctl.keys)))

/-- R472, R473: the attestation requests. Before the links are exposed, and in recovery, only GET_VERSION is answered, with the versions
1.2 and 1.3; the one algorithm set is ECDSA P-384 with SHA-384; a session is secured by a `FINISH` whose proof verifies after a
`KEY_EXCHANGE`, and ended by `END_SESSION`. The bytes of the answers beyond those that R473 gives are free values; that `GET_VERSION` ends
a session, and the codes that stand for versions and algorithms, are the model's choices (log entry 8). -/
def Obligations.Attestation : Prop :=
  ∀ (s : State) (data : List Byte),
    (s.ctl.halted = false → exec (.getVersion data) s = .next { s with
      ctl := { s.ctl with spdm := .none }, sent := s.sent ++ [.doe ([0x12, 0x13] ++ Config.attest 0 (data ++ [0x12, 0x13]))] })
    ∧ (s.exposed = false → ∀ i ∈ [Instr.getCapabilities data, .negotiateAlgorithms data, .getDigests data, .getCertificate data,
        .challenge data, .getMeasurements data, .keyExchange data, .finish data, .endSession data], exec i s = .next s)
    ∧ (s.exposed = true →
      (∀ x ∈ [(1, Instr.getCapabilities data), (3, .getDigests data), (4, .getCertificate data)],
        exec x.2 s = .next (s.spdmReply x.1 data []))
      ∧ (let set := toBytes 4 0x80 ++ toBytes 4 0x02
        exec (.negotiateAlgorithms data) s = .next { s with sent := s.sent ++ [.doe (set ++ Config.attest 2 (data ++ set))] })
      ∧ exec (.challenge data) s = .next (s.spdmReply 5 data s.measurements.flatten)
      ∧ exec (.getMeasurements data) s = .next { s with
          sent := s.sent ++ [.doe (s.measurements.flatten ++ Config.attest 6 (data ++ s.measurements.flatten))] }
      ∧ exec (.keyExchange data) s = .next ((s.onCtl fun c => { c with spdm := .handshake }).spdmReply 7 data [])
      ∧ (s.ctl.spdm = .handshake → Config.finishValid data = true →
        exec (.finish data) s = .next ((s.onCtl fun c => { c with spdm := .secured }).spdmReply 8 data []))
      ∧ ((s.ctl.spdm ≠ .handshake ∨ Config.finishValid data = false) → exec (.finish data) s = .next (s.spdmReply 8 data []))
      ∧ exec (.endSession data) s = .next ((s.onCtl fun c => { c with spdm := .none }).spdmReply 9 data []))

/-- R22, R29, R85, R387, R492: a step, before which outside agents may have written memory behind the host ports. The first instruction of
the agenda is run. Where the agenda is empty and it is a group's turn, the packet at its issue PC is fetched, and the instruction that it
decodes there is run on the latched chain; a chain runs its instructions in slot order; a PC at which nothing can issue and a failed fetch
fault the lanes there; a fetch that a port in training holds changes nothing (R468), and so does a wait that still stands. That a chain's
registers are latched when it issues, that one step is one clk, the agenda, the order of agents, the list of outside writes and what a
port in training holds are the model's choices (log entries 1, 4, 11, 62, 84). -/
def Obligations.StepRunsDecoded : Prop :=
  ∀ (s0 : State), let s := s0.outsideWrites
    (∀ i is, s.agenda = i :: is → step s0 = exec i { s.tick with agenda := is })
    ∧ (s.agenda = [] → s.pick = none → ∀ i, s.tick.nextEvent = some i → step s0 = exec i s.tick)
    ∧ (s.agenda = [] → s.pick = none → s.tick.nextEvent = none → step s0 = .next s.tick)
    ∧ ∀ gi pc, s.agenda = [] → s.pick = some gi → s.turn % 2 = 0 →
      let v := s.tick.choose gi
      (v.grp gi).issuePc = some pc →
      (((v.grp gi).cur.any fun t => t.resume.isSome && (v.grp gi).waitStands t) = true → step s0 = .next v)
      ∧ (((v.grp gi).cur.any fun t => t.resume.isSome && (v.grp gi).waitStands t) = false →
      (¬(slotOf pc < 3 ∧ pkt pc < v.segment (v.grp gi)) → step s0 = .next (v.pcFault gi pc))
      ∧ (slotOf pc < 3 → pkt pc < v.segment (v.grp gi) →
        (∀ t cause detail addr, v.packet (v.grp gi) (pkt pc) = (t, .error (cause, detail, addr)) →
          step s0 = .next (if cause = cHOLD then t else t.fetchFault gi pc cause detail addr))
        ∧ ∀ t ws, v.packet (v.grp gi) (pkt pc) = (t, .ok ws) →
          let gs := chainAt ws (slotOf pc)
          let u := t.latch gi pc gs.length (chainLen gs)
          (issuable ws (slotOf pc) = false → step s0 = .next (t.pcFault gi pc))
          ∧ (issuable ws (slotOf pc) = true → leastOf (chainViol u.iss.snap gs) = none →
            (∀ i, gs.filterMap Got.instr = [i] → step s0 = exec i u)
            ∧ ∀ is, gs.filterMap Got.instr = is → is.length ≠ 1 → step s0 = runChain u is u)))

/-- The words that the spec writes out decode to what its assembly says, and are what the encoder gives; the all-zero and the all-ones
word are ILLEGAL (R38). -/
def Obligations.DecodeWords : Prop :=
  (∀ t ∈ [workedControl, workedArithmetic, workedMemory, workedExchange], ∀ x ∈ t,
    (decodeAt x.1 0).instr = some x.2 ∧ (decodeAt x.1 0).bad = [] ∧ (decodeAt x.1 0).len = x.1.length ∧ encode x.2 = x.1)
  ∧ leastOf (decodeAt [0#32] 0).bad = some 2 ∧ leastOf (decodeAt [0xffffffff#32] 0).bad = some 1

/-- R25, R27, R34 to R41: for every well-formed instruction that has words, with every operand at every value, its words decode to it,
with its length, its chain bit and its guard, and break no rule. -/
def Obligations.DecodeOfEncode : Prop :=
  ∀ (i : Instr) (h : Hdr), i.wf = true → i.hdr? = some h → decodeAt (encode i) 0 = ⟨some i, (encode i).length, h.c, h.g, [], none⟩

/-- R29 to R32: a chain that breaks a rule of R31 raises precise ILLEGAL with the lowest detail, at most 6 (4 for an end, 5 for a pipe, 6
for a register where no word breaks a rule of its own), and nothing of it is run. That a write to p0 counts is the model's choice (log
entry 49). -/
def Obligations.ChainRules : Prop :=
  ∀ (s : State) (gi : Nat) (pc : Word) (ws : List Word), let gs := chainAt ws (slotOf pc)
    let v := s.latch gi pc gs.length (chainLen gs)
    chainBroken gs → ∃ d, d ≤ 6 ∧ leastOf (chainViol v.iss.snap gs) = some d
      ∧ ((∀ x ∈ gs, Got.codes v.iss.snap x = []) → d = if chainEnds gs then (if ((chainSpecs gs).map WordSpec.pipe).Nodup then 6 else 5) else 4)
      ∧ s.issueAt gi pc ws = .next (v.precise cILLEGAL d (chainLanes v.iss.snap v.iss.at_ gs))

/-- R470 to R477, R468: what reset leaves where the spec says it: no group, team, kernel or bound context; every byte of on-package memory
0; ports down; key slot 0 the device's and every other empty; PCAP 3200 W; no session. Zero in memory behind ports and in every field that
the spec gives no reset value is the model's choice (log entries 2, 12 to 19). -/
def Obligations.ResetState : Prop :=
  let z := State.reset
  z.groups = [] ∧ z.teams = [] ∧ z.kernels = [] ∧ z.jobs = [] ∧ z.seqs = [] ∧ (∀ c, (z.ctx c).st = .free)
    ∧ (∀ pa, z.physByte pa = 0) ∧ (∀ p ∈ z.ports, p.st = .down)
    ∧ z.ctl.keys.head? = some .device ∧ (∀ n, n ≠ 0 → z.ctl.keys.getD n .empty = .empty)
    ∧ z.ctl.pcap = 3200 ∧ z.ctl.throttle = 0 ∧ z.ctl.spdm = .none ∧ z.memWf

/-- An invariant of the model: in every state whose memories are in canonical form, a step leaves them so. The form is the model's own
(log entry 2). -/
def Obligations.StepKeepsMemory : Prop :=
 ∀ s t : State, s.memWf → step s = .next t → t.memWf

/-- No step is refused and none ends the run: a fault of a program is a trap that the machine takes (R416 to R430). The outcomes of a step
are the model's own form. -/
def Obligations.EveryStepGoesOn : Prop :=
 (∀ s : State, ∃ t, step s = .next t) ∧ ∀ (i : Instr) (s : State), ∃ t, exec i s = .next t

/-- R24, R40, R41, R43, R45, R190, R242, R424: the checks before a word, one for all words but `mma`. A word that names a register it does
not hold breaks EXTREG (0x0a), one that handler mode does not allow HNOT (0x0e), and some break a rule of their own; of the rules that a
word breaks the lowest code is recorded, and where no lane issues the lanes at the PC take it. Then, for lanes, one that names a pending
register raises HAZARD with the lowest name; one whose counter stands at 63, with what its chain has added, is held; a side-effecting word
is held behind an ordered atomic, of its own chain too, and a matrix operation. That a side-effecting word is held, with its chain, behind
an ordered atomic of an earlier slot of its own chain is the model's reading of R190 (log entry 53). -/
def Obligations.ChecksBeforeWords : Prop :=
  ∀ (i : Instr) (w : WordSpec) (s : State), specOf i = some w → isMma i = false → let c := wctx w.h s
    let own := ownRule i s
    (own = some 0x02 → Unlawful i w s 0x02)
    ∧ (own ≠ some 0x02 → (∃ n ∈ w.vr ++ w.vw, c.snap.holds n = false) → Unlawful i w s 0x0a)
    ∧ ((∀ n ∈ w.vr ++ w.vw, c.snap.holds n = true) →
      (w.hnot = true → c.hm = true → own = none → Unlawful i w s 0x0e)
      ∧ (∀ d, own = some d → Unlawful i w s d)
      ∧ ((w.hnot && c.hm) = false → own = none → c.lanes ≠ 0#32 →
        (∀ d, leastOf (pendingOf w c.snap) = some d → exec i s = .next (s.precise cHAZARD d c.lanes))
        ∧ (pendingOf w c.snap = [] →
          (∀ k, w.cnt = some k → 63 ≤ c.now.cnt k → exec i s = .next (s.holdIssue (.counter k)))
          ∧ ((∀ k, w.cnt = some k → c.now.cnt k < 63) → w.side = true →
            (sideHeld c.snap (w.cnt = some .tl) = true → exec i s = .next (s.holdIssue .side))
            ∧ (sideHeld c.snap (w.cnt = some .tl) = false →
              (∃ o ∈ c.now.ops, o.kind.ordered = true ∧ o.todo ≠ 0#32 ∧ c.snap.nextOp ≤ o.id) →
              exec i s = .next (s.holdIssue .order))))))

/-- R24: a word for which no lane issues and that breaks no rule has no effect, and its lanes advance; those of a `loop` go past its body. -/
def Obligations.WordsForNoLane : Prop :=
  ∀ (i : Instr) (w : WordSpec) (s : State), specOf i = some w → Clear w s → ownRule i s = none → lanes w s = 0#32 →
    (isLoop i = false → exec i s = .next s.advance.finish)
    ∧ ∀ h l n k a, i = .loop h l n k ∨ i = .loopRegister h l n a → exec i s = .next (s.advance.onGrp s.iss.gi fun g =>
        g.onLanes s.iss.at_ fun _ x => if x.st = .runnable then { x with pcv := mkPc (pkt s.iss.pc + n.toNat + 1) 0 } else x).finish

/-- R418, R419, R425: a precise fault outside handler mode marks each of its lanes with cause, detail and region, at the PC of the chain,
and the region entry there; the trap that may follow at once leaves the marks. In handler mode it parks the group with a record that is
marked H, and the team that holds its core leaves it. R420, R424, R94: a trap. Lanes whose cause goes to the system path park the group,
and its team leaves its core; else a group with a handler enters it, with its lanes as they are; else the group parks with every faulted
lane. A TIMEOUT that is due goes the same ways: to the system path with a record of its detail and no lane, to the handler with its cause
and detail in `gfc`; in each case it is due no more. That lanes keep their marks beside a handler's fault, and that an abort traps at
once, are the model's readings (log entries 70, 71). -/
def Obligations.FaultsAndTraps : Prop :=
  (∀ (s : State) (cause detail : Nat) (ls : Lanes), s.iss.gi < s.groups.length →
      (s.iss.snap.hm = false → ∀ l : Fin 32, ls.getLsbD l = true →
        let x := ((s.precise cause detail ls).grp s.iss.gi).lanes[l]
        x.st = .faulted ∧ x.pcv = s.iss.pc ∧ x.rpc = s.iss.pc ∧ x.fcs = mkFcs false cause detail ∧ x.fad = 0
          ∧ x.frgn = (s.grp s.iss.gi).rgn)
      ∧ (s.iss.snap.hm = true → let t := s.precise cause detail ls
        (t.grp s.iss.gi).status = .parked true ∧ LeavesForTrap s t (s.grp s.iss.gi).team
          ∧ (s.ctxOf (s.grp s.iss.gi) < s.ctxs.length → ∃ r ∈ (t.ctx (s.ctxOf (s.grp s.iss.gi))).recs, r.kind = 1 ∧ r.gi = some s.iss.gi
            ∧ r.cause = cause ∧ r.detail = detail ∧ r.flg.testBit 0 = true ∧ r.fmask = ls ∧ r.pc = s.iss.pc)))
  ∧ (∀ (s : State) (gi : Nat) (rep : Bool), gi < s.groups.length → let g := s.grp gi
      let t := s.takeTrap gi rep
      (g.systemLanes ≠ 0#32 ∨ (g.due = none ∧ (g.htv.getLsbD 0 = false ∨ rep = true)) → (t.grp gi).status = .parked g.hm ∧ (t.grp gi).lanes = g.lanes
        ∧ t.mem = s.mem ∧ LeavesForTrap s t g.team ∧ (s.ctxOf g < s.ctxs.length → ∃ r, (t.ctx (s.ctxOf g)).recs = (s.ctx (s.ctxOf g)).recs ++ [r]
          ∧ r.kind = 1 ∧ r.gi = some gi ∧ r.fmask = if g.systemLanes ≠ 0#32 then g.systemLanes else g.inState .faulted))
      ∧ (g.systemLanes = 0#32 → g.due = none → g.htv.getLsbD 0 = true → rep = false →
        (t.grp gi).status = .handler ∧ (t.grp gi).hpc = mkPc (g.htv.toNat / 4) 0 ∧ (t.grp gi).gfc = 0 ∧ (t.grp gi).lanes = g.lanes
          ∧ (t.grp gi).s = g.s ∧ (t.grp gi).v = g.v ∧ t.ctxs = s.ctxs ∧ t.mem = s.mem)
      ∧ ∀ d, g.due = some d → g.systemLanes = 0#32 → (t.grp gi).due = none ∧ (t.grp gi).lanes = g.lanes ∧ t.mem = s.mem ∧
        (g.toSystem cTIMEOUT = true ∨ ((g.htv.getLsbD 0 = false ∨ rep = true) ∧ g.inState .faulted = 0#32) →
          (t.grp gi).status = .parked g.hm ∧ LeavesForTrap s t g.team ∧ (s.ctxOf g < s.ctxs.length →
            ∃ r, (t.ctx (s.ctxOf g)).recs = (s.ctx (s.ctxOf g)).recs ++ [r] ∧ r.kind = 1 ∧ r.gi = some gi ∧ r.cause = cTIMEOUT ∧ r.detail = d
              ∧ r.fmask = 0#32))
        ∧ (g.toSystem cTIMEOUT = false → (g.htv.getLsbD 0 = false ∨ rep = true) → g.inState .faulted ≠ 0#32 →
          (t.grp gi).status = .parked g.hm ∧ LeavesForTrap s t g.team)
        ∧ (g.toSystem cTIMEOUT = false → g.htv.getLsbD 0 = true → rep = false →
          (t.grp gi).status = .handler ∧ (t.grp gi).hpc = mkPc (g.htv.toNat / 4) 0 ∧ (t.grp gi).gfc = BitVec.ofNat 32 (cTIMEOUT + d * 256)))

/-- R127: the borderline operands of the integer functions have fixed results, and the integer words set no flag. -/
def Obligations.IntegerBorderlines : Prop :=
  (∀ x y : Word,
    (32 ≤ y.toNat → binFn .shl x y = 0 ∧ binFn .shr x y = 0 ∧ binFn .sra x y = if x.msb then 0xffffffff#32 else 0#32)
    ∧ binFn .divN x 0 = 0xffffffff#32 ∧ binFn .divI x 0 = 0xffffffff#32 ∧ binFn .remN x 0 = x ∧ binFn .remI x 0 = x
    ∧ binFn .divI 0x80000000#32 0xffffffff#32 = 0x80000000#32 ∧ binFn .remI 0x80000000#32 0xffffffff#32 = 0#32)
  ∧ ∀ (h : Hdr) (m : Bool) (d a b e : BitVec 6) (pos : BitVec 5) (sel : BitVec 3) (p : BitVec 2) (s t : State),
    ∀ i ∈ integerWords h m d a b e pos sel p, exec i s = .next t →
      ∀ (gi : Nat) (l : Fin 32), ((t.grp gi).lanes[l]).xf = ((s.grp gi).lanes[l]).xf

/-- The frame of the integer words, whether they complete or fault: every byte of every memory, every job, sequence, kernel header and
ring entry is as it was; of their own group every vector and scalar register but those that the word names as its destination, with its
tag, and every predicate, mask and control register that software writes but for the loop counters, and of every other group all of them;
of every lane the flags, and of every lane that does not stand at the word its region entry and its fault registers. -/
def Obligations.IntegerFrame : Prop :=
  ∀ (h : Hdr) (m : Bool) (d a b e : BitVec 6) (pos : BitVec 5) (sel : BitVec 3) (p : BitVec 2) (s t : State) (w : WordSpec),
    ∀ i ∈ integerWords h m d a b e pos sel p, specOf i = some w → exec i s = .next t →
    t.mem = s.mem ∧ t.l2 = s.l2 ∧ t.bb = s.bb ∧ t.jobs = s.jobs ∧ t.seqs = s.seqs ∧ t.ring = s.ring
      ∧ t.kernels.map (fun k => k.h) = s.kernels.map (fun k => k.h)
      ∧ (∀ n off, spByte t n off = spByte s n off)
      ∧ (∀ gi, gi ≠ s.iss.gi → let g := s.grp gi
        let u := t.grp gi
        u.v = g.v ∧ u.tags = g.tags ∧ u.s = g.s ∧ softRegs u = softRegs g
          ∧ ∀ l : Fin 32, u.lanes[l].xf = g.lanes[l].xf ∧ softLane u.lanes[l] = softLane g.lanes[l])
      ∧ (let g := s.grp s.iss.gi
        let u := t.grp s.iss.gi
        (∀ r : Fin 64, (r.val ∉ w.vw → u.v[r] = g.v[r] ∧ u.tags[r] = g.tags[r]) ∧ (r.val ∉ w.sw → u.s[r] = g.s[r]))
          ∧ softRegs u = softRegs g
          ∧ ∀ l : Fin 32, u.lanes[l].xf = g.lanes[l].xf
            ∧ (s.iss.at_.getLsbD l = false → softLane u.lanes[l] = softLane g.lanes[l]))

end
end

