-- ==== Sys2Proof/Laws/State.lean ====
section
/-! SUPPORT. What each update of the state and of a group leaves in each field: one lemma per field per update, so that no later
proof unfolds a record update. -/
namespace Sys2Proof.Machine

/-! ### `State.setGrp`: one group replaced -/

@[simp] theorem State.setGrp_groups (s : State) (gi : Nat) (g : Group) : (s.setGrp gi g).groups = s.groups.set gi g := rfl
@[simp] theorem State.setGrp_teams (s : State) (gi : Nat) (g : Group) : (s.setGrp gi g).teams = s.teams := rfl
@[simp] theorem State.setGrp_kernels (s : State) (gi : Nat) (g : Group) : (s.setGrp gi g).kernels = s.kernels := rfl
@[simp] theorem State.setGrp_ctxs (s : State) (gi : Nat) (g : Group) : (s.setGrp gi g).ctxs = s.ctxs := rfl
@[simp] theorem State.setGrp_mem (s : State) (gi : Nat) (g : Group) : (s.setGrp gi g).mem = s.mem := rfl
@[simp] theorem State.setGrp_empty (s : State) (gi : Nat) (g : Group) : (s.setGrp gi g).empty = s.empty := rfl
@[simp] theorem State.setGrp_poison (s : State) (gi : Nat) (g : Group) : (s.setGrp gi g).poison = s.poison := rfl
@[simp] theorem State.setGrp_bbPoison (s : State) (gi : Nat) (g : Group) : (s.setGrp gi g).bbPoison = s.bbPoison := rfl
@[simp] theorem State.setGrp_l2 (s : State) (gi : Nat) (g : Group) : (s.setGrp gi g).l2 = s.l2 := rfl
@[simp] theorem State.setGrp_memKeys (s : State) (gi : Nat) (g : Group) : (s.setGrp gi g).memKeys = s.memKeys := rfl
@[simp] theorem State.setGrp_outside (s : State) (gi : Nat) (g : Group) : (s.setGrp gi g).outside = s.outside := rfl
@[simp] theorem State.setGrp_errors (s : State) (gi : Nat) (g : Group) : (s.setGrp gi g).errors = s.errors := rfl
@[simp] theorem State.setGrp_tlb (s : State) (gi : Nat) (g : Group) : (s.setGrp gi g).tlb = s.tlb := rfl
@[simp] theorem State.setGrp_bb (s : State) (gi : Nat) (g : Group) : (s.setGrp gi g).bb = s.bb := rfl
@[simp] theorem State.setGrp_ring (s : State) (gi : Nat) (g : Group) : (s.setGrp gi g).ring = s.ring := rfl
@[simp] theorem State.setGrp_jobs (s : State) (gi : Nat) (g : Group) : (s.setGrp gi g).jobs = s.jobs := rfl
@[simp] theorem State.setGrp_nextJob (s : State) (gi : Nat) (g : Group) : (s.setGrp gi g).nextJob = s.nextJob := rfl
@[simp] theorem State.setGrp_jobCnt (s : State) (gi : Nat) (g : Group) : (s.setGrp gi g).jobCnt = s.jobCnt := rfl
@[simp] theorem State.setGrp_slotQ (s : State) (gi : Nat) (g : Group) : (s.setGrp gi g).slotQ = s.slotQ := rfl
@[simp] theorem State.setGrp_copies (s : State) (gi : Nat) (g : Group) : (s.setGrp gi g).copies = s.copies := rfl
@[simp] theorem State.setGrp_pageIns (s : State) (gi : Nat) (g : Group) : (s.setGrp gi g).pageIns = s.pageIns := rfl
@[simp] theorem State.setGrp_pins (s : State) (gi : Nat) (g : Group) : (s.setGrp gi g).pins = s.pins := rfl
@[simp] theorem State.setGrp_seqs (s : State) (gi : Nat) (g : Group) : (s.setGrp gi g).seqs = s.seqs := rfl
@[simp] theorem State.setGrp_gens (s : State) (gi : Nat) (g : Group) : (s.setGrp gi g).gens = s.gens := rfl
@[simp] theorem State.setGrp_xfers (s : State) (gi : Nat) (g : Group) : (s.setGrp gi g).xfers = s.xfers := rfl
@[simp] theorem State.setGrp_nextXfer (s : State) (gi : Nat) (g : Group) : (s.setGrp gi g).nextXfer = s.nextXfer := rfl
@[simp] theorem State.setGrp_msgs (s : State) (gi : Nat) (g : Group) : (s.setGrp gi g).msgs = s.msgs := rfl
@[simp] theorem State.setGrp_inbound (s : State) (gi : Nat) (g : Group) : (s.setGrp gi g).inbound = s.inbound := rfl
@[simp] theorem State.setGrp_landed (s : State) (gi : Nat) (g : Group) : (s.setGrp gi g).landed = s.landed := rfl
@[simp] theorem State.setGrp_heard (s : State) (gi : Nat) (g : Group) : (s.setGrp gi g).heard = s.heard := rfl
@[simp] theorem State.setGrp_colls (s : State) (gi : Nat) (g : Group) : (s.setGrp gi g).colls = s.colls := rfl
@[simp] theorem State.setGrp_chainLog (s : State) (gi : Nat) (g : Group) : (s.setGrp gi g).chainLog = s.chainLog := rfl
@[simp] theorem State.setGrp_meets (s : State) (gi : Nat) (g : Group) : (s.setGrp gi g).meets = s.meets := rfl
@[simp] theorem State.setGrp_fns (s : State) (gi : Nat) (g : Group) : (s.setGrp gi g).fns = s.fns := rfl
@[simp] theorem State.setGrp_sherr (s : State) (gi : Nat) (g : Group) : (s.setGrp gi g).sherr = s.sherr := rfl
@[simp] theorem State.setGrp_ports (s : State) (gi : Nat) (g : Group) : (s.setGrp gi g).ports = s.ports := rfl
@[simp] theorem State.setGrp_levt (s : State) (gi : Nat) (g : Group) : (s.setGrp gi g).levt = s.levt := rfl
@[simp] theorem State.setGrp_levv (s : State) (gi : Nat) (g : Group) : (s.setGrp gi g).levv = s.levv := rfl
@[simp] theorem State.setGrp_ctl (s : State) (gi : Nat) (g : Group) : (s.setGrp gi g).ctl = s.ctl := rfl
@[simp] theorem State.setGrp_islands (s : State) (gi : Nat) (g : Group) : (s.setGrp gi g).islands = s.islands := rfl
@[simp] theorem State.setGrp_clock (s : State) (gi : Nat) (g : Group) : (s.setGrp gi g).clock = s.clock := rfl
@[simp] theorem State.setGrp_sent (s : State) (gi : Nat) (g : Group) : (s.setGrp gi g).sent = s.sent := rfl
@[simp] theorem State.setGrp_heldPkts (s : State) (gi : Nat) (g : Group) : (s.setGrp gi g).heldPkts = s.heldPkts := rfl
@[simp] theorem State.setGrp_iss (s : State) (gi : Nat) (g : Group) : (s.setGrp gi g).iss = s.iss := rfl
@[simp] theorem State.setGrp_agenda (s : State) (gi : Nat) (g : Group) : (s.setGrp gi g).agenda = s.agenda := rfl
@[simp] theorem State.setGrp_turn (s : State) (gi : Nat) (g : Group) : (s.setGrp gi g).turn = s.turn := rfl
@[simp] theorem State.setGrp_served (s : State) (gi : Nat) (g : Group) : (s.setGrp gi g).served = s.served := rfl
@[simp] theorem State.setGrp_acqQ (s : State) (gi : Nat) (g : Group) : (s.setGrp gi g).acqQ = s.acqQ := rfl
@[simp] theorem State.setGrp_freeIdx (s : State) (gi : Nat) (g : Group) : (s.setGrp gi g).freeIdx = s.freeIdx := rfl
@[simp] theorem State.setGrp_clk (s : State) (gi : Nat) (g : Group) : (s.setGrp gi g).clk = s.clk := rfl

/-! ### `State.onGrp`: one group changed -/

@[simp] theorem State.onGrp_groups (s : State) (gi : Nat) (f : Group → Group) : (s.onGrp gi f).groups = s.groups.set gi (f (s.grp gi)) := rfl
@[simp] theorem State.onGrp_teams (s : State) (gi : Nat) (f : Group → Group) : (s.onGrp gi f).teams = s.teams := rfl
@[simp] theorem State.onGrp_kernels (s : State) (gi : Nat) (f : Group → Group) : (s.onGrp gi f).kernels = s.kernels := rfl
@[simp] theorem State.onGrp_ctxs (s : State) (gi : Nat) (f : Group → Group) : (s.onGrp gi f).ctxs = s.ctxs := rfl
@[simp] theorem State.onGrp_mem (s : State) (gi : Nat) (f : Group → Group) : (s.onGrp gi f).mem = s.mem := rfl
@[simp] theorem State.onGrp_empty (s : State) (gi : Nat) (f : Group → Group) : (s.onGrp gi f).empty = s.empty := rfl
@[simp] theorem State.onGrp_poison (s : State) (gi : Nat) (f : Group → Group) : (s.onGrp gi f).poison = s.poison := rfl
@[simp] theorem State.onGrp_bbPoison (s : State) (gi : Nat) (f : Group → Group) : (s.onGrp gi f).bbPoison = s.bbPoison := rfl
@[simp] theorem State.onGrp_l2 (s : State) (gi : Nat) (f : Group → Group) : (s.onGrp gi f).l2 = s.l2 := rfl
@[simp] theorem State.onGrp_memKeys (s : State) (gi : Nat) (f : Group → Group) : (s.onGrp gi f).memKeys = s.memKeys := rfl
@[simp] theorem State.onGrp_outside (s : State) (gi : Nat) (f : Group → Group) : (s.onGrp gi f).outside = s.outside := rfl
@[simp] theorem State.onGrp_errors (s : State) (gi : Nat) (f : Group → Group) : (s.onGrp gi f).errors = s.errors := rfl
@[simp] theorem State.onGrp_tlb (s : State) (gi : Nat) (f : Group → Group) : (s.onGrp gi f).tlb = s.tlb := rfl
@[simp] theorem State.onGrp_bb (s : State) (gi : Nat) (f : Group → Group) : (s.onGrp gi f).bb = s.bb := rfl
@[simp] theorem State.onGrp_ring (s : State) (gi : Nat) (f : Group → Group) : (s.onGrp gi f).ring = s.ring := rfl
@[simp] theorem State.onGrp_jobs (s : State) (gi : Nat) (f : Group → Group) : (s.onGrp gi f).jobs = s.jobs := rfl
@[simp] theorem State.onGrp_nextJob (s : State) (gi : Nat) (f : Group → Group) : (s.onGrp gi f).nextJob = s.nextJob := rfl
@[simp] theorem State.onGrp_jobCnt (s : State) (gi : Nat) (f : Group → Group) : (s.onGrp gi f).jobCnt = s.jobCnt := rfl
@[simp] theorem State.onGrp_slotQ (s : State) (gi : Nat) (f : Group → Group) : (s.onGrp gi f).slotQ = s.slotQ := rfl
@[simp] theorem State.onGrp_copies (s : State) (gi : Nat) (f : Group → Group) : (s.onGrp gi f).copies = s.copies := rfl
@[simp] theorem State.onGrp_pageIns (s : State) (gi : Nat) (f : Group → Group) : (s.onGrp gi f).pageIns = s.pageIns := rfl
@[simp] theorem State.onGrp_pins (s : State) (gi : Nat) (f : Group → Group) : (s.onGrp gi f).pins = s.pins := rfl
@[simp] theorem State.onGrp_seqs (s : State) (gi : Nat) (f : Group → Group) : (s.onGrp gi f).seqs = s.seqs := rfl
@[simp] theorem State.onGrp_gens (s : State) (gi : Nat) (f : Group → Group) : (s.onGrp gi f).gens = s.gens := rfl
@[simp] theorem State.onGrp_xfers (s : State) (gi : Nat) (f : Group → Group) : (s.onGrp gi f).xfers = s.xfers := rfl
@[simp] theorem State.onGrp_nextXfer (s : State) (gi : Nat) (f : Group → Group) : (s.onGrp gi f).nextXfer = s.nextXfer := rfl
@[simp] theorem State.onGrp_msgs (s : State) (gi : Nat) (f : Group → Group) : (s.onGrp gi f).msgs = s.msgs := rfl
@[simp] theorem State.onGrp_inbound (s : State) (gi : Nat) (f : Group → Group) : (s.onGrp gi f).inbound = s.inbound := rfl
@[simp] theorem State.onGrp_landed (s : State) (gi : Nat) (f : Group → Group) : (s.onGrp gi f).landed = s.landed := rfl
@[simp] theorem State.onGrp_heard (s : State) (gi : Nat) (f : Group → Group) : (s.onGrp gi f).heard = s.heard := rfl
@[simp] theorem State.onGrp_colls (s : State) (gi : Nat) (f : Group → Group) : (s.onGrp gi f).colls = s.colls := rfl
@[simp] theorem State.onGrp_chainLog (s : State) (gi : Nat) (f : Group → Group) : (s.onGrp gi f).chainLog = s.chainLog := rfl
@[simp] theorem State.onGrp_meets (s : State) (gi : Nat) (f : Group → Group) : (s.onGrp gi f).meets = s.meets := rfl
@[simp] theorem State.onGrp_fns (s : State) (gi : Nat) (f : Group → Group) : (s.onGrp gi f).fns = s.fns := rfl
@[simp] theorem State.onGrp_sherr (s : State) (gi : Nat) (f : Group → Group) : (s.onGrp gi f).sherr = s.sherr := rfl
@[simp] theorem State.onGrp_ports (s : State) (gi : Nat) (f : Group → Group) : (s.onGrp gi f).ports = s.ports := rfl
@[simp] theorem State.onGrp_levt (s : State) (gi : Nat) (f : Group → Group) : (s.onGrp gi f).levt = s.levt := rfl
@[simp] theorem State.onGrp_levv (s : State) (gi : Nat) (f : Group → Group) : (s.onGrp gi f).levv = s.levv := rfl
@[simp] theorem State.onGrp_ctl (s : State) (gi : Nat) (f : Group → Group) : (s.onGrp gi f).ctl = s.ctl := rfl
@[simp] theorem State.onGrp_islands (s : State) (gi : Nat) (f : Group → Group) : (s.onGrp gi f).islands = s.islands := rfl
@[simp] theorem State.onGrp_clock (s : State) (gi : Nat) (f : Group → Group) : (s.onGrp gi f).clock = s.clock := rfl
@[simp] theorem State.onGrp_sent (s : State) (gi : Nat) (f : Group → Group) : (s.onGrp gi f).sent = s.sent := rfl
@[simp] theorem State.onGrp_heldPkts (s : State) (gi : Nat) (f : Group → Group) : (s.onGrp gi f).heldPkts = s.heldPkts := rfl
@[simp] theorem State.onGrp_iss (s : State) (gi : Nat) (f : Group → Group) : (s.onGrp gi f).iss = s.iss := rfl
@[simp] theorem State.onGrp_agenda (s : State) (gi : Nat) (f : Group → Group) : (s.onGrp gi f).agenda = s.agenda := rfl
@[simp] theorem State.onGrp_turn (s : State) (gi : Nat) (f : Group → Group) : (s.onGrp gi f).turn = s.turn := rfl
@[simp] theorem State.onGrp_served (s : State) (gi : Nat) (f : Group → Group) : (s.onGrp gi f).served = s.served := rfl
@[simp] theorem State.onGrp_acqQ (s : State) (gi : Nat) (f : Group → Group) : (s.onGrp gi f).acqQ = s.acqQ := rfl
@[simp] theorem State.onGrp_freeIdx (s : State) (gi : Nat) (f : Group → Group) : (s.onGrp gi f).freeIdx = s.freeIdx := rfl
@[simp] theorem State.onGrp_clk (s : State) (gi : Nat) (f : Group → Group) : (s.onGrp gi f).clk = s.clk := rfl

/-! ### `State.onTeam`: one team changed -/

@[simp] theorem State.onTeam_groups (s : State) (n : Nat) (f : Team → Team) : (s.onTeam n f).groups = s.groups := rfl
@[simp] theorem State.onTeam_teams (s : State) (n : Nat) (f : Team → Team) : (s.onTeam n f).teams = updAt s.teams n f := rfl
@[simp] theorem State.onTeam_kernels (s : State) (n : Nat) (f : Team → Team) : (s.onTeam n f).kernels = s.kernels := rfl
@[simp] theorem State.onTeam_ctxs (s : State) (n : Nat) (f : Team → Team) : (s.onTeam n f).ctxs = s.ctxs := rfl
@[simp] theorem State.onTeam_mem (s : State) (n : Nat) (f : Team → Team) : (s.onTeam n f).mem = s.mem := rfl
@[simp] theorem State.onTeam_empty (s : State) (n : Nat) (f : Team → Team) : (s.onTeam n f).empty = s.empty := rfl
@[simp] theorem State.onTeam_poison (s : State) (n : Nat) (f : Team → Team) : (s.onTeam n f).poison = s.poison := rfl
@[simp] theorem State.onTeam_bbPoison (s : State) (n : Nat) (f : Team → Team) : (s.onTeam n f).bbPoison = s.bbPoison := rfl
@[simp] theorem State.onTeam_l2 (s : State) (n : Nat) (f : Team → Team) : (s.onTeam n f).l2 = s.l2 := rfl
@[simp] theorem State.onTeam_memKeys (s : State) (n : Nat) (f : Team → Team) : (s.onTeam n f).memKeys = s.memKeys := rfl
@[simp] theorem State.onTeam_outside (s : State) (n : Nat) (f : Team → Team) : (s.onTeam n f).outside = s.outside := rfl
@[simp] theorem State.onTeam_errors (s : State) (n : Nat) (f : Team → Team) : (s.onTeam n f).errors = s.errors := rfl
@[simp] theorem State.onTeam_tlb (s : State) (n : Nat) (f : Team → Team) : (s.onTeam n f).tlb = s.tlb := rfl
@[simp] theorem State.onTeam_bb (s : State) (n : Nat) (f : Team → Team) : (s.onTeam n f).bb = s.bb := rfl
@[simp] theorem State.onTeam_ring (s : State) (n : Nat) (f : Team → Team) : (s.onTeam n f).ring = s.ring := rfl
@[simp] theorem State.onTeam_jobs (s : State) (n : Nat) (f : Team → Team) : (s.onTeam n f).jobs = s.jobs := rfl
@[simp] theorem State.onTeam_nextJob (s : State) (n : Nat) (f : Team → Team) : (s.onTeam n f).nextJob = s.nextJob := rfl
@[simp] theorem State.onTeam_jobCnt (s : State) (n : Nat) (f : Team → Team) : (s.onTeam n f).jobCnt = s.jobCnt := rfl
@[simp] theorem State.onTeam_slotQ (s : State) (n : Nat) (f : Team → Team) : (s.onTeam n f).slotQ = s.slotQ := rfl
@[simp] theorem State.onTeam_copies (s : State) (n : Nat) (f : Team → Team) : (s.onTeam n f).copies = s.copies := rfl
@[simp] theorem State.onTeam_pageIns (s : State) (n : Nat) (f : Team → Team) : (s.onTeam n f).pageIns = s.pageIns := rfl
@[simp] theorem State.onTeam_pins (s : State) (n : Nat) (f : Team → Team) : (s.onTeam n f).pins = s.pins := rfl
@[simp] theorem State.onTeam_seqs (s : State) (n : Nat) (f : Team → Team) : (s.onTeam n f).seqs = s.seqs := rfl
@[simp] theorem State.onTeam_gens (s : State) (n : Nat) (f : Team → Team) : (s.onTeam n f).gens = s.gens := rfl
@[simp] theorem State.onTeam_xfers (s : State) (n : Nat) (f : Team → Team) : (s.onTeam n f).xfers = s.xfers := rfl
@[simp] theorem State.onTeam_nextXfer (s : State) (n : Nat) (f : Team → Team) : (s.onTeam n f).nextXfer = s.nextXfer := rfl
@[simp] theorem State.onTeam_msgs (s : State) (n : Nat) (f : Team → Team) : (s.onTeam n f).msgs = s.msgs := rfl
@[simp] theorem State.onTeam_inbound (s : State) (n : Nat) (f : Team → Team) : (s.onTeam n f).inbound = s.inbound := rfl
@[simp] theorem State.onTeam_landed (s : State) (n : Nat) (f : Team → Team) : (s.onTeam n f).landed = s.landed := rfl
@[simp] theorem State.onTeam_heard (s : State) (n : Nat) (f : Team → Team) : (s.onTeam n f).heard = s.heard := rfl
@[simp] theorem State.onTeam_colls (s : State) (n : Nat) (f : Team → Team) : (s.onTeam n f).colls = s.colls := rfl
@[simp] theorem State.onTeam_chainLog (s : State) (n : Nat) (f : Team → Team) : (s.onTeam n f).chainLog = s.chainLog := rfl
@[simp] theorem State.onTeam_meets (s : State) (n : Nat) (f : Team → Team) : (s.onTeam n f).meets = s.meets := rfl
@[simp] theorem State.onTeam_fns (s : State) (n : Nat) (f : Team → Team) : (s.onTeam n f).fns = s.fns := rfl
@[simp] theorem State.onTeam_sherr (s : State) (n : Nat) (f : Team → Team) : (s.onTeam n f).sherr = s.sherr := rfl
@[simp] theorem State.onTeam_ports (s : State) (n : Nat) (f : Team → Team) : (s.onTeam n f).ports = s.ports := rfl
@[simp] theorem State.onTeam_levt (s : State) (n : Nat) (f : Team → Team) : (s.onTeam n f).levt = s.levt := rfl
@[simp] theorem State.onTeam_levv (s : State) (n : Nat) (f : Team → Team) : (s.onTeam n f).levv = s.levv := rfl
@[simp] theorem State.onTeam_ctl (s : State) (n : Nat) (f : Team → Team) : (s.onTeam n f).ctl = s.ctl := rfl
@[simp] theorem State.onTeam_islands (s : State) (n : Nat) (f : Team → Team) : (s.onTeam n f).islands = s.islands := rfl
@[simp] theorem State.onTeam_clock (s : State) (n : Nat) (f : Team → Team) : (s.onTeam n f).clock = s.clock := rfl
@[simp] theorem State.onTeam_sent (s : State) (n : Nat) (f : Team → Team) : (s.onTeam n f).sent = s.sent := rfl
@[simp] theorem State.onTeam_heldPkts (s : State) (n : Nat) (f : Team → Team) : (s.onTeam n f).heldPkts = s.heldPkts := rfl
@[simp] theorem State.onTeam_iss (s : State) (n : Nat) (f : Team → Team) : (s.onTeam n f).iss = s.iss := rfl
@[simp] theorem State.onTeam_agenda (s : State) (n : Nat) (f : Team → Team) : (s.onTeam n f).agenda = s.agenda := rfl
@[simp] theorem State.onTeam_turn (s : State) (n : Nat) (f : Team → Team) : (s.onTeam n f).turn = s.turn := rfl
@[simp] theorem State.onTeam_served (s : State) (n : Nat) (f : Team → Team) : (s.onTeam n f).served = s.served := rfl
@[simp] theorem State.onTeam_acqQ (s : State) (n : Nat) (f : Team → Team) : (s.onTeam n f).acqQ = s.acqQ := rfl
@[simp] theorem State.onTeam_freeIdx (s : State) (n : Nat) (f : Team → Team) : (s.onTeam n f).freeIdx = s.freeIdx := rfl
@[simp] theorem State.onTeam_clk (s : State) (n : Nat) (f : Team → Team) : (s.onTeam n f).clk = s.clk := rfl

/-! ### `State.onCtx`: one context changed -/

@[simp] theorem State.onCtx_groups (s : State) (n : Nat) (f : Ctx → Ctx) : (s.onCtx n f).groups = s.groups := rfl
@[simp] theorem State.onCtx_teams (s : State) (n : Nat) (f : Ctx → Ctx) : (s.onCtx n f).teams = s.teams := rfl
@[simp] theorem State.onCtx_kernels (s : State) (n : Nat) (f : Ctx → Ctx) : (s.onCtx n f).kernels = s.kernels := rfl
@[simp] theorem State.onCtx_ctxs (s : State) (n : Nat) (f : Ctx → Ctx) : (s.onCtx n f).ctxs = updAt s.ctxs n f := rfl
@[simp] theorem State.onCtx_mem (s : State) (n : Nat) (f : Ctx → Ctx) : (s.onCtx n f).mem = s.mem := rfl
@[simp] theorem State.onCtx_empty (s : State) (n : Nat) (f : Ctx → Ctx) : (s.onCtx n f).empty = s.empty := rfl
@[simp] theorem State.onCtx_poison (s : State) (n : Nat) (f : Ctx → Ctx) : (s.onCtx n f).poison = s.poison := rfl
@[simp] theorem State.onCtx_bbPoison (s : State) (n : Nat) (f : Ctx → Ctx) : (s.onCtx n f).bbPoison = s.bbPoison := rfl
@[simp] theorem State.onCtx_l2 (s : State) (n : Nat) (f : Ctx → Ctx) : (s.onCtx n f).l2 = s.l2 := rfl
@[simp] theorem State.onCtx_memKeys (s : State) (n : Nat) (f : Ctx → Ctx) : (s.onCtx n f).memKeys = s.memKeys := rfl
@[simp] theorem State.onCtx_outside (s : State) (n : Nat) (f : Ctx → Ctx) : (s.onCtx n f).outside = s.outside := rfl
@[simp] theorem State.onCtx_errors (s : State) (n : Nat) (f : Ctx → Ctx) : (s.onCtx n f).errors = s.errors := rfl
@[simp] theorem State.onCtx_tlb (s : State) (n : Nat) (f : Ctx → Ctx) : (s.onCtx n f).tlb = s.tlb := rfl
@[simp] theorem State.onCtx_bb (s : State) (n : Nat) (f : Ctx → Ctx) : (s.onCtx n f).bb = s.bb := rfl
@[simp] theorem State.onCtx_ring (s : State) (n : Nat) (f : Ctx → Ctx) : (s.onCtx n f).ring = s.ring := rfl
@[simp] theorem State.onCtx_jobs (s : State) (n : Nat) (f : Ctx → Ctx) : (s.onCtx n f).jobs = s.jobs := rfl
@[simp] theorem State.onCtx_nextJob (s : State) (n : Nat) (f : Ctx → Ctx) : (s.onCtx n f).nextJob = s.nextJob := rfl
@[simp] theorem State.onCtx_jobCnt (s : State) (n : Nat) (f : Ctx → Ctx) : (s.onCtx n f).jobCnt = s.jobCnt := rfl
@[simp] theorem State.onCtx_slotQ (s : State) (n : Nat) (f : Ctx → Ctx) : (s.onCtx n f).slotQ = s.slotQ := rfl
@[simp] theorem State.onCtx_copies (s : State) (n : Nat) (f : Ctx → Ctx) : (s.onCtx n f).copies = s.copies := rfl
@[simp] theorem State.onCtx_pageIns (s : State) (n : Nat) (f : Ctx → Ctx) : (s.onCtx n f).pageIns = s.pageIns := rfl
@[simp] theorem State.onCtx_pins (s : State) (n : Nat) (f : Ctx → Ctx) : (s.onCtx n f).pins = s.pins := rfl
@[simp] theorem State.onCtx_seqs (s : State) (n : Nat) (f : Ctx → Ctx) : (s.onCtx n f).seqs = s.seqs := rfl
@[simp] theorem State.onCtx_gens (s : State) (n : Nat) (f : Ctx → Ctx) : (s.onCtx n f).gens = s.gens := rfl
@[simp] theorem State.onCtx_xfers (s : State) (n : Nat) (f : Ctx → Ctx) : (s.onCtx n f).xfers = s.xfers := rfl
@[simp] theorem State.onCtx_nextXfer (s : State) (n : Nat) (f : Ctx → Ctx) : (s.onCtx n f).nextXfer = s.nextXfer := rfl
@[simp] theorem State.onCtx_msgs (s : State) (n : Nat) (f : Ctx → Ctx) : (s.onCtx n f).msgs = s.msgs := rfl
@[simp] theorem State.onCtx_inbound (s : State) (n : Nat) (f : Ctx → Ctx) : (s.onCtx n f).inbound = s.inbound := rfl
@[simp] theorem State.onCtx_landed (s : State) (n : Nat) (f : Ctx → Ctx) : (s.onCtx n f).landed = s.landed := rfl
@[simp] theorem State.onCtx_heard (s : State) (n : Nat) (f : Ctx → Ctx) : (s.onCtx n f).heard = s.heard := rfl
@[simp] theorem State.onCtx_colls (s : State) (n : Nat) (f : Ctx → Ctx) : (s.onCtx n f).colls = s.colls := rfl
@[simp] theorem State.onCtx_chainLog (s : State) (n : Nat) (f : Ctx → Ctx) : (s.onCtx n f).chainLog = s.chainLog := rfl
@[simp] theorem State.onCtx_meets (s : State) (n : Nat) (f : Ctx → Ctx) : (s.onCtx n f).meets = s.meets := rfl
@[simp] theorem State.onCtx_fns (s : State) (n : Nat) (f : Ctx → Ctx) : (s.onCtx n f).fns = s.fns := rfl
@[simp] theorem State.onCtx_sherr (s : State) (n : Nat) (f : Ctx → Ctx) : (s.onCtx n f).sherr = s.sherr := rfl
@[simp] theorem State.onCtx_ports (s : State) (n : Nat) (f : Ctx → Ctx) : (s.onCtx n f).ports = s.ports := rfl
@[simp] theorem State.onCtx_levt (s : State) (n : Nat) (f : Ctx → Ctx) : (s.onCtx n f).levt = s.levt := rfl
@[simp] theorem State.onCtx_levv (s : State) (n : Nat) (f : Ctx → Ctx) : (s.onCtx n f).levv = s.levv := rfl
@[simp] theorem State.onCtx_ctl (s : State) (n : Nat) (f : Ctx → Ctx) : (s.onCtx n f).ctl = s.ctl := rfl
@[simp] theorem State.onCtx_islands (s : State) (n : Nat) (f : Ctx → Ctx) : (s.onCtx n f).islands = s.islands := rfl
@[simp] theorem State.onCtx_clock (s : State) (n : Nat) (f : Ctx → Ctx) : (s.onCtx n f).clock = s.clock := rfl
@[simp] theorem State.onCtx_sent (s : State) (n : Nat) (f : Ctx → Ctx) : (s.onCtx n f).sent = s.sent := rfl
@[simp] theorem State.onCtx_heldPkts (s : State) (n : Nat) (f : Ctx → Ctx) : (s.onCtx n f).heldPkts = s.heldPkts := rfl
@[simp] theorem State.onCtx_iss (s : State) (n : Nat) (f : Ctx → Ctx) : (s.onCtx n f).iss = s.iss := rfl
@[simp] theorem State.onCtx_agenda (s : State) (n : Nat) (f : Ctx → Ctx) : (s.onCtx n f).agenda = s.agenda := rfl
@[simp] theorem State.onCtx_turn (s : State) (n : Nat) (f : Ctx → Ctx) : (s.onCtx n f).turn = s.turn := rfl
@[simp] theorem State.onCtx_served (s : State) (n : Nat) (f : Ctx → Ctx) : (s.onCtx n f).served = s.served := rfl
@[simp] theorem State.onCtx_acqQ (s : State) (n : Nat) (f : Ctx → Ctx) : (s.onCtx n f).acqQ = s.acqQ := rfl
@[simp] theorem State.onCtx_freeIdx (s : State) (n : Nat) (f : Ctx → Ctx) : (s.onCtx n f).freeIdx = s.freeIdx := rfl
@[simp] theorem State.onCtx_clk (s : State) (n : Nat) (f : Ctx → Ctx) : (s.onCtx n f).clk = s.clk := rfl

/-! ### `State.onKernel`: one kernel changed -/

@[simp] theorem State.onKernel_groups (s : State) (n : Nat) (f : Kernel → Kernel) : (s.onKernel n f).groups = s.groups := rfl
@[simp] theorem State.onKernel_teams (s : State) (n : Nat) (f : Kernel → Kernel) : (s.onKernel n f).teams = s.teams := rfl
@[simp] theorem State.onKernel_kernels (s : State) (n : Nat) (f : Kernel → Kernel) : (s.onKernel n f).kernels = updAt s.kernels n f := rfl
@[simp] theorem State.onKernel_ctxs (s : State) (n : Nat) (f : Kernel → Kernel) : (s.onKernel n f).ctxs = s.ctxs := rfl
@[simp] theorem State.onKernel_mem (s : State) (n : Nat) (f : Kernel → Kernel) : (s.onKernel n f).mem = s.mem := rfl
@[simp] theorem State.onKernel_empty (s : State) (n : Nat) (f : Kernel → Kernel) : (s.onKernel n f).empty = s.empty := rfl
@[simp] theorem State.onKernel_poison (s : State) (n : Nat) (f : Kernel → Kernel) : (s.onKernel n f).poison = s.poison := rfl
@[simp] theorem State.onKernel_bbPoison (s : State) (n : Nat) (f : Kernel → Kernel) : (s.onKernel n f).bbPoison = s.bbPoison := rfl
@[simp] theorem State.onKernel_l2 (s : State) (n : Nat) (f : Kernel → Kernel) : (s.onKernel n f).l2 = s.l2 := rfl
@[simp] theorem State.onKernel_memKeys (s : State) (n : Nat) (f : Kernel → Kernel) : (s.onKernel n f).memKeys = s.memKeys := rfl
@[simp] theorem State.onKernel_outside (s : State) (n : Nat) (f : Kernel → Kernel) : (s.onKernel n f).outside = s.outside := rfl
@[simp] theorem State.onKernel_errors (s : State) (n : Nat) (f : Kernel → Kernel) : (s.onKernel n f).errors = s.errors := rfl
@[simp] theorem State.onKernel_tlb (s : State) (n : Nat) (f : Kernel → Kernel) : (s.onKernel n f).tlb = s.tlb := rfl
@[simp] theorem State.onKernel_bb (s : State) (n : Nat) (f : Kernel → Kernel) : (s.onKernel n f).bb = s.bb := rfl
@[simp] theorem State.onKernel_ring (s : State) (n : Nat) (f : Kernel → Kernel) : (s.onKernel n f).ring = s.ring := rfl
@[simp] theorem State.onKernel_jobs (s : State) (n : Nat) (f : Kernel → Kernel) : (s.onKernel n f).jobs = s.jobs := rfl
@[simp] theorem State.onKernel_nextJob (s : State) (n : Nat) (f : Kernel → Kernel) : (s.onKernel n f).nextJob = s.nextJob := rfl
@[simp] theorem State.onKernel_jobCnt (s : State) (n : Nat) (f : Kernel → Kernel) : (s.onKernel n f).jobCnt = s.jobCnt := rfl
@[simp] theorem State.onKernel_slotQ (s : State) (n : Nat) (f : Kernel → Kernel) : (s.onKernel n f).slotQ = s.slotQ := rfl
@[simp] theorem State.onKernel_copies (s : State) (n : Nat) (f : Kernel → Kernel) : (s.onKernel n f).copies = s.copies := rfl
@[simp] theorem State.onKernel_pageIns (s : State) (n : Nat) (f : Kernel → Kernel) : (s.onKernel n f).pageIns = s.pageIns := rfl
@[simp] theorem State.onKernel_pins (s : State) (n : Nat) (f : Kernel → Kernel) : (s.onKernel n f).pins = s.pins := rfl
@[simp] theorem State.onKernel_seqs (s : State) (n : Nat) (f : Kernel → Kernel) : (s.onKernel n f).seqs = s.seqs := rfl
@[simp] theorem State.onKernel_gens (s : State) (n : Nat) (f : Kernel → Kernel) : (s.onKernel n f).gens = s.gens := rfl
@[simp] theorem State.onKernel_xfers (s : State) (n : Nat) (f : Kernel → Kernel) : (s.onKernel n f).xfers = s.xfers := rfl
@[simp] theorem State.onKernel_nextXfer (s : State) (n : Nat) (f : Kernel → Kernel) : (s.onKernel n f).nextXfer = s.nextXfer := rfl
@[simp] theorem State.onKernel_msgs (s : State) (n : Nat) (f : Kernel → Kernel) : (s.onKernel n f).msgs = s.msgs := rfl
@[simp] theorem State.onKernel_inbound (s : State) (n : Nat) (f : Kernel → Kernel) : (s.onKernel n f).inbound = s.inbound := rfl
@[simp] theorem State.onKernel_landed (s : State) (n : Nat) (f : Kernel → Kernel) : (s.onKernel n f).landed = s.landed := rfl
@[simp] theorem State.onKernel_heard (s : State) (n : Nat) (f : Kernel → Kernel) : (s.onKernel n f).heard = s.heard := rfl
@[simp] theorem State.onKernel_colls (s : State) (n : Nat) (f : Kernel → Kernel) : (s.onKernel n f).colls = s.colls := rfl
@[simp] theorem State.onKernel_chainLog (s : State) (n : Nat) (f : Kernel → Kernel) : (s.onKernel n f).chainLog = s.chainLog := rfl
@[simp] theorem State.onKernel_meets (s : State) (n : Nat) (f : Kernel → Kernel) : (s.onKernel n f).meets = s.meets := rfl
@[simp] theorem State.onKernel_fns (s : State) (n : Nat) (f : Kernel → Kernel) : (s.onKernel n f).fns = s.fns := rfl
@[simp] theorem State.onKernel_sherr (s : State) (n : Nat) (f : Kernel → Kernel) : (s.onKernel n f).sherr = s.sherr := rfl
@[simp] theorem State.onKernel_ports (s : State) (n : Nat) (f : Kernel → Kernel) : (s.onKernel n f).ports = s.ports := rfl
@[simp] theorem State.onKernel_levt (s : State) (n : Nat) (f : Kernel → Kernel) : (s.onKernel n f).levt = s.levt := rfl
@[simp] theorem State.onKernel_levv (s : State) (n : Nat) (f : Kernel → Kernel) : (s.onKernel n f).levv = s.levv := rfl
@[simp] theorem State.onKernel_ctl (s : State) (n : Nat) (f : Kernel → Kernel) : (s.onKernel n f).ctl = s.ctl := rfl
@[simp] theorem State.onKernel_islands (s : State) (n : Nat) (f : Kernel → Kernel) : (s.onKernel n f).islands = s.islands := rfl
@[simp] theorem State.onKernel_clock (s : State) (n : Nat) (f : Kernel → Kernel) : (s.onKernel n f).clock = s.clock := rfl
@[simp] theorem State.onKernel_sent (s : State) (n : Nat) (f : Kernel → Kernel) : (s.onKernel n f).sent = s.sent := rfl
@[simp] theorem State.onKernel_heldPkts (s : State) (n : Nat) (f : Kernel → Kernel) : (s.onKernel n f).heldPkts = s.heldPkts := rfl
@[simp] theorem State.onKernel_iss (s : State) (n : Nat) (f : Kernel → Kernel) : (s.onKernel n f).iss = s.iss := rfl
@[simp] theorem State.onKernel_agenda (s : State) (n : Nat) (f : Kernel → Kernel) : (s.onKernel n f).agenda = s.agenda := rfl
@[simp] theorem State.onKernel_turn (s : State) (n : Nat) (f : Kernel → Kernel) : (s.onKernel n f).turn = s.turn := rfl
@[simp] theorem State.onKernel_served (s : State) (n : Nat) (f : Kernel → Kernel) : (s.onKernel n f).served = s.served := rfl
@[simp] theorem State.onKernel_acqQ (s : State) (n : Nat) (f : Kernel → Kernel) : (s.onKernel n f).acqQ = s.acqQ := rfl
@[simp] theorem State.onKernel_freeIdx (s : State) (n : Nat) (f : Kernel → Kernel) : (s.onKernel n f).freeIdx = s.freeIdx := rfl
@[simp] theorem State.onKernel_clk (s : State) (n : Nat) (f : Kernel → Kernel) : (s.onKernel n f).clk = s.clk := rfl

/-! ### `State.tick`: time passes -/

@[simp] theorem State.tick_groups (s : State)  : (s.tick).groups = s.groups := rfl
@[simp] theorem State.tick_teams (s : State)  : (s.tick).teams = s.teams := rfl
@[simp] theorem State.tick_kernels (s : State)  : (s.tick).kernels = s.kernels := rfl
@[simp] theorem State.tick_ctxs (s : State)  : (s.tick).ctxs = s.ctxs := rfl
@[simp] theorem State.tick_mem (s : State)  : (s.tick).mem = s.mem := rfl
@[simp] theorem State.tick_empty (s : State)  : (s.tick).empty = s.empty := rfl
@[simp] theorem State.tick_poison (s : State)  : (s.tick).poison = s.poison := rfl
@[simp] theorem State.tick_bbPoison (s : State)  : (s.tick).bbPoison = s.bbPoison := rfl
@[simp] theorem State.tick_l2 (s : State)  : (s.tick).l2 = s.l2 := rfl
@[simp] theorem State.tick_memKeys (s : State)  : (s.tick).memKeys = s.memKeys := rfl
@[simp] theorem State.tick_outside (s : State)  : (s.tick).outside = s.outside := rfl
@[simp] theorem State.tick_errors (s : State)  : (s.tick).errors = s.errors := rfl
@[simp] theorem State.tick_tlb (s : State)  : (s.tick).tlb = s.tlb := rfl
@[simp] theorem State.tick_bb (s : State)  : (s.tick).bb = s.bb := rfl
@[simp] theorem State.tick_ring (s : State)  : (s.tick).ring = s.ring := rfl
@[simp] theorem State.tick_jobs (s : State)  : (s.tick).jobs = s.jobs := rfl
@[simp] theorem State.tick_nextJob (s : State)  : (s.tick).nextJob = s.nextJob := rfl
@[simp] theorem State.tick_jobCnt (s : State)  : (s.tick).jobCnt = s.jobCnt := rfl
@[simp] theorem State.tick_slotQ (s : State)  : (s.tick).slotQ = s.slotQ := rfl
@[simp] theorem State.tick_copies (s : State)  : (s.tick).copies = s.copies := rfl
@[simp] theorem State.tick_pageIns (s : State)  : (s.tick).pageIns = s.pageIns := rfl
@[simp] theorem State.tick_pins (s : State)  : (s.tick).pins = s.pins := rfl
@[simp] theorem State.tick_seqs (s : State)  : (s.tick).seqs = s.seqs := rfl
@[simp] theorem State.tick_gens (s : State)  : (s.tick).gens = s.gens := rfl
@[simp] theorem State.tick_xfers (s : State)  : (s.tick).xfers = s.xfers := rfl
@[simp] theorem State.tick_nextXfer (s : State)  : (s.tick).nextXfer = s.nextXfer := rfl
@[simp] theorem State.tick_msgs (s : State)  : (s.tick).msgs = s.msgs := rfl
@[simp] theorem State.tick_inbound (s : State)  : (s.tick).inbound = s.inbound := rfl
@[simp] theorem State.tick_landed (s : State)  : (s.tick).landed = s.landed := rfl
@[simp] theorem State.tick_heard (s : State)  : (s.tick).heard = s.heard := rfl
@[simp] theorem State.tick_colls (s : State)  : (s.tick).colls = s.colls := rfl
@[simp] theorem State.tick_chainLog (s : State)  : (s.tick).chainLog = s.chainLog := rfl
@[simp] theorem State.tick_meets (s : State)  : (s.tick).meets = s.meets := rfl
@[simp] theorem State.tick_fns (s : State)  : (s.tick).fns = s.fns := rfl
@[simp] theorem State.tick_sherr (s : State)  : (s.tick).sherr = s.sherr := rfl
@[simp] theorem State.tick_ports (s : State)  : (s.tick).ports = s.ports := rfl
@[simp] theorem State.tick_levt (s : State)  : (s.tick).levt = s.levt := rfl
@[simp] theorem State.tick_levv (s : State)  : (s.tick).levv = s.levv := rfl
@[simp] theorem State.tick_ctl (s : State)  : (s.tick).ctl = s.ctl := rfl
@[simp] theorem State.tick_islands (s : State)  : (s.tick).islands = s.islands := rfl
@[simp] theorem State.tick_sent (s : State)  : (s.tick).sent = s.sent := rfl
@[simp] theorem State.tick_heldPkts (s : State)  : (s.tick).heldPkts = s.heldPkts := rfl
@[simp] theorem State.tick_iss (s : State)  : (s.tick).iss = s.iss := rfl
@[simp] theorem State.tick_agenda (s : State)  : (s.tick).agenda = s.agenda := rfl
@[simp] theorem State.tick_turn (s : State)  : (s.tick).turn = s.turn + 1 := rfl
@[simp] theorem State.tick_served (s : State)  : (s.tick).served = s.served := rfl
@[simp] theorem State.tick_acqQ (s : State)  : (s.tick).acqQ = s.acqQ := rfl
@[simp] theorem State.tick_freeIdx (s : State)  : (s.tick).freeIdx = s.freeIdx := rfl
@[simp] theorem State.tick_clk (s : State)  : (s.tick).clk = s.clk + 1 := rfl

/-! ### `State.post`: a record posted (R428) -/

@[simp] theorem State.post_groups (s : State) (n : Nat) (r : Rec) : (s.post n r).groups = s.groups := rfl
@[simp] theorem State.post_teams (s : State) (n : Nat) (r : Rec) : (s.post n r).teams = s.teams := rfl
@[simp] theorem State.post_kernels (s : State) (n : Nat) (r : Rec) : (s.post n r).kernels = s.kernels := rfl
@[simp] theorem State.post_ctxs (s : State) (n : Nat) (r : Rec) : (s.post n r).ctxs = updAt s.ctxs n fun x => { x with recs := x.recs ++ [r] } := rfl
@[simp] theorem State.post_mem (s : State) (n : Nat) (r : Rec) : (s.post n r).mem = s.mem := rfl
@[simp] theorem State.post_empty (s : State) (n : Nat) (r : Rec) : (s.post n r).empty = s.empty := rfl
@[simp] theorem State.post_poison (s : State) (n : Nat) (r : Rec) : (s.post n r).poison = s.poison := rfl
@[simp] theorem State.post_bbPoison (s : State) (n : Nat) (r : Rec) : (s.post n r).bbPoison = s.bbPoison := rfl
@[simp] theorem State.post_l2 (s : State) (n : Nat) (r : Rec) : (s.post n r).l2 = s.l2 := rfl
@[simp] theorem State.post_memKeys (s : State) (n : Nat) (r : Rec) : (s.post n r).memKeys = s.memKeys := rfl
@[simp] theorem State.post_outside (s : State) (n : Nat) (r : Rec) : (s.post n r).outside = s.outside := rfl
@[simp] theorem State.post_errors (s : State) (n : Nat) (r : Rec) : (s.post n r).errors = s.errors := rfl
@[simp] theorem State.post_tlb (s : State) (n : Nat) (r : Rec) : (s.post n r).tlb = s.tlb := rfl
@[simp] theorem State.post_bb (s : State) (n : Nat) (r : Rec) : (s.post n r).bb = s.bb := rfl
@[simp] theorem State.post_ring (s : State) (n : Nat) (r : Rec) : (s.post n r).ring = s.ring := rfl
@[simp] theorem State.post_jobs (s : State) (n : Nat) (r : Rec) : (s.post n r).jobs = s.jobs := rfl
@[simp] theorem State.post_nextJob (s : State) (n : Nat) (r : Rec) : (s.post n r).nextJob = s.nextJob := rfl
@[simp] theorem State.post_jobCnt (s : State) (n : Nat) (r : Rec) : (s.post n r).jobCnt = s.jobCnt := rfl
@[simp] theorem State.post_slotQ (s : State) (n : Nat) (r : Rec) : (s.post n r).slotQ = s.slotQ := rfl
@[simp] theorem State.post_copies (s : State) (n : Nat) (r : Rec) : (s.post n r).copies = s.copies := rfl
@[simp] theorem State.post_pageIns (s : State) (n : Nat) (r : Rec) : (s.post n r).pageIns = s.pageIns := rfl
@[simp] theorem State.post_pins (s : State) (n : Nat) (r : Rec) : (s.post n r).pins = s.pins := rfl
@[simp] theorem State.post_seqs (s : State) (n : Nat) (r : Rec) : (s.post n r).seqs = s.seqs := rfl
@[simp] theorem State.post_gens (s : State) (n : Nat) (r : Rec) : (s.post n r).gens = s.gens := rfl
@[simp] theorem State.post_xfers (s : State) (n : Nat) (r : Rec) : (s.post n r).xfers = s.xfers := rfl
@[simp] theorem State.post_nextXfer (s : State) (n : Nat) (r : Rec) : (s.post n r).nextXfer = s.nextXfer := rfl
@[simp] theorem State.post_msgs (s : State) (n : Nat) (r : Rec) : (s.post n r).msgs = s.msgs := rfl
@[simp] theorem State.post_inbound (s : State) (n : Nat) (r : Rec) : (s.post n r).inbound = s.inbound := rfl
@[simp] theorem State.post_landed (s : State) (n : Nat) (r : Rec) : (s.post n r).landed = s.landed := rfl
@[simp] theorem State.post_heard (s : State) (n : Nat) (r : Rec) : (s.post n r).heard = s.heard := rfl
@[simp] theorem State.post_colls (s : State) (n : Nat) (r : Rec) : (s.post n r).colls = s.colls := rfl
@[simp] theorem State.post_chainLog (s : State) (n : Nat) (r : Rec) : (s.post n r).chainLog = s.chainLog := rfl
@[simp] theorem State.post_meets (s : State) (n : Nat) (r : Rec) : (s.post n r).meets = s.meets := rfl
@[simp] theorem State.post_fns (s : State) (n : Nat) (r : Rec) : (s.post n r).fns = s.fns := rfl
@[simp] theorem State.post_sherr (s : State) (n : Nat) (r : Rec) : (s.post n r).sherr = s.sherr := rfl
@[simp] theorem State.post_ports (s : State) (n : Nat) (r : Rec) : (s.post n r).ports = s.ports := rfl
@[simp] theorem State.post_levt (s : State) (n : Nat) (r : Rec) : (s.post n r).levt = s.levt := rfl
@[simp] theorem State.post_levv (s : State) (n : Nat) (r : Rec) : (s.post n r).levv = s.levv := rfl
@[simp] theorem State.post_ctl (s : State) (n : Nat) (r : Rec) : (s.post n r).ctl = s.ctl := rfl
@[simp] theorem State.post_islands (s : State) (n : Nat) (r : Rec) : (s.post n r).islands = s.islands := rfl
@[simp] theorem State.post_clock (s : State) (n : Nat) (r : Rec) : (s.post n r).clock = s.clock := rfl
@[simp] theorem State.post_sent (s : State) (n : Nat) (r : Rec) : (s.post n r).sent = s.sent := rfl
@[simp] theorem State.post_heldPkts (s : State) (n : Nat) (r : Rec) : (s.post n r).heldPkts = s.heldPkts := rfl
@[simp] theorem State.post_iss (s : State) (n : Nat) (r : Rec) : (s.post n r).iss = s.iss := rfl
@[simp] theorem State.post_agenda (s : State) (n : Nat) (r : Rec) : (s.post n r).agenda = s.agenda := rfl
@[simp] theorem State.post_turn (s : State) (n : Nat) (r : Rec) : (s.post n r).turn = s.turn := rfl
@[simp] theorem State.post_served (s : State) (n : Nat) (r : Rec) : (s.post n r).served = s.served := rfl
@[simp] theorem State.post_acqQ (s : State) (n : Nat) (r : Rec) : (s.post n r).acqQ = s.acqQ := rfl
@[simp] theorem State.post_freeIdx (s : State) (n : Nat) (r : Rec) : (s.post n r).freeIdx = s.freeIdx := rfl
@[simp] theorem State.post_clk (s : State) (n : Nat) (r : Rec) : (s.post n r).clk = s.clk := rfl

/-! ### `Group.setV`: a vector register -/

@[simp] theorem Group.setV_kernel (g : Group) (n : Nat) (x : PerLane Word) (t : Tag) : (g.setV n x t).kernel = g.kernel := rfl
@[simp] theorem Group.setV_team (g : Group) (n : Nat) (x : PerLane Word) (t : Tag) : (g.setV n x t).team = g.team := rfl
@[simp] theorem Group.setV_idx (g : Group) (n : Nat) (x : PerLane Word) (t : Tag) : (g.setV n x t).idx = g.idx := rfl
@[simp] theorem Group.setV_core (g : Group) (n : Nat) (x : PerLane Word) (t : Tag) : (g.setV n x t).core = g.core := rfl
@[simp] theorem Group.setV_status (g : Group) (n : Nat) (x : PerLane Word) (t : Tag) : (g.setV n x t).status = g.status := rfl
@[simp] theorem Group.setV_parkReq (g : Group) (n : Nat) (x : PerLane Word) (t : Tag) : (g.setV n x t).parkReq = g.parkReq := rfl
@[simp] theorem Group.setV_lanes (g : Group) (n : Nat) (x : PerLane Word) (t : Tag) : (g.setV n x t).lanes = g.lanes := rfl
@[simp] theorem Group.setV_v (g : Group) (n : Nat) (x : PerLane Word) (t : Tag) : (g.setV n x t).v = g.v.setIfInBounds n x := rfl
@[simp] theorem Group.setV_tags (g : Group) (n : Nat) (x : PerLane Word) (t : Tag) : (g.setV n x t).tags = g.tags.setIfInBounds n t := rfl
@[simp] theorem Group.setV_s (g : Group) (n : Nat) (x : PerLane Word) (t : Tag) : (g.setV n x t).s = g.s := rfl
@[simp] theorem Group.setV_p1 (g : Group) (n : Nat) (x : PerLane Word) (t : Tag) : (g.setV n x t).p1 = g.p1 := rfl
@[simp] theorem Group.setV_p2 (g : Group) (n : Nat) (x : PerLane Word) (t : Tag) : (g.setV n x t).p2 = g.p2 := rfl
@[simp] theorem Group.setV_p3 (g : Group) (n : Nat) (x : PerLane Word) (t : Tag) : (g.setV n x t).p3 = g.p3 := rfl
@[simp] theorem Group.setV_m (g : Group) (n : Nat) (x : PerLane Word) (t : Tag) : (g.setV n x t).m = g.m := rfl
@[simp] theorem Group.setV_lc (g : Group) (n : Nat) (x : PerLane Word) (t : Tag) : (g.setV n x t).lc = g.lc := rfl
@[simp] theorem Group.setV_levels (g : Group) (n : Nat) (x : PerLane Word) (t : Tag) : (g.setV n x t).levels = g.levels := rfl
@[simp] theorem Group.setV_rgn (g : Group) (n : Nat) (x : PerLane Word) (t : Tag) : (g.setV n x t).rgn = g.rgn := rfl
@[simp] theorem Group.setV_held (g : Group) (n : Nat) (x : PerLane Word) (t : Tag) : (g.setV n x t).held = g.held := rfl
@[simp] theorem Group.setV_wdog (g : Group) (n : Nat) (x : PerLane Word) (t : Tag) : (g.setV n x t).wdog = g.wdog := rfl
@[simp] theorem Group.setV_hpc (g : Group) (n : Nat) (x : PerLane Word) (t : Tag) : (g.setV n x t).hpc = g.hpc := rfl
@[simp] theorem Group.setV_htv (g : Group) (n : Nat) (x : PerLane Word) (t : Tag) : (g.setV n x t).htv = g.htv := rfl
@[simp] theorem Group.setV_hcm (g : Group) (n : Nat) (x : PerLane Word) (t : Tag) : (g.setV n x t).hcm = g.hcm := rfl
@[simp] theorem Group.setV_gfc (g : Group) (n : Nat) (x : PerLane Word) (t : Tag) : (g.setV n x t).gfc = g.gfc := rfl
@[simp] theorem Group.setV_hs (g : Group) (n : Nat) (x : PerLane Word) (t : Tag) : (g.setV n x t).hs = g.hs := rfl
@[simp] theorem Group.setV_xen (g : Group) (n : Nat) (x : PerLane Word) (t : Tag) : (g.setV n x t).xen = g.xen := rfl
@[simp] theorem Group.setV_nmode (g : Group) (n : Nat) (x : PerLane Word) (t : Tag) : (g.setV n x t).nmode = g.nmode := rfl
@[simp] theorem Group.setV_cvc (g : Group) (n : Nat) (x : PerLane Word) (t : Tag) : (g.setV n x t).cvc = g.cvc := rfl
@[simp] theorem Group.setV_cvth (g : Group) (n : Nat) (x : PerLane Word) (t : Tag) : (g.setV n x t).cvth = g.cvth := rfl
@[simp] theorem Group.setV_dph (g : Group) (n : Nat) (x : PerLane Word) (t : Tag) : (g.setV n x t).dph = g.dph := rfl
@[simp] theorem Group.setV_gng (g : Group) (n : Nat) (x : PerLane Word) (t : Tag) : (g.setV n x t).gng = g.gng := rfl
@[simp] theorem Group.setV_wth (g : Group) (n : Nat) (x : PerLane Word) (t : Tag) : (g.setV n x t).wth = g.wth := rfl
@[simp] theorem Group.setV_wctl (g : Group) (n : Nat) (x : PerLane Word) (t : Tag) : (g.setV n x t).wctl = g.wctl := rfl
@[simp] theorem Group.setV_starve (g : Group) (n : Nat) (x : PerLane Word) (t : Tag) : (g.setV n x t).starve = g.starve := rfl
@[simp] theorem Group.setV_ops (g : Group) (n : Nat) (x : PerLane Word) (t : Tag) : (g.setV n x t).ops = g.ops := rfl
@[simp] theorem Group.setV_nextOp (g : Group) (n : Nat) (x : PerLane Word) (t : Tag) : (g.setV n x t).nextOp = g.nextOp := rfl
@[simp] theorem Group.setV_issued (g : Group) (n : Nat) (x : PerLane Word) (t : Tag) : (g.setV n x t).issued = g.issued := rfl
@[simp] theorem Group.setV_pendV (g : Group) (n : Nat) (x : PerLane Word) (t : Tag) : (g.setV n x t).pendV = g.pendV := rfl
@[simp] theorem Group.setV_pendS (g : Group) (n : Nat) (x : PerLane Word) (t : Tag) : (g.setV n x t).pendS = g.pendS := rfl
@[simp] theorem Group.setV_stall (g : Group) (n : Nat) (x : PerLane Word) (t : Tag) : (g.setV n x t).stall = g.stall := rfl
@[simp] theorem Group.setV_hstall (g : Group) (n : Nat) (x : PerLane Word) (t : Tag) : (g.setV n x t).hstall = g.hstall := rfl
@[simp] theorem Group.setV_epoch (g : Group) (n : Nat) (x : PerLane Word) (t : Tag) : (g.setV n x t).epoch = g.epoch := rfl
@[simp] theorem Group.setV_tokenDone (g : Group) (n : Nat) (x : PerLane Word) (t : Tag) : (g.setV n x t).tokenDone = g.tokenDone := rfl
@[simp] theorem Group.setV_keptA (g : Group) (n : Nat) (x : PerLane Word) (t : Tag) : (g.setV n x t).keptA = g.keptA := rfl
@[simp] theorem Group.setV_mmaCount (g : Group) (n : Nat) (x : PerLane Word) (t : Tag) : (g.setV n x t).mmaCount = g.mmaCount := rfl
@[simp] theorem Group.setV_due (g : Group) (n : Nat) (x : PerLane Word) (t : Tag) : (g.setV n x t).due = g.due := rfl
@[simp] theorem Group.setV_seen (g : Group) (n : Nat) (x : PerLane Word) (t : Tag) : (g.setV n x t).seen = g.seen := rfl
@[simp] theorem Group.setV_saved (g : Group) (n : Nat) (x : PerLane Word) (t : Tag) : (g.setV n x t).saved = g.saved := rfl
@[simp] theorem Group.setV_perf (g : Group) (n : Nat) (x : PerLane Word) (t : Tag) : (g.setV n x t).perf = g.perf := rfl
@[simp] theorem Group.setV_last (g : Group) (n : Nat) (x : PerLane Word) (t : Tag) : (g.setV n x t).last = g.last := rfl
@[simp] theorem Group.setV_yielded (g : Group) (n : Nat) (x : PerLane Word) (t : Tag) : (g.setV n x t).yielded = g.yielded := rfl
@[simp] theorem Group.setV_redo (g : Group) (n : Nat) (x : PerLane Word) (t : Tag) : (g.setV n x t).redo = g.redo := rfl
@[simp] theorem Group.setV_redoPc (g : Group) (n : Nat) (x : PerLane Word) (t : Tag) : (g.setV n x t).redoPc = g.redoPc := rfl
@[simp] theorem Group.setV_tileNotes (g : Group) (n : Nat) (x : PerLane Word) (t : Tag) : (g.setV n x t).tileNotes = g.tileNotes := rfl
@[simp] theorem Group.setV_kept (g : Group) (n : Nat) (x : PerLane Word) (t : Tag) : (g.setV n x t).kept = g.kept := rfl
@[simp] theorem Group.setV_later (g : Group) (n : Nat) (x : PerLane Word) (t : Tag) : (g.setV n x t).later = g.later := rfl
@[simp] theorem Group.setV_hmarks (g : Group) (n : Nat) (x : PerLane Word) (t : Tag) : (g.setV n x t).hmarks = g.hmarks := rfl
@[simp] theorem Group.setV_fellAt (g : Group) (n : Nat) (x : PerLane Word) (t : Tag) : (g.setV n x t).fellAt = g.fellAt := rfl
@[simp] theorem Group.setV_laneRec (g : Group) (n : Nat) (x : PerLane Word) (t : Tag) : (g.setV n x t).laneRec = g.laneRec := rfl
@[simp] theorem Group.setV_born (g : Group) (n : Nat) (x : PerLane Word) (t : Tag) : (g.setV n x t).born = g.born := rfl

/-! ### `Group.putV`: a vector register in some lanes -/

@[simp] theorem Group.putV_kernel (g : Group) (n : Nat) (ls : Lanes) (f : Fin 32 → Word) : (g.putV n ls f).kernel = g.kernel := rfl
@[simp] theorem Group.putV_team (g : Group) (n : Nat) (ls : Lanes) (f : Fin 32 → Word) : (g.putV n ls f).team = g.team := rfl
@[simp] theorem Group.putV_idx (g : Group) (n : Nat) (ls : Lanes) (f : Fin 32 → Word) : (g.putV n ls f).idx = g.idx := rfl
@[simp] theorem Group.putV_core (g : Group) (n : Nat) (ls : Lanes) (f : Fin 32 → Word) : (g.putV n ls f).core = g.core := rfl
@[simp] theorem Group.putV_status (g : Group) (n : Nat) (ls : Lanes) (f : Fin 32 → Word) : (g.putV n ls f).status = g.status := rfl
@[simp] theorem Group.putV_parkReq (g : Group) (n : Nat) (ls : Lanes) (f : Fin 32 → Word) : (g.putV n ls f).parkReq = g.parkReq := rfl
@[simp] theorem Group.putV_lanes (g : Group) (n : Nat) (ls : Lanes) (f : Fin 32 → Word) : (g.putV n ls f).lanes = g.lanes := rfl
@[simp] theorem Group.putV_tags (g : Group) (n : Nat) (ls : Lanes) (f : Fin 32 → Word) : (g.putV n ls f).tags = g.tags.setIfInBounds n Tag.spatial := rfl
@[simp] theorem Group.putV_s (g : Group) (n : Nat) (ls : Lanes) (f : Fin 32 → Word) : (g.putV n ls f).s = g.s := rfl
@[simp] theorem Group.putV_p1 (g : Group) (n : Nat) (ls : Lanes) (f : Fin 32 → Word) : (g.putV n ls f).p1 = g.p1 := rfl
@[simp] theorem Group.putV_p2 (g : Group) (n : Nat) (ls : Lanes) (f : Fin 32 → Word) : (g.putV n ls f).p2 = g.p2 := rfl
@[simp] theorem Group.putV_p3 (g : Group) (n : Nat) (ls : Lanes) (f : Fin 32 → Word) : (g.putV n ls f).p3 = g.p3 := rfl
@[simp] theorem Group.putV_m (g : Group) (n : Nat) (ls : Lanes) (f : Fin 32 → Word) : (g.putV n ls f).m = g.m := rfl
@[simp] theorem Group.putV_lc (g : Group) (n : Nat) (ls : Lanes) (f : Fin 32 → Word) : (g.putV n ls f).lc = g.lc := rfl
@[simp] theorem Group.putV_levels (g : Group) (n : Nat) (ls : Lanes) (f : Fin 32 → Word) : (g.putV n ls f).levels = g.levels := rfl
@[simp] theorem Group.putV_rgn (g : Group) (n : Nat) (ls : Lanes) (f : Fin 32 → Word) : (g.putV n ls f).rgn = g.rgn := rfl
@[simp] theorem Group.putV_held (g : Group) (n : Nat) (ls : Lanes) (f : Fin 32 → Word) : (g.putV n ls f).held = g.held := rfl
@[simp] theorem Group.putV_wdog (g : Group) (n : Nat) (ls : Lanes) (f : Fin 32 → Word) : (g.putV n ls f).wdog = g.wdog := rfl
@[simp] theorem Group.putV_hpc (g : Group) (n : Nat) (ls : Lanes) (f : Fin 32 → Word) : (g.putV n ls f).hpc = g.hpc := rfl
@[simp] theorem Group.putV_htv (g : Group) (n : Nat) (ls : Lanes) (f : Fin 32 → Word) : (g.putV n ls f).htv = g.htv := rfl
@[simp] theorem Group.putV_hcm (g : Group) (n : Nat) (ls : Lanes) (f : Fin 32 → Word) : (g.putV n ls f).hcm = g.hcm := rfl
@[simp] theorem Group.putV_gfc (g : Group) (n : Nat) (ls : Lanes) (f : Fin 32 → Word) : (g.putV n ls f).gfc = g.gfc := rfl
@[simp] theorem Group.putV_hs (g : Group) (n : Nat) (ls : Lanes) (f : Fin 32 → Word) : (g.putV n ls f).hs = g.hs := rfl
@[simp] theorem Group.putV_xen (g : Group) (n : Nat) (ls : Lanes) (f : Fin 32 → Word) : (g.putV n ls f).xen = g.xen := rfl
@[simp] theorem Group.putV_nmode (g : Group) (n : Nat) (ls : Lanes) (f : Fin 32 → Word) : (g.putV n ls f).nmode = g.nmode := rfl
@[simp] theorem Group.putV_cvc (g : Group) (n : Nat) (ls : Lanes) (f : Fin 32 → Word) : (g.putV n ls f).cvc = g.cvc := rfl
@[simp] theorem Group.putV_cvth (g : Group) (n : Nat) (ls : Lanes) (f : Fin 32 → Word) : (g.putV n ls f).cvth = g.cvth := rfl
@[simp] theorem Group.putV_dph (g : Group) (n : Nat) (ls : Lanes) (f : Fin 32 → Word) : (g.putV n ls f).dph = g.dph := rfl
@[simp] theorem Group.putV_gng (g : Group) (n : Nat) (ls : Lanes) (f : Fin 32 → Word) : (g.putV n ls f).gng = g.gng := rfl
@[simp] theorem Group.putV_wth (g : Group) (n : Nat) (ls : Lanes) (f : Fin 32 → Word) : (g.putV n ls f).wth = g.wth := rfl
@[simp] theorem Group.putV_wctl (g : Group) (n : Nat) (ls : Lanes) (f : Fin 32 → Word) : (g.putV n ls f).wctl = g.wctl := rfl
@[simp] theorem Group.putV_starve (g : Group) (n : Nat) (ls : Lanes) (f : Fin 32 → Word) : (g.putV n ls f).starve = g.starve := rfl
@[simp] theorem Group.putV_ops (g : Group) (n : Nat) (ls : Lanes) (f : Fin 32 → Word) : (g.putV n ls f).ops = g.ops := rfl
@[simp] theorem Group.putV_nextOp (g : Group) (n : Nat) (ls : Lanes) (f : Fin 32 → Word) : (g.putV n ls f).nextOp = g.nextOp := rfl
@[simp] theorem Group.putV_issued (g : Group) (n : Nat) (ls : Lanes) (f : Fin 32 → Word) : (g.putV n ls f).issued = g.issued := rfl
@[simp] theorem Group.putV_pendV (g : Group) (n : Nat) (ls : Lanes) (f : Fin 32 → Word) : (g.putV n ls f).pendV = g.pendV := rfl
@[simp] theorem Group.putV_pendS (g : Group) (n : Nat) (ls : Lanes) (f : Fin 32 → Word) : (g.putV n ls f).pendS = g.pendS := rfl
@[simp] theorem Group.putV_stall (g : Group) (n : Nat) (ls : Lanes) (f : Fin 32 → Word) : (g.putV n ls f).stall = g.stall := rfl
@[simp] theorem Group.putV_hstall (g : Group) (n : Nat) (ls : Lanes) (f : Fin 32 → Word) : (g.putV n ls f).hstall = g.hstall := rfl
@[simp] theorem Group.putV_epoch (g : Group) (n : Nat) (ls : Lanes) (f : Fin 32 → Word) : (g.putV n ls f).epoch = g.epoch := rfl
@[simp] theorem Group.putV_tokenDone (g : Group) (n : Nat) (ls : Lanes) (f : Fin 32 → Word) : (g.putV n ls f).tokenDone = g.tokenDone := rfl
@[simp] theorem Group.putV_keptA (g : Group) (n : Nat) (ls : Lanes) (f : Fin 32 → Word) : (g.putV n ls f).keptA = g.keptA := rfl
@[simp] theorem Group.putV_mmaCount (g : Group) (n : Nat) (ls : Lanes) (f : Fin 32 → Word) : (g.putV n ls f).mmaCount = g.mmaCount := rfl
@[simp] theorem Group.putV_due (g : Group) (n : Nat) (ls : Lanes) (f : Fin 32 → Word) : (g.putV n ls f).due = g.due := rfl
@[simp] theorem Group.putV_seen (g : Group) (n : Nat) (ls : Lanes) (f : Fin 32 → Word) : (g.putV n ls f).seen = g.seen := rfl
@[simp] theorem Group.putV_saved (g : Group) (n : Nat) (ls : Lanes) (f : Fin 32 → Word) : (g.putV n ls f).saved = g.saved := rfl
@[simp] theorem Group.putV_perf (g : Group) (n : Nat) (ls : Lanes) (f : Fin 32 → Word) : (g.putV n ls f).perf = g.perf := rfl
@[simp] theorem Group.putV_last (g : Group) (n : Nat) (ls : Lanes) (f : Fin 32 → Word) : (g.putV n ls f).last = g.last := rfl
@[simp] theorem Group.putV_yielded (g : Group) (n : Nat) (ls : Lanes) (f : Fin 32 → Word) : (g.putV n ls f).yielded = g.yielded := rfl
@[simp] theorem Group.putV_redo (g : Group) (n : Nat) (ls : Lanes) (f : Fin 32 → Word) : (g.putV n ls f).redo = g.redo := rfl
@[simp] theorem Group.putV_redoPc (g : Group) (n : Nat) (ls : Lanes) (f : Fin 32 → Word) : (g.putV n ls f).redoPc = g.redoPc := rfl
@[simp] theorem Group.putV_tileNotes (g : Group) (n : Nat) (ls : Lanes) (f : Fin 32 → Word) : (g.putV n ls f).tileNotes = g.tileNotes := rfl
@[simp] theorem Group.putV_kept (g : Group) (n : Nat) (ls : Lanes) (f : Fin 32 → Word) : (g.putV n ls f).kept = g.kept := rfl
@[simp] theorem Group.putV_later (g : Group) (n : Nat) (ls : Lanes) (f : Fin 32 → Word) : (g.putV n ls f).later = g.later := rfl
@[simp] theorem Group.putV_hmarks (g : Group) (n : Nat) (ls : Lanes) (f : Fin 32 → Word) : (g.putV n ls f).hmarks = g.hmarks := rfl
@[simp] theorem Group.putV_fellAt (g : Group) (n : Nat) (ls : Lanes) (f : Fin 32 → Word) : (g.putV n ls f).fellAt = g.fellAt := rfl
@[simp] theorem Group.putV_laneRec (g : Group) (n : Nat) (ls : Lanes) (f : Fin 32 → Word) : (g.putV n ls f).laneRec = g.laneRec := rfl
@[simp] theorem Group.putV_born (g : Group) (n : Nat) (ls : Lanes) (f : Fin 32 → Word) : (g.putV n ls f).born = g.born := rfl

/-! ### `Group.setS`: a scalar register -/

@[simp] theorem Group.setS_kernel (g : Group) (n : Nat) (x : Word) : (g.setS n x).kernel = g.kernel := rfl
@[simp] theorem Group.setS_team (g : Group) (n : Nat) (x : Word) : (g.setS n x).team = g.team := rfl
@[simp] theorem Group.setS_idx (g : Group) (n : Nat) (x : Word) : (g.setS n x).idx = g.idx := rfl
@[simp] theorem Group.setS_core (g : Group) (n : Nat) (x : Word) : (g.setS n x).core = g.core := rfl
@[simp] theorem Group.setS_status (g : Group) (n : Nat) (x : Word) : (g.setS n x).status = g.status := rfl
@[simp] theorem Group.setS_parkReq (g : Group) (n : Nat) (x : Word) : (g.setS n x).parkReq = g.parkReq := rfl
@[simp] theorem Group.setS_lanes (g : Group) (n : Nat) (x : Word) : (g.setS n x).lanes = g.lanes := rfl
@[simp] theorem Group.setS_v (g : Group) (n : Nat) (x : Word) : (g.setS n x).v = g.v := rfl
@[simp] theorem Group.setS_tags (g : Group) (n : Nat) (x : Word) : (g.setS n x).tags = g.tags := rfl
@[simp] theorem Group.setS_s (g : Group) (n : Nat) (x : Word) : (g.setS n x).s = g.s.setIfInBounds n x := rfl
@[simp] theorem Group.setS_p1 (g : Group) (n : Nat) (x : Word) : (g.setS n x).p1 = g.p1 := rfl
@[simp] theorem Group.setS_p2 (g : Group) (n : Nat) (x : Word) : (g.setS n x).p2 = g.p2 := rfl
@[simp] theorem Group.setS_p3 (g : Group) (n : Nat) (x : Word) : (g.setS n x).p3 = g.p3 := rfl
@[simp] theorem Group.setS_m (g : Group) (n : Nat) (x : Word) : (g.setS n x).m = g.m := rfl
@[simp] theorem Group.setS_lc (g : Group) (n : Nat) (x : Word) : (g.setS n x).lc = g.lc := rfl
@[simp] theorem Group.setS_levels (g : Group) (n : Nat) (x : Word) : (g.setS n x).levels = g.levels := rfl
@[simp] theorem Group.setS_rgn (g : Group) (n : Nat) (x : Word) : (g.setS n x).rgn = g.rgn := rfl
@[simp] theorem Group.setS_held (g : Group) (n : Nat) (x : Word) : (g.setS n x).held = g.held := rfl
@[simp] theorem Group.setS_wdog (g : Group) (n : Nat) (x : Word) : (g.setS n x).wdog = g.wdog := rfl
@[simp] theorem Group.setS_hpc (g : Group) (n : Nat) (x : Word) : (g.setS n x).hpc = g.hpc := rfl
@[simp] theorem Group.setS_htv (g : Group) (n : Nat) (x : Word) : (g.setS n x).htv = g.htv := rfl
@[simp] theorem Group.setS_hcm (g : Group) (n : Nat) (x : Word) : (g.setS n x).hcm = g.hcm := rfl
@[simp] theorem Group.setS_gfc (g : Group) (n : Nat) (x : Word) : (g.setS n x).gfc = g.gfc := rfl
@[simp] theorem Group.setS_hs (g : Group) (n : Nat) (x : Word) : (g.setS n x).hs = g.hs := rfl
@[simp] theorem Group.setS_xen (g : Group) (n : Nat) (x : Word) : (g.setS n x).xen = g.xen := rfl
@[simp] theorem Group.setS_nmode (g : Group) (n : Nat) (x : Word) : (g.setS n x).nmode = g.nmode := rfl
@[simp] theorem Group.setS_cvc (g : Group) (n : Nat) (x : Word) : (g.setS n x).cvc = g.cvc := rfl
@[simp] theorem Group.setS_cvth (g : Group) (n : Nat) (x : Word) : (g.setS n x).cvth = g.cvth := rfl
@[simp] theorem Group.setS_dph (g : Group) (n : Nat) (x : Word) : (g.setS n x).dph = g.dph := rfl
@[simp] theorem Group.setS_gng (g : Group) (n : Nat) (x : Word) : (g.setS n x).gng = g.gng := rfl
@[simp] theorem Group.setS_wth (g : Group) (n : Nat) (x : Word) : (g.setS n x).wth = g.wth := rfl
@[simp] theorem Group.setS_wctl (g : Group) (n : Nat) (x : Word) : (g.setS n x).wctl = g.wctl := rfl
@[simp] theorem Group.setS_starve (g : Group) (n : Nat) (x : Word) : (g.setS n x).starve = g.starve := rfl
@[simp] theorem Group.setS_ops (g : Group) (n : Nat) (x : Word) : (g.setS n x).ops = g.ops := rfl
@[simp] theorem Group.setS_nextOp (g : Group) (n : Nat) (x : Word) : (g.setS n x).nextOp = g.nextOp := rfl
@[simp] theorem Group.setS_issued (g : Group) (n : Nat) (x : Word) : (g.setS n x).issued = g.issued := rfl
@[simp] theorem Group.setS_pendV (g : Group) (n : Nat) (x : Word) : (g.setS n x).pendV = g.pendV := rfl
@[simp] theorem Group.setS_pendS (g : Group) (n : Nat) (x : Word) : (g.setS n x).pendS = g.pendS := rfl
@[simp] theorem Group.setS_stall (g : Group) (n : Nat) (x : Word) : (g.setS n x).stall = g.stall := rfl
@[simp] theorem Group.setS_hstall (g : Group) (n : Nat) (x : Word) : (g.setS n x).hstall = g.hstall := rfl
@[simp] theorem Group.setS_epoch (g : Group) (n : Nat) (x : Word) : (g.setS n x).epoch = g.epoch := rfl
@[simp] theorem Group.setS_tokenDone (g : Group) (n : Nat) (x : Word) : (g.setS n x).tokenDone = g.tokenDone := rfl
@[simp] theorem Group.setS_keptA (g : Group) (n : Nat) (x : Word) : (g.setS n x).keptA = g.keptA := rfl
@[simp] theorem Group.setS_mmaCount (g : Group) (n : Nat) (x : Word) : (g.setS n x).mmaCount = g.mmaCount := rfl
@[simp] theorem Group.setS_due (g : Group) (n : Nat) (x : Word) : (g.setS n x).due = g.due := rfl
@[simp] theorem Group.setS_seen (g : Group) (n : Nat) (x : Word) : (g.setS n x).seen = g.seen := rfl
@[simp] theorem Group.setS_saved (g : Group) (n : Nat) (x : Word) : (g.setS n x).saved = g.saved := rfl
@[simp] theorem Group.setS_perf (g : Group) (n : Nat) (x : Word) : (g.setS n x).perf = g.perf := rfl
@[simp] theorem Group.setS_last (g : Group) (n : Nat) (x : Word) : (g.setS n x).last = g.last := rfl
@[simp] theorem Group.setS_yielded (g : Group) (n : Nat) (x : Word) : (g.setS n x).yielded = g.yielded := rfl
@[simp] theorem Group.setS_redo (g : Group) (n : Nat) (x : Word) : (g.setS n x).redo = g.redo := rfl
@[simp] theorem Group.setS_redoPc (g : Group) (n : Nat) (x : Word) : (g.setS n x).redoPc = g.redoPc := rfl
@[simp] theorem Group.setS_tileNotes (g : Group) (n : Nat) (x : Word) : (g.setS n x).tileNotes = g.tileNotes := rfl
@[simp] theorem Group.setS_kept (g : Group) (n : Nat) (x : Word) : (g.setS n x).kept = g.kept := rfl
@[simp] theorem Group.setS_later (g : Group) (n : Nat) (x : Word) : (g.setS n x).later = g.later := rfl
@[simp] theorem Group.setS_hmarks (g : Group) (n : Nat) (x : Word) : (g.setS n x).hmarks = g.hmarks := rfl
@[simp] theorem Group.setS_fellAt (g : Group) (n : Nat) (x : Word) : (g.setS n x).fellAt = g.fellAt := rfl
@[simp] theorem Group.setS_laneRec (g : Group) (n : Nat) (x : Word) : (g.setS n x).laneRec = g.laneRec := rfl
@[simp] theorem Group.setS_born (g : Group) (n : Nat) (x : Word) : (g.setS n x).born = g.born := rfl

/-! ### `Group.setSpair`: a scalar pair -/

@[simp] theorem Group.setSpair_kernel (g : Group) (n : Nat) (x : Dword) : (g.setSpair n x).kernel = g.kernel := rfl
@[simp] theorem Group.setSpair_team (g : Group) (n : Nat) (x : Dword) : (g.setSpair n x).team = g.team := rfl
@[simp] theorem Group.setSpair_idx (g : Group) (n : Nat) (x : Dword) : (g.setSpair n x).idx = g.idx := rfl
@[simp] theorem Group.setSpair_core (g : Group) (n : Nat) (x : Dword) : (g.setSpair n x).core = g.core := rfl
@[simp] theorem Group.setSpair_status (g : Group) (n : Nat) (x : Dword) : (g.setSpair n x).status = g.status := rfl
@[simp] theorem Group.setSpair_parkReq (g : Group) (n : Nat) (x : Dword) : (g.setSpair n x).parkReq = g.parkReq := rfl
@[simp] theorem Group.setSpair_lanes (g : Group) (n : Nat) (x : Dword) : (g.setSpair n x).lanes = g.lanes := rfl
@[simp] theorem Group.setSpair_v (g : Group) (n : Nat) (x : Dword) : (g.setSpair n x).v = g.v := rfl
@[simp] theorem Group.setSpair_tags (g : Group) (n : Nat) (x : Dword) : (g.setSpair n x).tags = g.tags := rfl
@[simp] theorem Group.setSpair_s (g : Group) (n : Nat) (x : Dword) : (g.setSpair n x).s = (g.s.setIfInBounds n (lowW x)).setIfInBounds (n + 1) (highW x) := rfl
@[simp] theorem Group.setSpair_p1 (g : Group) (n : Nat) (x : Dword) : (g.setSpair n x).p1 = g.p1 := rfl
@[simp] theorem Group.setSpair_p2 (g : Group) (n : Nat) (x : Dword) : (g.setSpair n x).p2 = g.p2 := rfl
@[simp] theorem Group.setSpair_p3 (g : Group) (n : Nat) (x : Dword) : (g.setSpair n x).p3 = g.p3 := rfl
@[simp] theorem Group.setSpair_m (g : Group) (n : Nat) (x : Dword) : (g.setSpair n x).m = g.m := rfl
@[simp] theorem Group.setSpair_lc (g : Group) (n : Nat) (x : Dword) : (g.setSpair n x).lc = g.lc := rfl
@[simp] theorem Group.setSpair_levels (g : Group) (n : Nat) (x : Dword) : (g.setSpair n x).levels = g.levels := rfl
@[simp] theorem Group.setSpair_rgn (g : Group) (n : Nat) (x : Dword) : (g.setSpair n x).rgn = g.rgn := rfl
@[simp] theorem Group.setSpair_held (g : Group) (n : Nat) (x : Dword) : (g.setSpair n x).held = g.held := rfl
@[simp] theorem Group.setSpair_wdog (g : Group) (n : Nat) (x : Dword) : (g.setSpair n x).wdog = g.wdog := rfl
@[simp] theorem Group.setSpair_hpc (g : Group) (n : Nat) (x : Dword) : (g.setSpair n x).hpc = g.hpc := rfl
@[simp] theorem Group.setSpair_htv (g : Group) (n : Nat) (x : Dword) : (g.setSpair n x).htv = g.htv := rfl
@[simp] theorem Group.setSpair_hcm (g : Group) (n : Nat) (x : Dword) : (g.setSpair n x).hcm = g.hcm := rfl
@[simp] theorem Group.setSpair_gfc (g : Group) (n : Nat) (x : Dword) : (g.setSpair n x).gfc = g.gfc := rfl
@[simp] theorem Group.setSpair_hs (g : Group) (n : Nat) (x : Dword) : (g.setSpair n x).hs = g.hs := rfl
@[simp] theorem Group.setSpair_xen (g : Group) (n : Nat) (x : Dword) : (g.setSpair n x).xen = g.xen := rfl
@[simp] theorem Group.setSpair_nmode (g : Group) (n : Nat) (x : Dword) : (g.setSpair n x).nmode = g.nmode := rfl
@[simp] theorem Group.setSpair_cvc (g : Group) (n : Nat) (x : Dword) : (g.setSpair n x).cvc = g.cvc := rfl
@[simp] theorem Group.setSpair_cvth (g : Group) (n : Nat) (x : Dword) : (g.setSpair n x).cvth = g.cvth := rfl
@[simp] theorem Group.setSpair_dph (g : Group) (n : Nat) (x : Dword) : (g.setSpair n x).dph = g.dph := rfl
@[simp] theorem Group.setSpair_gng (g : Group) (n : Nat) (x : Dword) : (g.setSpair n x).gng = g.gng := rfl
@[simp] theorem Group.setSpair_wth (g : Group) (n : Nat) (x : Dword) : (g.setSpair n x).wth = g.wth := rfl
@[simp] theorem Group.setSpair_wctl (g : Group) (n : Nat) (x : Dword) : (g.setSpair n x).wctl = g.wctl := rfl
@[simp] theorem Group.setSpair_starve (g : Group) (n : Nat) (x : Dword) : (g.setSpair n x).starve = g.starve := rfl
@[simp] theorem Group.setSpair_ops (g : Group) (n : Nat) (x : Dword) : (g.setSpair n x).ops = g.ops := rfl
@[simp] theorem Group.setSpair_nextOp (g : Group) (n : Nat) (x : Dword) : (g.setSpair n x).nextOp = g.nextOp := rfl
@[simp] theorem Group.setSpair_issued (g : Group) (n : Nat) (x : Dword) : (g.setSpair n x).issued = g.issued := rfl
@[simp] theorem Group.setSpair_pendV (g : Group) (n : Nat) (x : Dword) : (g.setSpair n x).pendV = g.pendV := rfl
@[simp] theorem Group.setSpair_pendS (g : Group) (n : Nat) (x : Dword) : (g.setSpair n x).pendS = g.pendS := rfl
@[simp] theorem Group.setSpair_stall (g : Group) (n : Nat) (x : Dword) : (g.setSpair n x).stall = g.stall := rfl
@[simp] theorem Group.setSpair_hstall (g : Group) (n : Nat) (x : Dword) : (g.setSpair n x).hstall = g.hstall := rfl
@[simp] theorem Group.setSpair_epoch (g : Group) (n : Nat) (x : Dword) : (g.setSpair n x).epoch = g.epoch := rfl
@[simp] theorem Group.setSpair_tokenDone (g : Group) (n : Nat) (x : Dword) : (g.setSpair n x).tokenDone = g.tokenDone := rfl
@[simp] theorem Group.setSpair_keptA (g : Group) (n : Nat) (x : Dword) : (g.setSpair n x).keptA = g.keptA := rfl
@[simp] theorem Group.setSpair_mmaCount (g : Group) (n : Nat) (x : Dword) : (g.setSpair n x).mmaCount = g.mmaCount := rfl
@[simp] theorem Group.setSpair_due (g : Group) (n : Nat) (x : Dword) : (g.setSpair n x).due = g.due := rfl
@[simp] theorem Group.setSpair_seen (g : Group) (n : Nat) (x : Dword) : (g.setSpair n x).seen = g.seen := rfl
@[simp] theorem Group.setSpair_saved (g : Group) (n : Nat) (x : Dword) : (g.setSpair n x).saved = g.saved := rfl
@[simp] theorem Group.setSpair_perf (g : Group) (n : Nat) (x : Dword) : (g.setSpair n x).perf = g.perf := rfl
@[simp] theorem Group.setSpair_last (g : Group) (n : Nat) (x : Dword) : (g.setSpair n x).last = g.last := rfl
@[simp] theorem Group.setSpair_yielded (g : Group) (n : Nat) (x : Dword) : (g.setSpair n x).yielded = g.yielded := rfl
@[simp] theorem Group.setSpair_redo (g : Group) (n : Nat) (x : Dword) : (g.setSpair n x).redo = g.redo := rfl
@[simp] theorem Group.setSpair_redoPc (g : Group) (n : Nat) (x : Dword) : (g.setSpair n x).redoPc = g.redoPc := rfl
@[simp] theorem Group.setSpair_tileNotes (g : Group) (n : Nat) (x : Dword) : (g.setSpair n x).tileNotes = g.tileNotes := rfl
@[simp] theorem Group.setSpair_kept (g : Group) (n : Nat) (x : Dword) : (g.setSpair n x).kept = g.kept := rfl
@[simp] theorem Group.setSpair_later (g : Group) (n : Nat) (x : Dword) : (g.setSpair n x).later = g.later := rfl
@[simp] theorem Group.setSpair_hmarks (g : Group) (n : Nat) (x : Dword) : (g.setSpair n x).hmarks = g.hmarks := rfl
@[simp] theorem Group.setSpair_fellAt (g : Group) (n : Nat) (x : Dword) : (g.setSpair n x).fellAt = g.fellAt := rfl
@[simp] theorem Group.setSpair_laneRec (g : Group) (n : Nat) (x : Dword) : (g.setSpair n x).laneRec = g.laneRec := rfl
@[simp] theorem Group.setSpair_born (g : Group) (n : Nat) (x : Dword) : (g.setSpair n x).born = g.born := rfl

/-! ### `Group.setM`: a mask register -/

@[simp] theorem Group.setM_kernel (g : Group) (n : Nat) (x : Word) : (g.setM n x).kernel = g.kernel := rfl
@[simp] theorem Group.setM_team (g : Group) (n : Nat) (x : Word) : (g.setM n x).team = g.team := rfl
@[simp] theorem Group.setM_idx (g : Group) (n : Nat) (x : Word) : (g.setM n x).idx = g.idx := rfl
@[simp] theorem Group.setM_core (g : Group) (n : Nat) (x : Word) : (g.setM n x).core = g.core := rfl
@[simp] theorem Group.setM_status (g : Group) (n : Nat) (x : Word) : (g.setM n x).status = g.status := rfl
@[simp] theorem Group.setM_parkReq (g : Group) (n : Nat) (x : Word) : (g.setM n x).parkReq = g.parkReq := rfl
@[simp] theorem Group.setM_lanes (g : Group) (n : Nat) (x : Word) : (g.setM n x).lanes = g.lanes := rfl
@[simp] theorem Group.setM_v (g : Group) (n : Nat) (x : Word) : (g.setM n x).v = g.v := rfl
@[simp] theorem Group.setM_tags (g : Group) (n : Nat) (x : Word) : (g.setM n x).tags = g.tags := rfl
@[simp] theorem Group.setM_s (g : Group) (n : Nat) (x : Word) : (g.setM n x).s = g.s := rfl
@[simp] theorem Group.setM_p1 (g : Group) (n : Nat) (x : Word) : (g.setM n x).p1 = g.p1 := rfl
@[simp] theorem Group.setM_p2 (g : Group) (n : Nat) (x : Word) : (g.setM n x).p2 = g.p2 := rfl
@[simp] theorem Group.setM_p3 (g : Group) (n : Nat) (x : Word) : (g.setM n x).p3 = g.p3 := rfl
@[simp] theorem Group.setM_m (g : Group) (n : Nat) (x : Word) : (g.setM n x).m = g.m.setIfInBounds n x := rfl
@[simp] theorem Group.setM_lc (g : Group) (n : Nat) (x : Word) : (g.setM n x).lc = g.lc := rfl
@[simp] theorem Group.setM_levels (g : Group) (n : Nat) (x : Word) : (g.setM n x).levels = g.levels := rfl
@[simp] theorem Group.setM_rgn (g : Group) (n : Nat) (x : Word) : (g.setM n x).rgn = g.rgn := rfl
@[simp] theorem Group.setM_held (g : Group) (n : Nat) (x : Word) : (g.setM n x).held = g.held := rfl
@[simp] theorem Group.setM_wdog (g : Group) (n : Nat) (x : Word) : (g.setM n x).wdog = g.wdog := rfl
@[simp] theorem Group.setM_hpc (g : Group) (n : Nat) (x : Word) : (g.setM n x).hpc = g.hpc := rfl
@[simp] theorem Group.setM_htv (g : Group) (n : Nat) (x : Word) : (g.setM n x).htv = g.htv := rfl
@[simp] theorem Group.setM_hcm (g : Group) (n : Nat) (x : Word) : (g.setM n x).hcm = g.hcm := rfl
@[simp] theorem Group.setM_gfc (g : Group) (n : Nat) (x : Word) : (g.setM n x).gfc = g.gfc := rfl
@[simp] theorem Group.setM_hs (g : Group) (n : Nat) (x : Word) : (g.setM n x).hs = g.hs := rfl
@[simp] theorem Group.setM_xen (g : Group) (n : Nat) (x : Word) : (g.setM n x).xen = g.xen := rfl
@[simp] theorem Group.setM_nmode (g : Group) (n : Nat) (x : Word) : (g.setM n x).nmode = g.nmode := rfl
@[simp] theorem Group.setM_cvc (g : Group) (n : Nat) (x : Word) : (g.setM n x).cvc = g.cvc := rfl
@[simp] theorem Group.setM_cvth (g : Group) (n : Nat) (x : Word) : (g.setM n x).cvth = g.cvth := rfl
@[simp] theorem Group.setM_dph (g : Group) (n : Nat) (x : Word) : (g.setM n x).dph = g.dph := rfl
@[simp] theorem Group.setM_gng (g : Group) (n : Nat) (x : Word) : (g.setM n x).gng = g.gng := rfl
@[simp] theorem Group.setM_wth (g : Group) (n : Nat) (x : Word) : (g.setM n x).wth = g.wth := rfl
@[simp] theorem Group.setM_wctl (g : Group) (n : Nat) (x : Word) : (g.setM n x).wctl = g.wctl := rfl
@[simp] theorem Group.setM_starve (g : Group) (n : Nat) (x : Word) : (g.setM n x).starve = g.starve := rfl
@[simp] theorem Group.setM_ops (g : Group) (n : Nat) (x : Word) : (g.setM n x).ops = g.ops := rfl
@[simp] theorem Group.setM_nextOp (g : Group) (n : Nat) (x : Word) : (g.setM n x).nextOp = g.nextOp := rfl
@[simp] theorem Group.setM_issued (g : Group) (n : Nat) (x : Word) : (g.setM n x).issued = g.issued := rfl
@[simp] theorem Group.setM_pendV (g : Group) (n : Nat) (x : Word) : (g.setM n x).pendV = g.pendV := rfl
@[simp] theorem Group.setM_pendS (g : Group) (n : Nat) (x : Word) : (g.setM n x).pendS = g.pendS := rfl
@[simp] theorem Group.setM_stall (g : Group) (n : Nat) (x : Word) : (g.setM n x).stall = g.stall := rfl
@[simp] theorem Group.setM_hstall (g : Group) (n : Nat) (x : Word) : (g.setM n x).hstall = g.hstall := rfl
@[simp] theorem Group.setM_epoch (g : Group) (n : Nat) (x : Word) : (g.setM n x).epoch = g.epoch := rfl
@[simp] theorem Group.setM_tokenDone (g : Group) (n : Nat) (x : Word) : (g.setM n x).tokenDone = g.tokenDone := rfl
@[simp] theorem Group.setM_keptA (g : Group) (n : Nat) (x : Word) : (g.setM n x).keptA = g.keptA := rfl
@[simp] theorem Group.setM_mmaCount (g : Group) (n : Nat) (x : Word) : (g.setM n x).mmaCount = g.mmaCount := rfl
@[simp] theorem Group.setM_due (g : Group) (n : Nat) (x : Word) : (g.setM n x).due = g.due := rfl
@[simp] theorem Group.setM_seen (g : Group) (n : Nat) (x : Word) : (g.setM n x).seen = g.seen := rfl
@[simp] theorem Group.setM_saved (g : Group) (n : Nat) (x : Word) : (g.setM n x).saved = g.saved := rfl
@[simp] theorem Group.setM_perf (g : Group) (n : Nat) (x : Word) : (g.setM n x).perf = g.perf := rfl
@[simp] theorem Group.setM_last (g : Group) (n : Nat) (x : Word) : (g.setM n x).last = g.last := rfl
@[simp] theorem Group.setM_yielded (g : Group) (n : Nat) (x : Word) : (g.setM n x).yielded = g.yielded := rfl
@[simp] theorem Group.setM_redo (g : Group) (n : Nat) (x : Word) : (g.setM n x).redo = g.redo := rfl
@[simp] theorem Group.setM_redoPc (g : Group) (n : Nat) (x : Word) : (g.setM n x).redoPc = g.redoPc := rfl
@[simp] theorem Group.setM_tileNotes (g : Group) (n : Nat) (x : Word) : (g.setM n x).tileNotes = g.tileNotes := rfl
@[simp] theorem Group.setM_kept (g : Group) (n : Nat) (x : Word) : (g.setM n x).kept = g.kept := rfl
@[simp] theorem Group.setM_later (g : Group) (n : Nat) (x : Word) : (g.setM n x).later = g.later := rfl
@[simp] theorem Group.setM_hmarks (g : Group) (n : Nat) (x : Word) : (g.setM n x).hmarks = g.hmarks := rfl
@[simp] theorem Group.setM_fellAt (g : Group) (n : Nat) (x : Word) : (g.setM n x).fellAt = g.fellAt := rfl
@[simp] theorem Group.setM_laneRec (g : Group) (n : Nat) (x : Word) : (g.setM n x).laneRec = g.laneRec := rfl
@[simp] theorem Group.setM_born (g : Group) (n : Nat) (x : Word) : (g.setM n x).born = g.born := rfl

/-! ### `Group.setL`: a loop counter -/

@[simp] theorem Group.setL_kernel (g : Group) (n : Nat) (x : Word) : (g.setL n x).kernel = g.kernel := rfl
@[simp] theorem Group.setL_team (g : Group) (n : Nat) (x : Word) : (g.setL n x).team = g.team := rfl
@[simp] theorem Group.setL_idx (g : Group) (n : Nat) (x : Word) : (g.setL n x).idx = g.idx := rfl
@[simp] theorem Group.setL_core (g : Group) (n : Nat) (x : Word) : (g.setL n x).core = g.core := rfl
@[simp] theorem Group.setL_status (g : Group) (n : Nat) (x : Word) : (g.setL n x).status = g.status := rfl
@[simp] theorem Group.setL_parkReq (g : Group) (n : Nat) (x : Word) : (g.setL n x).parkReq = g.parkReq := rfl
@[simp] theorem Group.setL_lanes (g : Group) (n : Nat) (x : Word) : (g.setL n x).lanes = g.lanes := rfl
@[simp] theorem Group.setL_v (g : Group) (n : Nat) (x : Word) : (g.setL n x).v = g.v := rfl
@[simp] theorem Group.setL_tags (g : Group) (n : Nat) (x : Word) : (g.setL n x).tags = g.tags := rfl
@[simp] theorem Group.setL_s (g : Group) (n : Nat) (x : Word) : (g.setL n x).s = g.s := rfl
@[simp] theorem Group.setL_p1 (g : Group) (n : Nat) (x : Word) : (g.setL n x).p1 = g.p1 := rfl
@[simp] theorem Group.setL_p2 (g : Group) (n : Nat) (x : Word) : (g.setL n x).p2 = g.p2 := rfl
@[simp] theorem Group.setL_p3 (g : Group) (n : Nat) (x : Word) : (g.setL n x).p3 = g.p3 := rfl
@[simp] theorem Group.setL_m (g : Group) (n : Nat) (x : Word) : (g.setL n x).m = g.m := rfl
@[simp] theorem Group.setL_lc (g : Group) (n : Nat) (x : Word) : (g.setL n x).lc = g.lc.setIfInBounds n x := rfl
@[simp] theorem Group.setL_levels (g : Group) (n : Nat) (x : Word) : (g.setL n x).levels = g.levels := rfl
@[simp] theorem Group.setL_rgn (g : Group) (n : Nat) (x : Word) : (g.setL n x).rgn = g.rgn := rfl
@[simp] theorem Group.setL_held (g : Group) (n : Nat) (x : Word) : (g.setL n x).held = g.held := rfl
@[simp] theorem Group.setL_wdog (g : Group) (n : Nat) (x : Word) : (g.setL n x).wdog = g.wdog := rfl
@[simp] theorem Group.setL_hpc (g : Group) (n : Nat) (x : Word) : (g.setL n x).hpc = g.hpc := rfl
@[simp] theorem Group.setL_htv (g : Group) (n : Nat) (x : Word) : (g.setL n x).htv = g.htv := rfl
@[simp] theorem Group.setL_hcm (g : Group) (n : Nat) (x : Word) : (g.setL n x).hcm = g.hcm := rfl
@[simp] theorem Group.setL_gfc (g : Group) (n : Nat) (x : Word) : (g.setL n x).gfc = g.gfc := rfl
@[simp] theorem Group.setL_hs (g : Group) (n : Nat) (x : Word) : (g.setL n x).hs = g.hs := rfl
@[simp] theorem Group.setL_xen (g : Group) (n : Nat) (x : Word) : (g.setL n x).xen = g.xen := rfl
@[simp] theorem Group.setL_nmode (g : Group) (n : Nat) (x : Word) : (g.setL n x).nmode = g.nmode := rfl
@[simp] theorem Group.setL_cvc (g : Group) (n : Nat) (x : Word) : (g.setL n x).cvc = g.cvc := rfl
@[simp] theorem Group.setL_cvth (g : Group) (n : Nat) (x : Word) : (g.setL n x).cvth = g.cvth := rfl
@[simp] theorem Group.setL_dph (g : Group) (n : Nat) (x : Word) : (g.setL n x).dph = g.dph := rfl
@[simp] theorem Group.setL_gng (g : Group) (n : Nat) (x : Word) : (g.setL n x).gng = g.gng := rfl
@[simp] theorem Group.setL_wth (g : Group) (n : Nat) (x : Word) : (g.setL n x).wth = g.wth := rfl
@[simp] theorem Group.setL_wctl (g : Group) (n : Nat) (x : Word) : (g.setL n x).wctl = g.wctl := rfl
@[simp] theorem Group.setL_starve (g : Group) (n : Nat) (x : Word) : (g.setL n x).starve = g.starve := rfl
@[simp] theorem Group.setL_ops (g : Group) (n : Nat) (x : Word) : (g.setL n x).ops = g.ops := rfl
@[simp] theorem Group.setL_nextOp (g : Group) (n : Nat) (x : Word) : (g.setL n x).nextOp = g.nextOp := rfl
@[simp] theorem Group.setL_issued (g : Group) (n : Nat) (x : Word) : (g.setL n x).issued = g.issued := rfl
@[simp] theorem Group.setL_pendV (g : Group) (n : Nat) (x : Word) : (g.setL n x).pendV = g.pendV := rfl
@[simp] theorem Group.setL_pendS (g : Group) (n : Nat) (x : Word) : (g.setL n x).pendS = g.pendS := rfl
@[simp] theorem Group.setL_stall (g : Group) (n : Nat) (x : Word) : (g.setL n x).stall = g.stall := rfl
@[simp] theorem Group.setL_hstall (g : Group) (n : Nat) (x : Word) : (g.setL n x).hstall = g.hstall := rfl
@[simp] theorem Group.setL_epoch (g : Group) (n : Nat) (x : Word) : (g.setL n x).epoch = g.epoch := rfl
@[simp] theorem Group.setL_tokenDone (g : Group) (n : Nat) (x : Word) : (g.setL n x).tokenDone = g.tokenDone := rfl
@[simp] theorem Group.setL_keptA (g : Group) (n : Nat) (x : Word) : (g.setL n x).keptA = g.keptA := rfl
@[simp] theorem Group.setL_mmaCount (g : Group) (n : Nat) (x : Word) : (g.setL n x).mmaCount = g.mmaCount := rfl
@[simp] theorem Group.setL_due (g : Group) (n : Nat) (x : Word) : (g.setL n x).due = g.due := rfl
@[simp] theorem Group.setL_seen (g : Group) (n : Nat) (x : Word) : (g.setL n x).seen = g.seen := rfl
@[simp] theorem Group.setL_saved (g : Group) (n : Nat) (x : Word) : (g.setL n x).saved = g.saved := rfl
@[simp] theorem Group.setL_perf (g : Group) (n : Nat) (x : Word) : (g.setL n x).perf = g.perf := rfl
@[simp] theorem Group.setL_last (g : Group) (n : Nat) (x : Word) : (g.setL n x).last = g.last := rfl
@[simp] theorem Group.setL_yielded (g : Group) (n : Nat) (x : Word) : (g.setL n x).yielded = g.yielded := rfl
@[simp] theorem Group.setL_redo (g : Group) (n : Nat) (x : Word) : (g.setL n x).redo = g.redo := rfl
@[simp] theorem Group.setL_redoPc (g : Group) (n : Nat) (x : Word) : (g.setL n x).redoPc = g.redoPc := rfl
@[simp] theorem Group.setL_tileNotes (g : Group) (n : Nat) (x : Word) : (g.setL n x).tileNotes = g.tileNotes := rfl
@[simp] theorem Group.setL_kept (g : Group) (n : Nat) (x : Word) : (g.setL n x).kept = g.kept := rfl
@[simp] theorem Group.setL_later (g : Group) (n : Nat) (x : Word) : (g.setL n x).later = g.later := rfl
@[simp] theorem Group.setL_hmarks (g : Group) (n : Nat) (x : Word) : (g.setL n x).hmarks = g.hmarks := rfl
@[simp] theorem Group.setL_fellAt (g : Group) (n : Nat) (x : Word) : (g.setL n x).fellAt = g.fellAt := rfl
@[simp] theorem Group.setL_laneRec (g : Group) (n : Nat) (x : Word) : (g.setL n x).laneRec = g.laneRec := rfl
@[simp] theorem Group.setL_born (g : Group) (n : Nat) (x : Word) : (g.setL n x).born = g.born := rfl

/-! ### `Group.onLanes`: some lanes -/

@[simp] theorem Group.onLanes_kernel (g : Group) (ls : Lanes) (f : Fin 32 → Lane → Lane) : (g.onLanes ls f).kernel = g.kernel := by delta Group.onLanes; rfl
@[simp] theorem Group.onLanes_team (g : Group) (ls : Lanes) (f : Fin 32 → Lane → Lane) : (g.onLanes ls f).team = g.team := by delta Group.onLanes; rfl
@[simp] theorem Group.onLanes_idx (g : Group) (ls : Lanes) (f : Fin 32 → Lane → Lane) : (g.onLanes ls f).idx = g.idx := by delta Group.onLanes; rfl
@[simp] theorem Group.onLanes_core (g : Group) (ls : Lanes) (f : Fin 32 → Lane → Lane) : (g.onLanes ls f).core = g.core := by delta Group.onLanes; rfl
@[simp] theorem Group.onLanes_status (g : Group) (ls : Lanes) (f : Fin 32 → Lane → Lane) : (g.onLanes ls f).status = g.status := by delta Group.onLanes; rfl
@[simp] theorem Group.onLanes_parkReq (g : Group) (ls : Lanes) (f : Fin 32 → Lane → Lane) : (g.onLanes ls f).parkReq = g.parkReq := by delta Group.onLanes; rfl
@[simp] theorem Group.onLanes_v (g : Group) (ls : Lanes) (f : Fin 32 → Lane → Lane) : (g.onLanes ls f).v = g.v := by delta Group.onLanes; rfl
@[simp] theorem Group.onLanes_tags (g : Group) (ls : Lanes) (f : Fin 32 → Lane → Lane) : (g.onLanes ls f).tags = g.tags := by delta Group.onLanes; rfl
@[simp] theorem Group.onLanes_s (g : Group) (ls : Lanes) (f : Fin 32 → Lane → Lane) : (g.onLanes ls f).s = g.s := by delta Group.onLanes; rfl
@[simp] theorem Group.onLanes_p1 (g : Group) (ls : Lanes) (f : Fin 32 → Lane → Lane) : (g.onLanes ls f).p1 = g.p1 := by delta Group.onLanes; rfl
@[simp] theorem Group.onLanes_p2 (g : Group) (ls : Lanes) (f : Fin 32 → Lane → Lane) : (g.onLanes ls f).p2 = g.p2 := by delta Group.onLanes; rfl
@[simp] theorem Group.onLanes_p3 (g : Group) (ls : Lanes) (f : Fin 32 → Lane → Lane) : (g.onLanes ls f).p3 = g.p3 := by delta Group.onLanes; rfl
@[simp] theorem Group.onLanes_m (g : Group) (ls : Lanes) (f : Fin 32 → Lane → Lane) : (g.onLanes ls f).m = g.m := by delta Group.onLanes; rfl
@[simp] theorem Group.onLanes_lc (g : Group) (ls : Lanes) (f : Fin 32 → Lane → Lane) : (g.onLanes ls f).lc = g.lc := by delta Group.onLanes; rfl
@[simp] theorem Group.onLanes_levels (g : Group) (ls : Lanes) (f : Fin 32 → Lane → Lane) : (g.onLanes ls f).levels = g.levels := by delta Group.onLanes; rfl
@[simp] theorem Group.onLanes_rgn (g : Group) (ls : Lanes) (f : Fin 32 → Lane → Lane) : (g.onLanes ls f).rgn = g.rgn := by delta Group.onLanes; rfl
@[simp] theorem Group.onLanes_held (g : Group) (ls : Lanes) (f : Fin 32 → Lane → Lane) : (g.onLanes ls f).held = g.held := by delta Group.onLanes; rfl
@[simp] theorem Group.onLanes_wdog (g : Group) (ls : Lanes) (f : Fin 32 → Lane → Lane) : (g.onLanes ls f).wdog = g.wdog := by delta Group.onLanes; rfl
@[simp] theorem Group.onLanes_hpc (g : Group) (ls : Lanes) (f : Fin 32 → Lane → Lane) : (g.onLanes ls f).hpc = g.hpc := by delta Group.onLanes; rfl
@[simp] theorem Group.onLanes_htv (g : Group) (ls : Lanes) (f : Fin 32 → Lane → Lane) : (g.onLanes ls f).htv = g.htv := by delta Group.onLanes; rfl
@[simp] theorem Group.onLanes_hcm (g : Group) (ls : Lanes) (f : Fin 32 → Lane → Lane) : (g.onLanes ls f).hcm = g.hcm := by delta Group.onLanes; rfl
@[simp] theorem Group.onLanes_gfc (g : Group) (ls : Lanes) (f : Fin 32 → Lane → Lane) : (g.onLanes ls f).gfc = g.gfc := by delta Group.onLanes; rfl
@[simp] theorem Group.onLanes_hs (g : Group) (ls : Lanes) (f : Fin 32 → Lane → Lane) : (g.onLanes ls f).hs = g.hs := by delta Group.onLanes; rfl
@[simp] theorem Group.onLanes_xen (g : Group) (ls : Lanes) (f : Fin 32 → Lane → Lane) : (g.onLanes ls f).xen = g.xen := by delta Group.onLanes; rfl
@[simp] theorem Group.onLanes_nmode (g : Group) (ls : Lanes) (f : Fin 32 → Lane → Lane) : (g.onLanes ls f).nmode = g.nmode := by delta Group.onLanes; rfl
@[simp] theorem Group.onLanes_cvc (g : Group) (ls : Lanes) (f : Fin 32 → Lane → Lane) : (g.onLanes ls f).cvc = g.cvc := by delta Group.onLanes; rfl
@[simp] theorem Group.onLanes_cvth (g : Group) (ls : Lanes) (f : Fin 32 → Lane → Lane) : (g.onLanes ls f).cvth = g.cvth := by delta Group.onLanes; rfl
@[simp] theorem Group.onLanes_dph (g : Group) (ls : Lanes) (f : Fin 32 → Lane → Lane) : (g.onLanes ls f).dph = g.dph := by delta Group.onLanes; rfl
@[simp] theorem Group.onLanes_gng (g : Group) (ls : Lanes) (f : Fin 32 → Lane → Lane) : (g.onLanes ls f).gng = g.gng := by delta Group.onLanes; rfl
@[simp] theorem Group.onLanes_wth (g : Group) (ls : Lanes) (f : Fin 32 → Lane → Lane) : (g.onLanes ls f).wth = g.wth := by delta Group.onLanes; rfl
@[simp] theorem Group.onLanes_wctl (g : Group) (ls : Lanes) (f : Fin 32 → Lane → Lane) : (g.onLanes ls f).wctl = g.wctl := by delta Group.onLanes; rfl
@[simp] theorem Group.onLanes_starve (g : Group) (ls : Lanes) (f : Fin 32 → Lane → Lane) : (g.onLanes ls f).starve = g.starve := by delta Group.onLanes; rfl
@[simp] theorem Group.onLanes_ops (g : Group) (ls : Lanes) (f : Fin 32 → Lane → Lane) : (g.onLanes ls f).ops = g.ops := by delta Group.onLanes; rfl
@[simp] theorem Group.onLanes_nextOp (g : Group) (ls : Lanes) (f : Fin 32 → Lane → Lane) : (g.onLanes ls f).nextOp = g.nextOp := by delta Group.onLanes; rfl
@[simp] theorem Group.onLanes_issued (g : Group) (ls : Lanes) (f : Fin 32 → Lane → Lane) : (g.onLanes ls f).issued = g.issued := by delta Group.onLanes; rfl
@[simp] theorem Group.onLanes_pendV (g : Group) (ls : Lanes) (f : Fin 32 → Lane → Lane) : (g.onLanes ls f).pendV = g.pendV := by delta Group.onLanes; rfl
@[simp] theorem Group.onLanes_pendS (g : Group) (ls : Lanes) (f : Fin 32 → Lane → Lane) : (g.onLanes ls f).pendS = g.pendS := by delta Group.onLanes; rfl
@[simp] theorem Group.onLanes_stall (g : Group) (ls : Lanes) (f : Fin 32 → Lane → Lane) : (g.onLanes ls f).stall = g.stall := by delta Group.onLanes; rfl
@[simp] theorem Group.onLanes_hstall (g : Group) (ls : Lanes) (f : Fin 32 → Lane → Lane) : (g.onLanes ls f).hstall = g.hstall := by delta Group.onLanes; rfl
@[simp] theorem Group.onLanes_epoch (g : Group) (ls : Lanes) (f : Fin 32 → Lane → Lane) : (g.onLanes ls f).epoch = g.epoch := by delta Group.onLanes; rfl
@[simp] theorem Group.onLanes_tokenDone (g : Group) (ls : Lanes) (f : Fin 32 → Lane → Lane) : (g.onLanes ls f).tokenDone = g.tokenDone := by delta Group.onLanes; rfl
@[simp] theorem Group.onLanes_keptA (g : Group) (ls : Lanes) (f : Fin 32 → Lane → Lane) : (g.onLanes ls f).keptA = g.keptA := by delta Group.onLanes; rfl
@[simp] theorem Group.onLanes_mmaCount (g : Group) (ls : Lanes) (f : Fin 32 → Lane → Lane) : (g.onLanes ls f).mmaCount = g.mmaCount := by delta Group.onLanes; rfl
@[simp] theorem Group.onLanes_due (g : Group) (ls : Lanes) (f : Fin 32 → Lane → Lane) : (g.onLanes ls f).due = g.due := by delta Group.onLanes; rfl
@[simp] theorem Group.onLanes_seen (g : Group) (ls : Lanes) (f : Fin 32 → Lane → Lane) : (g.onLanes ls f).seen = g.seen := by delta Group.onLanes; rfl
@[simp] theorem Group.onLanes_saved (g : Group) (ls : Lanes) (f : Fin 32 → Lane → Lane) : (g.onLanes ls f).saved = g.saved := by delta Group.onLanes; rfl
@[simp] theorem Group.onLanes_perf (g : Group) (ls : Lanes) (f : Fin 32 → Lane → Lane) : (g.onLanes ls f).perf = g.perf := by delta Group.onLanes; rfl
@[simp] theorem Group.onLanes_last (g : Group) (ls : Lanes) (f : Fin 32 → Lane → Lane) : (g.onLanes ls f).last = g.last := by delta Group.onLanes; rfl
@[simp] theorem Group.onLanes_yielded (g : Group) (ls : Lanes) (f : Fin 32 → Lane → Lane) : (g.onLanes ls f).yielded = g.yielded := by delta Group.onLanes; rfl
@[simp] theorem Group.onLanes_redo (g : Group) (ls : Lanes) (f : Fin 32 → Lane → Lane) : (g.onLanes ls f).redo = g.redo := by delta Group.onLanes; rfl
@[simp] theorem Group.onLanes_redoPc (g : Group) (ls : Lanes) (f : Fin 32 → Lane → Lane) : (g.onLanes ls f).redoPc = g.redoPc := by delta Group.onLanes; rfl
@[simp] theorem Group.onLanes_tileNotes (g : Group) (ls : Lanes) (f : Fin 32 → Lane → Lane) : (g.onLanes ls f).tileNotes = g.tileNotes := by delta Group.onLanes; rfl
@[simp] theorem Group.onLanes_kept (g : Group) (ls : Lanes) (f : Fin 32 → Lane → Lane) : (g.onLanes ls f).kept = g.kept := by delta Group.onLanes; rfl
@[simp] theorem Group.onLanes_later (g : Group) (ls : Lanes) (f : Fin 32 → Lane → Lane) : (g.onLanes ls f).later = g.later := by delta Group.onLanes; rfl
@[simp] theorem Group.onLanes_hmarks (g : Group) (ls : Lanes) (f : Fin 32 → Lane → Lane) : (g.onLanes ls f).hmarks = g.hmarks := by delta Group.onLanes; rfl
@[simp] theorem Group.onLanes_fellAt (g : Group) (ls : Lanes) (f : Fin 32 → Lane → Lane) : (g.onLanes ls f).fellAt = g.fellAt := by delta Group.onLanes; rfl
@[simp] theorem Group.onLanes_laneRec (g : Group) (ls : Lanes) (f : Fin 32 → Lane → Lane) : (g.onLanes ls f).laneRec = g.laneRec := by delta Group.onLanes; rfl
@[simp] theorem Group.onLanes_born (g : Group) (ls : Lanes) (f : Fin 32 → Lane → Lane) : (g.onLanes ls f).born = g.born := by delta Group.onLanes; rfl

/-! ### Reading one register back -/

@[simp] theorem Group.onLanes_lane (g : Group) (ls : Lanes) (f : Fin 32 → Lane → Lane) (l : Fin 32) :
    (g.onLanes ls f).lane l = if ls.getLsbD l then f l (g.lane l) else g.lane l := by
  simp [Group.onLanes, Group.lane]

theorem vector_getD {α : Type} {k : Nat} (x : Vector α k) (n : Nat) (d : α) : x.getD n d = x[n]?.getD d := by
  cases x
  simp [Vector.getD, Array.getD_eq_getD_getElem?]

theorem vector_getD_set {α : Type} {k : Nat} (x : Vector α k) (n : Nat) (a d : α) (h : n < k) :
    (x.setIfInBounds n a).getD n d = a := by
  simp [vector_getD, h]

theorem vector_getD_set_ne {α : Type} {k : Nat} (x : Vector α k) (n i : Nat) (a d : α) (h : n ≠ i) :
    (x.setIfInBounds n a).getD i d = x.getD i d := by
  simp [vector_getD, h]

theorem Group.vreg_setV (g : Group) (n : Nat) (x : PerLane Word) (t : Tag) (h : n < 64) : (g.setV n x t).vreg n = x :=
  vector_getD_set _ _ _ _ h

theorem Group.vreg_setV_ne (g : Group) (n k : Nat) (x : PerLane Word) (t : Tag) (h : n ≠ k) :
    (g.setV n x t).vreg k = g.vreg k := vector_getD_set_ne _ _ _ _ _ h

theorem Group.vreg_putV (g : Group) (n : Nat) (ls : Lanes) (f : Fin 32 → Word) (l : Fin 32) (h : n < 64) :
    ((g.putV n ls f).vreg n)[l] = if ls.getLsbD l then f l else (g.vreg n)[l] := by
  simp [Group.putV, Group.vreg_setV, h]

theorem Group.sreg_setS (g : Group) (n : Nat) (x : Word) (h : n < 64) : (g.setS n x).sreg n = x :=
  vector_getD_set _ _ _ _ h

theorem Group.sreg_setS_ne (g : Group) (n k : Nat) (x : Word) (h : n ≠ k) : (g.setS n x).sreg k = g.sreg k :=
  vector_getD_set_ne _ _ _ _ _ h

theorem Group.pred_putP_zero (g : Group) (ls x : Lanes) : g.putP 0 ls x = g := rfl

theorem State.grp_setGrp (s : State) (gi : Nat) (g : Group) (h : gi < s.groups.length) : (s.setGrp gi g).grp gi = g := by
  simp [State.setGrp, State.grp, h]

theorem State.grp_setGrp_ne (s : State) (gi k : Nat) (g : Group) (h : gi ≠ k) : (s.setGrp gi g).grp k = s.grp k := by
  simp [State.setGrp, State.grp, List.getD_eq_getElem?_getD, h]

theorem State.grp_onGrp (s : State) (gi : Nat) (f : Group → Group) (h : gi < s.groups.length) :
    (s.onGrp gi f).grp gi = f (s.grp gi) := s.grp_setGrp gi _ h

end Sys2Proof.Machine
end

