-- ==== Sys2Proof/Laws/Chain.lean ====
section
/-! SUPPORT. What advancing and the end of a chain leave as it was: said once, so that a proof about a word cites it. -/
namespace Sys2Proof.Machine

/-! ### Lanes -/

theorem map_updAt_same {α β : Type} (e : α → β) (l : List α) (n : Nat) (f : α → α) (h : ∀ a, e (f a) = e a) :
    (updAt l n f).map e = l.map e := by
  induction l generalizing n with
  | nil => rfl
  | cons a as ih => cases n <;> simp [updAt, h, ih]

theorem Group.onLanes_still (g : Group) (ls : Lanes) (f : Fin 32 → Lane → Lane) (h : ∀ l x, (f l x).still = x.still) :
    (g.onLanes ls f).still = g.still := by
  have e : (Vector.ofFn fun l : Fin 32 => if ls.getLsbD l then f l g.lanes[l] else g.lanes[l]).map Lane.still
      = g.lanes.map Lane.still := by
    ext i hi
    simp only [Vector.getElem_map, Vector.getElem_ofFn]
    split <;> simp [h]
  simp only [Group.still, Group.onLanes, e]

theorem State.setGrp_still (s : State) (gi : Nat) (g : Group) (h : g.still = (s.grp gi).still) :
    (s.setGrp gi g).still = s.still := by
  have e : (s.groups.set gi g).map Group.still = s.groups.map Group.still := by
    apply List.ext_getElem? ; intro i
    simp only [List.getElem?_map, List.getElem?_set]
    split
    · subst i
      split
      · rename_i hl
        simp [h, State.grp, List.getD_eq_getElem?_getD, hl]
      · rename_i hl; simp [List.getElem?_eq_none (Nat.le_of_not_lt hl)]
    · rfl
  simp only [State.still, State.setGrp, e]

theorem State.onGrp_still (s : State) (gi : Nat) (f : Group → Group) (h : ∀ g, (f g).still = g.still) :
    (s.onGrp gi f).still = s.still := s.setGrp_still gi _ (h _)

theorem State.onTeam_still (s : State) (n : Nat) (f : Team → Team) (h : ∀ t, (f t).still = t.still) :
    (s.onTeam n f).still = s.still := by
  simp only [State.still, State.onTeam, map_updAt_same _ _ _ _ h]

theorem State.onKernel_still (s : State) (n : Nat) (f : Kernel → Kernel) (h : ∀ t, (f t).still = t.still) :
    (s.onKernel n f).still = s.still := by
  simp only [State.still, State.onKernel, map_updAt_same _ _ _ _ h]

theorem State.onCtx_still (s : State) (n : Nat) (f : Ctx → Ctx) (h : ∀ t, (f t).still = t.still) :
    (s.onCtx n f).still = s.still := by
  simp only [State.still, State.onCtx, map_updAt_same _ _ _ _ h]

theorem State.post_still (s : State) (n : Nat) (r : Rec) : (s.post n r).still = s.still :=
  State.onCtx_still _ _ _ fun _ => rfl

theorem State.setGrp_setGrp (s : State) (gi : Nat) (g h : Group) : (s.setGrp gi g).setGrp gi h = s.setGrp gi h := by
  simp [State.setGrp, List.set_set]

/-! ### Loop ends and releases -/

theorem Group.arrive_still (g : Group) : g.arrive.still = g.still := by
  apply Group.onLanes_still
  intro l x
  split
  · split <;> rfl
  · rfl

theorem Group.release_still (g : Group) (wt : Nat) (f : Lane → Word) : (g.release wt f).still = g.still := by
  apply Group.onLanes_still
  intro l x
  split <;> rfl

theorem Group.setL_still (g : Group) (n : Nat) (x : Word) : (g.setL n x).still = g.still := rfl

theorem Group.closeLevel_still (g : Group) (i : Nat) : (g.closeLevel i).still = g.still := by
  have := Group.onLanes_still g allLanes
    (fun _ x => if x.st = .waiting && 12 + i < x.wt && x.wt < 15 then { x with wt := x.wt - 1 } else x)
    (by intro l x; split <;> rfl)
  unfold Group.closeLevel
  rw [← this]
  generalize g.onLanes allLanes _ = k
  rfl

theorem Group.loopEnd_still (g : Group) (i : Nat) : (g.loopEnd i).still = g.still := by
  unfold Group.loopEnd
  split
  · rfl
  · dsimp only
    split
    · rw [Group.release_still, Group.setL_still]
    · rw [Group.closeLevel_still, Group.release_still, Group.setL_still]

theorem foldl_same {α β γ : Type} (e : α → γ) (f : α → β → α) (h : ∀ a b, e (f a b) = e a) (l : List β) (a : α) :
    e (l.foldl f a) = e a := by
  induction l generalizing a with
  | nil => rfl
  | cons b bs ih => simp [ih, h]

theorem Group.releaseOnce_still (g : Group) : g.releaseOnce.still = g.still := by
  unfold Group.releaseOnce
  dsimp only
  rw [foldl_same Group.still _ fun g i => g.loopEnd_still i]
  exact foldl_same Group.still _ (fun g n => g.release_still n _) _ _

theorem Group.settle_still (n : Nat) (g : Group) : (Group.settle n g).still = g.still := by
  induction n generalizing g with
  | zero => rfl
  | succ k ih =>
    unfold Group.settle
    dsimp only
    split
    · rw [ih, Group.releaseOnce_still, Group.arrive_still]
    · exact Group.arrive_still g

/-! ### Taking a trap -/

theorem State.parkSystem_still (s : State) (gi : Nat) (hm : Bool) (r : Rec) : (s.parkSystem gi hm r).still = s.still := by
  unfold State.parkSystem
  dsimp only
  rw [State.post_still]
  rw [foldl_same State.still]
  · rw [State.onTeam_still]
    · exact State.setGrp_still _ _ _ rfl
    · exact fun _ => rfl
  · intro t j
    split
    · rfl
    · exact State.onGrp_still _ _ _ fun _ => rfl

theorem Group.fallTo_still (g : Group) (pc : Word) : (g.fallTo pc).still = g.still := by
  unfold Group.fallTo
  dsimp only
  split <;> rfl

theorem State.parkHandler_still (s : State) (gi : Nat) (r : Rec) (pc : Word) : (s.parkHandler gi r pc).still = s.still := by
  unfold State.parkHandler
  rw [State.parkSystem_still, State.onGrp_still]
  exact fun g => g.fallTo_still pc

theorem State.fallHandler_still (s : State) (gi cause detail : Nat) (fs : List LaneFault) (addr : Dword) (pc : Word) (notes : List TileNote)
    (rep : Bool) : (s.fallHandler gi cause detail fs addr pc notes rep).still = s.still := by
  unfold State.fallHandler
  dsimp only
  rw [State.parkHandler_still, State.onGrp_still _ _ (fun g => g.layMarks fs) (fun _ => rfl)]
  have h : ∀ (b : Bool) (c : Nat),
      (if b = true then s.onCtx c fun x => { x with recs := x.recs.filter fun r => !r.joins gi } else s).still = s.still := by
    intro b c
    cases b
    · rfl
    · exact State.onCtx_still s c (fun x => { x with recs := x.recs.filter fun r => !r.joins gi }) fun _ => rfl
  exact h _ _

theorem State.trapSystem_still (s : State) (gi : Nat) (ls : Lanes) (due : Option Nat) (flg : Nat) :
    (s.trapSystem gi ls due flg).still = s.still := by
  unfold State.trapSystem
  dsimp only
  split <;> exact State.parkSystem_still _ _ _ _

theorem State.takeTrap_still (s : State) (gi : Nat) (rep : Bool) : (s.takeTrap gi rep).still = s.still := by
  unfold State.takeTrap
  dsimp only
  split
  · rw [State.trapSystem_still, State.setGrp_still]; rfl
  · split
    · exact State.setGrp_still _ _ _ rfl
    · rw [State.trapSystem_still, State.setGrp_still]; rfl

theorem Group.resumeMain_still (g : Group) : g.resumeMain.still = g.still := by
  unfold Group.resumeMain
  split
  · rename_i t _
    split
    · rename_i ps _
      rw [← Group.onLanes_still g allLanes
        (fun l x => if x.st = .runnable && x.pcv == t.pc then { x with pcv := ps.getD l.val x.pcv } else x)
        (by intro l x; split <;> rfl)]
      generalize g.onLanes allLanes _ = k
      rfl
    · rfl
  · rfl

theorem Group.resumeHandler_still (g : Group) : g.resumeHandler.still = g.still := by
  unfold Group.resumeHandler
  split
  · split <;> rfl
  · rfl

theorem Group.endWaits_still (g : Group) (p : StallKind → Bool) : (g.endWaits p).still = g.still := by
  have h : (if g.hm then { g with stall := g.stall.map fun (t : Stall) => if p t.kind && t.resume.isSome then { t with ready := [t.kind.tag] } else t }
      else if g.stall.any fun t => p t.kind then g.resumeMain else g).still = g.still := by
    split
    · rfl
    · split
      · exact g.resumeMain_still
      · rfl
  unfold Group.endWaits
  dsimp only
  generalize (if g.hm then _ else if g.stall.any fun t => p t.kind then g.resumeMain else g : Group) = k at h ⊢
  rw [← h]
  split
  · rw [Group.resumeHandler_still]; rfl
  · rfl

theorem Group.abandon_still (b g : Group) : (b.abandon g).still = g.still := rfl

theorem Group.endReady_still (g : Group) : g.endReady.still = g.still := by
  unfold Group.endReady
  split
  · exact g.resumeMain_still
  · rfl

theorem Group.dropStale_still (g : Group) : g.dropStale.still = g.still := by
  unfold Group.dropStale
  split
  · split
    · rfl
    · split <;> rfl
  · rfl

theorem Group.leaveHandler_still (b g : Group) : (b.leaveHandler g).still = g.still := by
  unfold Group.leaveHandler
  rw [Group.endReady_still, Group.dropStale_still, Group.abandon_still]

theorem State.settleGrp_still (s : State) (gi : Nat) (e : Bool) : (s.settleGrp gi e).still = s.still := by
  have hg := Group.settle_still 16 (s.grp gi)
  unfold State.settleGrp
  split
  · rfl
  · dsimp only
    generalize (s.grp gi).settle 16 = g at hg
    have h1 : ∀ h : Group, h.still = g.still → ((s.setGrp gi g).setGrp gi h).still = s.still := by
      intro h hh
      rw [State.setGrp_setGrp]
      exact State.setGrp_still _ _ _ (hh.trans hg)
    have h0 : (s.setGrp gi g).still = s.still := State.setGrp_still _ _ _ hg
    repeat' split
    all_goals first
      | exact h0
      | exact h1 _ rfl
      | (rw [State.takeTrap_still]; first | exact h0 | exact h1 _ rfl)

theorem State.endWaits_still (s : State) (gi : Nat) (p : StallKind → Bool) : (s.endWaits gi p).still = s.still := by
  unfold State.endWaits
  rw [State.settleGrp_still, State.onGrp_still]
  exact fun g => g.endWaits_still p

theorem State.gridCheck_still (s : State) (k : Nat) : (s.gridCheck k).still = s.still := by
  unfold State.gridCheck
  split
  · rfl
  · dsimp only
    split
    · rw [foldl_same State.still _ fun s gi => s.endWaits_still gi _]
      exact State.onKernel_still s k _ fun _ => rfl
    · rfl

theorem State.settle_still (s : State) (gi : Nat) (e : Bool) : (s.settle gi e).still = s.still := by
  unfold State.settle
  dsimp only
  split
  · rw [State.gridCheck_still, State.settleGrp_still]
  · exact State.settleGrp_still s gi e

/-! ### The end of a chain -/

theorem State.advance_still (s : State) : s.advance.still = s.still := by
  unfold State.advance
  split
  · rfl
  · dsimp only
    have h := State.onGrp_still s s.iss.gi
      (fun g => if g.hm then { g with hpc := s.iss.next }
        else g.onLanes s.iss.at_ fun _ x => if x.st = .runnable then { x with pcv := s.iss.next } else x)
      (by
        intro g
        split
        · rfl
        · apply Group.onLanes_still
          intro l x
          split <;> rfl)
    rw [← h]
    rfl

theorem Group.standing_still (g : Group) (k : StallKind) (pc : Word) (clk : Nat) (ls us : Lanes) :
    (g.standing k pc clk ls us).still = g.still := by
  unfold Group.standing
  split
  · rfl
  · rw [← Group.onLanes_still g ls (fun _ x => if x.st = .runnable then { x with pcv := pc } else x)
      (by intro l x; split <;> rfl)]
    generalize g.onLanes ls _ = k
    rfl

theorem State.countChain_still (s : State) (gi : Nat) : (s.countChain gi).still = s.still := by
  simp only [State.still, State.countChain, List.map_map]
  congr 1
  apply List.map_congr_left
  intro t _
  simp only [Function.comp_apply]
  split <;> split <;> rfl

theorem State.endChain_still (s : State) : s.endChain.still = s.still := by
  unfold State.endChain
  dsimp only
  have h : ∀ f : Group → Group, (∀ g, (f g).still = g.still) →
      (({ s.countChain s.iss.gi with iss := { s.iss with left := 0, wait := none } } : State).onGrp s.iss.gi f).still = s.still := by
    intro f hf
    rw [State.onGrp_still _ _ _ hf]
    exact (show _ = (s.countChain s.iss.gi).still from rfl).trans (State.countChain_still s s.iss.gi)
  have e := h (fun g =>
    match s.iss.fell, s.iss.wait with
    | none, some k => Group.standing
        (if s.iss.snap.hm then { g with perf := g.perf.set 0 (g.perf[0] + 1), hstall := none }
         else { g with perf := g.perf.set 0 (g.perf[0] + 1), stall := none,
                       starve := if s.iss.snap.above s.iss.pc then g.starve + 1 else 0 }) k.1 s.iss.pc s.clk s.iss.at_ k.2
    | _, _ => if s.iss.snap.hm then { g with perf := g.perf.set 0 (g.perf[0] + 1), hstall := none }
         else { g with perf := g.perf.set 0 (g.perf[0] + 1), stall := none,
                       starve := if s.iss.snap.above s.iss.pc then g.starve + 1 else 0 }) (by
    intro g
    split
    · rw [Group.standing_still]
      split <;> rfl
    · split <;> rfl)
  have l : ∀ (b : Bool) (t : State), (if b then t.onGrp s.iss.gi fun g => s.iss.snap.leaveHandler g else t).still = t.still := by
    intro b t
    split
    · exact State.onGrp_still _ _ _ fun g => Group.leaveHandler_still _ g
    · rfl
  split
  · rw [State.fallHandler_still]
    exact (show _ = State.still _ from rfl).trans ((l _ _).trans ((show _ = _ from rfl).trans e))
  · rw [State.settle_still]
    exact (l _ _).trans ((show _ = _ from rfl).trans e)

/-- The end of a word changes nothing that a word computes. -/
theorem State.finish_still (s : State) : s.finish.still = s.still := by
  unfold State.finish
  split
  · exact State.endChain_still s
  · rfl

/-! ### Words -/

/-- A word that its checks let through: with no lane its lanes advance, else its effect. -/
theorem word_ok {w : WordSpec} {s : State} {body : Wctx → State → Res} {e : State} (h : stopped w (wctx w.h s) = none)
    (hb : (wctx w.h s).lanes ≠ 0#32 → body (wctx w.h s) s.advance = .ok e) (hs : w.side = false) :
    (word w s body).still = (if (wctx w.h s).lanes = 0#32 then s.advance else e).still := by
  unfold word wordAny wordOwn
  dsimp only
  rw [h]
  dsimp only
  split
  · simp only [settleRes, hs, Bool.false_and, Bool.false_eq_true, if_false]
    exact State.finish_still _
  · rename_i hl
    rw [hb hl]
    simp only [settleRes, hs, Bool.false_and, Bool.false_eq_true, if_false]
    exact State.finish_still _

/-- What stops a word stops it whatever its body is. -/
theorem wordAny_stopped {w : WordSpec} {s : State} {body : Wctx → State → Res} {r : Res}
    (h : stopped w (wctx w.h s) = some r) : wordAny w s body = settleRes w (wctx w.h s) s r := by
  simp only [wordAny, wordOwn, h]

end Sys2Proof.Machine
end

