-- ==== Sys2Proof/Laws/Memory.lean ====
section
/-! SUPPORT. Memory: its canonical form, which every memory operation keeps, and reads after writes. -/
namespace Sys2Proof.Machine

/-! ### The canonical form -/

/-- The canonical form, said of the whole list: no zero byte, and addresses rise. -/
theorem Memory.wf_iff (m : Memory) : Memory.wf m = true ↔ (∀ c ∈ m, c.2 ≠ 0#8) ∧ m.Pairwise (fun c d => c.1 < d.1) := by
  induction m with
  | nil => simp [Memory.wf]
  | cons c m ih =>
    cases m with
    | nil => simp [Memory.wf]
    | cons d m =>
      simp only [Memory.wf, Bool.and_eq_true, bne_iff_ne, decide_eq_true_eq, ih]
      constructor
      · rintro ⟨⟨h0, h1⟩, h2, h3⟩
        refine ⟨List.forall_mem_cons.2 ⟨h0, h2⟩, List.pairwise_cons.2 ⟨?_, h3⟩⟩
        intro e he
        rcases List.mem_cons.1 he with rfl | he
        · exact h1
        · exact lt_trans h1 ((List.pairwise_cons.1 h3).1 e he)
      · rintro ⟨h0, h1⟩
        obtain ⟨a, b⟩ := List.forall_mem_cons.1 h0
        obtain ⟨p, q⟩ := List.pairwise_cons.1 h1
        exact ⟨⟨a, p d (by simp)⟩, b, q⟩

theorem Memory.wf_nil : Memory.wf [] = true := rfl

theorem Memory.filter_wf {m : Memory} (p : Host.Cell → Bool) (h : Memory.wf m = true) : Memory.wf (m.filter p) = true := by
  rw [Memory.wf_iff] at h ⊢
  exact ⟨fun c hc => h.1 c (List.mem_of_mem_filter hc), h.2.filter _⟩

theorem Memory.mem_ins (m : Memory) (x : Nat) (b : Byte) (c : Host.Cell) : c ∈ Memory.ins m x b ↔ c = (x, b) ∨ c ∈ m := by
  induction m with
  | nil => simp [Memory.ins]
  | cons d m ih =>
    obtain ⟨a, e⟩ := d
    simp only [Memory.ins]
    split
    · simp
    · simp only [List.mem_cons, ih]; tauto

theorem Memory.ins_wf {m : Memory} {x : Nat} {b : Byte} (h : Memory.wf m = true) (hx : ∀ c ∈ m, c.1 ≠ x) (hb : b ≠ 0#8) :
    Memory.wf (Memory.ins m x b) = true := by
  rw [Memory.wf_iff] at h ⊢
  refine ⟨fun c hc => ?_, ?_⟩
  · rcases (Memory.mem_ins m x b c).1 hc with rfl | hc
    · exact hb
    · exact h.1 c hc
  · replace h := h.2
    induction m with
    | nil => simp [Memory.ins]
    | cons d m ih =>
      obtain ⟨a, e⟩ := d
      obtain ⟨p, q⟩ := List.pairwise_cons.1 h
      have hne : a ≠ x := hx (a, e) (by simp)
      simp only [Memory.ins]
      split
      · rename_i hlt
        refine List.pairwise_cons.2 ⟨fun c hc => ?_, h⟩
        rcases List.mem_cons.1 hc with rfl | hc
        · exact hlt
        · exact lt_trans hlt (p c hc)
      · rename_i hlt
        refine List.pairwise_cons.2 ⟨fun c hc => ?_, ih (fun c hc => hx c (List.mem_cons_of_mem _ hc)) q⟩
        rcases (Memory.mem_ins m x b c).1 hc with rfl | hc
        · show a < x; omega
        · exact p c hc

theorem Memory.put_wf {m : Memory} (x : Nat) (b : Byte) (h : Memory.wf m = true) : Memory.wf (Memory.put m x b) = true := by
  unfold Memory.put
  split
  · exact Memory.filter_wf _ h
  · rename_i hb
    exact Memory.ins_wf (Memory.filter_wf _ h) (fun c hc => by simpa using (List.mem_filter.1 hc).2) hb

theorem Memory.writeN_wf {m : Memory} (a : Nat) (bs : List Byte) (h : Memory.wf m = true) : Memory.wf (Memory.writeN m a bs) = true := by
  induction bs generalizing m a with
  | nil => exact h
  | cons b bs ih => exact ih _ (Memory.put_wf _ _ h)

/-! ### Reads after writes -/

theorem Memory.byte_ins {m : Memory} {x : Nat} (b : Byte) (y : Nat) (hx : ∀ c ∈ m, c.1 ≠ x) :
    Memory.byte (Memory.ins m x b) y = if y = x then b else Memory.byte m y := by
  induction m with
  | nil => simp [Memory.ins, Memory.byte, eq_comm]
  | cons d m ih =>
    obtain ⟨a, e⟩ := d
    have hne : a ≠ x := hx (a, e) (by simp)
    simp only [Memory.ins]
    split
    · simp only [Memory.byte, eq_comm (a := x)]
    · simp only [Memory.byte, ih fun c hc => hx c (List.mem_cons_of_mem _ hc)]
      by_cases h : a = y
      · subst h; simp [hne]
      · simp [h]

theorem Memory.byte_del (m : Memory) (x y : Nat) : Memory.byte (m.filter fun c => c.1 != x) y = if y = x then 0 else Memory.byte m y := by
  induction m with
  | nil => simp [Memory.byte]
  | cons d m ih =>
    obtain ⟨a, e⟩ := d
    by_cases h : a = x
    · subst h
      simp only [bne_self_eq_false, Bool.false_eq_true, not_false_eq_true, List.filter_cons_of_neg, ih, Memory.byte]
      by_cases hy : y = a
      · simp [hy]
      · simp [hy, Ne.symm hy]
    · have hb : (a != x) = true := by simpa using h
      simp only [List.filter_cons, hb, if_true, Memory.byte, ih]
      by_cases hy : a = y
      · subst hy; simp [h]
      · simp [hy]

theorem Memory.byte_put (m : Memory) (x : Nat) (b : Byte) (y : Nat) :
    Memory.byte (Memory.put m x b) y = if y = x then b else Memory.byte m y := by
  unfold Memory.put
  split
  · rename_i h; subst h; exact Memory.byte_del m x y
  · rw [Memory.byte_ins b y fun c hc => by simpa using (List.mem_filter.1 hc).2, Memory.byte_del]
    split <;> simp_all

/-- A byte after a write: the written byte in the range, the old one outside it. -/
theorem Memory.byte_writeN (m : Memory) (a : Nat) (bs : List Byte) (y : Nat) :
    Memory.byte (Memory.writeN m a bs) y = if a ≤ y ∧ y < a + bs.length then bs.getD (y - a) 0 else Memory.byte m y := by
  induction bs generalizing m a with
  | nil =>
    have h : ¬(a ≤ y ∧ y < a + ([] : List Byte).length) := by simp
    rw [if_neg h]; rfl
  | cons b bs ih =>
    simp only [Memory.writeN, ih, Memory.byte_put, List.length_cons]
    by_cases h0 : y = a
    · subst h0
      have h1 : ¬(y + 1 ≤ y ∧ y < y + 1 + bs.length) := by omega
      have h2 : y ≤ y ∧ y < y + (bs.length + 1) := by omega
      simp
    · by_cases h1 : a + 1 ≤ y ∧ y < a + 1 + bs.length
      · have h2 : a ≤ y ∧ y < a + (bs.length + 1) := by omega
        rw [if_pos h1, if_pos h2, show y - a = (y - (a + 1)) + 1 by omega]
        simp
      · have h2 : ¬(a ≤ y ∧ y < a + (bs.length + 1)) := by omega
        rw [if_neg h1, if_neg h0, if_neg h2]

/-! ### The state's memories keep the form -/

theorem updAt_forall {α : Type} {l : List α} {n : Nat} {f : α → α} {P : α → Prop} (h : ∀ x ∈ l, P x) (hf : ∀ x, P x → P (f x)) :
    ∀ x ∈ updAt l n f, P x := by
  induction l generalizing n with
  | nil => simp [updAt]
  | cons a l ih =>
    obtain ⟨ha, hl⟩ := List.forall_mem_cons.1 h
    cases n with
    | zero => exact List.forall_mem_cons.2 ⟨hf a ha, hl⟩
    | succ n => exact List.forall_mem_cons.2 ⟨ha, ih hl⟩

theorem State.reset_memWf : State.reset.memWf := ⟨rfl, rfl, fun t h => absurd (show t ∈ ([] : List Team) from h) (by simp)⟩

/-- Bytes put one by one keep the form. -/
theorem Memory.foldl_put_wf {α : Type} (at_ : α → Nat) (v : α → Byte) (l : List α) {m : Memory} (h : Memory.wf m = true) :
    Memory.wf (l.foldl (fun m i => Memory.put m (at_ i) (v i)) m) = true := by
  induction l generalizing m with
  | nil => exact h
  | cons x l ih => exact ih (Memory.put_wf _ _ h)

/-- A step of a fold that keeps the form keeps it over the list. -/
theorem State.foldl_memWf {α : Type} (f : State → α → State) (hf : ∀ s a, s.memWf → (f s a).memWf) (l : List α) {s : State} (h : s.memWf) :
    (l.foldl f s).memWf := by
  induction l generalizing s with
  | nil => exact h
  | cons a l ih => exact ih (hf s a h)

theorem State.putLine_memWf {s : State} (line : Nat) (data key : List Byte) (h : s.memWf) : (s.putLine line data key).memWf := by
  unfold State.putLine
  split
  · exact ⟨Memory.foldl_put_wf _ _ _ h.1, h.2⟩
  · exact ⟨Memory.writeN_wf _ _ h.1, h.2⟩

theorem State.putMem_memWf {s : State} (pa : Nat) (b : Byte) (key : List Byte) (h : s.memWf) : (s.putMem pa b key).memWf := by
  unfold State.putMem
  split
  · exact ⟨Memory.put_wf _ _ h.1, h.2⟩
  · exact State.putLine_memWf _ _ _ h

theorem State.writeLine_memWf {s : State} (x : L2Line) (h : s.memWf) : (s.writeLine x).memWf := State.putLine_memWf _ _ _ h

theorem State.evict_memWf {s : State} (p : L2Line → Bool) (back : Bool) (h : s.memWf) : (s.evict p back).memWf := by
  unfold State.evict
  cases back
  · exact h
  · exact State.foldl_memWf _ (fun _ x hs => State.writeLine_memWf x hs) _ h

theorem State.writeBack_memWf {s : State} (whose : Owner → Bool) (h : s.memWf) : (s.writeBack whose).memWf :=
  State.foldl_memWf State.writeLine (fun _ x hs => State.writeLine_memWf x hs) _ h

theorem State.putByte_memWf {s : State} (pa : Nat) (b : Byte) (pol : Nat) (key : List Byte) (h : s.memWf) : (s.putByte pa b pol key).memWf := by
  unfold State.putByte
  split
  · split
    · exact State.putMem_memWf _ _ _ (State.evict_memWf _ _ h)
    · dsimp only
      split
      · exact h
      · split
        · exact ⟨Memory.put_wf _ _ h.1, h.2⟩
        · exact State.putLine_memWf (s := s) _ _ _ h
  · exact State.putMem_memWf _ _ _ h

theorem State.putBytes_memWf {s : State} (pa : Nat) (bs : List Byte) (pol : Nat) (key : List Byte) (h : s.memWf) :
    (s.putBytes pa bs pol key).memWf := by
  induction bs generalizing s pa with
  | nil => exact h
  | cons b bs ih => exact ih _ (State.putByte_memWf _ _ _ _ h)

theorem State.physWrite_memWf {s : State} (pa : Nat) (bs : List Byte) (pol : Nat) (h : s.memWf) : (s.physWrite pa bs pol).memWf :=
  State.putBytes_memWf _ _ _ _ h

theorem State.makeWay_memWf {s : State} (sb : Nat) (h : s.memWf) : (s.makeWay sb).memWf := by
  unfold State.makeWay
  split
  · exact h
  · dsimp only
    split
    · exact State.evict_memWf _ _ h
    · exact h

theorem State.fillLine_memWf {s : State} (pa : Nat) (x : Xlat) (h : s.memWf) : (s.fillLine pa x).memWf := by
  unfold State.fillLine
  split
  · exact h
  · dsimp only
    split
    · exact State.makeWay_memWf _ h
    · exact State.makeWay_memWf _ h

theorem State.outsideWrites_memWf {s : State} (h : s.memWf) : s.outsideWrites.memWf := by
  exact ⟨Memory.foldl_put_wf _ _ _ h.1, h.2⟩

theorem State.onTeam_memWf {s : State} (t : Nat) (f : Team → Team) (h : s.memWf) (hf : ∀ x, Memory.wf x.sp = true → Memory.wf (f x).sp = true) :
    (s.onTeam t f).memWf := ⟨h.1, h.2.1, updAt_forall h.2.2 hf⟩

theorem State.readLoc_memWf {s : State} (loc : Loc) (n : Nat) (h : s.memWf) : (s.readLoc loc n).1.memWf := by
  cases loc with
  | gl pa x => exact State.fillLine_memWf pa x h
  | sp t off => exact h
  | bb a => exact h

theorem State.owe_memWf {s : State} (pa n : Nat) (o : Option Owner) (h : s.memWf) : (s.owe pa n o).memWf := by
  unfold State.owe
  split
  · split <;> exact h
  · exact h

theorem State.toPort_memWf {s : State} (loc : Loc) (h : s.memWf) : (s.toPort loc).memWf := by
  unfold State.toPort
  split
  · split
    · exact State.evict_memWf _ _ h
    · exact h
  · exact h

theorem State.writeLoc_memWf {s : State} (loc : Loc) (bs : List Byte) (h : s.memWf) : (s.writeLoc loc bs).memWf := by
  cases loc with
  | gl pa x =>
    have hp := State.putBytes_memWf pa bs x.pol (s.keyOf x.key) (State.fillLine_memWf pa x h)
    unfold State.writeLoc
    dsimp only
    split
    · exact hp
    · exact State.owe_memWf _ _ _ hp
  | sp t off => exact State.onTeam_memWf _ _ h fun _ hx => Memory.writeN_wf _ _ hx
  | bb a => exact h

theorem State.putDwords_memWf {s : State} (ws : List (Nat × Nat)) (h : s.memWf) : (s.putDwords ws).memWf := by
  refine ⟨?_, h.2⟩
  have hp : ∀ (ws : List (Nat × Nat)) (m : Memory), Memory.wf m = true →
      Memory.wf (ws.foldl (fun m w => Memory.writeN m w.1 (toBytes 8 w.2)) m) = true := by
    intro ws
    induction ws with
    | nil => exact fun m h => h
    | cons x l ih => exact fun m h => ih _ (Memory.writeN_wf _ _ h)
  exact hp ws s.mem h.1

theorem State.loadPacket_memWf {s : State} (w : Nat) (h : s.memWf) : (s.loadPacket w).memWf := by
  unfold State.loadPacket
  have hd := State.putDwords_memWf benchTables h
  generalize s.putDwords benchTables = u at hd ⊢
  refine ⟨Memory.writeN_wf _ _ hd.1, hd.2.1, ?_⟩
  intro t ht
  rcases List.mem_append.1 ht with ht | ht
  · exact hd.2.2 t ht
  · rw [List.mem_singleton.1 ht]; exact Memory.wf_nil

end Sys2Proof.Machine
end

