-- ==== Sys2Proof/Laws/Descriptor.lean ====
section
/-! SUPPORT. Descriptors: a byte past the end of a list counts as 0, so a descriptor whose tail is 0 is read and checked by its head. -/
namespace Sys2Proof.Machine

/-- Two lists of bytes agree, where a byte past an end counts as 0. -/
def SameBytes (l k : List Byte) : Prop := ∀ i, l.getD i 0 = k.getD i 0

theorem ofBytes_same {l k : List Byte} (h : SameBytes l k) : ofBytes l = ofBytes k := by
  induction l generalizing k with
  | nil =>
    induction k with
    | nil => rfl
    | cons b k ih =>
      have hb : b = 0 := by simpa using (h 0).symm
      simp [ofBytes, hb, ← ih fun i => by simpa using h (i + 1)]
  | cons a l ih =>
    cases k with
    | nil =>
      have ha : a = 0 := by simpa using h 0
      simp [ofBytes, ha, ih (k := []) fun i => by simpa using h (i + 1)]
    | cons b k =>
      have hb : a = b := by simpa using h 0
      simp [ofBytes, hb, ih (k := k) fun i => by simpa using h (i + 1)]

theorem SameBytes.drop {l k : List Byte} (h : SameBytes l k) (n : Nat) : SameBytes (l.drop n) (k.drop n) := fun i => by
  simpa [List.getD_eq_getElem?_getD, List.getElem?_drop] using h (n + i)

theorem SameBytes.take {l k : List Byte} (h : SameBytes l k) (n : Nat) : SameBytes (l.take n) (k.take n) := fun i => by
  by_cases hi : i < n
  · simpa [List.getD_eq_getElem?_getD, List.getElem?_take, hi] using h i
  · simp [List.getD_eq_getElem?_getD, hi]

theorem fieldAt_same {l k : List Byte} (h : SameBytes l k) : fieldAt l = fieldAt k :=
  funext fun off => funext fun n => ofBytes_same ((h.drop off).take n)

theorem Ctx.ofBytes_same {l k : List Byte} (h : SameBytes l k) (addr fn : Nat) : Ctx.ofBytes addr fn l = Ctx.ofBytes addr fn k := by
  simp only [Ctx.ofBytes, Desc.ofBytes, fieldAt_same h, Queue.load, Pool.ofBytes, SeqClass.ofBytes,
    fun a b => fieldAt_same ((h.drop a).take b), fun a b => Machine.ofBytes_same ((h.drop a).take b)]

theorem State.tryCtx_same {l k : List Byte} (h : SameBytes l k) (s : State) (n addr fn : Nat) : s.tryCtx n addr fn l = s.tryCtx n addr fn k := by
  simp only [State.tryCtx, Ctx.ofBytes_same h]

theorem descVer_same {l k : List Byte} (h : SameBytes l k) : descVer l = descVer k := by
  unfold descVer anySet
  rw [fieldAt_same h]

theorem SeqClass.ofBytes_same {l k : List Byte} (h : SameBytes l k) : SeqClass.ofBytes l = SeqClass.ofBytes k := by
  unfold SeqClass.ofBytes
  rw [fieldAt_same h]

theorem State.descLimit_same {l k : List Byte} (h : SameBytes l k) (s : State) (n : Nat) : s.descLimit n l = s.descLimit n k := by
  have one (i : Nat) : SeqClass.ofBytes ((l.drop (1280 + 64 * i)).take 64) = SeqClass.ofBytes ((k.drop (1280 + 64 * i)).take 64) :=
    SeqClass.ofBytes_same ((h.drop _).take _)
  unfold State.descLimit anySet
  rw [fieldAt_same h]
  simp only [one]

theorem State.descVector_same {l k : List Byte} (h : SameBytes l k) (s : State) (x : Ctx) : s.descVector x l = s.descVector x k := by
  unfold State.descVector
  rw [fieldAt_same h]

theorem State.descStatus_same {l k : List Byte} (h : SameBytes l k) (s : State) (n : Nat) (bind : Bool) :
    s.descStatus n l bind = s.descStatus n k bind := by
  unfold State.descStatus anySet
  rw [descVer_same h, fieldAt_same h, State.descLimit_same h]
  simp only [State.descVector_same h]

theorem Memory.byte_unlisted {m : Memory} {x : Nat} (h : ∀ c ∈ m, c.1 ≠ x) : Memory.byte m x = 0 := by
  induction m with
  | nil => rfl
  | cons c m ih => simp [Memory.byte, h c (by simp), ih fun d hd => h d (by simp [hd])]

/-- Outside a pool region every byte is kept at its physical address. -/
theorem State.place_local (s : State) {pa : Nat} (h : paReg pa ≠ 2) : s.place pa = pa := by
  simp [State.place, h]

/-- With no range in a decoder table no two bytes share a place. -/
theorem State.place_inj {s : State} (hd : ∀ p ∈ s.ports, p.decoder = []) {p q : Nat} (h : s.place p = s.place q) : p = q := by
  have at_ (pa : Nat) (hr : paReg pa = 2) : s.place pa = pa + 2 ^ 128 := by
    unfold State.place
    cases hp : s.ports[pa / 2 ^ 45]? with
    | none => simp [hr]
    | some x => simp [hr, hd x (List.mem_of_getElem? hp), decoded]
  by_cases hp : paReg p = 2 <;> by_cases hq : paReg q = 2
  · rw [at_ p hp, at_ q hq] at h; omega
  · rw [at_ p hp, s.place_local hq] at h; subst h; simp only [paReg] at hp hq; omega
  · rw [at_ q hq, s.place_local hp] at h; subst h; simp only [paReg] at hp hq; omega
  · rwa [s.place_local hp, s.place_local hq] at h

/-- With no line in the L2 and nothing enciphered, a physical agent reads memory. -/
theorem State.physByte_plain {s : State} (hl : s.l2 = []) (hk : s.memKeys = []) {pa : Nat} (hr : paReg pa ≠ 2) :
    s.physByte pa = Memory.byte s.mem pa := by
  simp [State.physByte, State.byteAt, State.l2?, State.memByte, State.memKey, hl, hk, s.place_local hr]

/-- What is read past the listed cells of a range is 0. -/
theorem State.physRead_same {s : State} {pa n m : Nat} (hl : s.l2 = []) (hk : s.memKeys = [])
    (hr : pa + m ≤ 2 ^ 44) (hn : n ≤ m)
    (h : ∀ c ∈ s.mem, c.1 < pa + n ∨ pa + m ≤ c.1) : SameBytes (s.physRead pa m) (s.physRead pa n) := fun i => by
  have get (j : Nat) : (s.physRead pa j).getD i 0 = if i < j then s.physByte (pa + i) else 0 := by
    by_cases hi : i < j <;> simp [State.physRead, List.getD_eq_getElem?_getD, hi]
  rw [get, get]
  by_cases hi : i < n
  · simp [hi, Nat.lt_of_lt_of_le hi hn]
  · by_cases hm : i < m
    · simp only [hi, hm, if_true, if_false, State.physByte_plain hl hk (pa := pa + i) (by simp only [paReg]; omega)]
      exact Memory.byte_unlisted fun c hc => by have := h c hc; omega
    · simp [hi, hm]

end Sys2Proof.Machine
end

