-- ==== Sys2Proof/Laws/Encoding.lean ====
section
/-! SUPPORT. Fields of concatenated words, and how the decoder reads the words that the encoder writes. -/
namespace Sys2Proof

/-- Bits of a concatenation that lie in its upper part. -/
theorem extract_high {n m : Nat} (a : BitVec n) (b : BitVec m) (s l : Nat) (h : m ≤ s) : (a ++ b).extractLsb' s l = a.extractLsb' (s - m) l := by
  ext i hi; simp [BitVec.getLsbD_append, show ¬ s + i < m by omega, show s + i - m = s - m + i by omega]
/-- Bits of a concatenation that lie in its lower part. -/
theorem extract_low {n m : Nat} (a : BitVec n) (b : BitVec m) (s l : Nat) (h : s + l ≤ m) : (a ++ b).extractLsb' s l = b.extractLsb' s l := by
  ext i hi; simp [BitVec.getLsbD_append]; omega
theorem extract_all {n : Nat} (a : BitVec n) : a.extractLsb' 0 n = a := by ext i hi; simp
theorem bit_high {n m : Nat} (a : BitVec n) (b : BitVec m) (s : Nat) (h : m ≤ s) : (a ++ b).getLsbD s = a.getLsbD (s - m) := by
  simp [BitVec.getLsbD_append]; omega
theorem bit_low {n m : Nat} (a : BitVec n) (b : BitVec m) (s : Nat) (h : s < m) : (a ++ b).getLsbD s = b.getLsbD s := by
  simp [BitVec.getLsbD_append]; omega
/-- The class of a word (R25). -/
theorem class_of_word (c : Bool) (k : BitVec 5) (g : BitVec 2) (p : BitVec 24) : (BitVec.ofBool c ++ (k ++ (g ++ p))).extractLsb' 26 5 = k := by
  simp (disch := omega) only [extract_high, extract_low]; exact extract_all k
/-- The header of a word (R25). -/
theorem header_of_word (limm) (c : Bool) (k : BitVec 5) (g : BitVec 2) (p : BitVec 24) : hdrOf limm (BitVec.ofBool c ++ (k ++ (g ++ p))) = ⟨c, g, limm⟩ := by
  simp (disch := omega) only [hdrOf, extract_high, extract_low, bit_high]
  simp [extract_all g]

/-- The decoder reads an instruction's words as the map of their class reads its own word: a word of class `k`, with or without a prefix. -/
theorem decodeAt_word (h : Hdr) (k : BitVec 5) (p : BitVec 24) (ext : List Word) (r : Raw) (hk : k ≠ 5#5)
    (hd : decodeClass h (BitVec.ofBool h.c ++ (k ++ (h.g ++ p))) (ext.getD 0 0) = some (some r)) (hc : r.clean = true) (hv : r.instr.violations = [])
    (ht : r.two = true → h.limm = none) :
    decodeAt (prefixWords h ++ (BitVec.ofBool h.c ++ (k ++ (h.g ++ p))) :: ext) 0 = ⟨some r.instr, (prefixWords h).length + if r.two then 2 else 1, h.c, h.g, [], none⟩ := by
  obtain ⟨c, g, limm⟩ := h
  have l0 : isLimm (BitVec.ofBool c ++ (k ++ (g ++ p))) = false   := by
    show ((BitVec.ofBool c ++ (k ++ (g ++ p))).extractLsb' 26 5 == 5#5) = false
    rw [class_of_word]
    simpa using hk
  cases limm with
  | none =>
    show (if isLimm (BitVec.ofBool c ++ (k ++ (g ++ p))) then _ else decodeBody none (BitVec.ofBool c ++ (k ++ (g ++ p))) (ext.getD 0 0) 0) = _
    rw [l0]
    simp only [Bool.false_eq_true, if_false, decodeBody, header_of_word, hd]
    simp [hc, hv, prefixWords]
  | some u =>
    show (if isLimm (5#6 ++ u) then _ else _) = _
    have l1 : isLimm (5#6 ++ u) = true := by
      simp (disch := omega) only [isLimm, extract_high]; decide
    have t0 : (5#6 ++ u).getLsbD 31 = false := by
      simp (disch := omega) only [bit_high]; decide
    have u0 : (5#6 ++ u).extractLsb' 0 26 = u := by
      simp (disch := omega) only [extract_low]; exact extract_all u
    have r0 : r.two = false := by cases hr : r.two with | false => rfl | true => exact absurd (ht hr) (by simp)
    rw [l1]
    have e1 : (prefixWords ⟨c, g, some u⟩ ++ (BitVec.ofBool c ++ (k ++ (g ++ p))) :: ext).getD 0 0 = (5#6 ++ u : BitVec 32) := rfl
    have e2 : (prefixWords ⟨c, g, some u⟩ ++ (BitVec.ofBool c ++ (k ++ (g ++ p))) :: ext).getD (0+1) 0 = (BitVec.ofBool c ++ (k ++ (g ++ p)) : BitVec 32) := rfl
    have e3 : (prefixWords ⟨c, g, some u⟩ ++ (BitVec.ofBool c ++ (k ++ (g ++ p))) :: ext).getD (0+2) 0 = ext.getD 0 0 := rfl
    simp only [e1, e2, e3, t0, u0, l0, decodeBody, header_of_word, hd, if_true]
    simp [hc, hv, r0, prefixWords]

/-- No reserved bit of a word is set (R34, R41). -/
theorem reserved_clear (w m : Word) (h : ∀ i : Fin 32, m.getLsbD i = true → w.getLsbD i = false) : (w &&& m == 0#32) = true := by
  rw [beq_iff_eq]
  apply BitVec.eq_of_getLsbD_eq
  intro i hi
  have := h ⟨i, hi⟩
  rw [BitVec.getLsbD_and]
  cases hm : m.getLsbD i with
  | false => simp
  | true => simp [this hm]

end Sys2Proof
end

