-- ==== Sys2Proof/Laws/Words.lean ====
section
/-! SUPPORT. How a word ends, said once over its body: a claim about a word follows from what its body answers. -/
namespace Sys2Proof.Machine
open Sys2Proof.Claims

theorem next_congr {a b : State} (h : a = b) : (Host.Outcome.next a : Out) = .next b := h ▸ rfl

theorem word_stopped {w : WordSpec} {s : State} {body : Wctx → State → Res} {r : Res} (h : stopped w (wctx w.h s) = some r) :
    word w s body = settleRes w (wctx w.h s) s r := wordAny_stopped h

theorem word_clear {w : WordSpec} {s : State} {body : Wctx → State → Res} (h : Clear w s) :
    word w s body = settleRes w (wctx w.h s) s (if lanes w s = 0#32 then .ok s.advance else body (wctx w.h s) s.advance) := by
  simp only [word, wordAny, wordOwn, show stopped w (wctx w.h s) = none from h]
  rfl

theorem settle_ok {w : WordSpec} {s e : State} (h : lanes w s ≠ 0#32) :
    settleRes w (wctx w.h s) s (.ok e) = (opened w s e).finish := by
  have h' : (wctx w.h s).lanes ≠ 0#32 := h
  unfold opened
  by_cases hs : w.side = true
  · simp only [settleRes, hs, h', ne_eq, not_false_eq_true, decide_true, Bool.and_self, if_true]
    rfl
  · simp only [settleRes, hs, Bool.false_and, Bool.false_eq_true, if_false]

/-- A word ends as its body says. -/
theorem ends_of {i : Instr} {w : WordSpec} {s : State} {body : Wctx → State → Res} (h : exec i s = .next (word w s body)) :
    Ends i w s (body (wctx w.h s) s.advance) := by
  intro hc
  refine ⟨_, h, ?_⟩
  rw [word_clear hc]
  split
  · rename_i hl
    have hl' : (wctx w.h s).lanes = 0#32 := hl
    simp only [settleRes, hl', ne_eq, not_true_eq_false, decide_false, Bool.and_false, Bool.false_eq_true, if_false]
    exact State.finish_still _
  · rename_i hl
    generalize body (wctx w.h s) s.advance = r
    have hl' : (wctx w.h s).lanes ≠ 0#32 := hl
    cases r with
    | ok e =>
      dsimp only
      rw [settle_ok hl]
      exact State.finish_still _
    | raise k d =>
      simp only [settleRes, if_neg hl']
      rfl
    | hold k => rfl
    | wait k e =>
      dsimp only
      unfold opened
      by_cases hs : w.side = true
      · simp only [settleRes, hs, hl', ne_eq, not_false_eq_true, decide_true, Bool.and_self, if_true]
        rfl
      · simp only [settleRes, hs, Bool.false_and, Bool.false_eq_true, if_false]
        rfl

/-- The same, with the body's answer given. -/
theorem ends_as {i : Instr} {w : WordSpec} {s : State} {r : Res} {body : Wctx → State → Res}
    (h : exec i s = .next (word w s body)) (hb : body (wctx w.h s) s.advance = r) : Ends i w s r := hb ▸ ends_of h

theorem does_of_ends {i : Instr} {w : WordSpec} {s e : State} (h : Ends i w s (.ok e)) : Does i w s e := by
  intro hc
  obtain ⟨t, ht, hr⟩ := h hc
  refine ⟨t, ht, ?_⟩
  split at hr <;> simp_all

theorem does_of {i : Instr} {w : WordSpec} {s e : State} {body : Wctx → State → Res} (h : exec i s = .next (word w s body))
    (hb : body (wctx w.h s) s.advance = .ok e) : Does i w s e := does_of_ends (hb ▸ ends_of h)

theorem raises_of {i : Instr} {w : WordSpec} {s : State} {k d : Nat} {body : Wctx → State → Res}
    (h : exec i s = .next (word w s body)) (hb : body (wctx w.h s) s.advance = .raise k d) : Raises i w s k d := by
  intro hc hl
  obtain ⟨t, ht, hr⟩ := (hb ▸ ends_of h : Ends i w s (.raise k d)) hc
  rw [if_neg hl] at hr
  exact ht.trans (next_congr hr)

theorem holds_of {i : Instr} {w : WordSpec} {s : State} {k : StallKind} {body : Wctx → State → Res}
    (h : exec i s = .next (word w s body)) (hb : body (wctx w.h s) s.advance = .hold k) : Holds i w s k := by
  intro hc hl
  obtain ⟨t, ht, hr⟩ := (hb ▸ ends_of h : Ends i w s (.hold k)) hc
  rw [if_neg hl] at hr
  exact ht.trans (next_congr hr)

theorem moves_of {i : Instr} {w : WordSpec} {s e : State} {body : Wctx → State → Res} (h : exec i s = .next (word w s body))
    (hs : w.side = false) (hb : lanes w s ≠ 0#32 → body (wctx w.h s) s.advance = .ok e) : Moves i w s e := by
  intro hc hl
  rw [h, word_clear hc, if_neg hl, hb hl, settle_ok hl]
  simp only [opened, hs, Bool.false_eq_true, if_false]

theorem putsLanes_of {i : Instr} {w : WordSpec} {s : State} {d : BitVec 6} (f : Wctx → Fin 32 → Word)
    (h : exec i s = .next (word w s fun c s' => putLanes c s' d.toNat (f c))) : PutsLanes i w s d (f (wctx w.h s)) := by
  constructor
  · intro hp
    exact does_of h (by simp only [putLanes, hp, Bool.false_eq_true, if_false]; rfl)
  · intro hp
    exact raises_of h (by simp only [putLanes, hp, if_true])

theorem putsPair_of {i : Instr} {w : WordSpec} {s : State} {d : BitVec 6} (f : Wctx → Fin 32 → Dword)
    (h : exec i s = .next (word w s fun c s' => putPair c s' d.toNat (f c))) : PutsPair i w s d (f (wctx w.h s)) := by
  constructor
  · intro hp
    exact does_of h (by simp only [putPair, hp, Bool.false_eq_true, if_false]; rfl)
  · intro hp
    exact raises_of h (by simp only [putPair, hp, if_true])

/-! ### The state as it stands while the lanes advance -/

@[simp] theorem State.advance_ctxs (s : State) : s.advance.ctxs = s.ctxs := by unfold State.advance; split <;> rfl
@[simp] theorem State.advance_kernels (s : State) : s.advance.kernels = s.kernels := by unfold State.advance; split <;> rfl
@[simp] theorem State.advance_teams (s : State) : s.advance.teams = s.teams := by unfold State.advance; split <;> rfl
@[simp] theorem State.advance_mem (s : State) : s.advance.mem = s.mem := by unfold State.advance; split <;> rfl
@[simp] theorem State.advance_l2 (s : State) : s.advance.l2 = s.l2 := by unfold State.advance; split <;> rfl
@[simp] theorem State.advance_bb (s : State) : s.advance.bb = s.bb := by unfold State.advance; split <;> rfl
@[simp] theorem State.advance_clk (s : State) : s.advance.clk = s.clk := by unfold State.advance; split <;> rfl

end Sys2Proof.Machine
end

