-- ==== Sys2Proof/Tests/Slice0.lean ====
section
/-! SUPPORT. Tests: ill-formed instructions, words of the spec, one step on small states, and states that meet the hypotheses of the
statements. -/
namespace Sys2Proof.Tests
open Sys2Proof.Machine Sys2Proof.Claims

noncomputable section

set_option maxRecDepth 100000

def hd : Hdr := ⟨false, 0#2, none⟩
def withLimm : Hdr := ⟨false, 0#2, some 1#26⟩

/-! ### Well-formedness (R41): an ill-formed instruction for each check, with the code that the rule gives it -/

def refused (l : List (Instr × Nat)) : Bool := l.all fun x => !x.1.wf && leastOf x.1.violations == some x.2

theorem test_wf_func : refused [(.csrr hd 0 0 0, 2), (.csrw hd 0 0#6 0x14#6, 2), (.perf hd 0 6, 2), (.ialuBfi hd false 0 0 0 30 3, 2),
    (.ialuBfxN32 hd false 0 0 0 0, 2), (.ialuEscape64 hd false 0 0 0 5 1, 2), (.saluWid hd 0 7 false, 2),
    (.faluEscape hd false 0 0 0 0 3 false, 2), (.ffma hd false 0 0 0 0 3 false false 0 false false, 2),
    (.cvt hd false 0 0 0 0 0 false 1 0, 2), (.qnt hd false 0 0 0 0 5 0 false, 2), (.dq hd false 0 0 0 0 0 3, 2),
    (.pack hd false 0 0 2 0, 2), (.unpack hd false 0 0 4 1, 2)] = true := by decide

theorem test_wf_func_more : refused [(.red hd false 0 0 12 0 false false false 63, 2), (.topk hd 0 0 1 0 false 33 false 63, 2),
    (.hist hd 0 0 0 30 3 63 0, 2), (.walk hd 0 0 1 0 3 false 63 63, 2), (.ldfe32 hd 2 0 0 0, 2), (.st32 hd 2 0 0 0, 2),
    (.atomAdd hd false 0 0 0 1 0 2 false false false, 2), (.pref hd false 3 0 0, 2), (.acvt hd 0 0 0 5 0 0 false false, 2),
    (.gang hd 0 0 9, 2), (.tgget hd 0 0 5, 2), (.wvf hd false 0 0 false false false 6, 2), (.stw hd false 0 0 2 1 false false false 0 0, 2),
    (.ldw hd 0 0 3 0, 2), (.bar hd 0 0 true 1, 2)] = true := by decide

theorem test_wf_reserved : refused [(.faluEscape hd false 0 0 1 5 0 false, 3), (.red hd false 0 0 0 1 false false false 63, 3),
    (.rng hd 0 0 2 0 false 0, 3), (.atomAdd hd false 1 0 0 1 0 0 false false false, 3), (.atomInc hd false 0 0 1 1 0 0 false false false, 3),
    (.acvt hd 0 0 1 0 0 0 true false, 3), (.tgget hd 0 8 2, 3), (.stw hd false 0 0 0 1 false false false 1 0, 3),
    (.board hd 0 0 0 1 true, 3)] = true := by decide

theorem test_wf_register : refused [(.tlbinvPage hd 1, 9), (.time hd 1 false, 9), (.loop hd 3 1 1, 9), (.ialuLea hd false 0 1 0 0 false, 9),
    (.ialuWid hd false 1 0 true, 9), (.saluEscape64 hd 1 0 0 0 1, 9), (.vote hd false 0 0 12, 9), (.join hd 12, 9), (.trywait hd 4 0, 9),
    (.ld64 hd 1 1 0 0, 9), (.ld128 hd 1 2 0 0, 9), (.ld32 hd 0 0 0 1, 9), (.ld32 hd 3 0 1 0, 9), (.atomAdd hd false 0 0 1 1 0 0 true false false, 9),
    (.lock hd 0 1 0, 9), (.acq hd 33, 9), (.mmaBf16 hd false 0 57 0 false false, 9), (.mmaE2m1 hd false 0 0 0 1 false false, 9),
    (.barrRem hd 0 1, 9)] = true := by decide

theorem test_wf_register_more : refused [(.cvt hd false 62 0 0 5 0 false 0 0, 9), (.qnt hd false 0 60 0 0 0 0 false, 9), (.pack hd false 62 0 0 3, 9),
    (.rng hd 62 0 0 0 false 3, 9), (.stw hd false 60 0 0 1 false false false 0 4, 9), (.ldw hd 0 1 0 0, 9),
    (.acvt hd 60 0 0 0 0 15 false false, 9)] = true := by decide

/-- R36: consumers that take no prefix. -/
theorem test_wf_limm : refused [(.ialuAdd withLimm true 0 0 0, 8), (.ialuNeg withLimm false 0 0, 8), (.fneg withLimm false 0 0, 8),
    (.ialuiAdd withLimm true 0 0 0, 8), (.ialuiLi withLimm true 0 0, 8), (.nop withLimm, 8), (.waitc withLimm 0 0 0 0, 8)] = true := by decide

theorem test_wf_good : ((workedControl ++ workedArithmetic ++ workedMemory ++ workedExchange).all fun x => x.2.wf) = true := by decide

/-! ### Words: each is written out in the spec with the assembly that the tables of `Claims` hold -/

def reads (t : List (List Word × Instr)) : Bool :=
  t.all fun x => (decodeAt x.1 0).instr == some x.2 && (decodeAt x.1 0).bad == [] && encode x.2 == x.1

theorem test_decode_control : reads workedControl = true := by decide
theorem test_decode_arithmetic : reads workedArithmetic = true := by decide
theorem test_decode_memory : reads workedMemory = true := by decide
theorem test_decode_exchange : reads workedExchange = true := by decide

/-- Words of the families that those tables leave out, written out from their tables: `salu` (R132), `call` (R107), `mand` (R96), `lock`
(R177), `tgget` (R233), `send` (R300), `bcast` (R146). -/
theorem test_decode_more : reads [([0x20041083], .saluSub hd 1 2 3), ([0x0c000005], .call hd 5), ([0x40181083], .mand hd 1 2 3),
    ([0x50001083], .lock hd 1 2 3), ([0x3c8c1085], .bcast hd true 1 2 5)] = true := by decide

/-- R38: the all-zero and the all-ones words are ILLEGAL, and reserved bits and functions are refused by their codes. -/
theorem test_decode_refused : (decodeAt [0] 0).bad = [2] ∧ (decodeAt [0xffffffff] 0).bad = [1] ∧ (decodeAt [0x04000001] 0).bad = [3]
    ∧ (decodeAt [0x14000000, 0x14000000] 0).bad = [8] ∧ (decodeAt [0, 0, 0x50100000] 2).bad.contains 7 = true := by decide

theorem test_table_word : decodeTableWord 32 0x180440c2 = some (.ialuSub hd false 4 3 2) ∧ decodeTableWord 32 0 = none := by decide

/-- R31: CHAINEND, CHAINPIPE and CHAINWR. -/
theorem test_chain_rules : chainViol Group.blank (chainAt [0x84000000, 0x84000000, 0x84000000] 0) ≠ []
    ∧ chainViol Group.blank (chainAt [0x98001083, 0x18004146, 0] 0) = [5] ∧ chainViol Group.blank (chainAt [0x98001083, 0x04000000, 0] 0) = [] := by decide

/-! ### One step on small states -/

/-- A group of a one-packet program at its first word (R88). -/
def bench : State :=
  ((State.reset.loadPacket 0).onKernel 0 fun k => { k with h := { k.h with scr := 0x1000 } }).latch 0 0 1 1

/-- The same with its group changed before the chain. -/
def benchWith (f : Group → Group) : State :=
  let s := bench.onGrp 0 f
  { s with iss := { s.iss with snap := s.grp 0 } }

def g1 : Hdr := ⟨false, 1#2, none⟩

/-- What the group holds after a word. -/
def after (i : Instr) (s : State) (f : Group → Bool) : Bool := match exec i s with | .next t => f (t.grp 0) | _ => false

/-- R126, R127, by hand: 0xffffffff + 2 = 1; −2^31 / −1 = −2^31; x / 0 = all ones, x rem 0 = x; a count of 32 shifts everything out. -/
def twoRegs (x y : Word) : State := benchWith fun g => (g.putV 2 allLanes fun _ => x).putV 3 allLanes fun _ => y

theorem test_add_wraps : after (.ialuAdd hd false 1 2 3) (twoRegs 0xffffffff 2) (fun g => (g.vreg 1)[5] == 1#32) = true := by decide
theorem test_div_corner : after (.ialuDivI32 hd false 1 2 3) (twoRegs 0x80000000 0xffffffff) (fun g => (g.vreg 1)[5] == 0x80000000#32) = true := by decide
theorem test_div_zero : after (.ialuDivN32 hd false 1 2 3) (twoRegs 7 0) (fun g => (g.vreg 1)[31] == 0xffffffff#32) = true := by decide
theorem test_rem_zero : after (.ialuRemI32 hd false 1 2 3) (twoRegs 7 0) (fun g => (g.vreg 1)[31] == 7#32) = true := by decide
theorem test_sra_wide : after (.ialuSra hd false 1 2 3) (twoRegs 0x80000000 40) (fun g => (g.vreg 1)[0] == 0xffffffff#32) = true := by decide

/-- R133's example: v2 = 0x0001_0000, s3 = 0x0003_0000, v9 = 5: v7 receives 5. -/
theorem test_mad_wraps : after (.ialuMad hd true 7 2 3 9 false)
    (benchWith fun g => ((g.putV 2 allLanes fun _ => 0x10000).putV 9 allLanes fun _ => 5).setS 3 0x30000)
    (fun g => (g.vreg 7)[1] == 5#32) = true := by decide

/-- R24, R26: a word under a false guard advances its lanes and has no effect. -/
theorem test_false_guard : after (.ialuAdd g1 false 1 2 3) (twoRegs 1 2) (fun g => (g.vreg 1)[0] == 0#32 && g.lanes[0].pcv == 1#32) = true := by
  decide

/-- R45: HAZARD names the lowest pending register; R40: EXTREG before it. -/
theorem test_hazard : after (.ialuAdd hd false 1 2 3) (benchWith fun g => { g with pendV := g.pendV.set 3 (some (.ld, 0)) })
    (fun g => g.lanes[0].st == .faulted && g.lanes[0].fcs == mkFcs false cHAZARD 3) = true := by decide
theorem test_extreg : after (.ialuAdd hd false 1 40 3) bench (fun g => g.lanes[0].fcs == mkFcs false cILLEGAL 0x0a) = true := by decide

/-- R97, R100: `join` for the issuing lanes, `mpop` counts them. -/
theorem test_join : after (.join g1 2) (benchWith fun g => { g with p1 := 5#32 }) (fun g => g.mreg 2 == 5#32) = true := by decide
theorem test_mpop : after (.mpop hd 4 2) (benchWith fun g => g.setM 2 0xff) (fun g => g.sreg 4 == 8#32) = true := by decide

/-- R105: `bra` −1 from packet 3 goes to packet 2, slot 0. -/
theorem test_bra_back : after (.bra hd 0x3ffff) ((State.reset.loadPacket 0).latch 0 12 1 1)
    (fun g => g.lanes[0].pcv == 0#32) = true := by decide

/-- R116: `trap #7` faults its lanes with PROGRAM 7, and the group, which has no handler, parks (R420). -/
theorem test_trap : after (.trap hd 7) bench (fun g => g.lanes[3].fcs == mkFcs false cPROGRAM 7 && g.status == .parked false) = true := by
  decide

/-- R420, R424: with a handler at packet 9 whose mask takes PROGRAM, the trap enters it. -/
theorem test_trap_handler : after (.trap hd 7) (benchWith fun g => { g with htv := 0x25, hcm := 0x2bf2f })
    (fun g => g.status == .handler && g.hpc == mkPc 9 0 && g.lanes[3].st == .faulted) = true := by decide

/-- R117: `eret` returns to running with the exited lanes as they were. -/
theorem test_eret : after (.eret hd) (benchWith fun g => { g with status := .handler }) (fun g => g.status == .running && g.gfc == 0) = true := by
  decide
theorem test_eret_outside : after (.eret hd) bench (fun g => g.lanes[0].fcs == mkFcs false cILLEGAL 0x0d) = true := by decide

/-- R163, R161: a store of one lane to the scratchpad writes its bytes, low byte first. -/
theorem test_store_sp : (match exec (.st32 g1 1 2 1 0) (benchWith fun g => { (g.putV 2 allLanes fun _ => 0x04030201) with p1 := 1#32 }) with
    | .next t => t.mem == bench.mem && (t.teams.map fun x => x.sp) == [[(0, 1), (1, 2), (2, 3), (3, 4)]] | _ => false) = true := by decide

/-- R417, R153: an address past the scratchpad is a deferred PROT 3. -/
theorem test_store_sp_bound : after (.st32 g1 1 2 1 0)
    (benchWith fun g => { (g.putV 1 allLanes fun _ => 0x10000000) with p1 := 1#32 }) (fun g => g.lanes[0].st == .faulted) = true := by decide

/-- R85, log entry 3: a word placed where the next step fetches is fetched, decoded and run: `li v26, 0x11`. -/
theorem test_fetch : (match step (State.reset.withFetchWord 32 0x1c71a011) with
    | .next t => ((t.grp 0).vreg 26)[9] == 0x11#32 && (t.grp 0).lanes[9].pcv == 1#32 | _ => false) = true := by decide

/-- R38: the all-zero word is ILLEGAL FUNC, a trap and not the end of the run. -/
theorem test_fetch_zero : (match step (State.reset.withFetchWord 32 0) with
    | .next t => (t.grp 0).lanes[0].fcs == mkFcs false cILLEGAL 2 | _ => false) = true := by decide

/-- R477: measured power above the cap raises the throttle by one, to 12 at most. -/
theorem test_throttle : throttleNext 3300 3200 0 = 1 ∧ throttleNext 3300 3200 12 = 12 ∧ throttleNext 3050 3200 3 = 2 ∧ throttleNext 3150 3200 3 = 3 := by
  decide

/-! ### States that meet the hypotheses of the statements -/

/-- A word is let through and lanes issue for it. -/
def met (s : State) (w : WordSpec) : Bool := (stopped w (wctx w.h s)).isNone && lanes w s != 0#32

/-- A word is let through and no lane issues for it. -/
def metNone (s : State) (w : WordSpec) : Bool := (stopped w (wctx w.h s)).isNone && lanes w s == 0#32

/-- An outstanding operation of every lane. -/
def opOf (id : Nat) (cls : Cls) (k : OpKind) : Op :=
  { id := id, cls := cls, pc := 0, lanes := allLanes, todo := allLanes, hm := false, rgn0 := 0, done := false,
    got := Vector.replicate 32 none, late := [], kind := k }
def postedLd : Op := opOf 0 .ld .posted

/-- A bench whose v1 and v31 hold coefficients, with the lanes 0 to 7 in p1. -/
def haarBench : State := benchWith fun g =>
  { g with tags := (g.tags.set 1 ⟨0x20, 0xffffffff⟩).set 31 ⟨0x20, 0xffffffff⟩, p1 := 0xff#32 }

theorem met_lane_words : ([specV2 hd false 1 2 3, specV1 hd false 1 2, specV0 hd 1, specMad hd false 1 2 3 4 false, specLea hd false 2 4 6,
    specWid hd 2 true, specEsc hd false 2 4 6 0, specF2 hd 1 2 3, specF1 hd 1 2, specFEsc hd 1 2 3 3 false, specFma hd 1 2 3 4 false false,
    specCmp hd false 1 2 3, specCvt hd 1 2 0 0, specQnt hd 20 8 21 0 0, specDq hd 20 8 21 0 0, specPack hd 1 2 0, specUnpack hd 1 2 0,
    specVote hd false 20, specShfl hd false 1 2, specPush hd 1 2 3, specBcast hd true 1 2, specElect hd 1 2, specRed hd false false 1 2 1,
    specTopk hd 1 2 1 false 3, specHist hd 1 2 3, specRng hd 1 2 4 6 false 0].all (met bench)) = true := by decide

theorem met_scalar_words : ([specS2 hd 1 2 3, specS1 hd 1 2, specS0 hd 1, specSMad hd 1 2 3 4, specSLea hd 2 4 6, specSWid hd 2 true,
    specSEsc hd 2 4 6 0, specMask hd [1] [2] [3] [1] true, specCtl hd true, specPref hd false 1 2, specRegion hd, specBrx hd 1, specCall hd [1],
    specLoop hd 0 [1], specCsrr hd 1 2 3, specCsrw hd 1 0 24, specPair hd 2, specTlbinv hd [2, 3]].all (met bench)) = true := by decide

theorem met_memory_words : ([specLd hd 4 0 2 3 4, specSt hd 16 0 4 3 4, specAtom hd 1 2 4 0 6 true true false true true false 8, specOrdend hd,
    specLock hd 1 2 4, specUnlock hd 2 4, specBare hd .m, specBar hd 1 2 false, specBarr hd 1 2 true, specBarw hd 1 2 true,
    specBart hd 1 2 true, specPhaseRd hd 1 2 true, specPhaseInit hd 1 2 true, specBarrRem hd 2, specGbar hd 5, specGang hd 1, specBand hd [1],
    specAcvt hd 24 0 3 true, specTgset hd 1 2 3, specTgget hd 1 2 0, specWv hd 1 2, specStw hd 1 2 0 3, specLdw hd 1 2 0 3].all (met bench))
    = true := by decide

theorem met_channel_words : ([specBoard hd 10 4 5 6 false, specAsk hd 1 2, specLapr hd 2 0, specSend hd 4, specRecv hd 4, specJob hd 1 2,
    specPg hd 1 4, specJstat hd 1 2 0, specCatld hd 2 4, specCatst hd 2 4, specSeqld hd 1 2, specSeqst hd 1 2, specAdmit hd 1 2,
    specRetire hd 1 2, specPairSt hd 2 4, specTokput hd 1 2 3, specAccept hd 1 2 4, specDraft hd 1 2 4, specStopck hd 1 2 3].all (met bench))
    = true := by decide

/-- WordsForNoLane: `add @p1` with p1 all false. The other arm of `Does`, and the checks' own arms: an extended register that the group
does not hold, a word that handler mode does not allow, a pending register, a full counter. -/
theorem met_no_lane : metNone bench (specV2 g1 false 1 2 3) = true ∧ specOf (.ialuAdd g1 false 1 2 3) = some (specV2 g1 false 1 2 3)
    ∧ isLoop (.ialuAdd g1 false 1 2 3) = false ∧ ownRule (.ialuAdd g1 false 1 2 3) bench = none
    ∧ metNone bench (specLoop g1 0 []) = true ∧ ownRule (.loop g1 0 3 8) (benchWith fun g => { g with p1 := 0 }) = none := by decide
/-- Unlawful: a rule of a word's own broken, also where no lane issues. -/
theorem met_own_rule : (let s := benchWith fun g => { g with wth := g.wth.set 1 0xc0000000 }
      ownRule (.wthr g1 1 2 1) s = some 0x02 ∧ ownRule (.stw g1 false 1 2 1 0 false false true 1 0) s = some 0x02
      ∧ ownRule (.stw g1 false 1 2 1 0 false false false 1 0) s = none ∧ ownRule (.wthr g1 1 2 2) s = none ∧ (wctx g1 s).lanes = 0#32)
    ∧ ownRule (.eret hd) bench = some 0x0d ∧ ownRule (.csrw g1 1 0 0x10) bench = some 0x0d ∧ ownRule (.csrw hd 1 0 0x17) bench = none
    ∧ ownRule (.acq hd 32) bench = some 0x09 ∧ ownRule (.loop hd 0 86 1) bench = some 0x0c ∧ ownRule (.loop hd 0 0 1) bench = some 0x0c
    ∧ (wctx g1 bench).lanes = 0#32 ∧ (wctx hd bench).lanes ≠ 0#32 := by decide
/-- ChecksBeforeWords: a side-effecting word behind an ordered atomic that waits. -/
theorem met_side : sideHeld (benchWith fun g => { g with ops := [opOf 0 .st (.atom .add 4 .sp false true false 0 (Vector.replicate 32 0)
    (Vector.replicate 32 1) (Vector.replicate 32 0))] }).iss.snap false = true ∧ (specRegion hd).side = true := by decide
theorem met_own_order : let s := bench.onGrp 0 fun g => { g with ops := [opOf 0 .st (.atom .add 4 .sp false true false 0 (Vector.replicate 32 0)
    (Vector.replicate 32 1) (Vector.replicate 32 0))] }
    sideHeld (wctx hd s).snap false = false ∧ (wctx hd s).ownOrd = true ∧ (∃ o ∈ (wctx hd s).now.ops, o.kind.ordered = true ∧ o.todo ≠ 0#32
      ∧ (wctx hd s).snap.nextOp ≤ o.id) := by decide
theorem met_checks : bench.iss.snap.holds 40 = false ∧ (wctx hd (benchWith fun g => { g with status := .handler })).hm = true
    ∧ leastOf (pendingOf (specV2 hd false 1 2 3) (benchWith fun g => { g with pendV := g.pendV.set 3 (some (.ld, 0)) }).iss.snap) = some 3
    ∧ 63 ≤ (benchWith fun g => { g with ops := List.replicate 63 postedLd }).iss.snap.cnt .ld := by decide

/-- R124: a part of a Haar register; and where all lanes issue, or the register is spatial, none. -/
theorem met_partial : partialHaar (wctx g1 haarBench) [1] = true ∧ partialHaar (wctx g1 haarBench) [31] = true
    ∧ partialHaar (wctx hd haarBench) [1] = false ∧ partialHaar (wctx g1 haarBench) [2] = false
    ∧ met haarBench (specV2 g1 false 1 2 3) = true ∧ met haarBench (specCall g1 []) = true := by decide

/-- FaluCoefficients: like tags, unlike tags, an immediate; FloatSpatial: spatial sources. -/
theorem met_coefficients : (wctx hd haarBench).lanes = allLanes ∧ ((wctx hd haarBench).snap.tag 1).haar = true
    ∧ likeTagged ((wctx hd haarBench).snap.tag 1) ((wctx hd haarBench).snap.tag 31) = true
    ∧ likeTagged ((wctx hd haarBench).snap.tag 1) ⟨0x40, 0xffffffff⟩ = false ∧ (⟨0x40, 0xffffffff⟩ : Tag).haar = true
    ∧ met haarBench (specF2 withLimm 1 1 0) = true ∧ ((wctx hd haarBench).snap.tag 2).haar = false := by decide
theorem met_lanewise : lanewise (wctx hd haarBench) .max false 1 31 ∧ lanewise (wctx g1 haarBench) .add false 1 31
    ∧ lanewise (wctx hd haarBench) .mul false 1 31 ∧ lanewise (wctx hd haarBench) .add false 2 3 ∧ ¬lanewise (wctx hd haarBench) .add false 1 31 := by
  have lanes : (wctx g1 haarBench).lanes ≠ allLanes ∧ (wctx hd haarBench).lanes = allLanes := by decide
  have tags : ((wctx hd haarBench).snap.tag 1).haar = true ∧ ((wctx hd haarBench).snap.tag 2).haar = false
      ∧ ((wctx hd haarBench).snap.tag 3).haar = false := by decide
  simp [lanewise, lanes, tags]
/-- The other linear forms: a Haar and a spatial register with auto-forward off and on; a fused product of coefficients. -/
theorem met_forward : ((wctx hd haarBench).snap.wctl.getLsbD 0) = false
    ∧ (let s := benchWith fun g => { g with tags := g.tags.set 1 ⟨0x20, 0xffffffff⟩, wctl := 1 }
      (wctx hd s).snap.wctl.getLsbD 0 = true ∧ ((wctx hd s).snap.tag 1).haar = true ∧ ((wctx hd s).snap.tag 2).haar = false
        ∧ likeTagged ((wctx hd s).snap.tag 1) ((wctx hd s).snap.tag 2) = false ∧ (wctx hd s).lanes = allLanes)
    ∧ met haarBench (specFma hd 1 1 2 31 true false) = true ∧ met haarBench (specFma hd 1 1 2 3 true true) = true
    ∧ met haarBench (specFEsc hd 1 1 31 0 false) = true := by decide

/-- ControlRegisters: `cvc` read while an `acvt` is outstanding. -/
theorem met_counting : (wctx hd (benchWith fun g => { g with ops := [opOf 0 .tl (.tile 0 (.acvt 24 1 0 0 false false 0 true 0))] })).snap.countsDue = true := by decide

/-- ControlWords: `sleep 0` with nothing outstanding, a sleep that lasts. Branches: `brx` inside the segment and at its end. Loops: the
longest body, one past it, a body of no packet, a level opened twice. -/
theorem met_sleep : (bench.advance.grp bench.iss.gi).ops = [] ∧ (wctx hd bench).hm = false ∧ met bench (specRegion hd) = true := by decide
theorem met_brx : bench.segment (wctx hd bench).snap = 1 ∧ met (twoRegs 1 0) (specBrx hd 2) = true
    ∧ (srcA (wctx hd (twoRegs 1 0)) 2 0).toNat = 1 ∧ (srcA (wctx hd bench) 2 0).toNat = 0 := by decide
theorem met_loop : loopBad bench.iss.snap 0 85 85 = false ∧ loopBad bench.iss.snap 0 86 86 = true ∧ loopBad bench.iss.snap 0 0 0 = true
    ∧ loopBad (benchWith fun g => { g with levels := [⟨0, 1, 9, allLanes⟩] }).iss.snap 0 1 1 = true
    ∧ (wctx hd (benchWith fun g => { g with levels := [⟨0, 1, 9, allLanes⟩] })).snap.levels.findIdx? (fun v => v.lc = 0) = some 0 := by decide

/-- TrapAndReturn: lanes that are neither exited nor faulted; `eret` in handler mode. -/
def inHandler : State := benchWith fun g => { g with status := .handler }
theorem met_trap : (bench.advance.grp 0).inState .exited &&& lanes (specCtl hd false) bench = 0#32
    ∧ (bench.advance.grp 0).inState .faulted &&& lanes (specCtl hd false) bench = 0#32 ∧ met bench (specCtl hd false) = true
    ∧ met inHandler (specCtl hd false) = true ∧ (wctx hd inHandler).hm = true := by decide
theorem met_trap_handler : (inHandler.grp 0).status = .handler ∧ (inHandler.grp 0).fellAt = none ∧ inHandler.iss.left = 1 ∧ inHandler.iss.fell = none
    ∧ inHandler.iss.gi < inHandler.groups.length ∧ lanes (specCtl hd false) inHandler ≠ 0#32 ∧ bench.ctxOf (bench.grp 0) < bench.ctxs.length := by
  decide
/-- Branches: a call in part of a Haar `v31`, a target outside the segment in handler mode. -/
theorem met_branches : met haarBench (specCall g1 [2]) = true ∧ partialHaar (wctx g1 haarBench) [31] = true
    ∧ met inHandler (specBrx hd 2) = true
    ∧ (let s := benchWith fun g => { (g.putV 2 (lane1 0) fun _ => 9) with status := .handler }
      decide (s.segment (wctx hd s).snap ≤ (srcA (wctx hd s) 2 0).toNat) && !decide (s.segment (wctx hd s).snap ≤ (srcA (wctx hd s) 2 1).toNat)) = true := by
  decide
/-- ControlWords: a lane that another word of the chain has faulted, one that it has returned to its PC. -/
theorem met_region : newFaults 0 bench (bench.onGrp 0 fun g => g.onLanes (lane1 4) fun _ x => { x with st := .faulted }) = lane1 4
    ∧ newFaults 0 bench bench.advance = 0#32 ∧ bench.iss.back = 0#32 := by decide

/-- ControlRegisters: 0x00f, 0x010, 0x013 and 0x014 stand on either side of the registers that only handler mode writes. -/
theorem met_csr_tables : ([0x010, 0x011, 0x012, 0x017, 0x032, 0x033, 0x034, 0x035].all fun n => laneRegs.any (fun x => x.1 == n) && laneWrites.any (fun x => x.1 == n)) = true
    ∧ ((groupRegs bench.advance bench.iss.snap).any (fun x => x.1 == 0x061)) = true ∧ (groupWrites.any fun x => x.1 == 0x077) = true
    ∧ extBad (specCsrw hd 40 0 0x10) bench.iss.snap = true ∧ extBad (specCsrw hd 1 0 0x10) bench.iss.snap = false := by decide
theorem met_csr : csrNum 0 0x10 = 0x010 ∧ csrNum 0 0x13 = 0x013 ∧ csrNum 1 1 = 0x041 ∧ laneCsr 0x010 = true ∧ laneCsr 0x018 = false
    ∧ met inHandler (specCsrw hd 1 0 0x10) = true ∧ met bench (specCsrr hd 1 1 1) = true := by decide

/-- MemoryWords: a group of a deterministic kernel that has its token-done mark. -/
def detBench : State :=
  let s := benchWith fun g => { g with tokenDone := true }
  s.onKernel 0 fun k => { k with h := { k.h with det := true } }
theorem met_token : (detBench.det (wctx hd detBench).snap && (wctx hd detBench).snap.tokenDone) = true
    ∧ met detBench (specAtom hd 1 2 4 0 6 false true false true false false 0) = true ∧ bench.det (wctx hd bench).snap = false := by decide

/-- PhysicalBytes, GlobalStore, LoadFrame: at reset there are no lines and no ranges of a decoder table. -/
theorem reset_soundLines : SoundLines State.reset :=
  ⟨List.nodup_nil, fun _ _ h => State.place_inj (by decide) h, fun x hx => absurd (show x ∈ ([] : List L2Line) from hx) (by simp)⟩

/-- GlobalStore: lane 3 stores to an address that is mapped with W, and its data arrive. -/
def oneLane : State := benchWith fun g => { (g.putV 3 allLanes fun _ => 0x120) with p1 := 8#32 }
theorem met_global_store : (met oneLane (specSt g1 4 0 1 3 4) && (wctx g1 oneLane).lanes == lane1 3
    && (oneLane.grp 0 == oneLane.iss.snap) && oneLane.l2 == []) = true := by decide
theorem met_global_place : (match oneLane.locate (oneLane.whoOf (oneLane.grp 0)) { space := .gl, bytes := 4, acc := .w } 0x120#64 with
    | (_, .ok (.gl q y)) => q == 0x40120 && (oneLane.lateFault (oneLane.whoOf (oneLane.grp 0)) (.gl q y) 4).isNone
    | _ => false) = true := by decide
theorem met_addr : (addrOf (wctx g1 oneLane) g1 0 3 4)[3] = 0x120#64 := by decide

/-- MemoryAccesses: lane 3 alone, at scratchpad offset 0x40 and in global memory; a full and an empty granule; an ordered atomic of the
group that holds the token. -/
def spLane : State := benchWith fun g => { (g.putV 2 allLanes fun _ => 0x40) with p1 := 8#32 }
theorem met_access : (wctx g1 spLane).lanes = lane1 3 ∧ (spLane.grp 0 == spLane.iss.snap) = true ∧ spLane.iss.snap.ops = []
    ∧ spLane.iss.gi < spLane.groups.length ∧ spLane.iss.snap.team < spLane.teams.length ∧ spLane.l2 = []
    ∧ met spLane (specLd g1 16 1 4 2 1) = true ∧ partialHaar (wctx g1 spLane) (dataRun 16 4) = false
    ∧ met spLane (specSt g1 16 1 4 2 1) = true ∧ met spLane (specAtom g1 1 2 4 1 1 true true false true true false 8) = true := by decide
theorem met_access_place : ([Acc.r, .w, .a].all fun k =>
    match spLane.locate (spLane.whoOf spLane.iss.snap) { space := .sp, bytes := 16, acc := k } (addrOf (wctx g1 spLane) g1 1 2 1)[3] with
    | (s1, .ok loc) => loc == .sp 0 0x40 && (spLane.lateFault (spLane.whoOf spLane.iss.snap) loc 16).isNone && spLane.feAt loc
        && !(s1.setFe loc false).feAt loc
    | _ => false) = true := by decide
theorem met_access_ord : let s := spLane.onKernel 0 fun k => { k with h := { k.h with det := true } }
    s.det s.iss.snap = true ∧ s.iss.snap.tokenDone = false ∧ s.iss.snap.owed = 0#32 ∧ s.holdsToken s.iss.snap = true
    ∧ s.onCore s.iss.gi = true ∧ partialHaar (wctx g1 s) (atomRun true true 6) = false := by decide

/-- ScratchpadStoreFrame, LoadFrame: the words complete. -/
theorem met_store_next : (match exec (.st32 g1 1 2 1 0) oneLane with | .next _ => true | _ => false) = true := by decide
theorem met_ids : (∀ o ∈ (oneLane.grp oneLane.iss.gi).ops, o.id < (oneLane.grp oneLane.iss.gi).nextOp)
    ∧ (let s := benchWith fun g => { g with ops := [postedLd], nextOp := 1 }
      ∀ o ∈ (s.grp s.iss.gi).ops, o.id < (s.grp s.iss.gi).nextOp) := by decide
theorem met_load_next : (match exec (.ld32 g1 0 2 3 4) oneLane with | .next _ => true | _ => false) = true := by decide

/-- LoadArrives: a load whose only lane has its data. -/
def arriving : Op :=
  { opOf 0 .ld (.load 4 false .gl 2 false false (Vector.replicate 32 0)) with todo := 0, got := (Vector.replicate 32 none).set 3 (some 7#128) }
theorem met_arrives : ((benchWith fun g => { g with ops := [arriving] }).grp 0).op? 0 = some arriving := by decide
/-- By hand (R162): the bytes 0x85 extended with zeros and with their sign; the last word of 128 bits. -/
def landed (o : Op) (r : Nat) : Word := ((bench.grp 0).land o).rows r |>.get 3
theorem met_arrives_forms : (let o := fun (n : Nat) (sg : Bool) (v : BitVec 128) =>
      ({ arriving with kind := .load n sg .gl 4 false false (Vector.replicate 32 0), got := (Vector.replicate 32 none).set 3 (some v) } : Op)
    landed (o 1 false 0x85) 4 == 0x85#32 && landed (o 1 true 0x85) 4 == 0xffffff85#32 && landed (o 2 true 0x8001) 4 == 0xffff8001#32
      && landed (o 16 false 0x44444444333333332222222211111111) 7 == 0x44444444#32
      && landed (o 8 false 0x2222222211111111) 5 == 0x22222222#32) = true := by decide

/-- MemoryControlWords: a fence, a `waitc` and a `tlbinv` that are held and ones whose event has come; blocks; an address that is not
canonical. -/
def readyBench (k : StallKind) : State := benchWith fun g => { g with stall := some ⟨k, 0, 0, [k.tag], none, 0⟩ }
def blocks (held : BitVec 4) : State :=
  let s := benchWith fun g => { g with held := held }
  s.onKernel 0 fun k => { k with h := { k.h with xreg := 2 } }
theorem met_ready : ([StallKind.fenceSys 0, .fenceWin 0, .tlbinv 0, .board].all fun k =>
    (wctx hd (readyBench k)).ready k && !(wctx hd bench).ready k) = true := by decide
theorem met_within : bench.iss.snap.within 0 0 0 0 = true
    ∧ (benchWith fun g => { g with ops := [postedLd] }).iss.snap.within 0 63 63 63 = false := by decide
theorem met_blocks : blockOf 32 = 0 ∧ blockOf 47 = 1 ∧ blockOf 48 = 2 ∧ ((blocks 1).kernels.map fun k => k.h.xreg) = [2]
    ∧ (blocks 1).iss.snap.held.getLsbD 0 = true ∧ (blocks 1).iss.snap.held.getLsbD 1 = false
    ∧ (∀ i, i < 8 → (blocks 1).iss.snap.pendV.getD (32 + 8 * 0 + i) none = none)
    ∧ (wctx hd (readyBench (.acq 1))).ready (.acq 0) = true ∧ (wctx hd (blocks 1)).ready (.acq 0) = false := by decide
theorem met_canonical : canonical 0x7fffffffffffff = true ∧ canonical 0x80000000000000 = false
    ∧ (bench.iss.snap.spair 2).toNat = 0 ∧ ((benchWith fun g => g.setS 3 0x01000000).iss.snap.spair 2).toNat = 2 ^ 56 := by decide

/-- BarrierWords: a cell at offset 16 of the scratchpad; its phase passed and not; `gbar` of the last group of its grid, and of one of
two; an entry that allows a `barr.rem`. -/
def cellBench : State := (benchWith fun g => (g.setS 2 16).setS 5 1).onTeam 0 fun t =>
  { t with caps := t.caps.set 4 0x00000000000000000001000000000208#128 }
theorem met_cell : (blockedAccess (wctx hd cellBench) == false &&
    [Acc.a, .r].all fun k => match cellBench.advance.cellLoc (cellBench.advance.whoOf (wctx hd cellBench).snap) true
        (cellAddr (wctx hd cellBench).snap 2 true) k with
      | (s, .ok loc) => phasePassed (cellPh (ofBytes (s.readLoc loc 16).2)) 0xffffffff
          && !phasePassed (cellPh (ofBytes (s.readLoc loc 16).2)) 0
      | _ => false) = true := by decide
theorem met_barr_rem : capFault (cellBench.advance.cap (wctx hd cellBench).snap 4) [kLINK] permS = none
    ∧ capFault (cellBench.advance.cap (wctx hd cellBench).snap 5) [kLINK] permS = some 1 := by decide
theorem met_gbar :
    let v := fun (n : Nat) (s : State) => ((s.onKernel 0 fun k => { k with arrived := addOnce k.arrived 0, h := { k.h with nteam := n } }).gridCheck 0)
    (v 1 bench.advance).generation 0 = 1 ∧ (v 2 bench.advance).generation 0 = 0 ∧ bench.advance.generation 0 = 0
    ∧ blockedAccess (wctx hd bench) = false ∧ phasePassed 0 0xffffffff = true ∧ phasePassed 0 0 = false := by decide

/-- An `mma` that waits. -/
def keptRow : ALatch := latchOf (bench.grp 0) .e4m3 4 8 0
def mmaOp : MmaOp :=
  { fmt := .e4m3, acc := 1, reuse := false, bsp := false, clr := false, sa := 8, sel := 0, a := 4, breg := 2, boff := 0, hc := false, hg := 0,
    latch := keptRow, prev := none }

/-- GangWords: a group of four that may form a gang with its neighbour; a gang that has formed; requests that are not valid. -/
def gangKernel (s : State) : State := s.onKernel 0 fun k => { k with h := { k.h with w1 := 2, gangs := 2, bands := 16, scr := 0x8000 } }
def gangBench : State := gangKernel (benchWith fun g => (g.setS 1 3).setS 2 1)
def formedBench : State := gangBench.onTeam 0 fun t =>
  { t with gangs := [⟨1, 3, 2, true, [], 0⟩], bands := [Band.fresh 1 0 0, Band.fresh 1 0 1, Band.fresh 1 1 0, Band.fresh 1 1 1] }
theorem met_gang : let g := gangBench.iss.snap; let lim := gangBench.gangLimits g; let t := gangBench.teamOf g
    g.mmaWaits = false ∧ gangBad lim t g.idx 1 3 = false ∧ gangBad lim t g.idx 2 3 = true ∧ gangBad lim t g.idx 1 1 = true
    ∧ gangBad lim t g.idx 1 0x7f = true ∧ gangBad lim t g.idx 1 6 = true ∧ t.gangs = [] ∧ t.reqs = [] ∧ 8 * popN 16 3 ≤ lim.2.1 := by decide
theorem met_formed : ((formedBench.teamOf formedBench.iss.snap).gangOf formedBench.iss.snap.idx).map (fun y => (y.k, y.nacc)) = some (1, 2)
    ∧ 0 + imageBytes ≤ formedBench.advance.spSize 0 ∧ formedBench.advance.spPoisoned 0 0 imageBytes = false
    ∧ formedBench.iss.snap.bandFree 1 formedBench.iss.snap.nextOp = true
    ∧ ((formedBench.teamOf formedBench.iss.snap).band? 1 1 (memberIx 3 0)).isSome = true := by decide
/-- A request for more bands than 128, one behind an `mma` that waits, one whose gang's number stands. -/
theorem met_gang_holds : let lim := gangBench.gangLimits gangBench.iss.snap
    128 < 63 * popN 16 0x7 ∧ gangBad (lim.1, lim.2.1, 4) (gangBench.teamOf gangBench.iss.snap) 0 1 7 = false
    ∧ (let s := gangBench.onTeam 0 fun t => { t with gangs := [⟨1, 0xc, 2, true, [], 0⟩] }
      gangBad lim (s.teamOf s.iss.snap) 0 1 3 = false ∧ (∃ x ∈ (s.teamOf s.iss.snap).gangs, x.k = 1)) := by decide
/-- The last member of a rendezvous: the other's request stands. -/
theorem met_gang_last : let s := (gangBench.onTeam 0 fun t => { t with reqs := [⟨1, 1, 1, 3, 2, allLanes, 0⟩] })
    let s := { s with groups := s.groups ++ [{ s.grp 0 with idx := 1, stall := some ⟨.gang 1 3 2, 0, 0, [], none, 0⟩ }] }
    let t := s.advance.teamOf s.iss.snap
    (t.reqs.all fun r => s.advance.reqStands r && r.gi != (wctx hd s).gi && r.k == 1 && Nat.testBit 3 r.idx && r.mask == 3 && r.nacc == 2) = true
    ∧ t.reqs.length + 1 = popN 16 3 ∧ gangBad (s.advance.gangLimits s.iss.snap) t 0 1 3 = false ∧ t.gangs = [] := by decide
theorem met_gang_side : (benchWith fun g => { g with ops := [opOf 0 .tl (.mma mmaOp 0)] }).iss.snap.mmaWaits = true := by decide
theorem met_desc : descReserved 0x20 = false ∧ descReserved 0xc0 = true := by decide

/-- MmaWords, at the first word of `mma.e4m3 acc1`. -/
theorem met_mma : let g := (wctx hd formedBench).snap
    extBad (mmaSpec hd .e4m3 4 2 8) g = false ∧ (wctx hd formedBench).lanes ≠ 0#32 ∧ g.keptA = none
    ∧ leastOf (pendingOf (mmaSpec hd .e4m3 4 2 8) g) = none ∧ runTagsOk g .e4m3 4 = true ∧ g.cnt .tl < 63 ∧ sideHeld g true = false
    ∧ g.ops = [] ∧ (wctx hd formedBench).now.cnt .tl < 63 ∧ g.loading 1 = false
    ∧ (g.domAt (formedBench.teamOf g) 1 1 (memberIx 3 0)).2 = true := by decide
theorem met_mma_kept : keptRow.fmt = .e4m3 ∧ keptRow.a = 4 ∧ keptRow.sa = 8 ∧ keptRow.sel = 0
    ∧ leastOf (pendingOf { mmaSpec hd .e4m3 4 2 8 with vr := [] } (benchWith fun g => { g with pendV := g.pendV.set 4 (some (.ld, 0)) }).iss.snap)
      = none := by decide

/-- CoefficientWords: a segment with room in the scratchpad, and one that `ldw` can read. -/
def segBytes : List Byte := (List.range 16).flatMap fun _ => slotImage 0x20 1 1 none false [[5], [7]]
def segBench : State := bench.onTeam 0 fun t => { t with sp := Memory.writeN [] 0 segBytes }
def waveSp (f : Who → State → Bool) (s : State) : Bool := f (s.advance.whoOf (wctx hd s).snap) s.advance
theorem met_segment_header : fld (slotHeader segBytes).1 31 24 = 0x20 ∧ slotBytes 1 1 = 16 ∧ descReserved 0x20 = false
    ∧ (∀ i, i < 16 → slotFault 1 1 0x20 (slotHeader ((segBytes.drop (i * 16)).take 16)) = none) := by decide
theorem met_stw : (wctx hd bench).groupBlocked = false ∧ waveSp (fun u s =>
    match s.scanExtent u (slotBase (wctx hd bench) 1 2).1 .w 0 16 (List.range 16) with | (_, o) => o.isNone) bench
    = true ∧ (slotBase (wctx hd bench) 1 2).2 = 0 := by decide
theorem met_ldw : waveSp (fun u s =>
    match s.scanExtent u (slotBase (wctx hd segBench) 1 2).1 .r 0 1 [0] with
    | (_, some _) => false
    | (s1, none) => (match s1.readVa u .sp 0 16 .r with
      | (s2, .ok bs) => bs == segBytes.take 16 && (match s2.scanExtent u .sp .r 0 16 (List.range 16) with
        | (s3, none) => (readSlots s3 u .sp 0 16 (fun _ => 16) 16).2.flatten == segBytes
            && ((readSlots s3 u .sp 0 16 (fun _ => 16) 16).1.lateScan u .sp .r 0 (List.range 16)).2.isNone
        | _ => false)
      | _ => false)) segBench = true := by decide
theorem met_wthr : modeBad 0xc0000000 = true ∧ modeBad 0x80000000 = false ∧ descM 0x20 ≠ mSTR ∧ descM 0x29 = mSTR
    ∧ ((haarBench.iss.snap).tag 1).haar = true := by decide

/-- RingWords: a program of one layer on track 0 whose tiles 0 to 3 may be boarded, a boarding in progress, one that has ended, and
handles that name none. -/
def boarding (st : BSt) : Boarding :=
  { cluster := 0, ent := 0, gen := 1, st := st, ctx := 0, gi := 0, op := 0, prog := 0, layer := 0, tracks := [0], first := 0, count := 1, off := 0,
    tile := 512, missed := false, lap := 0, asked := 0, missAt := 0, ports := false, written := [], bad := [], hurt := [], readable := false }
def ringBench (bs : List Boarding) : State :=
  let s := readyBench .board
  { s with ring := { s.ring with progs := [⟨0, 1, 0, [⟨1, 4, 0, 0, 0, []⟩], 0, 0⟩], boards := bs } }
theorem met_board : let s := (ringBench []).advance
    let p := s.ring.nextProg 0
    (boardStatus p 0 0 4 1 false).1 = 0 ∧ (boardStatus p 0 0 5 1 false).1 = 3 ∧ (boardStatus p 1 0 1 1 false).1 = 2
    ∧ (boardStatus p 0 0 1 2 false).1 = 4 ∧ (boardStatus none 0 0 1 1 true).1 = 1 ∧ s.ring.freeEntry 0 = some 0
    ∧ s.ring.freeRun 0 (4 * tileBytes 0) = some 0 ∧ (wctx hd (ringBench [])).ready .board = true := by decide
theorem met_handle : ([(BSt.filling, 1, some true), (.done, 1, some false), (.free, 1, none), (.done, 2, none), (.done, 0x21, none)].all fun x =>
    match (ringBench [boarding x.1]).advance.handle 0 (BitVec.ofNat 32 x.2.1) with
    | .ok b => some b.open_ == x.2.2
    | .error e => x.2.2 == none && e == (if x.2.1 = 0x21 then 5 else 3)) = true := by decide

theorem met_board_holds : let s := { ringBench [] with ring := { (ringBench []).ring with stalled := [(0, 7), (0, 0)] } }
    (s.advance.boardQueue 0).all (fun x => x = 0) = true ∧ (ringBench []).ring.freeRun 0 (4096 * 32 * tileBytes 0) = none
    ∧ (wctx hd bench).ready .board = false ∧ 63 ≤ (benchWith fun g => { g with ops := List.replicate 63 (opOf 0 .cp .posted) }).iss.snap.cnt .cp
    ∧ (match (ringBench [boarding .cancelled]).advance.handle 0 1 with | .ok b => !b.open_ && b.st == .cancelled | _ => false) = true
    ∧ (match (ringBench [boarding .poisoned]).advance.handle 0 1 with | .ok b => !b.open_ && b.st == .poisoned | _ => false) = true := by decide

/-- ChannelWords: entries of the table: 4 a queue, 5 a mailbox of four slots at 0x8000, 6 a link, 7 a copy engine, 8 a page pool, 9 one that
has no permission left; messages that the mailbox takes; a card in the scratchpad; a job slot. -/
def entry (kind perm idx : Nat) (addr : Dword) (dep : Nat) : BitVec 128 :=
  BitVec.ofNat 128 (kind + dep * 2 ^ 16 + 2 ^ perm + idx * 2 ^ 32 + 0xffff * 2 ^ 48 + addr.toNat * 2 ^ 64)
def capBench : State :=
  let s := gangKernel (benchWith fun g => g)
  s.onTeam 0 fun t => { t with caps := ((((t.caps.set 4 (entry kQUEUE permS 1 0 0)).set 5 (entry kMBOX permS 0 0x8000 0)).set 6
    (entry kLINK permS 0 0 0)).set 7 (entry kCOPY permJ 0 0 0)).set 8 (entry kPOOL permP 2 0 0) }
theorem met_caps : let e := fun n => capBench.advance.cap (wctx hd capBench).snap n
    ([(4, [kQUEUE], permS), (5, [kMBOX], permS), (6, [kLINK], permS), (7, [kCOPY, kGATHER], permJ), (8, [kPOOL], permP)].all fun x =>
      (capFault (e x.1) x.2.1 x.2.2).isNone) = true
    ∧ capFault (e 9) [kMBOX] permRV = some 1 ∧ capFault (e 4) [kMBOX] permRV = some 2 ∧ capFault (e 5) [kMBOX] permRV = some 3
    ∧ capFault (capSetAllow (e 5) 0) [kMBOX] permS = some 4 ∧ capKind (e 4) = kQUEUE ∧ capKind (e 6) = kLINK := by decide
theorem met_mailbox : let s := capBench.advance
    (match s.checkCells (s.whoOf (wctx hd capBench).snap) (mboxCells 0x8000 0) with
      | (s, none) => (match s.claim (s.whoOf (wctx hd capBench).snap) 0x8000 with | (_, .ok w) => w == 0#32 | _ => false)
          && (match s.claim (s.whoOf (wctx hd capBench).snap) 0x8004 with | (_, .ok w) => w == 0#32 | _ => false)
      | _ => false) = true := by decide
/-- `jstat` of selector 5: a header that can be read, one at an address that is not canonical, and an entry that is no mailbox. -/
theorem met_jstat : let t := capBench.advance
    (match t.fetch (t.whoOf (wctx hd capBench).snap) .gl 0x8000 8 .r with | (_, .ok bs) => bs.length == 8 | _ => false) = true
    ∧ (match t.fetch (t.whoOf (wctx hd capBench).snap) .gl (2 ^ 60) 8 .r with | (_, .error _) => true | _ => false) = true
    ∧ capKind (t.cap (wctx hd capBench).snap 5) = kMBOX ∧ capKind (t.cap (wctx hd capBench).snap 4) ≠ kMBOX := by decide
theorem met_card_link : capBench.cardLink (capBench.grp 0) kCOPY (capBench.cardAt 0 0x7f00) = none := by decide
theorem met_card : 0x7f00 + 256 = capBench.advance.spSize 0 ∧ 0x7f00 % 64 = 0 ∧ capBench.freeSlot 0 = some 0 ∧ capBench.slotQ = [] := by decide

/-- CatalogueWords: a catalogue at 0x1000 of two entries of pool 2, whose entry 1 is valid and names page 0, and the page's record. -/
def poolTwo : Pool :=
  { l := 0, fmt := 0, heads := 1, hdim := 512, haar := false, fsz := 10, recs := 0x2000, np := 1, cmax := 2, near := 0x3000, nn := 1,
    far := 0, nf := 0, poolt := 0, nc := 0, catb := 0x1000 }
def catBench : State :=
  let s := (capBench.putDwords [(benchPage + 0x1000, 0x100000002), (benchPage + 0x1008, 2), (benchPage + 0x1048, 1)])
  let s := s.putDwords [(benchPage + 0x2000, pFilling * 2 ^ 60), (benchPage + 0x2008, 2 ^ 48)]
  let s := s.onCtx 0 fun x => { x with pools := [Pool.none, Pool.none, poolTwo] }
  let s := s.onGrp 0 fun g => (g.setS 4 0x1000).setS 6 1
  { s with iss := { s.iss with snap := s.grp 0 } }
theorem met_catalogue : let s := catBench.advance.useCap (wctx hd catBench).snap 8
    let u := catBench.advance.whoOf (wctx hd catBench).snap
    (match (s.ctx 0).pool? 2, s.catHdr u 0x1000 with
      | some p, (s1, .ok h) => h.cmax == 2 && h.pool == 2 && h.nv == 1
          && (match s1.catRead u 0x1000 1 with
            | (s2, .ok e) => eValid e && ePage e == 0
              && (match s2.pageRec 0 p 0 with | .ok r => !catstBad p (some r) (mkEntry 0 0 1 true) | _ => false)
            | _ => false)
          && (match s1.catWrite u 0x1000 1 (mkEntry 0 0 1 true) (some 2) none with | (_, none) => true | _ => false)
      | _, _ => false) = true := by decide

/-- SequenceAndAdmission: a record of the context in each state, with a checkpoint area at 0x100 and a draft list at 0x200. -/
def record (st : Nat) : Seq :=
  let q : Seq := { slot := 0, gen := 1, ctx := 0, w := Vector.replicate 64 0, hurt := false, prev := [], rpl := 0, ckj := 0xff, lap := none, image := 0,
                   owed := [], outDue := false, toks := [] }
  (((q.setSt st).setDword 120 0x100).setByte 133 1).setWord 11 4
def seqBench (st : Nat) : State :=
  let s := benchWith fun g => g.setS 2 0x4000
  let s := s.onCtx 0 fun x => { x with queues := List.replicate 32 { Queue.blank with kind := .output, logn := 4 } }
  { s with seqs := [record st] }
theorem met_record : ([qAdmitted, qPrefilling, qDecoding, qVerifying, qFinished].all fun st =>
    match seqAt (seqBench st).advance 0 0x4000 with
    | some q => q.st == st && q.active == (st != qFinished) && q.tokens == (st != qAdmitted && st != qFinished) && !q.flg 0 && !q.flg 1
        && q.di == 0 && q.nd == 1 && q.pfx == q.plen && q.ckptAt == 0x100
    | none => false) = true ∧ seqAt (seqBench qDecoding).advance 0 0x8000 = none ∧ blockedAccess (wctx hd (seqBench qDecoding)) = false := by
  decide
theorem met_seq_words : seqWritable 12 = true ∧ seqWritable 16 = true ∧ seqWritable 45 = true ∧ seqWritable 11 = false
    ∧ seqWritable 17 = false ∧ acceptTest 0 0 0x3f800000 0x3f800000 = false ∧ acceptTest 0x3f800000 0 0x3f000000 0x3f000000 = true
    ∧ (((seqBench qDecoding).advance.ctx 0).queue 0).kind = .output
    ∧ ((((seqBench qDecoding).onCtx 0 fun x => { x with queues := [] }).ctx 0).queue 0).kind ≠ .output := by decide
theorem met_seq_access : let s := (seqBench qDecoding).advance
    let u := s.whoOf (wctx hd (seqBench qDecoding)).snap
    (match s.readVa u .gl 0x200 4 .r with
      | (s1, .ok _) => (match (s1.readVa u .gl 0x204 0 .r).2 with | .ok _ => true | _ => false)
      | _ => false)
    && (match s.locate u { space := .gl, bytes := 40, acc := .a, align := 4 } 0x100#64 with
      | (s1, .ok loc) => (s1.lateFault u loc 40).isNone | _ => false)
    && (match s.locate u { space := .gl, bytes := 64, acc := .w, align := 16 } 0x400#64 with | (_, .ok _) => true | _ => false) = true := by
  decide
theorem met_admit : (match bench.advance.takeRequest 0 (List.replicate 64 0) with | .full _ => true | _ => false) = true
    ∧ (match (bench.onCtx 0 fun x => { x with d := { x.d with seqmax := 1 } }).takeRequest 0 (List.replicate 64 0) with
      | .ok _ _ => true | _ => false) = true := by decide

/-- GroupWaits: a sleep that is over; the waits of a group; a TIMEOUT that is due and, one clk earlier, is not. -/
def waiting (k : StallKind) (f : Group → Group) : State := bench.onGrp 0 fun g => f { g with stall := some ⟨k, 0, 0, [], none, 0⟩ }
theorem met_waits : ((waiting (.fenceSys 3) id).grp 0).storesDone 3 = true := by decide
/-- A dirty line behind a port that is out keeps waiting whom its stores are of, a fence of the group, a save and a kernel's end of the
context, and no other; with none it is flushed. -/
def owedBench : State := { waiting (.fenceSys 3) id with l2 := [⟨2 ^ 44 / 128, 0, false, List.replicate 128 0, true, [(0, 0, 0)]⟩] }
def mine (o : Owner) : Bool := decide (o = (owedBench.whoOf (owedBench.grp 0)).owner)
theorem met_flush : ((waiting (.fenceSys 3) id).writeBack mine).flushed mine = true ∧ (owedBench.writeBack mine).flushed mine = false
    ∧ (owedBench.writeBack fun o => decide (o.1 = 0)).flushed (fun o => decide (o.1 = 0)) = false
    ∧ (owedBench.writeBack fun o => decide (o.1 = 1)).flushed (fun o => decide (o.1 = 1)) = true
    ∧ owedBench.fenced 0 (0, 0, 0) = true ∧ bench.fenced 0 (0, 0, 0) = false := by decide
theorem met_stores_open : ((waiting (.fenceSys 3) fun g =>
    { g with ops := [opOf 2 .st (.store 4 .gl false (Vector.replicate 32 0) (Vector.replicate 32 0))] }).grp 0).storesDone 3 = false := by decide
theorem met_acq : let s := { waiting (.acq 1) id with acqQ := [0] }
    s.firstAcq 0 = some 0 ∧ (s.grp 0).wantsBlock = some 1 ∧ s.freeBlocks 0 ≠ 0 := by decide
theorem met_board_queue : let s := waiting .board id
    { s with ring := { s.ring with stalled := [(0, 0)] } }.boardQueue 0 = [0] := by decide
theorem met_cell_waits : let s := cellBench.onGrp 0 fun g => { g with stall := some ⟨.bart true 16 0xffffffff 5 7, 0, 0, [], none, 0⟩ }
    s.onCore 0 = true ∧ (match (s.cellPassed 0 (true, 16, 0xffffffff)).2 with | .ok b => b | _ => false) = true
    ∧ (match (s.cellPassed 0 (true, 16, 0)).2 with | .ok b => !b | _ => false) = true
    ∧ (match (s.cellPassed 0 (true, 8, 0)).2 with | .error _ => true | _ => false) = true
    ∧ ((s.grp 0).cur.bind fun t => t.kind.cell?) = some (true, 16, 0xffffffff) := by decide
theorem met_window : let s := bench.onCtx 0 fun x => { x with d := { x.d with wink := 6 } }
    { s with clock := { s.clock with ns := 64000 } }.windowOf 0 = 1 ∧ { s with clock := { s.clock with ns := 63999 } }.windowOf 0 = 0 := by decide
theorem met_timeouts : ([(StallKind.acq 0, 3), (.bwait 0 none, 6), (.barw true 0 0, 7), (.gang 0 3 1, 5)].all fun x =>
    let g := (waiting x.1 fun g => { g with wdog := 2 }).grp 0
    g.overdue 33 x.2 && !g.overdue 32 x.2) = true
    ∧ { bench.grp 0 with wdog := 2, starve := 2 }.overdue 0 1 = true ∧ { bench.grp 0 with wdog := 2, starve := 1 }.overdue 0 1 = false
    ∧ { bench.grp 0 with wdog := 0, starve := 9 }.overdue 0 1 = false := by decide

/-- MemoryEvents: a `ldfe` at a full granule, an ordered atomic of the group that holds the token, a token that can pass. -/
def tokenBench (o : Op) : State :=
  let s := bench.onGrp 0 fun g => { g with ops := [o] }
  s.onKernel 0 fun k => { k with h := { k.h with det := true } }
def ordAtom : Op := opOf 0 .st (.atom .add 4 .sp false true false 0 (Vector.replicate 32 0x40) (Vector.replicate 32 1) (Vector.replicate 32 0))
def ldfeOp : Op := opOf 0 .ld (.load 4 false .sp 2 true false (Vector.replicate 32 0x40))
theorem met_atom : let s := tokenBench ordAtom
    (s.grp 0).nextOrd.isSome = true ∧ s.holdsToken (s.grp 0) = true ∧ s.onCore 0 = true ∧ (lanesOf ordAtom.todo).head? = some 0
    ∧ (s.grp 0).turn 0 0 = true ∧ (match s.tryLane 0 ordAtom 0 false with | (_, .made _) => true | _ => false) = true := by decide
theorem met_ldfe : let s := tokenBench ldfeOp
    ldfeOp.kind.waitsFull = true ∧ ldfeOp.todo.getLsbD 31 = true ∧ s.laneTurn 0 { ldfeOp with todo := lane1 31 } 31 = true ∧ s.onCore 0 = true
    ∧ (s.grp 0).op? 0 = some ldfeOp := by decide
/-- `ldfe` without `.clr` is made with the lanes on the same granule, with `.clr` alone. -/
theorem met_full_lanes : let s := tokenBench ldfeOp
    s.laneTurn 0 ldfeOp 0 = true ∧ s.fullLanes 0 ldfeOp 0 = List.finRange 32
    ∧ s.fullLanes 0 { ldfeOp with kind := .load 4 false .sp 2 true true (Vector.replicate 32 0x40) } 0 = [0] := by decide
theorem met_token_pass : let s := (tokenBench arriving).onGrp 0 fun g => { g with tokenDone := true }
    (match s.kernels with
      | [k] => k.h.det && k.token < k.tokenEnd && (match s.groupAtToken 0 k.token with
        | some g => g.tokenDone && g.nextOrd.isNone | none => false)
      | _ => false) = true := by decide

/-- TileEvents: a gang that has met and has no bands yet, one whose members are gone; a band word whose turn it is. -/
def metBench : State := gangBench.onTeam 0 fun t => { t with gangs := [⟨1, 3, 2, false, [], 0⟩] }
theorem met_grant : (match metBench.teams with
    | [tm] => (tm.gangs.find? fun x => x.k = 1 && !x.formed).isSome && tm.holds
        && (match metBench.kernels[tm.kernel]? with | some kn => decide (tm.bands.length + 2 * popN 16 3 ≤ kn.h.bands) | none => false) && metBench.bandsUsed (tm.core / 4) + 2 * popN 16 3 ≤ 128
        && (metBench.teams.all fun u => !u.holds || u.core / 4 ≠ tm.core / 4 || u.gangs.all fun y => y.formed || 0 ≤ y.seq)
    | _ => false) = true := by decide
theorem met_dissolve : let ends_ := fun (s : State) => (match (s.gangAbsent 0).teams with
      | [tm] => (tm.gangs.find? fun x => x.formed && ((s.gangAbsent 0).members tm x.mask).all fun gi =>
          (((s.gangAbsent 0).grp gi).gone || x.leaving.contains ((s.gangAbsent 0).grp gi).idx)
            && ((s.gangAbsent 0).grp gi).ops.all fun o => !o.tile).isSome
      | _ => false)
    ends_ formedBench = false
    ∧ ends_ (formedBench.onTeam 0 fun t => { t with gangs := [⟨1, 3, 2, true, [0, 1], 0⟩] }) = true := by decide
theorem met_tile_op : let s := formedBench.onGrp 0 fun g => { g with ops := [opOf 0 .tl (.tile 1 .acz)] }
    ((s.grp 0).op? 0).isSome = true ∧ (s.grp 0).bandFree 1 0 = true ∧ ((s.teamOf (s.grp 0)).gangOf (s.grp 0).idx).isSome = true := by decide

/-- MessageEvents: an entry for an output queue with room, a message for an empty slot, a `recv` at a full one. -/
def msgBench : State :=
  let s := capBench.onCtx 0 fun x => { x with queues := List.replicate 32 { Queue.blank with kind := .output, logn := 4, base := 0x400 },
                                              posts := [⟨3, 7, none, none⟩] }
  { s with msgs := [⟨0, 0x8010, 9, none, none⟩] }
theorem met_post : ((msgBench.ctx 0).posts.find? fun p => p.queue = 3) = some ⟨3, 7, none, none⟩
    ∧ ((msgBench.ctx 0).queue 3).room = true ∧ (msgBench.ctx 0).st = .running := by decide
def emptySlot : State := match msgBench.slotLoc 0 0x8010 .w with | (s, .ok loc) => s.setFe loc false | (s, _) => s
theorem met_slot : (match emptySlot.msgs with
      | [m] => emptySlot.msgFirst 0 m && (match emptySlot.slotLoc m.ctx m.slot .w with | (s, .ok loc) => !s.feAt loc | _ => false)
      | _ => false) = true := by decide
theorem met_peer_slot : let s := { emptySlot with msgs := [⟨0, 0x8010, 9, none, some (⟨⟨0, 0, 0, false, false⟩, 0, 0, false⟩, 0x8000, 0)⟩] }
    (match s.msgs with
      | [m] => s.msgFirst 0 m && (match s.slotLoc m.ctx m.slot .w with | (s, .ok loc) => !s.feAt loc | _ => false)
      | _ => false) = true := by decide
theorem met_full_slot : (match msgBench.slotLoc 0 0x8010 .r with | (s, .ok loc) => s.feAt loc | _ => false) = true := by decide
theorem met_link_message : (match msgBench.checkCells (agent 0) (mboxCells 0x8000 0) with
      | (s, none) => (match s.claim (agent 0) 0x8000 with | (_, .ok _) => true | _ => false)
      | _ => false) = true := by decide

/-- LinkArrivals: a transfer of each kind that is under way, a cell that an arrival may count at, a collective in progress. -/
def xferBench (k : XferKind) : State := { capBench with xfers := [⟨3, 0, 0, 0, k, 0x8000, 0, none, 1, 0, 0⟩] }
theorem met_xfers : ([XferKind.arrival, .page 1 2 0 3].all fun k => ((xferBench k).xfer? 3).map (fun y => y.kind == k) == some true) = true := by
  decide
theorem met_arrival : (match capBench.cellLoc (agent 0) false 0x8000 .a with | (_, .ok _) => true | _ => false) = true
    ∧ capBench.exposed = true ∧ capBench.arrivalDue ⟨0, ⟨⟨0, 3, 0, false, false⟩, 5, 0, false⟩, 0x8000, 0⟩ = true := by decide
/-- An arrival that waits for one store of its sender, before and after the store has been heard. -/
theorem met_arrival_due : let a : Inbound := ⟨0, ⟨⟨0, 3, 1, false, false⟩, 5, 0, false⟩, 0x8000, 0⟩
    capBench.arrivalDue a = false ∧ ({ capBench with heard := [(0, 3, 5)] } : State).arrivalDue a = true := by decide
/-- Collective data: a granule that no packet has brought, one that an earlier store has, and one that a later store has (R200). -/
theorem met_coll : let via := fun (n : Nat) => (⟨⟨0, 3, n, true, false⟩, 5, 0, false⟩ : Via)
    let z := fun (n : Nat) => ({ ctx := 0, fn := 0, id := 1, rank := 2, data := [7], job := none, via := some (via n) } : Coll)
    (capBench.colls.find? fun w => w.ctx = 0) = none ∧ viaAfter (via 2) (via 1) = true ∧ viaAfter (via 1) (via 2) = false
    ∧ (capBench.putPart (z 1)).colls = [z 1] := by decide
def aJob (kind : Nat) (st : JSt) (card : List Byte) : Job :=
  { uid := 1, core := 0, slot := 0, seq := 1, ctx := 0, kernel := 0, team := 0, gi := 0, op := 0, kind := kind, inst := 0, link := 0, st := st,
    status := 0, counts := 0, granules := 0, card := card, rd := [], wr := [], edges := [], depfail := false, eoa := none, at_ := 0,
    saved := false, lost := false, waits := false, busy := false, imgs := [], data := [] }
def jobBench (kind op : Nat) : State := { capBench with jobs := [aJob kind .running (toBytes 256 op)] }
theorem met_abort : ((jobBench kCOLL 0x20).job? 1).map (fun j => !j.ended && j.kind == kCOLL && j.ctx == 0) = some true := by decide

/-- JobEvents: a running job of each operation; a submission that waits for a slot; a copy. -/
theorem met_jobs : ((jobSteps 1).all fun x => match (jobBench kCOPY x.1).job? 1 with
    | some j => j.st == .running && !j.saved && !(jobBench kCOPY x.1).saveStop j && cardOp j.card == x.1
    | none => false) = true := by decide
theorem met_slot_wait : let s := { waiting (.slot 1 0 (.card kCOPY 0 0)) id with slotQ := [0] }
    (s.slotQ.find? fun gi => (s.grp gi).core = 0 && (match (s.grp gi).status with
      | .running => true | .handler => true | .sleeping _ => true | _ => false)) = some 0 ∧ s.freeSlot 0 = some 0
    ∧ (s.grp 0).cur.isSome = true := by decide

/-- GroupAndKernelEnds, TeamEvents: a kernel at each step of its end; a range to take, a team to place, one to resume, one to park. -/
def kernelAt (f : Kernel → Kernel) : State := bench.onKernel 0 f
theorem met_ends : ([KSt.ending 1, .ending 2, .ending 3, .ending 4, .cancelling].all fun st =>
    match (kernelAt fun k => { k with st := st, h := { k.h with irq := st == .ending 3 } }).kernels with
    | [k] => k.st == st && k.launch.isNone && k.h.irq == (st == .ending 3)
    | _ => false) = true ∧ bench.jobsOf 0 = [] := by decide
def toPlace : State := { (kernelAt fun k => { k with next := 0, h := { k.h with nteam := 4, chunk := 2 } }) with teams := [], groups := [] }
theorem met_range : (match toPlace.kernels with
    | [k] => k.range 0 == none && k.st == .running && (toPlace.ctx k.ctx).st.live && !k.loose && decide (k.next < k.h.nteam)
        && ((List.range 1).any fun i => toPlace.fits i ⟨2 ^ k.h.w1, spUp k.h.scr, 0⟩ [])
    | _ => false) = true := by decide
theorem met_range_one : let s := toPlace.onKernel 0 fun k => { k with range0 := some (0, 2), next := 2 }
    (match toPlace.kernels with | [k] => toPlace.wantsRange 0 k | _ => false) = true
    ∧ (match s.kernels with | [k] => !s.wantsRange 0 k && s.wantsRange 1 k | _ => false) = true := by decide
theorem met_place : let s := toPlace.onKernel 0 fun k => { k with range0 := some (0, 2), next := 2 }
    (match (s.cands 0).head? with
      | some c => c.parked.isNone && ((List.range 1).any fun i => s.fits (dieOf 0 * 256 + i) (s.need c) [])
      | none => false) = true := by decide
theorem met_token_wait : let s := (tokenBench ordAtom).onKernel 0 fun k => { k with h := { k.h with nteam := 3 }, token := 2 }
    (match s.teams with | [x] => s.tokenWait x | _ => false) = true := by decide
theorem met_park : let s := (bench.onTeam 0 fun t => { t with st := .leaving .evict }).onCtx 0 fun x =>
      { x with d := { x.d with savesz := 0x100000 } }
    (match s.teams, s.kernels with
      | [x], [k] => s.canPark x && (s.savePlace k.ctx k.h.recordSize).isSome && x.st == .leaving .evict
      | _, _ => false) = true := by decide

/-- RingEvents: a beat within a lap and the last position, before and at the governor's turn. -/
theorem met_exposed : State.reset.exposed = true ∧ (State.reset.onCtl fun c => { c with recovery := true }).exposed = false
    ∧ (State.reset.onCtl fun c => { c with halted := true }).exposed = false := by decide
theorem met_governor : State.reset.ring.beats < 4096 ∧ 4096 ≤ { State.reset.ring with beats := 4096 }.beats := by decide
theorem met_beat : State.reset.ring.pos + 1 < State.reset.ring.len
    ∧ { State.reset.ring with pos := 1023 }.len ≤ { State.reset.ring with pos := 1023 }.pos + 1 := by decide

/-- QueueEvents: queues of each kind; a full queue and one entry past it; a slot of the table whose first, third and no firing is due. -/
def queueBench (k : QKind) : State := bench.onCtx 0 fun x => { x with queues := List.replicate 32 { Queue.blank with kind := k, logn := 4, base := 0x400 } }
theorem met_queues : ([QKind.launch, .request, .completion, .output, .invalid].all fun k =>
    ((queueBench k).ctx 0).queue 31 == { Queue.blank with kind := k, logn := 4, base := 0x400 }) = true ∧ (queueBench .launch).owns 0 0 = true
    ∧ ((16#32 - 0#32).toNat ≤ 2 ^ 4 ∧ 2 ^ 4 < (17#32 - 0#32).toNat) := by decide
def ttBench (ns : Nat) : State :=
  let s := (queueBench .launch).putDwords [(benchPage + 0x800, 1000), (benchPage + 0x808, 100), (benchPage + 0x810, 0x010000), (benchPage + 0x840, 5)]
  let s := s.onCtx 0 fun x => { x with tt := [⟨none, none, false⟩], d := { x.d with ttt := 0x800, ntt := 1 } }
  { s with clock := { s.clock with ns := ns } }
theorem met_slots : (match (ttBench 1000).readVa (agent 0) .gl 0x800 128 .r with
    | (_, .ok bs) => fieldAt bs 18 1 == 1 && fieldAt bs 17 1 == 0 && fieldAt bs 16 1 == 0 && fieldAt bs 8 8 == 100
        && firingsDue (fieldAt bs 0 8) (fieldAt bs 8 8) 999 == 0 && firingsDue (fieldAt bs 0 8) (fieldAt bs 8 8) 1000 == 1
        && firingsDue (fieldAt bs 0 8) (fieldAt bs 8 8) 1200 == 3
    | _ => false) = true ∧ ((ttBench 1000).ctx 0).tt = [⟨none, none, false⟩] := by decide

/-- Launches: an entry of each type at the head of queue 0, and one with a reserved byte that is not 0. -/
def launchBench (a b : Nat) : State :=
  let s := (queueBench .launch).putDwords [(benchPage + 0x400, a), (benchPage + 0x408, b)]
  let q : Queue := { Queue.blank with logn := 4, base := 0x400 }
  s.onCtx 0 fun x => { x with queues := (x.queues.set 0 { q with kind := .launch, pi := 1 }).set 1 { q with kind := .completion, base := 0x800 } }
theorem met_launches : ([1, 2, 3, 4, 5].all fun t => match (launchBench (0x10000 + t) 0).acceptable 0 0 with
    | some (e, none) => e.type == t && !Entry.bad ((launchBench (0x10000 + t) 0).ctx 0) e
    | _ => false) = true
    ∧ (match (launchBench 0x1010005 0).acceptable 0 0 with
      | some (e, none) => Entry.bad ((launchBench 0x1010005 0).ctx 0) e && e.type == 5 && ((launchBench 0x1010005 0).ctx 0).completes e.cq
      | _ => false) = true := by decide
theorem met_targets : let s := (launchBench 0x10003 0).onKernel 0 fun k => { k with launch := some ⟨9, 0, none, 1, 0, 1⟩ }
    s.target 0 0 = some 0 ∧ s.target 0 1 = none
    ∧ ((launchBench 0x10003 0).teams.map fun t => (t.kernel, t.idx, t.st)) = [(0, 0, .resident)] := by decide

theorem met_cancel_queued : (match ((launchBench 0x10001 0).queuedKernels 0 0).map Prod.fst with | [0] => true | _ => false) = true
    ∧ (launchBench 0x10001 0).queuedTarget 0 1 0 = some (0, 0) ∧ (launchBench 0x10001 0).queuedTarget 0 0 0 = none := by decide

/-- ContextEvents: a descriptor that passes every check, a package whose contexts are all taken, contexts in each state. -/
def bindBench : State :=
  State.reset.putDwords [(0x80000, 1), (0x80004, 1), (0x80028, 65536), (0x80038, 0xff000000000004)]
theorem met_bind : ((List.range 64).find? fun c => (bindBench.ctx c).st = .free) = some 0 ∧ bindBench.fnOpen 0 = true := by decide
theorem bindBench_head : SameBytes (bindBench.physRead 0x80000 8192) (bindBench.physRead 0x80000 64) :=
  State.physRead_same (s := bindBench) (pa := 0x80000) (n := 64) (m := 8192) rfl rfl (by decide) (by decide) (by decide)
theorem met_descriptor : (bindBench.tryCtx 0 0x80000 0 (bindBench.physRead 0x80000 8192)).descStatus 0 (bindBench.physRead 0x80000 8192) true = 0 := by
  rw [State.tryCtx_same bindBench_head, State.descStatus_same bindBench_head]
  decide +kernel
theorem met_no_context : ((List.range 64).find? fun c =>
    (({ State.reset with ctxs := List.replicate 64 { Ctx.blank with st := .bound } } : State).ctx c).st = .free) = none := by decide
def ctxAt (st : CtxSt) : State := { (bench.onCtx 0 fun x => { x with st := st }) with teams := [], groups := [], kernels := [] }
theorem met_contexts : ([CtxSt.bound, .saved, .faulted, .running, .saving, .restoring].all fun st =>
    (ctxAt st).owns 0 0 && ((ctxAt st).ctx 0).st == st) = true ∧ (ctxAt .running).owns 1 0 = false ∧ (ctxAt .saving).saveReady 0 = true
    ∧ ((ctxAt .running).ctx 0).st.live = true ∧ ((ctxAt .bound).ctx 0).st.live = true ∧ ((ctxAt .saved).ctx 0).st.live = false := by decide
def restoring : State :=
  let s := bindBench.putDwords [(0x90000, 1), (0x80020, 0x90000)]
  s.onCtx 0 fun x => { x with st := .restoring, d := { Desc.zero with addr := 0x80000, save := 0x90000 } }
theorem met_restore : restoring.slotsFree 0 = true ∧ restoring.poisoned 0x90000 4096 = false ∧ ofBytes (restoring.physRead 0x90000 4) = 1
    ∧ (restoring.records 0).length = 0 := by decide
theorem restoring_head : SameBytes (restoring.physRead 0x80000 8192) (restoring.physRead 0x80000 64) :=
  State.physRead_same (s := restoring) (pa := 0x80000) (n := 64) (m := 8192) rfl rfl (by decide) (by decide) (by decide)
theorem met_restore_descriptor :
    (restoring.tryCtx 0 0x80000 0 (restoring.physRead 0x80000 8192)).descStatus 0 (restoring.physRead 0x80000 8192) false = 0
    ∧ ((restoring.tryCtx 0 0x80000 0 (restoring.physRead 0x80000 8192)).ctx 0).d.save = 0x90000 := by
  rw [State.tryCtx_same restoring_head, State.descStatus_same restoring_head]
  decide +kernel

/-- FaultQueue: records that can be written and one that can be dropped, a queue with room and a full one, a record that is open. -/
def recBench (r : Rec) (pi : Word) : State := (ctxAt .running).onCtx 0 fun x => { x with recs := [r], fqPi := pi, d := { x.d with fql := 4 } }
def openRec : Rec := { Rec.blank with kind := 1, rid := 6, written := true, gi := some 0 }
theorem met_records : ((recBench { Rec.blank with kind := 5 } 15).ctx 0).fqFull = false ∧ ((recBench { Rec.blank with kind := 5 } 16).ctx 0).fqFull = true
    ∧ (recBench { Rec.blank with kind := 5 } 0).recReady { Rec.blank with kind := 5 } = true ∧ ({ Rec.blank with kind := 5 } : Rec).droppable = true
    ∧ ({ Rec.blank with kind := 1 } : Rec).droppable = false
    ∧ (recBench openRec 0).openRid 0 6 = some (0, 0, openRec) ∧ (recBench openRec 0).openRid 0 7 = none
    ∧ (recBench { openRec with gi := none, job := some (1, 0) } 0).openRid 0 6 = some (0, 0, { openRec with gi := none, job := some (1, 0) }) := by
  decide

/-- HostRegisters: shares that keep to the sums and one past a sum, a window that is on, vectors. -/
theorem met_shares : State.reset.shareSum 1 0 (fun i => (State.reset.fn i).ish) = 256 ∧ State.reset.shareSum 1 1 (fun i => (State.reset.fn i).ish) = 257
    ∧ State.reset.shareSum 1 0 State.reset.trackShare = 32 ∧ State.reset.fnOpen 0 = true := by decide
theorem met_window_on : let s := bench.onFn 0 fun f => { f with apctl := 0x80 }
    (s.fn 0).apctl.getLsbD 7 = true ∧ s.owns 0 0 = true ∧ s.windowOk 0 0x100 4 .w = true ∧ s.windowOk 0 0x100 4 .r = true
    ∧ (match s.readVa (agent 0) .gl 0x100 4 .r with | (_, .ok _) => true | _ => false) = true := by decide
theorem met_vector : (State.reset.fn 0).msix[255]?.isSome = true ∧ (State.reset.fn 0).msix[256]?.isSome = false ∧ State.reset.vectors 0 = 256 := by
  decide

/-- ResetsAndPower, LinkEvents: a function in reset; a port in each state. -/
theorem met_resetting : ((State.reset.onFn 3 fun f => { f with resetting := true }).fn 3).resetting = true
    ∧ (State.reset.onFn 3 fun f => { f with resetting := true }).fnOpen 3 = false ∧ State.reset.fnOpen 3 = true := by decide
/-- The clock that is locked, and the limit of a step. -/
theorem met_held : ({ State.reset with clock := { State.reset.clock with st := 1 } } : State).clock.st = 1 ∧ (1000001 : Int) > 1000000
    ∧ State.reset.clock.hold = 0 := by decide
theorem met_ports : ([PortSt.down, .training, .up, .degraded, .failed].all fun st =>
    (({ State.reset with ports := State.reset.ports.set 13 ⟨st, 0, 0, 0, false, []⟩ } : State).ports[13]?).map (·.st) == some st) = true := by decide

/-- VendorObjects, Attestation: a secured session, a slot of function 1, requests for slot 0, for that slot and for a free one, and power
caps on either side of the range. -/
def secured : State := State.reset.onCtl fun c => { c with spdm := .secured, keys := c.keys.set 7 (.null 1) }
theorem met_keys : secured.inSession true = true ∧ secured.inSession false = false ∧ (secured.ctl.keys.getD 7 .empty).foreign 2 = true
    ∧ (secured.ctl.keys.getD 7 .empty).foreign 1 = false ∧ (secured.ctl.keys.getD 8 .empty).foreign 2 = false
    ∧ fieldAt [1, 0, 2, 7] 0 1 = 1 ∧ fieldAt [1, 0, 2, 7] 3 1 = 7 ∧ secured.exposed = true
    ∧ secured.ctl.halted = false ∧ 3 ≠ 0
    ∧ 1000 ≤ fieldAt (List.replicate 16 0 ++ toBytes 4 1000) 16 4 ∧ ¬1000 ≤ fieldAt (List.replicate 16 0 ++ toBytes 4 999) 16 4
    ∧ fieldAt (List.replicate 16 0 ++ toBytes 4 3200) 16 4 ≤ 3200 ∧ ¬fieldAt (List.replicate 16 0 ++ toBytes 4 3201) 16 4 ≤ 3200 := by decide

/-- ChainRules: each of the three rules broken alone, and none. -/
theorem met_chains : chainEnds (chainAt [0x84000000, 0x84000000, 0x84000000] 0) = false
    ∧ ¬((chainSpecs (chainAt [0x98001083, 0x18004146, 0] 0)).map WordSpec.pipe).Nodup
    ∧ ¬(chainWrites (chainAt [0x98001083, 0x28001083, 0] 0)).Nodup := by decide

/-- StepRunsDecoded: an agenda; a group whose packet is fetched; nothing to do. -/
theorem met_step : State.reset.agenda = [] ∧ State.reset.pick = none
    ∧ (State.reset.withFetchWord 32 0x04000000).pick = some 0 ∧ (State.reset.withFetchWord 32 0x04000000).turn % 2 = 0
    ∧ ((State.reset.withFetchWord 32 0x04000000).grp 0).issuePc = some 0 ∧ issuable [0x04000000, 0, 0] 0 = true
    ∧ leastOf (chainViol Group.blank (chainAt [0x04000000, 0, 0] 0)) = none := by decide
theorem met_packet : (match (State.reset.withFetchWord 32 0x04000000).tick.packet ((State.reset.withFetchWord 32 0x04000000).grp 0) 0 with
    | (_, .ok ws) => ws == [0x04000000, 0, 0] | _ => false) = true := by decide

/-- StepKeepsMemory, FaultsAndTraps. -/
theorem met_memories : State.reset.memWf := State.reset_memWf
theorem met_traps : bench.iss.gi < bench.groups.length ∧ bench.iss.snap.hm = false ∧ inHandler.iss.snap.hm = true ∧ (bench.grp 0).due = none
    ∧ ((benchWith fun g => { g with htv := 0x25 }).grp 0).htv.getLsbD 0 = true ∧ (bench.grp 0).systemLanes = 0#32
    ∧ ((benchWith fun g => g.onLanes allLanes fun _ x => { x with st := .faulted, fcs := mkFcs false cMACHINE 1 }).grp 0).systemLanes
      ≠ 0#32 := by decide

/-- DecodeOfEncode, IntegerFrame, IntegerBorderlines: an instruction that is well-formed; one that completes. -/
theorem met_encode : Instr.wf (.ialuMad hd true 7 2 3 9 false) = true ∧ (Instr.ialuMad hd true 7 2 3 9 false).hdr? = some hd := by decide
theorem met_integer : (match exec (.ialuAdd hd false 1 2 3) bench with | .next _ => true | _ => false) = true ∧ 32 ≤ (32#32).toNat := by decide

/-! ### States for clauses of several cases -/

/-- GlobalStore, LoadFrame: the core's TLB holds the translation, so that the check changes no state; no two bytes share a place. -/
def warmLane : State :=
  (oneLane.locate (oneLane.whoOf (oneLane.grp 0)) { space := .gl, bytes := 4, acc := .w } 0x120#64).1
theorem met_lands : (match warmLane.locate (warmLane.whoOf (warmLane.grp 0)) { space := .gl, bytes := 4, acc := .w } 0x120#64 with
    | (t, .ok (.gl q y)) => t == warmLane && q == 0x40120 && lineKey warmLane (q / 128) == warmLane.keyOf y.key && q % 128 + 4 ≤ 128
    | _ => false) = true ∧ (wctx g1 warmLane).lanes = lane1 3 ∧ (addrOf (wctx g1 warmLane) g1 0 3 4)[3] = 0x120#64
    ∧ (warmLane.grp warmLane.iss.gi).ops = [] := by decide
theorem warm_soundLines : SoundLines warmLane :=
  ⟨List.nodup_nil, fun _ _ h => State.place_inj (by decide) h, fun x hx => absurd (show x ∈ ([] : List L2Line) from hx) (by simp)⟩

/-- SequenceAndAdmission: what the record's state does not admit. -/
def seqWith (f : Seq → Seq) : State := { seqBench qDecoding with seqs := [f (record qDecoding)] }
def seqIs (f : Seq → Seq) (p : Seq → Bool) : Bool :=
  match seqAt (seqWith f).advance 0 0x4000 with | some q => p q | none => false
theorem met_seq_refused : (seqIs (fun q => (q.setSt qPrefilling).setWord 8 1) (fun q => q.tokens && !q.flg 0 && q.pfx != q.plen)
    && seqIs (fun q => q.setFlg 0 true) (fun q => q.tokens && q.flg 0)
    && seqIs (fun q => (q.setSt qVerifying).setFlg 1 true) (fun q => q.st == qVerifying && !q.flg 0 && q.flg 1)
    && seqIs (fun q => (q.setSt qVerifying).setByte 19 1) (fun q => !q.flg 0 && !q.flg 1 && q.di != 0 && q.nd ≤ q.di)
    && seqIs (fun q => q.setDword 120 0) (fun q => q.ckptAt == 0)) = true
    ∧ 8 < ((benchWith fun g => g.setS 4 9).iss.snap.sreg 4).toNat := by decide

/-- Behind a host port in training, at virtual address 0x10000: a request's prompt, a packet. -/
def portBench : State :=
  let s := bench.putDwords [(0x21008, 3 * 2 ^ 43 + 0x1d)]
  { s with ports := updAt s.ports 0 fun p => { p with st := .training } }
theorem met_port : portBench.requestHeld 0 (List.replicate 16 0 ++ toBytes 8 0x10000 ++ toBytes 4 16 ++ List.replicate 36 0) = true
    ∧ bench.requestHeld 0 (List.replicate 64 0) = false ∧ bench.templateHeld 0 = false
    ∧ (match bench.kernels with | [k] => bench.signalHeld k | _ => true) = false
    ∧ (match portBench.locate (agent 0) { space := .gl, bytes := 16, acc := .r } 0x10000#64 with
      | (s1, .ok loc) => s1.heldFault (agent 0) loc 16 == some (cHOLD, 0) | _ => false) = true := by decide

/-- StepRunsDecoded: a `gbar` that was set aside and is taken up where its lanes have come back; a packet behind a port in training. -/
theorem met_standing : let s := State.reset.withFetchWord 32 0x04000000
    let w := s.onGrp 0 fun g => { g with kept := [⟨.gbar 0, 0, 0, [], some (List.replicate 32 1), allLanes⟩] }
    w.pick = some 0 ∧ (((w.tick.choose 0).grp 0).cur.any fun t => t.resume.isSome && ((w.tick.choose 0).grp 0).waitStands t) = true
    ∧ ((s.tick.choose 0).grp 0).cur.isSome = false := by decide
theorem met_held_fetch : let s := portBench.onKernel 0 fun k => { k with h := { k.h with code := 0x10000 } }
    (match s.packet (s.grp 0) 0 with | (_, .error (cause, _)) => cause == cHOLD | _ => false) = true := by decide

/-- CoefficientWords: an access of an earlier word, and one of an earlier slot of the chain. -/
theorem met_segment_waits : let s := benchWith fun g => { g with ops := [opOf 0 .tl (.tile 1 (.acld 0))], nextOp := 1 }
    let t := bench.onGrp 0 fun g => { g with ops := [opOf 0 .tl (.tile 1 (.acld 0))], nextOp := 1 }
    (wctx hd s).groupBlocked = true ∧ (wctx hd s).priorBlocked = true
    ∧ (wctx hd t).groupBlocked = true ∧ (wctx hd t).priorBlocked = false := by decide

/-- FaultsAndTraps: a team that holds its core; a TIMEOUT that is due, to the handler and to the system path, and beside a faulted lane. -/
theorem met_due : let g := (bench.onGrp 0 fun g => { g with due := some 3, hcm := 0x2bf2f }).grp 0
    (bench.teams.map fun x => x.holds) = [true] ∧ (bench.grp 0).team = 0 ∧ g.systemLanes = 0#32 ∧ g.toSystem cTIMEOUT = false
    ∧ (bench.grp 0).toSystem cTIMEOUT = true ∧ g.inState .faulted = 0#32 ∧ g.htv.getLsbD 0 = false
    ∧ (g.onLanes (lane1 3) fun _ x => { x with st := .faulted, fcs := mkFcs false cPROGRAM 7 }).inState .faulted ≠ 0#32
    ∧ (g.onLanes (lane1 3) fun _ x => { x with st := .faulted, fcs := mkFcs false cPROGRAM 7 }).systemLanes = 0#32 := by decide

/-- JobEvents: a job whose regions lie in the scratchpad, by its operation, P0 and P1; its next granule has a place; a copy's source; a
conversion of FP32 to FP32; elements that are counted. -/
def spCard (op p0 p1 : Nat) : List Byte := toBytes 16 (0x1100 + op) ++ toBytes 8 p0 ++ toBytes 8 p1 ++ toBytes 16 (0x100 + 32 * 2 ^ 64) ++ List.replicate 208 0
def spJob (op p0 p1 : Nat) : Job :=
  { aJob kCOPY .running (spCard op p0 p1) with rd := [⟨true, none, 0x100, 32⟩], wr := [⟨true, none, 0x40, 32⟩], busy := true }
def spJobs (op p0 p1 : Nat) (f : Job → Job) : State := { capBench with jobs := [f (spJob op p0 p1)] }
theorem met_granule : let s := spJobs 0x02 5 7 id
    let j := spJob 0x02 5 7
    s.job? 1 = some j ∧ s.saveStop j = false ∧ cardOp j.card = 2 ∧ j.card.length = 256 ∧ j.at_ < 32 / 16
    ∧ (s.vaHeld (jobWho j true) .sp 0x40 16 = false)
    ∧ (match s.locate (jobWho j true) { space := .sp, bytes := 16, acc := .w } 0x40#64 with
      | (s1, .ok loc) => loc == .sp 0 0x40 && (s1.heldFault (jobWho j true) loc 16).isNone | _ => false) = true
    ∧ (match s.locate (jobWho j true) { space := .sp, bytes := 16, acc := .r, align := 1 } 0x100#64 with
      | (s1, .ok loc) => (s1.heldFault (jobWho j true) loc 16).isNone | _ => false) = true
    ∧ (match s.locate (jobWho j true) { space := .sp, bytes := 16, acc := .w } 0x10000#64 with
      | (_, .error (c, d)) => c == cPROT && d == 3 | _ => false) = true
    ∧ (match s.locate (jobWho j false) { space := .gl, bytes := 16, acc := .w } 0x40000#64 with
      | (_, .error (c, _)) => c == cPAGE | _ => false) = true := by decide
theorem met_conv : let j := spJob 0x03 0 0
    let es := (List.range 4).map fun _ => conv (.flt .f32) (.mode .rne) false false ((Tgt.flt .f32).val 0)
    convCount j.card = 8 ∧ (convType 0).width = 32 ∧ cardCth j.card = 0
    ∧ (match rdMem (spJobs 0x03 0 0 id) j (regionAt j.rd 0) 0x100 16 with | .ok bs => bs.length == 16 | _ => false) = true
    ∧ countElems false 0 0 es = (0, es, false) := by decide
/-- A collective of this job alone; an image of a gather whose page is near. -/
theorem met_parts : let s := { spJobs 0x20 9 0x10000 id with colls := [{ ctx := 0, fn := 0x20, id := 9, rank := 0, data := List.replicate 32 0, job := some 1 }] }
    let j := spJob 0x20 9 0x10000
    collSize j.card = 1 ∧ allIn (s.parts j) 1 = true ∧ (partOf (s.parts j) 0).map List.length = some 32 ∧ j.busy = true
    ∧ fld (cardP1 j.card) 63 48 = 0 := by decide
def gJob : Job :=
  { spJob 0x10 0 0 with kind := kGATHER, rd := [⟨false, some 2, 0, 0⟩], wr := [⟨true, none, 0x40, 163840⟩], imgs := [⟨some 0, false, false, 0, 0⟩] }
theorem met_gather : let s := { catBench with jobs := [gJob] }
    (gJob.gpool s).map (fun x => x.1) = some 2 ∧ gJob.imgs ≠ []
    ∧ (match gJob.gpool s with
      | some (_, p) => (match gatherNext s gJob p (gImage gJob.card p / 16) with | .fill k x slot => k == 0 && x == 0 && slot == 0 | _ => false)
          && p.frame 0 0 == 0x3000 && gOffset gJob.card p 0 == 0
      | none => false) = true := by decide

/-- A page operation on entry 1 of the catalogue: of page 0, which is being filled; the same, resident, to another tier. -/
def pgCard (op x : Nat) : List Byte :=
  toBytes 32 op ++ List.replicate 128 0 ++ toBytes 4 1 ++ toBytes 4 x ++ List.replicate 8 0 ++ toBytes 8 0x1000 ++ toBytes 4 1 ++ List.replicate 68 0
def pgJob (op x : Nat) : Job :=
  { aJob kPAGEENG .running (pgCard op x) with inst := 2, rd := [⟨false, none, 0x1000, 128⟩] }
theorem met_page_op : let s := { catBench with jobs := [pgJob 0x42 0] }
    let j := pgJob 0x42 0
    j.card.length = 256 ∧ cardOp j.card = 0x42 ∧ j.entries = [1] ∧ cardB j.card 16 8 = 0x1000 ∧ cardB (pgCard 0x40 1) 4 4 = 1
    ∧ covers j.rd 0x1000 16 = true ∧ covers j.rd (catEntry 0x1000 1) 8 = true
    ∧ (match (s.ctx 0).pool? 2, s.catHdr (jobWho j false) 0x1000 with
      | some p, (s1, .ok h) => h.cmax == 2 && h.pool == 2 && (match s1.catRead (jobWho j false) 0x1000 1 with
        | (s2, .ok e) => eValid e && ePage e == 0 && !s2.earlierOp 0 2 0 1 && (match s2.pageRec 0 p 0 with
          | .ok r => r.ref < 65535 && r.st == pFilling && r.tier == 0 && r.pin == 0 | _ => false)
        | _ => false)
      | _, _ => false) = true := by decide
def farBench (st : Nat) : State :=
  (catBench.putDwords [(benchPage + 0x2000, st * 2 ^ 60)]).onCtx 0 fun x => { x with pools := [Pool.none, Pool.none, { poolTwo with nf := 1, far := 0x6000 }] }
theorem met_page_move : let s := farBench pResident
    (match (s.ctx 0).pool? 2 with
    | some p => s.freeFrame 0 2 p 1 == some 0 && (s.tableFault 0 p).isNone && s.pins == []
        && (match s.pageRec 0 p 0 with | .ok r => r.st == pResident && r.tier == 0 && r.pin == 0 | _ => false)
    | none => false) = true := by decide
/-- The last granule of a page-in. -/
theorem met_page_in : let c : PageCopy := ⟨0, 2, 0, .pageIn, (1, 0), (0, 0), none, none, 0, 0, 319⟩
    let s := { farBench pFar with copies := [c] }
    (match (s.ctx 0).pool? 2 with
    | some p => p.pg == 5120 && s.copyLive c && !s.copyHeld c && (s.copyRecFault p c).isNone
        && (match s.locate (agent 0) { space := .gl, bytes := 16, acc := .r } (BitVec.ofNat 64 (p.frame 1 0 + 16 * 319)) with
          | (s1, .ok l1) => (s1.heldFault (agent 0) l1 16).isNone
              && (match s1.locate (agent 0) { space := .gl, bytes := 16, acc := .w } (BitVec.ofNat 64 (p.frame 0 0 + 16 * 319)) with
                | (s2, .ok l2) => (s2.heldFault (agent 0) l2 16).isNone | _ => false)
          | _ => false)
    | none => false) = true := by decide
/-- Submitted jobs: one with an edge, one whose predecessor failed, one that empties its last granule; one that a save stops. -/
theorem met_edges : let j := fun (f : Job → Job) => f { spJob 0x02 5 7 with st := .submitted, wr := [⟨true, none, 0x40, 16⟩] }
    (j fun x => { x with edges := [2] }).edges ≠ [] ∧ (j id).eoa = none ∧ (j fun x => { x with eoa := some 0 }).eoa = some 0
    ∧ (eoaPlaces (j id)).drop 0 = [(true, 0x40)] ∧ (j id).ended = false
    ∧ { ctxAt .saving with jobs := [aJob kCOPY .running (toBytes 256 2)] }.saveStop (aJob kCOPY .running (toBytes 256 2)) = true := by decide

/-- MemoryEvents: lane 5 owes a replay of the ordered atomic, and is made before the others. -/
theorem met_owed : let s := (tokenBench ordAtom).onGrp 0 fun g => { g with redo := lane1 5, redoPc := 0 }
    ordAtom.pc = (s.grp 0).redoPc ∧ lanesOf (ordAtom.todo &&& (s.grp 0).owed) = [5] ∧ (s.grp 0).nextOrd = some ordAtom := by decide

end

end Sys2Proof.Tests
end

