-- ==== Sys2Proof/Proofs/Encoding.lean ====
section
/-! PROOFS. How the decoder reads the words that the encoder writes (R25, R34 to R41), and with it O51 and O50. -/
namespace Sys2Proof

/-! ### Fields of a concatenation, as rules for `simp`

The width of a concatenation is a sum that `simp` evaluates, so the rules leave it out of what they match. -/

section
variable {n m : Nat} (a : BitVec n) (b : BitVec m)

@[simp] theorem extractLsb'_append_high (s l : Nat) (h : m ≤ s) :
    (@HAppend.hAppend (BitVec n) (BitVec m) (no_index (BitVec (n + m))) _ a b).extractLsb' s l = a.extractLsb' (s - m) l :=
  extract_high a b s l h

@[simp] theorem extractLsb'_append_low (s l : Nat) (h : s + l ≤ m) :
    (@HAppend.hAppend (BitVec n) (BitVec m) (no_index (BitVec (n + m))) _ a b).extractLsb' s l = b.extractLsb' s l :=
  extract_low a b s l h

@[simp] theorem extractLsb'_self : a.extractLsb' 0 n = a := extract_all a

@[simp] theorem getElem_append_high (s : Nat) (hs : s < n + m) (h : m ≤ s) :
    (@HAppend.hAppend (BitVec n) (BitVec m) (no_index (BitVec (n + m))) _ a b)[s] = a[s - m] := by
  simp [BitVec.getElem_append, Nat.not_lt.mpr h]

@[simp] theorem getElem_append_low (s : Nat) (hs : s < n + m) (h : s < m) :
    (@HAppend.hAppend (BitVec n) (BitVec m) (no_index (BitVec (n + m))) _ a b)[s] = b[s] := by
  simp [BitVec.getElem_append, h]

/-- No bit of `k` is set in `w`: how the decoder asks for reserved bits (R34). -/
def noneOf {n : Nat} (w k : BitVec n) : Bool := w &&& k == 0#n

@[simp] theorem and_beq_zero (w k : Word) : (w &&& k == 0#32) = noneOf w k := rfl

@[simp] theorem noneOf_zero : noneOf a 0#n = true := by simp [noneOf]

@[simp] theorem noneOf_literal (x y : Nat) :
    noneOf (BitVec.ofNat n x) (BitVec.ofNat n y) = (BitVec.ofNat n x &&& BitVec.ofNat n y == 0#n) := rfl

theorem noneOf_iff (w k : BitVec n) : noneOf w k = true ↔ ∀ i, k.getLsbD i = true → w.getLsbD i = false := by
  simp only [noneOf, beq_iff_eq]
  constructor
  · intro h i hk
    simpa [hk] using congrArg (·.getLsbD i) h
  · intro h
    ext i hi
    cases hk : k.getLsbD i <;> simp_all [← BitVec.getLsbD_eq_getElem]

@[simp] theorem noneOf_append (k : BitVec (n + m)) :
    noneOf (@HAppend.hAppend (BitVec n) (BitVec m) (no_index (BitVec (n + m))) _ a b) k
      = (noneOf a (k.extractLsb' m n) && noneOf b (k.extractLsb' 0 m)) := by
  rw [Bool.eq_iff_iff]
  simp only [Bool.and_eq_true, noneOf_iff, BitVec.getLsbD_extractLsb', BitVec.getLsbD_append, Nat.zero_add]
  constructor
  · intro h
    exact ⟨fun i hi => by simpa using h (m + i) (by simp_all), fun i hi => by have := h i; simp_all⟩
  · rintro ⟨ha, hb⟩ i hi
    by_cases hm : i < m
    · simpa [hm] using hb i (by simp [hm, hi])
    · have hn := BitVec.lt_of_getLsbD hi
      simpa [hm] using ha (i - m) (by simp [show m + (i - m) = i by omega, hi]; omega)

end

/-! ### An instruction's own word: chain bit, class, guard and 24 bits of payload (R25) -/

def ownWord (h : Hdr) (k : BitVec 5) (p : BitVec 24) : Word := BitVec.ofBool h.c ++ (k ++ (h.g ++ p))

section
variable (h : Hdr) (k : BitVec 5) (p : BitVec 24)

@[simp] theorem ownWord_class : (ownWord h k p).extractLsb' 26 5 = k := class_of_word h.c k h.g p

@[simp] theorem ownWord_extractLsb' (s l : Nat) (hs : s + l ≤ 24) : (ownWord h k p).extractLsb' s l = p.extractLsb' s l := by
  simp (disch := omega) only [ownWord, extract_low]

theorem ownWord_getLsbD (s : Nat) (hs : s < 24) : (ownWord h k p).getLsbD s = p.getLsbD s := by
  simp (disch := omega) only [ownWord, bit_low]

@[simp] theorem ownWord_getElem (s : Nat) (hw : s < 32) (hs : s < 24) : (ownWord h k p)[s] = p[s] := by
  simpa [BitVec.getLsbD_eq_getElem, hw, hs] using ownWord_getLsbD h k p s hs

@[simp] theorem noneOf_ownWord (x : Nat) (hx : x < 2 ^ 24) :
    noneOf (ownWord h k p) (BitVec.ofNat 32 x) = noneOf p (BitVec.ofNat 24 x) := by
  have low {i : Nat} (hi : x.testBit i = true) : i < 24 :=
    (Nat.pow_lt_pow_iff_right (by decide)).mp ((Nat.ge_two_pow_of_testBit hi).trans_lt hx)
  rw [Bool.eq_iff_iff]
  simp only [noneOf_iff, BitVec.getLsbD_ofNat, Bool.and_eq_true, decide_eq_true_eq]
  constructor
  · rintro w i ⟨hi, hb⟩
    exact ownWord_getLsbD h k p i hi ▸ w i ⟨by omega, hb⟩
  · rintro w i ⟨-, hb⟩
    exact ownWord_getLsbD h k p i (low hb) ▸ w i ⟨low hb, hb⟩

end

/-! ### The map of each class reads what the encoder writes for it -/

/-- An instruction's words are its LIMM word, if it has one, its own word and the second word that its form may have (R25, R27, R36), and
the map of its class reads the instruction from them. -/
def ReadsBack (h : Hdr) (i : Instr) : Prop :=
  ∃ k p ext, encode i = prefixWords h ++ ownWord h k p :: ext ∧ k ≠ 5#5 ∧ (ext.isEmpty || !i.takesLimm && ext.length == 1) = true
    ∧ decodeClass h (ownWord h k p) (ext.getD 0 0) = some (some ⟨i, true, !ext.isEmpty⟩)

noncomputable section

/-- The control and system words: classes SYS, CTL, BRA, CALL and LOOP (R38). -/
def Instr.isControl : Instr → Bool
  | .csrr .. | .csrw .. | .tlbinvPage .. | .tlbinvRange .. | .tlbinvAll .. | .perf .. | .time ..
  | .nop .. | .exit .. | .yield .. | .sleep .. | .region .. | .trap .. | .eret ..
  | .bra .. | .brx ..
  | .call .. | .callRegister .. | .ret ..
  | .loop .. | .loopRegister .. | .lbrk .. => true
  | _ => false

theorem readsBack_control {i : Instr} {h : Hdr} (hi : i.hdr? = some h) (hf : i.isControl = true) : ReadsBack h i := by
  revert hf
  fun_cases Instr.isControl i
  case case23 => exact nofun
  all_goals
    cases hi
    exact fun _ => ⟨_, _, _, rfl, by decide, rfl, by simp [decodeClass, decodeSys, decodeCtl, decodeBra, decodeCall, decodeLoop]⟩

/-- The vector integer words: classes IALU and IALUI (R38). -/
def Instr.isVectorInteger : Instr → Bool
  | .ialuAdd .. | .ialuSub .. | .ialuMul .. | .ialuMulhiN32 .. | .ialuMulhiI32 .. | .ialuMad .. | .ialuDivN32 .. | .ialuDivI32 ..
  | .ialuRemN32 .. | .ialuRemI32 .. | .ialuMinN32 .. | .ialuMinI32 .. | .ialuMaxN32 .. | .ialuMaxI32 .. | .ialuAnd .. | .ialuOr ..
  | .ialuXor .. | .ialuShl .. | .ialuShr .. | .ialuSra .. | .ialuRot .. | .ialuAbs .. | .ialuNeg .. | .ialuNot .. | .ialuClz ..
  | .ialuPopc .. | .ialuBrev .. | .ialuMov .. | .ialuBfxN32 .. | .ialuBfxI32 .. | .ialuBfi .. | .ialuSel .. | .ialuLea .. | .ialuWid ..
  | .ialuEscape64 ..
  | .ialuiAdd .. | .ialuiSub .. | .ialuiMul .. | .ialuiMinN32 .. | .ialuiMinI32 .. | .ialuiMaxN32 .. | .ialuiMaxI32 .. | .ialuiAnd ..
  | .ialuiOr .. | .ialuiXor .. | .ialuiShl .. | .ialuiShr .. | .ialuiSra .. | .ialuiRot .. | .ialuiLi .. => true
  | _ => false

theorem readsBack_vectorInteger {i : Instr} {h : Hdr} (hi : i.hdr? = some h) (hf : i.isVectorInteger = true) : ReadsBack h i := by
  revert hf
  fun_cases Instr.isVectorInteger i
  case case51 => exact nofun
  all_goals
    cases hi
    exact fun _ => ⟨_, _, _, rfl, by decide, rfl, by simp [decodeClass, decodeIalu, decodeIalui]⟩

/-- The scalar integer words: classes SALU and SALUI (R38). -/
def Instr.isScalarInteger : Instr → Bool
  | .saluAdd .. | .saluSub .. | .saluMul .. | .saluMulhiN32 .. | .saluMulhiI32 .. | .saluMad .. | .saluDivN32 .. | .saluDivI32 ..
  | .saluRemN32 .. | .saluRemI32 .. | .saluMinN32 .. | .saluMinI32 .. | .saluMaxN32 .. | .saluMaxI32 .. | .saluAnd .. | .saluOr ..
  | .saluXor .. | .saluShl .. | .saluShr .. | .saluSra .. | .saluRot .. | .saluAbs .. | .saluNeg .. | .saluNot .. | .saluClz ..
  | .saluPopc .. | .saluBrev .. | .saluMov .. | .saluBfxN32 .. | .saluBfxI32 .. | .saluBfi .. | .saluLea .. | .saluWid ..
  | .saluEscape64 ..
  | .saluiAdd .. | .saluiSub .. | .saluiMul .. | .saluiMinN32 .. | .saluiMinI32 .. | .saluiMaxN32 .. | .saluiMaxI32 .. | .saluiAnd ..
  | .saluiOr .. | .saluiXor .. | .saluiShl .. | .saluiShr .. | .saluiSra .. | .saluiRot .. | .saluiLi .. => true
  | _ => false

theorem readsBack_scalarInteger {i : Instr} {h : Hdr} (hi : i.hdr? = some h) (hf : i.isScalarInteger = true) : ReadsBack h i := by
  revert hf
  fun_cases Instr.isScalarInteger i
  case case50 => exact nofun
  all_goals
    cases hi
    exact fun _ => ⟨_, _, _, rfl, by decide, rfl, by simp [decodeClass, decodeSalu, decodeSalui]⟩

/-- The float words and conversions: classes FALU, FMA, SFU and CVT (R38). -/
def Instr.isFloat : Instr → Bool
  | .fadd .. | .fsub .. | .fmul .. | .fmin .. | .fmax .. | .fneg .. | .fabs .. | .fscl .. | .fclass .. | .frnd .. | .faluEscape ..
  | .ffma ..
  | .fexp2 .. | .flog2 .. | .frcp .. | .frsq .. | .fsqrt .. | .fsin .. | .fcos .. | .ftanh .. | .ferf ..
  | .cvt .. | .qnt .. | .dq .. | .pack .. | .unpack .. => true
  | _ => false

theorem readsBack_float {i : Instr} {h : Hdr} (hi : i.hdr? = some h) (hf : i.isFloat = true) : ReadsBack h i := by
  revert hf
  fun_cases Instr.isFloat i
  case case27 => exact nofun
  all_goals
    cases hi
    exact fun _ => ⟨_, _, _, rfl, by decide, rfl, by simp [decodeClass, decodeFalu, decodeFma, decodeSfu, decodeCvt]⟩

/-- The compares, cross-lane and mask words: classes CMP, XLANE and MASK (R38). -/
def Instr.isLane : Instr → Bool
  | .cmpEq .. | .cmpNe .. | .cmpLtI32 .. | .cmpLeI32 .. | .cmpGtI32 .. | .cmpGeI32 .. | .cmpLtN32 .. | .cmpLeN32 .. | .cmpGtN32 ..
  | .cmpGeN32 .. | .fcmpEq .. | .fcmpNe .. | .fcmpLt .. | .fcmpLe .. | .fcmpGt .. | .fcmpGe .. | .fcmpUn .. | .fcmpOrd ..
  | .vote .. | .shfl .. | .push .. | .bcast .. | .scan .. | .red .. | .elect .. | .topk .. | .hist .. | .rng .. | .walk ..
  | .join .. | .leave .. | .wait .. | .trywait .. | .mset .. | .mmov .. | .mand .. | .mor .. | .mxor .. | .mnot .. | .mpop .. => true
  | _ => false

theorem readsBack_lane {i : Instr} {h : Hdr} (hi : i.hdr? = some h) (hf : i.isLane = true) : ReadsBack h i := by
  revert hf
  fun_cases Instr.isLane i
  case case41 => exact nofun
  all_goals
    cases hi
    exact fun _ => ⟨_, _, _, rfl, by decide, rfl, by simp [decodeClass, decodeCmp, decodeXlane, decodeMask]⟩

/-- The memory words: classes LD, ST, ATOM and MEMCTL (R38). -/
def Instr.isMemory : Instr → Bool
  | .ldN8 .. | .ldI8 .. | .ldN16 .. | .ldI16 .. | .ld32 .. | .ld64 .. | .ld128 .. | .ldfe32 .. | .ldfe64 .. | .ldfe128 .. | .ldfeClr32 ..
  | .ldfeClr64 .. | .ldfeClr128 ..
  | .st8 .. | .st16 .. | .st32 .. | .st64 .. | .st128 .. | .stfe32 .. | .stfe64 .. | .stfe128 ..
  | .atomAdd .. | .atomMinI .. | .atomMinN .. | .atomMaxI .. | .atomMaxN .. | .atomAnd .. | .atomOr .. | .atomXor .. | .atomXchg ..
  | .atomCas .. | .atomInc .. | .atomIncb .. | .aadd .. | .ordend ..
  | .lock .. | .unlock .. | .pref .. | .fenceSys .. | .fenceWin .. | .waitc .. | .acq .. | .rel .. => true
  | _ => false

theorem readsBack_memory {i : Instr} {h : Hdr} (hi : i.hdr? = some h) (hf : i.isMemory = true) : ReadsBack h i := by
  revert hf
  fun_cases Instr.isMemory i
  case case44 => exact nofun
  all_goals
    cases hi
    exact fun _ => ⟨_, _, _, rfl, by decide, rfl, by simp [decodeClass, decodeLd, decodeSt, decodeAtom, decodeMemctl]⟩

/-- The matrix, wave and ring words: classes MMA, TILE, WAVE and RING (R38). -/
def Instr.isTile : Instr → Bool
  | .mmaE2m1 .. | .mmaE4m3 .. | .mmaE5m2 .. | .mmaE3m2 .. | .mmaE2m3 .. | .mmaI8 .. | .mmaBf16 .. | .mmaF16 ..
  | .acz .. | .acanch .. | .acanchScalar .. | .acvt .. | .acld .. | .acst .. | .gang .. | .tgset .. | .tgget ..
  | .wvf .. | .wvi .. | .stw .. | .ldw .. | .wthr ..
  | .board .. | .bwait .. | .btry .. | .bfree .. | .lapr .. => true
  | _ => false

theorem readsBack_tile {i : Instr} {h : Hdr} (hi : i.hdr? = some h) (hf : i.isTile = true) : ReadsBack h i := by
  revert hf
  fun_cases Instr.isTile i
  case case28 => exact nofun
  all_goals
    cases hi
    exact fun _ => ⟨_, _, _, rfl, by decide, rfl, by simp [decodeClass, decodeMma, decodeTile, decodeWave, decodeRing]⟩

/-- The words to other agents: classes CHAN, SEQ, PAGE and BAR (R38). -/
def Instr.isAgent : Instr → Bool
  | .job .. | .send .. | .recv .. | .jstat ..
  | .seqld .. | .seqst .. | .admitSeq .. | .retire .. | .retireMig .. | .tokput .. | .accept .. | .draft .. | .stopck .. | .ckpt ..
  | .pgref .. | .pgcow .. | .pgmove .. | .pgpin .. | .pghand .. | .catld .. | .catst ..
  | .bar .. | .barr .. | .barrRem .. | .barw .. | .bart .. | .gbar .. | .phaseRd .. | .phaseArr .. | .phaseInit .. => true
  | _ => false

theorem readsBack_agent {i : Instr} {h : Hdr} (hi : i.hdr? = some h) (hf : i.isAgent = true) : ReadsBack h i := by
  revert hf
  fun_cases Instr.isAgent i
  case case31 => exact nofun
  all_goals
    cases hi
    exact fun _ => ⟨_, _, _, rfl, by decide, rfl, by simp [decodeClass, decodeChan, decodeSeq, decodePage, decodeBar]⟩

/-- The instructions that have words are those of the eight families. -/
theorem hdr_isSome (i : Instr) :
    i.hdr?.isSome = (i.isControl || i.isVectorInteger || i.isScalarInteger || i.isFloat || i.isLane
      || i.isMemory || i.isTile || i.isAgent) := by
  cases i <;> rfl

theorem readsBack {i : Instr} {h : Hdr} (hi : i.hdr? = some h) : ReadsBack h i := by
  have hf := hdr_isSome i
  simp only [hi, Option.isSome_some, eq_comm (a := true), Bool.or_eq_true] at hf
  obtain (((((((hf | hf) | hf) | hf) | hf) | hf) | hf) | hf) := hf
  · exact readsBack_control hi hf
  · exact readsBack_vectorInteger hi hf
  · exact readsBack_scalarInteger hi hf
  · exact readsBack_float hi hf
  · exact readsBack_lane hi hf
  · exact readsBack_memory hi hf
  · exact readsBack_tile hi hf
  · exact readsBack_agent hi hf

/-- An instruction whose form takes no LIMM is well formed only without one (R36). -/
theorem limm_none_of_wf {i : Instr} {h : Hdr} (hw : i.violations = []) (hi : i.hdr? = some h) (ht : i.takesLimm = false) :
    h.limm = none := by
  have hl : i.limmViol = [] := (List.append_eq_nil_iff.mp hw).2
  cases hp : h.limm with
  | none => rfl
  | some _ => simp [Instr.limmViol, viol, hi, ht, hp] at hl

/-- Settles O51: the map of the instruction's class reads it back from its own word, and the decoder reads that word as the map does. -/
theorem decodeOfEncode : Obligations.DecodeOfEncode := by
  unfold Obligations.DecodeOfEncode
  intro i h hw hi
  have hv : i.violations = [] := List.isEmpty_iff.mp hw
  obtain ⟨k, p, ext, he, hk, hx, hd⟩ := readsBack hi
  have hl : ext = [] ∨ i.takesLimm = false ∧ ext.length = 1 := by simpa using hx
  have two : (!ext.isEmpty) = true → h.limm = none := by
    intro h2
    obtain rfl | ⟨ht, -⟩ := hl
    · cases h2
    · exact limm_none_of_wf hv hi ht
  have len : (prefixWords h).length + (if (!ext.isEmpty) = true then 2 else 1) = (encode i).length := by
    obtain rfl | ⟨-, h1⟩ := hl
    · simp [he]
    · obtain ⟨x, rfl⟩ := List.length_eq_one_iff.mp h1
      simp [he]
  rw [← len, he]
  exact decodeAt_word h k p ext ⟨i, true, !ext.isEmpty⟩ hk hd rfl hv two

/-- A word of the spec's examples is the encoder's word of the instruction that its assembly says. -/
def Worked (x : List Word × Instr) : Prop := x.2.wf = true ∧ x.2.hdr?.isSome = true ∧ encode x.2 = x.1

/-- Such a word decodes to that instruction. -/
theorem Worked.decodes {x : List Word × Instr} (hx : Worked x) :
    (decodeAt x.1 0).instr = some x.2 ∧ (decodeAt x.1 0).bad = [] ∧ (decodeAt x.1 0).len = x.1.length ∧ encode x.2 = x.1 := by
  obtain ⟨hw, hi, he⟩ := hx
  obtain ⟨h, hh⟩ := Option.isSome_iff_exists.mp hi
  have hd := decodeOfEncode x.2 h hw hh
  rw [he] at hd
  simp [hd, he]

theorem worked_control : ∀ x ∈ Claims.workedControl, Worked x := by unfold Worked; decide
theorem worked_arithmetic : ∀ x ∈ Claims.workedArithmetic, Worked x := by unfold Worked; decide
theorem worked_memory : ∀ x ∈ Claims.workedMemory, Worked x := by unfold Worked; decide
theorem worked_exchange : ∀ x ∈ Claims.workedExchange, Worked x := by unfold Worked; decide

/-- Settles O50: the words are the encoder's, so O51 decodes them; the all-zero and the all-ones word are evaluated. -/
theorem decodeWords : Obligations.DecodeWords := by
  unfold Obligations.DecodeWords
  refine ⟨?_, by decide, by decide⟩
  simp only [List.forall_mem_cons, List.not_mem_nil, false_imp_iff, implies_true, and_true]
  exact ⟨fun x hx => (worked_control x hx).decodes, fun x hx => (worked_arithmetic x hx).decodes,
    fun x hx => (worked_memory x hx).decodes, fun x hx => (worked_exchange x hx).decodes⟩

end
end Sys2Proof
end

