-- ==== Sys2Proof/Proofs/Packet.lean ====
section
/-! PROOFS. Chains and steps (R22, R29 to R32, R85): O52 and O49. -/
namespace Sys2Proof.Machine
open Sys2Proof.Claims

/-! ### The least of a list of codes -/

theorem leastOf_eq_min? : ∀ l : List Nat, leastOf l = l.min?
  | [] => rfl
  | a :: as => by
    rw [leastOf, leastOf_eq_min? as, List.min?_cons]
    cases as.min? <;> rfl

theorem leastOf_eq_some {l : List Nat} {d : Nat} : leastOf l = some d ↔ d ∈ l ∧ ∀ x ∈ l, d ≤ x := by
  rw [leastOf_eq_min?, List.min?_eq_some_iff]

theorem leastOf_eq_none {l : List Nat} : leastOf l = none ↔ l = [] := by
  rw [leastOf_eq_min?, List.min?_eq_none_iff]

theorem exists_leastOf {l : List Nat} {x : Nat} (h : x ∈ l) : ∃ d, leastOf l = some d ∧ d ≤ x := by
  cases hd : leastOf l with
  | none => simp [leastOf_eq_none.mp hd] at h
  | some d => exact ⟨d, rfl, (leastOf_eq_some.mp hd).2 x h⟩

/-! ### Chains -/

/-- A chain that breaks a rule of R31 raises a code of at most 6. -/
theorem exists_chainViol_le {gs : List Got} (g : Group) (h : chainBroken gs) : ∃ x ∈ chainViol g gs, x ≤ 6 := by
  unfold chainViol
  obtain h | h | h := h
  · exact ⟨4, by simp [h], by decide⟩
  · exact ⟨5, by simp [h], by decide⟩
  · exact ⟨6, by simp [h], by decide⟩

/-- Where no word of it breaks a rule of its own, the chain's own codes are all it raises, and the end's comes first. -/
theorem leastOf_chainViol_of_codes_nil {g : Group} {gs : List Got} (h : chainBroken gs) (hc : ∀ x ∈ gs, Got.codes g x = []) :
    leastOf (chainViol g gs)
      = some (if chainEnds gs then (if ((chainSpecs gs).map WordSpec.pipe).Nodup then 6 else 5) else 4) := by
  have hn : gs.flatMap (Got.codes g) = [] := List.flatMap_eq_nil_iff.mpr hc
  unfold chainViol
  rw [hn, List.nil_append]
  by_cases he : chainEnds gs = true <;> by_cases hp : ((chainSpecs gs).map WordSpec.pipe).Nodup <;>
    by_cases hw : (chainWrites gs).Nodup <;> simp_all [leastOf, chainBroken]

/-- A chain that raises a code raises ILLEGAL with the least, and no word of it is run. -/
theorem issueAt_of_illegal {s : State} {gi : Nat} {pc : Word} {ws : List Word} {d : Nat} :
    let gs := chainAt ws (slotOf pc)
    let v := s.latch gi pc gs.length (chainLen gs)
    leastOf (chainViol v.iss.snap gs) = some d →
      s.issueAt gi pc ws = .next (v.precise cILLEGAL d (chainLanes v.iss.snap v.iss.at_ gs)) := by
  intro gs v hd
  unfold State.issueAt
  dsimp only
  rw [hd]

/-- A chain that breaks no rule runs its instructions in slot order. -/
theorem issueAt_of_legal {s : State} {gi : Nat} {pc : Word} {ws : List Word} :
    let gs := chainAt ws (slotOf pc)
    let u := s.latch gi pc gs.length (chainLen gs)
    leastOf (chainViol u.iss.snap gs) = none →
      (∀ i, gs.filterMap Got.instr = [i] → s.issueAt gi pc ws = exec i u)
      ∧ ∀ is, gs.filterMap Got.instr = is → is.length ≠ 1 → s.issueAt gi pc ws = runChain u is u := by
  intro gs u hd
  unfold State.issueAt
  dsimp only
  rw [hd]
  constructor
  · intro i hi
    rw [hi]
  · intro is hi hl
    rw [hi]
    match is with
    | [] => rfl
    | [_] => exact absurd rfl hl
    | _ :: _ :: _ => rfl

/-- Settles O52: the rule that the chain breaks puts a code of at most 6 among those that the chain raises, and the least of them ends it. -/
theorem chainRules : Obligations.ChainRules := by
  unfold Obligations.ChainRules
  intro s gi pc ws gs v hb
  obtain ⟨x, hx, h6⟩ := exists_chainViol_le v.iss.snap hb
  obtain ⟨d, hd, hle⟩ := exists_leastOf hx
  refine ⟨d, hle.trans h6, hd, fun hc => ?_, issueAt_of_illegal hd⟩
  exact Option.some.inj (hd.symm.trans (leastOf_chainViol_of_codes_nil hb hc))

/-! ### The fetch at the issue PC -/

section
variable {s : State} {gi : Nat} {pc : Word} (hp : ((s.choose gi).grp gi).issuePc = some pc)
include hp

/-- A wait that still stands keeps the group where it is. -/
theorem issue_of_waiting (hw : (((s.choose gi).grp gi).cur.any fun t => t.resume.isSome && ((s.choose gi).grp gi).waitStands t) = true) :
    s.issue gi = .next (s.choose gi) := by
  simp only [State.issue, hp, hw, if_true]

variable (hw : (((s.choose gi).grp gi).cur.any fun t => t.resume.isSome && ((s.choose gi).grp gi).waitStands t) = false)
include hw

/-- No packet of the segment is at the issue PC (R22). -/
theorem issue_outside_segment (hb : ¬(slotOf pc < 3 ∧ pkt pc < (s.choose gi).segment ((s.choose gi).grp gi))) :
    s.issue gi = .next ((s.choose gi).pcFault gi pc) := by
  have hb' : (!(decide (slotOf pc < 3) && decide (pkt pc < (s.choose gi).segment ((s.choose gi).grp gi)))) = true := by
    rw [Bool.not_eq_true', ← Bool.decide_and]; exact decide_eq_false hb
  simp only [State.issue, hp, hw, hb', if_true, Bool.false_eq_true, if_false]

/-- Else what the group's turn does is what the fetch answers (R387, R468). -/
theorem issue_of_fetch (hslot : slotOf pc < 3) (hseg : pkt pc < (s.choose gi).segment ((s.choose gi).grp gi)) :
    (∀ t f, (s.choose gi).packet ((s.choose gi).grp gi) (pkt pc) = (t, .error f) →
      s.issue gi = .next (if f.1 = cHOLD then t else t.fetchFault gi pc f.1 f.2.1 f.2.2))
    ∧ ∀ t ws, (s.choose gi).packet ((s.choose gi).grp gi) (pkt pc) = (t, .ok ws) →
      s.issue gi = if issuable ws (slotOf pc) then t.issueAt gi pc ws else .next (t.pcFault gi pc) := by
  constructor <;> intro t x hf <;>
    simp only [State.issue, hp, hw, hslot, hseg, hf, decide_true, Bool.and_self, Bool.not_true, Bool.false_eq_true, if_false]
end

/-! ### The step -/

section
variable {s0 : State}

theorem step_of_agenda {i : Instr} {is : List Instr} (h : s0.outsideWrites.agenda = i :: is) :
    step s0 = exec i { s0.outsideWrites.tick with agenda := is } := by
  simp only [step, h]

theorem step_of_event {i : Instr} (h : s0.outsideWrites.agenda = []) (hp : s0.outsideWrites.pick = none)
    (hi : s0.outsideWrites.tick.nextEvent = some i) : step s0 = exec i s0.outsideWrites.tick := by
  simp only [step, h, hp, hi]

theorem step_of_idle (h : s0.outsideWrites.agenda = []) (hp : s0.outsideWrites.pick = none)
    (hi : s0.outsideWrites.tick.nextEvent = none) : step s0 = .next s0.outsideWrites.tick := by
  simp only [step, h, hp, hi]

theorem step_of_turn {gi : Nat} (h : s0.outsideWrites.agenda = []) (hp : s0.outsideWrites.pick = some gi)
    (ht : s0.outsideWrites.turn % 2 = 0) : step s0 = s0.outsideWrites.tick.issue gi := by
  simp only [step, h, hp, ht, if_true]
end

/-- Settles O49: the agenda, an event and a group's turn each have their branch of the step, and a turn that of the fetch's answer. -/
theorem stepRunsDecoded : Obligations.StepRunsDecoded := by
  unfold Obligations.StepRunsDecoded
  intro s0 s
  refine ⟨fun i is => step_of_agenda, fun ha hp i => step_of_event ha hp, step_of_idle, fun gi pc ha hp ht => ?_⟩
  intro v hpc
  rw [step_of_turn ha hp ht]
  refine ⟨issue_of_waiting hpc, fun hw => ⟨issue_outside_segment hpc hw, fun hslot hseg => ?_⟩⟩
  obtain ⟨failed, fetched⟩ := issue_of_fetch hpc hw hslot hseg
  refine ⟨fun t cause detail addr => failed t (cause, detail, addr), fun t ws hf => ?_⟩
  rw [fetched t ws hf]
  exact ⟨fun hi => if_neg (by simp [hi]), fun hi hl => by rw [if_pos hi]; exact issueAt_of_legal hl⟩

end Sys2Proof.Machine
end

