-- ==== Sys2Proof/Proofs/Checks.lean ====
section
/-! PROOFS. The checks before a word (R24, R40 to R45, R190, R424): O56 and O57. -/
namespace Sys2Proof.Machine
open Sys2Proof.Claims

noncomputable section

/-! ### How each word runs -/

/-- The words that may break a rule of their own in the state that they are in. -/
def ownsRule : Instr → Bool
  | .eret .. | .csrw .. | .acq .. | .rel .. | .loop .. | .loopRegister .. | .wthr .. | .stw .. => true
  | _ => false

theorem ownRule_eq_none {i : Instr} (s : State) (ho : ownsRule i = false) : ownRule i s = none := by
  cases i with
  | eret | csrw | acq | rel | loop | loopRegister | wthr | stw => cases ho
  | _ => rfl

/-- A word without a rule of its own, but for the `mma` words, runs as `word` says. -/
theorem exec_eq_word {i : Instr} {w : WordSpec} (s : State) (hw : specOf i = some w) (ho : ownsRule i = false) (hm : isMma i = false) :
    ∃ body, exec i s = .next (word w s body) := by
  cases i with
  | eret | csrw | acq | rel | loop | loopRegister | wthr | stw => cases ho
  | mmaE2m1 | mmaE4m3 | mmaE5m2 | mmaE3m2 | mmaE2m3 | mmaI8 | mmaBf16 | mmaF16 => cases hm
  | _ => cases hw <;> exact ⟨_, rfl⟩

/-- A word runs as `wordOwn` says, with its own rule and a body that has no effect where no lane issues. -/
def RunsAs (i : Instr) (w : WordSpec) (s : State) (own : Wctx → State → Option Nat) (body : Wctx → State → Res) : Prop :=
  exec i s = .next (wordOwn w own s body) ∧ own (wctx w.h s) s = ownRule i s
    ∧ (isLoop i = false → lanes w s = 0#32 → body (wctx w.h s) s.advance = .ok s.advance)

theorem thresholdBad_eq (h : Hdr) (s : State) (n : BitVec 3) :
    thresholdBad (wctx h s) n = if (s.iss.snap.wth.getD n.toNat 0).extractLsb' 30 2 = 3#2 then some 0x02 else none :=
  if_congr decide_eq_true_iff rfl rfl

theorem exists_runsAs {i : Instr} {w : WordSpec} (s : State) (hw : specOf i = some w) (hm : isMma i = false) :
    ∃ own body, RunsAs i w s own body := by
  cases ho : ownsRule i with
  | false =>
    obtain ⟨body, hb⟩ := exec_eq_word s hw ho hm
    exact ⟨fun _ _ => none, fun c t => if c.lanes = 0#32 then .ok t else body c t, hb, (ownRule_eq_none s ho).symm, fun _ hl => if_pos hl⟩
  | true =>
    cases i with
    | eret | csrw => cases hw; exact ⟨_, _, rfl, rfl, fun _ hl => if_pos hl⟩
    | acq | rel => cases hw; exact ⟨_, _, rfl, rfl, fun _ hl => if_pos (by simp [show (wctx _ s).lanes = 0#32 from hl])⟩
    | loop | loopRegister => cases hw; exact ⟨_, _, rfl, rfl, nofun⟩
    | wthr => cases hw; exact ⟨_, _, rfl, thresholdBad_eq _ s _, fun _ hl => if_pos hl⟩
    | stw h m a b mode l x sc t n rw =>
      cases hw
      exact ⟨_, _, rfl, by cases t <;> simp [ownRule, thresholdBad_eq], fun _ hl => if_pos hl⟩
    | _ => cases ho

/-! ### The codes of the rules that a word breaks -/

theorem mem_illegalOf {w : WordSpec} {c : Wctx} {own : Option Nat} {d : Nat} :
    d ∈ illegalOf w c own ↔ (d = 0x0a ∧ extBad w c.snap = true) ∨ (d = 0x0e ∧ (w.hnot && c.hm) = true) ∨ own = some d := by
  unfold illegalOf
  cases extBad w c.snap <;> cases w.hnot && c.hm <;> simp

theorem extBad_eq_true {w : WordSpec} {g : Group} : extBad w g = true ↔ ∃ n ∈ w.vr ++ w.vw, g.holds n = false := by
  simp only [extBad, List.any_eq_true, Bool.not_eq_true']

theorem extBad_eq_false {w : WordSpec} {g : Group} : extBad w g = false ↔ ∀ n ∈ w.vr ++ w.vw, g.holds n = true := by
  simp only [extBad, List.any_eq_false, Bool.not_eq_true', Bool.not_eq_false]

/-- The codes of the words' own rules: FUNC, REGNUM, LOOPLEN and MODE. -/
theorem ownRule_code {i : Instr} {s : State} {d : Nat} (h : ownRule i s = some d) : d = 0x02 ∨ d = 0x09 ∨ d = 0x0c ∨ d = 0x0d := by
  cases i with
  | eret | csrw | loop | loopRegister | wthr | stw =>
    simp only [ownRule] at h
    split at h <;> simp_all
  | acq | rel =>
    simp only [ownRule, State.blockBad] at h
    split at h <;> simp_all
  | _ => cases h

/-- A word that may break REGNUM names no vector register, so it does not break EXTREG. -/
theorem vector_eq_nil_of_ownRule {i : Instr} {w : WordSpec} {s : State} (hw : specOf i = some w) (h : ownRule i s = some 0x09) :
    w.vr ++ w.vw = [] := by
  cases i with
  | acq | rel => cases hw; rfl
  | eret | csrw | loop | loopRegister | wthr | stw =>
    simp only [ownRule] at h
    split at h <;> simp_all
  | _ => cases h

/-! ### What stops a word -/

section
variable {i : Instr} {w : WordSpec} {s : State} {own : Wctx → State → Option Nat} {body : Wctx → State → Res}

theorem RunsAs.stops (hr : RunsAs i w s own body) {r : Res} (h : stopped w (wctx w.h s) (ownRule i s) = some r) :
    exec i s = .next (settleRes w (wctx w.h s) s r) := by
  obtain ⟨hx, ho, -⟩ := hr
  rw [hx, wordOwn, ho, h]

theorem RunsAs.unlawful (hr : RunsAs i w s own body) {d : Nat} (hd : d ∈ illegalOf w (wctx w.h s) (ownRule i s))
    (least : ∀ x ∈ illegalOf w (wctx w.h s) (ownRule i s), d ≤ x) : Unlawful i w s d :=
  hr.stops (r := .raise cILLEGAL d) (by rw [stopped, leastOf_eq_some.mpr ⟨hd, least⟩])

theorem illegalOf_eq_nil {c : Wctx} (he : extBad w c.snap = false) (hh : (w.hnot && c.hm) = false) : illegalOf w c none = [] := by
  simp [illegalOf, he, hh]

/-- Of a word that breaks no rule, with lanes, a pending register comes first, then its counter, then what holds a side-effecting word. -/
theorem stopped_of_lawful {c : Wctx} (h : illegalOf w c none = []) (hl : c.lanes ≠ 0#32) :
    stopped w c none = match leastOf (pendingOf w c.snap) with
      | some d => some (.raise cHAZARD d)
      | none => match w.cnt with
        | some k => if 63 ≤ c.now.cnt k then some (.hold (.counter k)) else if w.side then c.sideHold (k = .tl) else none
        | none => if w.side then c.sideHold false else none := by
  rw [stopped, h]
  exact if_neg hl

theorem stopped_of_full {c : Wctx} {k : Cls} (h : illegalOf w c none = []) (hl : c.lanes ≠ 0#32) (hp : pendingOf w c.snap = [])
    (hk : w.cnt = some k) (hf : 63 ≤ c.now.cnt k) : stopped w c none = some (.hold (.counter k)) := by
  simp only [stopped_of_lawful h hl, hp, leastOf, hk, if_pos hf]

theorem stopped_of_side {c : Wctx} (h : illegalOf w c none = []) (hl : c.lanes ≠ 0#32) (hp : pendingOf w c.snap = [])
    (hf : ∀ k, w.cnt = some k → c.now.cnt k < 63) (hs : w.side = true) : stopped w c none = c.sideHold (w.cnt = some .tl) := by
  simp only [stopped_of_lawful h hl, hp, leastOf, hs, if_true]
  cases hk : w.cnt with
  | none => simp
  | some k => simp [Nat.not_le.mpr (hf k hk)]

theorem ownOrd_of_mem {c : Wctx}
    (h : ∃ o ∈ c.now.ops, o.kind.ordered = true ∧ o.todo ≠ 0#32 ∧ c.snap.nextOp ≤ o.id) :
    c.ownOrd = true := by
  simpa [Wctx.ownOrd, and_assoc] using h

end

/-- Settles O56: the word runs as `wordOwn` says, so what stops it is what `stopped` names first. -/
theorem checksBeforeWords : Obligations.ChecksBeforeWords := by
  unfold Obligations.ChecksBeforeWords
  intro i w s hw hm
  obtain ⟨_, _, hr⟩ := exists_runsAs s hw hm
  intro c own
  refine ⟨fun h2 => ?_, fun h2 hn => ?_, fun held => ⟨fun hh hc ho => ?_, fun d ho => ?_, fun hh ho hl => ?_⟩⟩
  · refine hr.unlawful (mem_illegalOf.mpr (.inr (.inr h2))) fun x hx => ?_
    obtain ⟨rfl, -⟩ | ⟨rfl, -⟩ | hx := mem_illegalOf.mp hx
    · decide
    · decide
    · exact (Option.some.inj (h2.symm.trans hx)).le
  · refine hr.unlawful (mem_illegalOf.mpr (.inl ⟨rfl, extBad_eq_true.mpr hn⟩)) fun x hx => ?_
    obtain ⟨rfl, -⟩ | ⟨rfl, -⟩ | hx := mem_illegalOf.mp hx
    · decide
    · decide
    · obtain rfl | rfl | rfl | rfl := ownRule_code hx
      · exact absurd hx h2
      · simp [vector_eq_nil_of_ownRule hw hx] at hn
      · decide
      · decide
  · refine hr.unlawful (mem_illegalOf.mpr (.inr (.inl ⟨rfl, Bool.and_eq_true_iff.mpr ⟨hh, hc⟩⟩))) fun x hx => ?_
    obtain ⟨-, he⟩ | ⟨rfl, -⟩ | hx := mem_illegalOf.mp hx
    · exact absurd he (by rw [extBad_eq_false.mpr held]; nofun)
    · decide
    · exact absurd (ho.symm.trans hx) nofun
  · refine hr.unlawful (mem_illegalOf.mpr (.inr (.inr ho))) fun x hx => ?_
    obtain ⟨-, he⟩ | ⟨rfl, -⟩ | hx := mem_illegalOf.mp hx
    · exact absurd he (by rw [extBad_eq_false.mpr held]; nofun)
    · obtain rfl | rfl | rfl | rfl := ownRule_code ho <;> decide
    · exact (Option.some.inj (ho.symm.trans hx)).le
  · have lawful : illegalOf w c none = [] := illegalOf_eq_nil (extBad_eq_false.mpr held) hh
    have stops {r : Res} (h : stopped w c none = some r) : exec i s = .next (settleRes w c s r) := hr.stops ((show ownRule i s = none from ho) ▸ h)
    refine ⟨fun d hd => ?_, fun hp => ⟨fun k hk hf => stops (stopped_of_full lawful hl hp hk hf),
      fun hf hs => ⟨fun hd => ?_, fun hd hx => ?_⟩⟩⟩
    · rw [stops (r := .raise cHAZARD d) (by rw [stopped_of_lawful lawful hl, hd]), settleRes, if_neg hl]
    · exact stops (by rw [stopped_of_side lawful hl hp hf hs, Wctx.sideHold, if_pos hd])
    · exact stops (by rw [stopped_of_side lawful hl hp hf hs, Wctx.sideHold, if_neg (by simp [hd]), if_pos (ownOrd_of_mem hx)])

/-! ### Words for no lane (R24) -/

section
variable {i : Instr} {w : WordSpec} {s : State}

theorem extBad_of_not_stopped {c : Wctx} (h : stopped w c none = none) : extBad w c.snap = false := by
  by_contra he
  rw [Bool.not_eq_false] at he
  obtain ⟨d, hd, -⟩ := exists_leastOf (mem_illegalOf (own := none) |>.mpr (.inl ⟨rfl, he⟩))
  rw [stopped, hd] at h
  cases h

theorem settleRes_of_no_lane {c : Wctx} {e : State} (hl : c.lanes = 0#32) : settleRes w c s (.ok e) = e.finish := by
  simp [settleRes, hl]

/-- A word that breaks no rule and for which no lane issues leaves what its body does. -/
theorem wordOwn_of_no_lane {own : Wctx → State → Option Nat} {body : Wctx → State → Res} {e : State} (hc : Clear w s)
    (ho : own (wctx w.h s) s = none) (hl : lanes w s = 0#32) (hb : body (wctx w.h s) s.advance = .ok e) :
    wordOwn w own s body = e.finish := by
  rw [wordOwn, ho, show stopped w (wctx w.h s) none = none from hc, hb]
  exact settleRes_of_no_lane hl

/-- The `mma` words, whose checks have an order of their own (R217). -/
theorem exec_eq_mmaWord (s : State) (hw : specOf i = some w) (hm : isMma i = true) :
    ∃ f h reuse acc a b sa sel bsp clr, w = mmaSpec h f a b sa ∧ exec i s = .next (mmaWord f h reuse acc a b sa sel bsp clr s) := by
  cases i with
  | mmaE2m1 | mmaE4m3 | mmaE5m2 | mmaE3m2 | mmaE2m3 | mmaI8 | mmaBf16 | mmaF16 =>
    cases hw
    exact ⟨_, _, _, _, _, _, _, _, _, _, rfl, rfl⟩
  | _ => cases hm

theorem mmaWord_of_no_lane {f : MmaFmt} {h : Hdr} {reuse : Bool} {acc : BitVec 3} {a b sa : BitVec 6} {sel : BitVec 2} {bsp clr : Bool}
    (he : extBad (mmaSpec h f a b sa) (wctx h s).snap = false) (hl : (wctx h s).lanes = 0#32) :
    mmaWord f h reuse acc a b sa sel bsp clr s = s.advance.finish := by
  simp only [mmaWord, he, hl, Bool.false_eq_true, if_false, if_true]
  exact settleRes_of_no_lane hl

/-- The lanes of a `loop` for no lane go past its body (R111). -/
theorem loopWord_of_no_lane {h : Hdr} {l : BitVec 2} {n : BitVec 8} {sr : List Nat} {count : Wctx → Word}
    (hc : Clear (specLoop h l sr) s)
    (ho : (if loopBad (wctx h s).snap l.toNat n.toNat (pkt s.iss.pc + n.toNat) then some 0x0c else none) = none)
    (hl : lanes (specLoop h l sr) s = 0#32) :
    loopWord h l n sr count s = (s.advance.onGrp s.iss.gi fun g => g.onLanes s.iss.at_ fun _ x =>
      if x.st = .runnable then { x with pcv := mkPc (pkt s.iss.pc + n.toNat + 1) 0 } else x).finish := by
  have past : (wctx (specLoop h l sr).h s).at_ &&& ~~~(wctx (specLoop h l sr).h s).lanes = s.iss.at_ := by
    rw [show (wctx (specLoop h l sr).h s).lanes = 0#32 from hl]
    exact BitVec.and_allOnes
  refine (wordOwn_of_no_lane hc ho hl (if_pos hl)).trans ?_
  rw [past]
  rfl

end

/-- Settles O57: the body of a word but a `loop` has no effect where no lane issues, and an `mma` ends before it looks for its gang. -/
theorem wordsForNoLane : Obligations.WordsForNoLane := by
  unfold Obligations.WordsForNoLane
  intro i w s hw hc ho hl
  refine ⟨fun hloop => ?_, ?_⟩
  · cases hm : isMma i with
    | true =>
      obtain ⟨f, h, reuse, acc, a, b, sa, sel, bsp, clr, rfl, hx⟩ := exec_eq_mmaWord s hw hm
      rw [hx, mmaWord_of_no_lane (extBad_of_not_stopped hc) hl]
    | false =>
      obtain ⟨_, _, hx, hown, hbody⟩ := exists_runsAs s hw hm
      rw [hx, wordOwn_of_no_lane hc (hown.trans ho) hl (hbody hloop hl)]
  · rintro h l n k a (rfl | rfl) <;> cases hw <;> exact next_congr (loopWord_of_no_lane hc ho hl)

end
end Sys2Proof.Machine
end

