-- ==== Sys2Proof/Proofs/Operations.lean ====
section
/-! PROOFS. Memory words start operations (R162 to R176, R190): O15. -/
namespace Sys2Proof.Machine
open Sys2Proof.Claims

noncomputable section

/-! ### The words of each table run as the one word of their kind -/

theorem exec_of_mem_loads : ∀ x ∈ loads, ∀ (h : Hdr) (mode : BitVec 2) (d a b : BitVec 6) (s : State),
    exec (x.2.2.2.2 h mode d a b) s = .next (loadWord h mode d a b x.1 x.2.1 x.2.2.1 x.2.2.2.1 s) := by
  simp only [loads, List.forall_mem_cons, List.not_mem_nil, false_imp_iff, implies_true, and_true]
  and_intros <;> intros <;> rfl

theorem exec_of_mem_stores : ∀ x ∈ stores, ∀ (h : Hdr) (mode : BitVec 2) (d a b : BitVec 6) (s : State),
    exec (x.2.2 h mode d a b) s = .next (storeWord h mode d a b x.1 x.2.1 s) := by
  simp only [stores, List.forall_mem_cons, List.not_mem_nil, false_imp_iff, implies_true, and_true]
  and_intros <;> intros <;> rfl

theorem exec_of_mem_atoms : ∀ x ∈ atoms, ∀ (h : Hdr) (m : Bool) (d a b : BitVec 6) (mode : BitVec 2) (sr : BitVec 6) (scope : BitVec 2)
    (w rt bs : Bool) (s : State), x.1 ≠ .cas
      ∧ exec (x.2 h m d a b mode sr scope w rt bs) s = .next (atomWord x.1 h m d a b mode sr scope w rt 0#6 bs false s) := by
  simp only [atoms, List.forall_mem_cons, List.not_mem_nil, false_imp_iff, implies_true, and_true]
  and_intros <;> intros <;> exact ⟨nofun, rfl⟩

theorem State.advance_det (s : State) (g : Group) : s.advance.det g = s.det g := by
  simp [State.det]

/-! ### What each starts -/

section
variable {i : Instr} {h : Hdr} {mode : BitVec 2} {d a b : BitVec 6} {s : State}

theorem does_load {bytes : Nat} {signed fe clr : Bool} (hx : exec i s = .next (loadWord h mode d a b bytes signed fe clr s))
    (hp : partialHaar (wctx h s) (dataRun bytes d) = false) :
    Does i (specLd h bytes mode d a b) s (s.advance.startMem (wctx h s) .ld
      (.load bytes signed (spaceOf mode) d.toNat fe clr (addrOf (wctx h s) h mode a b)) (dataRun bytes d)) :=
  does_of hx (if_neg (Bool.eq_false_iff.mp hp))

theorem raises_load {bytes : Nat} {signed fe clr : Bool} (hx : exec i s = .next (loadWord h mode d a b bytes signed fe clr s))
    (hp : partialHaar (wctx h s) (dataRun bytes d) = true) : Raises i (specLd h bytes mode d a b) s cDOMAIN 2 :=
  raises_of hx (if_pos hp)

variable {f : AtomFn} {m : Bool} {sr : BitVec 6} {scope : BitVec 2} {w rt : Bool} {cr : BitVec 6} {bs cs : Bool}

/-- The operands of an atomic. -/
def specOfAtom (f : AtomFn) (h : Hdr) (d a b : BitVec 6) (mode : BitVec 2) (sr : BitVec 6) (w rt bs cs : Bool) (cr : BitVec 6) : WordSpec :=
  specAtom h d a b mode sr w rt bs (f != .inc) (f = .cas) cs cr

variable (hx : exec i s = .next (atomWord f h m d a b mode sr scope w rt cr bs cs s))
include hx

theorem does_atom (hp : partialHaar (wctx h s) (atomRun w rt d) = false) (ht : (m && s.det (wctx h s).snap && (wctx h s).snap.tokenDone) = false) :
    Does i (specOfAtom f h d a b mode sr w rt bs cs cr) s (s.advance.startMem (wctx h s) (if rt then .ld else .st)
      (atomOp f (wctx h s) h (m && s.det (wctx h s).snap) d a b mode sr scope w rt cr bs cs) (atomRun w rt d)) := by
  refine does_of hx ?_
  rw [← s.advance_det] at ht ⊢
  refine (if_neg (Bool.eq_false_iff.mp hp)).trans ((if_neg (Bool.eq_false_iff.mp ht)).trans ?_)
  cases f <;> rfl

theorem raises_atom_token (hp : partialHaar (wctx h s) (atomRun w rt d) = false)
    (ht : (m && s.det (wctx h s).snap && (wctx h s).snap.tokenDone) = true) :
    Raises i (specOfAtom f h d a b mode sr w rt bs cs cr) s cTOKEN 1 := by
  refine raises_of hx ?_
  rw [← s.advance_det] at ht
  exact (if_neg (Bool.eq_false_iff.mp hp)).trans (if_pos ht)

theorem raises_atom_domain (hp : partialHaar (wctx h s) (atomRun w rt d) = true) :
    Raises i (specOfAtom f h d a b mode sr w rt bs cs cr) s cDOMAIN 2 :=
  raises_of hx (if_pos hp)

end

theorem specOfAtom_of_ne_cas {f : AtomFn} (hf : f ≠ .cas) (h : Hdr) (d a b : BitVec 6) (mode : BitVec 2) (sr : BitVec 6) (w rt bs : Bool) :
    specOfAtom f h d a b mode sr w rt bs false 0#6 = specAtom h d a b mode sr w rt bs (f != .inc) false false 0#6 := by
  rw [specOfAtom, decide_eq_false hf]

/-- `ordend` sets the token-done mark in deterministic mode (R175). -/
theorem does_ordend (h : Hdr) (s : State) : Does (.ordend h) (specOrdend h) s
    (if s.det (wctx h s).snap then group s fun g => { g with tokenDone := true } else s.advance) := by
  refine does_of rfl ?_
  rw [s.advance_det]
  rfl

/-- Settles O15: each table's words run as the load, the store and the atomic that their bodies start. -/
theorem memoryWords : Obligations.MemoryWords := by
  unfold Obligations.MemoryWords
  refine ⟨fun x hx h mode d a b s => ?_, fun x hx h mode d a b s => ?_, fun h m d a b mode sr scope w rt cr bs cs s => ?_⟩
  · exact ⟨does_load (exec_of_mem_loads x hx ..), raises_load (exec_of_mem_loads x hx ..)⟩
  · exact does_of (exec_of_mem_stores x hx ..) rfl
  · intro c ord cls run
    have atom (x) (hx : x ∈ atoms) := exec_of_mem_atoms x hx h m d a b mode sr scope w rt bs s
    have cas : exec (.atomCas h m d a b mode sr scope w rt cr bs cs) s = .next (atomWord .cas h m d a b mode sr scope w rt cr bs cs s) := rfl
    refine ⟨fun hp ht => ⟨fun x hx => ?_, does_atom (f := .cas) cas hp ht⟩, fun hp ht x hx => ?_,
      fun hp ht => raises_atom_token (f := .cas) cas hp ht,
      fun hp => ⟨fun x hx => ?_, raises_atom_domain (f := .cas) cas hp⟩, does_of rfl rfl, does_ordend h s⟩
    all_goals
      obtain ⟨hf, he⟩ := atom x hx
      rw [← specOfAtom_of_ne_cas hf]
    · exact does_atom he hp ht
    · exact raises_atom_token he hp ht
    · exact raises_atom_domain he hp

end
end Sys2Proof.Machine
end

