-- ==== Sys2Proof/Proofs/Control.lean ====
section
/-! PROOFS. The mask and control words (R95 to R113): O9 to O12. -/
namespace Sys2Proof.Machine
open Sys2Proof.Claims

noncomputable section

/-! ### One group changed -/

theorem State.onGrp_congr {s : State} {gi : Nat} {f f' : Group → Group} (h : f (s.grp gi) = f' (s.grp gi)) : s.onGrp gi f = s.onGrp gi f' :=
  congrArg (s.setGrp gi) h

/-- What a change of one group keeps of every group it keeps of the state's groups. -/
theorem State.grp_onGrp_same {α : Type} (e : Group → α) {s : State} {gi : Nat} {f : Group → Group} (h : e (f (s.grp gi)) = e (s.grp gi))
    (k : Nat) : e ((s.onGrp gi f).grp k) = e (s.grp k) := by
  by_cases hk : gi = k
  · subst hk
    by_cases hl : gi < s.groups.length
    · rw [s.grp_onGrp gi f hl, h]
    · rw [State.onGrp, State.setGrp, List.set_eq_of_length_le (Nat.le_of_not_lt hl)]
  · rw [State.onGrp, s.grp_setGrp_ne gi k _ hk]

/-! ### The state while the lanes advance -/

@[simp] theorem State.advance_iss (s : State) : s.advance.iss = { s.iss with advanced := true } := by
  unfold State.advance
  split
  · rename_i h
    simp [← h]
  · rfl

@[simp] theorem State.advance_segment (s : State) (g : Group) : s.advance.segment g = s.segment g := by
  rw [State.segment, State.advance_kernels, State.segment]

theorem State.grp_withIss (s : State) (i : Issue) (k : Nat) : ({ s with iss := i } : State).grp k = s.grp k := rfl

theorem State.advance_grp_same {α : Type} (e : Group → α) (s : State) (k : Nat) (hh : ∀ (g : Group) p, e { g with hpc := p } = e g)
    (hl : ∀ (g : Group) ls f, e (g.onLanes ls f) = e g) : e (s.advance.grp k) = e (s.grp k) := by
  unfold State.advance
  split
  · rfl
  · rw [State.grp_withIss, State.grp_onGrp_same e]
    split
    · exact hh _ _
    · exact hl _ _ _

@[simp] theorem State.advance_groups_length (s : State) : s.advance.groups.length = s.groups.length := by
  unfold State.advance
  split
  · rfl
  · exact List.length_set

/-! ### Words with a rule of their own -/

/-- A word that keeps its own rule, is let through and opens no region ends its chain on what its body leaves. -/
theorem moves_of_own {i : Instr} {w : WordSpec} {s e : State} {own : Wctx → State → Option Nat} {body : Wctx → State → Res}
    (hx : exec i s = .next (wordOwn w own s body)) (ho : own (wctx w.h s) s = none) (hs : w.side = false)
    (hb : lanes w s ≠ 0#32 → body (wctx w.h s) s.advance = .ok e) : Moves i w s e := by
  intro hc hl
  have opens : opened w s e = e := by rw [opened, hs]; rfl
  rw [hx, wordOwn, ho, show stopped w (wctx w.h s) none = none from hc]
  dsimp only
  rw [hb hl, settle_ok hl, opens]

/-- A word without vector registers whose own rule, of a code up to that of HNOT, is broken (R41). -/
theorem unlawful_of_ownRule {i : Instr} {w : WordSpec} {s : State} {d : Nat} (hw : specOf i = some w) (hm : isMma i = false)
    (hv : w.vr ++ w.vw = []) (ho : ownRule i s = some d) (hd : d ≤ 0x0e) : Unlawful i w s d := by
  obtain ⟨own, body, hr⟩ := exists_runsAs s hw hm
  refine hr.unlawful (mem_illegalOf.mpr (.inr (.inr ho))) fun x hx => ?_
  obtain ⟨-, he⟩ | ⟨rfl, -⟩ | hx := mem_illegalOf.mp hx
  · simp [extBad, hv] at he
  · exact hd
  · exact (Option.some.inj (ho.symm.trans hx)).le

/-! ### Mask words (R90, R95, R97, R100) -/

/-- Settles O9: each mask word ends as its body says. -/
theorem maskWords : Obligations.MaskWords := by
  unfold Obligations.MaskWords
  intro h d a b s c g
  refine ⟨does_of rfl rfl, does_of rfl rfl, does_of rfl rfl, does_of rfl rfl, does_of rfl rfl, ?_⟩
  simp only [List.forall_mem_cons, List.not_mem_nil, false_imp_iff, implies_true, and_true]
  exact ⟨does_of rfl rfl, does_of rfl rfl, does_of rfl rfl, does_of rfl rfl⟩

/-! ### Control words (R98, R99, R114, R115) -/

/-- The region that a `region` of main code opens (R115). -/
theorem opened_region {h : Hdr} {s : State} (hm : (wctx h s).hm = false) :
    opened (specRegion h) s s.advance = s.advance.onGrp s.iss.gi fun g =>
      { g.onLanes (lanes (specRegion h) s &&& ~~~newFaults s.iss.gi s s.advance &&& ~~~s.iss.back)
        (fun _ x => { x with rpc := s.iss.next }) with rgn := g.rgn + 1 } := by
  have side : opened (specRegion h) s s.advance = s.advance.region (wctx h s) (newFaults s.iss.gi s s.advance) := if_pos rfl
  rw [side, State.region, if_neg (Bool.eq_false_iff.mp hm), State.advance_iss]
  rfl

/-- Settles O10: each word ends as its body says; a `sleep` by whether anything could wake its group. -/
theorem controlWords : Obligations.ControlWords := by
  unfold Obligations.ControlWords
  refine ⟨fun h m l a b s => ⟨does_of rfl rfl, does_of rfl rfl, does_of rfl rfl, fun hm => ⟨does_of rfl rfl, opened_region hm⟩⟩,
    fun h d a n s => ⟨moves_of rfl rfl fun _ => rfl, moves_of rfl rfl fun _ => rfl, moves_of rfl rfl fun _ => rfl,
      fun awake => ?_, fun idle => ?_⟩⟩
  · refine moves_of rfl rfl fun _ => congrArg Res.ok (State.onGrp_congr ((if_neg (by simpa [wctx] using awake)).trans ?_))
    rw [State.advance_clk]
  · exact moves_of rfl rfl fun _ => congrArg Res.ok (State.onGrp_congr (if_pos (by simpa [wctx] using idle)))

/-! ### Branches and calls (R105 to R108) -/

theorem State.defer_no_lane (s : State) (gi : Nat) (pc : Word) (hm replayAt : Bool) (cause detail : Nat) (addr : Fin 32 → Dword) :
    s.defer gi 0#32 pc hm replayAt cause detail addr = s := if_pos rfl

section
variable {h : Hdr} {sr : List Nat} {target : Wctx → Word} {i : Instr} {s : State} (hx : exec i s = .next (callTo h sr target s))
include hx

theorem moves_call (hp : partialHaar (wctx h s) [31] = false) : Moves i (specCall h sr) s
    ((s.advance.onGrp s.iss.gi fun g => g.putV 31 (wctx h s).lanes fun _ => (wctx h s).next).jump (wctx h s) fun _ => target (wctx h s)) := by
  refine moves_of hx rfl fun _ => ?_
  have link : putLanes (wctx h s) s.advance 31 (fun _ => (wctx h s).next) = .ok _ := if_neg (Bool.eq_false_iff.mp hp)
  rw [show (specCall h sr).h = h from rfl, link]
  rfl

theorem raises_call (hp : partialHaar (wctx h s) [31] = true) : Raises i (specCall h sr) s cDOMAIN 2 := by
  refine raises_of hx ?_
  have link : putLanes (wctx h s) s.advance 31 (fun _ => (wctx h s).next) = .raise cDOMAIN 2 := if_pos hp
  rw [show (specCall h sr).h = h from rfl, link]

end

/-- Settles O11: a call writes its link first; a `brx` faults the lanes whose targets lie outside the segment, or none. -/
theorem branches : Obligations.Branches := by
  unfold Obligations.Branches
  intro h off a s c link
  refine ⟨moves_of rfl rfl fun _ => rfl, moves_of rfl rfl fun _ => rfl, moves_call (target := fun c => relTarget c.pc off) rfl,
    moves_call (target := fun c => mkPc (c.snap.sreg a.toNat).toNat 0) rfl, fun hp => ⟨raises_call rfl hp, raises_call rfl hp⟩, ?_⟩
  intro out dest bad
  have goes : Moves (.brx h a) (specBrx h a) s (dest.defer s.iss.gi bad c.pc c.hm false cILLEGAL 0x0b fun _ => 0) :=
    moves_of rfl rfl fun _ => by dsimp only; rw [State.advance_segment]; rfl
  refine ⟨fun hb => ?_, fun _ => goes⟩
  rw [hb, State.defer_no_lane] at goes
  exact goes

/-! ### Loops (R110, R111, R113) -/

section
variable {i : Instr} {h : Hdr} {l : BitVec 2} {n : BitVec 8} {sr : List Nat} {count : Wctx → Word} {s : State}

/-- The lanes at a loop that do not issue, past its body (R111). -/
def pastBody (h : Hdr) (n : BitVec 8) (s : State) : State :=
  group s fun g => g.onLanes ((wctx h s).at_ &&& ~~~(wctx h s).lanes) fun _ x =>
    if x.st = .runnable then { x with pcv := mkPc (pkt (wctx h s).pc + n.toNat + 1) 0 } else x

/-- A loop whose body keeps R110 opens a level, or with a count of 0 goes past it (R111). -/
theorem moves_loop (hx : exec i s = .next (loopWord h l n sr count s))
    (hb : loopBad (wctx h s).snap l.toNat n.toNat (pkt (wctx h s).pc + n.toNat) = false) :
    Moves i (specLoop h l sr) s
      (if count (wctx h s) = 0#32 then (pastBody h n s).jump (wctx h s) fun _ => mkPc (pkt (wctx h s).pc + n.toNat + 1) 0
       else (pastBody h n s).onGrp s.iss.gi fun g => { g.setL l.toNat (count (wctx h s)) with
        levels := g.levels ++ [⟨l.toNat, pkt (wctx h s).pc + 1, pkt (wctx h s).pc + n.toNat, (wctx h s).lanes⟩] }) := by
  refine moves_of_own hx (if_neg (Bool.eq_false_iff.mp hb)) rfl fun hl => (if_neg hl).trans ?_
  by_cases hk : count (wctx h s) = 0#32
  · exact (if_pos hk).trans (congrArg Res.ok (if_pos hk).symm)
  · exact (if_neg hk).trans (congrArg Res.ok (if_neg hk).symm)

end

/-- Settles O12: a loop keeps R110 or breaks it; `lbrk` finds a level of its counter or none. -/
theorem loops : Obligations.Loops := by
  unfold Obligations.Loops
  intro h l n k a s c last others enter past
  have zero : k.setWidth 32 = 0#32 ↔ k = 0#8 := by bv_omega
  refine ⟨fun hb => ⟨?_, moves_loop (count := fun c => c.snap.sreg a.toNat) rfl hb⟩,
    fun hb => ⟨unlawful_of_ownRule rfl rfl rfl (if_pos hb) (by decide), unlawful_of_ownRule rfl rfl rfl (if_pos hb) (by decide)⟩,
    moves_of rfl rfl fun _ => ?_⟩
  · have goes : Moves (.loop h l n k) (specLoop h l []) s _ := moves_loop (count := fun _ => k.setWidth 32) rfl hb
    rw [if_congr zero rfl rfl] at goes
    exact goes
  · dsimp only
    rw [show wctx (specCtl h true).h s = c from rfl]
    cases c.snap.levels.findIdx? fun v => v.lc = l.toNat with
    | none => rfl
    | some i => rfl

end
end Sys2Proof.Machine
end

