-- ==== Sys2Proof/Proofs/Traps.lean ====
section
/-! PROOFS. Faults of lanes, parks for a handler's fault, `trap` and `eret` (R116, R117, R418, R425): O13. -/
namespace Sys2Proof.Machine
open Sys2Proof.Claims

noncomputable section

/-! ### Lanes and lists -/

theorem lane1_getLsbD (n i : Nat) (hi : i < 32) : (lane1 n).getLsbD i = decide (n = i) := by
  rw [lane1, BitVec.getLsbD_ofNat, Nat.testBit_two_pow]
  simp [hi]

theorem foldl_lane1_getLsbD (fs : List LaneFault) (m : Lanes) (i : Nat) (hi : i < 32) :
    (fs.foldl (fun m x => m ||| lane1 x.1) m).getLsbD i = (m.getLsbD i || fs.any fun x => x.1 = i) := by
  induction fs generalizing m with
  | nil => simp
  | cons x xs ih => rw [List.foldl_cons, ih, BitVec.getLsbD_or, lane1_getLsbD _ _ hi, List.any_cons, Bool.or_assoc]

theorem mem_lanesOf {ls : Lanes} {l : Fin 32} : l ∈ lanesOf ls ↔ ls.getLsbD l = true := by
  simp [lanesOf]

@[simp] theorem faultLanes_laneFaults (ls : Lanes) (cause detail : Nat) (addr : Fin 32 → Dword) :
    faultLanes (laneFaults ls cause detail addr) = ls := by
  refine BitVec.eq_of_getLsbD_eq fun i hi => ?_
  rw [faultLanes, foldl_lane1_getLsbD _ _ _ hi, Bool.eq_iff_iff]
  simp only [BitVec.getLsbD_zero, Bool.false_or, laneFaults, List.any_map, List.any_eq_true, Function.comp_apply, decide_eq_true_eq, mem_lanesOf]
  constructor
  · rintro ⟨l, hl, rfl⟩
    exact hl
  · exact fun h => ⟨⟨i, hi⟩, h, rfl⟩

theorem exists_laneFaults_cons {ls : Lanes} (h : ls ≠ 0#32) (cause detail : Nat) (addr : Fin 32 → Dword) :
    ∃ (l : Fin 32) (fs : List LaneFault), laneFaults ls cause detail addr = (l.val, cause, detail, addr l) :: fs := by
  cases hl : lanesOf ls with
  | nil =>
    refine absurd (BitVec.eq_of_getLsbD_eq fun i hi => ?_) h
    have := (mem_lanesOf (ls := ls) (l := ⟨i, hi⟩)).not.mp (by simp [hl])
    simpa using this
  | cons l ks => exact ⟨l, _, by simp only [laneFaults, hl]; rfl⟩

theorem getElem?_updAt_same {α : Type} (l : List α) (i : Nat) (f : α → α) : (updAt l i f)[i]? = l[i]?.map f := by
  induction l generalizing i with
  | nil => simp [updAt]
  | cons a as ih => cases i <;> simp [updAt, ih]

theorem updAt_length {α : Type} (l : List α) (i : Nat) (f : α → α) : (updAt l i f).length = l.length := by
  induction l generalizing i with
  | nil => rfl
  | cons a as ih => cases i <;> simp [updAt, ih]

/-! ### Lanes of main code marked -/

theorem and_not_of_disjoint {x y : Lanes} (h : y &&& x = 0#32) : x &&& ~~~y = x := by
  refine BitVec.eq_of_getLsbD_eq fun i hi => ?_
  have apart : (y.getLsbD i && x.getLsbD i) = false := by rw [← BitVec.getLsbD_and, h, BitVec.getLsbD_zero]
  rw [BitVec.getLsbD_and, BitVec.getLsbD_not, decide_eq_true hi, Bool.true_and]
  cases hx : x.getLsbD i <;> simp_all

@[simp] theorem lanesOf_zero : lanesOf 0#32 = [] := by simp [lanesOf]

theorem State.noteTile_of_no_poison {s : State} {gi : Nat} {ls : Lanes} {fcs : Fin 32 → Word} {addr : Fin 32 → Dword}
    {notes : List TileNote} (hc : ∀ l, (fcs l).toNat % 256 ≠ cRINGPOISON) : s.noteTile gi ls fcs addr notes = s := by
  simp [State.noteTile, hc]

/-- Lanes that are neither exited nor faulted, and for whom no tile's poison is to be noted, take the marks of their fault (R418). -/
theorem State.markLanes_of_standing {s : State} {gi : Nat} {gone ls : Lanes} {pc : Word} {torn : Bool} {fcs : Fin 32 → Word}
    {addr : Fin 32 → Dword} {notes : List TileNote} (hg : gone &&& ls = 0#32) (hf : (s.grp gi).inState .faulted &&& ls = 0#32)
    (hc : ∀ l, (fcs l).toNat % 256 ≠ cRINGPOISON) :
    s.markLanes gi gone pc false torn ls fcs addr notes = s.onGrp gi fun g => g.markBy ls pc false torn fcs addr := by
  simp only [State.markLanes, hg, hf, and_not_of_disjoint hg, Bool.false_and, Bool.false_eq_true, if_false, BitVec.not_zero, BitVec.and_allOnes]
  rw [State.noteTile_of_no_poison hc, lanesOf_zero]
  rfl

theorem mkFcs_cause (hm : Bool) (cause detail : Nat) : (mkFcs hm cause detail).toNat % 256 = cause % 256 := by
  rw [mkFcs, BitVec.toNat_ofNat]
  split <;> omega

/-- A fault of main code with one cause, of lanes that are neither exited nor faulted. -/
theorem State.defer_of_standing {s : State} {gi : Nat} {ls : Lanes} {pc : Word} {cause detail : Nat} {addr : Fin 32 → Dword}
    (hl : ls ≠ 0#32) (hm : (s.grp gi).hm = false) (hg : s.goneLanes gi &&& ls = 0#32) (hf : (s.grp gi).inState .faulted &&& ls = 0#32)
    (hc : cause % 256 ≠ cRINGPOISON) :
    s.defer gi ls pc false false cause detail addr = s.onGrp gi fun g => g.mark ls pc false cause detail addr := by
  rw [State.defer, if_neg hl, if_neg Bool.false_ne_true, State.deferMain, hm]
  exact State.markLanes_of_standing hg hf fun _ => by rwa [mkFcs_cause]

/-- A fault of a handler's word, while the words of its chain are being executed (R425). -/
theorem State.defer_of_handler {s : State} {gi : Nat} {ls : Lanes} {pc : Word} {replayAt : Bool} {cause detail : Nat} {addr : Fin 32 → Dword}
    (hl : ls ≠ 0#32) (hi : s.iss.gi = gi) (hn : s.iss.left ≠ 0) (hf : s.iss.fell = none) :
    s.defer gi ls pc true replayAt cause detail addr
      = { s with iss := { s.iss with fell := some (laneFaults ls cause detail addr, pc) } } := by
  obtain ⟨l, fs, h⟩ := exists_laneFaults_cons hl cause detail addr
  have latched : (s.iss.left ≠ 0 && s.iss.gi = gi) = true := by simp [hn, hi]
  rw [State.defer, if_neg hl, if_pos rfl, h, State.handlerFault, if_pos latched, hf]

theorem State.ctxOf_congr {s t : State} {g g' : Group} (hs : t.kernels = s.kernels) (hg : g'.kernel = g.kernel) : t.ctxOf g' = s.ctxOf g := by
  rw [State.ctxOf, State.ctxOf, hs, hg]

/-! ### Parks on the system path (R420, R425) -/

/-- The groups of the team that are asked to park, but for the group itself. -/
theorem State.askOthers_same {α : Type} (e : State → α) (gi : Nat)
    (h : ∀ (s : State) j, j ≠ gi → e (s.onGrp j fun h => { h with parkReq := true }) = e s) (js : List Nat) (s : State) :
    e (js.foldl (fun s j => if j = gi then s else s.onGrp j fun h => { h with parkReq := true }) s) = e s := by
  refine foldl_same e _ (fun s j => ?_) js s
  split
  · rfl
  · exact h s j ‹_›

theorem State.parkSystem_grp (s : State) (gi : Nat) (hm : Bool) (r : Rec) (h : gi < s.groups.length) :
    (s.parkSystem gi hm r).grp gi = { s.grp gi with status := .parked hm } := by
  unfold State.parkSystem
  refine (State.askOthers_same (fun t => t.grp gi) gi (fun t j hj => t.grp_setGrp_ne j gi _ hj) _ _).trans ?_
  exact s.grp_setGrp gi _ h

theorem State.parkSystem_ctxs (s : State) (gi : Nat) (hm : Bool) (r : Rec) :
    (s.parkSystem gi hm r).ctxs = updAt s.ctxs (s.ctxOf (s.grp gi)) fun x => { x with recs := x.recs ++ [r] } := by
  unfold State.parkSystem
  dsimp only
  rw [State.post_ctxs, State.askOthers_same State.ctxs gi fun _ _ _ => rfl,
    State.ctxOf_congr (State.askOthers_same State.kernels gi (fun _ _ _ => rfl) _ _) rfl]
  rfl

theorem State.parkSystem_posts (s : State) (gi : Nat) (hm : Bool) (r : Rec) (hc : s.ctxOf (s.grp gi) < s.ctxs.length) :
    r ∈ ((s.parkSystem gi hm r).ctx (s.ctxOf (s.grp gi))).recs := by
  rw [State.ctx, State.parkSystem_ctxs, List.getD_eq_getElem?_getD, getElem?_updAt_same, List.getElem?_eq_getElem hc]
  simp

theorem Group.fallTo_of_first {g : Group} (pc : Word) (h : g.fellAt = none) : g.fallTo pc = { g with hpc := pc, fellAt := some (g.rankOf pc) } := by
  simp [Group.fallTo, h]

theorem State.parkHandler_grp {s : State} {gi : Nat} {r : Rec} {pc : Word} (hl : gi < s.groups.length) (hf : (s.grp gi).fellAt = none) :
    ((s.parkHandler gi r pc).grp gi).status = .parked true ∧ ((s.parkHandler gi r pc).grp gi).hpc = pc := by
  rw [State.parkHandler, State.parkSystem_grp _ _ _ _ (by simpa using hl), s.grp_onGrp _ _ hl, Group.fallTo_of_first pc hf]
  exact ⟨rfl, rfl⟩

/-- The record, marked H, of lanes' faults at a handler word (R425, R428). -/
def handlerRecord (gi cause detail : Nat) (ls : Lanes) (pc : Word) (r : Rec) : Prop :=
  r.kind = 1 ∧ r.gi = some gi ∧ r.cause = cause ∧ r.detail = detail ∧ r.flg.testBit 0 = true ∧ r.fmask = ls ∧ r.pc = pc

theorem State.onCtx_when (s : State) (b : Bool) (c : Nat) (f : Ctx → Ctx) :
    (if b then s.onCtx c f else s).groups = s.groups ∧ (if b then s.onCtx c f else s).kernels = s.kernels
      ∧ (if b then s.onCtx c f else s).ctxs.length = s.ctxs.length := by
  cases b with
  | false => exact ⟨rfl, rfl, rfl⟩
  | true => exact ⟨rfl, rfl, updAt_length _ _ _⟩

/-- A park for a handler's fault is a park at the word, after records that it joins are taken back. -/
theorem State.fallHandler_eq (s : State) (gi cause detail : Nat) (fs : List LaneFault) (addr : Dword) (pc : Word) (notes : List TileNote)
    (rep : Bool) : ∃ (u : State) (r : Rec),
      s.fallHandler gi cause detail fs addr pc notes rep = (u.onGrp gi fun g => g.layMarks fs).parkHandler gi r pc
      ∧ u.groups = s.groups ∧ u.kernels = s.kernels ∧ u.ctxs.length = s.ctxs.length
      ∧ handlerRecord gi cause detail (faultLanes fs) pc r := by
  have odd : ∀ b : Bool, (if b then 3 else 1 : Nat).testBit 0 = true := by decide
  obtain ⟨hg, hk, hc⟩ := s.onCtx_when _ (s.ctxOf (s.grp gi)) fun x => { x with recs := x.recs.filter fun r => !r.joins gi }
  exact ⟨_, _, rfl, hg, hk, hc, rfl, rfl, rfl, rfl, odd _, rfl, rfl⟩

/-- A handler's fault parks its group at the word, with the record marked H (R425). -/
theorem State.fallHandler_parks {s : State} {gi : Nat} (cause detail : Nat) (fs : List LaneFault) (addr : Dword) (pc : Word)
    (notes : List TileNote) (rep : Bool) (hl : gi < s.groups.length) (hf : (s.grp gi).fellAt = none) :
    let t := s.fallHandler gi cause detail fs addr pc notes rep
    (t.grp gi).status = .parked true ∧ (t.grp gi).hpc = pc
      ∧ (s.ctxOf (s.grp gi) < s.ctxs.length →
        ∃ r ∈ (t.ctx (s.ctxOf (s.grp gi))).recs, handlerRecord gi cause detail (faultLanes fs) pc r) := by
  intro t
  obtain ⟨u, r, ht, hg, hk, hc, hr⟩ := s.fallHandler_eq gi cause detail fs addr pc notes rep
  have grp : u.grp gi = s.grp gi := by rw [State.grp, State.grp, hg]
  have lu : gi < (u.onGrp gi fun g => g.layMarks fs).groups.length := by simpa [hg] using hl
  have fu : ((u.onGrp gi fun g => g.layMarks fs).grp gi).fellAt = none := by
    rw [State.grp_onGrp_same Group.fellAt rfl, grp, hf]
  have cu : ((u.onGrp gi fun g => g.layMarks fs).onGrp gi fun g => g.fallTo pc).ctxOf
      (((u.onGrp gi fun g => g.layMarks fs).onGrp gi fun g => g.fallTo pc).grp gi) = s.ctxOf (s.grp gi) := by
    refine State.ctxOf_congr hk ?_
    rw [State.grp_onGrp_same Group.kernel, State.grp_onGrp_same Group.kernel rfl, grp]
    rw [Group.fallTo_of_first pc fu]
  rw [show t = _ from ht]
  obtain ⟨parked, at_⟩ := State.parkHandler_grp (r := r) (pc := pc) lu fu
  refine ⟨parked, at_, fun h => ⟨r, ?_, hr⟩⟩
  have posted := State.parkSystem_posts ((u.onGrp gi fun g => g.layMarks fs).onGrp gi fun g => g.fallTo pc) gi true r
  rw [cu] at posted
  exact posted (hc ▸ h)

/-! ### A chain that ends with a handler's fault -/

/-- The group of a chain that has issued: it is counted, and its stall ends. -/
def Group.chainIssued (g : Group) (i : Issue) : Group :=
  let g := { g with perf := g.perf.set 0 (g.perf[0] + 1) }
  if i.snap.hm then { g with hstall := none } else { g with stall := none, starve := if i.snap.above i.pc then g.starve + 1 else 0 }

/-- The state of a chain that has issued and that nothing waits for. -/
def State.chainIssued (s : State) : State :=
  ({ s.countChain s.iss.gi with iss := { s.iss with left := 0, wait := none } } : State).onGrp s.iss.gi fun g => g.chainIssued s.iss

/-- A chain of the handler in which a word has faulted ends with the park for it (R425). -/
theorem State.endChain_of_fell {s : State} {fs : List LaneFault} {pc : Word} (hf : s.iss.fell = some (fs, pc)) :
    s.endChain =
      let left := s.iss.snap.hm && !(s.chainIssued.grp s.iss.gi).hm
      let u := if left then s.chainIssued.onGrp s.iss.gi fun g => s.iss.snap.leaveHandler g else s.chainIssued
      let f := fs.headD (0, 0, 0, 0)
      { u with iss := { u.iss with fell := none } }.fallHandler s.iss.gi f.2.1 f.2.2.1 fs f.2.2.2 pc []
        (left && (u.grp s.iss.gi).repeatTrap u.clk) := by
  simp only [State.endChain, State.chainIssued, Group.chainIssued, hf]

theorem Group.chainIssued_same {α : Type} (e : Group → α) (g : Group) (i : Issue)
    (h : ∀ p t u k, e { g with perf := p, hstall := t } = e g ∧ e { g with perf := p, stall := u, starve := k } = e g) :
    e (g.chainIssued i) = e g := by
  unfold Group.chainIssued
  split
  · exact (h _ _ none 0).1
  · exact (h _ none _ _).2

theorem State.chainIssued_grp {α : Type} (e : Group → α) (s : State) (k : Nat)
    (h : ∀ (g : Group) p t u n, e { g with perf := p, hstall := t } = e g ∧ e { g with perf := p, stall := u, starve := n } = e g) :
    e (s.chainIssued.grp k) = e (s.grp k) :=
  State.grp_onGrp_same e (Group.chainIssued_same e _ _ (h _)) k

/-- Where the handler goes on, its group parks as it stood. -/
theorem State.endChain_of_fell_in_handler {s : State} {fs : List LaneFault} {pc : Word} (hf : s.iss.fell = some (fs, pc))
    (hh : (s.grp s.iss.gi).status = .handler) :
    s.endChain = { s.chainIssued with iss := { s.chainIssued.iss with fell := none } }.fallHandler s.iss.gi
      (fs.headD (0, 0, 0, 0)).2.1 (fs.headD (0, 0, 0, 0)).2.2.1 fs (fs.headD (0, 0, 0, 0)).2.2.2 pc [] false := by
  have hm : (s.chainIssued.grp s.iss.gi).hm = true := by
    rw [Group.hm, s.chainIssued_grp Group.status _ fun _ _ _ _ _ => ⟨rfl, rfl⟩, hh]
  rw [State.endChain_of_fell hf, hm, Bool.not_true, Bool.and_false]
  rfl

theorem State.chainIssued_groups_length (s : State) : s.chainIssued.groups.length = s.groups.length := List.length_set

/-- After the last word of a handler's chain the group parks for the lanes that have faulted, with the record marked H (R425). -/
theorem State.finish_of_fell_in_handler {s : State} {ls : Lanes} {cause detail : Nat} {addr : Fin 32 → Dword} {pc : Word}
    (hn : s.iss.left ≤ 1) (hf : s.iss.fell = some (laneFaults ls cause detail addr, pc)) (hs : ls ≠ 0#32)
    (hh : (s.grp s.iss.gi).status = .handler) (ha : (s.grp s.iss.gi).fellAt = none) (hl : s.iss.gi < s.groups.length) :
    (s.finish.grp s.iss.gi).status = .parked true ∧ (s.finish.grp s.iss.gi).hpc = pc
      ∧ (s.ctxOf (s.grp s.iss.gi) < s.ctxs.length → ∃ r ∈ (s.finish.ctx (s.ctxOf (s.grp s.iss.gi))).recs,
        handlerRecord s.iss.gi cause detail ls pc r) := by
  obtain ⟨l, fs, hfs⟩ := exists_laneFaults_cons hs cause detail addr
  have lanes : faultLanes ((l.val, cause, detail, addr l) :: fs) = ls := hfs ▸ faultLanes_laneFaults ..
  have ctx : ({ s.chainIssued with iss := { s.chainIssued.iss with fell := none } } : State).ctxOf (s.chainIssued.grp s.iss.gi)
      = s.ctxOf (s.grp s.iss.gi) :=
    State.ctxOf_congr rfl (s.chainIssued_grp Group.kernel _ fun _ _ _ _ _ => ⟨rfl, rfl⟩)
  rw [State.finish, if_pos hn, State.endChain_of_fell_in_handler (hfs ▸ hf) hh, ← ctx, ← lanes]
  refine State.fallHandler_parks (s := { s.chainIssued with iss := { s.chainIssued.iss with fell := none } })
    cause detail (_ :: fs) (addr l) pc [] false ?_ ?_
  · exact s.chainIssued_groups_length ▸ hl
  · exact (s.chainIssued_grp Group.fellAt _ fun _ _ _ _ _ => ⟨rfl, rfl⟩).trans ha

/-! ### `trap` and `eret` -/

/-- In main code the lanes of a `trap` that stand take its marks (R116, R418). -/
theorem moves_trap_main {h : Hdr} {n : BitVec 12} {s : State} (hm : (wctx h s).hm = false) (hg : (s.advance.grp s.iss.gi).hm = false)
    (gone : s.advance.goneLanes s.iss.gi &&& lanes (specCtl h false) s = 0#32)
    (flt : (s.advance.grp s.iss.gi).inState .faulted &&& lanes (specCtl h false) s = 0#32) :
    Moves (.trap h n) (specCtl h false) s
      (group s fun g => g.mark (lanes (specCtl h false) s) s.iss.pc false cPROGRAM (n.toNat % 256) fun _ => 0) := by
  refine moves_of rfl rfl fun hl => congrArg Res.ok ?_
  rw [show (wctx (specCtl h false).h s).hm = false from hm]
  exact State.defer_of_standing hl hg gone flt (by decide)

/-- In the handler the chain's end finds what a `trap` leaves (R116, R425). -/
theorem moves_trap_handler {h : Hdr} {n : BitVec 12} {s : State} (hm : (wctx h s).hm = true) (hn : s.iss.left ≠ 0) (hf : s.iss.fell = none) :
    Moves (.trap h n) (specCtl h false) s { s.advance with iss := { s.advance.iss with
      fell := some (laneFaults (lanes (specCtl h false) s) cPROGRAM (n.toNat % 256) fun _ => 0, s.iss.pc) } } := by
  refine moves_of rfl rfl fun hl => congrArg Res.ok ?_
  rw [show (wctx (specCtl h false).h s).hm = true from hm]
  exact State.defer_of_handler hl (by rw [State.advance_iss]; rfl) (by rwa [State.advance_iss]) (by rwa [State.advance_iss])

/-- In the handler no rule of its own stops `eret` (R117). -/
theorem moves_eret {h : Hdr} {s : State} (hm : (wctx h s).hm = true) : Moves (.eret h) (specCtl h false) s
    ((group s fun g => { (g.freeAborted (g.onLanes allLanes fun _ x => x.eret)).dropOwed with status := .running, gfc := 0 }).raiseLater
      s.iss.gi) :=
  moves_of_own rfl (if_pos hm) rfl fun hl => if_neg hl

/-- A `trap` of the handler that is its chain's last word (R116, R425). -/
theorem trap_parks {h : Hdr} {n : BitVec 12} {s : State} (hm : (wctx h s).hm = true) (hh : (s.grp s.iss.gi).status = .handler)
    (ha : (s.grp s.iss.gi).fellAt = none) (hn : s.iss.left = 1) (hf : s.iss.fell = none) (hg : s.iss.gi < s.groups.length)
    (hc : Clear (specCtl h false) s) (hl : lanes (specCtl h false) s ≠ 0#32) :
    ∃ t, exec (.trap h n) s = .next t ∧ (t.grp s.iss.gi).status = .parked true ∧ (t.grp s.iss.gi).hpc = s.iss.pc
      ∧ (s.ctxOf (s.grp s.iss.gi) < s.ctxs.length → ∃ r ∈ (t.ctx (s.ctxOf (s.grp s.iss.gi))).recs,
        handlerRecord s.iss.gi cPROGRAM (n.toNat % 256) (lanes (specCtl h false) s) s.iss.pc r) := by
  refine ⟨_, moves_trap_handler hm (by omega) hf hc hl, ?_⟩
  have kept {α : Type} (e : Group → α) := s.advance_grp_same e s.iss.gi
  have ctx : s.advance.ctxOf (s.advance.grp s.iss.gi) = s.ctxOf (s.grp s.iss.gi) :=
    State.ctxOf_congr s.advance_kernels (kept Group.kernel (fun _ _ => rfl) Group.onLanes_kernel)
  rw [← ctx, ← s.advance_ctxs, State.advance_iss]
  exact State.finish_of_fell_in_handler (s := { s.advance with iss := { s.iss with advanced := true, fell := some (_, s.iss.pc) } })
    hn.le rfl hl ((kept Group.status (fun _ _ => rfl) Group.onLanes_status).trans hh)
    ((kept Group.fellAt (fun _ _ => rfl) Group.onLanes_fellAt).trans ha) (s.advance_groups_length ▸ hg)

/-- Settles O13: in main code `trap` marks its lanes, in the handler it leaves them to the end of the chain, which parks the group. -/
theorem trapAndReturn : Obligations.TrapAndReturn := by
  unfold Obligations.TrapAndReturn
  exact ⟨fun h n s => ⟨moves_trap_main, moves_trap_handler, trap_parks⟩,
    fun h s => ⟨moves_eret, fun hm => unlawful_of_ownRule rfl rfl rfl (if_neg (Bool.eq_false_iff.mp hm)) (by decide)⟩⟩

end
end Sys2Proof.Machine
end

