-- ==== Sys2Proof/Proofs/Ends.lean ====
section
/-! PROOFS. What ends the waits of groups, and the ends of groups and kernels (R87, R94, R181, R307 to R312, R323, R328): O31 and O37. -/
namespace Sys2Proof.Machine
open Sys2Proof.Claims

noncomputable section

/-! ### The events that end a wait -/

section
variable {s : State} {gi : Nat} {t : Stall}

theorem sleepWake_of_due {n : Nat} (h : (s.grp gi).status = .sleeping (some n)) (hn : n ≤ s.clk) :
    exec (.sleepWake gi) s = .next (s.onGrp gi fun g => { g with status := .running }) := by
  refine next_congr ?_
  rw [h]
  exact if_pos hn

theorem acqGrant_of_free {core : Nat} (h : s.firstAcq core = some gi) (hf : s.freeBlocks core ≠ 0) :
    exec (.acqGrant core) s = .next { s.onGrp gi Group.ended with acqQ := s.acqQ.filter fun x => x != gi } := by
  refine next_congr ?_
  rw [h]
  exact if_neg hf

theorem boardGrant_of_first {cl : Nat} {rest : List Nat} (h : s.boardQueue cl = gi :: rest) :
    exec (.boardGrant cl) s = .next (s.onGrp gi Group.ended) := by
  refine next_congr ?_
  rw [h]

variable (hg : (s.grp gi).cur = some t)
include hg

theorem fenceSysComplete_of_done {n : Nat} (ht : t.kind = .fenceSys n) (hd : (s.grp gi).storesDone n = true) :
    let mine := fun (x : Owner) => decide (x = (s.whoOf (s.grp gi)).owner)
    exec (.fenceSysComplete gi) s
      = .next (if (s.writeBack mine).flushed mine then (s.writeBack mine).onGrp gi Group.ended else s.writeBack mine) := by
  refine next_congr ?_
  simp only [hg, ht, hd, if_true]

theorem tlbinvComplete_of_done {n : Nat} (ht : t.kind = .tlbinv n) (hd : (s.grp gi).storesDone n = true) :
    exec (.tlbinvComplete gi) s = .next (s.onGrp gi Group.ended) := by
  refine next_congr ?_
  simp only [hg, ht, hd, if_true]

/-- The window that a `fence.win` waits for has started: its group goes on, and nothing is written (R181). -/
theorem windowBoundary_of_started {cx n : Nat} (ht : t.kind = .fenceWin n) (hc : s.ctxOf (s.grp gi) = cx) (hn : n < s.windowOf cx)
    (hl : gi < s.groups.length) : ∃ u, exec (.windowBoundary cx) s = .next u ∧ u.grp gi = (s.grp gi).ended ∧ u.mem = s.mem := by
  refine ⟨_, rfl, ?_, rfl⟩
  have here : s.groups[gi]? = some (s.grp gi) := by simp [State.grp, hl]
  rw [State.grp, List.getD_eq_getElem?_getD, List.getElem?_map, here]
  simp only [Option.map_some, Option.getD_some, hg, ht, hc, hn, decide_true, Bool.and_self, if_true]

section
variable {w : Bool × Dword × Word} (ht : t.kind.cell? = some w) (ho : s.onCore gi = true)
include ht ho

theorem barrierWaitComplete_of_read {u : State} {r : Except (Nat × Nat) Bool} (hr : s.cellPassed gi w = (u, r)) :
    exec (.barrierWaitComplete gi) s = .next (match r with
      | .ok true => (u.onGrp gi fun g => g.endBart 1).settle gi false
      | .ok false => u
      | .error f => u.waitFails gi w.2.1 f) := by
  refine next_congr ?_
  simp only [hg, Option.bind_some, ht, ho, Bool.not_true, Bool.false_eq_true, if_false, hr]
  cases r with
  | error f => rfl
  | ok b => cases b <;> rfl

end

theorem bartExpiry_of_due {sp : Bool} {a : Dword} {ph : Word} {d till : Nat} {u : State} {ok : Bool} (ht : t.kind = .bart sp a ph d till)
    (hd : till ≤ s.clk) (ho : s.onCore gi = true) (hr : s.cellPassed gi (sp, a, ph) = (u, .ok ok)) :
    exec (.bartExpiry gi) s = .next ((u.onGrp gi fun g => g.endBart (if ok then 1 else 0)).settle gi false) := by
  refine next_congr ?_
  simp only [hg, ht, ho, Nat.not_lt.mpr hd, hr, decide_false, Bool.not_true, Bool.or_self, Bool.false_eq_true, if_false]

end

/-! ### TIMEOUT (R94, R104) -/

theorem State.timeoutIf_of_overdue {s : State} {gi d : Nat} (hs : (s.grp gi).status = .running) (ho : (s.grp gi).overdue s.clk d = true) :
    s.timeoutIf gi d = (s.onGrp gi fun g => { g with due := some d }).settle gi false := by
  have main : (s.grp gi).hm = false := by rw [Group.hm, hs]
  rw [State.timeoutIf, ho, hs, State.timeout, main]
  rfl

theorem State.timeoutIf_of_not_overdue {s : State} {gi d : Nat} (ho : (s.grp gi).overdue s.clk d = false) : s.timeoutIf gi d = s := by
  rw [State.timeoutIf, ho]
  rfl

/-- Each TIMEOUT event raises its own detail. -/
theorem exec_timeout (s : State) (gi : Nat) : ∀ p ∈ [(1, Instr.timeoutStarve gi), (3, .timeoutAcq gi), (4, .timeoutFewait gi),
    (5, .timeoutRendez gi), (6, .timeoutBoard gi), (7, .timeoutBarwait gi)], exec p.2 s = .next (s.timeoutIf gi p.1) := by
  simp only [List.forall_mem_cons, List.not_mem_nil, false_imp_iff, implies_true, and_true]
  exact ⟨rfl, rfl, rfl, rfl, rfl, rfl⟩

/-- Settles O31: each event finds the wait that it ends; a TIMEOUT is overdue or not. -/
theorem groupWaits : Obligations.GroupWaits := by
  unfold Obligations.GroupWaits
  refine ⟨fun s gi t => ?_, fun s gi hs p hp => ?_⟩
  · intro g
    refine ⟨fun n => sleepWake_of_due, fun hg => ⟨fun n => fenceSysComplete_of_done hg, fun n => tlbinvComplete_of_done hg⟩,
      fun cx n hg => windowBoundary_of_started hg, fun core => acqGrant_of_free, fun cl rest => boardGrant_of_first,
      fun w s1 hg ht ho => ⟨barrierWaitComplete_of_read hg ht ho, barrierWaitComplete_of_read hg ht ho,
        fun e => barrierWaitComplete_of_read hg ht ho⟩,
      fun sp a ph d till s1 ok hg => bartExpiry_of_due hg⟩
  · rw [exec_timeout s gi p hp]
    exact ⟨fun ho => next_congr (State.timeoutIf_of_overdue hs ho), fun ho => next_congr (State.timeoutIf_of_not_overdue ho)⟩

/-! ### The ends of groups and kernels -/

section
variable {s : State} {k : Nat} {kn : Kernel} (hk : s.kernels[k]? = some kn)
include hk

/-- Step 1 waits for the lines of the context's stores (R328). -/
theorem kernelEndSequence_one (hs : kn.st = .ending 1) :
    let mine := fun (x : Owner) => decide (x.1 = kn.ctx)
    exec (.kernelEndSequence k) s = .next (if (s.writeBack mine).flushed mine
      then (s.writeBack mine).onKernel k fun x => { x with st := .ending 2 } else s.writeBack mine) := by
  refine next_congr ?_
  simp only [hk, hs]

/-- Step 2 stores the signal word (R328). -/
theorem kernelEndSequence_two {u : State} {ok : Bool} (hs : kn.st = .ending 2) (hh : s.signalHeld kn = false) (hu : s.signal kn = (u, ok)) :
    exec (.kernelEndSequence k) s
      = .next ((u.onKernel k fun x => { x with sigFault := !ok }).onKernel k fun x => { x with st := .ending 3 }) := by
  refine next_congr ?_
  simp only [hk, hs, hh, hu, Bool.false_eq_true, if_false]

/-- Step 3 raises the interrupt that the header asks for (R328). -/
theorem kernelEndSequence_three (hs : kn.st = .ending 3) (hi : kn.h.irq = true) :
    exec (.kernelEndSequence k) s = .next ((s.raiseCtx kn.ctx kn.h.ivec).onKernel k fun x => { x with st := .ending 4 }) := by
  refine next_congr ?_
  simp only [hk, hs, hi, if_true]

/-- Step 4 of a kernel that no queue entry launched ends it (R328, R360). -/
theorem kernelEndSequence_four (hs : kn.st = .ending 4) (hn : kn.launch = none) :
    exec (.kernelEndSequence k) s = .next ((s.onKernel k fun x => { x with st := .done }).clerkLaunch kn) := by
  refine next_congr ?_
  simp only [hk, hs, hn]

theorem kernelCancelComplete_of_empty {l : Launch} (hs : kn.st = .cancelling) (hj : s.jobsOf k = []) (hi : kn.h.irq = false)
    (hn : kn.launch = some l) : exec (.kernelCancelComplete k) s
      = .next ((s.onKernel k fun kn => { kn with st := .cancelled }).postLaunch kn.ctx l 8 0) := by
  refine next_congr ?_
  simp only [hk, hs, hj, hi, hn, decide_true, Bool.and_self, if_true, Bool.false_eq_true, if_false]

end

theorem groupFree_of_drained {s : State} {gi : Nat} (hs : (s.grp gi).status = .draining) (ho : (s.grp gi).ops = []) :
    exec (.groupFree gi) s = .next ((s.freeGroup gi).teamRetire (s.grp gi).team) :=
  next_congr (if_pos (by simp [hs, ho]))

theorem groupFree_of_not_draining {s : State} {gi : Nat} (hs : (s.grp gi).status ≠ .draining) : exec (.groupFree gi) s = .next s :=
  next_congr (if_neg (by simp [hs]))

/-- Settles O37: a group is draining or not; a kernel's end takes the step that its state names. -/
theorem groupAndKernelEnds : Obligations.GroupAndKernelEnds := by
  unfold Obligations.GroupAndKernelEnds
  intro s gi k kn
  exact ⟨groupFree_of_drained, groupFree_of_not_draining, fun hk => ⟨kernelEndSequence_one hk, fun u ok => kernelEndSequence_two hk,
    kernelEndSequence_three hk, kernelEndSequence_four hk, fun l => kernelCancelComplete_of_empty hk⟩⟩

end
end Sys2Proof.Machine
end

