-- ==== Sys2Proof/Proofs/Integer.lean ====
section
/-! PROOFS. The integer words (R24, R126 to R133, R418): what each writes, lane by lane or once for the group: O1, O2 and O3. -/
namespace Sys2Proof.Machine
open Sys2Proof.Claims

noncomputable section

/-! ### The words of each table run as the one word of their kind -/

/-- A word has the operands `w`, and runs as `body` says. -/
structure Runs (i : Instr) (w : WordSpec) (body : Wctx → State → Res) : Prop where
  spec : specOf i = some w
  exec_eq : ∀ s, exec i s = .next (word w s body)

section
variable (h : Hdr) (m : Bool) (d a b : BitVec 6)

theorem runs_of_mem_ialu2 : ∀ x ∈ ialu2, Runs (x.2 h m d a b) (specV2 h m d a b) fun c s =>
    putLanes c s d.toNat fun l => binFn x.1 (srcA c a l) (srcB c h m b l) := by
  simp only [ialu2, List.forall_mem_cons, List.not_mem_nil, false_imp_iff, implies_true, and_true]
  and_intros <;> exact ⟨rfl, fun _ => rfl⟩

theorem runs_of_mem_ialu1 : ∀ x ∈ ialu1, Runs (x.2 h m d a) (specV1 h m d a) fun c s =>
    putLanes c s d.toNat fun l => unFn x.1 (srcU c m a l) := by
  simp only [ialu1, List.forall_mem_cons, List.not_mem_nil, false_imp_iff, implies_true, and_true]
  and_intros <;> exact ⟨rfl, fun _ => rfl⟩

theorem runs_of_mem_ialui : ∀ x ∈ ialui, Runs (x.2 h m d a b) (specV1 h false d a) fun c s =>
    putLanes c s d.toNat fun l => binFn x.1 (srcA c a l) (immOf h (BitVec.ofBool m ++ b)) := by
  simp only [ialui, List.forall_mem_cons, List.not_mem_nil, false_imp_iff, implies_true, and_true]
  and_intros <;> exact ⟨rfl, fun _ => rfl⟩

theorem runs_of_mem_salu2 : ∀ x ∈ salu2, Runs (x.2 h d a b) (specS2 h d a b) fun c s =>
    putS c s d.toNat (binFn x.1 (c.snap.sreg a.toNat) (sB c h b)) := by
  simp only [salu2, List.forall_mem_cons, List.not_mem_nil, false_imp_iff, implies_true, and_true]
  and_intros <;> exact ⟨rfl, fun _ => rfl⟩

theorem runs_of_mem_salu1 : ∀ x ∈ salu1, Runs (x.2 h d a) (specS1 h d a) fun c s =>
    putS c s d.toNat (unFn x.1 (c.snap.sreg a.toNat)) := by
  simp only [salu1, List.forall_mem_cons, List.not_mem_nil, false_imp_iff, implies_true, and_true]
  and_intros <;> exact ⟨rfl, fun _ => rfl⟩

theorem runs_of_mem_salui : ∀ x ∈ salui, Runs (x.2 h m d a b) (specS1 h d a) fun c s =>
    putS c s d.toNat (binFn x.1 (c.snap.sreg a.toNat) (immOf h (BitVec.ofBool m ++ b))) := by
  simp only [salui, List.forall_mem_cons, List.not_mem_nil, false_imp_iff, implies_true, and_true]
  and_intros <;> exact ⟨rfl, fun _ => rfl⟩

end

/-! ### What each writes -/

/-- Settles O1: the words of the table run as one word of two sources. -/
theorem ialuTwoSources : Obligations.IaluTwoSources := by
  unfold Obligations.IaluTwoSources
  intro x hx h m d a b s
  exact putsLanes_of (fun c l => binFn x.1 (srcA c a l) (srcB c h m b l)) ((runs_of_mem_ialu2 h m d a b x hx).exec_eq s)

section
variable {i : Instr} {w : WordSpec} {s : State} {d : BitVec 6} {body : Wctx → State → Res} (hx : exec i s = .next (word w s body))
include hx

theorem putsLanes_of_body {f : Fin 32 → Word} (hb : body (wctx w.h s) s.advance = putLanes (wctx w.h s) s.advance d.toNat f) :
    PutsLanes i w s d f :=
  ⟨fun hp => does_of hx (hb.trans (if_neg (Bool.eq_false_iff.mp hp))), fun hp => raises_of hx (hb.trans (if_pos hp))⟩

theorem putsPair_of_body {f : Fin 32 → Dword} (hb : body (wctx w.h s) s.advance = putPair (wctx w.h s) s.advance d.toNat f) :
    PutsPair i w s d f :=
  ⟨fun hp => does_of hx (hb.trans (if_neg (Bool.eq_false_iff.mp hp))), fun hp => raises_of hx (hb.trans (if_pos hp))⟩

end

/-- `mov` of a whole Haar register copies it with its tag (R121, R125, R128). -/
theorem does_mov {h : Hdr} {m : Bool} {d a : BitVec 6} {s : State}
    (hw : m = false ∧ (wctx h s).lanes = allLanes ∧ ((wctx h s).snap.tag a.toNat).haar = true) :
    Does (.ialuMov h m d a) (specV1 h m d a) s
      (group s fun g => g.setV d.toNat ((wctx h s).snap.vreg a.toNat) ((wctx h s).snap.tag a.toNat)) := by
  obtain ⟨rfl, hl, ht⟩ := hw
  exact does_of rfl (if_pos (by simp [specV1, hl, ht]))

/-- Any other `mov` reconstructs its source (R122). -/
theorem putsLanes_mov {h : Hdr} {m : Bool} {d a : BitVec 6} {s : State}
    (hw : ¬(m = false ∧ (wctx h s).lanes = allLanes ∧ ((wctx h s).snap.tag a.toNat).haar = true)) :
    PutsLanes (.ialuMov h m d a) (specV1 h m d a) s d (srcU (wctx h s) m a) := by
  have part : ¬(!m && (wctx h s).lanes = allLanes && ((wctx h s).snap.tag a.toNat).haar) = true := by simpa using hw
  exact putsLanes_of_body rfl (if_neg part)

/-- Settles O2: a `mov` copies the whole of a Haar register or writes its lanes; `wid` reads the teams and kernels, the others their operands. -/
theorem ialuOtherWords : Obligations.IaluOtherWords := by
  unfold Obligations.IaluOtherWords
  refine ⟨⟨fun x hx h m d a s => ?_, fun x hx h k d a imm s => ?_, fun h k d imm s => ?_⟩, fun h m d a s => ?_, fun h m d a b e s => ?_⟩
  · exact putsLanes_of (fun c l => unFn x.1 (srcU c m a l)) ((runs_of_mem_ialu1 h m d a x hx).exec_eq s)
  · exact putsLanes_of (fun c l => binFn x.1 (srcA c a l) (immOf h (BitVec.ofBool k ++ imm))) ((runs_of_mem_ialui h k d a imm x hx).exec_eq s)
  · exact putsLanes_of (fun _ _ => immOf h (BitVec.ofBool k ++ imm)) rfl
  · dsimp only
    split
    · exact does_mov ‹_›
    · exact putsLanes_mov ‹_›
  · refine ⟨fun sc => putsLanes_of (fun c l => srcA c a l * srcU c m b l + srcU c sc e l) rfl,
      fun p => putsLanes_of (fun c l => if (c.snap.pred p.toNat).getLsbD l then srcA c a l else srcB c h m b l) rfl,
      fun pos len => putsLanes_of (fun c l => bitField false (srcU c m a l) pos len) rfl,
      fun pos len => putsLanes_of (fun c l => bitField true (srcU c m a l) pos len) rfl,
      fun pos len => putsLanes_of (fun c l => bitInsert (srcA c a l) (srcB c h m b l) pos len) rfl,
      fun sh zx => putsPair_of (fun c l => leaFn (srcPair c a l) (srcU c m b l) sh zx) rfl,
      fun sel => putsPair_of_body rfl rfl, fun sel => putsLanes_of_body rfl rfl, fun ifn ty => putsPair_of_body rfl ?_⟩
    simp only [ite_apply] <;> rfl

/-- Settles O3: each scalar word ends as its body says, once for the group. -/
theorem saluWords : Obligations.SaluWords := by
  unfold Obligations.SaluWords
  intro h d a b e s g
  exact ⟨fun x hx => does_of ((runs_of_mem_salu2 h d a b x hx).exec_eq s) rfl, fun x hx => does_of ((runs_of_mem_salu1 h d a x hx).exec_eq s) rfl,
    fun x hx k => does_of ((runs_of_mem_salui h k d a b x hx).exec_eq s) rfl, fun k imm => does_of rfl rfl, does_of rfl rfl,
    fun pos len => does_of rfl rfl, fun pos len => does_of rfl rfl, fun pos len => does_of rfl rfl, fun sh zx => does_of rfl rfl,
    fun sel => does_of rfl rfl, fun sel => does_of rfl rfl, fun ifn ty => does_of rfl rfl⟩

end
end Sys2Proof.Machine
end

