-- ==== Sys2Proof/Proofs/IntegerFrame.lean ====
section
/-! PROOFS. What the integer words change of nothing but their destinations, whether they complete or fault (R24, R126 to R132, R418), and
their borderline operands (R127): O60 and O59. -/
namespace Sys2Proof.Machine
open Sys2Proof.Claims

noncomputable section

/-! ### What no integer word changes of a group (R24, R126 to R132, R418) -/

/-- A group's vector registers but `vw`, with their tags, its scalar registers but `sw`, what software sets beside them, and its lanes'
flags are as they were; so are the region entry and the fault registers of lanes outside `at_`. -/
structure KeepsGroup (vw sw : List Nat) (at_ : Lanes) (g u : Group) : Prop where
  v : ∀ r : Fin 64, r.val ∉ vw → u.v[r] = g.v[r]
  tags : ∀ r : Fin 64, r.val ∉ vw → u.tags[r] = g.tags[r]
  s : ∀ r : Fin 64, r.val ∉ sw → u.s[r] = g.s[r]
  soft : softRegs u = softRegs g
  xf : ∀ l : Fin 32, u.lanes[l].xf = g.lanes[l].xf
  lane : ∀ l : Fin 32, at_.getLsbD l = false → softLane u.lanes[l] = softLane g.lanes[l]

section
variable {vw sw : List Nat} {at_ : Lanes} {g u x : Group}

theorem KeepsGroup.trans (h : KeepsGroup vw sw at_ g u) (k : KeepsGroup vw sw at_ u x) : KeepsGroup vw sw at_ g x where
  v r hr := (k.v r hr).trans (h.v r hr)
  tags r hr := (k.tags r hr).trans (h.tags r hr)
  s r hr := (k.s r hr).trans (h.s r hr)
  soft := k.soft.trans h.soft
  xf l := (k.xf l).trans (h.xf l)
  lane l ha := (k.lane l ha).trans (h.lane l ha)

/-- What the end of a chain puts away is none of it. -/
theorem KeepsGroup.of_still (h : u.still = g.still) : KeepsGroup vw sw at_ g u := by
  have same {α : Type} (e : Group → α) (he : ∀ g : Group, e g.still = e g) : e u = e g := by rw [← he, h, he]
  have lane {α : Type} (e : Lane → α) (he : ∀ x : Lane, e x.still = e x) (l : Fin 32) : e u.lanes[l] = e g.lanes[l] :=
    same (fun g => e g.lanes[l]) fun g => by simp [Group.still, he]
  exact ⟨fun r _ => same (·.v[r]) fun _ => rfl, fun r _ => same (·.tags[r]) fun _ => rfl, fun r _ => same (·.s[r]) fun _ => rfl,
    same softRegs fun _ => rfl, lane Lane.xf fun _ => rfl, fun l _ => lane softLane (fun _ => rfl) l⟩

theorem getElem_setIfInBounds_of_mem {α : Type} {k n : Nat} {ns : List Nat} (x : Vector α k) (y : α) (hn : n ∈ ns) (r : Fin k)
    (hr : r.val ∉ ns) : (x.setIfInBounds n y)[r] = x[r] := by
  have ne : n ≠ r.val := fun h => hr (h ▸ hn)
  simp [ne]

/-- A write of a named vector register. -/
theorem KeepsGroup.setV {n : Nat} (y : PerLane Word) (t : Tag) (hn : n ∈ vw) : KeepsGroup vw sw at_ g (g.setV n y t) where
  v := getElem_setIfInBounds_of_mem g.v y hn
  tags := getElem_setIfInBounds_of_mem g.tags t hn
  s _ _ := rfl
  soft := rfl
  xf _ := rfl
  lane _ _ := rfl

theorem KeepsGroup.putV {n : Nat} (ls : Lanes) (f : Fin 32 → Word) (hn : n ∈ vw) : KeepsGroup vw sw at_ g (g.putV n ls f) :=
  .setV _ _ hn

/-- A write of a named scalar register. -/
theorem KeepsGroup.setS {n : Nat} (y : Word) (hn : n ∈ sw) : KeepsGroup vw sw at_ g (g.setS n y) where
  v _ _ := rfl
  tags _ _ := rfl
  s := getElem_setIfInBounds_of_mem g.s y hn
  soft := rfl
  xf _ := rfl
  lane _ _ := rfl

/-- A change of the sequencing and the fault state of lanes in `at_`. -/
theorem KeepsGroup.onLanes {ls : Lanes} {f : Fin 32 → Lane → Lane} (hf : ∀ l x, (f l x).xf = x.xf)
    (hl : ∀ l : Fin 32, at_.getLsbD l = false → ls.getLsbD l = false) : KeepsGroup vw sw at_ g (g.onLanes ls f) where
  v r _ := by rw [Group.onLanes_v]
  tags r _ := by rw [Group.onLanes_tags]
  s r _ := by rw [Group.onLanes_s]
  soft := by simp [softRegs]
  xf l := by
    refine (congrArg Lane.xf (g.onLanes_lane ls f l)).trans ?_
    split
    · exact hf ..
    · rfl
  lane l ha := congrArg softLane ((g.onLanes_lane ls f l).trans (if_neg (Bool.eq_false_iff.mp (hl l ha))))

/-- A precise fault marks lanes at the word, and ends the stall. -/
theorem KeepsGroup.mark {ls : Lanes} (hl : ∀ l : Fin 32, at_.getLsbD l = false → ls.getLsbD l = false) (pc : Word) (cause detail : Nat)
    (addr : Fin 32 → Dword) : KeepsGroup vw sw at_ g { g.mark ls pc true cause detail addr with stall := none } := by
  have dropStall (x : Group) : KeepsGroup vw sw at_ x { x with stall := none } := .of_still rfl
  refine KeepsGroup.trans ?_ (dropStall _)
  unfold Group.mark Group.markBy
  exact .onLanes (fun _ _ => rfl) hl

end

/-! ### The same of the whole state -/

/-- What lies outside the groups, as the end of a chain leaves it. -/
def State.besideGroups (s : State) : State := { s.still with groups := [] }

/-- Group `gi` keeps what `KeepsGroup` says, every other group and the rest of the state all but what the end of a chain puts away. -/
structure KeepsState (vw sw : List Nat) (at_ : Lanes) (gi : Nat) (s t : State) : Prop where
  beside : t.besideGroups = s.besideGroups
  others : ∀ k, k ≠ gi → (t.grp k).still = (s.grp k).still
  own : KeepsGroup vw sw at_ (s.grp gi) (t.grp gi)

theorem State.grp_still_congr {s t : State} (h : t.still = s.still) (k : Nat) : (t.grp k).still = (s.grp k).still := by
  have groups : t.groups.map Group.still = s.groups.map Group.still := congrArg State.groups h
  have read (u : State) : (u.grp k).still = (u.groups.map Group.still).getD k Group.blank.still := by
    simp only [State.grp, List.getD_eq_getElem?_getD, List.getElem?_map]
    cases u.groups[k]? <;> rfl
  rw [read, read, groups]

section
variable {vw sw : List Nat} {at_ : Lanes} {gi : Nat} {s t u : State}

theorem KeepsState.trans (h : KeepsState vw sw at_ gi s t) (k : KeepsState vw sw at_ gi t u) : KeepsState vw sw at_ gi s u :=
  ⟨k.beside.trans h.beside, fun n hn => (k.others n hn).trans (h.others n hn), h.own.trans k.own⟩

theorem KeepsState.of_still (h : t.still = s.still) : KeepsState vw sw at_ gi s t :=
  ⟨congrArg (fun x : State => { x with groups := [] }) h, fun k _ => State.grp_still_congr h k, .of_still (State.grp_still_congr h gi)⟩

theorem KeepsState.onGrp {f : Group → Group} (h : KeepsGroup vw sw at_ (s.grp gi) (f (s.grp gi))) :
    KeepsState vw sw at_ gi s (s.onGrp gi f) := by
  by_cases hl : gi < s.groups.length
  · exact ⟨rfl, fun k hk => congrArg Group.still (s.grp_setGrp_ne gi k _ hk.symm), by rwa [s.grp_onGrp gi f hl]⟩
  · refine .of_still (congrArg State.still ?_)
    rw [State.onGrp, State.setGrp, List.set_eq_of_length_le (Nat.le_of_not_lt hl)]

theorem keepsState_withIss (i : Issue) : KeepsState vw sw at_ gi s { s with iss := i } := .of_still rfl

theorem keepsState_finish : KeepsState vw sw at_ gi s s.finish := .of_still s.finish_still

theorem keepsState_advance : KeepsState vw sw at_ gi s s.advance := .of_still s.advance_still

/-- A precise fault of lanes at the word. -/
theorem keepsState_precise {ls : Lanes} (cause detail : Nat) (hl : ∀ l : Fin 32, s.iss.at_.getLsbD l = false → ls.getLsbD l = false) :
    KeepsState vw sw s.iss.at_ s.iss.gi s (s.precise cause detail ls) := by
  unfold State.precise
  dsimp only
  split
  · exact .of_still (State.fallHandler_still ..)
  · refine (keepsState_withIss _).trans (.trans (.onGrp ?_) (.of_still (State.settle_still ..)))
    exact .mark hl ..

end

/-! ### Words that write only what they name -/

/-- A body faults the word, or changes its group by `f`, which writes the registers that the word names. -/
def WritesNamed (w : WordSpec) (body : Wctx → State → Res) : Prop :=
  ∀ c s, (∃ k d, body c s = .raise k d)
    ∨ ∃ f : Group → Group, body c s = .ok (s.onGrp c.gi f) ∧ ∀ at_ g, KeepsGroup w.vw w.sw at_ g (f g)

section
variable {w : WordSpec} {s : State} {body : Wctx → State → Res}

theorem stopped_raises {c : Wctx} {r : Res} (hc : w.cnt = none) (hs : w.side = false) (h : stopped w c = some r) :
    ∃ k d, r = .raise k d := by
  unfold stopped at h
  split at h
  · exact ⟨_, _, (Option.some.inj h).symm⟩
  · split at h
    · cases h
    · split at h
      · exact ⟨_, _, (Option.some.inj h).symm⟩
      · simp [hc, hs] at h

theorem keepsState_settleRes_raise {vw sw : List Nat} (k d : Nat) :
    KeepsState vw sw s.iss.at_ s.iss.gi s (settleRes w (wctx w.h s) s (.raise k d)) := by
  refine keepsState_precise k d fun l ha => ?_
  split
  · exact ha
  · exact (BitVec.getLsbD_and ..).trans (by rw [ha, Bool.false_and])

/-- Whether such a word completes or faults, it keeps what it does not name. -/
theorem keepsState_word (hc : w.cnt = none) (hs : w.side = false) (hb : WritesNamed w body) :
    KeepsState w.vw w.sw s.iss.at_ s.iss.gi s (word w s body) := by
  have done {e : State} (h : KeepsState w.vw w.sw s.iss.at_ s.iss.gi s e) :
      KeepsState w.vw w.sw s.iss.at_ s.iss.gi s (settleRes w (wctx w.h s) s (.ok e)) := by
    simp only [settleRes, hs, Bool.false_and, Bool.false_eq_true, if_false]
    exact h.trans keepsState_finish
  cases hr : stopped w (wctx w.h s) with
  | some r =>
    obtain ⟨k, d, rfl⟩ := stopped_raises hc hs hr
    rw [word_stopped hr]
    exact keepsState_settleRes_raise k d
  | none =>
    rw [word_clear hr]
    split
    · exact done keepsState_advance
    · obtain ⟨k, d, hx⟩ | ⟨f, hx, hf⟩ := hb (wctx w.h s) s.advance
      · rw [hx]
        exact keepsState_settleRes_raise k d
      · rw [hx]
        exact done (keepsState_advance.trans (.onGrp (hf ..)))

end

/-- A word of no counter that opens no region and writes what it names. -/
structure Plain (i : Instr) (w : WordSpec) (body : Wctx → State → Res) : Prop extends Runs i w body where
  cnt : w.cnt = none
  side : w.side = false
  writes : WritesNamed w body

/-- A word that runs so. -/
def IsPlain (i : Instr) : Prop := ∃ w body, Plain i w body

section
variable {i : Instr} {w : WordSpec} {d : Nat}

theorem IsPlain.putLanes {f : Wctx → State → Fin 32 → Word} (h : Runs i w fun c s => Machine.putLanes c s d (f c s)) (hd : d ∈ w.vw)
    (hc : w.cnt = none) (hs : w.side = false) : IsPlain i := by
  refine ⟨w, _, h, hc, hs, fun c s => ?_⟩
  by_cases hp : partialHaar c [d] = true
  · exact .inl ⟨_, _, if_pos hp⟩
  · exact .inr ⟨_, if_neg hp, fun _ _ => .putV _ _ hd⟩

theorem IsPlain.putPair {f : Wctx → State → Fin 32 → Dword} (h : Runs i w fun c s => Machine.putPair c s d (f c s))
    (hd : d ∈ w.vw ∧ d + 1 ∈ w.vw) (hc : w.cnt = none) (hs : w.side = false) : IsPlain i := by
  refine ⟨w, _, h, hc, hs, fun c s => ?_⟩
  by_cases hp : partialHaar c [d, d + 1] = true
  · exact .inl ⟨_, _, if_pos hp⟩
  · exact .inr ⟨_, if_neg hp, fun _ _ => (KeepsGroup.putV _ _ hd.1).trans (.putV _ _ hd.2)⟩

theorem IsPlain.putS {f : Wctx → State → Word} (h : Runs i w fun c s => Machine.putS c s d (f c s)) (hd : d ∈ w.sw)
    (hc : w.cnt = none) (hs : w.side = false) : IsPlain i :=
  ⟨w, _, h, hc, hs, fun _ _ => .inr ⟨_, rfl, fun _ _ => .setS _ hd⟩⟩

theorem IsPlain.putSpair {f : Wctx → State → Dword} (h : Runs i w fun c s => Machine.putSpair c s d (f c s))
    (hd : d ∈ w.sw ∧ d + 1 ∈ w.sw) (hc : w.cnt = none) (hs : w.side = false) : IsPlain i :=
  ⟨w, _, h, hc, hs, fun _ _ => .inr ⟨_, rfl, fun _ _ => (KeepsGroup.setS _ hd.1).trans (.setS _ hd.2)⟩⟩

end

theorem mem_pairOf (d : BitVec 6) : d.toNat ∈ pairOf d ∧ d.toNat + 1 ∈ pairOf d := by simp [pairOf]

theorem isPlain_mov (h : Hdr) (m : Bool) (d a : BitVec 6) : IsPlain (.ialuMov h m d a) := by
  refine ⟨specV1 h m d a, _, ⟨rfl, fun _ => rfl⟩, rfl, rfl, fun c s => ?_⟩
  have named : d.toNat ∈ (specV1 h m d a).vw := List.mem_singleton_self _
  by_cases whole : (!m && c.lanes = allLanes && (c.snap.tag a.toNat).haar) = true
  · exact .inr ⟨_, if_pos whole, fun _ _ => .setV _ _ named⟩
  · by_cases hp : partialHaar c [d.toNat] = true
    · exact .inl ⟨_, _, (if_neg whole).trans (if_pos hp)⟩
    · exact .inr ⟨_, (if_neg whole).trans (if_neg hp), fun _ _ => .putV _ _ named⟩

theorem isPlain_wid (h : Hdr) (m : Bool) (d : BitVec 6) (sel : BitVec 3) : ∀ pr, IsPlain (.ialuWid h m d sel pr)
  | true => .putPair ⟨rfl, fun _ => rfl⟩ (mem_pairOf d) rfl rfl
  | false => .putLanes ⟨rfl, fun _ => rfl⟩ (List.mem_singleton_self _) rfl rfl

theorem isPlain_saluWid (h : Hdr) (d : BitVec 6) (sel : BitVec 3) : ∀ pr, IsPlain (.saluWid h d sel pr)
  | true => .putSpair ⟨rfl, fun _ => rfl⟩ (mem_pairOf d) rfl rfl
  | false => .putS ⟨rfl, fun _ => rfl⟩ (List.mem_singleton_self _) rfl rfl

theorem isPlain_of_mem_integerWords (h : Hdr) (m : Bool) (d a b e : BitVec 6) (pos : BitVec 5) (sel : BitVec 3) (p : BitVec 2) :
    ∀ i ∈ integerWords h m d a b e pos sel p, IsPlain i := by
  have one : d.toNat ∈ [d.toNat] := List.mem_singleton_self _
  have two := mem_pairOf d
  simp only [integerWords, List.forall_mem_append, List.forall_mem_map, List.forall_mem_cons, List.not_mem_nil, false_imp_iff,
    implies_true, and_true]
  refine ⟨⟨⟨⟨⟨⟨fun x hx => .putLanes (runs_of_mem_ialu2 h m d a b x hx) one rfl rfl,
    fun x hx => .putLanes (runs_of_mem_ialu1 h m d a x hx) one rfl rfl⟩,
    fun x hx => .putLanes (runs_of_mem_ialui h m d a b x hx) one rfl rfl⟩,
    fun x hx => .putS (runs_of_mem_salu2 h d a b x hx) one rfl rfl⟩,
    fun x hx => .putS (runs_of_mem_salu1 h d a x hx) one rfl rfl⟩,
    fun x hx => .putS (runs_of_mem_salui h m d a b x hx) one rfl rfl⟩, ?_⟩
  exact ⟨.putLanes ⟨rfl, fun _ => rfl⟩ one rfl rfl, isPlain_mov h m d a, .putLanes ⟨rfl, fun _ => rfl⟩ one rfl rfl,
    .putLanes ⟨rfl, fun _ => rfl⟩ one rfl rfl, .putLanes ⟨rfl, fun _ => rfl⟩ one rfl rfl, .putLanes ⟨rfl, fun _ => rfl⟩ one rfl rfl,
    .putLanes ⟨rfl, fun _ => rfl⟩ one rfl rfl, .putPair ⟨rfl, fun _ => rfl⟩ two rfl rfl, isPlain_wid ..,
    .putPair ⟨rfl, fun _ => rfl⟩ two rfl rfl, .putS ⟨rfl, fun _ => rfl⟩ one rfl rfl, .putS ⟨rfl, fun _ => rfl⟩ one rfl rfl,
    .putS ⟨rfl, fun _ => rfl⟩ one rfl rfl, .putS ⟨rfl, fun _ => rfl⟩ one rfl rfl, .putS ⟨rfl, fun _ => rfl⟩ one rfl rfl,
    .putSpair ⟨rfl, fun _ => rfl⟩ two rfl rfl, isPlain_saluWid .., .putSpair ⟨rfl, fun _ => rfl⟩ two rfl rfl⟩

/-! ### The frame -/

theorem keepsState_of_isPlain {i : Instr} {s t : State} (hi : IsPlain i) (ht : exec i s = .next t) :
    ∃ w, specOf i = some w ∧ KeepsState w.vw w.sw s.iss.at_ s.iss.gi s t := by
  obtain ⟨w, body, hr⟩ := hi
  rw [hr.exec_eq] at ht
  cases ht
  exact ⟨w, hr.spec, keepsState_word hr.cnt hr.side hr.writes⟩

theorem State.besideGroups_kernelHeaders (s : State) : s.besideGroups.kernels.map (fun k => k.h) = s.kernels.map fun k => k.h := by
  simp [State.besideGroups, State.still, Kernel.still]

theorem State.besideGroups_spByte (s : State) (n off : Nat) : spByte s.besideGroups n off = spByte s n off := by
  simp only [spByte, State.besideGroups, State.still, List.getElem?_map]
  cases s.teams[n]? <;> rfl

/-- Settles O60: an integer word is plain, so its state keeps what it does not name. -/
theorem integerFrame : Obligations.IntegerFrame := by
  unfold Obligations.IntegerFrame
  intro h m d a b e pos sel p s t w i hi hw ht
  obtain ⟨w', hw', kept⟩ := keepsState_of_isPlain (isPlain_of_mem_integerWords h m d a b e pos sel p i hi) ht
  cases Option.some.inj (hw.symm.trans hw')
  have beside {α : Type} (f : State → α) : f t.besideGroups = f s.besideGroups := congrArg f kept.beside
  refine ⟨beside State.mem, beside State.l2, beside State.bb, beside State.jobs, beside State.seqs, beside State.ring, ?_, fun n off => ?_,
    fun gi hg => ?_, fun r => ⟨fun hr => ⟨kept.own.v r hr, kept.own.tags r hr⟩, kept.own.s r⟩, kept.own.soft,
    fun l => ⟨kept.own.xf l, kept.own.lane l⟩⟩
  · rw [← t.besideGroups_kernelHeaders, kept.beside, s.besideGroups_kernelHeaders]
  · rw [← t.besideGroups_spByte, kept.beside, s.besideGroups_spByte]
  · have same : KeepsGroup [] [] 0#32 (s.grp gi) (t.grp gi) := .of_still (kept.others gi hg)
    exact ⟨Vector.ext fun r hr => same.v ⟨r, hr⟩ List.not_mem_nil, Vector.ext fun r hr => same.tags ⟨r, hr⟩ List.not_mem_nil,
      Vector.ext fun r hr => same.s ⟨r, hr⟩ List.not_mem_nil, same.soft, fun l => ⟨same.xf l, same.lane l BitVec.getLsbD_zero⟩⟩

/-! ### Borderline operands and flags (R127) -/

theorem binFn_shift_of_wide {x y : Word} (hy : 32 ≤ y.toNat) :
    binFn .shl x y = 0 ∧ binFn .shr x y = 0 ∧ binFn .sra x y = if x.msb then 0xffffffff#32 else 0#32 := by
  refine ⟨if_pos hy, if_pos hy, (if_pos hy).trans ?_⟩
  refine BitVec.eq_of_getLsbD_eq fun i hi => ?_
  have above : ¬ 32 + i < 32 := by omega
  have ones : (0xffffffff#32).getLsbD i = decide (i < 32) := BitVec.getLsbD_allOnes
  rw [BitVec.getLsbD_sshiftRight, if_neg above]
  cases x.msb <;> simp [ones, hi, -BitVec.getLsbD_eq_getElem]

/-- Settles O59: the shifts and divisions are evaluated; the flags are part of what an integer word keeps. -/
theorem integerBorderlines : Obligations.IntegerBorderlines := by
  unfold Obligations.IntegerBorderlines
  refine ⟨fun x y => ⟨binFn_shift_of_wide, rfl, rfl, rfl, rfl, by decide, by decide⟩, fun h m d a b e pos sel p s t i hi ht gi l => ?_⟩
  obtain ⟨w, -, kept⟩ := keepsState_of_isPlain (isPlain_of_mem_integerWords h m d a b e pos sel p i hi) ht
  by_cases hg : gi = s.iss.gi
  · exact hg ▸ kept.own.xf l
  · have same : KeepsGroup [] [] 0#32 (s.grp gi) (t.grp gi) := .of_still (kept.others gi hg)
    exact same.xf l

end
end Sys2Proof.Machine
end

