-- ==== Sys2Proof/Proofs/FloatWords.lean ====
section
/-! PROOFS. The float words, lane by lane and on coefficients (R121 to R125, R136 to R139, R426), compares and conversions: O4, O5, O6. -/
namespace Sys2Proof.Machine
open Sys2Proof.Claims

noncomputable section

/-! ### The words of each table run as the one word of their kind -/

section
variable (h : Hdr) (q : Bool) (d a b : BitVec 6)

theorem runs_of_mem_falu2s : ∀ x ∈ falu2s, Runs (x.2 h q d a b) (specF2 h d a b) fun c s =>
    faluBody x.1 0 0 q d.toNat a.toNat b.toNat h.limm.isSome (srcB c h false b) c s := by
  simp only [falu2s, List.forall_mem_cons, List.not_mem_nil, false_imp_iff, implies_true, and_true]
  and_intros <;> exact ⟨rfl, fun _ => rfl⟩

/-- A word of one source looks at no second one, whatever register `b` would be. -/
theorem runs_of_mem_falu1s : ∀ x ∈ falu1s, Runs (x.2 h q d a) (specF1 h d a) fun c s =>
    faluBody x.1 0 0 q d.toNat a.toNat b.toNat false (fun _ => 0) c s := by
  simp only [falu1s, List.forall_mem_cons, List.not_mem_nil, false_imp_iff, implies_true, and_true]
  and_intros <;> exact ⟨rfl, fun _ => rfl⟩

theorem runs_of_mem_sfus : ∀ x ∈ sfus, Runs (x.2 h q d a) (specF1 h d a) fun c s =>
    putSpatial c s q d.toNat fun l =>
      (BitVec.ofNat 32 (sfu x.1 (c.snap.rows a.toNat)[l].toNat).1, (sfu x.1 (c.snap.rows a.toNat)[l].toNat).2) := by
  simp only [sfus, List.forall_mem_cons, List.not_mem_nil, false_imp_iff, implies_true, and_true]
  and_intros <;> exact ⟨rfl, fun _ => rfl⟩

end

@[simp] theorem specFEsc_h (h : Hdr) (d a b : BitVec 6) (ifn : BitVec 5) (bs : Bool) : (specFEsc h d a b ifn bs).h = h := by
  unfold specFEsc
  split <;> rfl

/-! ### Operands of linear forms (R121, R123) -/

section
variable {c : Wctx} {a b : Nat}

theorem linear1_eq_false (h : c.lanes ≠ allLanes ∨ (c.snap.tag a).haar = false) : linear1 c a = false := by
  obtain h | h := h <;> simp [linear1, h]

theorem linear1_eq_true (hl : c.lanes = allLanes) (ha : (c.snap.tag a).haar = true) : linear1 c a = true := by
  simp [linear1, hl, ha]

theorem linear2_eq_nonlinear (h : c.lanes ≠ allLanes ∨ (c.snap.tag a).haar = false ∧ (c.snap.tag b).haar = false) :
    linear2 c a b = .nonlinear :=
  if_pos (by simpa using h)

theorem haar_of_likeTagged {s t : Tag} (h : likeTagged s t = true) : s.haar = true ∧ t.haar = true := by
  simp only [likeTagged, Bool.and_eq_true] at h
  obtain ⟨⟨⟨haar, -⟩, -⟩, -⟩ := h
  exact haar

variable (hl : c.lanes = allLanes)
include hl

theorem linear2_of_likeTagged (h : likeTagged (c.snap.tag a) (c.snap.tag b) = true) :
    linear2 c a b = .lin (c.snap.vreg a) (c.snap.vreg b) (joinTag (c.snap.tag a) (c.snap.tag b)) := by
  obtain ⟨ha, hb⟩ := haar_of_likeTagged h
  simp [linear2, hl, ha, h]

variable (h : likeTagged (c.snap.tag a) (c.snap.tag b) = false)
include h

theorem linear2_eq_mismatch (hh : (c.snap.tag a).haar = true ∨ (c.snap.tag b).haar = true)
    (hf : (c.snap.tag a).haar = (c.snap.tag b).haar ∨ c.snap.wctl.getLsbD 0 = false) : linear2 c a b = .mismatch := by
  have linear : ¬(c.lanes ≠ allLanes || (!(c.snap.tag a).haar && !(c.snap.tag b).haar)) = true := by
    obtain hh | hh := hh <;> simp [hl, hh]
  have unlike : ¬likeTagged (c.snap.tag a) (c.snap.tag b) = true := by simp [h]
  have stays : ¬((c.snap.tag a).haar ≠ (c.snap.tag b).haar && c.snap.wctl.getLsbD 0) = true := by
    obtain hf | hf := hf <;> simp [hf, -BitVec.getLsbD_eq_getElem]
  exact (if_neg linear).trans ((if_neg unlike).trans (if_neg stays))

theorem linear2_forward_second (hf : c.snap.wctl.getLsbD 0 = true) (ha : (c.snap.tag a).haar = true) (hb : (c.snap.tag b).haar = false) :
    let f := autoForward c.snap.ovp (c.snap.vreg b) (c.snap.tag a)
    linear2 c a b = .lin (c.snap.vreg a) f.1 (joinTag (c.snap.tag a) f.2) := by
  simp [linear2, hl, h, ha, hb, hf, -BitVec.getLsbD_eq_getElem]

theorem linear2_forward_first (hf : c.snap.wctl.getLsbD 0 = true) (ha : (c.snap.tag a).haar = false) (hb : (c.snap.tag b).haar = true) :
    let f := autoForward c.snap.ovp (c.snap.vreg a) (c.snap.tag b)
    linear2 c a b = .lin f.1 (c.snap.vreg b) (joinTag f.2 (c.snap.tag b)) := by
  simp [linear2, hl, h, ha, hb, hf, -BitVec.getLsbD_eq_getElem]

end

/-! ### The forms of FALU (R121, R123, R136, R137) -/

/-- A sum of two vector registers: `plain` where it is not linear, else on coefficients, or DOMAIN 1 (R121, R123). -/
def linearSum (c : Wctx) (s : State) (q : Bool) (d a b : Nat) (f : Fin 32 → Word → Word → Word × BitVec 5) (plain : Res) : Res :=
  match linear2 c a b with
  | .nonlinear => plain
  | .mismatch => .raise cDOMAIN 1
  | .lin u v t => .ok (putFlt c s q d t fun l => f l u[l] v[l])

theorem linearSum_of_nonlinear {c : Wctx} {s : State} {q : Bool} {d a b : Nat} {f : Fin 32 → Word → Word → Word × BitVec 5} {plain : Res}
    (h : c.lanes ≠ allLanes ∨ (c.snap.tag a).haar = false ∧ (c.snap.tag b).haar = false) : linearSum c s q d a b f plain = plain := by
  rw [linearSum, linear2_eq_nonlinear h]

section
variable {c : Wctx} {s : State} {k : FFn} {r : BitVec 2} {q uni : Bool} {d a b : Nat} {y : Fin 32 → Word}

theorem faluBody_sum (hk : k = .add ∨ k = .sub) :
    faluBody k 0 r q d a b false y c s = linearSum c s q d a b (fun _ u v => faluLane k 0 0 u v)
      (putSpatial c s q d fun l => faluLane k 0 r (c.snap.rows a)[l] (y l)) := by
  obtain rfl | rfl := hk <;> rfl

variable (hl : c.lanes = allLanes) (ha : (c.snap.tag a).haar = true)
include hl ha

theorem faluBody_addend (hk : k = .add ∨ k = .sub) :
    faluBody k 0 r q d a b true y c s = .ok (putFlt c s q d (addendTag (c.snap.tag a)) fun l =>
      if (approxLanes (descL (c.snap.tag a).desc)).getLsbD l then faluLane k 0 0 (c.snap.vreg a)[l] (y l) else ((c.snap.vreg a)[l], 0#5)) := by
  obtain rfl | rfl := hk <;> exact if_pos (linear1_eq_true hl ha)

theorem faluBody_scaled (hk : (k = .mul ∨ k = .scl) ∧ uni = true ∨ k = .neg) :
    faluBody k 0 r q d a b uni y c s = .ok (putFlt c s q d (c.snap.tag a) fun l => faluLane k 0 0 (c.snap.vreg a)[l] (y l)) := by
  have whole := linear1_eq_true hl ha
  obtain ⟨rfl | rfl, rfl⟩ | rfl := hk
  · exact if_pos whole
  · exact if_pos whole
  · exact if_pos whole

end

/-! ### Lane by lane (R122, R136 to R139) -/

theorem putsFloat_of_body {i : Instr} {w : WordSpec} {s : State} {q : Bool} {d : BitVec 6} {body : Wctx → State → Res}
    {f : Fin 32 → Word × BitVec 5} (hx : exec i s = .next (word w s body))
    (hb : body (wctx w.h s) s.advance = putSpatial (wctx w.h s) s.advance q d.toNat f) : PutsFloat i w s q d f :=
  ⟨fun hp => does_of hx (hb.trans (if_neg (Bool.eq_false_iff.mp hp))), fun hp => raises_of hx (hb.trans (if_pos hp))⟩

section
variable {c : Wctx} {s : State} {k : FFn} {ty r : BitVec 2} {q uni : Bool} {d : Nat} {a b : BitVec 6} {y : Fin 32 → Word}

/-- A linear form of one register works lane by lane only where that is spatial or not every lane issues. -/
theorem not_linear1_of_lanewise (h : lanewise c k uni a b) (hk : (k = .add ∨ k = .sub ∨ k = .mul ∨ k = .scl) ∧ uni = true ∨ k = .neg) :
    ¬linear1 c a.toNat = true := by
  refine Bool.eq_false_iff.mp (linear1_eq_false ?_)
  obtain ⟨rfl | rfl | rfl | rfl, rfl⟩ | rfl := hk <;> simpa [lanewise] using h

/-- A word that works lane by lane reconstructs its sources. -/
theorem faluBody_of_lanewise (h : ty ≠ 0#2 ∨ lanewise c k uni a b) : faluBody k ty r q d a.toNat b.toNat uni y c s =
    putSpatial c s q d fun l => faluLane k ty r (c.snap.rows a.toNat)[l] (y l) := by
  by_cases ht : ty = 0#2
  · subst ht
    have hw : lanewise c k uni a b := h.resolve_left (· rfl)
    cases k with
    | min | max | abs | cls | rnd => rfl
    | neg => exact if_neg (not_linear1_of_lanewise hw (.inr rfl))
    | mul | scl =>
      cases uni with
      | false => rfl
      | true => exact if_neg (not_linear1_of_lanewise hw (.inl (by simp)))
    | add | sub =>
      cases uni with
      | false => exact (faluBody_sum (by simp)).trans (linearSum_of_nonlinear (by simpa [lanewise] using hw))
      | true => exact if_neg (not_linear1_of_lanewise hw (.inl (by simp)))
  · exact if_pos ht

end

/-- An `ffma` on spatial operands, of not every lane, of a vector register b or of halves reconstructs its sources. -/
theorem putsFloat_ffma {h : Hdr} {q : Bool} {d a b e : BitVec 6} {ty : BitVec 2} {bs sc : Bool} {rm : BitVec 2} {np na : Bool} {s : State}
    (hw : ty ≠ 0#2 ∨ bs = false ∨ (wctx h s).lanes ≠ allLanes ∨ (((wctx h s).snap.tag a.toNat).haar = false
      ∧ (sc = false → ((wctx h s).snap.tag e.toNat).haar = false))) :
    PutsFloat (.ffma h q d a b e ty bs sc rm np na) (specFma h d a b e bs sc) s q d fun l =>
      fmaLane ty rm np na ((wctx h s).snap.rows a.toNat)[l] (srcU (wctx h s) bs b l) (some (srcU (wctx h s) sc e l)) := by
  refine putsFloat_of_body rfl ?_
  by_cases ht : (ty ≠ 0#2 || !bs) = true
  · exact if_pos ht
  · obtain ⟨whole, uniform⟩ : ty = 0#2 ∧ bs = true := by simpa using ht
    have spatial := (hw.resolve_left (· whole)).resolve_left (by simp [uniform])
    refine (if_neg ht).trans ?_
    cases sc with
    | false =>
      exact linearSum_of_nonlinear (f := fun l u v => fmaLane ty rm np na u (srcU (wctx h s) bs b l) (some v))
        (spatial.imp_right fun hs => ⟨hs.1, hs.2 rfl⟩)
    | true => exact if_neg (Bool.eq_false_iff.mp (linear1_eq_false (spatial.imp_right And.left)))

/-- Settles O4: the words of FALU that work lane by lane, the special functions and `ffma` reconstruct their sources. -/
theorem floatSpatial : Obligations.FloatSpatial := by
  unfold Obligations.FloatSpatial
  refine ⟨fun h q d a b s => ?_, fun h q d a b e ty bs sc rm np na s => ?_⟩
  · refine ⟨fun x hx hw => ?_, fun x hx hw => ?_, fun r => ?_, fun ifn ty bs hw => ?_, fun x hx => ?_⟩
    · exact putsFloat_of_body ((runs_of_mem_falu2s h q d a b x hx).exec_eq s) (faluBody_of_lanewise (.inr hw))
    · exact putsFloat_of_body ((runs_of_mem_falu1s h q d a b x hx).exec_eq s) (faluBody_of_lanewise (.inr hw))
    · exact putsFloat_of_body rfl (faluBody_of_lanewise (b := 0#6) (.inr (by simp [lanewise])))
    · refine putsFloat_of_body rfl ?_
      rw [specFEsc_h]
      exact faluBody_of_lanewise hw
    · exact putsFloat_of_body ((runs_of_mem_sfus h q d a x hx).exec_eq s) rfl
  · exact fun hw => putsFloat_ffma hw

/-! ### On coefficients (R121, R123, R125, R138) -/

/-- A sum of two vector registers in a whole word: on the coefficients of like-tagged ones; else DOMAIN 1, or a spatial one is transformed
first. -/
theorem does_or_raises_sum {i : Instr} {w : WordSpec} {c : Wctx} {s : State} {q : Bool} {d a b : Nat} {body : Wctx → State → Res}
    {f : Fin 32 → Word → Word → Word × BitVec 5} {plain : Res} (hx : exec i s = .next (word w s body)) (hc : wctx w.h s = c)
    (hb : body c s.advance = linearSum c s.advance q d a b f plain) (hl : c.lanes = allLanes) :
    let ta := c.snap.tag a
    let tb := c.snap.tag b
    let fwd := fun r t => autoForward c.snap.ovp (c.snap.vreg r) t
    (likeTagged ta tb = true → Does i w s (putFlt c s.advance q d (joinTag ta tb) fun l => f l (c.snap.vreg a)[l] (c.snap.vreg b)[l]))
    ∧ (likeTagged ta tb = false → (ta.haar = true ∨ tb.haar = true) →
      (ta.haar = tb.haar ∨ c.snap.wctl.getLsbD 0 = false → Raises i w s cDOMAIN 1)
      ∧ (c.snap.wctl.getLsbD 0 = true → ta.haar = true → tb.haar = false →
        Does i w s (putFlt c s.advance q d (joinTag ta (fwd b ta).2) fun l => f l (c.snap.vreg a)[l] ((fwd b ta).1)[l]))
      ∧ (c.snap.wctl.getLsbD 0 = true → ta.haar = false → tb.haar = true →
        Does i w s (putFlt c s.advance q d (joinTag (fwd a tb).2 tb) fun l => f l ((fwd a tb).1)[l] (c.snap.vreg b)[l]))) := by
  subst hc
  intro ta tb fwd
  refine ⟨fun h => ?_, fun h hh => ⟨fun hf => ?_, fun hf ha hn => ?_, fun hf ha hn => ?_⟩⟩
  · exact does_of hx (hb.trans (by rw [linearSum, linear2_of_likeTagged hl h]))
  · exact raises_of hx (hb.trans (by rw [linearSum, linear2_eq_mismatch hl h hh hf]))
  · exact does_of hx (hb.trans (by rw [linearSum, linear2_forward_second hl h hf ha hn]))
  · exact does_of hx (hb.trans (by rw [linearSum, linear2_forward_first hl h hf ha hn]))

/-- A word on FP32 with its function, its operands, whether b is uniform and the values of b runs as `faluBody`. -/
def RunsFalu (s : State) (c : Wctx) (q : Bool) (d a b : Nat) : FFn × Instr × WordSpec × Bool × (Fin 32 → Word) → Prop
  | (k, i, w, uni, y) => ∃ (body : Wctx → State → Res) (r : BitVec 2), exec i s = .next (word w s body) ∧ wctx w.h s = c
      ∧ body c s.advance = faluBody k 0 r q d a b uni y c s.advance

/-- Settles O5: a word of FALU that has a linear form runs as `faluBody`, whose branches are sums, addends and products; so does `ffma`. -/
theorem faluCoefficients : Obligations.FaluCoefficients := by
  unfold Obligations.FaluCoefficients
  intro h q d a b e s c tag raw ta x ap fwd put sums hl
  refine ⟨fun ifn bs p hp => ?_, fun rm np na => ⟨?_, fun ha => does_of rfl (if_pos (linear1_eq_true hl ha))⟩⟩
  · have runs : RunsFalu s c q d.toNat a.toNat b.toNat p := by
      simp only [List.mem_cons, List.not_mem_nil, or_false] at hp
      obtain rfl | rfl | rfl | rfl | rfl | rfl := hp
      case inr.inr.inr.inr.inr => exact ⟨_, _, rfl, by rw [specFEsc_h], rfl⟩
      all_goals exact ⟨_, _, rfl, rfl, rfl⟩
    obtain ⟨k, i, w, uni, y⟩ := p
    obtain ⟨body, r, hx, hc, hb⟩ := runs
    refine ⟨fun hk hu => ?_, fun hk hu ha => ?_, fun hk ha => ?_⟩
    · cases hu
      exact does_or_raises_sum hx hc (hb.trans (faluBody_sum hk)) hl
    · cases hu
      exact does_of hx (by rw [hc, hb]; exact faluBody_addend hl ha hk)
    · exact does_of hx (by rw [hc, hb]; exact faluBody_scaled hl ha hk)
  · exact does_or_raises_sum (f := fun _ u v => fmaLane 0 rm np na u (c.snap.sreg b.toNat) (some v)) rfl rfl rfl hl

/-! ### Compares and conversions (R66 to R71, R90, R134, R135, R140 to R144) -/

theorem exec_of_mem_icmps : ∀ x ∈ icmps, ∀ (h : Hdr) (m n : Bool) (p : BitVec 2) (a b : BitVec 6) (s : State),
    exec (x.2 h m n p a b) s = .next (icmp x.1 h m n p a b s) := by
  simp only [icmps, List.forall_mem_cons, List.not_mem_nil, false_imp_iff, implies_true, and_true]
  and_intros <;> intros <;> rfl

theorem exec_of_mem_fcmps : ∀ x ∈ fcmps, ∀ (h : Hdr) (m n q : Bool) (p : BitVec 2) (a b : BitVec 6) (s : State),
    exec (x.2 h m n q p a b) s = .next (fcmp x.1 h m n q p a b s) := by
  simp only [fcmps, List.forall_mem_cons, List.not_mem_nil, false_imp_iff, implies_true, and_true]
  and_intros <;> intros <;> rfl

/-- Settles O6: each compare and each conversion ends as its body says. -/
theorem comparesAndConversions : Obligations.ComparesAndConversions := by
  unfold Obligations.ComparesAndConversions
  refine ⟨fun h m n q p a b s => ⟨fun x hx => does_of (exec_of_mem_icmps x hx h m n p a b s) rfl,
    fun x hx => does_of (exec_of_mem_fcmps x hx h m n q p a b s) rfl⟩, fun h q d a e s => ?_⟩
  exact ⟨fun st dt rm dith js jd => ends_as rfl rfl, fun sb fmt st dith => ends_as rfl rfl, fun sb fmt dt => ends_as rfl rfl,
    fun j w => ends_as rfl rfl, fun j w => putsLanes_of_body rfl rfl⟩

end
end Sys2Proof.Machine
end

