-- ==== Sys2Proof/Proofs/CrossLane.lean ====
section
/-! PROOFS. The words across lanes (R145 to R152): O7 and O8. -/
namespace Sys2Proof.Machine
open Sys2Proof.Claims

noncomputable section

/-- Settles O7: each word ends as its body says; a `bcast` writes a scalar register or its lanes. -/
theorem laneExchange : Obligations.LaneExchange := by
  unfold Obligations.LaneExchange
  intro h m d a b s c x
  exact ⟨fun p => does_of rfl rfl, ends_as rfl rfl, ends_as rfl rfl, fun k => does_of rfl rfl, fun k => putsLanes_of_body rfl rfl,
    fun p => does_of rfl rfl⟩

theorem State.advance_workId (s : State) (g : Group) (l : Nat) : workId s.advance g l = workId s g l := by
  simp only [workId, State.advance_teams, State.advance_kernels]

theorem State.advance_ctxOf (s : State) (g : Group) : s.advance.ctxOf g = s.ctxOf g := State.ctxOf_congr s.advance_kernels rfl

/-- Settles O8: each word ends as its body says; `rng` reads the context and the work identifier, which do not move while lanes advance. -/
theorem reductionsAndOrder : Obligations.ReductionsAndOrder := by
  unfold Obligations.ReductionsAndOrder
  refine ⟨fun h m q d a op anc mask seg s => ?_, fun h d a b s => ?_⟩
  · exact ⟨fun excl => ends_as rfl rfl, fun raw => ends_as rfl rfl, fun raw => does_of rfl rfl, fun mode => ends_as rfl rfl⟩
  · refine ⟨fun p ty ks kv small mask => ends_as rfl rfl, fun shift w mask ty => putsLanes_of_body rfl rfl, fun y bsel n => ends_as rfl ?_⟩
    simp only [State.advance_ctxs, State.advance_ctxOf, State.advance_workId] <;> rfl

end
end Sys2Proof.Machine
end

