-- ==== Sys2Proof/Proofs/Stored.lean ====
section
/-! PROOFS. What memory holds, and the operations on groups that leave it as it was. -/
namespace Sys2Proof.Machine
open Sys2Proof.Claims
noncomputable section

/-- What the scratchpad of a team holds: its bytes, its empty granules, its poisoned ones. -/
def Team.stored (t : Team) : Memory × List Nat × List Nat := (t.sp, t.spEmpty, t.spPoison)

/-- All that a read of memory depends on, and the controller: the bytes of the memories, the lines of the L2, the key pairs of lines, what is
empty and what is poisoned, the ports. What a group only schedules, counts or traps on is not in it. -/
def State.stored (s : State) :=
  ((s.mem, s.bb, s.teams.map Team.stored), (s.l2, s.memKeys, s.empty, s.poison, s.bbPoison), s.ports, s.ctl)

theorem State.memWf_of_stored {s t : State} (h : s.memWf) (e : t.stored = s.stored) : t.memWf := by
  simp only [State.stored, Prod.mk.injEq] at e
  obtain ⟨⟨hm, hb, ht⟩, -⟩ := e
  refine ⟨hm ▸ h.1, hb ▸ h.2.1, fun x hx => ?_⟩
  obtain ⟨y, hy, hxy⟩ := List.mem_map.1 (ht ▸ List.mem_map_of_mem hx : x.stored ∈ s.teams.map Team.stored)
  have hsp : y.sp = x.sp := congrArg Prod.fst hxy
  exact hsp ▸ h.2.2 y hy

theorem State.still_stored (s : State) : s.still.stored = s.stored := by
  simp only [State.stored, State.still, List.map_map]
  rfl

theorem State.stored_of_still {s t : State} (h : t.still = s.still) : t.stored = s.stored := by
  rw [← t.still_stored, h, s.still_stored]

section
variable (s : State)

@[simp] theorem State.setGrp_stored (gi : Nat) (g : Group) : (s.setGrp gi g).stored = s.stored := rfl
@[simp] theorem State.onGrp_stored (gi : Nat) (f : Group → Group) : (s.onGrp gi f).stored = s.stored := rfl
@[simp] theorem State.onCtx_stored (c : Nat) (f : Ctx → Ctx) : (s.onCtx c f).stored = s.stored := rfl
@[simp] theorem State.onKernel_stored (k : Nat) (f : Kernel → Kernel) : (s.onKernel k f).stored = s.stored := rfl
@[simp] theorem State.post_stored (c : Nat) (r : Rec) : (s.post c r).stored = s.stored := rfl
@[simp] theorem State.withIss_stored (i : Issue) : ({ s with iss := i } : State).stored = s.stored := rfl
@[simp] theorem State.settle_stored (gi : Nat) (b : Bool) : (s.settle gi b).stored = s.stored := stored_of_still (s.settle_still ..)
@[simp] theorem State.settleGrp_stored (gi : Nat) (b : Bool) :
    (s.settleGrp gi b).stored = s.stored := stored_of_still (s.settleGrp_still ..)
@[simp] theorem State.advance_stored : s.advance.stored = s.stored := stored_of_still s.advance_still
@[simp] theorem State.finish_stored : s.finish.stored = s.stored := stored_of_still s.finish_still
@[simp] theorem State.endWaits_stored (gi : Nat) (p : StallKind → Bool) :
    (s.endWaits gi p).stored = s.stored := stored_of_still (s.endWaits_still ..)
@[simp] theorem State.gridCheck_stored (k : Nat) : (s.gridCheck k).stored = s.stored := stored_of_still (s.gridCheck_still ..)
@[simp] theorem State.parkSystem_stored (gi : Nat) (hm : Bool) (r : Rec) : (s.parkSystem gi hm r).stored = s.stored :=
  stored_of_still (s.parkSystem_still ..)
@[simp] theorem State.fallHandler_stored (gi cause detail : Nat) (fs : List LaneFault) (addr : Dword) (pc : Word) (notes : List TileNote)
    (rep : Bool) : (s.fallHandler gi cause detail fs addr pc notes rep).stored = s.stored := stored_of_still (s.fallHandler_still ..)

@[simp] theorem State.noteTile_stored (gi : Nat) (ls : Lanes) (fcs : Fin 32 → Word) (addr : Fin 32 → Dword) (notes : List TileNote) :
    (s.noteTile gi ls fcs addr notes).stored = s.stored := by
  unfold State.noteTile
  split <;> rfl

@[simp] theorem State.handlerFault_stored (gi : Nat) (fs : List LaneFault) (pc : Word) (notes : List TileNote) :
    (s.handlerFault gi fs pc notes).stored = s.stored := by
  unfold State.handlerFault
  split
  · rfl
  · split
    · rfl
    · exact State.fallHandler_stored ..

@[simp] theorem State.markLanes_stored (gi : Nat) (gone : Lanes) (pc : Word) (replayAt torn : Bool) (ls : Lanes) (fcs : Fin 32 → Word)
    (addr : Fin 32 → Dword) (notes : List TileNote) : (s.markLanes gi gone pc replayAt torn ls fcs addr notes).stored = s.stored := by
  unfold State.markLanes
  dsimp only
  split <;> simp [apply_ite State.stored]

@[simp] theorem State.deferMain_stored (gi : Nat) (ls : Lanes) (pc : Word) (replayAt torn : Bool) (fcs : Fin 32 → Word)
    (addr : Fin 32 → Dword) (notes : List TileNote) : (s.deferMain gi ls pc replayAt torn fcs addr notes).stored = s.stored := by
  unfold State.deferMain
  dsimp only
  repeat' split
  all_goals simp only [State.markLanes_stored, State.onGrp_stored]

theorem State.foldl_stored {α : Type} (f : State → α → State) (hf : ∀ s a, (f s a).stored = s.stored) (l : List α) :
    (l.foldl f s).stored = s.stored :=
  foldl_same State.stored f hf l s

@[simp] theorem State.raiseLater_stored (gi : Nat) : (s.raiseLater gi).stored = s.stored :=
  State.foldl_stored _ _ (fun s _ => s.markLanes_stored ..) _

@[simp] theorem State.defer_stored (gi : Nat) (ls : Lanes) (pc : Word) (hm replayAt : Bool) (cause detail : Nat) (addr : Fin 32 → Dword) :
    (s.defer gi ls pc hm replayAt cause detail addr).stored = s.stored := by
  unfold State.defer
  repeat' split
  all_goals simp only [State.handlerFault_stored, State.deferMain_stored]

@[simp] theorem State.deferAll_stored (gi : Nat) (pc : Word) (hm replayAt : Bool) (fs : List LaneFault) (notes : List TileNote)
    (torn : Bool) :
    
    (s.deferAll gi pc hm replayAt fs notes torn).stored = s.stored := by
  unfold State.deferAll
  repeat' split
  all_goals simp only [State.handlerFault_stored, State.deferMain_stored]

@[simp] theorem State.region_stored (c : Wctx) (out : Lanes) : (s.region c out).stored = s.stored := by
  unfold State.region
  split <;> rfl

@[simp] theorem State.timeout_stored (gi d : Nat) : (s.timeout gi d).stored = s.stored := by
  unfold State.timeout
  dsimp only
  split <;> simp

@[simp] theorem State.precise_stored (cause detail : Nat) (ls : Lanes) : (s.precise cause detail ls).stored = s.stored := by
  unfold State.precise
  dsimp only
  split <;> simp

@[simp] theorem State.holdIssue_stored (k : StallKind) : (s.holdIssue k).stored = s.stored := by
  unfold State.holdIssue
  dsimp only
  rw [State.onGrp_stored]
  split <;> rfl

@[simp] theorem State.complete_stored (gi id : Nat) : (s.complete gi id).stored = s.stored := State.settle_stored ..

end

end

end Sys2Proof.Machine
end

