-- ==== Sys2Proof/Proofs/MemoryForm.lean ====
section
/-! PROOFS. The canonical form of memory (log entry 2): the rules of branches, folds, groups and words. -/
namespace Sys2Proof.Machine
open Sys2Proof.Claims
noncomputable section

/-! ### The canonical form said of results -/

/-- The states in a word's result are in canonical form. -/
def Res.memWf : Res → Prop
  | .ok t => t.memWf
  | .wait _ t => t.memWf
  | _ => True

/-- The state in the result of an operation on a page is in canonical form. -/
def PRes.memWf : PRes → Prop
  | .done t | .fail t _ | .fault t _ _ _ | .wait t | .busy t | .foot t _ | .poison t _ _ _ => t.memWf

/-- The state that an admission leaves. -/
def Adm.state : Adm → State
  | .ok s _ => s
  | .full s => s
  | .bad s => s

/-- The state that an admission leaves is in canonical form. It is said of `Adm.state`, not by cases of the admission, so that no elaborator
evaluates `takeRequest` to see whether the statement is an implication. -/
def Adm.memWf (a : Adm) : Prop := a.state.memWf

/-- The next state of an outcome is in canonical form. -/
def Out.memWf : Out → Prop
  | .next t => t.memWf
  | _ => True

/-- The state of a step of the scheduler, done or failed, is in canonical form. -/
def SeqRes.memWf : SeqRes → Prop
  | .ok t => t.memWf
  | .error t => t.memWf

/-- The state of a scan that also returns a value, done or failed, is in canonical form. -/
def Scan.memWf {α : Type} : Except State (State × α) → Prop
  | .ok t => t.1.memWf
  | .error t => t.memWf

/-- The scratchpads of teams are in canonical form. -/
def TeamsWf (ts : List Team) : Prop := ∀ t ∈ ts, Memory.wf t.sp

/-- The canonical form reads three fields of a state only: every change of another field keeps it. -/
theorem State.memWf_parts {s : State} : s.memWf ↔ Memory.wf s.mem ∧ Memory.wf s.bb ∧ TeamsWf s.teams := Iff.rfl

/-! ### Branches, pairs and folds -/

theorem State.memWf_ite {c : Prop} [Decidable c] {a b : State} (ha : a.memWf) (hb : b.memWf) : (if c then a else b).memWf := by
  split <;> assumption

theorem Res.memWf_ite {c : Prop} [Decidable c] {a b : Res} (ha : a.memWf) (hb : b.memWf) : (if c then a else b).memWf := by
  split <;> assumption

theorem PRes.memWf_ite {c : Prop} [Decidable c] {a b : PRes} (ha : a.memWf) (hb : b.memWf) : (if c then a else b).memWf := by
  split <;> assumption

theorem SeqRes.memWf_ite {c : Prop} [Decidable c] {a b : SeqRes} (ha : a.memWf) (hb : b.memWf) : (if c then a else b).memWf := by
  split <;> assumption

theorem Scan.memWf_ite {α} {c : Prop} [Decidable c] {a b : Except State (State × α)} (ha : Scan.memWf a) (hb : Scan.memWf b) :
    Scan.memWf (if c then a else b) := by
  split <;> assumption

theorem Adm.memWf_ite {c : Prop} [Decidable c] {a b : Adm} (ha : a.memWf) (hb : b.memWf) : (if c then a else b).memWf := by
  split <;> assumption

theorem State.memWf_of_fst {α} {p : State × α} {t : State} {x : α} (e : p = (t, x)) (h : p.1.memWf) : t.memWf := by subst e; exact h

theorem State.memWf_newTeam {s : State} {gs t} (h : s.memWf) (ht : t.sp = []) :
    ({ s with groups := gs, teams := s.teams ++ [t] } : State).memWf := by
  obtain ⟨hm, hb, hs⟩ := h
  refine ⟨hm, hb, fun x hx => ?_⟩
  rcases List.mem_append.1 hx with hx | hx
  · exact hs x hx
  · rw [List.mem_singleton.1 hx, ht]; rfl

theorem State.foldlFst_memWf {α β : Type} (f : State × β → α → State × β) (hf : ∀ r a, r.1.memWf → (f r a).1.memWf)
    (l : List α) {r : State × β}
    (h : r.1.memWf) : (l.foldl f r).1.memWf :=
  List.foldlRecOn (motive := fun a : State × β => a.1.memWf) l f h fun r hr a _ => hf r a hr

theorem State.memWf_of_next {s : State} (h : s.memWf) : Out.memWf (.next s) := h

theorem State.memWf_mapTeams {s t : State} (h : s.memWf) (hm : t.mem = s.mem) (hb : t.bb = s.bb) (f : Team → Team)
    (hf : ∀ x, Memory.wf x.sp = true → Memory.wf (f x).sp = true) (ht : t.teams = s.teams.map f) : t.memWf := by
  obtain ⟨h1, h2, h3⟩ := h
  refine ⟨hm ▸ h1, hb ▸ h2, fun x hx => ?_⟩
  obtain ⟨y, hy, rfl⟩ := List.mem_map.1 (ht ▸ hx)
  exact hf y (h3 y hy)

theorem SeqRes.memWf_error {s : State} (h : s.memWf) : SeqRes.memWf (.error s) := h

theorem SeqRes.memWf_ok {s : State} (h : s.memWf) : SeqRes.memWf (.ok s) := h

theorem Adm.memWf_ok {s : State} {n} (h : s.memWf) : Adm.memWf (.ok s n) := h

theorem Adm.memWf_full {s : State} (h : s.memWf) : Adm.memWf (.full s) := h

theorem Adm.memWf_bad {s : State} (h : s.memWf) : Adm.memWf (.bad s) := h

theorem SeqRes.bind_memWf {r : SeqRes} {f : State → SeqRes} (h : r.memWf) (hf : ∀ s, s.memWf → SeqRes.memWf (f s)) :
    SeqRes.memWf (r >>= f) := by
  cases r with
  | error s => exact h
  | ok s => exact hf s h

theorem SeqRes.foldlM_memWf {α : Type} (f : State → α → SeqRes) (hf : ∀ s a, s.memWf → SeqRes.memWf (f s a)) (l : List α) {s : State}
    (h : s.memWf) : SeqRes.memWf (l.foldlM f s) := by
  induction l generalizing s with
  | nil => exact h
  | cons a l ih =>
    rw [List.foldlM_cons]
    exact SeqRes.bind_memWf (hf s a h) fun t ht => ih ht

theorem Scan.foldlM_memWf {α β : Type} (f : State × β → α → Except State (State × β)) (hf : ∀ r a, r.1.memWf → Scan.memWf (f r a))
    (l : List α)
    {r : State × β} (h : r.1.memWf) : Scan.memWf (l.foldlM f r) := by
  induction l generalizing r with
  | nil => exact h
  | cons a l ih =>
    rw [List.foldlM_cons]
    have hfa := hf r a h
    cases e : f r a with
    | error t => rw [e] at hfa; exact hfa
    | ok t => rw [e] at hfa; exact ih hfa

theorem SeqRes.memWf_andThen {r : SeqRes} {f : State → SeqRes} (hr : r.memWf) (hf : ∀ s, s.memWf → SeqRes.memWf (f s)) :
    SeqRes.memWf (match r with | .error s => .error s | .ok s => f s) := by
  cases r with
  | error s => exact hr
  | ok s => exact hf s hr

theorem Scan.memWf_ok {α} {s : State} {x : α} (h : s.memWf) : Scan.memWf (.ok (s, x)) := h

theorem Scan.bind_memWf {α β : Type} {r : Except State (State × α)} {f : State × α → Except State (State × β)} (h : Scan.memWf r) 
  (hf : ∀ x, x.1.memWf → Scan.memWf (f x)) : Scan.memWf (r >>= f) := by
  cases r with
  | error s => exact h
  | ok x => exact hf x h

theorem SeqRes.bindScan_memWf {β : Type} {r : SeqRes} {f : State → Except State (State × β)} (h : r.memWf) 
  (hf : ∀ x, x.memWf → Scan.memWf (f x)) : Scan.memWf (r >>= f) := by
  cases r with
  | error s => exact h
  | ok x => exact hf x h

theorem SeqRes.bindOf_memWf {α : Type} {r : Except State (State × α)} {f : State × α → SeqRes} (h : Scan.memWf r) 
  (hf : ∀ x, x.1.memWf → SeqRes.memWf (f x)) : SeqRes.memWf (r >>= f) := by
  cases r with
  | error s => exact h
  | ok x => exact hf x h

/-! ### Fields that are no memory -/

theorem State.withRing_memWf {s : State} {r} (h : s.memWf) : ({ s with ring := r } : State).memWf := h

theorem State.withPageIns_memWf {s : State} {x} (h : s.memWf) : ({ s with pageIns := x } : State).memWf := h

theorem State.withCopies_memWf {s : State} {x} (h : s.memWf) : ({ s with copies := x } : State).memWf := h

theorem State.withMeets_memWf {s : State} {n} (h : s.memWf) : ({ s with meets := n } : State).memWf := h

theorem State.withIslands_memWf {s : State} {n} (h : s.memWf) : ({ s with islands := n } : State).memWf := h

theorem State.withKernels_memWf {s : State} {n} (h : s.memWf) : ({ s with kernels := n } : State).memWf := h

theorem State.withQueues_memWf {s : State} {a b n} (h : s.memWf) : ({ s with acqQ := a, slotQ := b, freeIdx := n } : State).memWf := h

theorem State.withSent_memWf {s : State} {x} (h : s.memWf) : ({ s with sent := x } : State).memWf := h

theorem State.withServed_memWf {s : State} {x} (h : s.memWf) : ({ s with served := x } : State).memWf := h

theorem State.withCtxs_memWf {s : State} {x} (h : s.memWf) : ({ s with ctxs := x } : State).memWf := h

theorem State.withCtl_memWf {s : State} {x} (h : s.memWf) : ({ s with ctl := x } : State).memWf := h

theorem State.withMsgs_memWf {s : State} {x} (h : s.memWf) : ({ s with msgs := x } : State).memWf := h

theorem State.withLanded_memWf {s : State} {x} (h : s.memWf) : ({ s with landed := x } : State).memWf := h

/-! ### Groups, traps and words -/

section
variable {s : State}
theorem State.setGrp_memWf {gi g} (h : s.memWf) : (s.setGrp gi g).memWf := memWf_of_stored h (by simp)
theorem State.onGrp_memWf {gi f} (h : s.memWf) : (s.onGrp gi f).memWf := memWf_of_stored h (by simp)
theorem State.onCtx_memWf {c f} (h : s.memWf) : (s.onCtx c f).memWf := memWf_of_stored h (by simp)
theorem State.onKernel_memWf {k f} (h : s.memWf) : (s.onKernel k f).memWf := memWf_of_stored h (by simp)
theorem State.post_memWf {c r} (h : s.memWf) : (s.post c r).memWf := memWf_of_stored h (by simp)
theorem State.settle_memWf {gi fromEret} (h : s.memWf) : (s.settle gi fromEret).memWf := memWf_of_stored h (by simp)
theorem State.settleGrp_memWf {gi fromEret} (h : s.memWf) : (s.settleGrp gi fromEret).memWf := memWf_of_stored h (by simp)
theorem State.advance_memWf  (h : s.memWf) : (s.advance ).memWf := memWf_of_stored h (by simp)
theorem State.finish_memWf  (h : s.memWf) : (s.finish ).memWf := memWf_of_stored h (by simp)
theorem State.endWaits_memWf {gi p} (h : s.memWf) : (s.endWaits gi p).memWf := memWf_of_stored h (by simp)
theorem State.gridCheck_memWf {k} (h : s.memWf) : (s.gridCheck k).memWf := memWf_of_stored h (by simp)
theorem State.parkSystem_memWf {gi hm r} (h : s.memWf) : (s.parkSystem gi hm r).memWf := memWf_of_stored h (by simp)
theorem State.fallHandler_memWf {gi cause detail fs addr pc notes rep} (h : s.memWf) :
    (s.fallHandler gi cause detail fs addr pc notes rep).memWf := memWf_of_stored h (by simp)
theorem State.noteTile_memWf {gi ls fcs addr notes} (h : s.memWf) : (s.noteTile gi ls fcs addr notes).memWf := memWf_of_stored h (by simp)
theorem State.handlerFault_memWf {gi fs pc notes} (h : s.memWf) : (s.handlerFault gi fs pc notes).memWf := memWf_of_stored h (by simp)
theorem State.markLanes_memWf {gi gone pc replayAt torn ls fcs addr notes} (h : s.memWf) :
    (s.markLanes gi gone pc replayAt torn ls fcs addr notes).memWf := memWf_of_stored h (by simp)
theorem State.deferMain_memWf {gi ls pc replayAt torn fcs addr notes} (h : s.memWf) :
    (s.deferMain gi ls pc replayAt torn fcs addr notes).memWf := memWf_of_stored h (by simp)
theorem State.raiseLater_memWf {gi} (h : s.memWf) : (s.raiseLater gi).memWf := memWf_of_stored h (by simp)
theorem State.defer_memWf {gi ls pc hm replayAt cause detail addr} (h : s.memWf) :
    (s.defer gi ls pc hm replayAt cause detail addr).memWf := memWf_of_stored h (by simp)
theorem State.deferAll_memWf {gi pc hm replayAt fs notes torn} (h : s.memWf) :
    (s.deferAll gi pc hm replayAt fs notes torn).memWf := memWf_of_stored h (by simp)
theorem State.region_memWf {c out} (h : s.memWf) : (s.region c out).memWf := memWf_of_stored h (by simp)
theorem State.timeout_memWf {gi d} (h : s.memWf) : (s.timeout gi d).memWf := memWf_of_stored h (by simp)
theorem State.precise_memWf {cause detail ls} (h : s.memWf) : (s.precise cause detail ls).memWf := memWf_of_stored h (by simp)
theorem State.holdIssue_memWf {k} (h : s.memWf) : (s.holdIssue k).memWf := memWf_of_stored h (by simp)
theorem State.complete_memWf {gi id} (h : s.memWf) : (s.complete gi id).memWf := memWf_of_stored h (by simp)
end

theorem settleRes_memWf {w : WordSpec} {c : Wctx} {s : State} {r : Res} (h : s.memWf) (hr : r.memWf) : (settleRes w c s r).memWf := by
  cases r with
  | ok t => exact State.memWf_of_stored (s := t) hr (by rw [settleRes, State.finish_stored]; split <;> simp)
  | raise cause detail => exact State.memWf_of_stored h (State.precise_stored ..)
  | hold k => exact State.memWf_of_stored h (State.holdIssue_stored ..)
  | wait k t => 
    refine State.memWf_of_stored (s := t) hr ?_
    rw [settleRes, State.finish_stored, State.withIss_stored]
    split <;> simp

theorem stopped_memWf {w : WordSpec} {c : Wctx} {own : Option Nat} {r : Res} (h : stopped w c own = some r) : r.memWf := by
  have side (b : Bool) (h : c.sideHold b = some r) : r.memWf := by
    unfold Wctx.sideHold at h
    repeat' split at h
    all_goals simp only [Option.some.injEq, reduceCtorEq] at h
    all_goals subst h; trivial
  unfold stopped at h
  repeat' split at h
  all_goals first
    | exact side _ h
    | (simp only [Option.some.injEq, reduceCtorEq] at h; try (subst h; trivial))

theorem wordOwn_memWf {w : WordSpec} {own : Wctx → State → Option Nat} {s : State} {body : Wctx → State → Res} (h : s.memWf)
    (hb : ∀ c t, t.memWf → (body c t).memWf) : (wordOwn w own s body).memWf := by
  refine settleRes_memWf h ?_
  split
  next hr => exact stopped_memWf hr
  next => exact hb _ _ (State.memWf_of_stored h s.advance_stored)
theorem wordAny_memWf {w : WordSpec} {s : State} {body : Wctx → State → Res} (h : s.memWf)
    (hb : ∀ c t, t.memWf → (body c t).memWf) : (wordAny w s body).memWf := wordOwn_memWf h hb
theorem word_memWf {w : WordSpec} {s : State} {body : Wctx → State → Res} (h : s.memWf)
    (hb : ∀ c t, t.memWf → (body c t).memWf) : (word w s body).memWf := by
  refine wordOwn_memWf h fun c t ht => ?_
  split
  · exact ht
  · exact hb c t ht

end

end Sys2Proof.Machine
end

