-- ==== Sys2Proof/Proofs/MemoryFormAccess.lean ====
section
/-! PROOFS. Addresses, loads, stores, atomics, barriers, ring, capabilities and arithmetic words keep the canonical form of memory. -/
namespace Sys2Proof.Machine
open Sys2Proof.Claims
noncomputable section

theorem State.tick_memWf {s : State} (h : s.memWf) : s.tick.memWf := h

theorem putLanes_memWf {c : Wctx} {s : State} {d : Nat} {f : Fin 32 → Word} (h : s.memWf) : (putLanes c s d f).memWf := by
  unfold putLanes; split <;> trivial

theorem putPair_memWf {c : Wctx} {s : State} {d : Nat} {f : Fin 32 → Dword} (h : s.memWf) : (putPair c s d f).memWf := by
  unfold putPair; split <;> trivial

theorem putS_memWf {s : State} {c d x} (h : s.memWf) : (putS c s d x).memWf := h

theorem putSpair_memWf {s : State} {c d x} (h : s.memWf) : (putSpair c s d x).memWf := h

theorem State.start_memWf {s : State} {c cls todo k dv ds} (h : s.memWf) : (s.start c cls todo k dv ds).memWf := h

theorem State.free_memWf {s : State} (h : s.memWf) : s.free.2.memWf := h

theorem State.xlat_memWf {s : State} {core c va} (h : s.memWf) : (s.xlat core c va).1.memWf := by
  unfold State.xlat
  dsimp only
  (repeat' split) <;> exact h

theorem State.dropTlb_memWf {s : State} {c range} (h : s.memWf) : (s.dropTlb c range).memWf := h

theorem State.locateGl_memWf {s : State} {u r ea} (h : s.memWf) : (s.locateGl u r ea).1.memWf := by
  grind [State.locateGl, State.xlat_memWf]

theorem State.locate_memWf {s : State} {u r ea} (h : s.memWf) : (s.locate u r ea).1.memWf := by
  grind [State.locate, State.locateGl_memWf]

theorem State.setFe_memWf {s : State} {loc : Loc} {full : Bool} (h : s.memWf) : (s.setFe loc full).memWf := by
  cases loc with
  | gl pa x => exact h
  | sp t off => exact State.onTeam_memWf _ _ h fun _ hx => hx
  | bb a => exact h

theorem State.fetch_memWf {s : State} {u space va n acc} (h : s.memWf) : (s.fetch u space va n acc).1.memWf := by
  grind [State.fetch, State.locate_memWf, State.readLoc_memWf]

theorem State.store_memWf {s : State} {u space va bs fe} (h : s.memWf) : (s.store u space va bs fe).1.memWf := by
  grind [State.store, State.locate_memWf, State.writeLoc_memWf, State.setFe_memWf]

theorem State.fetchLong_memWf {k u sp va n acc} {s : State} (h : s.memWf) : (State.fetchLong k s u sp va n acc).1.memWf := by
  induction k generalizing s va n with
  | zero => exact h
  | succ k ih => grind [State.fetchLong, State.fetch_memWf]

theorem State.readVa_memWf {s : State} {u sp va n acc} (h : s.memWf) : (s.readVa u sp va n acc).1.memWf := State.fetchLong_memWf h

theorem State.storeLong_memWf {k u sp va bs fe} {s : State} (h : s.memWf) : (State.storeLong k s u sp va bs fe).1.memWf := by
  induction k generalizing s va bs with
  | zero => exact h
  | succ k ih => grind [State.storeLong, State.store_memWf]

theorem State.writeVa_memWf {s : State} {u sp va bs fe} (h : s.memWf) : (s.writeVa u sp va bs fe).1.memWf := State.storeLong_memWf h

theorem State.checkUnits_memWf {k u va n acc} {s : State} (h : s.memWf) : (State.checkUnits k s u va n acc).1.memWf := by
  induction k generalizing s va n with
  | zero => exact h
  | succ k ih => grind [State.checkUnits, State.locate_memWf]

theorem State.checkVa_memWf {s : State} {u va n acc} (h : s.memWf) : (s.checkVa u va n acc).1.memWf := State.checkUnits_memWf h

theorem putFloat_memWf {s : State} {f : Fin 32 → BitVec 5} {put : Lanes → Group → Group} {c q} (h : s.memWf) :
    (putFloat c s q f put).memWf :=
  State.deferAll_memWf h

theorem flagLanes_memWf {s : State} {f : Fin 32 → BitVec 5} {gi issuing pc hm} (h : s.memWf) : (flagLanes s gi issuing pc hm f).memWf :=
  State.deferAll_memWf h

theorem putFlt_memWf {s : State} {r : Fin 32 → Word × BitVec 5} {c q d t} (h : s.memWf) : (putFlt c s q d t r).memWf := putFloat_memWf h

theorem putSpatial_memWf {s : State} {r : Fin 32 → Word × BitVec 5} {c q d} (h : s.memWf) : (putSpatial c s q d r).memWf := by
  grind [Res.memWf, putSpatial, putFlt_memWf]

theorem State.perform_memWf {s : State} {k : OpKind} {l : Fin 32} {loc : Loc} (h : s.memWf) : (s.perform k l loc).1.memWf := by
  cases k <;> grind [State.perform, State.readLoc_memWf, State.writeLoc_memWf, State.setFe_memWf, State.toPort_memWf]

theorem State.tryLane_memWf {s : State} {gi o l checkOnly} (h : s.memWf) : (s.tryLane gi o l checkOnly).1.memWf := by
  grind [State.tryLane, State.locate_memWf, State.perform_memWf]

theorem State.stepLane_memWf {acc : State × List (ℕ × ℕ × ℕ × Dword)} {gi id check l} (h : acc.1.memWf) :
    (State.stepLane gi id check acc l).1.memWf := by
  grind [State.stepLane, State.tryLane_memWf, State.onGrp_memWf]

theorem State.stepLanes_memWf {s : State} {gi id check ls} (h : s.memWf) : (s.stepLanes gi id check ls).1.memWf :=
  State.foldlFst_memWf _ (fun _ _ hr => State.stepLane_memWf hr) ls h

theorem State.ordAbort_memWf {s : State} {gi o l cause detail} (h : s.memWf) : (s.ordAbort gi o l cause detail).memWf :=
  State.deferAll_memWf h

theorem State.ordStep_memWf {s : State} {gi} (h : s.memWf) : (s.ordStep gi).1.memWf := by
  grind [State.ordStep, State.tryLane_memWf, State.ordAbort_memWf, State.onGrp_memWf]

theorem State.deferOp_memWf {s : State} {gi o fs} (h : s.memWf) : (s.deferOp gi o fs).memWf := by
  grind [State.deferOp, State.deferAll_memWf, State.onGrp_memWf]

theorem State.issueAccesses_memWf {s : State} {gi id : Nat} (h : s.memWf) : (s.issueAccesses gi id).memWf := by
  unfold State.issueAccesses
  split
  · exact h
  · split
    · exact State.foldl_memWf _ (fun s _ hs => State.ordStep_memWf hs) _ h
    · exact State.deferOp_memWf (State.stepLanes_memWf h)

theorem State.pump_memWf {s : State} {gi : Nat} (h : s.memWf) : (s.pump gi).memWf :=
  State.foldl_memWf _ (fun s o hs => by
    split
    · exact hs
    · exact State.deferOp_memWf (State.stepLanes_memWf hs)) _ h

theorem State.startMem_memWf {s : State} {c : Wctx} {cls : Cls} {k : OpKind} {run : List Nat} (h : s.memWf) :
    (s.startMem c cls k run).memWf :=
  State.issueAccesses_memWf h

theorem loadWord_memWf {s : State} {hd mode d a b bytes signed fe clr} (h : s.memWf) :
    (loadWord hd mode d a b bytes signed fe clr s).memWf := by
  unfold loadWord
  refine word_memWf h fun c t ht => ?_
  grind [Res.memWf, State.startMem_memWf]

theorem storeWord_memWf {s : State} {hd mode d a b bytes fe} (h : s.memWf) : (storeWord hd mode d a b bytes fe s).memWf := by
  unfold storeWord
  refine word_memWf h fun c t ht => ?_
  grind [Res.memWf, State.startMem_memWf]

theorem atomWord_memWf {f hd m d a b mode sr scope w rt cr bs cs} {s : State} (h : s.memWf) :
    (atomWord f hd m d a b mode sr scope w rt cr bs cs s).memWf :=
  word_memWf h fun _ _ ht => Res.memWf_ite trivial (Res.memWf_ite trivial (State.startMem_memWf ht))

theorem execAadd_memWf {hd a b mode sr scope w bs} {s : State} (h : s.memWf) : Out.memWf (execAadd hd a b mode sr scope w bs s) :=
  word_memWf h fun _ _ ht => State.startMem_memWf ht

theorem execOrdend_memWf {s : State} {hd} (h : s.memWf) : Out.memWf (execOrdend hd s) := by
  unfold execOrdend
  refine word_memWf h fun c t ht => ?_
  grind [Res.memWf, State.onGrp_memWf]

theorem State.arrive_memWf {s : State} {gi id} (h : s.memWf) : (s.arrive gi id).memWf := by
  grind [State.arrive, State.settle_memWf, State.pump_memWf, State.onGrp_memWf, State.deferAll_memWf, State.complete_memWf]

theorem execLoadDataArrival_memWf {s : State} {gi id} (h : s.memWf) : Out.memWf (execLoadDataArrival gi id s) := by
  grind [Out.memWf, execLoadDataArrival, State.arrive_memWf]

theorem execStoreCompletion_memWf {s : State} {gi id} (h : s.memWf) : Out.memWf (execStoreCompletion gi id s) := by
  grind [Out.memWf, execStoreCompletion, State.arrive_memWf]

theorem execLdfeAccess_memWf {s : State} {gi id l} (h : s.memWf) : Out.memWf (execLdfeAccess gi id l s) := by
  grind [Out.memWf, execLdfeAccess, State.stepLanes_memWf, State.deferOp_memWf, State.settle_memWf, State.pump_memWf]

theorem execOrdAtomicApply_memWf {s : State} {gi} (h : s.memWf) : Out.memWf (execOrdAtomicApply gi s) := by
  grind [Out.memWf, execOrdAtomicApply, State.ordStep_memWf, State.settle_memWf, State.pump_memWf]

theorem State.dropLocks_memWf {s : State} {c va n} (h : s.memWf) : (s.dropLocks c va n).memWf := h

theorem State.dropUnmapped_memWf {s : State} {c range} (h : s.memWf) : (s.dropUnmapped c range).memWf := h

theorem State.keepLocks_memWf {s : State} {ls} (h : s.memWf) : (s.keepLocks ls).memWf := h

theorem execLock_memWf {s : State} {hd d a b} (h : s.memWf) : Out.memWf (execLock hd d a b s) := by
  unfold execLock
  refine word_memWf h fun c t ht => ?_
  grind [Res.memWf, State.keepLocks_memWf, State.onCtx_memWf, State.start_memWf]

theorem execUnlock_memWf {s : State} {hd a b} (h : s.memWf) : Out.memWf (execUnlock hd a b s) := by
  unfold execUnlock
  refine word_memWf h fun c t ht => ?_
  grind [Res.memWf, State.dropLocks_memWf, State.keepLocks_memWf, State.start_memWf]

theorem execPref_memWf {s : State} {hd m _l a b} (h : s.memWf) : Out.memWf (execPref hd m _l a b s) := by
  unfold execPref
  refine word_memWf h fun c t ht => ?_
  grind [Res.memWf]

theorem execFenceSys_memWf {s : State} {hd} (h : s.memWf) : Out.memWf (execFenceSys hd s) := by
  unfold execFenceSys
  refine word_memWf h fun c t ht => ?_
  grind [Res.memWf]

theorem execFenceWin_memWf {s : State} {hd} (h : s.memWf) : Out.memWf (execFenceWin hd s) := by
  unfold execFenceWin
  refine word_memWf h fun c t ht => ?_
  grind [Res.memWf]

theorem execFenceSysComplete_memWf {s : State} {gi} (h : s.memWf) : Out.memWf (execFenceSysComplete gi s) := by
  grind [Out.memWf, execFenceSysComplete, State.writeBack_memWf, State.onGrp_memWf]

theorem execWaitc_memWf {s : State} {hd ld st cp tl} (h : s.memWf) : Out.memWf (execWaitc hd ld st cp tl s) := by
  unfold execWaitc
  refine word_memWf h fun c t ht => ?_
  grind [Res.memWf, State.onGrp_memWf]

theorem execAcq_memWf {s : State} {hd d} (h : s.memWf) : Out.memWf (execAcq hd d s) := by
  unfold execAcq
  refine wordOwn_memWf h fun c t ht => ?_
  grind [Res.memWf, State.onGrp_memWf]

theorem execAcqGrant_memWf {s : State} {core} (h : s.memWf) : Out.memWf (execAcqGrant core s) := by
  unfold execAcqGrant
  (repeat' split) <;> exact h

theorem execRel_memWf {s : State} {hd d} (h : s.memWf) : Out.memWf (execRel hd d s) := by
  unfold execRel
  refine wordOwn_memWf h fun c t ht => ?_
  grind [Res.memWf, State.onGrp_memWf]

theorem execSleepWake_memWf {s : State} {gi} (h : s.memWf) : Out.memWf (execSleepWake gi s) := by
  unfold execSleepWake
  (repeat' split) <;> exact h

theorem State.timeoutIf_memWf {s : State} {gi d} (h : s.memWf) : (s.timeoutIf gi d).memWf := by
  grind [State.timeoutIf, State.timeout_memWf]

theorem execCsrr_memWf {s : State} {hd d a b} (h : s.memWf) : Out.memWf (execCsrr hd d a b s) := by
  unfold execCsrr
  refine word_memWf h fun c t ht => ?_
  grind [Res.memWf, putLanes_memWf, putS_memWf]

theorem execCsrw_memWf {s : State} {hd d a b} (h : s.memWf) : Out.memWf (execCsrw hd d a b s) := by
  unfold execCsrw
  refine wordOwn_memWf h fun c t ht => ?_
  grind [Res.memWf, State.onGrp_memWf]

theorem execPerf_memWf {s : State} {hd d b} (h : s.memWf) : Out.memWf (execPerf hd d b s) := by
  unfold execPerf
  refine word_memWf h fun c t ht => ?_
  grind [Res.memWf, putSpair_memWf, State.free_memWf]

theorem execTime_memWf {s : State} {hd d sel} (h : s.memWf) : Out.memWf (execTime hd d sel s) := by
  unfold execTime
  refine word_memWf h fun c t ht => ?_
  grind [Res.memWf, putSpair_memWf]

theorem tlbinvWord_memWf {s : State} {w kind a b} (h : s.memWf) : (tlbinvWord w kind a b s).memWf := by
  unfold tlbinvWord
  refine word_memWf h fun c t ht => ?_
  grind [Res.memWf, State.dropUnmapped_memWf, State.dropTlb_memWf]

theorem execTlbinvComplete_memWf {s : State} {gi} (h : s.memWf) : Out.memWf (execTlbinvComplete gi s) := by
  unfold execTlbinvComplete
  (repeat' split) <;> exact h

theorem State.onBoard_memWf {s : State} {f : Boarding → Boarding} {cluster ent} (h : s.memWf) : (s.onBoard cluster ent f).memWf := h

theorem State.boardEnd_memWf {s : State} {b st} (h : s.memWf) : (s.boardEnd b st).memWf := by
  unfold State.boardEnd
  (repeat' split) <;> exact h

theorem State.newBoarding_memWf {s : State} {gi p layer f n ts ent off op} (h : s.memWf) :
    (s.newBoarding gi p layer f n ts ent off op).1.memWf := by
  unfold State.newBoarding
  dsimp only
  (repeat' split) <;> exact h

theorem execBoard_memWf {s : State} {hd d a b mr all} (h : s.memWf) : Out.memWf (execBoard hd d a b mr all s) := by
  unfold execBoard
  refine word_memWf h fun c t ht => ?_
  grind [Res.memWf, State.newBoarding_memWf, State.start_memWf, putS_memWf]

theorem execBoardGrant_memWf {s : State} {cluster} (h : s.memWf) : Out.memWf (execBoardGrant cluster s) := by
  unfold execBoardGrant
  (repeat' split) <;> exact h

theorem boardAsk_memWf {s : State} {c d a wait} (h : s.memWf) : (boardAsk c s d a wait).memWf := by
  grind [Res.memWf, boardAsk, putS_memWf, State.onBoard_memWf]

theorem execBwait_memWf {s : State} {hd d a} (h : s.memWf) : Out.memWf (execBwait hd d a s) := by
  unfold execBwait
  refine word_memWf h fun c t ht => ?_
  grind [Res.memWf, boardAsk_memWf]

theorem execBtry_memWf {s : State} {hd d a} (h : s.memWf) : Out.memWf (execBtry hd d a s) := by
  unfold execBtry
  refine word_memWf h fun c t ht => ?_
  grind [Res.memWf, boardAsk_memWf]

theorem execBfree_memWf {s : State} {hd a} (h : s.memWf) : Out.memWf (execBfree hd a s) := by
  unfold execBfree
  refine word_memWf h fun c t ht => ?_
  grind [Res.memWf, State.onGrp_memWf, State.boardEnd_memWf]

theorem execLapr_memWf {s : State} {hd d sel} (h : s.memWf) : Out.memWf (execLapr hd d sel s) := by
  unfold execLapr
  refine word_memWf h fun c t ht => ?_
  grind [Res.memWf, putSpair_memWf, putS_memWf]

theorem State.claimPorts_memWf {s : State} {b} (h : s.memWf) : (s.claimPorts b).memWf := by
  grind [State.claimPorts, State.memWf_parts, State.onBoard_memWf, State.onCtx_memWf, State.settle_memWf, State.boardEnd_memWf]

theorem State.clusterClaims_memWf {s : State} {cluster} (h : s.memWf) : (s.clusterClaims cluster).memWf :=
  State.foldl_memWf _ (fun _ _ hs => State.claimPorts_memWf hs) _ h

theorem State.resolveClaims_memWf {s : State} (h : s.memWf) : s.resolveClaims.memWf :=
  State.foldl_memWf _ (fun _ _ hs => State.clusterClaims_memWf hs) _ h

theorem State.sendTile_memWf {s : State} {p layer t i r} (h : s.memWf) : (s.sendTile p layer t i r).memWf := by
  unfold State.sendTile
  dsimp only
  (repeat' split) <;> exact h

theorem State.sendTiles_memWf {s : State} (h : s.memWf) : s.sendTiles.memWf := by
  refine State.foldl_memWf _ (fun s p hs => State.foldl_memWf _ (fun s l hs => ?_) _ hs) _ h
  split
  · exact hs
  · refine State.foldl_memWf _ (fun s t hs => ?_) _ hs
    dsimp only
    split
    · exact State.sendTile_memWf hs
    · exact hs

theorem State.tileLands_memWf {s : State} {b r t k i} (h : s.memWf) : (s.tileLands b r t k i).memWf := by
  have hw {a bs} := Memory.writeN_wf (m := s.bb) a bs h.2.1
  grind [State.tileLands, State.memWf_parts, State.onBoard_memWf, State.onCtx_memWf, State.boardEnd_memWf, State.settle_memWf]

theorem State.trackBeat_memWf {s : State} {noise key p r k} (h : s.memWf) : (s.trackBeat noise key p r k).memWf := by
  grind [State.trackBeat, State.onBoard_memWf, State.tileLands_memWf]

theorem State.boardBeat_memWf {noise} {s : State} {key} (h : s.memWf) : (s.boardBeat noise key).memWf := by
  unfold State.boardBeat
  repeat' split
  all_goals first | exact h | exact State.foldl_memWf _ (fun _ _ hs => State.trackBeat_memWf hs) _ h

theorem State.beatsNow_memWf {s : State} {noise} (h : s.memWf) : (s.beatsNow noise).memWf := by
  unfold State.beatsNow
  refine State.foldl_memWf _ (fun s a hs => ?_) _ ?_ <;> grind [State.memWf_parts, State.sendTiles_memWf, State.boardBeat_memWf]

theorem execRingBeat_memWf {noise} {s : State} (h : s.memWf) :
    Out.memWf (execRingBeat noise s) := 
  State.memWf_ite (State.beatsNow_memWf (State.withRing_memWf (State.resolveClaims_memWf h))) h

theorem State.withFnsRing_memWf {s : State} {x y} (h : s.memWf) : ({ s with fns := x, ring := y } : State).memWf := h
theorem State.ringBoundary_memWf {s : State} (h : s.memWf) : s.ringBoundary.memWf :=
  State.withFnsRing_memWf (State.foldl_memWf _ (fun _ _ hs => State.settle_memWf (State.boardEnd_memWf hs)) _ h)

theorem execGovernorEvaluation_memWf {s : State} {held} (h : s.memWf) : Out.memWf (execGovernorEvaluation held s) := by
  unfold execGovernorEvaluation
  (repeat' split) <;> exact h

theorem State.useCap_memWf {s : State} {g n} (h : s.memWf) : (s.useCap g n).memWf := by
  grind [State.useCap, State.onTeam_memWf]

theorem State.giveCap_memWf {s : State} {g n} (h : s.memWf) : (s.giveCap g n).memWf := by
  grind [State.giveCap, State.onTeam_memWf]

theorem State.raise_memWf {s : State} {fn vec} (h : s.memWf) : (s.raise fn vec).memWf := by
  unfold State.raise
  (repeat' split) <;> exact h

theorem State.raiseCtx_memWf {s : State} {c vec} (h : s.memWf) : (s.raiseCtx c vec).memWf := State.raise_memWf h

theorem State.onQueue_memWf {s : State} {f : Queue → Queue} {c q} (h : s.memWf) : (s.onQueue c q f).memWf := h

theorem State.queueWrite_memWf {s : State} {c q data} (h : s.memWf) : (s.queueWrite c q data).memWf := by
  grind [State.queueWrite, State.store_memWf, State.onQueue_memWf, State.raiseCtx_memWf]

theorem State.postEntry_memWf {s : State} {c p} (h : s.memWf) : (s.postEntry c p).memWf := h

theorem State.postLaunch_memWf {s : State} {c l status data} (h : s.memWf) : (s.postLaunch c l status data).memWf := h

theorem execDeviceQueueEntryWrite_memWf {s : State} {cx q} (h : s.memWf) : Out.memWf (execDeviceQueueEntryWrite cx q s) := by
  grind [Out.memWf, execDeviceQueueEntryWrite, State.queueWrite_memWf, State.onCtx_memWf, State.complete_memWf]

theorem State.peer_memWf {s : State} {fn idx} (h : s.memWf) : (s.peer fn idx).1.memWf := by
  unfold State.peer
  dsimp only
  (repeat' split) <;> exact h

theorem State.unreach_memWf {s : State} {c addr} (h : s.memWf) : (s.unreach c addr).memWf := h

theorem State.emit_memWf {s : State} {p} (h : s.memWf) : (s.emit p).memWf := by
  unfold State.emit
  (repeat' split) <;> exact h

theorem State.releaseHeld_memWf {s : State} {port} (h : s.memWf) : (s.releaseHeld port).memWf :=
  State.foldl_memWf _ (fun _ _ hs => State.emit_memWf hs) _ h

theorem State.dropXfers_memWf {s : State} {out : Xfer → Bool} (h : s.memWf) : (s.dropXfers out).memWf := h

theorem State.dropXfer_memWf {s : State} {x} (h : s.memWf) : (s.dropXfer x).memWf := h

theorem State.transfer_memWf {s : State} {c idx k addr data op names} (h : s.memWf) : (s.transfer c idx k addr data op names).1.memWf := by
  have hp : (s.peer (s.ctx c).d.fn idx).1.memWf := State.peer_memWf h
  unfold State.transfer
  split
  next e => rw [e] at hp; exact hp
  next e => rw [e] at hp; exact State.foldl_memWf _ (fun _ _ hs => State.emit_memWf hs) _ hp

theorem State.checkCells_memWf {u as} {s : State} (h : s.memWf) : (State.checkCells s u as).1.memWf := by
  induction as generalizing s with
  | nil => exact h
  | cons a as ih => grind [State.checkCells, State.locate_memWf]

theorem State.claim_memWf {s : State} {u va} (h : s.memWf) : (s.claim u va).1.memWf := by
  grind [State.claim, State.locate_memWf, State.readLoc_memWf, State.writeLoc_memWf]

theorem State.msgFail_memWf {s : State} {c f} (h : s.memWf) : (s.msgFail c f).memWf := State.deferAll_memWf h

theorem execSend_memWf {s : State} {hd a b} (h : s.memWf) : Out.memWf (execSend hd a b s) := by
  unfold execSend
  refine word_memWf h fun c t ht => ?_
  grind [Res.memWf, State.memWf_parts, State.checkCells_memWf, State.msgFail_memWf, State.claim_memWf, State.start_memWf,
    State.useCap_memWf, State.postEntry_memWf, State.transfer_memWf, State.complete_memWf]

theorem execRecv_memWf {s : State} {hd d a} (h : s.memWf) : Out.memWf (execRecv hd d a s) := by
  unfold execRecv
  refine word_memWf h fun c t ht => ?_
  grind [Res.memWf, State.complete_memWf, State.msgFail_memWf, State.start_memWf, State.checkCells_memWf, State.claim_memWf,
    State.useCap_memWf]

theorem State.slotLoc_memWf {s : State} {c slot acc} (h : s.memWf) : (s.slotLoc c slot acc).1.memWf := by
  grind [State.slotLoc, State.locate_memWf]

theorem execMboxSlotRead_memWf {s : State} {gi id} (h : s.memWf) : Out.memWf (execMboxSlotRead gi id s) := by
  grind [Out.memWf, execMboxSlotRead, State.slotLoc_memWf, State.complete_memWf, State.deferAll_memWf, State.readLoc_memWf,
    State.setFe_memWf, State.onGrp_memWf]

theorem State.windowRec_memWf {s : State} {cx port addr window detail} (h : s.memWf) : (s.windowRec cx port addr window detail).memWf := by
  unfold State.windowRec
  (repeat' split) <;> exact h

theorem State.answer_memWf {s : State} {via code cx addr late} (h : s.memWf) : (s.answer via code cx addr late).memWf := State.emit_memWf h

theorem State.applied_memWf {s : State} {cx via addr d} (h : s.memWf) : (s.applied cx via addr d).memWf := by
  grind [State.applied, State.answer_memWf, State.windowRec_memWf]

theorem State.cellLoc_memWf {s : State} {u sp addr acc} (h : s.memWf) : (s.cellLoc u sp addr acc).1.memWf := by
  grind [State.cellLoc, State.locate_memWf]

theorem State.cellFail_memWf {s : State} {c addr f} (h : s.memWf) : (s.cellFail c addr f).memWf := State.deferAll_memWf h

theorem cellWord_memWf {s : State} {f : Wctx → State → Loc → Dword → ℕ → Res} {w a sp acc} (h : s.memWf)
    (hf : ∀ a t c d e, State.memWf t → (f a t c d e).memWf) :
    
    (cellWord w a sp acc s f).memWf := by
  unfold cellWord
  refine word_memWf h fun c t ht => ?_
  grind [Res.memWf, State.cellLoc_memWf, State.cellFail_memWf, State.readLoc_memWf]

theorem State.putCell_memWf {s : State} {loc n} (h : s.memWf) : (s.putCell loc n).memWf := by
  grind [State.putCell, State.writeLoc_memWf]

theorem execBar_memWf {s : State} {hd d a p _s} (h : s.memWf) : Out.memWf (execBar hd d a p _s s) := by
  unfold execBar
  refine cellWord_memWf h ?_
  grind [Res.memWf, State.onGrp_memWf, State.putCell_memWf]

theorem execBarr_memWf {s : State} {hd d a p _s} (h : s.memWf) : Out.memWf (execBarr hd d a p _s s) := by
  unfold execBarr
  refine cellWord_memWf h ?_
  grind [Res.memWf, putS_memWf, State.putCell_memWf]

theorem execBarw_memWf {s : State} {hd d a p _s} (h : s.memWf) : Out.memWf (execBarw hd d a p _s s) := by
  unfold execBarw
  refine cellWord_memWf h ?_
  grind [Res.memWf]

theorem execBart_memWf {s : State} {hd d a hint p _s} (h : s.memWf) : Out.memWf (execBart hd d a hint p _s s) := by
  unfold execBart
  refine cellWord_memWf h ?_
  grind [Res.memWf, putS_memWf]

theorem execPhaseRd_memWf {s : State} {hd d a p _s} (h : s.memWf) : Out.memWf (execPhaseRd hd d a p _s s) := by
  unfold execPhaseRd
  refine cellWord_memWf h ?_
  grind [Res.memWf, putS_memWf]

theorem execPhaseArr_memWf {s : State} {hd d a p _s} (h : s.memWf) : Out.memWf (execPhaseArr hd d a p _s s) := by
  unfold execPhaseArr
  refine cellWord_memWf h ?_
  grind [Res.memWf, putS_memWf]

theorem execPhaseInit_memWf {s : State} {hd d a p _s} (h : s.memWf) : Out.memWf (execPhaseInit hd d a p _s s) := by
  unfold execPhaseInit
  refine cellWord_memWf h ?_
  grind [Res.memWf, State.putCell_memWf]

theorem execBarrRem_memWf {s : State} {hd d a} (h : s.memWf) : Out.memWf (execBarrRem hd d a s) := by
  unfold execBarrRem
  refine word_memWf h fun c t ht => ?_
  grind [Res.memWf, State.transfer_memWf, State.useCap_memWf]

theorem execGbar_memWf {s : State} {hd d} (h : s.memWf) : Out.memWf (execGbar hd d s) := by
  unfold execGbar
  refine word_memWf h fun c t ht => ?_
  grind [Res.memWf, State.gridCheck_memWf, State.onKernel_memWf, State.onGrp_memWf]

theorem State.cellPassed_memWf {s : State} {gi w} (h : s.memWf) : (s.cellPassed gi w).1.memWf := by
  grind [State.cellPassed, State.cellLoc_memWf, State.readLoc_memWf]

theorem State.waitFails_memWf {s : State} {gi addr f} (h : s.memWf) : (s.waitFails gi addr f).memWf := by
  grind [State.waitFails, State.deferAll_memWf, State.settle_memWf, State.onGrp_memWf]

theorem execBarrierWaitComplete_memWf {s : State} {gi} (h : s.memWf) : Out.memWf (execBarrierWaitComplete gi s) := by
  grind [Out.memWf, execBarrierWaitComplete, State.cellPassed_memWf, State.settle_memWf, State.onGrp_memWf, State.waitFails_memWf]

theorem execBartExpiry_memWf {s : State} {gi} (h : s.memWf) : Out.memWf (execBartExpiry gi s) := by
  grind [Out.memWf, execBartExpiry, State.cellPassed_memWf, State.settle_memWf, State.onGrp_memWf, State.waitFails_memWf]

theorem ialuBin_memWf {s : State} {k hd m d a b} (h : s.memWf) : (ialuBin k hd m d a b s).memWf := by
  unfold ialuBin
  refine word_memWf h fun c t ht => ?_
  grind [Res.memWf, putLanes_memWf]

theorem ialuUn_memWf {s : State} {k hd m d a} (h : s.memWf) : (ialuUn k hd m d a s).memWf := by
  unfold ialuUn
  refine word_memWf h fun c t ht => ?_
  grind [Res.memWf, putLanes_memWf]

theorem ialuMove_memWf {s : State} {hd m d a} (h : s.memWf) : (ialuMove hd m d a s).memWf := by
  unfold ialuMove
  refine word_memWf h fun c t ht => ?_
  grind [Res.memWf, State.onGrp_memWf, putLanes_memWf]

theorem ialuImm_memWf {s : State} {k hd i6 d a imm} (h : s.memWf) : (ialuImm k hd i6 d a imm s).memWf := by
  unfold ialuImm
  refine word_memWf h fun c t ht => ?_
  grind [Res.memWf, putLanes_memWf]

theorem ialuBfx_memWf {s : State} {signed hd m d a pos len} (h : s.memWf) : (ialuBfx signed hd m d a pos len s).memWf := by
  unfold ialuBfx
  refine word_memWf h fun c t ht => ?_
  grind [Res.memWf, putLanes_memWf]

theorem saluBin_memWf {s : State} {k hd d a b} (h : s.memWf) : (saluBin k hd d a b s).memWf := by
  unfold saluBin
  refine word_memWf h fun c t ht => ?_
  grind [Res.memWf, putS_memWf]

theorem saluUn_memWf {s : State} {k hd d a} (h : s.memWf) : (saluUn k hd d a s).memWf := by
  unfold saluUn
  refine word_memWf h fun c t ht => ?_
  grind [Res.memWf, putS_memWf]

theorem saluImm_memWf {s : State} {k hd i6 d a imm} (h : s.memWf) : (saluImm k hd i6 d a imm s).memWf := by
  unfold saluImm
  refine word_memWf h fun c t ht => ?_
  grind [Res.memWf, putS_memWf]

theorem saluBfx_memWf {s : State} {signed hd d a pos len} (h : s.memWf) : (saluBfx signed hd d a pos len s).memWf := by
  unfold saluBfx
  refine word_memWf h fun c t ht => ?_
  grind [Res.memWf, putS_memWf]

theorem execIaluMad_memWf {s : State} {hd m d a b e sc} (h : s.memWf) : Out.memWf (execIaluMad hd m d a b e sc s) := by
  unfold execIaluMad
  refine word_memWf h fun c t ht => ?_
  grind [Res.memWf, putLanes_memWf]

theorem execIaluBfi_memWf {s : State} {hd m d a b pos len} (h : s.memWf) : Out.memWf (execIaluBfi hd m d a b pos len s) := by
  unfold execIaluBfi
  refine word_memWf h fun c t ht => ?_
  grind [Res.memWf, putLanes_memWf]

theorem execIaluSel_memWf {s : State} {hd m d a b p} (h : s.memWf) : Out.memWf (execIaluSel hd m d a b p s) := by
  unfold execIaluSel
  refine word_memWf h fun c t ht => ?_
  grind [Res.memWf, putLanes_memWf]

theorem execIaluLea_memWf {s : State} {hd m d a b sh zx} (h : s.memWf) : Out.memWf (execIaluLea hd m d a b sh zx s) := by
  unfold execIaluLea
  refine word_memWf h fun c t ht => ?_
  grind [Res.memWf, putPair_memWf]

theorem execIaluWid_memWf {s : State} {hd _m d sel pr} (h : s.memWf) : Out.memWf (execIaluWid hd _m d sel pr s) := by
  unfold execIaluWid
  refine word_memWf h fun c t ht => ?_
  grind [Res.memWf, putPair_memWf, putLanes_memWf]

theorem execIaluEscape64_memWf {s : State} {hd m d a b ifn _ty} (h : s.memWf) : Out.memWf (execIaluEscape64 hd m d a b ifn _ty s) := by
  unfold execIaluEscape64
  refine word_memWf h fun c t ht => ?_
  grind [Res.memWf, putPair_memWf]

theorem execIaluiLi_memWf {s : State} {hd k d imm} (h : s.memWf) : Out.memWf (execIaluiLi hd k d imm s) := by
  unfold execIaluiLi
  refine word_memWf h fun c t ht => ?_
  grind [Res.memWf, putLanes_memWf]

theorem execSaluMad_memWf {s : State} {hd d a b e} (h : s.memWf) : Out.memWf (execSaluMad hd d a b e s) := by
  unfold execSaluMad
  refine word_memWf h fun c t ht => ?_
  grind [Res.memWf, putS_memWf]

theorem execSaluBfi_memWf {s : State} {hd d a b pos len} (h : s.memWf) : Out.memWf (execSaluBfi hd d a b pos len s) := by
  unfold execSaluBfi
  refine word_memWf h fun c t ht => ?_
  grind [Res.memWf, putS_memWf]

theorem execSaluLea_memWf {s : State} {hd d a b sh zx} (h : s.memWf) : Out.memWf (execSaluLea hd d a b sh zx s) := by
  unfold execSaluLea
  refine word_memWf h fun c t ht => ?_
  grind [Res.memWf, putSpair_memWf]

theorem execSaluWid_memWf {s : State} {hd d sel pr} (h : s.memWf) : Out.memWf (execSaluWid hd d sel pr s) := by
  unfold execSaluWid
  refine word_memWf h fun c t ht => ?_
  grind [Res.memWf, putSpair_memWf, putS_memWf]

theorem execSaluEscape64_memWf {s : State} {hd d a b ifn _ty} (h : s.memWf) : Out.memWf (execSaluEscape64 hd d a b ifn _ty s) := by
  unfold execSaluEscape64
  refine word_memWf h fun c t ht => ?_
  grind [Res.memWf, putSpair_memWf]

theorem execSaluiLi_memWf {s : State} {hd k d imm} (h : s.memWf) : Out.memWf (execSaluiLi hd k d imm s) := by
  unfold execSaluiLi
  refine word_memWf h fun c t ht => ?_
  grind [Res.memWf, putS_memWf]

theorem execNop_memWf {s : State} {hd} (h : s.memWf) : Out.memWf (execNop hd s) := by
  unfold execNop
  refine word_memWf h fun c t ht => ?_
  grind [Res.memWf]

theorem execExit_memWf {s : State} {hd} (h : s.memWf) : Out.memWf (execExit hd s) := by
  unfold execExit
  refine word_memWf h fun c t ht => ?_
  grind [Res.memWf, State.onGrp_memWf]

theorem execYield_memWf {s : State} {hd} (h : s.memWf) : Out.memWf (execYield hd s) := by
  unfold execYield
  refine word_memWf h fun c t ht => ?_
  grind [Res.memWf, State.onGrp_memWf]

theorem execSleep_memWf {s : State} {hd n} (h : s.memWf) : Out.memWf (execSleep hd n s) := by
  unfold execSleep
  refine word_memWf h fun c t ht => ?_
  grind [Res.memWf, State.onGrp_memWf]

theorem execRegion_memWf {s : State} {hd} (h : s.memWf) : Out.memWf (execRegion hd s) := by
  unfold execRegion
  refine word_memWf h fun c t ht => ?_
  grind [Res.memWf]

theorem execTrap_memWf {s : State} {hd n} (h : s.memWf) : Out.memWf (execTrap hd n s) := by
  unfold execTrap
  refine word_memWf h fun c t ht => ?_
  grind [Res.memWf, State.defer_memWf]

theorem execEret_memWf {s : State} {hd} (h : s.memWf) : Out.memWf (execEret hd s) := by
  unfold execEret
  refine wordOwn_memWf h fun c t ht => ?_
  grind [Res.memWf, State.raiseLater_memWf, State.onGrp_memWf]

theorem State.jump_memWf {s : State} {f : Fin 32 → Word} {c} (h : s.memWf) : (s.jump c f).memWf := h

theorem execBra_memWf {s : State} {hd off} (h : s.memWf) : Out.memWf (execBra hd off s) := by
  unfold execBra
  refine word_memWf h fun c t ht => ?_
  grind [Res.memWf, State.jump_memWf]

theorem execBrx_memWf {s : State} {hd a} (h : s.memWf) : Out.memWf (execBrx hd a s) := by
  unfold execBrx
  refine word_memWf h fun c t ht => ?_
  grind [Res.memWf, State.jump_memWf, State.defer_memWf]

theorem callTo_memWf {s : State} {target : Wctx → Word} {hd sr} (h : s.memWf) : (callTo hd sr target s).memWf := by
  unfold callTo
  refine word_memWf h fun c t ht => ?_
  grind [Res.memWf, putLanes_memWf, State.jump_memWf]

theorem execRet_memWf {s : State} {hd a} (h : s.memWf) : Out.memWf (execRet hd a s) := by
  unfold execRet
  refine word_memWf h fun c t ht => ?_
  grind [Res.memWf, State.jump_memWf]

theorem loopWord_memWf {s : State} {count : Wctx → Word} {hd l n sr} (h : s.memWf) : (loopWord hd l n sr count s).memWf := by
  unfold loopWord
  refine wordOwn_memWf h fun c t ht => ?_
  grind [Res.memWf, State.onGrp_memWf, State.jump_memWf]

theorem execLbrk_memWf {s : State} {hd l} (h : s.memWf) : Out.memWf (execLbrk hd l s) := by
  unfold execLbrk
  refine word_memWf h fun c t ht => ?_
  grind [Res.memWf, State.jump_memWf, State.onGrp_memWf]

theorem execJoin_memWf {s : State} {hd d} (h : s.memWf) : Out.memWf (execJoin hd d s) := by
  unfold execJoin
  refine word_memWf h fun c t ht => ?_
  grind [Res.memWf, State.onGrp_memWf]

theorem execLeave_memWf {s : State} {hd d} (h : s.memWf) : Out.memWf (execLeave hd d s) := by
  unfold execLeave
  refine word_memWf h fun c t ht => ?_
  grind [Res.memWf, State.onGrp_memWf]

theorem execWait_memWf {s : State} {hd d} (h : s.memWf) : Out.memWf (execWait hd d s) := by
  unfold execWait
  refine word_memWf h fun c t ht => ?_
  grind [Res.memWf, State.onGrp_memWf]

theorem execTrywait_memWf {s : State} {hd d a} (h : s.memWf) : Out.memWf (execTrywait hd d a s) := by
  unfold execTrywait
  refine word_memWf h fun c t ht => ?_
  grind [Res.memWf, State.onGrp_memWf]

theorem execMset_memWf {s : State} {hd d a} (h : s.memWf) : Out.memWf (execMset hd d a s) := by
  unfold execMset
  refine word_memWf h fun c t ht => ?_
  grind [Res.memWf, State.onGrp_memWf]

theorem execMmov_memWf {s : State} {hd d a} (h : s.memWf) : Out.memWf (execMmov hd d a s) := by
  unfold execMmov
  refine word_memWf h fun c t ht => ?_
  grind [Res.memWf, putS_memWf]

theorem maskBin_memWf {s : State} {f : Word → Word → Word} {hd d a b} (h : s.memWf) : (maskBin f hd d a b s).memWf := by
  unfold maskBin
  refine word_memWf h fun c t ht => ?_
  grind [Res.memWf, State.onGrp_memWf]

theorem execMpop_memWf {s : State} {hd d a} (h : s.memWf) : Out.memWf (execMpop hd d a s) := by
  unfold execMpop
  refine word_memWf h fun c t ht => ?_
  grind [Res.memWf, putS_memWf]

theorem faluBody_memWf {k ty r q d a bn uni y c} {s : State} (h : s.memWf) : (faluBody k ty r q d a bn uni y c s).memWf := by
  have hp {t f} : (Res.ok (putFlt c s q d t f)).memWf := putFlt_memWf h
  have hs {f} : (putSpatial c s q d f).memWf := putSpatial_memWf h
  unfold faluBody
  dsimp only
  repeat' split
  all_goals first | exact hs | exact hp | trivial

theorem falu2_memWf {s : State} {k hd q d a b} (h : s.memWf) : (falu2 k hd q d a b s).memWf := by
  unfold falu2
  refine word_memWf h fun c t ht => ?_
  grind [Res.memWf, faluBody_memWf]

theorem falu1_memWf {s : State} {k hd q r d a} (h : s.memWf) : (falu1 k hd q r d a s).memWf := by
  unfold falu1
  refine word_memWf h fun c t ht => ?_
  grind [Res.memWf, faluBody_memWf]

theorem execFaluEscape_memWf {s : State} {hd m d a b ifn ty bs} (h : s.memWf) : Out.memWf (execFaluEscape hd m d a b ifn ty bs s) := by
  unfold execFaluEscape
  refine word_memWf h fun c t ht => ?_
  grind [Res.memWf, faluBody_memWf]

theorem execFfma_memWf {s : State} {hd m d a b e ty bs sc rm np na} (h : s.memWf) :
    Out.memWf (execFfma hd m d a b e ty bs sc rm np na s) := by
  unfold execFfma
  refine word_memWf h fun c t ht => ?_
  grind [Res.memWf, putSpatial_memWf, putFlt_memWf]

theorem sfuWord_memWf {s : State} {k hd q d a} (h : s.memWf) : (sfuWord k hd q d a s).memWf := by
  unfold sfuWord
  refine word_memWf h fun c t ht => ?_
  grind [Res.memWf, putSpatial_memWf]

theorem icmp_memWf {s : State} {k hd m n p a b} (h : s.memWf) : (icmp k hd m n p a b s).memWf := by
  unfold icmp
  refine word_memWf h fun c t ht => ?_
  grind [Res.memWf, State.onGrp_memWf]

theorem fcmp_memWf {s : State} {k hd m n q p a b} (h : s.memWf) : (fcmp k hd m n q p a b s).memWf := by
  unfold fcmp
  refine word_memWf h fun c t ht => ?_
  grind [Res.memWf, putFloat_memWf]

theorem convert_memWf {s : State} {es : Fin 32 → List Conv} {put : Lanes → Group → Group} {c q counting dith} (h : s.memWf) :
    (convert c s q counting dith es put).memWf := by
  grind [Res.memWf, convert, putFloat_memWf, State.onGrp_memWf]

theorem execCvt_memWf {s : State} {hd m d a st dt rm dith js jd} (h : s.memWf) : Out.memWf (execCvt hd m d a st dt rm dith js jd s) := by
  unfold execCvt
  refine word_memWf h fun c t ht => ?_
  grind [Res.memWf, convert_memWf]

theorem execQnt_memWf {s : State} {hd m d a e sb fmt st dith} (h : s.memWf) : Out.memWf (execQnt hd m d a e sb fmt st dith s) := by
  unfold execQnt
  refine word_memWf h fun c t ht => ?_
  grind [Res.memWf, convert_memWf]

theorem execDq_memWf {s : State} {hd m d a e sb fmt dt} (h : s.memWf) : Out.memWf (execDq hd m d a e sb fmt dt s) := by
  unfold execDq
  refine word_memWf h fun c t ht => ?_
  grind [Res.memWf, convert_memWf]

theorem execPack_memWf {s : State} {hd _m d a j w} (h : s.memWf) : Out.memWf (execPack hd _m d a j w s) := by
  unfold execPack
  refine word_memWf h fun c t ht => ?_
  grind [Res.memWf, State.onGrp_memWf]

theorem execUnpack_memWf {s : State} {hd _m d a j w} (h : s.memWf) : Out.memWf (execUnpack hd _m d a j w s) := by
  unfold execUnpack
  refine word_memWf h fun c t ht => ?_
  grind [Res.memWf, putLanes_memWf]

end

end Sys2Proof.Machine
end

