-- ==== Sys2Proof/Proofs/MemoryFormJobs.lean ====
section
/-! PROOFS. Pages, jobs and the engine keep the canonical form of memory. -/
namespace Sys2Proof.Machine
open Sys2Proof.Claims
noncomputable section

theorem State.putRec_memWf {s : State} {c p n r} (h : s.memWf) : (s.putRec c p n r).memWf := by
  grind [State.putRec, State.writeLoc_memWf]

theorem State.onRec_memWf {s : State} {f : PRec → PRec} {c p n} (h : s.memWf) : (s.onRec c p n f).memWf := State.putRec_memWf h

theorem State.newPage_memWf {s : State} {c pi p st x} (h : s.memWf) (e : s.newPage c pi p st = some x) : x.1.memWf := by
  unfold State.newPage at e
  split at e
  · exact Option.some.inj e ▸ State.putRec_memWf h
  · nomatch e

theorem State.freeIfDue_memWf {s : State} {c pi p n} (h : s.memWf) : (s.freeIfDue c pi p n).memWf := by
  grind [State.freeIfDue, State.putRec_memWf]

theorem State.dropRef_memWf {s : State} {c pi p n} (h : s.memWf) : (s.dropRef c pi p n).memWf := by
  grind [State.dropRef, State.onRec_memWf, State.freeIfDue_memWf]

theorem State.pageCame_memWf {s : State} {c pi n} (h : s.memWf) : (s.pageCame c pi n).memWf := h

theorem State.dropRequests_memWf {s : State} (h : s.memWf) : s.dropRequests.memWf :=
  State.foldl_memWf _ (fun _ _ hs => State.pageCame_memWf hs) _ h

theorem State.startPageIn_memWf {acc : State × List (Nat × Nat)} {q} (h : acc.1.memWf) : (State.startPageIn acc q).1.memWf := by
  unfold State.startPageIn
  dsimp only
  repeat' split
  all_goals first | exact h | exact State.withCopies_memWf (State.putRec_memWf h)

theorem State.startPageIns_memWf {s : State} (h : s.memWf) : s.startPageIns.memWf :=
  List.foldlRecOn (motive := fun a : State × List (Nat × Nat) => a.1.memWf) _ State.startPageIn (State.dropRequests_memWf h)
    fun _ ha _ _ => State.startPageIn_memWf ha

theorem State.askPageIn_memWf {s : State} {c pi n} (h : s.memWf) : (s.askPageIn c pi n).memWf := State.startPageIns_memWf h

theorem State.pinsGone_memWf {s : State} {ps} (h : s.memWf) : (s.pinsGone ps).memWf :=
  State.startPageIns_memWf (State.foldl_memWf _ (fun s k hs => by grind [State.freeIfDue_memWf]) _ h)

theorem State.onJob_memWf {s : State} {f : Job → Job} {uid} (h : s.memWf) : (s.onJob uid f).memWf := h

theorem State.jobRec_memWf {s : State} {j cause detail addr ask} (h : s.memWf) : (s.jobRec j cause detail addr ask).memWf := h

theorem State.completion_memWf {s : State} {j} (h : s.memWf) : (s.completion j).memWf := by
  grind [State.completion, State.store_memWf, State.jobRec_memWf]

theorem State.jobClose_memWf {s : State} {uid status record} (h : s.memWf) : (s.jobClose uid status record).memWf := by
  grind [State.jobClose, State.memWf_parts, State.onJob_memWf, State.pinsGone_memWf, State.completion_memWf, State.complete_memWf]

theorem State.jobEnd_memWf {s : State} {uid status} (h : s.memWf) : (s.jobEnd uid status).memWf := State.jobClose_memWf h

theorem State.jobFault_memWf {s : State} {uid cause detail addr} (h : s.memWf) : (s.jobFault uid cause detail addr).memWf := by
  grind [State.jobFault, State.onJob_memWf, State.jobRec_memWf, State.jobEnd_memWf]

theorem State.jobFoot_memWf {s : State} {uid addr} (h : s.memWf) : (s.jobFoot uid addr).memWf := by
  unfold State.jobFoot
  split
  · exact h
  · exact State.memWf_ite h (State.jobEnd_memWf (State.jobRec_memWf h))

theorem State.eoaFrom_memWf {ps uid n} {s : State} (h : s.memWf) : (State.eoaFrom ps s uid n).memWf := by
  induction ps generalizing s n with
  | nil => exact h
  | cons p ps ih => grind [State.eoaFrom, State.locate_memWf, State.onJob_memWf, State.jobFault_memWf, State.setFe_memWf]

theorem State.eoaRun_memWf {s : State} {uid} (h : s.memWf) : (s.eoaRun uid).memWf := by
  grind [State.eoaRun, State.eoaFrom_memWf]

theorem State.clearSlot_memWf {s : State} {core slot} (h : s.memWf) : (s.clearSlot core slot).memWf := h

theorem State.unsaveJobs_memWf {s : State} {c} (h : s.memWf) : (s.unsaveJobs c).memWf :=
  State.foldl_memWf _ (fun s j hs => by grind [State.eoaRun_memWf]) _
    (State.foldl_memWf _ (fun s j hs => State.clearSlot_memWf hs) _ h : State.memWf (List.foldl _ _ _))

theorem State.edgeCheck_memWf {s : State} {uid} (h : s.memWf) : (s.edgeCheck uid).memWf := by
  grind [State.edgeCheck, State.eoaRun_memWf, State.jobEnd_memWf, State.onJob_memWf]

theorem State.takeSlot_memWf {s : State} {gi d slot j} (h : s.memWf) : (s.takeSlot gi d slot j).memWf := h

theorem State.rangeJob_memWf {s t : State} {uid k} (h : s.memWf) (e : s.rangeJob uid k = some t) : t.memWf := by
  unfold State.rangeJob at e
  obtain ⟨j, -, e⟩ := Option.bind_eq_some_iff.1 e
  split at e
  · obtain ⟨f, -, rfl⟩ := Option.map_eq_some_iff.1 e
    exact State.jobEnd_memWf (State.jobRec_memWf h)
  · nomatch e

theorem State.submitCard_memWf {s : State} {gi d op kind inst off slot} (h : s.memWf) :
    (s.submitCard gi d op kind inst off slot).memWf := by
  unfold State.submitCard
  dsimp only
  generalize hj : ({ Job.new s _ _ _ _ _ _ _ with link := _ } : Job) = j
  have ht : (s.takeSlot gi d slot j).memWf := State.takeSlot_memWf h
  generalize s.takeSlot gi d slot j = t at ht ⊢
  split
  · exact State.jobFault_memWf ht
  · refine State.memWf_ite (State.jobEnd_memWf ht) ?_
    grind [State.useCap_memWf, State.rangeJob_memWf, State.eoaRun_memWf]

theorem submit_memWf {s : State} {now : State → ℕ → State} {c d cmd} (h : s.memWf) (hf : ∀ t b, State.memWf t → (now t b).memWf) :
    (submit c s d cmd now).memWf := by
  grind [Res.memWf, submit, State.memWf_parts, State.start_memWf]

theorem execJob_memWf {hd d a b} {s : State} (h : s.memWf) : Out.memWf (execJob hd d a b s) := by
  refine word_memWf h fun c t ht => ?_
  dsimp only
  split
  · trivial
  · refine Res.memWf_ite trivial (Res.memWf_ite trivial (Res.memWf_ite trivial ?_))
    split
    · trivial
    · exact submit_memWf (State.useCap_memWf ht) fun _ _ hs => State.submitCard_memWf hs

theorem execJstat_memWf {s : State} {hd d a sel} (h : s.memWf) : Out.memWf (execJstat hd d a sel s) := by
  unfold execJstat
  refine word_memWf h fun c t ht => ?_
  grind [Res.memWf, putS_memWf, State.fetch_memWf]

theorem State.catHdr_memWf {s : State} {u cat} (h : s.memWf) : (s.catHdr u cat).1.memWf := by
  grind [State.catHdr, State.readVa_memWf]

theorem State.catRead_memWf {s : State} {u cat i} (h : s.memWf) : (s.catRead u cat i).1.memWf := by
  grind [State.catRead, State.readVa_memWf]

theorem State.catWrite_memWf {s : State} {u cat i e nv fe} (h : s.memWf) : (s.catWrite u cat i e nv fe).1.memWf := by
  grind [State.catWrite, State.writeVa_memWf]

theorem State.dropCopy_memWf {s : State} {p k} (h : s.memWf) : (s.dropCopy p k).memWf := by
  grind [State.dropCopy, State.memWf_parts, State.putRec_memWf, State.freeIfDue_memWf]

theorem State.copyTold_memWf {s : State} {k f} (h : s.memWf) : (s.copyTold k f).memWf := by
  have hw : ((s.waitersFor k).foldl (fun s j => s.jobFault j.uid f.1 f.2.1 f.2.2) s).memWf :=
    State.foldl_memWf _ (fun _ _ hs => State.jobFault_memWf hs) _ h
  grind [State.copyTold, State.jobFault_memWf, State.deferAll_memWf, State.complete_memWf]

theorem State.poisonPage_memWf {s : State} {c pi p n f} (h : s.memWf) : (s.poisonPage c pi p n f).memWf := by
  unfold State.poisonPage
  refine State.startPageIns_memWf (State.freeIfDue_memWf ?_)
  refine State.foldl_memWf _ (fun _ _ hs => State.jobFault_memWf hs) _ ?_
  refine State.foldl_memWf _ (fun _ _ hs => State.jobFault_memWf (State.dropXfer_memWf hs)) _ ?_
  exact State.foldl_memWf _ (fun _ _ hs => State.copyTold_memWf (State.dropCopy_memWf hs)) _ (State.onRec_memWf h)

theorem withNewPage_memWf {s : State} {c pi p st f} (h : s.memWf) (hf : ∀ t n, t.memWf → (f t n).memWf) :
    (withNewPage s c pi p st f).memWf := by
  unfold withNewPage
  split
  · exact h
  · split
    next => exact h
    next e => exact hf _ _ (State.newPage_memWf h e)

theorem opRef_memWf {s : State} {u c pi p cat i x e nv fe} (h : s.memWf) : (opRef s u c pi p cat i x e nv fe).memWf := by
  have take {st} : PRes.memWf (if eValid e then PRes.fail s sARG else withNewPage s c pi p st fun s' n =>
      match s'.catWrite u cat i (mkEntry n 0 0 true) (some (max nv (i + 1))) fe with
      | (_, some f) => .fault s f.1 f.2.1 f.2.2
      | (s', none) => .done s') := by
    refine PRes.memWf_ite h (withNewPage_memWf h fun t n ht => ?_)
    have hw := State.catWrite_memWf (u := u) (cat := cat) (i := i) (e := mkEntry n 0 0 true) (nv := some (max nv (i + 1))) (fe := fe) ht
    split
    next => exact h
    next e => exact State.memWf_of_fst e hw
  have drop : PRes.memWf (match s.catWrite u cat i 0 none fe with
      | (_, some f) => .fault s f.1 f.2.1 f.2.2
      | (s, none) => .done ((s.dropRef c pi p (ePage e)).startPageIns)) := by
    have hw := State.catWrite_memWf (u := u) (cat := cat) (i := i) (e := 0) (nv := none) (fe := fe) h
    split
    next => exact h
    next e => exact State.startPageIns_memWf (State.dropRef_memWf (State.memWf_of_fst e hw))
  exact PRes.memWf_ite take (PRes.memWf_ite take (PRes.memWf_ite h (PRes.memWf_ite
    (PRes.memWf_ite h (PRes.memWf_ite h (State.putRec_memWf h))) (PRes.memWf_ite h drop))))

theorem opCow_memWf {s : State} {c pi p cat i e job ld} (h : s.memWf) : (opCow s c pi p cat i e job ld).memWf := by
  unfold opCow
  dsimp only
  repeat' split
  all_goals first | exact h | exact withNewPage_memWf h fun t n ht => ht

theorem opMove_memWf {s : State} {c pi p x e job} (h : s.memWf) : (opMove s c pi p x e job).memWf := by
  grind [PRes.memWf, opMove, State.memWf_parts, State.putRec_memWf]

theorem opPin_memWf {s : State} {c pi p x e} (h : s.memWf) : (opPin s c pi p x e).memWf := by
  grind [PRes.memWf, opPin, State.putRec_memWf, State.startPageIns_memWf, State.freeIfDue_memWf]

theorem State.frameBytes_memWf {s : State} {u va n} (h : s.memWf) : (s.frameBytes u va n).1.memWf := State.readVa_memWf h

theorem opHand_memWf {s : State} {u c pi p x e link job} (h : s.memWf) : (opHand s u c pi p x e link job).memWf := by
  grind [PRes.memWf, opHand, State.frameBytes_memWf, State.transfer_memWf, State.putRec_memWf]

theorem PRes.inFoot_memWf {r : PRes} {j op cat i x} {s : State} (hr : r.memWf) (h : s.memWf) : (r.inFoot j s op cat i x).memWf :=
  PRes.memWf_ite h hr

theorem pageOp_memWf {s : State} {j op cat i x} (h : s.memWf) : (pageOp s j op cat i x).memWf := by
  unfold pageOp
  dsimp only
  split
  · exact h
  · refine PRes.memWf_ite h (PRes.memWf_ite h ?_)
    have h1 := State.catHdr_memWf (u := jobWho j false) (cat := cat) h
    split
    next e => exact State.memWf_of_fst e h1
    next s1 hd e =>
      replace h1 := State.memWf_of_fst e h1
      refine PRes.memWf_ite h1 (PRes.memWf_ite h1 ?_)
      have h2 := State.catRead_memWf (u := jobWho j false) (cat := cat) (i := i) h1
      split
      next e => exact State.memWf_of_fst e h2
      next s2 en e =>
        replace h2 := State.memWf_of_fst e h2
        refine PRes.memWf_ite (PRes.inFoot_memWf (opRef_memWf h2) h2) (PRes.memWf_ite h2 (PRes.memWf_ite h2 ?_))
        split
        · exact h2
        · exact PRes.inFoot_memWf (PRes.memWf_ite (opRef_memWf h2) (PRes.memWf_ite (opCow_memWf h2) (PRes.memWf_ite (opMove_memWf h2)
            (PRes.memWf_ite (opHand_memWf h2) (opPin_memWf h2))))) h2

theorem State.pageNext_memWf {s : State} {uid} (h : s.memWf) : (s.pageNext uid).memWf := by
  grind [State.pageNext, State.onJob_memWf, State.jobEnd_memWf]

theorem State.pageStep_memWf {s : State} {uid} (h : s.memWf) : (s.pageStep uid).memWf := by
  unfold State.pageStep
  split
  · exact h
  next j _ =>
    refine State.memWf_ite h ?_
    have hp := pageOp_memWf (j := j) (op := cardOp j.card) (cat := cardB j.card 16 8) (i := j.entries.getD j.at_ 0)
        (x := cardB j.card 4 4) h
    generalize pageOp s j _ _ _ _ = r at hp ⊢
    cases r with
    | done t => exact State.pageNext_memWf hp
    | fail t st => exact State.jobEnd_memWf hp
    | fault t a b c => exact State.jobFault_memWf hp
    | wait t => exact hp
    | busy t => exact State.onJob_memWf hp
    | foot t a => exact State.jobFoot_memWf hp
    | poison t n d a => 
      dsimp only
      split
      · exact State.jobFault_memWf (State.poisonPage_memWf hp)
      · exact hp

theorem State.submitPage_memWf {s : State} {gi d op code pool cat i x link slot} (h : s.memWf) :
    (s.submitPage gi d op code pool cat i x link slot).memWf := by
  grind [State.submitPage, State.takeSlot_memWf, State.rangeJob_memWf, State.pageStep_memWf, State.edgeCheck_memWf]

theorem State.submitCmd_memWf {s : State} {gi d op cmd slot} (h : s.memWf) : (s.submitCmd gi d op cmd slot).memWf := by
  cases cmd with
  | card => exact State.submitCard_memWf h
  | page => exact State.submitPage_memWf h

theorem execJobSlotGrant_memWf {core} {s : State} (h : s.memWf) : Out.memWf (execJobSlotGrant core s) := by
  have he {gi} : State.memWf { s with slotQ := s.slotQ.erase gi } := h
  unfold execJobSlotGrant Out.memWf
  dsimp only
  repeat' split
  all_goals first | exact h | exact State.endWaits_memWf (State.submitCmd_memWf he)

theorem pageWord_memWf {code hd d a b} {s : State} (h : s.memWf) : (pageWord code hd d a b s).memWf := by
  refine word_memWf h fun c t ht => ?_
  dsimp only
  split
  · trivial
  · split
    · trivial
    · exact Res.memWf_ite trivial (submit_memWf (State.memWf_ite (State.useCap_memWf (State.useCap_memWf ht))
          (State.useCap_memWf ht)) fun _ _ hs => State.submitPage_memWf hs)

theorem State.catFail_memWf {s : State} {c f} (h : s.memWf) : (s.catFail c f).memWf := State.deferAll_memWf h

theorem State.catDone_memWf {s : State} {c d v} (h : s.memWf) : (s.catDone c d v).memWf := h

theorem catFailed_memWf {s : State} {c : Wctx} {p : Prop} [Decidable p] {cls f ds id} (h : s.memWf) :
    Res.memWf (if p then Res.hold .side else .ok (((s.start c cls 0 .posted [] ds).catFail c f).complete c.gi id)) :=
  Res.memWf_ite trivial (State.complete_memWf (State.catFail_memWf (State.start_memWf h)))
theorem execCatld_memWf {hd d a b} {s : State} (h : s.memWf) : Out.memWf (execCatld hd d a b s) := by
  unfold execCatld Out.memWf
  refine word_memWf h fun c t ht => ?_
  have hu : (t.useCap c.snap a.toNat).memWf := State.useCap_memWf ht
  extract_lets g e0 pi u cx cat i x s0 fail
  have hf {t : State} {f} (ht : t.memWf) : (fail t f).memWf := catFailed_memWf ht
  split
  next => trivial
  next =>
  refine Res.memWf_ite trivial ?_
  split
  next => exact State.catDone_memWf hu
  next p _ =>
  split
  next e => exact hf (State.memWf_of_fst e (State.catHdr_memWf hu))
  next s1 hd e =>
  have h1 := State.memWf_of_fst e (State.catHdr_memWf hu)
  refine Res.memWf_ite (State.catDone_memWf h1) ?_
  split
  next e => exact hf (State.memWf_of_fst e (State.catRead_memWf h1))
  next s2 en e =>
  have h2 := State.memWf_of_fst e (State.catRead_memWf h1)
  refine Res.memWf_ite (State.catDone_memWf h2) ?_
  split
  next => exact hf (State.giveCap_memWf h2)
  next =>
  refine Res.memWf_ite (State.catDone_memWf h2) (Res.memWf_ite trivial ?_)
  extract_lets id
  have hc := opCow_memWf (c := cx) (pi := pi) (p := p) (cat := cat) (i := i) (e := en) (job := none) (ld := some (c.gi, id)) h2
  split
  next e => exact State.catDone_memWf (e ▸ hc : PRes.memWf (.done _))
  next e => exact State.start_memWf (e ▸ hc : PRes.memWf (.busy _))
  next e => exact State.catDone_memWf (e ▸ hc : PRes.memWf (.fail _ _))
  next e =>
    have hc : State.memWf _ := (e ▸ hc : PRes.memWf (.fault ..))
    exact hf (State.memWf_ite (State.giveCap_memWf hc) hc)
  next => trivial

theorem execCatst_memWf {hd d a b} {s : State} (h : s.memWf) : Out.memWf (execCatst hd d a b s) := by
  unfold execCatst Out.memWf
  refine word_memWf h fun c t ht => ?_
  have hu : (t.useCap c.snap a.toNat).memWf := State.useCap_memWf ht
  extract_lets g e0 pi u cx cat i v e s0 fail
  have hf {t : State} {f} (ht : t.memWf) : (fail t f).memWf := catFailed_memWf ht
  split
  next => trivial
  next =>
  refine Res.memWf_ite trivial ?_
  split
  next => exact hf hu
  next =>
  split
  next e => exact hf (State.memWf_of_fst e (State.catHdr_memWf hu))
  next s1 hd e =>
  have h1 := State.memWf_of_fst e (State.catHdr_memWf hu)
  clear e
  refine Res.memWf_ite (hf h1) ?_
  extract_lets r
  clear_value r
  cases r with
  | error => exact hf (State.giveCap_memWf h1)
  | ok r =>
  refine Res.memWf_ite (hf h1) ?_
  split
  next e => exact hf h1
  next e =>
  have h2 := State.memWf_of_fst e (State.catWrite_memWf h1)
  refine State.start_memWf ?_
  split
  · exact State.putRec_memWf h2
  · exact h2

theorem State.wrote_memWf {s : State} {uid} (h : s.memWf) : (s.wrote uid).memWf := h

theorem State.granule_memWf {s : State} {j sp a bs} (h : s.memWf) : (s.granule j sp a bs).memWf := by
  grind [State.granule, State.store_memWf, State.jobFault_memWf, State.wrote_memWf]

theorem State.endAt_memWf {s : State} {uid total} (h : s.memWf) : (s.endAt uid total).memWf := by
  grind [State.endAt, State.jobEnd_memWf]

theorem State.readStop_memWf {s : State} {uid f} (h : s.memWf) : (s.readStop uid f).memWf := by
  grind [State.readStop, State.jobFoot_memWf, State.jobFault_memWf]

theorem stepMark_memWf {s : State} {j} (h : s.memWf) : (stepMark s j).memWf := State.jobEnd_memWf h

theorem stepCopy_memWf {s : State} {j} (h : s.memWf) : (stepCopy s j).memWf := by
  grind [stepCopy, State.fetch_memWf, State.jobFault_memWf, State.endAt_memWf, State.granule_memWf]

theorem stepFill_memWf {s : State} {j} (h : s.memWf) : (stepFill s j).memWf := by
  grind [stepFill, State.endAt_memWf, State.granule_memWf]

theorem stepElems_memWf {s : State} {elem : ℕ → Conv} {j w total} (h : s.memWf) : (stepElems s j w total elem).memWf := by
  grind [stepElems, State.jobEnd_memWf, State.endAt_memWf, State.onJob_memWf, State.wrote_memWf, State.locate_memWf, State.jobFault_memWf,
    State.readLoc_memWf, State.setFe_memWf, State.writeLoc_memWf]

theorem stepConv_memWf {s : State} {j} (h : s.memWf) : (stepConv s j).memWf := by
  grind [stepConv, stepElems_memWf, State.readStop_memWf]

theorem State.contribute_memWf {s : State} {j} (h : s.memWf) : (s.contribute j).memWf := by
  grind [State.contribute, State.memWf_parts, State.readStop_memWf, State.onJob_memWf, State.transfer_memWf, State.jobEnd_memWf]

theorem stepReduce_memWf {s : State} {j} (h : s.memWf) : (stepReduce s j).memWf := by
  grind [stepReduce, State.contribute_memWf, stepElems_memWf]

theorem stepAllgather_memWf {s : State} {j} (h : s.memWf) : (stepAllgather s j).memWf := by
  grind [stepAllgather, State.contribute_memWf, State.endAt_memWf, State.granule_memWf]

theorem stepBcast_memWf {s : State} {j} (h : s.memWf) : (stepBcast s j).memWf := by
  grind [stepBcast, State.contribute_memWf, State.jobEnd_memWf, State.jobFoot_memWf, State.endAt_memWf, State.granule_memWf]

theorem stepSuffix_memWf {s : State} {j} (h : s.memWf) : (stepSuffix s j).memWf := by
  grind [stepSuffix, State.jobEnd_memWf, State.readStop_memWf, State.onJob_memWf, State.endAt_memWf, State.granule_memWf]

theorem State.onSeq_memWf {s : State} {f : Seq → Seq} {slot} (h : s.memWf) : (s.onSeq slot f).memWf := h

theorem State.stallSeq_memWf {s : State} {c hd pi n} (h : s.memWf) : (s.stallSeq c hd pi n).memWf := by
  unfold State.stallSeq
  (repeat' split) <;> exact h

theorem State.unpinFor_memWf {s : State} {uid pi n per} (h : s.memWf) : (s.unpinFor uid pi n per).memWf := by
  grind [State.unpinFor, State.memWf_parts, State.pinsGone_memWf]

theorem gatherStart_memWf {s : State} {j pi p} (h : s.memWf) : (gatherStart s j pi p).memWf := by
  unfold gatherStart
  dsimp only
  repeat' split
  · exact State.jobEnd_memWf h
  · exact State.jobEnd_memWf h
  · exact State.readStop_memWf h
  · refine State.foldl_memWf _ (fun s m hs => ?_) _ (State.onJob_memWf h)
    split
    · exact hs
    · exact hs

theorem gatherEmpty_memWf {s : State} {j w a k} (h : s.memWf) : (gatherEmpty s j w a k).memWf := by
  grind [gatherEmpty, State.locate_memWf, State.jobFault_memWf, State.onJob_memWf, State.setFe_memWf]

theorem gatherAsk_memWf {s : State} {j pi p k} (h : s.memWf) : (gatherAsk s j pi p k).memWf := by
  grind [gatherAsk, State.jobFault_memWf, State.onJob_memWf, State.askPageIn_memWf, State.stallSeq_memWf]

theorem gatherCopy_memWf {s : State} {j pi p w a k x slot} (h : s.memWf) : (gatherCopy s j pi p w a k x slot).memWf := by
  grind [gatherCopy, State.fetch_memWf, State.poisonPage_memWf, State.jobFault_memWf, State.store_memWf, State.onJob_memWf,
    State.wrote_memWf, State.unpinFor_memWf]

theorem stepGather_memWf {s : State} {j} (h : s.memWf) : (stepGather s j).memWf := by
  grind [stepGather, State.jobEnd_memWf, gatherStart_memWf, gatherEmpty_memWf, gatherAsk_memWf, gatherCopy_memWf, State.jobFault_memWf]

theorem State.jobStep_memWf {s : State} {f : State → Job → State} {uid ops} (h : s.memWf) (hf : ∀ t b, State.memWf t → (f t b).memWf) :
    (s.jobStep uid ops f).memWf := by
  grind [State.jobStep, State.onJob_memWf]

theorem engineStep_memWf {s : State} {j} (h : s.memWf) : (engineStep s j).memWf := by
  grind [engineStep, stepMark_memWf, stepCopy_memWf, stepFill_memWf, stepConv_memWf, stepGather_memWf, stepReduce_memWf,
    stepAllgather_memWf, stepBcast_memWf, stepSuffix_memWf, State.pageStep_memWf]

theorem execJobGranuleAccess_memWf {uid} {s : State} (h : s.memWf) : Out.memWf (execJobGranuleAccess uid s) := by
  unfold execJobGranuleAccess Out.memWf
  dsimp only
  split
  · exact State.jobStep_memWf h fun _ _ hs => engineStep_memWf hs
  · exact h

theorem execJobMark_memWf {uid} {s : State} (h : s.memWf) :
    Out.memWf (execJobMark uid s) := State.jobStep_memWf h fun _ _ hs => stepMark_memWf hs

theorem execJobPgmoveCard_memWf {uid} {s : State} (h : s.memWf) :
    Out.memWf (execJobPgmoveCard uid s) := State.jobStep_memWf h fun _ _ hs => State.pageStep_memWf hs

theorem State.copyGranule_memWf {s : State} {u src dst} (h : s.memWf) : (s.copyGranule u src dst).1.memWf := by
  grind [State.copyGranule, State.locate_memWf, State.readLoc_memWf, State.setFe_memWf, State.writeLoc_memWf]

theorem State.copyPage_memWf {n} {s : State} {u src dst k} (h : s.memWf) : (State.copyPage n s u src dst k).1.memWf := by
  induction n generalizing s k with
  | zero => exact h
  | succ n ih => grind [State.copyPage, State.copyGranule_memWf]

theorem State.undoCopy_memWf {s : State} {p k} (h : s.memWf) : (s.undoCopy p k).memWf := by
  grind [State.undoCopy, State.dropCopy_memWf, State.startPageIns_memWf, State.onRec_memWf, State.freeIfDue_memWf]

theorem State.giveCatld_memWf {s : State} {k} (h : s.memWf) : (s.giveCatld k).memWf := by
  grind [State.giveCatld, State.giveCap_memWf]

theorem State.copyFails_memWf {s : State} {p k f} (h : s.memWf) : (s.copyFails p k f).memWf := by
  unfold State.copyFails
  refine State.memWf_ite h (State.memWf_ite ?_ ?_)
  · split
    · exact State.copyTold_memWf h
    · exact State.foldl_memWf _ (fun _ _ hs => State.jobFault_memWf hs) _ h
  · split
    · exact State.poisonPage_memWf h
    · exact State.copyTold_memWf (State.pageCame_memWf (State.withPageIns_memWf
        (State.undoCopy_memWf (State.memWf_ite (State.giveCatld_memWf h) h))))

theorem State.cowDone_memWf {s : State} {p k q} (h : s.memWf) : (s.cowDone p k q).1.memWf := by
  unfold State.cowDone
  dsimp only
  have h1 := State.catRead_memWf (u := s.cowWho k) (cat := k.cat) (i := k.ix) h
  split
  next e => exact State.memWf_of_fst e h1
  next s1 v e =>
    replace h1 := State.memWf_of_fst e h1
    have h2 := State.catWrite_memWf (u := s.cowWho k) (cat := k.cat) (i := k.ix) (e := mkEntry q (eDom v) (eNtok v) true) (nv := none)
        (fe := s1.cowFe k) h1
    split
    next e => exact State.memWf_of_fst e h2
    next s2 e =>
      replace h2 := State.memWf_of_fst e h2
      have h3 {f} : (s2.onRec k.ctx p q f).memWf := State.onRec_memWf h2
      have h4 {f x y} :
          (({ s2.onRec k.ctx p q f with copies := x, pins := y } : State).dropRef k.ctx k.pool p k.page).startPageIns.memWf :=
        State.startPageIns_memWf (State.dropRef_memWf (h3 (f := f) : State.memWf (s2.onRec k.ctx p q f)))
      generalize hu : State.startPageIns _ = u
      replace h4 : u.memWf := hu ▸ h4
      clear hu
      split
      · split
        · split
          · exact State.complete_memWf (State.onGrp_memWf h4)
          · exact h4
        · exact h4
      · exact h4

theorem State.moveDone_memWf {s : State} {p k} (h : s.memWf) : (s.moveDone p k).memWf := by
  grind [State.moveDone, State.memWf_parts, State.onRec_memWf, State.dropLocks_memWf, State.startPageIns_memWf, State.freeIfDue_memWf]

theorem State.copyStep_memWf {s : State} {k} (h : s.memWf) : (s.copyStep k).memWf := by
  unfold State.copyStep
  split
  · exact h
  next p _ =>
    refine State.memWf_ite (State.undoCopy_memWf h) (State.memWf_ite h ?_)
    have hc := State.copyPage_memWf (n := p.pg / 16 - k.done) (u := agent k.ctx) (src := p.frame k.src.1 k.src.2)
      (dst := p.frame k.dst.1 k.dst.2) (k := k.done) h
    split
    next s1 n f e =>
      replace hc := State.memWf_of_fst e hc
      grind [State.copyFails_memWf, State.cowDone_memWf, State.pageNext_memWf, State.moveDone_memWf, State.withCopies_memWf]

theorem execPageCopyComplete_memWf {s : State} {k} (h : s.memWf) : Out.memWf (execPageCopyComplete k s) := by
  grind [Out.memWf, execPageCopyComplete, State.copyStep_memWf]

theorem execPageInComplete_memWf {s : State} {k} (h : s.memWf) : Out.memWf (execPageInComplete k s) := by
  grind [Out.memWf, execPageInComplete, State.copyStep_memWf]

theorem State.handBack_memWf {s : State} {c pi n st} (h : s.memWf) : (s.handBack c pi n st).memWf := by
  grind [State.handBack, State.onRec_memWf, State.startPageIns_memWf, State.freeIfDue_memWf]

theorem execHandoffAck_memWf {s : State} {x} (h : s.memWf) : Out.memWf (execHandoffAck x s) := by
  grind [Out.memWf, execHandoffAck, State.pageNext_memWf, State.handBack_memWf, State.dropXfer_memWf]

end

end Sys2Proof.Machine
end

