-- ==== Sys2Proof/Proofs/MemoryFormTeams.lean ====
section
/-! PROOFS. Tiles, kernels, teams, wave storage and parks keep the canonical form of memory. -/
namespace Sys2Proof.Machine
open Sys2Proof.Claims
noncomputable section

theorem State.gangFail_memWf {s : State} {r detail} (h : s.memWf) : (s.gangFail r detail).memWf := by
  grind [State.gangFail, State.onGrp_memWf, State.settle_memWf, State.deferAll_memWf]

theorem State.gangMeet_memWf {s : State} {c k mask nacc} (h : s.memWf) : (s.gangMeet c k mask nacc).memWf := by
  grind [Res.memWf, State.gangMeet, State.memWf_parts, State.gangFail_memWf, State.onTeam_memWf, State.deferAll_memWf]

theorem execGang_memWf {s : State} {hd k a b} (h : s.memWf) : Out.memWf (execGang hd k a b s) := by
  unfold execGang
  refine word_memWf h fun c t ht => ?_
  grind [Res.memWf, State.gangMeet_memWf, State.onTeam_memWf]

theorem execBandGrant_memWf {t k} {s : State} (h : s.memWf) : Out.memWf (execBandGrant t k s) := by
  refine State.memWf_of_next ?_
  split
  next => exact h
  split
  next => exact h
  exact State.memWf_ite h (State.foldl_memWf _ (fun _ _ hs => State.endWaits_memWf (State.onGrp_memWf hs)) _
      (State.onTeam_memWf _ _ h fun _ hx => hx))

theorem State.mmaFail_memWf {s : State} {members cause detail addr absent} (h : s.memWf) :
    (s.mmaFail members cause detail addr absent).memWf := by
  unfold State.mmaFail
  refine State.foldl_memWf _ (fun s a hs => ?_) _ ?_ <;> grind [State.memWf_parts, State.onGrp_memWf, State.deferAll_memWf,
    State.settle_memWf]

theorem State.formFail_memWf {s : State} {t tm x} (h : s.memWf) : (s.formFail t tm x).memWf := by
  unfold State.formFail
  refine State.foldl_memWf _ (fun s a hs => ?_) _ ?_ <;> grind [State.memWf_parts, State.onTeam_memWf, State.gangFail_memWf]

theorem State.gangAbsent_memWf {s : State} {t} (h : s.memWf) : (s.gangAbsent t).memWf := by
  unfold State.gangAbsent
  split
  · exact h
  next tm _ =>
  extract_lets away s1 bad
  refine State.foldl_memWf _ (fun s r hs => ?_) _ ?_
  · have ht {f} (hf : ∀ u, Team.sp (f u) = u.sp) : (s.onTeam t f).memWf := State.onTeam_memWf _ _ hs fun u hx => hf u ▸ hx
    exact State.gangFail_memWf (ht fun _ => rfl)
  refine State.foldl_memWf _ (fun s x hs => ?_) _ h
  extract_lets ms
  cases ms.filter (away x) with
  | nil => exact hs
  | cons => exact State.memWf_ite (State.mmaFail_memWf hs) (State.formFail_memWf hs)

theorem execGangDissolve_memWf {t} {s : State} (h : s.memWf) : Out.memWf (execGangDissolve t s) := by
  refine State.memWf_of_next ?_
  have h1 := State.gangAbsent_memWf (t := t) h
  extract_lets s1
  split
  next => exact h1
  split
  next => exact h1
  exact State.foldl_memWf _ (fun _ _ hs => State.endWaits_memWf (State.onGrp_memWf hs)) _ (State.onTeam_memWf _ _ h1 fun _ hx => hx)

theorem bandWord_memWf {s : State} {f : Wctx → State → Except (ℕ × ℕ) TileFn} {w acc dv} (h : s.memWf) :
    (bandWord w acc dv s f).memWf := by
  unfold bandWord
  refine word_memWf h fun c t ht => ?_
  grind [Res.memWf, State.start_memWf]

theorem State.acvtDone_memWf {s : State} {gi o b d n c0 dt noba nobb ba ovp th} (h : s.memWf) :
    (s.acvtDone gi o b d n c0 dt noba nobb ba ovp th).memWf :=
  State.deferAll_memWf h

theorem State.tileDone_memWf {s : State} {gi o k acc i fn} (h : s.memWf) : (s.tileDone gi o k acc i fn).memWf := by
  have hb {f : Band → Band} : (s.onTeam (s.grp gi).team fun u => u.onBand k acc i f).memWf := State.onTeam_memWf _ _ h fun _ hx => hx
  unfold State.tileDone
  extract_lets t on
  cases fn with
  | acz => exact hb
  | acanch a => exact hb
  | acld off => exact State.memWf_ite (State.deferAll_memWf h) hb
  | acst off =>
    dsimp only
    split
    · exact State.onTeam_memWf _ _ h fun _ hx => Memory.writeN_wf _ _ hx
    · exact h
  | acvt =>
    dsimp only
    split
    · exact State.acvtDone_memWf h
    · exact h

theorem State.tileStep_memWf {s : State} {gi id} (h : s.memWf) : (s.tileStep gi id).memWf := by
  grind [State.tileStep, State.complete_memWf, State.tileDone_memWf]

theorem execTgset_memWf {s : State} {hd d a b} (h : s.memWf) : Out.memWf (execTgset hd d a b s) := by
  unfold execTgset
  refine word_memWf h fun c t ht => ?_
  grind [Res.memWf, State.onGrp_memWf]

theorem execTgget_memWf {s : State} {hd d a sel} (h : s.memWf) : Out.memWf (execTgget hd d a sel s) := by
  unfold execTgget
  refine word_memWf h fun c t ht => ?_
  grind [Res.memWf, putS_memWf]

theorem State.mmaDone_memWf {s : State} {ids} (h : s.memWf) : (s.mmaDone ids).memWf :=
  State.foldl_memWf _ (fun _ _ hs => State.complete_memWf hs) _ h

theorem State.rendezvous_memWf {s : State} {ti x os} (h : s.memWf) : (s.rendezvous ti x os).memWf := by
  unfold State.rendezvous
  extract_lets ids
  split
  · exact h
  split
  · refine State.memWf_ite (State.mmaFail_memWf h) ?_
    split
    · exact State.mmaFail_memWf h
    · have ht {l : List (Nat × Nat)} : (l.foldl (fun s p => s.onGrp p.1 fun g => g.onOp p.2 fun o => { o with todo := 0 }) s).memWf :=
        State.foldl_memWf _ (fun _ _ hs => State.onGrp_memWf hs) _ h
      split
      · exact State.mmaDone_memWf ht
      · exact State.withMeets_memWf (State.onTeam_memWf _ _ ht fun _ hx => hx)
  · exact h

theorem State.meet_memWf {s : State} {ti x} (h : s.memWf) : (s.meet ti x).memWf := by
  grind [State.meet, State.rendezvous_memWf]

theorem State.meets4_memWf {s : State} {ti x} (h : s.memWf) : (s.meets4 ti x).memWf :=
  State.foldl_memWf _ (fun _ _ hs => State.meet_memWf hs) _ h

theorem mmaWord_memWf {f hd reuse acc a b sa sel bsp clr} {s : State} (h : s.memWf) :
    (mmaWord f hd reuse acc a b sa sel bsp clr s).memWf := by
  refine settleRes_memWf h (Res.memWf_ite trivial (Res.memWf_ite (State.advance_memWf h) ?_))
  split
  next => trivial
  next x _ =>
  refine Res.memWf_ite trivial ?_
  extract_lets kept
  refine Res.memWf_ite trivial ?_
  extract_lets regs
  split
  next => trivial
  next =>
  refine Res.memWf_ite trivial (Res.memWf_ite trivial (Res.memWf_ite trivial (Res.memWf_ite trivial (Res.memWf_ite trivial
      (Res.memWf_ite trivial ?_)))))
  exact State.meets4_memWf (State.region_memWf (State.onGrp_memWf (State.start_memWf (State.advance_memWf h))))

theorem State.runPass_memWf {s : State} {ti p} (h : s.memWf) : (s.runPass ti p).memWf := by
  unfold State.runPass
  split
  next => exact h
  next i q rest _ =>
  split
  next => exact h
  next x _ =>
  extract_lets f p' s1 s2
  have h1 : s1.memWf := State.onTeam_memWf _ _ h fun _ hx => hx
  have h2 : s2.memWf := by
    unfold s2
    split <;> exact h1
  exact State.memWf_ite (State.mmaDone_memWf h2) h2

theorem State.startPasses_memWf {cl isl n} {s : State} (h : s.memWf) : (State.startPasses cl isl n s).memWf := by
  induction n generalizing s with
  | zero => exact h
  | succ n ih =>
    unfold State.startPasses
    extract_lets level
    split
    · exact h
    · exact ih (State.runPass_memWf (State.withIslands_memWf h))

theorem State.meetCluster_memWf {s : State} {cl} (h : s.memWf) : (s.meetCluster cl).memWf := by
  refine State.foldl_memWf _ (fun s ti hs => ?_) _ h
  split
  · exact State.memWf_ite (State.foldl_memWf _ (fun _ _ hs => State.meets4_memWf hs) _ hs) hs
  · exact hs

theorem execEnginePassStart_memWf {isl} {s : State} (h : s.memWf) : Out.memWf (execEnginePassStart isl s) :=
  State.foldl_memWf _ (fun _ _ hs => State.startPasses_memWf (State.meetCluster_memWf hs)) _ (State.withIslands_memWf h)

theorem State.ctxEvent_memWf {s : State} {c e} (h : s.memWf) : (s.ctxEvent c e).memWf := h

theorem State.areaHeader_memWf {s : State} {c} (h : s.memWf) :
    (s.areaHeader c).memWf := State.physWrite_memWf _ _ _ (State.physWrite_memWf _ _ _ h)

theorem State.startKernel_memWf {s : State} {c addr n own launch herd role} (h : s.memWf) :
    (s.startKernel c addr n own launch herd role).1.memWf := by
  unfold State.startKernel
  extract_lets bs hd hd'
  split
  · exact State.ctxEvent_memWf (State.withKernels_memWf h)
  · exact h

theorem State.flushStores_memWf {s : State} {gi} (h : s.memWf) : (s.flushStores gi).memWf :=
  State.foldl_memWf _ (fun _ _ hs => State.stepLanes_memWf hs) _ h

theorem State.dropBoards_memWf {s : State} {gi} (h : s.memWf) : (s.dropBoards gi).memWf := h

theorem State.freeGroup_memWf {s : State} {gi} (h : s.memWf) : (s.freeGroup gi).memWf := h

theorem State.kill_memWf {s : State} {gi} (h : s.memWf) : (s.kill gi).memWf := by
  grind [State.kill, State.freeGroup_memWf, State.flushStores_memWf]

theorem State.rebind_memWf {s : State} {kn} (h : s.memWf) : (s.rebind kn).memWf := h

theorem State.teamRetire_memWf {s : State} {t} (h : s.memWf) : (s.teamRetire t).memWf := by
  unfold State.teamRetire
  split
  next => exact h
  next tm _ =>
  refine State.memWf_ite h ?_
  have h1 : (s.onTeam t Team.retire).memWf := State.onTeam_memWf _ _ h fun _ hx => hx
  have h2 {f} : (((s.onTeam t Team.retire).rebind tm.kernel).onKernel tm.kernel f).memWf := State.onKernel_memWf (State.rebind_memWf h1)
  exact State.ctxEvent_memWf (State.ctxEvent_memWf (State.memWf_ite (State.areaHeader_memWf h2) h2))

theorem execGroupFree_memWf {gi} {s : State} (h : s.memWf) : Out.memWf (execGroupFree gi s) :=
  State.memWf_ite (State.teamRetire_memWf (State.freeGroup_memWf h)) h

theorem State.cancelRecs_memWf {s : State} {k} (h : s.memWf) : (s.cancelRecs k).memWf := by
  unfold State.cancelRecs
  refine State.foldl_memWf _ (fun s a hs => ?_) _ ?_ <;> grind [State.memWf_parts, State.store_memWf, State.onCtx_memWf]

theorem State.cancelKernel_memWf {s : State} {k rs} (h : s.memWf) : (s.cancelKernel k rs).memWf := by
  unfold State.cancelKernel
  split
  next => exact h
  next kn _ =>
  refine State.memWf_ite h ?_
  extract_lets s1 s2 mine away s3 s4 s5
  have h2 : s2.memWf := State.onKernel_memWf (State.cancelRecs_memWf h)
  have h3 : s3.memWf := by
    refine State.foldl_memWf _ (fun s t hs => ?_) _ h2
    split
    · exact State.onTeam_memWf _ _ (State.foldl_memWf _ (fun _ _ hs => State.kill_memWf hs) _ hs) fun _ hx => hx
    · exact hs
  have h4 : s4.memWf := State.memWf_ite (State.areaHeader_memWf h3) h3
  exact State.ctxEvent_memWf (State.foldl_memWf _ (fun _ _ hs => State.jobClose_memWf hs) _ h4)

theorem execKernelCancelComplete_memWf {s : State} {k} (h : s.memWf) : Out.memWf (execKernelCancelComplete k s) := by
  grind [Out.memWf, execKernelCancelComplete, State.onKernel_memWf, State.raiseCtx_memWf, State.postLaunch_memWf]

theorem State.signal_memWf {s : State} {kn} (h : s.memWf) : (s.signal kn).1.memWf := by
  grind [State.signal, State.locate_memWf, State.writeLoc_memWf]

theorem State.clerkLaunch_memWf {s : State} {kn} (h : s.memWf) : (s.clerkLaunch kn).memWf := by
  unfold State.clerkLaunch
  split
  · exact State.startKernel_memWf h
  · exact h

theorem execKernelEndSequence_memWf {s : State} {k} (h : s.memWf) : Out.memWf (execKernelEndSequence k s) := by
  grind [Out.memWf, execKernelEndSequence, State.onKernel_memWf, State.writeBack_memWf, State.signal_memWf, State.raiseCtx_memWf,
    State.postLaunch_memWf, State.clerkLaunch_memWf]

theorem State.loosen_memWf {s : State} {kn} (h : s.memWf) : (s.loosen kn).memWf := h

theorem execOrderTokenPass_memWf {s : State} {k} (h : s.memWf) : Out.memWf (execOrderTokenPass k s) := by
  unfold execOrderTokenPass
  dsimp only
  (repeat' split) <;> exact h

theorem State.saveFullRec_memWf {s : State} {kn} (h : s.memWf) : (s.saveFullRec kn).memWf := by
  grind [State.saveFullRec, State.raiseCtx_memWf, State.post_memWf, State.onKernel_memWf]

theorem State.leave_memWf {s : State} {t why} (h : s.memWf) : (s.leave t why).memWf := by
  unfold State.leave
  split
  · exact h
  · exact State.foldl_memWf _ (fun _ _ hs => State.onGrp_memWf hs) _ (State.onTeam_memWf _ _ h fun _ hx => hx)

theorem State.evictFor_memWf {s : State} {die c} (h : s.memWf) : (s.evictFor die c).memWf := by
  refine State.memWf_ite h ?_
  extract_lets t
  have ht : t.memWf := by
    refine State.foldl_memWf _ (fun s i hs => ?_) _ h
    split
    · exact State.saveFullRec_memWf hs
    · exact hs
  split
  · exact State.foldl_memWf _ (fun _ _ hs => State.leave_memWf hs) _ ht
  · exact ht

theorem State.template_memWf {s : State} {k} (h : s.memWf) : (s.template k).1.memWf := by
  grind [State.template, State.readVa_memWf]

theorem State.placeTeam_memWf {s : State} {kn idx core} (h : s.memWf) : (s.placeTeam kn idx core).memWf := by
  unfold State.placeTeam
  split
  next => exact h
  next k _ =>
  split
  next e =>
  exact State.ctxEvent_memWf (State.onKernel_memWf (State.memWf_newTeam (State.memWf_of_fst e (State.template_memWf h)) rfl))

theorem execDieRangeTake_memWf {s : State} {die k} (h : s.memWf) : Out.memWf (execDieRangeTake die k s) := by
  unfold execDieRangeTake
  (repeat' split) <;> exact h

theorem execTeamPlacement_memWf {s : State} {core} (h : s.memWf) : Out.memWf (execTeamPlacement core s) := by
  grind [Out.memWf, execTeamPlacement, State.evictFor_memWf, State.placeTeam_memWf]

theorem State.startWave_memWf {s : State} {c q outs fl dv} (h : s.memWf) : (s.startWave c q outs fl dv).memWf := h

theorem execWvf_memWf {s : State} {hd m d a u sc x l} (h : s.memWf) : Out.memWf (execWvf hd m d a u sc x l s) := by
  unfold execWvf
  refine word_memWf h fun c t ht => ?_
  grind [Res.memWf, State.startWave_memWf]

theorem execWvi_memWf {s : State} {hd m d a} (h : s.memWf) : Out.memWf (execWvi hd m d a s) := by
  unfold execWvi
  refine word_memWf h fun c t ht => ?_
  grind [Res.memWf, State.startWave_memWf]

theorem execWthr_memWf {s : State} {hd d a n} (h : s.memWf) : Out.memWf (execWthr hd d a n s) := by
  unfold execWthr
  refine wordOwn_memWf h fun c t ht => ?_
  grind [Res.memWf, State.startWave_memWf]

theorem State.extentFault_memWf {s : State} {u sp acc base n} (h : s.memWf) : (s.extentFault u sp acc base n).1.memWf := by
  refine State.foldlFst_memWf _ (fun a i ha => ?_) _ h
  extract_lets b
  split
  next e => exact State.memWf_of_fst e (State.locate_memWf ha)
  next e => exact State.memWf_of_fst e (State.locate_memWf ha)

theorem State.lateScan_memWf {s : State} {u sp acc base is} (h : s.memWf) : (s.lateScan u sp acc base is).1.memWf := by
  refine State.foldlFst_memWf _ (fun a i ha => ?_) _ h
  extract_lets b
  split
  · exact ha
  split
  next e => exact State.memWf_of_fst e (State.locate_memWf ha)
  next e => exact State.memWf_of_fst e (State.locate_memWf ha)

theorem State.scanExtent_memWf {s : State} {u sp acc base n is} (h : s.memWf) : (s.scanExtent u sp acc base n is).1.memWf := by
  grind [State.scanExtent, State.extentFault_memWf, State.lateScan_memWf]

theorem State.waveFail_memWf {s : State} {c dv f} (h : s.memWf) : (s.waveFail c dv f).memWf := State.deferAll_memWf h

theorem State.storeSegs_memWf {s : State} {u r} (h : s.memWf) : (s.storeSegs u r).1.memWf := by
  grind [State.storeSegs, State.scanExtent_memWf, State.writeVa_memWf]

theorem State.loadSegs_memWf {s : State} {u q} (h : s.memWf) : (s.loadSegs u q).1.memWf := by
  unfold State.loadSegs
  split
  next e => exact State.memWf_of_fst e (State.scanExtent_memWf h)
  next s1 e =>
  have h1 := State.memWf_of_fst e (State.scanExtent_memWf h)
  split
  next e => exact State.memWf_of_fst e (State.readVa_memWf h1)
  next s2 _ e =>
  have h2 := State.memWf_of_fst e (State.readVa_memWf h1)
  extract_lets desc
  split
  · exact h2
  split
  next e => exact State.memWf_of_fst e (State.scanExtent_memWf h2)
  next s3 e =>
  have h3 := State.memWf_of_fst e (State.scanExtent_memWf h2)
  split
  next s4 hs e =>
  have h4 : s4.memWf := by
    refine State.memWf_of_fst e (State.foldlFst_memWf _ (fun r i hr => ?_) _ h3)
    split
    next e => exact State.memWf_of_fst e (State.readVa_memWf hr)
    next e => exact State.memWf_of_fst e (State.readVa_memWf hr)
  extract_lets bad
  clear_value bad
  split
  · exact h4
  split
  next e => exact State.memWf_of_fst e (State.lateScan_memWf h4)
  next s5 e =>
  have h5 := State.memWf_of_fst e (State.lateScan_memWf h4)
  split
  next e =>
  refine State.memWf_of_fst e (State.foldlFst_memWf _ (fun r i hr => ?_) _ h5)
  split
  next e => exact State.memWf_of_fst e (State.readVa_memWf hr)
  next e => exact State.memWf_of_fst e (State.readVa_memWf hr)

theorem State.doSegs_memWf {s : State} {u r} (h : s.memWf) : (s.doSegs u r).1.memWf := by
  grind [State.doSegs, State.loadSegs_memWf, State.storeSegs_memWf]

theorem segWord_memWf {s : State} {c r dv} (h : s.memWf) : (segWord c r dv s).memWf := by
  grind [Res.memWf, segWord, State.start_memWf, State.doSegs_memWf, State.waveFail_memWf, State.startWave_memWf]

theorem execStw_memWf {s : State} {hd m a b mode l x sc t n rw} (h : s.memWf) : Out.memWf (execStw hd m a b mode l x sc t n rw s) := by
  unfold execStw
  refine wordOwn_memWf h fun c t ht => ?_
  grind [Res.memWf, segWord_memWf]

theorem execLdw_memWf {s : State} {hd d b mode rw} (h : s.memWf) : Out.memWf (execLdw hd d b mode rw s) := by
  unfold execLdw
  refine word_memWf h fun c t ht => ?_
  grind [Res.memWf, segWord_memWf]

theorem State.segStep_memWf {s : State} {gi id} (h : s.memWf) : (s.segStep gi id).memWf := by
  grind [State.segStep, State.onGrp_memWf, State.doSegs_memWf, State.settle_memWf, State.pump_memWf, State.deferAll_memWf]

theorem execWaveComplete_memWf {s : State} {gi id} (h : s.memWf) : Out.memWf (execWaveComplete gi id s) := by
  grind [Out.memWf, execWaveComplete, State.onGrp_memWf, State.complete_memWf, flagLanes_memWf, State.segStep_memWf]

theorem State.contextFault_memWf {s : State} {c r} (h : s.memWf) : (s.contextFault c r).memWf := by
  have h1 {l : List Nat} : (l.foldl (fun s k => if s.ctxK k = c then s.cancelKernel k true else s) s).memWf :=
    State.foldl_memWf _ (fun s k hs => State.memWf_ite (State.cancelKernel_memWf hs) hs) _ h
  unfold State.contextFault
  extract_lets x
  exact State.memWf_ite h (State.raiseCtx_memWf (State.memWf_ite (State.post_memWf (State.onCtx_memWf h1)) (State.onCtx_memWf h1)))

theorem State.askPark_memWf {s : State} {t why} (h : s.memWf) : (s.askPark t why).memWf := by
  grind [State.askPark, State.leave_memWf, State.saveFullRec_memWf]

theorem execTokenPark_memWf {s : State} {t} (h : s.memWf) : Out.memWf (execTokenPark t s) := by
  grind [Out.memWf, execTokenPark, State.askPark_memWf]

theorem execGridBarrierPark_memWf {s : State} {t} (h : s.memWf) : Out.memWf (execGridBarrierPark t s) := by
  grind [Out.memWf, execGridBarrierPark, State.askPark_memWf]

theorem State.placeAll_memWf {s : State} {gi} (h : s.memWf) : (s.placeAll gi).memWf := by
  refine State.foldl_memWf _ (fun s o hs => ?_) _ ?_
  · split
    · exact State.arrive_memWf hs
    · exact State.memWf_ite (State.arrive_memWf hs) hs
    · exact State.tileStep_memWf hs
    · exact State.segStep_memWf hs
    · exact hs
  · exact State.memWf_ite (State.foldl_memWf _ (fun _ _ hs => State.ordStep_memWf hs) _ (State.pump_memWf h)) (State.pump_memWf h)

theorem State.parkBoards_memWf {s : State} {gi} (h : s.memWf) : (s.parkBoards gi).memWf := by
  unfold State.parkBoards
  refine State.foldl_memWf _ (fun s a hs => ?_) _ ?_ <;> grind [State.memWf_parts, State.dropBoards_memWf, State.boardEnd_memWf]

theorem State.parkTeam_memWf {s : State} {ti off why} (h : s.memWf) : (s.parkTeam ti off why).memWf := by
  unfold State.parkTeam
  split
  next => exact h
  next t _ =>
  extract_lets waits s1 out s2
  have h2 : s2.memWf := by
    refine State.withQueues_memWf (State.foldl_memWf _ (fun s gi hs => ?_) _ h)
    exact State.memWf_ite hs (State.onGrp_memWf (State.placeAll_memWf (State.onGrp_memWf (State.parkBoards_memWf hs))))
  clear_value s2
  split
  next k t' _ _ =>
    extract_lets s3 s4
    have h4 : s4.memWf := State.areaHeader_memWf (State.loosen_memWf (State.onTeam_memWf _ _
        (State.physWrite_memWf _ _ _ h2) fun _ hx => hx))
    exact State.memWf_ite (State.ctxEvent_memWf h4) h4
  next => exact h2

theorem State.saveEnds_memWf {s : State} {c ks} (h : s.memWf) : (s.saveEnds c ks).memWf := by
  have hs : ((ks.foldl State.saveFullRec s).unsaveJobs c).memWf := State.unsaveJobs_memWf (State.foldl_memWf _
      (fun _ _ hs => State.saveFullRec_memWf hs) _ h)
  exact State.memWf_ite (State.raiseCtx_memWf (State.onCtx_memWf hs)) (State.onCtx_memWf hs)

theorem State.noRoom_memWf {s : State} {ti why} (h : s.memWf) : (s.noRoom ti why).memWf := by
  unfold State.noRoom
  split
  next => exact h
  extract_lets stay c
  have hstay {s : State} {i} (h : s.memWf) : (stay s i).memWf := by
    unfold stay
    split
    · exact State.foldl_memWf _ (fun _ _ hs => State.onGrp_memWf hs) _ (State.onTeam_memWf _ _ h fun _ hx => hx)
    · exact h
  refine State.memWf_ite (State.saveEnds_memWf (State.foldl_memWf _ (fun s i hs => ?_) _ h)) ?_
  · split
    · exact State.memWf_ite (hstay hs) hs
    · exact hs
  · exact State.memWf_ite (State.saveFullRec_memWf h) (hstay (State.saveFullRec_memWf h))

theorem execTeamPark_memWf {t} {s : State} (h : s.memWf) : Out.memWf (execTeamPark t s) := by
  refine State.memWf_of_next ?_
  split
  · exact h
  split
  · refine State.memWf_ite h ?_
    split
    · exact h
    split
    · exact State.parkTeam_memWf h
    · exact State.noRoom_memWf h
  · exact h

theorem State.mirrorGroup_memWf {s : State} {gi} (h : s.memWf) : (s.mirrorGroup gi).memWf := by
  unfold State.mirrorGroup
  extract_lets g
  split
  next =>
    split
    · extract_lets b ws s1
      exact State.onGrp_memWf (State.physWrite_memWf _ _ _ (State.foldl_memWf _ (fun s i hs => State.memWf_ite hs
          (State.physWrite_memWf _ _ _ hs)) _ h))
    · exact h
  next => exact h

theorem State.slotAgain_memWf {s : State} {gi} (h : s.memWf) : (s.slotAgain gi).memWf := by
  unfold State.slotAgain
  (repeat' split) <;> exact h

theorem State.resumeTeam_memWf {s : State} {ti core} (h : s.memWf) : (s.resumeTeam ti core).memWf := by
  unfold State.resumeTeam
  split
  next => exact h
  next t _ =>
  split
  next => 
    extract_lets a mine s1 s2 s3 s4 s5 s6 s7
    refine State.memWf_ite (State.contextFault_memWf h) ?_
    have h1 : s1.memWf := State.memWf_ite (State.foldl_memWf _ (fun _ _ hs => State.onGrp_memWf hs) _ h) h
    have h2 : s2.memWf := by
      refine State.foldl_memWf _ (fun s r hs => ?_) _ h1
      split
      · exact State.onGrp_memWf hs
      · exact hs
    have h4 : s4.memWf := State.foldl_memWf _ (fun _ _ hs => State.slotAgain_memWf (State.onGrp_memWf hs)) _ (State.onCtx_memWf h2)
    have h6 : s6.memWf := State.rebind_memWf (State.onKernel_memWf (State.onTeam_memWf _ _ h4 fun _ hx => hx))
    have h7 : s7.memWf := State.areaHeader_memWf (State.foldl_memWf _ (fun _ _ hs => State.settle_memWf hs) _ h6)
    exact State.ctxEvent_memWf (State.ctxEvent_memWf h7)
  next => exact h

theorem execTeamResume_memWf {s : State} {core} (h : s.memWf) : Out.memWf (execTeamResume core s) := by
  grind [Out.memWf, execTeamResume, State.resumeTeam_memWf]

end

end Sys2Proof.Machine
end

