-- ==== Sys2Proof/Proofs/MemoryFormHost.lean ====
section
/-! PROOFS. Records, queues, contexts, host, links, messages, trust, sequences and fetch keep the canonical form of memory. -/
namespace Sys2Proof.Machine
open Sys2Proof.Claims
noncomputable section

theorem State.countDrop_memWf {s : State} {fn} (h : s.memWf) : (s.countDrop fn).memWf := h

theorem State.writeRecord_memWf {s : State} {c base bs} (h : s.memWf) : (s.writeRecord c base bs).1.memWf := by
  grind [State.writeRecord, State.store_memWf]

theorem State.putRecord_memWf {s : State} {c i r} (h : s.memWf) : (s.putRecord c i r).memWf := by
  unfold State.putRecord
  extract_lets s1 x r'
  have h1 : s1.memWf := by
    unfold s1
    split
    · exact State.mirrorGroup_memWf h
    · exact h
  clear_value s1
  split
  next e =>
    have h2 := State.memWf_of_fst e (State.writeRecord_memWf h1)
    exact State.raiseCtx_memWf (State.onCtx_memWf h2)
  next e =>
    have h2 := State.memWf_of_fst e (State.writeRecord_memWf h1)
    exact State.contextFault_memWf (State.countDrop_memWf (State.onCtx_memWf h2))

theorem execFaultRecordWrite_memWf {s : State} {cx} (h : s.memWf) : Out.memWf (execFaultRecordWrite cx s) := by
  grind [Out.memWf, execFaultRecordWrite, State.countDrop_memWf, State.onCtx_memWf, State.putRecord_memWf]

theorem execFqciWrite_memWf {s : State} {fn cx val} (h : s.memWf) : Out.memWf (execFqciWrite fn cx val s) := by
  unfold execFqciWrite
  (repeat' split) <;> exact h

theorem State.jobResume_memWf {s : State} {uid} (h : s.memWf) : (s.jobResume uid).memWf := by
  grind [State.jobResume, State.onJob_memWf, State.eoaRun_memWf]

theorem execResolveResume_memWf {s : State} {fn rid} (h : s.memWf) : Out.memWf (execResolveResume fn rid s) := by
  grind [Out.memWf, execResolveResume, State.jobResume_memWf, State.onCtx_memWf]

theorem execResolveCancel_memWf {fn rid} {s : State} (h : s.memWf) : Out.memWf (execResolveCancel fn rid s) := by
  refine State.memWf_of_next ?_
  split
  next => exact h
  next =>
  split
  · exact State.jobEnd_memWf (State.onCtx_memWf (State.onCtx_memWf h))
  · exact State.cancelKernel_memWf (State.onCtx_memWf h)
  · exact State.onCtx_memWf h

theorem State.queueRecord_memWf {s : State} {c} (h : s.memWf) : (s.queueRecord c).memWf := h

theorem execDoorbellWrite_memWf {s : State} {fn cx off val} (h : s.memWf) : Out.memWf (execDoorbellWrite fn cx off val s) := by
  unfold execDoorbellWrite
  dsimp only
  (repeat' split) <;> exact h

theorem State.consume_memWf {s : State} {c q} (h : s.memWf) : (s.consume c q).memWf := by
  grind [State.consume, State.onQueue_memWf, State.store_memWf]

theorem State.take_memWf {s : State} {c q e slot} (h : s.memWf) : (s.take c q e slot).1.memWf := by
  refine State.onCtx_memWf ?_
  split
  · exact State.onCtx_memWf (State.withServed_memWf h)
  · exact State.consume_memWf (State.withServed_memWf h)

theorem State.accept_memWf {s : State} {f : State → Entry → Launch → State} {c q type} (h : s.memWf)
    (hf : ∀ t b c, State.memWf t → (f t b c).memWf) :
    
    (s.accept c q type f).memWf := by
  grind [State.accept, State.take_memWf]

theorem State.startCancelled_memWf {s : State} {c q a l} (h : s.memWf) : (s.startCancelled c q a l).memWf := by
  have h1 {f} : (s.onCtx c f).memWf := State.onCtx_memWf h
  exact State.postLaunch_memWf (State.memWf_ite (State.raiseCtx_memWf h1) h1)

theorem execLaunchKernel_memWf {cx q} {s : State} (h : s.memWf) : Out.memWf (execLaunchKernel cx q s) := by
  refine State.accept_memWf h fun t e l ht => State.memWf_ite (State.startCancelled_memWf ht) ?_
  split
  next e => exact State.memWf_of_fst e (State.startKernel_memWf ht)
  next e => exact State.postLaunch_memWf (State.memWf_of_fst e (State.startKernel_memWf ht))

theorem execLaunchNop_memWf {cx q} {s : State} (h : s.memWf) : Out.memWf (execLaunchNop cx q s) :=
  State.accept_memWf h fun _ _ _ ht => State.postLaunch_memWf ht

theorem execLaunchCancel_memWf {cx q} {s : State} (h : s.memWf) : Out.memWf (execLaunchCancel cx q s) := by
  refine State.accept_memWf h fun t e l ht => ?_
  extract_lets tag
  split
  · exact State.memWf_ite (State.postLaunch_memWf (State.cancelKernel_memWf ht)) (State.postLaunch_memWf ht)
  · split
    · exact State.postLaunch_memWf (State.onCtx_memWf ht)
    · exact State.postLaunch_memWf ht

theorem execLaunchGrant_memWf {cx q} {s : State} (h : s.memWf) : Out.memWf (execLaunchGrant cx q s) := by
  refine State.accept_memWf h fun t e l ht => ?_
  extract_lets n hit
  clear_value hit
  split
  · exact State.postLaunch_memWf ht
  · extract_lets s1 s2
    have h1 : s1.memWf := State.onTeam_memWf _ _ ht fun _ hx => hx
    clear_value s1
    refine State.postLaunch_memWf ?_
    unfold s2
    split
    · split
      · exact State.physWrite_memWf _ _ _ h1
      · exact h1
    · exact h1

theorem execLaunchBadentry_memWf {s : State} {cx q} (h : s.memWf) : Out.memWf (execLaunchBadentry cx q s) := by
  grind [Out.memWf, execLaunchBadentry, State.take_memWf, State.free_memWf, State.postLaunch_memWf, State.queueRecord_memWf,
    State.onCtx_memWf]

theorem State.ringChange_memWf {s : State} {c p} (h : s.memWf) : (s.ringChange c p).memWf := h

theorem execLaunchRing_memWf {cx q} {s : State} (h : s.memWf) : Out.memWf (execLaunchRing cx q s) := by
  refine State.accept_memWf h fun t e l ht => State.memWf_ite (State.postLaunch_memWf (State.ringChange_memWf ht)) ?_
  split
  · exact State.postLaunch_memWf (State.ringChange_memWf ht)
  · exact State.postLaunch_memWf ht

theorem State.skipped_memWf {s : State} {c e n} (h : s.memWf) : (s.skipped c e n).memWf := by
  unfold State.skipped
  (repeat' split) <;> exact h

theorem State.onSlot_memWf {s : State} {f : TtSlot → TtSlot} {c slot} (h : s.memWf) : (s.onSlot c slot f).memWf := h

theorem State.fire_memWf {s : State} {c slot q rule bs} (h : s.memWf) : (s.fire c slot q rule bs).memWf := by
  grind [State.fire, State.onCtx_memWf, State.post_memWf, State.onSlot_memWf, State.skipped_memWf]

theorem execTimeTriggeredFiring_memWf {s : State} {cx slot} (h : s.memWf) : Out.memWf (execTimeTriggeredFiring cx slot s) := by
  grind [Out.memWf, execTimeTriggeredFiring, State.readVa_memWf, State.onSlot_memWf, State.onCtx_memWf, State.skipped_memWf,
    State.fire_memWf]

theorem State.tryCtx_memWf {s : State} {n addr fn bs} (h : s.memWf) : (s.tryCtx n addr fn bs).memWf := h

theorem State.dieLinkFault_memWf {s : State} {c} (h : s.memWf) : (s.dieLinkFault c).memWf := State.contextFault_memWf h

theorem State.cmdResult_memWf {s : State} {fn cx status} (h : s.memWf) : (s.cmdResult fn cx status).memWf := h

theorem execBind_memWf {fn addr} {s : State} (h : s.memWf) : Out.memWf (execBind fn addr s) := by
  refine State.memWf_ite h ?_
  extract_lets f fail a bs
  have hf {x} : (fail x).memWf := State.cmdResult_memWf (State.free_memWf h)
  split
  · exact hf
  · extract_lets t
    have ht : t.memWf := State.tryCtx_memWf h
    clear_value t
    split
    · have h2 {f a bs fn n} : (((t.onCtx n f).physWrite a bs 0).cmdResult fn n 0).memWf :=
        State.cmdResult_memWf (State.physWrite_memWf _ _ _ (State.onCtx_memWf ht))
      exact State.memWf_ite (State.dieLinkFault_memWf h2) h2
    · exact hf

theorem State.freeCtx_memWf {s : State} {c} (h : s.memWf) : (s.freeCtx c).memWf := by
  unfold State.freeCtx
  extract_lets mine gs s1 s2 s3
  have h1 : s1.memWf := State.dropXfers_memWf (State.foldl_memWf _ (fun _ _ hs => State.kill_memWf hs) _ h)
  have h2 : s2.memWf := State.memWf_mapTeams h1 rfl rfl (fun t => if mine t.kernel then t.retire else t)
      (fun x hx => by split <;> exact hx) rfl
  exact State.withCtxs_memWf (State.memWf_ite (State.ringChange_memWf h2) h2)

theorem execUnbind_memWf {s : State} {fn cx} (h : s.memWf) : Out.memWf (execUnbind fn cx s) := by
  grind [Out.memWf, execUnbind, State.cmdResult_memWf, State.freeCtx_memWf]

theorem execQreload_memWf {s : State} {fn cx q} (h : s.memWf) : Out.memWf (execQreload fn cx q s) := by
  unfold execQreload
  (repeat' split) <;> exact h

theorem execSave_memWf {fn cx} {s : State} (h : s.memWf) : Out.memWf (execSave fn cx s) := by
  refine State.memWf_ite h (State.memWf_ite (State.cmdResult_memWf h) (State.memWf_ite (State.cmdResult_memWf h)
      (State.cmdResult_memWf ?_)))
  refine State.foldl_memWf _ (fun s ti hs => ?_) _ (State.onCtx_memWf h)
  split
  · exact State.memWf_ite (State.leave_memWf hs) hs
  · exact hs

theorem State.saveWrites_memWf {s : State} {c js} (h : s.memWf) : (s.saveWrites c js).memWf := by
  refine State.physWrite_memWf _ _ _ (State.foldl_memWf _ (fun s q hs => State.physWrite_memWf _ _ _ hs) _ (State.foldl_memWf _
      (fun s i hs => ?_) _ h))
  split
  · exact State.physWrite_memWf _ _ _ hs
  · exact hs

theorem State.withJobs_memWf {s : State} {x} (h : s.memWf) : ({ s with jobs := x } : State).memWf := h
theorem execSaveComplete_memWf {s : State} {cx} (h : s.memWf) : Out.memWf (execSaveComplete cx s) :=
  State.memWf_ite h (State.memWf_ite (State.writeBack_memWf _ h) (State.memWf_ite (State.saveEnds_memWf h)
    (State.raiseCtx_memWf (State.onCtx_memWf (State.saveWrites_memWf (State.writeBack_memWf _ (State.withJobs_memWf h)))))))

theorem execRestore_memWf {s : State} {fn cx addr} (h : s.memWf) : Out.memWf (execRestore fn cx addr s) := by
  unfold execRestore
  (repeat' split) <;> exact h

theorem State.deriveEdges_memWf {s : State} {c} (h : s.memWf) : (s.deriveEdges c).memWf := h

theorem execRestoreComplete_memWf {cx} {s : State} (h : s.memWf) : Out.memWf (execRestoreComplete cx s) := 
  State.memWf_ite h (State.memWf_ite (State.contextFault_memWf h) (State.raiseCtx_memWf (State.deriveEdges_memWf (State.unsaveJobs_memWf
      (State.onCtx_memWf h)))))

theorem State.onFn_memWf {s : State} {f : Func → Func} {fn} (h : s.memWf) : (s.onFn fn f).memWf := h

theorem execTlbinvRegisterWrite_memWf {s : State} {fn cx} (h : s.memWf) : Out.memWf (execTlbinvRegisterWrite fn cx s) := by
  unfold execTlbinvRegisterWrite
  (repeat' split) <;> exact h

theorem execShareWrite_memWf {s : State} {fn f val} (h : s.memWf) : Out.memWf (execShareWrite fn f val s) := by
  unfold execShareWrite
  dsimp only
  (repeat' split) <;> exact h

theorem execPeerTableWrite_memWf {s : State} {fn val} (h : s.memWf) : Out.memWf (execPeerTableWrite fn val s) := by
  unfold execPeerTableWrite
  (repeat' split) <;> exact h

theorem State.setMask_memWf {s : State} {fn vec m} (h : s.memWf) : (s.setMask fn vec m).memWf := by
  grind [State.setMask, State.onFn_memWf, State.raise_memWf]

theorem execMsixUnmask_memWf {s : State} {fn vec} (h : s.memWf) : Out.memWf (execMsixUnmask fn vec s) := by
  grind [Out.memWf, execMsixUnmask, State.setMask_memWf]

theorem State.msixWrite_memWf {s : State} {fn off val} (h : s.memWf) : (s.msixWrite fn off val).memWf := by
  grind [State.msixWrite, State.onFn_memWf, State.setMask_memWf]

theorem State.decoderWrite_memWf {s : State} {port i size val} (h : s.memWf) : (s.decoderWrite port i size val).memWf := by
  unfold State.decoderWrite
  dsimp only
  (repeat' split) <;> exact h

theorem execRegisterWrite_memWf {s : State} {fn off val} (h : s.memWf) : Out.memWf (execRegisterWrite fn off val s) := by
  grind [Out.memWf, execRegisterWrite, State.memWf_parts, State.onFn_memWf, State.msixWrite_memWf, State.decoderWrite_memWf]

theorem State.eraseKeys_memWf {s : State} {fn} (h : s.memWf) : (s.eraseKeys fn).memWf := by
  unfold State.eraseKeys
  refine State.foldl_memWf _ (fun s a hs => ?_) _ ?_ <;> grind [State.memWf_parts, State.evict_memWf]

theorem State.freePages_memWf {s : State} {c p} (h : s.memWf) : (s.freePages c p).memWf := by
  unfold State.freePages
  refine State.foldl_memWf _ (fun s a hs => ?_) _ ?_ <;> grind [State.memWf_parts, State.putRec_memWf]

theorem State.stopKernels_memWf {s : State} {c} (h : s.memWf) : (s.stopKernels c).memWf := 
  State.foldl_memWf _ (fun s k hs => State.memWf_ite (State.onKernel_memWf (State.cancelKernel_memWf hs)) hs) _ h

theorem State.resetCtx_memWf {s : State} {c} (h : s.memWf) : (s.resetCtx c).memWf := by
  unfold State.resetCtx
  extract_lets told s1 s2 s3 s4 s5 s6 s7
  have h3 : s3.memWf := State.foldl_memWf _ (fun _ _ hs => State.jobClose_memWf hs) _ (State.stopKernels_memWf (State.onCtx_memWf h))
  have h4 : s4.memWf := State.memWf_ite (State.ringChange_memWf h3) h3
  have h5 : s5.memWf := State.foldl_memWf _ (fun s p hs => State.memWf_ite hs (State.freePages_memWf hs)) _ h4
  have h6 : s6.memWf := ⟨h5.1, h5.2⟩
  have h7 : s7.memWf := State.foldl_memWf _ (fun _ _ hs => State.emit_memWf hs) _ (State.dropXfers_memWf h6)
  exact State.onCtx_memWf h7

theorem execFunctionReset_memWf {fn} {s : State} (h : s.memWf) : Out.memWf (execFunctionReset fn s) :=
  State.memWf_ite h (State.onFn_memWf (State.foldl_memWf _ (fun _ _ hs => State.resetCtx_memWf hs) _ (State.onFn_memWf h)))

theorem execFunctionResetComplete_memWf {fn} {s : State} (h : s.memWf) : Out.memWf (execFunctionResetComplete fn s) :=
  State.memWf_ite h (State.onFn_memWf (State.foldl_memWf _ (fun _ _ hs => State.freeCtx_memWf hs) _ (State.eraseKeys_memWf h)))

theorem State.windowRefuse_memWf {s : State} {fn va posted} (h : s.memWf) : (s.windowRefuse fn va posted).memWf := by
  unfold State.windowRefuse
  (repeat' split) <;> exact h

theorem State.healed_memWf {s : State} {c va n} (h : s.memWf) : (s.healed c va n).memWf := h

theorem execHostWindowRequest_memWf {fn off kind n data} {s : State} (h : s.memWf) :
    Out.memWf (execHostWindowRequest fn off kind n data s) := by
  refine State.memWf_of_next ?_
  extract_lets f c va acc hs
  have hh : hs.memWf := State.memWf_ite (State.healed_memWf h) h
  clear_value hs
  refine State.memWf_ite h (State.memWf_ite (State.windowRefuse_memWf h) ?_)
  split
  · split
    next e => exact State.withSent_memWf (State.memWf_of_fst e (State.readVa_memWf h))
    next e =>
      have h1 := State.memWf_of_fst e (State.readVa_memWf h)
      exact State.memWf_ite (State.withSent_memWf h1) (State.windowRefuse_memWf h1)
  · exact State.writeVa_memWf hh
  · split
    next e => exact State.windowRefuse_memWf (State.memWf_of_fst e (State.locate_memWf h))
    next e =>
      have h1 := State.memWf_of_fst e (State.locate_memWf h)
      exact State.withSent_memWf (State.writeLoc_memWf _ _ (State.readLoc_memWf _ _ h1))

theorem State.xferFail_memWf {s : State} {y record} (h : s.memWf) : (s.xferFail y record).memWf := by
  grind [State.xferFail, State.dropXfer_memWf, State.unreach_memWf, State.jobEnd_memWf, State.handBack_memWf, State.complete_memWf]

theorem State.ackPart_memWf {s : State} {y} (h : s.memWf) : (s.ackPart y).memWf := by
  unfold State.ackPart
  (repeat' split) <;> exact h

theorem execRemoteAckArrival_memWf {s : State} {x d} (h : s.memWf) : Out.memWf (execRemoteAckArrival x d s) := by
  grind [Out.memWf, execRemoteAckArrival, State.windowRec_memWf, State.ackPart_memWf, State.complete_memWf, State.dropXfer_memWf]

theorem execRetransmitLimit_memWf {s : State} {x} (h : s.memWf) : Out.memWf (execRetransmitLimit x s) := by
  grind [Out.memWf, execRetransmitLimit, State.xferFail_memWf]

theorem execPeerRefusal_memWf {s : State} {x why} (h : s.memWf) : Out.memWf (execPeerRefusal x why s) := by
  grind [Out.memWf, execPeerRefusal, State.xferFail_memWf]

theorem execPeerAbortNotice_memWf {cx uid} {s : State} (h : s.memWf) : Out.memWf (execPeerAbortNotice cx uid s) := by
  refine State.memWf_of_next ?_
  split
  · exact h
  · exact State.memWf_ite h (State.jobEnd_memWf (State.foldl_memWf _ (fun _ _ hs => State.xferFail_memWf hs) _ h))

theorem State.linkEvent_memWf {s : State} {bit} (h : s.memWf) : (s.linkEvent bit).memWf := State.raise_memWf h

theorem State.portMove_memWf {s : State} {f : Port → Port} {p when_} (h : s.memWf) : (s.portMove p when_ f).memWf := by
  grind [State.portMove, State.memWf_parts, State.linkEvent_memWf]

theorem execTrainingEnd_memWf {s : State} {p rate width full} (h : s.memWf) : Out.memWf (execTrainingEnd p rate width full s) := by
  grind [Out.memWf, execTrainingEnd, State.portMove_memWf, State.releaseHeld_memWf]

theorem execTrainingFailed_memWf {p} {s : State} (h : s.memWf) : Out.memWf (execTrainingFailed p s) := by
  refine State.memWf_of_next ?_
  split
  · refine State.memWf_ite h (State.foldl_memWf _ (fun _ _ hs => State.xferFail_memWf hs) _ ?_)
    exact State.memWf_ite (State.releaseHeld_memWf (State.portMove_memWf h)) (State.portMove_memWf h)
  · exact h

theorem execLinkRetrainRequest_memWf {s : State} {fn p} (h : s.memWf) : Out.memWf (execLinkRetrainRequest fn p s) := by
  grind [Out.memWf, execLinkRetrainRequest, State.portMove_memWf]

theorem State.dieLinkFatal_memWf {s : State} (h : s.memWf) : s.dieLinkFatal.memWf :=
  State.linkEvent_memWf (State.withCtl_memWf (State.foldl_memWf _ (fun _ _ hs => State.dieLinkFault_memWf hs) _ h))

theorem State.countArrival_memWf {s : State} {a} (h : s.memWf) : (s.countArrival a).memWf := by
  grind [State.countArrival, State.cellLoc_memWf, State.post_memWf, State.readLoc_memWf, State.putCell_memWf, State.applied_memWf]

theorem State.hear_memWf {s : State} {cx via d} (h : s.memWf) : (s.hear cx via d).memWf :=
  State.foldl_memWf _ (fun _ _ hs => State.countArrival_memWf hs) _ h

theorem execRemoteArrivalApply_memWf {s : State} {cx port addr window wink unsync} (h : s.memWf) :
    Out.memWf (execRemoteArrivalApply cx port addr window wink unsync s) := by
  grind [Out.memWf, execRemoteArrivalApply, State.memWf_parts, State.answer_memWf, State.countArrival_memWf]

theorem State.putMsg_memWf {s : State} {k} (h : s.memWf) : (s.putMsg k).memWf := by
  unfold State.putMsg
  split
  next => exact h
  next m _ =>
  refine State.memWf_ite h ?_
  split
  next t f e =>
    have ht := State.memWf_of_fst e (State.slotLoc_memWf h)
    refine State.memWf_ite h ?_
    extract_lets s0 s1 s2
    have h2 : s2.memWf := by
      unfold s2
      split
      · split
        · exact State.complete_memWf (State.deferAll_memWf (State.withMsgs_memWf ht))
        · exact State.withMsgs_memWf ht
      · exact State.withMsgs_memWf ht
    clear_value s2
    split
    · exact State.hear_memWf (State.answer_memWf h2)
    · exact h2
  next t l e =>
    have ht := State.memWf_of_fst e (State.slotLoc_memWf h)
    refine State.memWf_ite ht ?_
    extract_lets s0 s1 s2
    have h1 : s1.memWf := State.withMsgs_memWf (State.setFe_memWf (State.writeLoc_memWf _ _ ht))
    have h2 : s2.memWf := by
      unfold s2
      split
      · exact State.complete_memWf h1
      · exact h1
    clear_value s2
    split
    · exact State.hear_memWf (State.applied_memWf h2)
    · exact h2

theorem execLinkMessageArrival_memWf {s : State} {cx port mbx dep data window wink unsync} (h : s.memWf) :
    Out.memWf (execLinkMessageArrival cx port mbx dep data window wink unsync s) := by
  grind [Out.memWf, execLinkMessageArrival, State.memWf_parts, State.hear_memWf, State.answer_memWf, State.checkCells_memWf,
    State.claim_memWf, State.putMsg_memWf]

theorem State.putPage_memWf {s : State} {cx via pool page frame off data} (h : s.memWf) :
    (s.putPage cx via pool page frame off data).1.memWf := by
  unfold State.putPage
  split
  next e => exact State.memWf_of_fst e (State.checkVa_memWf h)
  next s1 e =>
    have h1 := State.memWf_of_fst e (State.checkVa_memWf h)
    refine State.withLanded_memWf (State.foldlFst_memWf _ (fun r i hr => ?_) _ h1)
    split
    · exact hr
    · split
      next e => exact State.memWf_of_fst e (State.writeVa_memWf hr)
      next e => exact State.memWf_of_fst e (State.writeVa_memWf hr)

theorem State.pageBytes_memWf {s : State} {cx via pool page off data last} (h : s.memWf) :
    (s.pageBytes cx via pool page off data last).memWf := by
  grind [State.pageBytes, State.hear_memWf, State.answer_memWf, State.putPage_memWf, State.onRec_memWf, State.startPageIns_memWf,
    State.freeIfDue_memWf, State.pageCame_memWf, State.applied_memWf]

theorem execHandoffBytesArrive_memWf {s : State} {cx port pool page off data window wink unsync} (h : s.memWf) :
    Out.memWf (execHandoffBytesArrive cx port pool page off data window wink unsync s) := by
  grind [Out.memWf, execHandoffBytesArrive, State.pageBytes_memWf]

theorem State.putPart_memWf {s : State} {x} (h : s.memWf) : (s.putPart x).memWf := by
  unfold State.putPart
  dsimp only
  (repeat' split) <;> exact h

theorem execRemoteStoreArrival_memWf {cx port kind a b c data window wink unsync} {s : State} (h : s.memWf) :
    Out.memWf (execRemoteStoreArrival cx port kind a b c data window wink unsync s) := by
  refine State.memWf_of_next ?_
  extract_lets via d at_
  exact State.memWf_ite h (State.memWf_ite (State.pageBytes_memWf h) (State.memWf_ite (State.hear_memWf (State.answer_memWf h))
    (State.hear_memWf (State.applied_memWf (State.foldl_memWf _ (fun _ _ hs => State.putPart_memWf hs) _ h)))))

theorem State.onCtl_memWf {s : State} {f : Controller → Controller} (h : s.memWf) : (s.onCtl f).memWf := h

theorem State.packageReset_memWf {s : State} {strap0 strap1 linkOk} (h : s.memWf) : (s.packageReset strap0 strap1 linkOk).memWf := by
  unfold State.packageReset
  extract_lets z good up svn zc t
  have ht : t.memWf := by
    refine ⟨?_, State.reset_memWf.2⟩
    show Memory.wf (if up then _ else _) = true
    split
    · exact Memory.filter_wf _ h.1
    · exact h.1
  exact State.memWf_ite ht (State.dieLinkFatal_memWf ht)

theorem State.doeReply_memWf {s : State} {req st body} (h : s.memWf) : (s.doeReply req st body).memWf := h

theorem State.doeFor_memWf {s : State} {f : ℕ → ℕ → State} {req obj} (h : s.memWf) (hf : ∀ a b, (f a b).memWf) :
    (s.doeFor req obj f).memWf := by
  grind [State.doeFor]

theorem State.setKey_memWf {s : State} {slot new} (h : s.memWf) : (s.setKey slot new).memWf := by
  grind [State.setKey, State.onCtl_memWf, State.evict_memWf]

theorem execKeyload_memWf {req secured} {s : State} (h : s.memWf) : Out.memWf (execKeyload req secured s) := 
  State.doeFor_memWf h fun _ _ => State.memWf_ite (State.doeReply_memWf h) (State.memWf_ite (State.doeReply_memWf h)
    (State.memWf_ite (State.doeReply_memWf h) (State.doeReply_memWf (State.setKey_memWf h))))

theorem execKeyerase_memWf {req secured} {s : State} (h : s.memWf) : Out.memWf (execKeyerase req secured s) := 
  State.doeFor_memWf h fun _ _ => State.memWf_ite (State.doeReply_memWf (State.free_memWf h)) (State.memWf_ite (State.doeReply_memWf h)
    (State.memWf_ite (State.doeReply_memWf h) (State.doeReply_memWf (State.setKey_memWf h))))

theorem execPcap_memWf {req} {s : State} (h : s.memWf) : Out.memWf (execPcap req s) := 
  State.doeFor_memWf h fun _ _ => State.memWf_ite (State.doeReply_memWf h) (State.doeReply_memWf (State.onCtl_memWf h))

theorem execFwload_memWf {s : State} {req} (h : s.memWf) : Out.memWf (execFwload req s) := by
  grind [Out.memWf, execFwload, State.packageReset_memWf, State.doeReply_memWf, State.onCtl_memWf]

theorem execPstat_memWf {req} {s : State} (h : s.memWf) : Out.memWf (execPstat req s) := 
  State.doeFor_memWf h fun _ _ => State.doeReply_memWf h

theorem execDoeUnknownObject_memWf {s : State} {req} (h : s.memWf) : Out.memWf (execDoeUnknownObject req s) := by
  unfold execDoeUnknownObject
  dsimp only
  (repeat' split) <;> exact h

theorem State.spdmReply_memWf {s : State} {code data content} (h : s.memWf) : (s.spdmReply code data content).memWf := h

theorem State.spdmFor_memWf {s f : State} (h : s.memWf) (h1 : f.memWf) : (s.spdmFor f).memWf := by
  grind [State.spdmFor]

theorem State.spdmTells_memWf {s : State} {code said data} (h : s.memWf) : (s.spdmTells code said data).memWf := h

theorem execGetVersion_memWf {s : State} {data} (h : s.memWf) : Out.memWf (execGetVersion data s) := by
  unfold execGetVersion
  (repeat' split) <;> exact h

theorem execGetCapabilities_memWf {s : State} {data} (h : s.memWf) : Out.memWf (execGetCapabilities data s) := by
  grind [Out.memWf, execGetCapabilities, State.spdmFor_memWf, State.spdmReply_memWf]

theorem execNegotiateAlgorithms_memWf {s : State} {data} (h : s.memWf) : Out.memWf (execNegotiateAlgorithms data s) := by
  grind [Out.memWf, execNegotiateAlgorithms, State.spdmFor_memWf, State.spdmTells_memWf]

theorem execGetDigests_memWf {s : State} {data} (h : s.memWf) : Out.memWf (execGetDigests data s) := by
  grind [Out.memWf, execGetDigests, State.spdmFor_memWf, State.spdmReply_memWf]

theorem execGetCertificate_memWf {s : State} {data} (h : s.memWf) : Out.memWf (execGetCertificate data s) := by
  grind [Out.memWf, execGetCertificate, State.spdmFor_memWf, State.spdmReply_memWf]

theorem execChallenge_memWf {s : State} {data} (h : s.memWf) : Out.memWf (execChallenge data s) := by
  grind [Out.memWf, execChallenge, State.spdmFor_memWf, State.spdmReply_memWf]

theorem execGetMeasurements_memWf {s : State} {data} (h : s.memWf) : Out.memWf (execGetMeasurements data s) := by
  grind [Out.memWf, execGetMeasurements, State.spdmFor_memWf, State.spdmTells_memWf]

theorem execKeyExchange_memWf {s : State} {data} (h : s.memWf) : Out.memWf (execKeyExchange data s) := by
  grind [Out.memWf, execKeyExchange, State.spdmFor_memWf, State.spdmReply_memWf, State.onCtl_memWf]

theorem execFinish_memWf {s : State} {data} (h : s.memWf) : Out.memWf (execFinish data s) := by
  grind [Out.memWf, execFinish, State.spdmFor_memWf, State.spdmReply_memWf, State.onCtl_memWf]

theorem execEndSession_memWf {s : State} {data} (h : s.memWf) : Out.memWf (execEndSession data s) := by
  grind [Out.memWf, execEndSession, State.spdmFor_memWf, State.spdmReply_memWf, State.onCtl_memWf]

theorem State.tokenOut_memWf {s : State} {q end_ t op} (h : s.memWf) : (s.tokenOut q end_ t op).memWf := h

theorem State.finalOut_memWf {s : State} {q} (h : s.memWf) : (s.finalOut q).1.memWf := by
  grind [State.finalOut, State.queueWrite_memWf]

theorem State.seqCompletion_memWf {s : State} {q} (h : s.memWf) : (s.seqCompletion q).1.memWf := by
  grind [State.seqCompletion, State.queueWrite_memWf]

theorem State.seqEnd_memWf {s : State} {q e st} (h : s.memWf) : (s.seqEnd q e st).memWf := State.finalOut_memWf h

theorem State.takePage_memWf {s : State} {c pi p cat i st dom ntok nv} (h : s.memWf) :
    SeqRes.memWf (s.takePage c pi p cat i st dom ntok nv) := by
  unfold State.takePage
  refine SeqRes.memWf_ite (SeqRes.memWf_error h) ?_
  split
  next => exact SeqRes.memWf_error h
  next e =>
    have ht := State.newPage_memWf h e
    split
    next e => exact SeqRes.memWf_ite (SeqRes.memWf_ok h) (SeqRes.memWf_error (State.memWf_of_fst e (State.catWrite_memWf ht)))
    next e => exact SeqRes.memWf_ok (State.memWf_of_fst e (State.catWrite_memWf ht))

theorem State.catOpen_memWf {s : State} {c pi p cat handle} (h : s.memWf) : SeqRes.memWf (s.catOpen c pi p cat handle) := by
  grind [SeqRes.memWf, State.catOpen, State.writeVa_memWf]

theorem pastPoison_memWf {s : State} {f} (h : s.memWf) : SeqRes.memWf (pastPoison s f) := by
  unfold pastPoison
  (repeat' split) <;> exact h

theorem State.entryRelease_memWf {s : State} {q i} (h : s.memWf) : SeqRes.memWf (s.entryRelease q i) := by
  -- Unfolded as a function: to check the equation of an application the kernel would evaluate the agent's read.
  conv => arg 1; fun; fun; fun; delta State.entryRelease
  extract_lets c p
  split
  next e => exact pastPoison_memWf (State.memWf_of_fst e (State.catRead_memWf h))
  next s1 e he =>
    have h1 := State.memWf_of_fst he (State.catRead_memWf h)
    refine SeqRes.memWf_ite (SeqRes.memWf_ok h1) ?_
    extract_lets drop
    have hd {t : State} (ht : t.memWf) : (drop t).memWf := State.memWf_ite (State.dropRef_memWf ht) ht
    split
    next e =>
      have h2 := State.memWf_of_fst e (State.catWrite_memWf h1)
      exact SeqRes.memWf_ite (SeqRes.memWf_ok (hd h2)) (SeqRes.memWf_error h2)
    next e => exact SeqRes.memWf_ok (hd (State.memWf_of_fst e (State.catWrite_memWf h1)))

theorem State.catRelease_memWf {s : State} {q} (h : s.memWf) : SeqRes.memWf (s.catRelease q) := by
  -- Unfolded as a function, as in `entryRelease_memWf`.
  conv => arg 1; fun; fun; delta State.catRelease
  refine SeqRes.memWf_ite (SeqRes.memWf_ok h) (SeqRes.memWf_ite (SeqRes.memWf_error h) ?_)
  have h1 := State.catHdr_memWf (u := agent q.ctx) (cat := q.cat) h
  generalize s.catHdr (agent q.ctx) q.cat = hd at h1 ⊢
  obtain ⟨t, r⟩ := hd
  extract_lets hd' n
  clear_value n
  split
  next => exact SeqRes.memWf_error h1
  next k =>
    refine SeqRes.memWf_andThen (SeqRes.foldlM_memWf _ (fun _ _ hs => State.entryRelease_memWf hs) _ h1) fun s2 h2 => ?_
    have h3 := State.writeVa_memWf (u := agent q.ctx) (sp := .gl) (va := q.cat) (bs := List.replicate 64 0) (fe := none) h2
    rcases e3 : s2.writeVa (agent q.ctx) .gl q.cat (List.replicate 64 0) none with ⟨s3, _ | f⟩
    all_goals replace h3 := State.memWf_of_fst e3 h3
    · exact SeqRes.memWf_ok (State.startPageIns_memWf h3)
    · exact SeqRes.memWf_ite (SeqRes.memWf_ok (State.startPageIns_memWf h3)) (SeqRes.memWf_error h3)

theorem State.addSeq_memWf {s : State} {q} (h : s.memWf) : (s.addSeq q).memWf := h

theorem State.takePages_memWf {s : State} {q need f} (h : s.memWf) : SeqRes.memWf (s.takePages q need f) := by
  unfold State.takePages
  extract_lets pi p cat q0 q'
  have h1 := State.catOpen_memWf (c := q.ctx) (pi := pi) (p := p) (cat := cat) (handle := q.handle) h
  split
  next e => exact (e ▸ h1 : SeqRes.memWf (.error _))
  next s1 e =>
    replace h1 : s1.memWf := (e ▸ h1 : SeqRes.memWf (.ok _))
    have h2 := SeqRes.foldlM_memWf (fun s i => s.takePage q.ctx pi p cat i (f i).1 (f i).2.1 (f i).2.2 (i + 1))
      (fun _ _ hs => State.takePage_memWf hs) (List.range need) h1
    split
    next e => exact (e ▸ h2 : SeqRes.memWf (.error _))
    next s2 e => exact State.onSeq_memWf (s := s2) (e ▸ h2 : SeqRes.memWf (.ok _))

theorem State.takeRequest_memWf {s : State} {c bs} (h : s.memWf) : (s.takeRequest c bs).memWf := by
  unfold State.takeRequest
  extract_lets f mine par e1 m mig e2 entry
  split
  next => exact Adm.memWf_full h
  next slot _ =>
    split
    · exact Adm.memWf_full h
    extract_lets q1 q2 p pi need e3
    clear_value e3 need p pi q2 entry
    refine Adm.memWf_ite (Adm.memWf_ok (State.seqEnd_memWf (State.addSeq_memWf h))) (Adm.memWf_ite (Adm.memWf_bad h)
      (Adm.memWf_ite (Adm.memWf_full h) ?_))
    have ht := State.takePages_memWf (q := q2) (need := need) (f := entry) (State.addSeq_memWf (q := q2) h)
    generalize (s.addSeq q2).takePages q2 need entry = r at ht ⊢
    cases r with
    | error t => exact Adm.memWf_bad ht
    | ok t => exact Adm.memWf_ok ht

theorem State.settleSeq_memWf {s : State} {q} (h : s.memWf) : (s.settleSeq q).memWf := by
  have h1 : State.memWf (if q.ckptAt = 0 then s else (s.writeVa (agent q.ctx) .gl q.ckptAt (toBytes 4 0) none).1) :=
    State.memWf_ite h (State.writeVa_memWf h)
  exact State.onSeq_memWf h1

theorem State.step1Settle_memWf {s : State} {slot} (h : s.memWf) : (s.step1Settle slot).memWf := by
  grind [State.step1Settle, State.seqEnd_memWf, State.onSeq_memWf, State.settleSeq_memWf]

theorem State.dropSeq_memWf {s : State} {slot} (h : s.memWf) : (s.dropSeq slot).memWf := h

theorem State.closeOut_memWf {s : State} {q} (h : s.memWf) : (s.closeOut q).1.memWf := by
  grind [State.closeOut, State.finalOut_memWf, State.seqCompletion_memWf, State.onSeq_memWf]

theorem State.step1Retire_memWf {s : State} {slot} (h : s.memWf) : SeqRes.memWf (s.step1Retire slot) := by
  grind [SeqRes.memWf, State.step1Retire, State.dropSeq_memWf, State.closeOut_memWf, State.catRelease_memWf, State.onSeq_memWf,
    State.writeVa_memWf]

theorem State.clearHerds_memWf {s : State} {c} (h : s.memWf) : (s.clearHerds c).memWf := by
  refine State.memWf_mapTeams h rfl rfl _ (fun x hx => ?_) rfl
  split
  · rfl
  · exact hx

theorem State.step1_memWf {s : State} {c} (h : s.memWf) : SeqRes.memWf (s.step1 c) :=
  SeqRes.foldlM_memWf _ (fun _ _ hs => State.step1Retire_memWf hs) _ (State.clearHerds_memWf (State.foldl_memWf _
      (fun _ _ hs => State.step1Settle_memWf hs) _ h))

theorem State.admitQueue_memWf {k} {s : State} {c q} (h : s.memWf) : Scan.memWf (State.admitQueue k s c q) := by
  induction k generalizing s with
  | zero => exact h
  | succ k ih =>
    refine Scan.memWf_ite (Scan.memWf_ok h) (Scan.memWf_ite (Scan.memWf_ok h) ?_)
    have h1 := State.takeRequest_memWf (c := c) (bs := s.queueEntry c ((s.ctx c).queue q)) h
    split
    next e => exact (e ▸ h1 : Adm.memWf (.full _))
    next e => exact (e ▸ h1 : Adm.memWf (.bad _))
    next e => exact ih (State.consume_memWf (e ▸ h1 : Adm.memWf (.ok _ _)))

theorem State.step2_memWf {s : State} {c} (h : s.memWf) : SeqRes.memWf (s.step2 c) := by
  unfold State.step2
  have h1 := Scan.foldlM_memWf (r := (s, true)) (fun (a : State × Bool) q =>
      if a.2 then a.1.admitQueue (2 ^ 16) c q else .ok a) (fun r q hr => by
        split
        · exact State.admitQueue_memWf hr
        · exact hr) (List.range 32) h
  split
  next a e => exact (e ▸ h1 : Scan.memWf (.ok a))
  next t e => exact (e ▸ h1 : Scan.memWf (.error t))

theorem State.wake_memWf {a : State × List (ℕ × ℕ)} {slot} (h : a.1.memWf) : (State.wake a slot).1.memWf := by
  grind [State.wake, State.seqEnd_memWf, State.onSeq_memWf, State.catRead_memWf, State.settleSeq_memWf]

theorem State.firstPass_memWf {a : State × ℕ × List Member} {q} (h : a.1.memWf) : (State.firstPass a q).1.memWf := by
  grind [State.firstPass, State.seqEnd_memWf, State.onSeq_memWf]

theorem State.secondPass_memWf {a : State × ℕ × List Member} {q} (h : a.1.memWf) : Scan.memWf (State.secondPass a q) := by
  grind [Scan.memWf, SeqRes.memWf, State.secondPass, State.readVa_memWf]

theorem State.parkFor_memWf {k} {s : State} {pi free ms} (h : s.memWf) : (State.parkFor k s pi free ms).1.memWf := by
  induction k generalizing s ms with
  | zero => exact h
  | succ k ih =>
    unfold State.parkFor
    extract_lets want
    split
    · exact h
    split
    · exact h
    · exact ih (State.onSeq_memWf h)

theorem State.growFor_memWf {s : State} {m} (h : s.memWf) : SeqRes.memWf (s.growFor m) := by
  unfold State.growFor
  split
  next => exact h
  next q _ =>
    extract_lets p
    have h2 := SeqRes.foldlM_memWf (fun s i => s.takePage q.ctx m.pool p q.cat (q.npg + i) pReserved 0 0 (q.npg + i + 1))
      (fun _ _ hs => State.takePage_memWf hs) (List.range m.grow) h
    split
    next e => exact (e ▸ h2 : SeqRes.memWf (.error _))
    next s2 e => exact State.onSeq_memWf (s := s2) (e ▸ h2 : SeqRes.memWf (.ok _))

theorem State.step3_memWf {s : State} {c} (h : s.memWf) : Scan.memWf (s.step3 c) := by
  unfold State.step3
  extract_lets pools s1 a
  split
  · exact h
  have h1 : s1.memWf := State.foldlFst_memWf _ (fun _ _ hr => State.wake_memWf hr) _ h
  have ha : a.1.memWf := State.foldlFst_memWf _ (fun _ _ hr => State.firstPass_memWf hr) _ h1
  refine Scan.bind_memWf (Scan.foldlM_memWf _ (fun _ _ hr => State.secondPass_memWf hr) _ ha) fun b hb => ?_
  extract_lets r
  have hr : r.1.memWf := State.foldlFst_memWf _ (fun r pi hr => State.parkFor_memWf hr) _ hb
  exact SeqRes.bindScan_memWf (SeqRes.foldlM_memWf _ (fun _ _ hs => State.growFor_memWf hs) _ hr) fun t ht => ht

theorem State.writeHerd_memWf {s : State} {c lap p at_ hd} (h : s.memWf) : Scan.memWf (s.writeHerd c lap p at_ hd) := by
  grind [Scan.memWf, SeqRes.memWf, State.writeHerd, State.writeVa_memWf]

theorem State.step4_memWf {s : State} {c lap p hs} (h : s.memWf) : SeqRes.memWf (s.step4 c lap p hs) := by
  unfold State.step4
  extract_lets x tb
  have h1 := Scan.foldlM_memWf (r := (s, tb)) (fun (a : State × Nat) h => a.1.writeHerd c lap p a.2 h)
      (fun _ _ hr => State.writeHerd_memWf hr) hs h
  split
  next a e => exact (e ▸ h1 : Scan.memWf (.ok a))
  next t e => exact (e ▸ h1 : Scan.memWf (.error t))

theorem State.launchFor_memWf {s : State} {c lap p hd addr final} (h : s.memWf) : (s.launchFor c lap p hd addr final).memWf := 
  State.startKernel_memWf h

theorem State.step5_memWf {s : State} {c lap p hs ds} (h : s.memWf) : (s.step5 c lap p hs ds).memWf := 
  State.foldl_memWf _ (fun _ _ hs => State.foldl_memWf _ (fun _ _ hs => State.launchFor_memWf hs) _ hs) _
    (State.foldl_memWf _ (fun _ _ hs => State.launchFor_memWf hs) _ h)

theorem State.serve_memWf {s : State} {lap hs} (h : s.memWf) : (s.serve lap hs).memWf := 
  State.foldl_memWf _ (fun _ _ hs => State.foldl_memWf _ (fun _ _ hs => State.onSeq_memWf hs) _ hs) _ h

theorem State.seqSteps_memWf {s : State} {c} (h : s.memWf) : SeqRes.memWf (s.seqSteps c) := by
  refine SeqRes.bind_memWf (State.step2_memWf h) fun s1 h1 => ?_
  extract_lets lap
  refine SeqRes.memWf_ite h1 (SeqRes.bindOf_memWf (State.step3_memWf h1) fun r hr => ?_)
  split
  · exact hr
  · exact SeqRes.bind_memWf (State.step4_memWf hr) fun t ht => State.step5_memWf (State.serve_memWf ht)

theorem State.lapEvent_memWf {s : State} {c} (h : s.memWf) : (s.lapEvent c).memWf := by
  grind [State.lapEvent, State.raiseCtx_memWf]

theorem State.schedule_memWf {s : State} {c} (h : s.memWf) : (s.schedule c).memWf := by
  unfold State.schedule
  extract_lets go st
  have hgo {r : SeqRes} {f : State → State} (hr : r.memWf) (hf : ∀ t, t.memWf → (f t).memWf) : (go r f).memWf := by
    cases r with
    | ok t => exact hf t hr
    | error t => exact State.contextFault_memWf hr
  exact State.memWf_ite (State.contextFault_memWf h) (State.memWf_ite
    (hgo (State.step1_memWf h) fun t ht => hgo (State.seqSteps_memWf ht) fun _ hu => State.lapEvent_memWf hu)
    (State.memWf_ite (hgo (State.step1_memWf h) fun _ ht => ht) h))

theorem execLapBoundary_memWf {noise} {s : State} (h : s.memWf) : Out.memWf (execLapBoundary noise s) :=
  State.memWf_ite h (State.beatsNow_memWf (State.foldl_memWf _ (fun _ _ hs => State.schedule_memWf hs) _
    (State.withRing_memWf (State.ringBoundary_memWf (State.resolveClaims_memWf h)))))

theorem seqWord_memWf {s : State} {body : Wctx → State → Seq → Res} {w a} (h : s.memWf)
    (hf : ∀ a t c, State.memWf t → (body a t c).memWf) :
    
    (seqWord w a s body).memWf := by
  unfold seqWord
  refine word_memWf h fun c t ht => ?_
  grind [Res.memWf]

theorem execSeqld_memWf {s : State} {hd d a b} (h : s.memWf) : Out.memWf (execSeqld hd d a b s) := by
  unfold execSeqld
  refine seqWord_memWf h ?_
  grind [Res.memWf, State.start_memWf]

theorem execSeqst_memWf {s : State} {hd d a b} (h : s.memWf) : Out.memWf (execSeqst hd d a b s) := by
  unfold execSeqst
  refine seqWord_memWf h ?_
  grind [Res.memWf, State.start_memWf, State.onSeq_memWf]

theorem State.seqFail_memWf {s : State} {c cls ds f addr} (h : s.memWf) : (s.seqFail c cls ds f addr).memWf := by
  grind [State.seqFail, State.complete_memWf, State.catFail_memWf, State.start_memWf]

theorem State.seqStop_memWf {s : State} {c cls ds f addr} (h : s.memWf) : (s.seqStop c cls ds f addr).memWf := by
  grind [Res.memWf, State.seqStop, State.seqFail_memWf]

theorem execAdmitSeq_memWf {hd d a} {s : State} (h : s.memWf) : Out.memWf (execAdmitSeq hd d a s) := by
  refine word_memWf h fun c t ht => Res.memWf_ite trivial ?_
  extract_lets cx va u
  split
  next e => exact State.seqFail_memWf (State.memWf_of_fst e (State.locate_memWf ht))
  next s1 loc e =>
    have h1 := State.memWf_of_fst e (State.locate_memWf ht)
    split
    · exact State.seqStop_memWf h1
    · extract_lets r
      have hr : r.1.memWf := State.readLoc_memWf _ _ h1
      have hp {t : State} {f} (ht : t.memWf) : ((t.onGrp c.gi f).start c .st 0 .posted [] []).memWf := State.start_memWf
          (State.onGrp_memWf ht)
      refine Res.memWf_ite trivial ?_
      have h2 := State.takeRequest_memWf (c := cx) (bs := r.2) hr
      split
      next e => exact hp (e ▸ h2 : Adm.memWf (.ok _ _))
      next e => exact hp (e ▸ h2 : Adm.memWf (.full _))
      next e => exact hp (State.contextFault_memWf (e ▸ h2 : Adm.memWf (.bad _)))

theorem execRetire_memWf {s : State} {hd a b} (h : s.memWf) : Out.memWf (execRetire hd a b s) := by
  unfold execRetire
  refine seqWord_memWf h ?_
  grind [Res.memWf, State.start_memWf, State.seqEnd_memWf]

theorem execRetireMig_memWf {s : State} {hd a b} (h : s.memWf) : Out.memWf (execRetireMig hd a b s) := by
  unfold execRetireMig
  refine seqWord_memWf h ?_
  grind [Res.memWf, State.locate_memWf, State.seqFail_memWf, State.start_memWf, State.onSeq_memWf]

theorem execTokput_memWf {s : State} {hd d a b} (h : s.memWf) : Out.memWf (execTokput hd d a b s) := by
  unfold execTokput
  refine seqWord_memWf h ?_
  grind [Res.memWf, State.start_memWf, State.onSeq_memWf, State.tokenOut_memWf, State.complete_memWf]

theorem execAccept_memWf {s : State} {hd d a b} (h : s.memWf) : Out.memWf (execAccept hd d a b s) := by
  unfold execAccept
  refine seqWord_memWf h ?_
  grind [Res.memWf, State.onGrp_memWf, State.onSeq_memWf, State.tokenOut_memWf]

theorem execDraft_memWf {s : State} {hd d a b} (h : s.memWf) : Out.memWf (execDraft hd d a b s) := by
  unfold execDraft
  refine seqWord_memWf h ?_
  grind [Res.memWf, State.start_memWf, State.seqFail_memWf, State.readVa_memWf, State.seqStop_memWf, State.onSeq_memWf]

theorem execStopck_memWf {s : State} {hd d a b} (h : s.memWf) : Out.memWf (execStopck hd d a b s) := by
  unfold execStopck
  refine seqWord_memWf h ?_
  grind [Res.memWf, putS_memWf]

theorem execCkpt_memWf {hd a b} {s : State} (h : s.memWf) : Out.memWf (execCkpt hd a b s) := by
  refine seqWord_memWf h fun c t q ht => ?_
  extract_lets j n
  refine Res.memWf_ite trivial ?_
  extract_lets u
  split
  next e => exact State.seqFail_memWf (State.memWf_of_fst e (State.locate_memWf ht))
  next s1 loc e =>
    have h1 := State.memWf_of_fst e (State.locate_memWf ht)
    split
    · exact State.seqStop_memWf h1
    · exact State.start_memWf (State.writeLoc_memWf _ _ (State.readLoc_memWf _ _ h1))

theorem withPart_memWf {c on mem r} (h : r.memWf) : (withPart c on mem r).memWf := by
  cases r with
  | ok => exact State.onGrp_memWf h
  | _ => exact h

theorem execVote_memWf {s : State} {hd m d p b} (h : s.memWf) : Out.memWf (execVote hd m d p b s) := by
  unfold execVote
  refine word_memWf h fun c t ht => ?_
  grind [Res.memWf, withPart_memWf, putS_memWf]

theorem execShfl_memWf {s : State} {hd m d a b} (h : s.memWf) : Out.memWf (execShfl hd m d a b s) := by
  unfold execShfl
  refine word_memWf h fun c t ht => ?_
  grind [Res.memWf, withPart_memWf, putLanes_memWf]

theorem execPush_memWf {s : State} {hd d a b} (h : s.memWf) : Out.memWf (execPush hd d a b s) := by
  unfold execPush
  refine word_memWf h fun c t ht => ?_
  grind [Res.memWf, State.onGrp_memWf]

theorem execBcast_memWf {s : State} {hd m d a k} (h : s.memWf) : Out.memWf (execBcast hd m d a k s) := by
  unfold execBcast
  refine word_memWf h fun c t ht => ?_
  grind [Res.memWf, putS_memWf, putLanes_memWf]

theorem execElect_memWf {s : State} {hd p a b} (h : s.memWf) : Out.memWf (execElect hd p a b s) := by
  unfold execElect
  refine word_memWf h fun c t ht => ?_
  grind [Res.memWf, State.onGrp_memWf]

theorem putFolds_memWf {s : State} {r : Fin 32 → Folded} {c q d n} (h : s.memWf) : (putFolds c s q d n r).memWf := by
  grind [Res.memWf, putFolds, putFloat_memWf]

theorem execScan_memWf {s : State} {hd m d a op anc excl q mask} (h : s.memWf) : Out.memWf (execScan hd m d a op anc excl q mask s) := by
  unfold execScan
  refine word_memWf h fun c t ht => ?_
  grind [Res.memWf, withPart_memWf, putFolds_memWf]

theorem execRed_memWf {s : State} {hd m d a op anc raw sd q mask} (h : s.memWf) : Out.memWf (execRed hd m d a op anc raw sd q mask s) := by
  unfold execRed
  refine word_memWf h fun c t ht => ?_
  grind [Res.memWf, State.onGrp_memWf, putFloat_memWf, withPart_memWf, putFolds_memWf]

theorem execWalk_memWf {s : State} {hd d a op anc mode q mask seg} (h : s.memWf) :
    Out.memWf (execWalk hd d a op anc mode q mask seg s) := by
  unfold execWalk
  refine word_memWf h fun c t ht => ?_
  grind [Res.memWf, putFolds_memWf]

theorem execTopk_memWf {s : State} {hd d a p ty ks kv small mask} (h : s.memWf) : Out.memWf (execTopk hd d a p ty ks kv small mask s) := by
  unfold execTopk
  refine word_memWf h fun c t ht => ?_
  grind [Res.memWf, State.onGrp_memWf]

theorem execHist_memWf {s : State} {hd d a b shift w mask ty} (h : s.memWf) : Out.memWf (execHist hd d a b shift w mask ty s) := by
  unfold execHist
  refine word_memWf h fun c t ht => ?_
  grind [Res.memWf, putLanes_memWf]

theorem execRng_memWf {s : State} {hd d a b x bsel n} (h : s.memWf) : Out.memWf (execRng hd d a b x bsel n s) := by
  unfold execRng
  refine word_memWf h fun c t ht => ?_
  grind [Res.memWf, State.onGrp_memWf]

theorem State.packet_memWf {s : State} {g p} (h : s.memWf) : (s.packet g p).1.memWf := by
  grind [State.packet, State.readVa_memWf]

theorem State.pcFault_memWf {s : State} {gi pc} (h : s.memWf) : (s.pcFault gi pc).memWf := by
  grind [State.pcFault, State.settle_memWf, State.defer_memWf]

theorem State.fetchFault_memWf {s : State} {gi pc cause detail addr} (h : s.memWf) : (s.fetchFault gi pc cause detail addr).memWf :=
  State.settle_memWf (State.memWf_ite (State.defer_memWf h) (State.foldl_memWf _ (fun _ _ hs => State.defer_memWf hs) _ h))

theorem State.latch_memWf {s : State} {gi pc words len} (h : s.memWf) : (s.latch gi pc words len).memWf := h

theorem State.choose_memWf {s : State} {gi} (h : s.memWf) : (s.choose gi).memWf := h

end

end Sys2Proof.Machine
end

