-- ==== Sys2Proof/Proofs/MemoryFormStep.lean ====
section
/-! PROOFS. Every step keeps the canonical form of memory. -/
namespace Sys2Proof.Machine
open Sys2Proof.Claims
noncomputable section

/-- The effect of every instruction and event keeps the canonical form. -/
theorem exec_memWf {s : State} (i : Instr) (h : s.memWf) : Out.memWf (exec i s) := by
  cases i
  case csrr => exact execCsrr_memWf h
  case csrw => exact execCsrw_memWf h
  case tlbinvPage | tlbinvRange | tlbinvAll => exact tlbinvWord_memWf h
  case perf => exact execPerf_memWf h
  case time => exact execTime_memWf h
  case nop => exact execNop_memWf h
  case exit => exact execExit_memWf h
  case yield => exact execYield_memWf h
  case sleep => exact execSleep_memWf h
  case region => exact execRegion_memWf h
  case trap => exact execTrap_memWf h
  case eret => exact execEret_memWf h
  case bra => exact execBra_memWf h
  case brx => exact execBrx_memWf h
  case call | callRegister => exact callTo_memWf h
  case ret => exact execRet_memWf h
  case loop | loopRegister => exact loopWord_memWf h
  case lbrk => exact execLbrk_memWf h
  case ialuAdd | ialuSub | ialuMul | ialuMulhiN32 | ialuMulhiI32 | ialuDivN32 | ialuDivI32 | ialuRemN32 | ialuRemI32 | ialuMinN32 |
      ialuMinI32 | ialuMaxN32 | ialuMaxI32 | ialuAnd | ialuOr | ialuXor | ialuShl | ialuShr | ialuSra | ialuRot => exact ialuBin_memWf h
  case ialuMad => exact execIaluMad_memWf h
  case ialuAbs | ialuNeg | ialuNot | ialuClz | ialuPopc | ialuBrev => exact ialuUn_memWf h
  case ialuMov => exact ialuMove_memWf h
  case ialuBfxN32 | ialuBfxI32 => exact ialuBfx_memWf h
  case ialuBfi => exact execIaluBfi_memWf h
  case ialuSel => exact execIaluSel_memWf h
  case ialuLea => exact execIaluLea_memWf h
  case ialuWid _ m _ _ _ => exact execIaluWid_memWf (_m := m) h
  case ialuEscape64 _ _ _ _ _ _ ty => exact execIaluEscape64_memWf (_ty := ty) h
  case ialuiAdd | ialuiSub | ialuiMul | ialuiMinN32 | ialuiMinI32 | ialuiMaxN32 | ialuiMaxI32 | ialuiAnd | ialuiOr | ialuiXor | ialuiShl |
      ialuiShr | ialuiSra | ialuiRot => exact ialuImm_memWf h
  case ialuiLi => exact execIaluiLi_memWf h
  case saluAdd | saluSub | saluMul | saluMulhiN32 | saluMulhiI32 | saluDivN32 | saluDivI32 | saluRemN32 | saluRemI32 | saluMinN32 |
      saluMinI32 | saluMaxN32 | saluMaxI32 | saluAnd | saluOr | saluXor | saluShl | saluShr | saluSra | saluRot => exact saluBin_memWf h
  case saluMad => exact execSaluMad_memWf h
  case saluAbs | saluNeg | saluNot | saluClz | saluPopc | saluBrev | saluMov => exact saluUn_memWf h
  case saluBfxN32 | saluBfxI32 => exact saluBfx_memWf h
  case saluBfi => exact execSaluBfi_memWf h
  case saluLea => exact execSaluLea_memWf h
  case saluWid => exact execSaluWid_memWf h
  case saluEscape64 _ _ _ _ _ ty => exact execSaluEscape64_memWf (_ty := ty) h
  case saluiAdd | saluiSub | saluiMul | saluiMinN32 | saluiMinI32 | saluiMaxN32 | saluiMaxI32 | saluiAnd | saluiOr | saluiXor | saluiShl |
      saluiShr | saluiSra | saluiRot => exact saluImm_memWf h
  case saluiLi => exact execSaluiLi_memWf h
  case fadd | fsub | fmul | fmin | fmax | fscl => exact falu2_memWf h
  case fneg | fabs | fclass | frnd => exact falu1_memWf h
  case faluEscape => exact execFaluEscape_memWf h
  case ffma => exact execFfma_memWf h
  case fexp2 | flog2 | frcp | frsq | fsqrt | fsin | fcos | ftanh | ferf => exact sfuWord_memWf h
  case cvt => exact execCvt_memWf h
  case qnt => exact execQnt_memWf h
  case dq => exact execDq_memWf h
  case pack _ m _ _ _ _ => exact execPack_memWf (_m := m) h
  case unpack _ m _ _ _ _ => exact execUnpack_memWf (_m := m) h
  case cmpEq | cmpNe | cmpLtI32 | cmpLeI32 | cmpGtI32 | cmpGeI32 | cmpLtN32 | cmpLeN32 | cmpGtN32 | cmpGeN32 => exact icmp_memWf h
  case fcmpEq | fcmpNe | fcmpLt | fcmpLe | fcmpGt | fcmpGe | fcmpUn | fcmpOrd => exact fcmp_memWf h
  case vote => exact execVote_memWf h
  case shfl => exact execShfl_memWf h
  case push => exact execPush_memWf h
  case bcast => exact execBcast_memWf h
  case scan => exact execScan_memWf h
  case red => exact execRed_memWf h
  case elect => exact execElect_memWf h
  case topk => exact execTopk_memWf h
  case hist => exact execHist_memWf h
  case rng => exact execRng_memWf h
  case walk => exact execWalk_memWf h
  case join => exact execJoin_memWf h
  case leave => exact execLeave_memWf h
  case wait => exact execWait_memWf h
  case trywait => exact execTrywait_memWf h
  case mset => exact execMset_memWf h
  case mmov => exact execMmov_memWf h
  case mand | mor | mxor | mnot => exact maskBin_memWf h
  case mpop => exact execMpop_memWf h
  case ldN8 | ldI8 | ldN16 | ldI16 | ld32 | ld64 | ld128 | ldfe32 | ldfe64 | ldfe128 | ldfeClr32 | ldfeClr64 |
      ldfeClr128 => exact loadWord_memWf h
  case st8 | st16 | st32 | st64 | st128 | stfe32 | stfe64 | stfe128 => exact storeWord_memWf h
  case atomAdd | atomMinI | atomMinN | atomMaxI | atomMaxN | atomAnd | atomOr | atomXor | atomXchg | atomCas | atomInc |
      atomIncb => exact atomWord_memWf h
  case aadd => exact execAadd_memWf h
  case ordend => exact execOrdend_memWf h
  case lock => exact execLock_memWf h
  case unlock => exact execUnlock_memWf h
  case pref _ _ l _ _ => exact execPref_memWf (_l := l) h
  case fenceSys => exact execFenceSys_memWf h
  case fenceWin => exact execFenceWin_memWf h
  case waitc => exact execWaitc_memWf h
  case acq => exact execAcq_memWf h
  case rel => exact execRel_memWf h
  case mmaE2m1 | mmaE4m3 | mmaE5m2 | mmaE3m2 | mmaE2m3 | mmaI8 | mmaBf16 | mmaF16 => exact mmaWord_memWf h
  case acz | acanch | acanchScalar | acvt | acld | acst => exact bandWord_memWf h
  case gang => exact execGang_memWf h
  case tgset => exact execTgset_memWf h
  case tgget => exact execTgget_memWf h
  case wvf => exact execWvf_memWf h
  case wvi => exact execWvi_memWf h
  case stw => exact execStw_memWf h
  case ldw => exact execLdw_memWf h
  case wthr => exact execWthr_memWf h
  case board => exact execBoard_memWf h
  case bwait => exact execBwait_memWf h
  case btry => exact execBtry_memWf h
  case bfree => exact execBfree_memWf h
  case lapr => exact execLapr_memWf h
  case job => exact execJob_memWf h
  case send => exact execSend_memWf h
  case recv => exact execRecv_memWf h
  case jstat => exact execJstat_memWf h
  case seqld => exact execSeqld_memWf h
  case seqst => exact execSeqst_memWf h
  case admitSeq => exact execAdmitSeq_memWf h
  case retire => exact execRetire_memWf h
  case retireMig => exact execRetireMig_memWf h
  case tokput => exact execTokput_memWf h
  case accept => exact execAccept_memWf h
  case draft => exact execDraft_memWf h
  case stopck => exact execStopck_memWf h
  case ckpt => exact execCkpt_memWf h
  case pgref | pgcow | pgmove | pgpin | pghand => exact pageWord_memWf h
  case catld => exact execCatld_memWf h
  case catst => exact execCatst_memWf h
  case bar _ _ _ _ sx => exact execBar_memWf (_s := sx) h
  case barr _ _ _ _ sx => exact execBarr_memWf (_s := sx) h
  case barrRem => exact execBarrRem_memWf h
  case barw _ _ _ _ sx => exact execBarw_memWf (_s := sx) h
  case bart _ _ _ _ _ sx => exact execBart_memWf (_s := sx) h
  case gbar => exact execGbar_memWf h
  case phaseRd _ _ _ _ sx => exact execPhaseRd_memWf (_s := sx) h
  case phaseArr _ _ _ _ sx => exact execPhaseArr_memWf (_s := sx) h
  case phaseInit _ _ _ _ sx => exact execPhaseInit_memWf (_s := sx) h
  case timeoutStarve | timeoutAcq | timeoutFewait | timeoutRendez | timeoutBoard | timeoutBarwait => exact State.timeoutIf_memWf h
  case sleepWake => exact execSleepWake_memWf h
  case acqGrant => exact execAcqGrant_memWf h
  case loadDataArrival => exact execLoadDataArrival_memWf h
  case storeCompletion => exact execStoreCompletion_memWf h
  case ldfeAccess => exact execLdfeAccess_memWf h
  case fenceSysComplete => exact execFenceSysComplete_memWf h
  case windowBoundary | timeSync | powerInterval | droop | supplyRecovery => exact h
  case tlbinvComplete => exact execTlbinvComplete_memWf h
  case orderTokenPass => exact execOrderTokenPass_memWf h
  case ordAtomicApply => exact execOrdAtomicApply_memWf h
  case tokenPark => exact execTokenPark_memWf h
  case gridBarrierPark => exact execGridBarrierPark_memWf h
  case barrierWaitComplete => exact execBarrierWaitComplete_memWf h
  case bartExpiry => exact execBartExpiry_memWf h
  case remoteArrivalApply => exact execRemoteArrivalApply_memWf h
  case bandGrant => exact execBandGrant_memWf h
  case gangDissolve => exact execGangDissolve_memWf h
  case enginePassStart => exact execEnginePassStart_memWf h
  case tileOperationComplete => exact State.tileStep_memWf h
  case waveComplete => exact execWaveComplete_memWf h
  case ringBeat => exact execRingBeat_memWf h
  case boardGrant => exact execBoardGrant_memWf h
  case boardingDeadline => exact State.clusterClaims_memWf h
  case lapBoundary => exact execLapBoundary_memWf h
  case governorEvaluation => exact execGovernorEvaluation_memWf h
  case dieRangeTake => exact execDieRangeTake_memWf h
  case teamPlacement => exact execTeamPlacement_memWf h
  case teamPark => exact execTeamPark_memWf h
  case teamResume => exact execTeamResume_memWf h
  case groupFree => exact execGroupFree_memWf h
  case kernelEndSequence => exact execKernelEndSequence_memWf h
  case kernelCancelComplete => exact execKernelCancelComplete_memWf h
  case jobSlotGrant => exact execJobSlotGrant_memWf h
  case jobEdgeCheck => exact State.edgeCheck_memWf h
  case jobGranuleAccess => exact execJobGranuleAccess_memWf h
  case jobMark => exact execJobMark_memWf h
  case jobCopy => exact State.jobStep_memWf h fun _ _ hs => stepCopy_memWf hs
  case jobFill => exact State.jobStep_memWf h fun _ _ hs => stepFill_memWf hs
  case jobConv => exact State.jobStep_memWf h fun _ _ hs => stepConv_memWf hs
  case jobGather => exact State.jobStep_memWf h fun _ _ hs => stepGather_memWf hs
  case jobReduce => exact State.jobStep_memWf h fun _ _ hs => stepReduce_memWf hs
  case jobAllgather => exact State.jobStep_memWf h fun _ _ hs => stepAllgather_memWf hs
  case jobBcast => exact State.jobStep_memWf h fun _ _ hs => stepBcast_memWf hs
  case jobSuffix => exact State.jobStep_memWf h fun _ _ hs => stepSuffix_memWf hs
  case jobPgmoveCard => exact execJobPgmoveCard_memWf h
  case jobPgcowCard | jobPgrefCard | jobPghandCard => exact State.jobStep_memWf h fun _ _ hs => State.pageStep_memWf hs
  case pageInComplete => exact execPageInComplete_memWf h
  case pageCopyComplete => exact execPageCopyComplete_memWf h
  case handoffBytesArrive => exact execHandoffBytesArrive_memWf h
  case handoffAck => exact execHandoffAck_memWf h
  case mboxSlotWrite => exact State.putMsg_memWf h
  case mboxSlotRead => exact execMboxSlotRead_memWf h
  case linkMessageArrival => exact execLinkMessageArrival_memWf h
  case deviceQueueEntryWrite => exact execDeviceQueueEntryWrite_memWf h
  case doorbellWrite => exact execDoorbellWrite_memWf h
  case launchKernel => exact execLaunchKernel_memWf h
  case launchRing => exact execLaunchRing_memWf h
  case launchGrant => exact execLaunchGrant_memWf h
  case launchCancel => exact execLaunchCancel_memWf h
  case launchNop => exact execLaunchNop_memWf h
  case launchBadentry => exact execLaunchBadentry_memWf h
  case timeTriggeredFiring => exact execTimeTriggeredFiring_memWf h
  case faultRecordWrite => exact execFaultRecordWrite_memWf h
  case fqciWrite => exact execFqciWrite_memWf h
  case resolveResume => exact execResolveResume_memWf h
  case resolveCancel => exact execResolveCancel_memWf h
  case bind fn addr => exact (execBind_memWf h : Out.memWf (execBind fn addr s))
  case unbind => exact execUnbind_memWf h
  case save => exact execSave_memWf h
  case saveComplete => exact execSaveComplete_memWf h
  case restore => exact execRestore_memWf h
  case restoreComplete => exact execRestoreComplete_memWf h
  case qreload => exact execQreload_memWf h
  case tlbinvRegisterWrite => exact execTlbinvRegisterWrite_memWf h
  case functionReset => exact execFunctionReset_memWf h
  case functionResetComplete => exact execFunctionResetComplete_memWf h
  case shareWrite => exact execShareWrite_memWf h
  case peerTableWrite => exact execPeerTableWrite_memWf h
  case linkRetrainRequest => exact execLinkRetrainRequest_memWf h
  case msixUnmask => exact execMsixUnmask_memWf h
  case registerWrite => exact execRegisterWrite_memWf h
  case hostWindowRequest => exact execHostWindowRequest_memWf h
  case partnerDetected | laneLost | partnerLost => exact State.portMove_memWf h
  case trainingEnd => exact execTrainingEnd_memWf h
  case trainingFailed => exact execTrainingFailed_memWf h
  case dieLinkFatalError => exact State.dieLinkFatal_memWf h
  case remoteStoreArrival => exact execRemoteStoreArrival_memWf h
  case remoteAckArrival => exact execRemoteAckArrival_memWf h
  case retransmitLimit => exact execRetransmitLimit_memWf h
  case packageReset => exact State.packageReset_memWf h
  case keyload => exact execKeyload_memWf h
  case keyerase => exact execKeyerase_memWf h
  case pcap => exact execPcap_memWf h
  case fwload => exact execFwload_memWf h
  case pstat => exact execPstat_memWf h
  case doeUnknownObject => exact execDoeUnknownObject_memWf h
  case getVersion => exact execGetVersion_memWf h
  case getCapabilities => exact execGetCapabilities_memWf h
  case negotiateAlgorithms => exact execNegotiateAlgorithms_memWf h
  case getDigests => exact execGetDigests_memWf h
  case getCertificate => exact execGetCertificate_memWf h
  case challenge => exact execChallenge_memWf h
  case getMeasurements => exact execGetMeasurements_memWf h
  case keyExchange => exact execKeyExchange_memWf h
  case finish => exact execFinish_memWf h
  case endSession => exact execEndSession_memWf h
  case peerAbortNotice => exact execPeerAbortNotice_memWf h
  case peerRefusal => exact execPeerRefusal_memWf h

theorem runChain_memWf {s0 s : State} {is} (h0 : s0.memWf) (h : s.memWf) : Out.memWf (runChain s0 is s) := by
  induction is generalizing s with
  | nil => exact h
  | cons i is ih =>
    have hi := exec_memWf i h
    unfold runChain
    split
    next t e =>
      have ht : t.memWf := (e ▸ hi : Out.memWf (.next t))
      split
      · exact State.precise_memWf h0
      · exact State.holdIssue_memWf h0
      · exact ih ht
    next => exact hi

theorem State.issueAt_memWf {s : State} {gi pc ws} (h : s.memWf) : Out.memWf (s.issueAt gi pc ws) := by
  have hl : (s.latch gi pc (chainAt ws (slotOf pc)).length (chainLen (chainAt ws (slotOf pc)))).memWf := State.latch_memWf h
  unfold State.issueAt
  extract_lets gs s1
  split
  · exact State.precise_memWf hl
  · split
    · exact exec_memWf _ hl
    · exact runChain_memWf hl hl

theorem Out.memWf_ite {c : Prop} [Decidable c] {a b : Out} (ha : a.memWf) (hb : b.memWf) : Out.memWf (if c then a else b) := by
  split <;> assumption

theorem State.issue_memWf {s : State} {gi} (h : s.memWf) : Out.memWf (s.issue gi) := by
  have hc : (s.choose gi).memWf := State.choose_memWf h
  unfold State.issue
  extract_lets s1 g
  split
  · exact hc
  next pc _ =>
    refine Out.memWf_ite hc (Out.memWf_ite (State.pcFault_memWf hc) ?_)
    have hp := State.packet_memWf (g := g) (p := pkt pc) hc
    split
    next e =>
      have h2 := State.memWf_of_fst e hp
      exact State.memWf_ite h2 (State.fetchFault_memWf h2)
    next e =>
      have h2 := State.memWf_of_fst e hp
      exact Out.memWf_ite (State.issueAt_memWf h2) (State.pcFault_memWf h2)

theorem State.withAgenda_memWf {s : State} {x} (h : s.memWf) : ({ s with agenda := x } : State).memWf := h

theorem step_memWf {s : State} (h : s.memWf) : Out.memWf (step s) := by
  have ht := State.tick_memWf (State.outsideWrites_memWf h)
  unfold step
  extract_lets u t own
  have turn {o : Out} (ho : o.memWf) :
      Out.memWf (match u.pick with | some gi => if u.turn % 2 = 0 then t.issue gi else o | none => o) := by
    split
    · exact Out.memWf_ite (State.issue_memWf ht) ho
    · exact ho
  split
  · exact exec_memWf _ (State.withAgenda_memWf ht)
  · refine turn ?_
    unfold own
    split
    · exact exec_memWf _ ht
    · exact ht

/-- Settles O54: each function of the model that returns a state keeps the canonical form (`exec_memWf` collects those of the instructions
and events), so the outcome of a step does. -/
theorem stepKeepsMemory : Obligations.StepKeepsMemory := by
  unfold Obligations.StepKeepsMemory
  intro s t h e
  exact (e ▸ step_memWf h : Out.memWf (.next t))

end

end Sys2Proof.Machine
end

