-- ==== Sys2Proof/Proofs/MemoryControl.lean ====
section
/-! PROOFS. The words of class MEMCTL and `tlbinv` (R47, R92, R177 to R182, R389): O22. -/
namespace Sys2Proof.Machine
open Sys2Proof.Claims

noncomputable section

/-! ### What a chain's account of the locks leaves alone -/

theorem State.walk_keepLocks (s : State) (ls : List (Nat × Nat)) (fn va : Nat) (n t : Nat) :
    (s.keepLocks ls).walk fn va n t = s.walk fn va n t := by
  induction n generalizing t with
  | zero => rfl
  | succ n ih =>
    simp only [State.walk, ih]
    rfl

theorem State.lockRange_keepLocks (s : State) (ls : List (Nat × Nat)) (c va n : Nat) :
    (s.keepLocks ls).lockRange c va n = s.lockRange c va n := by
  simp only [State.lockRange, State.walk_keepLocks]
  rfl

theorem State.dropLocks_keepLocks (s : State) (ls : List (Nat × Nat)) (c va n : Nat) :
    (s.keepLocks ls).dropLocks c va n = (s.dropLocks c va n).keepLocks ls := by
  simp only [State.dropLocks, State.lockRange_keepLocks]
  rfl

theorem State.start_keepLocks (s : State) (ls : List (Nat × Nat)) (c : Wctx) (cls : Cls) (todo : Lanes) (k : OpKind) (dv ds : List Nat) :
    (s.keepLocks ls).start c cls todo k dv ds = (s.start c cls todo k dv ds).keepLocks ls := rfl

/-- A word that opens no region does as its body says, whatever account of the locks its chain keeps. -/
theorem does_of_keepLocks {i : Instr} {w : WordSpec} {s e : State} {ls : List (Nat × Nat)} {body : Wctx → State → Res}
    (hx : exec i s = .next (word w s body)) (hs : w.side = false) (hb : body (wctx w.h s) s.advance = .ok (e.keepLocks ls)) :
    Does i w s e := by
  intro hc
  obtain ⟨t, ht, he⟩ := does_of hx hb hc
  refine ⟨t, ht, he.trans ?_⟩
  rw [opened, opened, hs]
  split <;> rfl

theorem holds_of_ends {i : Instr} {w : WordSpec} {s : State} {k : StallKind} (h : Ends i w s (.hold k)) : Holds i w s k := by
  intro hc hl
  obtain ⟨t, ht, hr⟩ := h hc
  rw [if_neg hl] at hr
  exact ht.trans (next_congr hr)

/-- A word whose own rule is kept, and which has no effect where no lane issues, runs as the word of its answer. -/
theorem exec_eq_word_of_own {i : Instr} {w : WordSpec} {s : State} {own : Wctx → State → Option Nat} {body : Wctx → State → Res} (r : Res)
    (hx : exec i s = .next (wordOwn w own s body)) (ho : own (wctx w.h s) s = none)
    (h0 : lanes w s = 0#32 → body (wctx w.h s) s.advance = .ok s.advance) (hb : lanes w s ≠ 0#32 → body (wctx w.h s) s.advance = r) :
    exec i s = .next (word w s fun _ _ => r) := by
  have answer : body (wctx w.h s) s.advance = if lanes w s = 0#32 then .ok s.advance else r := by split <;> simp_all
  rw [hx, word, wordAny, wordOwn, wordOwn, ho, answer]
  rfl

theorem State.advance_windowOf (s : State) (c : Nat) : s.advance.windowOf c = s.windowOf c := by
  have clock : s.advance.clock = s.clock := by unfold State.advance; split <;> rfl
  simp only [State.windowOf, clock, State.ctx, State.advance_ctxs]

/-! ### Locks (R177 to R179) -/

theorem does_lock (h : Hdr) (d a b : BitVec 6) (s : State) : let c := wctx h s
    let t := s.advance
    let r := t.lockOutcome (s.ctxOf c.snap) (c.snap.spair a.toNat).toNat (c.snap.sreg b.toNat).toNat
    Does (.lock h d a b) (specLock h d a b) s ((t.onCtx (s.ctxOf c.snap) fun x => { x with locks := r.2 }).start c .ld 0
      (.regs [d.toNat] [BitVec.ofNat 32 r.1]) [] [d.toNat]) := by
  intro c t r
  refine does_of_keepLocks (ls := t.locksOf (s.ctxOf c.snap)) rfl rfl ?_
  rw [← State.start_keepLocks]
  simp only [r, t, ← s.advance_ctxOf]
  rfl

theorem does_unlock (h : Hdr) (a b : BitVec 6) (s : State) : let c := wctx h s
    Does (.unlock h a b) (specUnlock h a b) s ((s.advance.dropLocks (s.ctxOf c.snap) ((c.snap.spair a.toNat).toNat / 512 * 512)
      (c.snap.sreg b.toNat).toNat).start c .st 0 .posted [] []) := by
  intro c
  refine does_of_keepLocks (ls := s.advance.locksOf (s.ctxOf c.snap)) rfl rfl ?_
  rw [← State.start_keepLocks, ← State.dropLocks_keepLocks, ← s.advance_ctxOf]
  rfl

/-! ### Fences, `waitc` and the blocks (R47, R92, R181, R182) -/

section
variable {h : Hdr} {s : State}

theorem holds_fenceSys (hr : (wctx h s).ready (.fenceSys 0) = false) :
    Holds (.fenceSys h) (specBare h .m) s (.fenceSys (wctx h s).snap.nextOp) :=
  holds_of rfl (if_neg (Bool.eq_false_iff.mp hr))

theorem does_fenceSys (hr : (wctx h s).ready (.fenceSys 0) = true) : Does (.fenceSys h) (specBare h .m) s s.advance :=
  does_of rfl (if_pos hr)

theorem ends_fenceWin {now : Nat} (hn : s.windowOf (s.ctxOf (wctx h s).snap) = now) :
    Ends (.fenceWin h) (specBare h .m) s (if (wctx h s).ready (.fenceWin 0) || (wctx h s).firstWindow now < now then .ok s.advance
      else .hold (.fenceWin ((wctx h s).firstWindow now))) := by
  refine ends_as rfl ?_
  have at_advance : s.advance.windowOf (s.advance.ctxOf (wctx h s).snap) = now := by rw [State.advance_windowOf, State.advance_ctxOf, hn]
  rw [← at_advance]
  rfl

theorem holds_waitc {d a b e : BitVec 6} (hg : (wctx h s).snap.within d.toNat a.toNat b.toNat e.toNat = false) :
    Holds (.waitc h d a b e) (specBare h .m) s (.waitc d.toNat a.toNat b.toNat e.toNat) :=
  holds_of rfl (if_neg (Bool.eq_false_iff.mp hg))

theorem does_waitc {d a b e : BitVec 6} (hg : (wctx h s).snap.within d.toNat a.toNat b.toNat e.toNat = true) :
    Does (.waitc h d a b e) (specBare h .m) s
      (group s fun g => g.clearPending (wctx h s).snap.issued (boundOf d.toNat a.toNat b.toNat e.toNat)) :=
  does_of rfl (if_pos hg)

/-- The blocks that the group's kernel allows (R92). -/
def blockLimit (s : State) : Nat := match s.kernels[s.iss.snap.kernel]? with | some k => k.h.xreg | none => 0

theorem unlawful_acq_rel {f : BitVec 6} (hf : blockLimit s ≤ blockOf f) :
    Unlawful (.acq h f) (specBare h .m) s 0x09 ∧ Unlawful (.rel h f) (specBare h .m) s 0x09 :=
  ⟨unlawful_of_ownRule rfl rfl rfl (if_pos hf) (by decide), unlawful_of_ownRule rfl rfl rfl (if_pos hf) (by decide)⟩

variable {f : BitVec 6} (hf : blockOf f < blockLimit s)
include hf

theorem exec_acq : exec (.acq h f) s = .next (word (specBare h .m) s fun _ _ =>
    if (wctx h s).snap.held.getLsbD (blockOf f) then .ok s.advance
    else if (wctx h s).ready (.acq 0) then .ok (group s fun g => g.takeBlock (blockOf f)) else .hold (.acq (blockOf f))) := by
  refine exec_eq_word_of_own _ rfl (if_neg (Nat.not_le.mpr hf)) (fun hl => ?_) fun hl => ?_
  · exact if_pos (Bool.or_eq_true_iff.mpr (.inl (decide_eq_true hl)))
  · exact if_congr (Bool.or_eq_true_iff.trans (or_iff_right fun hd => hl (of_decide_eq_true hd))) rfl rfl

theorem exec_rel : exec (.rel h f) s = .next (word (specBare h .m) s fun _ _ =>
    if !(wctx h s).snap.held.getLsbD (blockOf f) then .ok s.advance
    else match (List.range 8).find? fun i => ((wctx h s).snap.pendV.getD (32 + 8 * blockOf f + i) none).isSome with
      | some i => .raise cHAZARD (32 + 8 * blockOf f + i)
      | none => .ok (group s fun g => { g with held := g.held &&& ~~~(BitVec.ofNat 4 (2 ^ blockOf f)) })) := by
  refine exec_eq_word_of_own _ rfl (if_neg (Nat.not_le.mpr hf)) (fun hl => ?_) fun hl => ?_
  · exact if_pos (Bool.or_eq_true_iff.mpr (.inl (decide_eq_true hl)))
  · exact if_congr (Bool.or_eq_true_iff.trans (or_iff_right fun hd => hl (of_decide_eq_true hd))) rfl rfl

theorem does_acq_of_held (hh : (wctx h s).snap.held.getLsbD (blockOf f) = true) : Does (.acq h f) (specBare h .m) s s.advance :=
  does_of (exec_acq hf) (if_pos hh)

variable (hh : (wctx h s).snap.held.getLsbD (blockOf f) = false)
include hh

theorem holds_acq (hr : (wctx h s).ready (.acq 0) = false) : Holds (.acq h f) (specBare h .m) s (.acq (blockOf f)) :=
  holds_of (exec_acq hf) ((if_neg (Bool.eq_false_iff.mp hh)).trans (if_neg (Bool.eq_false_iff.mp hr)))

theorem does_acq_of_granted (hr : (wctx h s).ready (.acq 0) = true) :
    Does (.acq h f) (specBare h .m) s (group s fun g => g.takeBlock (blockOf f)) :=
  does_of (exec_acq hf) ((if_neg (Bool.eq_false_iff.mp hh)).trans (if_pos hr))

theorem does_rel_of_not_held : Does (.rel h f) (specBare h .m) s s.advance :=
  does_of (exec_rel hf) (if_pos (congrArg not hh))

omit hh in
theorem does_rel_of_held (hh : (wctx h s).snap.held.getLsbD (blockOf f) = true)
    (hp : ∀ i, i < 8 → (wctx h s).snap.pendV.getD (32 + 8 * blockOf f + i) none = none) :
    Does (.rel h f) (specBare h .m) s (group s fun g => { g with held := g.held &&& ~~~(BitVec.ofNat 4 (2 ^ blockOf f)) }) := by
  have settled : ((List.range 8).find? fun i => ((wctx h s).snap.pendV.getD (32 + 8 * blockOf f + i) none).isSome) = none := by
    rw [List.find?_range_eq_none]
    intro i hi
    simp [hp i hi]
  refine does_of (exec_rel hf) ((if_neg ?_).trans ?_)
  · rw [show (wctx h s).snap.held.getLsbD (blockOf f) = true from hh]
    nofun
  · rw [settled]

end

/-! ### Translations dropped (R389) -/

section
variable {i : Instr} {w : WordSpec} {kind : Nat} {a b : BitVec 6} {s : State} (hx : exec i s = .next (tlbinvWord w kind a b s))
include hx

theorem raises_tlbinv (hk : kind ≠ 2) (hv : canonical ((wctx w.h s).snap.spair a.toNat).toNat = false) : Raises i w s cPROT 2 :=
  raises_of hx (if_pos (by simp [hk, hv]))

section
variable (hv : kind = 2 ∨ canonical ((wctx w.h s).snap.spair a.toNat).toNat = true)
include hv

theorem ends_tlbinv : Ends i w s (match invRange (wctx w.h s) kind a b with
    | none => .ok s.advance
    | some r => if (wctx w.h s).ready (.tlbinv 0)
      then .ok ((s.advance.dropTlb (s.advance.ctxOf (wctx w.h s).snap) r).dropUnmapped (s.advance.ctxOf (wctx w.h s).snap) r)
      else .hold (.tlbinv (wctx w.h s).snap.nextOp)) := by
  refine ends_as hx (if_neg ?_)
  rcases hv with hv | hv <;> simp [hv]

theorem does_tlbinv_of_none (hi : invRange (wctx w.h s) kind a b = none) : Does i w s s.advance :=
  does_of_ends (by simpa only [hi] using ends_tlbinv hx hv)

variable {r : Option (Nat × Nat)} (hi : invRange (wctx w.h s) kind a b = some r)
include hi

theorem holds_tlbinv (hr : (wctx w.h s).ready (.tlbinv 0) = false) : Holds i w s (.tlbinv (wctx w.h s).snap.nextOp) := by
  have e := ends_tlbinv hx hv
  simp only [hi] at e
  rw [if_neg (Bool.eq_false_iff.mp hr)] at e
  exact holds_of_ends e

theorem does_tlbinv (hr : (wctx w.h s).ready (.tlbinv 0) = true) : Does i w s
    ((s.advance.dropTlb (s.advance.ctxOf (wctx w.h s).snap) r).dropUnmapped (s.advance.ctxOf (wctx w.h s).snap) r) := by
  have e := ends_tlbinv hx hv
  simp only [hi] at e
  rw [if_pos hr] at e
  exact does_of_ends e

end
end

/-- Settles O22: each word of MEMCTL ends as its body answers. -/
theorem memoryControlWords : Obligations.MemoryControlWords := by
  unfold Obligations.MemoryControlWords
  refine ⟨fun h d a b e f s => ?_, fun h a b s => ?_⟩
  · refine ⟨does_lock h d a b s, does_unlock h a b s, holds_fenceSys, does_fenceSys, ⟨fun hr hn => ?_, fun hw => ?_⟩, holds_waitc,
      does_waitc, unlawful_acq_rel, does_acq_of_held, fun hf hh => ⟨holds_acq hf hh, does_acq_of_granted hf hh, does_rel_of_not_held hf hh⟩,
      does_rel_of_held⟩
    · refine holds_of_ends ?_
      have e := ends_fenceWin (h := h) (s := s) rfl
      rwa [if_neg (by simp [hr, hn])] at e
    · refine does_of_ends ?_
      have e := ends_fenceWin (h := h) (s := s) rfl
      rwa [if_pos (by simpa using hw)] at e
  · intro c ok drop
    have all : exec (.tlbinvAll h) s = .next (tlbinvWord (specTlbinv h []) 2 0#6 0#6 s) := rfl
    have page : exec (.tlbinvPage h a) s = .next (tlbinvWord (specTlbinv h (pairOf a)) 0 a 0#6 s) := rfl
    have range : exec (.tlbinvRange h a b) s = .next (tlbinvWord (specTlbinv h (pairOf a ++ [b.toNat])) 1 a b s) := rfl
    refine ⟨fun hv => ⟨raises_tlbinv page (by decide) hv, raises_tlbinv range (by decide) hv⟩,
      fun hr => ⟨holds_tlbinv all (.inl rfl) rfl hr, fun hv => ⟨holds_tlbinv page (.inr hv) rfl hr, fun hn => ?_⟩⟩,
      fun hv hz => does_tlbinv_of_none range (.inr hv) (if_pos (congrArg BitVec.toNat hz)),
      fun hr => ⟨does_tlbinv all (.inl rfl) rfl hr, fun hv => ⟨does_tlbinv page (.inr hv) rfl hr, ?_⟩⟩⟩
    · obtain ⟨r, hi⟩ := Option.ne_none_iff_exists'.mp hn
      exact holds_tlbinv range (.inr hv) hi hr
    · cases hi : invRange c 1 a b with
      | none => exact does_tlbinv_of_none range (.inr hv) hi
      | some r => exact does_tlbinv range (.inr hv) hi hr

end
end Sys2Proof.Machine
end

