-- ==== Sys2Proof/Proofs/MemoryArrivals.lean ====
section
/-! PROOFS. Memory operations go on, arrive and complete (R162 to R168, R188, R189): O32 and O21. -/
namespace Sys2Proof.Machine
open Sys2Proof.Claims

noncomputable section

/-! ### Operations that arrive -/

theorem State.onGrp_onGrp (s : State) (gi : Nat) (f g : Group → Group) : (s.onGrp gi f).onGrp gi g = s.onGrp gi fun x => g (f x) := by
  by_cases hl : gi < s.groups.length
  · rw [State.onGrp, s.grp_onGrp gi f hl]
    simp only [State.onGrp, State.setGrp, List.set_set]
  · simp only [State.onGrp, State.setGrp, List.set_eq_of_length_le (Nat.le_of_not_lt hl), List.length_set]

section
variable {s : State} {gi id : Nat} {o : Op} (ho : (s.grp gi).op? id = some o) (hd : o.done = false)
include ho hd

/-- The data of an operation that has no lane left and no late fault land, and it completes. -/
theorem State.arrive_of_landed (ht : o.todo = 0#32) (hl : o.late = []) :
    s.arrive gi id = (s.onGrp gi fun g => g.land o).complete gi id := by
  have settled : sortLe (fun a b : LaneFault => decide (a.1 ≤ b.1)) o.late = [] := by rw [hl]; rfl
  simp only [State.arrive, ho, hd, ht, settled, State.deferAll, Bool.false_eq_true, if_false, ne_eq, not_true_eq_false, if_true]

theorem State.arrive_still (ht : o.todo = 0#32) (hl : o.late = []) :
    (s.arrive gi id).still = ((s.onGrp gi fun g => g.land o).onGrp gi fun g =>
      (g.onOp id fun o => { o with done := true, todo := 0 }).retire).still := by
  rw [State.arrive_of_landed ho hd ht hl, State.complete, State.settle_still]

theorem storeCompletion_of_landed {n : Nat} {z : Space} {fe : Bool} {addr : PerLane Dword} {data : PerLane (BitVec 128)}
    (hk : o.kind = .store n z fe addr data) (ht : o.todo = 0#32) (hl : o.late = []) : ∃ t, exec (.storeCompletion gi id) s = .next t
      ∧ t.still = (s.onGrp gi fun g => ((g.land o).onOp id fun o => { o with done := true, todo := 0 }).retire).still := by
  refine ⟨s.arrive gi id, next_congr ?_, ?_⟩
  · simp only [ho, hk]
  · rw [State.arrive_still ho hd ht hl, State.onGrp_onGrp]

omit hd in
theorem ldfeAccess_of_turn {l : Fin 32} (hf : o.kind.waitsFull = true) (ht : o.todo.getLsbD l = true) (hu : s.laneTurn gi o l = true)
    (hc : s.onCore gi = true) : exec (.ldfeAccess gi id l) s = .next (
      let r := s.stepLanes gi id false (s.fullLanes gi o l)
      ((r.1.deferOp gi o r.2).pump gi).settle gi false) := by
  refine next_congr ?_
  simp only [ho, hf, ht, hu, hc, Bool.and_self, if_true]

theorem waveComplete_of_wave {outs : List (Nat × PerLane Word × Tag)} {fl : PerLane (BitVec 5)} (hk : o.kind = .wave outs fl) :
    exec (.waveComplete gi id) s = .next
      ((flagLanes (s.onGrp gi fun g => outs.foldl (fun g x => g.setV x.1 x.2.1 x.2.2) g) gi o.lanes o.pc o.hm fun l => fl[l]).complete gi id) := by
  refine next_congr ?_
  simp only [ho, hk, hd, Bool.false_eq_true, if_false]

end

/-! ### Ordered atomics and the token (R188, R189) -/

theorem ordAtomicApply_of_turn {s s1 : State} {gi : Nat} {o : Op} {l : Fin 32} {rest : List (Fin 32)} {x : Option (BitVec 128)}
    (hn : (s.grp gi).nextOrd = some o) (ht : s.holdsToken (s.grp gi) = true) (hc : s.onCore gi = true)
    (hl : (s.grp gi).ordLanes o = l :: rest) (hu : (s.grp gi).turn o.id l = true) (hm : s.tryLane gi o l false = (s1, .made x)) :
    exec (.ordAtomicApply gi) s
      = .next (((s1.onGrp gi fun v => { v.onOp o.id fun o => o.lane l (o.ea l) (.made x) with
          redo := if o.pc == v.redoPc then v.redo &&& ~~~(lane1 l.val) else v.redo }).pump gi).settle gi false) := by
  have stepped : s.ordStep gi = (s1.onGrp gi fun v => { v.onOp o.id fun o => o.lane l (o.ea l) (.made x) with
      redo := if o.pc == v.redoPc then v.redo &&& ~~~(lane1 l.val) else v.redo }, true) := by
    simp only [State.ordStep, hn, ht, hc, hl, hu, hm, Bool.and_self, Bool.not_true, Bool.false_eq_true, if_false]
  refine next_congr ?_
  rw [stepped]

theorem orderTokenPass_of_done {s : State} {k : Nat} {kn : Kernel} {g : Group} (hk : s.kernels[k]? = some kn) (hd : kn.h.det = true)
    (ht : kn.token < kn.tokenEnd) (hg : s.groupAtToken k kn.token = some g) (hm : g.tokenDone = true) (ho : g.owed = 0#32)
    (hn : g.nextOrd = none) :
    exec (.orderTokenPass k) s = .next ((s.onKernel k fun kn => { kn with token := kn.token + 1 }).loosen k) := by
  refine next_congr ?_
  simp only [hk, hd, ht, hg, hm, ho, hn, decide_true, Option.isNone_none, Bool.and_self, if_true]

/-- Settles O32: each event's own lemma. -/
theorem memoryEvents : Obligations.MemoryEvents := by
  unfold Obligations.MemoryEvents
  intro s gi id o ho hd
  exact ⟨fun ht hl n z fe addr data hk => storeCompletion_of_landed ho hd hk ht hl, fun l => ldfeAccess_of_turn ho,
    fun outs fl hk => waveComplete_of_wave ho hd hk,
    fun l rest s1 x hn ht hc hl => ordAtomicApply_of_turn hn ht hc (by simpa [Group.ordLanes] using hl),
    fun k kn g => orderTokenPass_of_done⟩

/-! ### Lane masks -/

/-- A number summed from distinct powers of two has the bits that were summed. -/
theorem testBit_foldl_two_pow (n : Nat) (p : Fin n → Bool) :
    (List.finRange n).foldl (fun x l => if p l then x + 2 ^ l.val else x) 0 < 2 ^ n
      ∧ ∀ i : Fin n, ((List.finRange n).foldl (fun x l => if p l then x + 2 ^ l.val else x) 0).testBit i = p i := by
  induction n with
  | zero => exact ⟨by simp, fun i => i.elim0⟩
  | succ n ih =>
    obtain ⟨small, bits⟩ := ih fun l => p l.castSucc
    rw [List.finRange_succ_last, List.foldl_append, List.foldl_map]
    simp only [Fin.val_castSucc, List.foldl_cons, List.foldl_nil, Fin.val_last] at small bits ⊢
    generalize (List.finRange n).foldl (fun x l => if p l.castSucc = true then x + 2 ^ l.val else x) 0 = v at small bits ⊢
    have top : v.testBit n = false := Nat.testBit_lt_two_pow small
    refine ⟨by rw [Nat.pow_succ]; split <;> omega, fun i => ?_⟩
    cases i using Fin.lastCases with
    | last =>
      rw [Fin.val_last]
      split
      · rename_i h
        rw [Nat.add_comm, Nat.testBit_two_pow_add_eq, top, h]
        rfl
      · rename_i h
        rw [top, Bool.eq_false_iff.mpr h]
    | cast i =>
      rw [← bits i, Fin.val_castSucc]
      split
      · rw [Nat.add_comm, Nat.testBit_two_pow_add_gt i.isLt]
      · rfl

theorem lanesWhere_getLsbD (p : Fin 32 → Bool) (l : Fin 32) : (lanesWhere p).getLsbD l = p l := by
  obtain ⟨-, bits⟩ := testBit_foldl_two_pow 32 p
  rw [lanesWhere, BitVec.getLsbD_ofNat, bits]
  simp

/-! ### What a load leaves in the registers (R162) -/

/-- A register written, in the lanes that have data, with a part of the data. -/
def Group.landPart (g : Group) (o : Op) (n : Nat) (f : Nat → Nat) : Group :=
  g.putV n (lanesWhere fun l => (o.got[l]).isSome) fun l => BitVec.ofNat 32 (f (match o.got[l] with | some x => x.toNat | none => 0))

section
variable (g : Group) (o : Op) (d n : Nat) (f : Nat → Nat)

theorem Group.vreg_landPart_ne {r : Nat} (hr : n ≠ r) : (g.landPart o n f).vreg r = g.vreg r := Group.vreg_setV_ne _ _ _ _ _ hr

theorem Group.vreg_landPart_none {l : Fin 32} (hl : o.got[l] = none) (r : Nat) : ((g.landPart o n f).vreg r)[l] = (g.vreg r)[l] := by
  by_cases hr : n = r
  · subst hr
    by_cases hn : n < 64
    · rw [Group.landPart, Group.vreg_putV g n _ _ l hn, lanesWhere_getLsbD, hl]
      rfl
    · simp [Group.landPart, Group.putV, Group.setV, Group.vreg, vector_getD, hn]
  · rw [Group.vreg_landPart_ne g o n f hr]

theorem Group.vreg_landPart_some {l : Fin 32} {v : BitVec 128} (hl : o.got[l] = some v) (hn : n < 64) :
    ((g.landPart o n f).vreg n)[l] = BitVec.ofNat 32 (f v.toNat) := by
  rw [Group.landPart, Group.vreg_putV g n _ _ l hn, lanesWhere_getLsbD, hl]
  rfl

/-- Registers written one after another with the words of the data, the lowest first. -/
def Group.landRun (g : Group) (o : Op) (d k : Nat) : Group :=
  (List.range k).foldl (fun g i => g.landPart o (d + i) fun x => x / 2 ^ (32 * i)) g

theorem Group.landRun_succ (k : Nat) : g.landRun o d (k + 1) = (g.landRun o d k).landPart o (d + k) fun x => x / 2 ^ (32 * k) := by
  rw [Group.landRun, Group.landRun, List.range_succ, List.foldl_append]
  rfl

theorem Group.vreg_landRun_ne (k : Nat) {r : Nat} (hr : r < d ∨ d + k ≤ r) : (g.landRun o d k).vreg r = g.vreg r := by
  induction k with
  | zero => rfl
  | succ k ih => rw [Group.landRun_succ, Group.vreg_landPart_ne _ _ _ _ (by omega), ih (by omega)]

theorem Group.vreg_landRun_none {l : Fin 32} (hl : o.got[l] = none) (k r : Nat) : ((g.landRun o d k).vreg r)[l] = (g.vreg r)[l] := by
  induction k with
  | zero => rfl
  | succ k ih => rw [Group.landRun_succ, Group.vreg_landPart_none _ _ _ _ hl, ih]

theorem Group.vreg_landRun_some {l : Fin 32} {v : BitVec 128} (hl : o.got[l] = some v) {k i : Nat} (hi : i < k) (hd : d + i < 64) :
    ((g.landRun o d k).vreg (d + i))[l] = v.extractLsb' (32 * i) 32 := by
  induction k with
  | zero => exact absurd hi (Nat.not_lt_zero i)
  | succ k ih =>
    rw [Group.landRun_succ]
    by_cases hk : i = k
    · subst hk
      rw [Group.vreg_landPart_some _ _ _ _ hl hd, ← Nat.shiftRight_eq_div_pow]
      rfl
    · rw [Group.vreg_landPart_ne _ _ _ _ (by omega), ih (by omega)]

end

theorem Group.land_load {g : Group} {o : Op} {n d : Nat} {sg fe clr : Bool} {z : Space} {addr : PerLane Dword}
    (hk : o.kind = .load n sg z d fe clr addr) :
    g.land o = if 4 ≤ n then g.landRun o d (n / 4) else g.landPart o d fun x => if sg then wrapN 32 (sx (8 * n) x) else x := by
  rw [Group.land, hk]
  rfl

theorem ofNat_wrapN (z : Int) : BitVec.ofNat 32 (wrapN 32 z) = BitVec.ofInt 32 z := by
  apply BitVec.eq_of_toNat_eq
  rw [BitVec.toNat_ofNat, BitVec.toNat_ofInt, wrapN]
  omega

/-- A number as a signed one is the value of its low bits. -/
theorem sx_eq_toInt {w : Nat} (hw : 0 < w) (v : BitVec 128) : sx w v.toNat = (v.setWidth w).toInt := by
  obtain ⟨k, rfl⟩ : ∃ k, w = k + 1 := ⟨w - 1, by omega⟩
  rw [sx, BitVec.toInt_eq_toNat_cond, BitVec.toNat_setWidth]
  have double : 2 ^ (k + 1) = 2 * 2 ^ k := Nat.pow_succ'
  rw [Nat.add_sub_cancel]
  by_cases high : 2 ^ k ≤ v.toNat % 2 ^ (k + 1)
  · rw [if_pos high, if_neg (by omega)]
    norm_cast
  · rw [if_neg high, if_pos (by omega)]

/-- Narrow data extended with their sign. -/
theorem ofNat_wrapN_sx {w : Nat} (hw : 0 < w) (v : BitVec 128) : BitVec.ofNat 32 (wrapN 32 (sx w v.toNat)) = (v.setWidth w).signExtend 32 := by
  rw [ofNat_wrapN, sx_eq_toInt hw]
  rfl

theorem loadDataArrival_of_landed {s : State} {gi id : Nat} {o : Op} {n d : Nat} {sg fe clr : Bool} {z : Space} {addr : PerLane Dword}
    (ho : (s.grp gi).op? id = some o) (hk : o.kind = .load n sg z d fe clr addr) (ht : o.todo = 0#32) (hd : o.done = false)
    (hl : o.late = []) :
    ∃ t, exec (.loadDataArrival gi id) s = .next t ∧ t.still = ((s.onGrp gi fun g => g.land o).onGrp gi fun g =>
      (g.onOp id fun o => { o with done := true, todo := 0 }).retire).still := by
  refine ⟨s.arrive gi id, next_congr ?_, State.arrive_still ho hd ht hl⟩
  simp only [ho, hk]

/-- Settles O21: the registers are written as `Group.landRun` and `Group.landPart` say. -/
theorem loadArrives : Obligations.LoadArrives := by
  unfold Obligations.LoadArrives
  intro s gi id o bytes d sg fe clr z addr _ ho hk ht hd hl hb hd64
  have positive : 0 < 8 * bytes := by
    simp only [List.mem_cons, List.not_mem_nil, or_false] at hb
    omega
  rw [Group.land_load hk]
  refine ⟨loadDataArrival_of_landed ho hk ht hd hl, fun l v hv _ => ⟨fun h4 i hi hr => ?_, fun h4 hs => ?_, fun h4 hs => ?_⟩,
    fun l r hv => ?_, fun r hr => ?_⟩
  · rw [if_pos h4, Group.vreg_landRun_some _ _ _ hv hi hr]
  · rw [if_neg (by omega), Group.vreg_landPart_some _ _ _ _ hv hd64, hs]
    exact BitVec.ofNat_toNat 32 v
  · rw [if_neg (by omega), Group.vreg_landPart_some _ _ _ _ hv hd64, hs]
    exact ofNat_wrapN_sx positive v
  · split
    · exact Group.vreg_landRun_none _ _ _ hv _ _
    · exact Group.vreg_landPart_none _ _ _ _ hv _
  · split
    · exact Group.vreg_landRun_ne _ _ _ _ (by omega)
    · exact Group.vreg_landPart_ne _ _ _ _ (by omega)

end
end Sys2Proof.Machine
end

