-- ==== Sys2Proof/Proofs/MemoryBytes.lean ====
section
/-! PROOFS. The bytes that memory and the L2 hold between them, as accesses see them (R157, R384, R454). -/
namespace Sys2Proof.Machine
open Sys2Proof.Claims

noncomputable section

/-! ### Lines and host ports -/

theorem behindPort_congr {a b : Nat} (h : a / 128 = b / 128) : behindPort a = behindPort b := by
  have same : paReg a = paReg b := by
    unfold paReg
    omega
  rw [behindPort, behindPort, same]

theorem behindPort_line (a : Nat) : behindPort (a / 128 * 128) = behindPort a := behindPort_congr (by omega)

theorem State.place_of_not_behind (s : State) {a : Nat} (h : behindPort a = false) : s.place a = a := by
  rw [State.place, if_pos]
  intro e
  rw [behindPort, e] at h
  cases h

theorem State.clear_iff {s : State} {x : L2Line} {key : List Byte} :
    s.clear x key = true ↔ behindPort (x.line * 128) = true ∨ s.keyOf x.key = key := by
  rw [State.clear, Bool.or_eq_true, decide_eq_true_iff]

/-! ### What operations on memory change -/

/-- Two states that differ in memory, in the keys of its lines and in the L2 alone. -/
def State.MemOnly (s t : State) : Prop := t = { s with mem := t.mem, memKeys := t.memKeys, l2 := t.l2 }

section
variable {s t u : State}

theorem State.MemOnly.refl (s : State) : s.MemOnly s := rfl

theorem State.MemOnly.trans (h : s.MemOnly t) (h' : t.MemOnly u) : s.MemOnly u := by
  unfold State.MemOnly at h h'
  rw [h] at h'
  exact h'

theorem State.MemOnly.ports (h : s.MemOnly t) : t.ports = s.ports := by rw [h]
theorem State.MemOnly.ctl (h : s.MemOnly t) : t.ctl = s.ctl := by rw [h]

theorem State.foldl_memOnly {α : Type} {f : State → α → State} (h : ∀ (s : State) x, s.MemOnly (f s x)) (xs : List α) (s : State) :
    s.MemOnly (xs.foldl f s) := by
  induction xs generalizing s with
  | nil => exact .refl s
  | cons x xs ih => exact (h s x).trans (ih _)

end

/-! ### Bytes that memory holds -/

/-- The byte that memory holds of an address. -/
def State.inMem (s : State) (a : Nat) : Byte := Memory.byte s.mem (s.place a)

/-- Memory holds a byte under a key pair, or behind a host port, where nothing is enciphered (R384). -/
def State.memUnder (s : State) (key : List Byte) (a : Nat) : Prop := behindPort a = true ∨ s.memKey (a / 128) = key

theorem State.memByte_of_under {s : State} {key : List Byte} {a : Nat} (h : s.memUnder key a) : s.memByte a key = s.inMem a := by
  rw [State.memByte, if_pos (by simpa [State.memUnder] using h), State.inMem]

section
variable {s : State} {line : Nat} {data key : List Byte}

theorem State.putLine_l2 : (s.putLine line data key).l2 = s.l2 := by unfold State.putLine; split <;> rfl

theorem State.putLine_memOnly : s.MemOnly (s.putLine line data key) := by unfold State.putLine; split <;> rfl

theorem State.place_congr {t : State} (h : t.ports = s.ports) : t.place = s.place := by
  funext a
  rw [State.place, State.place, h]

theorem State.keyOf_congr {t : State} (h : t.ctl = s.ctl) : t.keyOf = s.keyOf := by
  funext k
  rw [State.keyOf, State.keyOf, h]

theorem placesApart_congr {t : State} (h : PlacesApart s) (e : t.ports = s.ports) : PlacesApart t := by
  rw [PlacesApart, State.place_congr e]
  exact h

theorem inMem_put (h : PlacesApart s) (p a : Nat) (b : Byte) :
    ({ s with mem := Memory.put s.mem (s.place p) b } : State).inMem a = if a = p then b else s.inMem a := by
  refine (Memory.byte_put ..).trans (if_congr ⟨h a p, fun e => e ▸ rfl⟩ rfl rfl)

/-- Bytes put one after another at the places of a range. -/
theorem byte_foldl_put_place (h : PlacesApart s) (at_ : Nat) (v : Nat → Byte) (m : Memory) (n a : Nat) :
    Memory.byte ((List.range n).foldl (fun m i => Memory.put m (s.place (at_ + i)) (v i)) m) (s.place a)
      = if at_ ≤ a ∧ a < at_ + n then v (a - at_) else Memory.byte m (s.place a) := by
  induction n with
  | zero => rw [if_neg (by omega)]; rfl
  | succ n ih =>
    rw [List.range_succ, List.foldl_append, List.foldl_cons, List.foldl_nil, Memory.byte_put, ih]
    by_cases e : a = at_ + n
    · subst e
      rw [if_pos rfl, if_pos (by omega), Nat.add_sub_cancel_left]
    · rw [if_neg fun e' => e (h _ _ e')]
      exact if_congr (by omega) rfl rfl

theorem mem_line_iff {a line : Nat} : (line * 128 ≤ a ∧ a < line * 128 + 128) ↔ a / 128 = line := by omega

/-- A line written to memory: its bytes, and no other. -/
theorem State.inMem_putLine (h : PlacesApart s) (hd : data.length = 128) (a : Nat) :
    (s.putLine line data key).inMem a = if a / 128 = line then data.getD (a % 128) 0 else s.inMem a := by
  have offset : a / 128 = line → a - line * 128 = a % 128 := by omega
  rw [State.inMem, State.place_congr State.putLine_memOnly.ports, State.putLine]
  split
  · refine (byte_foldl_put_place h _ _ _ _ _).trans ?_
    rw [hd]
    refine (if_congr mem_line_iff rfl rfl).trans ?_
    split
    · rw [offset ‹_›]
    · rfl
  · rename_i hb
    rw [Bool.not_eq_true] at hb
    refine (Memory.byte_writeN ..).trans ?_
    rw [hd]
    by_cases e : a / 128 = line
    · have here : s.place a = a := s.place_of_not_behind (by rw [← behindPort_line, e, hb])
      rw [here, if_pos (mem_line_iff.mpr e), if_pos e, offset e]
    · rw [if_neg e, if_neg]
      · rfl
      · intro r
        have there : s.place (s.place a) = s.place a :=
          s.place_of_not_behind (by rw [← behindPort_line, mem_line_iff.mp r, hb])
        exact e (h _ _ there ▸ mem_line_iff.mp r)

/-- The key pair of a line among those that are kept when the entries of one line are dropped. -/
theorem find?_memKeys_filter (ks : List (Nat × List Byte)) (line n : Nat) :
    (ks.filter fun k => decide (k.1 ≠ line)).find? (fun k => decide (k.1 = n)) = if n = line then none else ks.find? fun k => decide (k.1 = n) := by
  rw [List.find?_filter]
  split
  · simp_all
  · rename_i e
    congr 1
    funext k
    by_cases hk : k.1 = n <;> simp [hk, e]

theorem State.memKey_putLine (n : Nat) :
    (s.putLine line data key).memKey n = if n = line ∧ behindPort (line * 128) = false then key else s.memKey n := by
  unfold State.putLine
  split
  · rename_i hb
    rw [if_neg (by simp [hb])]
    rfl
  · rename_i hb
    rw [Bool.not_eq_true] at hb
    simp only [State.memKey, List.find?_append, find?_memKeys_filter, hb, and_true]
    by_cases e : n = line
    · rw [if_pos e, if_pos e, Option.none_or]
      subst e
      by_cases hk : key = [] <;> simp [hk]
    · have last : (if key = [] then [] else [(line, key)]).find? (fun k => decide (k.1 = n)) = none := by
        split <;> simp [Ne.symm e]
      rw [if_neg e, if_neg e, last, Option.or_none]

theorem State.memUnder_putLine_same {a : Nat} (e : a / 128 = line) : (s.putLine line data key).memUnder key a := by
  rw [State.memUnder, State.memKey_putLine]
  cases hb : behindPort a with
  | true => exact .inl rfl
  | false => exact .inr (if_pos ⟨e, by rw [← e, behindPort_line, hb]⟩)

theorem State.memUnder_putLine_ne {key' : List Byte} {a : Nat} (e : a / 128 ≠ line) :
    (s.putLine line data key').memUnder key a ↔ s.memUnder key a := by
  rw [State.memUnder, State.memKey_putLine, if_neg fun h => e h.1, State.memUnder]

end
/-! ### Bytes that memory and the L2 hold between them -/

/-- No two bytes of memory share a place, and every line of the L2 is whole. -/
structure State.Placed (s : State) : Prop where
  apart : PlacesApart s
  whole : ∀ x ∈ s.l2, x.data.length = 128

/-- An access under a key pair sees a byte, and goes on to see it when lines leave the L2 or come to it: every line of the L2 that has it
holds it, and where the line that a lookup finds is not dirty memory holds it too. -/
structure State.Shows (s : State) (key : List Byte) (a : Nat) (b : Byte) : Prop where
  held : ∀ x ∈ s.l2, x.line = a / 128 → s.clear x key = true ∧ x.data.getD (a % 128) 0 = b
  kept : (∃ x, s.l2? a = some x ∧ x.dirty = true) ∨ s.inMem a = b ∧ s.memUnder key a

section
variable {s t : State} {key : List Byte} {a : Nat} {b : Byte}

theorem State.l2?_some {x : L2Line} (h : s.l2? a = some x) : x ∈ s.l2 ∧ x.line = a / 128 :=
  ⟨List.mem_of_find?_eq_some h, by simpa using List.find?_some h⟩

theorem State.l2?_none (h : s.l2? a = none) : ∀ x ∈ s.l2, x.line ≠ a / 128 := by
  simpa [State.l2?] using h

theorem State.Shows.plainByte (h : s.Shows key a b) : plainByte s a = b ∧ s.byteAt a key = b := by
  cases hx : s.l2? a with
  | some x =>
    obtain ⟨hm, hl⟩ := State.l2?_some hx
    obtain ⟨hc, hd⟩ := h.held x hm hl
    have own : lineKey s (a / 128) = s.keyOf x.key := by
      rw [lineKey, show (s.l2.find? fun x => x.line = a / 128) = some x from hx]
    have clear : s.clear x (s.keyOf x.key) = true := State.clear_iff.mpr (.inr rfl)
    simp only [Claims.plainByte, State.byteAt, hx, own, clear, hc, if_true, hd, and_self]
  | none =>
    obtain ⟨x, hs, -⟩ | ⟨hb, hk⟩ := h.kept
    · rw [hx] at hs
      cases hs
    · have own : lineKey s (a / 128) = s.memKey (a / 128) := by
        rw [lineKey, show (s.l2.find? fun x => x.line = a / 128) = none from hx]
      have under : s.memUnder (s.memKey (a / 128)) a := .inr rfl
      simp only [Claims.plainByte, State.byteAt, hx, own, State.memByte_of_under under, State.memByte_of_under hk, hb, and_self]

/-- Nothing else counts than the lines of the L2, memory and its keys, and the tables of the ports and of the keys. -/
theorem State.Shows.congr (h : s.Shows key a b) (hl : t.l2 = s.l2) (hm : t.mem = s.mem) (hk : t.memKeys = s.memKeys) (hp : t.ports = s.ports)
    (hc : t.ctl = s.ctl) : t.Shows key a b := by
  obtain ⟨held, kept⟩ := h
  constructor
  · intro x hx hxl
    rw [State.clear, State.keyOf_congr hc]
    exact held x (hl ▸ hx) hxl
  · rw [State.l2?, hl, State.inMem, State.place_congr hp, hm, State.memUnder, State.memKey, hk]
    exact kept

end

/-! ### Lines written to memory -/

section
variable {s : State}

theorem State.writeLine_memOnly (s : State) (x : L2Line) : s.MemOnly (s.writeLine x) := State.putLine_memOnly

variable {key : List Byte} {a : Nat} {b : Byte} (hp : PlacesApart s)
include hp

theorem State.writeLine_here {x : L2Line} (hx : x.line = a / 128) (hd : x.data.length = 128) (hc : s.clear x key = true)
    (hb : x.data.getD (a % 128) 0 = b) : (s.writeLine x).inMem a = b ∧ (s.writeLine x).memUnder key a := by
  refine ⟨by rw [State.writeLine, State.inMem_putLine hp hd, if_pos hx.symm, hb], ?_⟩
  obtain hb | hk := State.clear_iff.mp hc
  · rw [hx, behindPort_line] at hb
    exact .inl hb
  · rw [← hk]
    exact State.memUnder_putLine_same hx.symm

theorem State.writeLine_elsewhere {x : L2Line} (hx : x.line ≠ a / 128) (hd : x.data.length = 128) :
    (s.writeLine x).inMem a = s.inMem a ∧ ((s.writeLine x).memUnder key a ↔ s.memUnder key a) :=
  ⟨by rw [State.writeLine, State.inMem_putLine hp hd, if_neg hx.symm], State.memUnder_putLine_ne hx.symm⟩

variable {xs : List L2Line} (hd : ∀ x ∈ xs, x.data.length = 128)
include hd

variable (hx : ∀ x ∈ xs, x.line = a / 128 → s.clear x key = true ∧ x.data.getD (a % 128) 0 = b)
include hx

/-- Lines that all show a byte leave it in memory where one of them has it, or it stands there. -/
theorem State.foldl_writeLine_shows (h : (∃ x ∈ xs, x.line = a / 128) ∨ s.inMem a = b ∧ s.memUnder key a) :
    (xs.foldl State.writeLine s).inMem a = b ∧ (xs.foldl State.writeLine s).memUnder key a := by
  induction xs generalizing s with
  | nil => simpa using h
  | cons x xs ih =>
    obtain ⟨dx, dxs⟩ := List.forall_mem_cons.mp hd
    obtain ⟨sx, sxs⟩ := List.forall_mem_cons.mp hx
    refine ih (placesApart_congr hp (s.writeLine_memOnly x).ports) dxs ?_ ?_
    · intro y hy
      rw [State.clear, State.keyOf_congr (s.writeLine_memOnly x).ctl]
      exact sxs y hy
    · by_cases e : x.line = a / 128
      · exact .inr (State.writeLine_here hp e dx (sx e).1 (sx e).2)
      · obtain ⟨b1, k1⟩ := State.writeLine_elsewhere (key := key) hp e dx
        rw [b1, k1]
        exact h.imp_left fun ⟨y, hy, hl⟩ => ⟨y, (List.mem_cons.mp hy).resolve_left fun he => e (he ▸ hl), hl⟩

end

/-! ### Lines that leave the L2 -/

/-- The first that is found is found still when others are dropped. -/
theorem find?_filter_of_find? {α : Type} {l : List α} {p q : α → Bool} {x : α} (h : l.find? p = some x) (hq : q x = true) :
    (l.filter q).find? p = some x := by
  rw [List.find?_eq_some_iff_append] at h ⊢
  obtain ⟨hp, as, bs, rfl, hn⟩ := h
  refine ⟨hp, as.filter q, bs.filter q, by simp [hq], fun a ha => hn a (List.mem_filter.mp ha).1⟩

section
variable {s : State} (p : L2Line → Bool)

theorem State.evict_l2 : (s.evict p true).l2 = s.l2.filter fun x => !p x := rfl
theorem State.evict_memOnly : s.MemOnly (s.evict p true) := by
  have written := State.foldl_memOnly State.writeLine_memOnly (s.l2.filter fun x => p x && x.dirty) s
  exact written.trans rfl

variable (hs : s.Placed)
include hs

theorem State.Placed.evict : (s.evict p true).Placed :=
  ⟨placesApart_congr hs.apart ((s.evict_memOnly p).ports), fun x hx => hs.whole x (List.mem_filter.mp hx).1⟩

theorem State.dirty_whole : ∀ x ∈ s.l2.filter (fun x => p x && x.dirty), x.data.length = 128 :=
  fun x hx => hs.whole x (List.mem_filter.mp hx).1

theorem State.Shows.evict {key : List Byte} {a : Nat} {b : Byte} (h : s.Shows key a b) : (s.evict p true).Shows key a b := by
  obtain ⟨held, kept⟩ := h
  refine ⟨fun x hx hl => ?_, ?_⟩
  · rw [State.clear, State.keyOf_congr ((s.evict_memOnly p).ctl)]
    exact held x (List.mem_filter.mp hx).1 hl
  · have written := State.foldl_writeLine_shows hs.apart (State.dirty_whole p hs)
      (fun x hx => held x (List.mem_filter.mp hx).1) (a := a) (b := b)
    obtain ⟨x, hf, hd⟩ | hm := kept
    · obtain ⟨hx, hl⟩ := State.l2?_some hf
      cases hp : p x with
      | true => exact .inr (written (.inl ⟨x, List.mem_filter.mpr ⟨hx, by simp [hp, hd]⟩, hl⟩))
      | false =>
        exact .inl ⟨x, find?_filter_of_find? hf (by rw [hp]; rfl), hd⟩
    · exact .inr (written (.inr hm))

end

/-! ### One byte written to memory -/

theorem State.l2?_congr {s : State} {a b : Nat} (h : a / 128 = b / 128) : s.l2? a = s.l2? b := by rw [State.l2?, State.l2?, h]

theorem State.memUnder_congr {s : State} {key : List Byte} {a b : Nat} (h : a / 128 = b / 128) : s.memUnder key a ↔ s.memUnder key b := by
  rw [State.memUnder, State.memUnder, h, behindPort_congr h]

section
variable {s : State} {pa a : Nat} {b : Byte} {key : List Byte}

theorem State.putMem_l2 (s : State) (pa : Nat) (b : Byte) (key : List Byte) : (s.putMem pa b key).l2 = s.l2 := by
  unfold State.putMem
  split
  · rfl
  · exact State.putLine_l2

theorem State.putMem_memOnly (s : State) (pa : Nat) (b : Byte) (key : List Byte) : s.MemOnly (s.putMem pa b key) := by
  unfold State.putMem
  split
  · rfl
  · exact State.putLine_memOnly

theorem State.putMem_of_under (h : s.memUnder key pa) :
    s.putMem pa b key = ({ s with mem := Memory.put s.mem (s.place pa) b } : State) :=
  if_pos (by simpa [State.memUnder] using h)

theorem State.putMem_of_not_under (h : ¬s.memUnder key pa) :
    s.putMem pa b key = s.putLine (pa / 128) ((s.memLine (pa / 128) key).set (pa % 128) b) key :=
  if_neg (by simpa [State.memUnder] using h)

variable (hp : PlacesApart s)
include hp

theorem State.putMem_here : (s.putMem pa b key).inMem pa = b ∧ (s.putMem pa b key).memUnder key pa := by
  by_cases h : s.memUnder key pa
  · rw [State.putMem_of_under h]
    exact ⟨by rw [inMem_put hp, if_pos rfl], h⟩
  · rw [State.putMem_of_not_under h]
    refine ⟨?_, State.memUnder_putLine_same rfl⟩
    have whole : (s.memLine (pa / 128) key).length = 128 := by simp [State.memLine]
    rw [State.inMem_putLine hp (by simp [whole]), if_pos rfl, List.getD_eq_getElem _ _ (by rw [List.length_set, whole]; omega),
      List.getElem_set_self]

theorem State.putMem_elsewhere {key' : List Byte} (ha : a ≠ pa) (hl : a / 128 = pa / 128 → s.memUnder key a) :
    (s.putMem pa b key).inMem a = s.inMem a ∧ ((s.putMem pa b key).memUnder key' a ↔ s.memUnder key' a) := by
  by_cases h : s.memUnder key pa
  · rw [State.putMem_of_under h]
    exact ⟨by rw [inMem_put hp, if_neg ha], Iff.rfl⟩
  · have other : a / 128 ≠ pa / 128 := fun e => h ((State.memUnder_congr e).mp (hl e))
    rw [State.putMem_of_not_under h]
    exact ⟨by rw [State.inMem_putLine hp (by simp [State.memLine]), if_neg other], State.memUnder_putLine_ne other⟩

end

/-! ### A line of the L2 changed -/

/-- Every entry of a line replaced. -/
def setLine (l : List L2Line) (n : Nat) (y : L2Line) : List L2Line := l.map fun z => if z.line = n then y else z

section
variable {s u : State} {n a : Nat} {x y : L2Line} {key : List Byte} {c : Byte}

theorem mem_setLine {l : List L2Line} {z : L2Line} (h : z ∈ setLine l n y) : z = y ∨ z ∈ l ∧ z.line ≠ n := by
  obtain ⟨w, hw, rfl⟩ := List.mem_map.mp h
  split
  · exact .inl rfl
  · exact .inr ⟨hw, ‹_›⟩

theorem find?_setLine (l : List L2Line) (hy : y.line = n) (k : Nat) :
    (setLine l n y).find? (fun z => decide (z.line = k)) = (l.find? fun z => decide (z.line = k)).map fun z => if k = n then y else z := by
  rw [setLine, List.find?_map]
  have same : (fun z : L2Line => decide (z.line = k)) ∘ (fun z => if z.line = n then y else z) = fun z => decide (z.line = k) := by
    funext z
    by_cases hz : z.line = n <;> simp [hz, hy]
  rw [same]
  cases hf : l.find? fun z => decide (z.line = k) with
  | none => rfl
  | some z =>
    have hz : z.line = k := by simpa using List.find?_some hf
    simp [hz]

/-- A byte of the line that is replaced is seen as its new entry shows it. -/
theorem State.shows_of_setLine (hl : u.l2 = setLine s.l2 (a / 128) y) (hx : s.l2? a = some x) (hy : y.line = a / 128)
    (hu : u.ctl = s.ctl) (hc : s.clear y key = true) (hb : y.data.getD (a % 128) 0 = c) (hk : y.dirty = true ∨ u.inMem a = c ∧ u.memUnder key a) :
    u.Shows key a c := by
  refine ⟨fun z hz hzl => ?_, hk.imp_left fun hd => ⟨y, ?_, hd⟩⟩
  · obtain rfl | ⟨-, hn⟩ := mem_setLine (hl ▸ hz)
    · rw [State.clear, State.keyOf_congr hu]
      exact ⟨hc, hb⟩
    · exact absurd hzl hn
  · rw [State.l2?, hl, find?_setLine _ hy, show (s.l2.find? fun z => decide (z.line = a / 128)) = some x from hx]
    simp

/-- A byte of another line is seen as before. -/
theorem State.Shows.of_setLine (h : s.Shows key a c) (hl : u.l2 = setLine s.l2 n y) (hy : y.line = n) (hn : a / 128 ≠ n) (hc : u.ctl = s.ctl)
    (hb : u.inMem a = s.inMem a) (hk : u.memUnder key a ↔ s.memUnder key a) : u.Shows key a c := by
  obtain ⟨held, kept⟩ := h
  refine ⟨fun z hz hzl => ?_, ?_⟩
  · rw [State.clear, State.keyOf_congr hc]
    obtain rfl | ⟨hm, -⟩ := mem_setLine (hl ▸ hz)
    · exact absurd (hzl.symm.trans hy) hn
    · exact held z hm hzl
  · rw [hb, hk]
    refine kept.imp_left fun ⟨x, hx, hd⟩ => ⟨x, ?_, hd⟩
    rw [State.l2?, hl, find?_setLine _ hy, show (s.l2.find? fun z => decide (z.line = a / 128)) = some x from hx]
    simp [hn]

end

/-! ### One byte written (R157, R384) -/

section
variable {s : State} {pa a pol : Nat} {b c : Byte} {key key' : List Byte} {x : L2Line}

/-- The line with the byte in it. -/
def L2Line.with (x : L2Line) (pa : Nat) (b : Byte) (d : Bool) : L2Line := { x with data := x.data.set (pa % 128) b, dirty := d }

theorem State.putByte_clear (hx : s.l2? pa = some x) (hc : s.clear x key = true) :
    s.putByte pa b pol key =
      if pol ≠ 2 then ({ s with l2 := setLine s.l2 (pa / 128) (x.with pa b true) } : State)
      else if behindPort pa then { s with l2 := setLine s.l2 (pa / 128) (x.with pa b x.dirty), mem := Memory.put s.mem (s.place pa) b }
      else { (s.writeLine (x.with pa b false)) with l2 := setLine s.l2 (pa / 128) (x.with pa b false) } := by
  unfold State.putByte
  simp only [hx, hc, Bool.not_true, Bool.false_eq_true, if_false]
  rfl

theorem State.putByte_unclear (hx : s.l2? pa = some x) (hc : s.clear x key = false) :
    s.putByte pa b pol key = (s.evict (fun z => z.line = pa / 128) true).putMem pa b key := by
  unfold State.putByte
  simp only [hx, hc, Bool.not_false, if_true]

theorem State.putByte_none (hx : s.l2? pa = none) : s.putByte pa b pol key = s.putMem pa b key := by
  unfold State.putByte
  simp only [hx]

theorem L2Line.with_getD_self (hd : x.data.length = 128) (d : Bool) : (x.with pa b d).data.getD (pa % 128) 0 = b := by
  rw [L2Line.with, List.getD_eq_getElem _ _ (by rw [List.length_set]; omega), List.getElem_set_self]

theorem L2Line.with_getD_ne (he : a / 128 = pa / 128) (ha : a ≠ pa) (d : Bool) :
    (x.with pa b d).data.getD (a % 128) 0 = x.data.getD (a % 128) 0 := by
  have hne : pa % 128 ≠ a % 128 := by omega
  simp [L2Line.with, List.getD_eq_getElem?_getD, List.getElem?_set_ne hne]

theorem L2Line.with_length (hd : x.data.length = 128) (d : Bool) : (x.with pa b d).data.length = 128 := by
  rw [L2Line.with, List.length_set, hd]

theorem State.putByte_memOnly (s : State) (pa : Nat) (b : Byte) (pol : Nat) (key : List Byte) : s.MemOnly (s.putByte pa b pol key) := by
  cases hx : s.l2? pa with
  | none =>
    rw [State.putByte_none hx]
    exact State.putMem_memOnly ..
  | some x =>
    cases hc : s.clear x key with
    | false =>
      rw [State.putByte_unclear hx hc]
      exact (State.evict_memOnly _).trans (State.putMem_memOnly ..)
    | true =>
      rw [State.putByte_clear hx hc]
      split
      · rfl
      · split
        · rfl
        · exact (s.writeLine_memOnly (x.with pa b false)).trans rfl

variable (hs : s.Placed)
include hs

theorem State.setLine_whole (hx : s.l2? pa = some x) (n : Nat) (d : Bool) :
    ∀ z ∈ setLine s.l2 n (x.with pa b d), z.data.length = 128 := by
  intro z hz
  obtain rfl | ⟨hm, -⟩ := mem_setLine hz
  · exact L2Line.with_length (hs.whole x (State.l2?_some hx).1) d
  · exact hs.whole z hm

theorem State.Placed.putByte : (s.putByte pa b pol key).Placed := by
  refine ⟨placesApart_congr hs.apart (State.putByte_memOnly ..).ports, ?_⟩
  cases hx : s.l2? pa with
  | none =>
    rw [State.putByte_none hx, State.putMem_l2]
    exact hs.whole
  | some x =>
    cases hc : s.clear x key with
    | false =>
      rw [State.putByte_unclear hx hc, State.putMem_l2]
      exact (hs.evict _).whole
    | true =>
      rw [State.putByte_clear hx hc]
      split
      · exact State.setLine_whole hs hx _ _
      · split <;> exact State.setLine_whole hs hx _ _

/-- A byte that is written is seen, whether or not the L2 holds its line, under every policy. -/
theorem State.shows_putByte : (s.putByte pa b pol key).Shows key pa b := by
  cases hx : s.l2? pa with
  | none =>
    rw [State.putByte_none hx]
    refine ⟨fun z hz hl => ?_, .inr (State.putMem_here hs.apart)⟩
    rw [State.putMem_l2] at hz
    exact absurd hl (State.l2?_none hx z hz)
  | some x =>
    obtain ⟨hm, hl⟩ := State.l2?_some hx
    have new (d : Bool) := L2Line.with_getD_self (b := b) (pa := pa) (hs.whole x hm) d
    cases hc : s.clear x key with
    | false =>
      rw [State.putByte_unclear hx hc]
      refine ⟨fun z hz hzl => ?_, .inr (State.putMem_here (hs.evict _).apart)⟩
      rw [State.putMem_l2, State.evict_l2] at hz
      simp [hzl] at hz
    | true =>
      rw [State.putByte_clear hx hc]
      split
      · exact State.shows_of_setLine rfl hx hl rfl hc (new true) (.inl rfl)
      · split
        · rename_i hb
          exact State.shows_of_setLine rfl hx hl rfl hc (new _) (.inr ⟨(inMem_put hs.apart pa pa b).trans (if_pos rfl), .inl hb⟩)
        · have written := State.writeLine_here (x := x.with pa b false) hs.apart hl (L2Line.with_length (hs.whole x hm) _) hc (new _)
          exact State.shows_of_setLine rfl hx hl (s.writeLine_memOnly _).ctl hc (new _) (.inr written)

/-- A byte put into memory where the L2 does not hold its line. -/
theorem State.Shows.putMem (h : s.Shows key' a c) (ha : a ≠ pa) (hl : a / 128 = pa / 128 → s.memUnder key a) :
    (s.putMem pa b key).Shows key' a c := by
  obtain ⟨held, kept⟩ := h
  have tl := State.putMem_l2 s pa b key
  have tc := (State.putMem_memOnly s pa b key).ctl
  obtain ⟨hb, hu⟩ := State.putMem_elsewhere (key := key) (key' := key') (b := b) hs.apart ha hl
  refine ⟨fun z hz hl => ?_, ?_⟩
  · rw [State.clear, State.keyOf_congr tc]
    exact held z (tl ▸ hz) hl
  · rw [State.l2?, tl, hb, hu]
    exact kept

omit hs in
/-- Where the line that a lookup finds is not dirty memory holds the byte too. -/
theorem State.Shows.inMem (h : s.Shows key' a c) (hd : ∀ z, s.l2? a = some z → z.dirty = false) : s.inMem a = c ∧ s.memUnder key' a := by
  refine h.kept.resolve_left fun ⟨z, hz, hzd⟩ => ?_
  rw [hd z hz] at hzd
  cases hzd

/-- Another byte of the line that the L2 holds. -/
theorem State.Shows.putByte_same (h : s.Shows key' a c) (ha : a ≠ pa) (e : a / 128 = pa / 128) (hx : s.l2? pa = some x)
    (hc : s.clear x key = true) : (s.putByte pa b pol key).Shows key' a c := by
  obtain ⟨hm, hl⟩ := State.l2?_some hx
  have hxa : s.l2? a = some x := (State.l2?_congr e).trans hx
  obtain ⟨clr, old⟩ := h.held x hm (hl.trans e.symm)
  have new (d : Bool) : (x.with pa b d).data.getD (a % 128) 0 = c := (L2Line.with_getD_ne e ha d).trans old
  rw [State.putByte_clear hx hc]
  rw [← e] at hl ⊢
  split
  · exact State.shows_of_setLine rfl hxa hl rfl clr (new true) (.inl rfl)
  · split
    · refine State.shows_of_setLine rfl hxa hl rfl clr (new _) ?_
      cases hd : x.dirty with
      | true => exact .inl rfl
      | false =>
        obtain ⟨hb, hu⟩ := h.inMem fun z hz => by
          rw [hxa] at hz
          cases hz
          exact hd
        exact .inr ⟨(inMem_put hs.apart pa a b).trans ((if_neg ha).trans hb), hu⟩
    · have written := State.writeLine_here (x := x.with pa b false) hs.apart hl (L2Line.with_length (hs.whole x hm) _) clr (new _)
      exact State.shows_of_setLine rfl hxa hl (s.writeLine_memOnly _).ctl clr (new _) (.inr written)

/-- A byte of another line, where the L2 holds the line that is written. -/
theorem State.Shows.putByte_other (h : s.Shows key' a c) (e : a / 128 ≠ pa / 128) (hx : s.l2? pa = some x) (hc : s.clear x key = true) :
    (s.putByte pa b pol key).Shows key' a c := by
  obtain ⟨hm, hl⟩ := State.l2?_some hx
  have ha : a ≠ pa := fun h => e (congrArg (· / 128) h)
  rw [State.putByte_clear hx hc]
  split
  · exact h.of_setLine rfl hl e rfl rfl Iff.rfl
  · split
    · exact h.of_setLine rfl hl e rfl ((inMem_put hs.apart pa a b).trans (if_neg ha)) Iff.rfl
    · obtain ⟨hb, hu⟩ := State.writeLine_elsewhere (key := key') (x := x.with pa b false) (a := a) hs.apart
        (fun n => e (n.symm.trans hl)) (L2Line.with_length (hs.whole x hm) _)
      exact h.of_setLine rfl hl e (s.writeLine_memOnly _).ctl hb hu

/-- A byte that is written changes no other that the writer, or another access of another line, sees. -/
theorem State.Shows.putByte (h : s.Shows key' a c) (ha : a ≠ pa) (hk : a / 128 = pa / 128 → behindPort pa = true ∨ key' = key) :
    (s.putByte pa b pol key).Shows key' a c := by
  cases hx : s.l2? pa with
  | none =>
    rw [State.putByte_none hx]
    refine h.putMem hs ha fun e => ?_
    obtain h1 | rfl := hk e
    · exact .inl ((behindPort_congr e).trans h1)
    · exact (h.inMem fun z hz => by rw [State.l2?_congr e, hx] at hz; cases hz).2
  | some x =>
    cases hc : s.clear x key with
    | false =>
      have other : a / 128 ≠ pa / 128 := by
        obtain ⟨hm, hl⟩ := State.l2?_some hx
        intro e
        obtain h1 | rfl := hk e
        · simp [State.clear, hl, behindPort_line, h1] at hc
        · simp [(h.held x hm (hl.trans e.symm)).1] at hc
      rw [State.putByte_unclear hx hc]
      exact (h.evict _ hs).putMem (hs.evict _) ha fun e => absurd e other
    | true =>
      by_cases e : a / 128 = pa / 128
      · exact h.putByte_same hs ha e hx hc
      · exact h.putByte_other hs e hx hc

end

/-! ### Bytes written (R157, R384) -/

section
variable {s : State} {pa a pol i : Nat} {c : Byte} {bs : List Byte} {key key' : List Byte}

theorem State.putBytes_memOnly (s : State) (pa : Nat) (bs : List Byte) (pol : Nat) (key : List Byte) :
    s.MemOnly (s.putBytes pa bs pol key) := by
  induction bs generalizing s pa with
  | nil => exact .refl s
  | cons b bs ih => exact (s.putByte_memOnly pa b pol key).trans (ih ..)

theorem State.Placed.putBytes (hs : s.Placed) : (s.putBytes pa bs pol key).Placed := by
  induction bs generalizing s pa with
  | nil => exact hs
  | cons b bs ih => exact ih hs.putByte

/-- Bytes that are written change no other that the writer, or another access of another line, sees. -/
theorem State.Shows.putBytes (hs : s.Placed) (h : s.Shows key' a c) (ha : ¬(pa ≤ a ∧ a < pa + bs.length))
    (hk : ∀ p, pa ≤ p → p < pa + bs.length → a / 128 = p / 128 → behindPort p = true ∨ key' = key) :
    (s.putBytes pa bs pol key).Shows key' a c := by
  induction bs generalizing s pa with
  | nil => exact h
  | cons b bs ih =>
    rw [List.length_cons] at ha hk
    have hne : a ≠ pa := by omega
    exact ih hs.putByte (h.putByte hs hne (hk pa (Nat.le_refl _) (by omega))) (by omega) fun p h1 h2 => hk p (by omega) (by omega)

theorem State.shows_putBytes (hs : s.Placed) (hi : i < bs.length) : (s.putBytes pa bs pol key).Shows key (pa + i) (bs.getD i 0) := by
  induction bs generalizing s pa i with
  | nil => exact absurd hi (Nat.not_lt_zero i)
  | cons b bs ih =>
    cases i with
    | zero =>
      have first := (State.shows_putByte (pa := pa) (b := b) (pol := pol) (key := key) hs).putBytes (pa := pa + 1) (bs := bs) (pol := pol)
        hs.putByte (by omega) fun _ _ _ _ => .inr rfl
      exact first
    | succ i =>
      have next := ih (s := s.putByte pa b pol key) (pa := pa + 1) hs.putByte (Nat.lt_of_succ_lt_succ hi)
      rw [Nat.add_assoc, Nat.add_comm 1 i] at next
      exact next

end

/-! ### Lines that the L2 takes (R157) -/

section
variable {s : State} {pa a : Nat} {x : Xlat} {key : List Byte} {c : Byte}

theorem State.makeWay_eq (s : State) (sb : Nat) : s.makeWay sb = s ∨ ∃ p, s.makeWay sb = s.evict p true := by
  unfold State.makeWay
  split
  · exact .inl rfl
  · dsimp only
    split
    · exact .inr ⟨_, rfl⟩
    · exact .inl rfl

/-- The line that a read of memory brings. -/
def State.newLine (s : State) (pa : Nat) (x : Xlat) : L2Line :=
  ⟨pa / 128, x.key, x.pol = 1, s.memLine (pa / 128) (s.keyOf x.key), false, []⟩

/-- The L2 takes no line, lines leave it, or lines leave it and it takes one that it did not hold. -/
theorem State.fillLine_eq (s : State) (pa : Nat) (x : Xlat) : s.fillLine pa x = s
    ∨ (s.l2? pa = none ∧ ∃ u, (u = s ∨ ∃ p, u = s.evict p true) ∧ (s.fillLine pa x = u
      ∨ s.fillLine pa x = { u with l2 := u.l2 ++ [u.newLine pa x] })) := by
  unfold State.fillLine
  split
  · exact .inl rfl
  · rename_i h
    simp only [Bool.or_eq_true, not_or, Bool.not_eq_true, Option.isSome_eq_false_iff, Option.isNone_iff_eq_none] at h
    refine .inr ⟨h.2, s.makeWay (pa / 512), s.makeWay_eq _, ?_⟩
    dsimp only
    split
    · exact .inr rfl
    · exact .inl rfl

theorem State.Placed.newLine {u : State} (hu : u.Placed) : ({ u with l2 := u.l2 ++ [u.newLine pa x] } : State).Placed := by
  refine ⟨placesApart_congr hu.apart rfl, fun y hy => ?_⟩
  obtain hy | hy := List.mem_append.mp hy
  · exact hu.whole y hy
  · rw [List.mem_singleton.mp hy]
    simp [State.newLine, State.memLine]

/-- A line that is taken shows what memory shows. -/
theorem State.Shows.newLine {u : State} (h : u.Shows key a c) (hn : u.l2? pa = none)
    (hk : a / 128 = pa / 128 → behindPort pa = true ∨ key = u.keyOf x.key) :
    ({ u with l2 := u.l2 ++ [u.newLine pa x] } : State).Shows key a c := by
  refine ⟨fun y hy hl => ?_, h.kept.imp_left fun ⟨y, hy, hd⟩ => ⟨y, ?_, hd⟩⟩
  · obtain hy | hy := List.mem_append.mp hy
    · exact h.held y hy hl
    · obtain rfl := List.mem_singleton.mp hy
      have e : pa / 128 = a / 128 := hl
      obtain ⟨hb, hu⟩ := h.inMem fun z hz => by rw [State.l2?_congr e.symm, hn] at hz; cases hz
      have under : u.memUnder (u.keyOf x.key) a := by
        obtain h1 | rfl := hk e.symm
        · exact .inl ((behindPort_congr e.symm).trans h1)
        · exact hu
      refine ⟨State.clear_iff.mpr ?_, ?_⟩
      · exact (hk e.symm).imp (fun h1 => (behindPort_line pa).trans h1) Eq.symm
      · have here : a / 128 * 128 + a % 128 = a := by omega
        simp only [State.newLine, State.memLine, e]
        rw [List.getD_eq_getElem _ _ (by simp; omega)]
        simp only [List.getElem_map, List.getElem_range, here]
        rw [State.memByte_of_under under, hb]
  · rw [State.l2?, List.find?_append, show u.l2.find? (fun z => decide (z.line = a / 128)) = some y from hy]
    rfl

theorem State.fillLine_memOnly (s : State) (pa : Nat) (x : Xlat) : s.MemOnly (s.fillLine pa x) := by
  obtain e | ⟨-, u, hu, e⟩ := s.fillLine_eq pa x
  · rw [e]; exact .refl s
  · have same : s.MemOnly u := by
      obtain rfl | ⟨p, rfl⟩ := hu
      · exact .refl u
      · exact State.evict_memOnly p
    obtain e | e := e <;> rw [e]
    · exact same
    · exact same.trans rfl

variable (hs : s.Placed)
include hs

theorem State.Placed.fillLine : (s.fillLine pa x).Placed := by
  obtain e | ⟨-, u, hu, e⟩ := s.fillLine_eq pa x
  · rwa [e]
  · have placed : u.Placed := by
      obtain rfl | ⟨p, rfl⟩ := hu
      · exact hs
      · exact hs.evict p
    obtain e | e := e <;> rw [e]
    · exact placed
    · exact placed.newLine

theorem State.Shows.fillLine (h : s.Shows key a c) (hk : a / 128 = pa / 128 → behindPort pa = true ∨ key = s.keyOf x.key) :
    (s.fillLine pa x).Shows key a c := by
  obtain e | ⟨hn, u, hu, e⟩ := s.fillLine_eq pa x
  · rwa [e]
  · have shown : u.Shows key a c ∧ u.l2? pa = none ∧ u.ctl = s.ctl := by
      obtain rfl | ⟨p, rfl⟩ := hu
      · exact ⟨h, hn, rfl⟩
      · refine ⟨h.evict p hs, ?_, (State.evict_memOnly p).ctl⟩
        have none_left := State.l2?_none hn
        simp only [State.l2?, State.evict_l2, List.find?_eq_none, List.mem_filter]
        exact fun z hz => by simpa using none_left z hz.1
    obtain ⟨shows, absent, same⟩ := shown
    obtain e | e := e <;> rw [e]
    · exact shows
    · exact shows.newLine absent (by rwa [State.keyOf_congr same])

end

/-! ### Accesses of a place -/

section
variable {s : State} {pa a n i : Nat} {x : Xlat} {key : List Byte} {c : Byte} {bs : List Byte}

/-- Whose stores a line is owed to is nothing that an access sees. -/
theorem State.owe_eq (s : State) (pa n : Nat) (o : Option Owner) :
    ∃ f : L2Line → List Owner, s.owe pa n o = { s with l2 := s.l2.map fun y => { y with owners := f y } } := by
  have same : s = { s with l2 := s.l2.map fun y => { y with owners := y.owners } } := by simp
  unfold State.owe
  split
  · rename_i w
    split
    · exact ⟨L2Line.owners, same⟩
    · refine ⟨fun y => if y.dirty && pa / 128 ≤ y.line && y.line ≤ (pa + n - 1) / 128 then w :: y.owners.filter (· ≠ w) else y.owners, ?_⟩
      congr 1
      refine List.map_congr_left fun y _ => ?_
      beta_reduce
      split <;> rfl
  · exact ⟨L2Line.owners, same⟩

theorem State.Placed.owe (hs : s.Placed) {o : Option Owner} : (s.owe pa n o).Placed := by
  obtain ⟨f, e⟩ := s.owe_eq pa n o
  rw [e]
  refine ⟨placesApart_congr hs.apart rfl, fun y hy => ?_⟩
  obtain ⟨z, hz, rfl⟩ := List.mem_map.mp hy
  exact hs.whole z hz

theorem State.Shows.owe (h : s.Shows key a c) {o : Option Owner} : (s.owe pa n o).Shows key a c := by
  obtain ⟨f, e⟩ := s.owe_eq pa n o
  rw [e]
  refine ⟨fun y hy => ?_, h.kept.imp_left fun ⟨y, hy, hd⟩ => ⟨{ y with owners := f y }, ?_, hd⟩⟩
  · obtain ⟨z, hz, rfl⟩ := List.mem_map.mp hy
    exact h.held z hz
  · rw [State.l2?, List.find?_map]
    exact congrArg (Option.map _) hy

theorem State.Placed.readLoc (hs : s.Placed) : (s.readLoc (.gl pa x) n).1.Placed := hs.fillLine

theorem State.Shows.readLoc (h : s.Shows key a c) (hs : s.Placed)
    (hk : a / 128 = pa / 128 → behindPort pa = true ∨ key = s.keyOf x.key) : (s.readLoc (.gl pa x) n).1.Shows key a c := h.fillLine hs hk

/-- Bytes that an access sees are read. -/
theorem State.readLoc_of_shows (hs : s.Placed) (h : ∀ i, i < bs.length → s.Shows (s.keyOf x.key) (pa + i) (bs.getD i 0)) :
    (s.readLoc (.gl pa x) bs.length).2 = bs := by
  have keys : (s.fillLine pa x).keyOf = s.keyOf := State.keyOf_congr (s.fillLine_memOnly pa x).ctl
  refine List.ext_getElem (by simp [State.readLoc]) fun i h1 h2 => ?_
  simp only [State.readLoc, List.getElem_map, List.getElem_range, keys]
  rw [((h i h2).fillLine hs fun _ => .inr rfl).plainByte.2, List.getD_eq_getElem _ _ h2]

theorem State.owe_memOnly (s : State) (pa n : Nat) (o : Option Owner) : s.MemOnly (s.owe pa n o) := by
  obtain ⟨f, e⟩ := s.owe_eq pa n o
  rw [e]
  rfl

theorem State.writeLoc_memOnly (s : State) (pa : Nat) (x : Xlat) (bs : List Byte) : s.MemOnly (s.writeLoc (.gl pa x) bs) := by
  have put := (s.fillLine_memOnly pa x).trans (State.putBytes_memOnly _ pa bs x.pol (s.keyOf x.key))
  unfold State.writeLoc
  dsimp only
  split
  · exact put
  · exact put.trans (State.owe_memOnly ..)

theorem State.Placed.writeLoc (hs : s.Placed) : (s.writeLoc (.gl pa x) bs).Placed := by
  unfold State.writeLoc
  dsimp only
  split
  · exact hs.fillLine.putBytes
  · exact hs.fillLine.putBytes.owe

/-- Bytes that are written at a place change no other that the writer, or another access of another line, sees. -/
theorem State.Shows.writeLoc (h : s.Shows key a c) (hs : s.Placed) (hb : 0 < bs.length) (ha : ¬(pa ≤ a ∧ a < pa + bs.length))
    (hk : ∀ p, pa ≤ p → p < pa + bs.length → a / 128 = p / 128 → behindPort p = true ∨ key = s.keyOf x.key) :
    (s.writeLoc (.gl pa x) bs).Shows key a c := by
  have filled := h.fillLine (x := x) hs (hk pa (Nat.le_refl _) (by omega))
  unfold State.writeLoc
  dsimp only
  split
  · exact filled.putBytes hs.fillLine ha hk
  · exact (filled.putBytes hs.fillLine ha hk).owe

theorem State.shows_writeLoc (hs : s.Placed) (hi : i < bs.length) :
    (s.writeLoc (.gl pa x) bs).Shows (s.keyOf x.key) (pa + i) (bs.getD i 0) := by
  unfold State.writeLoc
  dsimp only
  split
  · exact State.shows_putBytes hs.fillLine hi
  · exact (State.shows_putBytes hs.fillLine hi).owe

end

/-! ### A memory that every access sees alike -/

/-- Every byte of memory is seen under the key pair of its line. -/
structure State.ShowsAll (s : State) (K : Nat → List Byte) (f : Nat → Byte) : Prop where
  placed : s.Placed
  shows : ∀ a, s.Shows (K (a / 128)) a (f a)

section
variable {s t : State} {K : Nat → List Byte} {f : Nat → Byte} {pa n : Nat} {x : Xlat}

theorem State.memLine_getElem {line i : Nat} {key : List Byte} (hi : i < (s.memLine line key).length) :
    (s.memLine line key)[i] = s.memByte (line * 128 + i) key := by
  simp [State.memLine]

theorem mem_l2?_of_nodup {x : L2Line} (h : (s.l2.map L2Line.line).Nodup) (hx : x ∈ s.l2) {a : Nat} (hl : x.line = a / 128) :
    s.l2? a = some x := by
  cases hf : s.l2? a with
  | none => exact absurd hl (State.l2?_none hf x hx)
  | some y =>
    obtain ⟨hy, hyl⟩ := State.l2?_some hf
    rw [List.inj_on_of_nodup_map h hy hx (hyl.trans hl.symm)]

/-- Where the lines of the L2 are sound every byte is seen under the key pair of its line. -/
theorem showsAll_of_soundLines (h : SoundLines s) : s.ShowsAll (lineKey s) (plainByte s) := by
  obtain ⟨nodup, apart, lines⟩ := h
  refine ⟨⟨apart, fun x hx => (lines x hx).1⟩, fun a => ?_⟩
  cases hf : s.l2? a with
  | none =>
    have own : lineKey s (a / 128) = s.memKey (a / 128) := by
      rw [lineKey, show (s.l2.find? fun x => x.line = a / 128) = none from hf]
    have under : s.memUnder (s.memKey (a / 128)) a := .inr rfl
    refine ⟨fun x hx hl => absurd hl (State.l2?_none hf x hx), .inr ?_⟩
    rw [own]
    refine ⟨?_, under⟩
    simp only [plainByte, State.byteAt, hf, own, State.memByte_of_under under]
  | some x =>
    obtain ⟨hx, hl⟩ := State.l2?_some hf
    obtain ⟨whole, clean⟩ := lines x hx
    have own : lineKey s (a / 128) = s.keyOf x.key := by
      rw [lineKey, show (s.l2.find? fun x => x.line = a / 128) = some x from hf]
    have clear : s.clear x (s.keyOf x.key) = true := State.clear_iff.mpr (.inr rfl)
    have seen : plainByte s a = x.data.getD (a % 128) 0 := by
      simp only [plainByte, State.byteAt, hf, own, clear, if_true]
    rw [own, seen]
    refine ⟨fun y hy hyl => ?_, ?_⟩
    · have e : some y = some x := (mem_l2?_of_nodup nodup hy hyl).symm.trans hf
      cases e
      exact ⟨clear, rfl⟩
    · cases hd : x.dirty with
      | true => exact .inl ⟨x, hf, hd⟩
      | false =>
        obtain ⟨data, key⟩ := clean hd
        have under : s.memUnder (s.memKey (a / 128)) a := .inr rfl
        have here : a / 128 * 128 + a % 128 = a := by omega
        have inside : a % 128 < (s.memLine x.line (s.memKey x.line)).length := by simp [State.memLine]; omega
        refine .inr ⟨?_, ?_⟩
        · rw [data, List.getD_eq_getElem _ _ inside, State.memLine_getElem, hl, here, State.memByte_of_under under]
        · rw [hl, behindPort_line] at key
          exact key

theorem State.ShowsAll.plainByte (h : s.ShowsAll K f) (a : Nat) : plainByte s a = f a := (h.shows a).plainByte.1

end

end
end Sys2Proof.Machine
end

