-- ==== Sys2Proof/Proofs/MemoryLanes.lean ====
section
/-! PROOFS. The lanes of an operation make their accesses (R159 to R165). -/
namespace Sys2Proof.Machine
open Sys2Proof.Claims

noncomputable section

/-! ### What an access leaves alone -/

/-- All that an access that is made leaves as it was: groups, kernels, translations, the boarding buffers, the tables of ports and keys. -/
def State.around (s : State) := (s.groups, s.kernels, s.tlb, s.bb, s.ports, s.ctl)

section
variable {s t : State} {loc : Loc}

theorem State.MemOnly.around (h : s.MemOnly t) : t.around = s.around := by rw [h]; rfl

theorem State.readLoc_memOnly (s : State) (loc : Loc) (n : Nat) : s.MemOnly (s.readLoc loc n).1 := by
  cases loc with
  | gl pa x => exact s.fillLine_memOnly pa x
  | sp _ _ => exact .refl s
  | bb _ => exact .refl s

theorem State.toPort_memOnly (s : State) (loc : Loc) : s.MemOnly (s.toPort loc) := by
  unfold State.toPort
  split
  · split
    · exact State.evict_memOnly _
    · exact .refl s
  · exact .refl s

theorem State.writeLoc_around (s : State) (loc : Loc) (bs : List Byte) : (s.writeLoc loc bs).around = s.around := by
  cases loc with
  | gl pa x => exact (s.writeLoc_memOnly pa x bs).around
  | sp _ _ => rfl
  | bb _ => rfl

theorem State.setFe_around (s : State) (loc : Loc) (full : Bool) : (s.setFe loc full).around = s.around := by cases loc <;> rfl

theorem State.perform_around (s : State) (k : OpKind) (l : Fin 32) (loc : Loc) : (s.perform k l loc).1.around = s.around := by
  have atPort (sys : Bool) : (if sys then s.toPort loc else s).around = s.around := by
    split
    · exact (s.toPort_memOnly loc).around
    · rfl
  cases k with
  | load n _ _ _ fe clr _ =>
    refine Eq.trans ?_ (s.readLoc_memOnly loc n).around
    dsimp only [State.perform]
    split
    · exact State.setFe_around ..
    · rfl
  | store n _ fe _ data =>
    refine Eq.trans ?_ (s.writeLoc_around loc (toBytes n data[l].toNat))
    dsimp only [State.perform]
    split
    · exact State.setFe_around ..
    · rfl
  | atom f n _ sys _ _ _ _ y z =>
    exact (State.writeLoc_around ..).trans ((State.readLoc_memOnly ..).around.trans (atPort sys))
  | aadd _ sys i32 _ term =>
    exact (State.writeLoc_around ..).trans ((State.readLoc_memOnly ..).around.trans (atPort sys))
  | _ => rfl

theorem State.grp_of_around (h : t.around = s.around) (gi : Nat) : t.grp gi = s.grp gi := by
  rw [State.grp, State.grp, (Prod.mk.injEq .. ▸ h : t.groups = s.groups ∧ _).1]

theorem State.kernels_of_around (h : t.around = s.around) : t.kernels = s.kernels := congrArg (fun x => x.2.1) h

theorem State.xlat_eq (s : State) (c : Option Nat) (x va : Nat) : ∃ e, (s.xlat c x va).1 = { s with tlb := e } := by
  unfold State.xlat
  extract_lets walk
  clear_value walk
  split
  · exact ⟨_, rfl⟩
  · split
    · exact ⟨_, rfl⟩
    · cases walk <;> exact ⟨_, rfl⟩

theorem State.locateGl_fst (s : State) (u : Who) (r : Req) (a : Nat) : (s.locateGl u r a).1 = (s.xlat u.core u.ctx a).1 := by
  unfold State.locateGl
  obtain ⟨v, f | x⟩ := s.xlat u.core u.ctx a
  · rfl
  · simp only [apply_ite Prod.fst]
    split
    · rfl
    · split
      · rfl
      · split
        · rfl
        · split <;> rfl

/-- A translation that a check makes is kept; nothing else changes. -/
theorem State.locate_eq (s : State) (u : Who) (r : Req) (ea : Dword) : ∃ e, (s.locate u r ea).1 = { s with tlb := e } := by
  unfold State.locate
  dsimp only
  split
  · exact ⟨_, rfl⟩
  · split
    · split
      · exact ⟨_, rfl⟩
      · rw [State.locateGl_fst]
        exact s.xlat_eq ..
    · split <;> exact ⟨_, rfl⟩
    · split <;> exact ⟨_, rfl⟩

end

/-! ### A lane's access tried -/

section
variable {s : State} {gi : Nat} {o : Op} {l : Fin 32} {b : Bool} {P : State → Prop}

/-- What holds after the checks and after the access holds after a lane's access is tried. -/
theorem State.tryLane_induct (h : P s)
    (hloc : ∀ r addr, o.kind.req = some (r, addr) → P (s.locate (s.whoOf (s.grp gi)) r addr[l]).1)
    (hdo : ∀ r addr u loc, o.kind.req = some (r, addr) → s.locate (s.whoOf (s.grp gi)) r addr[l] = (u, .ok loc) →
      P (u.perform o.kind l loc).1) : P (s.tryLane gi o l b).1 := by
  unfold State.tryLane
  split
  · exact h
  · rename_i r addr hr
    have checked := hloc r addr hr
    split
    · rename_i e
      rwa [e] at checked
    · rename_i u loc e
      rw [e] at checked
      split
      · exact checked
      · split
        · exact checked
        · split
          · exact checked
          · exact hdo r addr u loc hr e

end

/-! ### An operation whose lanes make their accesses -/

/-- What an accessor is taken from. -/
def Group.origin (g : Group) : Nat × Nat × Nat × Nat := (g.core, g.kernel, g.team, g.idx)

theorem State.whoOf_congr {s t : State} {g g' : Group} (hk : t.kernels = s.kernels) (hg : g'.origin = g.origin) : t.whoOf g' = s.whoOf g := by
  obtain ⟨c, k, m, i⟩ : g'.core = g.core ∧ g'.kernel = g.kernel ∧ g'.team = g.team ∧ g'.idx = g.idx := by simpa [Group.origin] using hg
  rw [State.whoOf, State.whoOf, State.ctxOf_congr hk k, c, k, m, i]

/-- The operations of a group with a number are of one kind, and have lanes to do among some alone. -/
def Group.Runs (g : Group) (id : Nat) (k : OpKind) (ls : Lanes) : Prop :=
  ∀ o ∈ g.ops, o.id = id → o.kind = k ∧ ∀ l : Fin 32, o.todo.getLsbD l = true → ls.getLsbD l = true

/-- A group runs an operation for lanes, as an accessor. -/
structure State.Running (s : State) (gi : Nat) (w : Who) (id : Nat) (k : OpKind) (ls : Lanes) : Prop where
  who : s.whoOf (s.grp gi) = w
  runs : (s.grp gi).Runs id k ls

theorem Op.lane_kind (o : Op) (l : Fin 32) (ea : Dword) (d : Did) : (o.lane l ea d).kind = o.kind := by
  unfold Op.lane
  split <;> rfl

theorem Op.lane_id (o : Op) (l : Fin 32) (ea : Dword) (d : Did) : (o.lane l ea d).id = o.id := by
  unfold Op.lane
  split <;> rfl

theorem Op.lane_todo (o : Op) (l : Fin 32) (ea : Dword) (d : Did) : (o.lane l ea d).todo = o.todo &&& ~~~(lane1 l) := by
  unfold Op.lane
  split <;> rfl

/-- A change of an operation that leaves its number and its kind and does no more lanes. -/
structure Op.Shrinks (f : Op → Op) : Prop where
  id : ∀ o, (f o).id = o.id
  kind : ∀ o, (f o).kind = o.kind
  todo : ∀ o, ∃ m, (f o).todo = o.todo &&& m

theorem Op.shrinks_lane (l : Fin 32) (ea : Op → Dword) (d : Did) : Op.Shrinks fun o => o.lane l (ea o) d :=
  ⟨fun o => o.lane_id .., fun o => o.lane_kind .., fun o => ⟨_, o.lane_todo ..⟩⟩

theorem Op.Shrinks.withNotes {f : Op → Op} (h : Op.Shrinks f) (n : Op → List TileNote) : Op.Shrinks fun o => { f o with notes := n o } :=
  ⟨h.id, h.kind, h.todo⟩

theorem mem_onOp {g : Group} {id : Nat} {f : Op → Op} {o : Op} (h : o ∈ (g.onOp id f).ops) :
    ∃ p ∈ g.ops, (p.id = id ∧ o = f p) ∨ (p.id ≠ id ∧ o = p) := by
  obtain ⟨p, hp, rfl⟩ := List.mem_map.mp h
  refine ⟨p, hp, ?_⟩
  split
  · exact .inl ⟨‹_›, rfl⟩
  · exact .inr ⟨‹_›, rfl⟩

theorem Group.Runs.onOp {g : Group} {id n : Nat} {k : OpKind} {ls : Lanes} {f : Op → Op} (h : g.Runs id k ls) (hf : Op.Shrinks f) :
    (g.onOp n f).Runs id k ls := by
  intro o ho hid
  obtain ⟨p, hp, ⟨-, rfl⟩ | ⟨-, rfl⟩⟩ := mem_onOp ho
  · obtain ⟨hk, ht⟩ := h p hp ((hf.id p).symm.trans hid)
    obtain ⟨m, hm⟩ := hf.todo p
    refine ⟨(hf.kind p).trans hk, fun l hl => ht l ?_⟩
    rw [hm, BitVec.getLsbD_and, Bool.and_eq_true] at hl
    exact hl.1
  · exact h _ hp hid

theorem State.grp_onGrp_or (s : State) (gi : Nat) (f : Group → Group) :
    (s.onGrp gi f).grp gi = f (s.grp gi) ∨ (s.onGrp gi f).grp gi = s.grp gi := by
  by_cases hl : gi < s.groups.length
  · exact .inl (s.grp_onGrp gi f hl)
  · refine .inr ?_
    rw [State.onGrp, State.setGrp, List.set_eq_of_length_le (Nat.le_of_not_lt hl)]

section
variable {s t : State} {gi : Nat} {w : Who} {id : Nat} {k : OpKind} {ls : Lanes}

theorem State.Running.congr (h : s.Running gi w id k ls) (hg : t.grp gi = s.grp gi) (hk : t.kernels = s.kernels) : t.Running gi w id k ls := by
  obtain ⟨who, runs⟩ := h
  exact ⟨by rwa [hg, State.whoOf_congr hk rfl], by rwa [hg]⟩

theorem State.Running.onGrp (h : s.Running gi w id k ls) {f : Group → Group} (ho : (f (s.grp gi)).origin = (s.grp gi).origin)
    (hr : (f (s.grp gi)).Runs id k ls) : (s.onGrp gi f).Running gi w id k ls := by
  obtain ⟨who, runs⟩ := h
  obtain e | e := s.grp_onGrp_or gi f
  · exact ⟨by rw [e]; exact (State.whoOf_congr rfl ho).trans who, by rwa [e]⟩
  · exact ⟨by rw [e]; exact (State.whoOf_congr rfl rfl).trans who, by rwa [e]⟩

/-- The check and the access of a lane leave the operation as it is. -/
theorem State.Running.tryLane (h : s.Running gi w id k ls) (o : Op) (l : Fin 32) (b : Bool) : (s.tryLane gi o l b).1.Running gi w id k ls := by
  have checked (r : Req) (ea : Dword) : (s.locate (s.whoOf (s.grp gi)) r ea).1.Running gi w id k ls := by
    obtain ⟨e, he⟩ := s.locate_eq (s.whoOf (s.grp gi)) r ea
    rw [he]
    exact h.congr rfl rfl
  refine State.tryLane_induct (P := fun u => u.Running gi w id k ls) h (fun r addr _ => checked r addr[l]) fun r addr u loc _ e => ?_
  have located := checked r addr[l]
  rw [e] at located
  have kept := u.perform_around o.kind l loc
  exact located.congr (State.grp_of_around kept gi) (State.kernels_of_around kept)

/-- What the access of every lane keeps, and no change of a group touches, holds after lanes have made their accesses. -/
theorem State.Running.stepLanes {P : State → Prop} (hgrp : ∀ u f, P u → P (u.onGrp gi f))
    (htry : ∀ u o (l : Fin 32) b, P u → u.Running gi w id k ls → o.kind = k → ls.getLsbD l = true → P (u.tryLane gi o l b).1)
    (h : s.Running gi w id k ls) (hP : P s) (check : Bool) (xs : List (Fin 32)) :
    P (s.stepLanes gi id check xs).1 ∧ (s.stepLanes gi id check xs).1.Running gi w id k ls := by
  have step (acc : State × List (Nat × Nat × Nat × Dword)) (l : Fin 32) (ha : P acc.1 ∧ acc.1.Running gi w id k ls) :
      P (State.stepLane gi id check acc l).1 ∧ (State.stepLane gi id check acc l).1.Running gi w id k ls := by
    obtain ⟨hp, hr⟩ := ha
    unfold State.stepLane
    split
    · exact ⟨hp, hr⟩
    · rename_i o ho
      obtain ⟨hk, hl⟩ := hr.runs o (List.mem_of_find?_eq_some ho) (by simpa using List.find?_some ho)
      split
      · exact ⟨hp, hr⟩
      · rename_i ht
        rw [Bool.not_eq_true, Bool.not_eq_false'] at ht
        have tried := htry acc.1 o l (check || !acc.1.laneTurn gi o l) hp hr hk (hl l ht)
        have running := hr.tryLane o l (check || !acc.1.laneTurn gi o l)
        split
        · rename_i e
          rw [e] at tried running
          exact ⟨tried, running⟩
        · rename_i u d _ e
          rw [e] at tried running
          have marked : P (u.onGrp gi fun g => g.onOp id fun o => { o.lane l (o.ea l) d with notes := o.notes ++ u.tileNote gi l (o.ea l) d })
              ∧ (u.onGrp gi fun g => g.onOp id fun o => { o.lane l (o.ea l) d with
                notes := o.notes ++ u.tileNote gi l (o.ea l) d }).Running gi w id k ls :=
            ⟨hgrp _ _ tried, running.onGrp rfl (running.runs.onOp ((Op.shrinks_lane l (fun o => o.ea l) d).withNotes _))⟩
          split <;> exact marked
  unfold State.stepLanes
  generalize hacc : (s, ([] : List (Nat × Nat × Nat × Dword))) = acc
  have start : P acc.1 ∧ acc.1.Running gi w id k ls := by rw [← hacc]; exact ⟨hP, h⟩
  clear hacc
  induction xs generalizing acc with
  | nil => exact start
  | cons x xs ih => exact ih _ (step acc x start)

end

/-! ### An operation begins -/

/-- A state whose group has a new operation, its registers spatial, before any access. -/
def State.begun (s : State) (c : Wctx) (cls : Cls) (k : OpKind) (run : List Nat) : State :=
  (s.start c cls c.lanes k run []).onGrp c.gi fun g => run.foldl (fun g n => g.setV n (g.vreg n) Tag.spatial) g

theorem State.startMem_eq (s : State) (c : Wctx) (cls : Cls) (k : OpKind) (run : List Nat) :
    s.startMem c cls k run = (s.begun c cls k run).issueAccesses c.gi (s.grp c.gi).nextOp := rfl

/-- What no register is part of a change of registers leaves. -/
theorem Group.foldl_setV_same {α : Type} (e : Group → α) (he : ∀ (g : Group) n x t, e (g.setV n x t) = e g) (run : List Nat) (g : Group) :
    e (run.foldl (fun g n => g.setV n (g.vreg n) Tag.spatial) g) = e g := by
  induction run generalizing g with
  | nil => rfl
  | cons n run ih => exact (ih _).trans (he ..)

section
variable {s : State} {c : Wctx} {cls : Cls} {k : OpKind} {run : List Nat}

/-- The new operation of a group. -/
def Wctx.newOp (c : Wctx) (cls : Cls) (k : OpKind) (id : Nat) : Op :=
  { id := id, cls := cls, pc := c.pc, lanes := c.lanes, todo := c.lanes, hm := c.hm, rgn0 := c.snap.rgn, done := false,
    got := Vector.replicate 32 none, late := [], kind := k }

theorem State.begun_grp : ((s.begun c cls k run).grp c.gi).origin = (s.grp c.gi).origin
    ∧ (((s.begun c cls k run).grp c.gi).ops = (s.grp c.gi).ops ++ [c.newOp cls k (s.grp c.gi).nextOp]
      ∨ ((s.begun c cls k run).grp c.gi).ops = (s.grp c.gi).ops) := by
  have setV : ((s.begun c cls k run).grp c.gi).origin = ((s.start c cls c.lanes k run []).grp c.gi).origin
      ∧ ((s.begun c cls k run).grp c.gi).ops = ((s.start c cls c.lanes k run []).grp c.gi).ops :=
    ⟨State.grp_onGrp_same Group.origin (Group.foldl_setV_same Group.origin (fun _ _ _ _ => rfl) run _) c.gi,
      State.grp_onGrp_same Group.ops (Group.foldl_setV_same Group.ops (fun _ _ _ _ => rfl) run _) c.gi⟩
  refine ⟨setV.1.trans (State.grp_onGrp_same Group.origin rfl c.gi), ?_⟩
  rw [setV.2]
  exact (s.grp_onGrp_or c.gi _).imp (fun e => congrArg Group.ops e) fun e => congrArg Group.ops e

theorem State.begun_running (hn : ∀ o ∈ (s.grp c.gi).ops, o.id < (s.grp c.gi).nextOp) :
    (s.begun c cls k run).Running c.gi (s.whoOf (s.grp c.gi)) (s.grp c.gi).nextOp k c.lanes := by
  obtain ⟨origin, ops⟩ := State.begun_grp (s := s) (c := c) (cls := cls) (k := k) (run := run)
  have old (o : Op) (ho : o ∈ (s.grp c.gi).ops) (hid : o.id = (s.grp c.gi).nextOp) : False := absurd (hn o ho) (by omega)
  refine ⟨State.whoOf_congr rfl origin, fun o ho hid => ?_⟩
  obtain e | e := ops <;> rw [e] at ho
  · obtain ho | ho := List.mem_append.mp ho
    · exact (old o ho hid).elim
    · rw [List.mem_singleton.mp ho]
      exact ⟨rfl, fun _ h => h⟩
  · exact (old o ho hid).elim

end

@[simp] theorem State.deferOp_stored (s : State) (gi : Nat) (o : Op) (fs : List (Nat × Nat × Nat × Dword)) :
    (s.deferOp gi o fs).stored = s.stored := by
  unfold State.deferOp
  split
  · exact State.deferAll_stored ..
  · exact (State.onGrp_stored ..).trans (State.deferAll_stored ..)

/-- What is said of what memory holds alone. -/
def OfStored (Q : State → Prop) : Prop := ∀ u v : State, v.stored = u.stored → Q u → Q v

/-- What the accesses keep that an operation makes for its lanes, and no change of a group touches, is kept of what memory holds when the
operation has begun. -/
theorem State.startMem_keeps {s : State} {c : Wctx} {cls : Cls} {k : OpKind} {run : List Nat} {P Q : State → Prop}
    (hgrp : ∀ u gi f, P u → P (u.onGrp gi f)) (hQ : OfStored Q) (hPQ : ∀ u, P u → Q u)
    (htry : ∀ u o (l : Fin 32) b, P u → u.Running c.gi (s.whoOf (s.grp c.gi)) (s.grp c.gi).nextOp k c.lanes → o.kind = k →
      c.lanes.getLsbD l = true → P (u.tryLane c.gi o l b).1)
    (hn : ∀ o ∈ (s.grp c.gi).ops, o.id < (s.grp c.gi).nextOp) (hk : k.ordered = false) (hP : P s) : Q (s.startMem c cls k run) := by
  have begun : P (s.begun c cls k run) := hgrp _ _ _ (hgrp _ _ _ hP)
  have running := State.begun_running (cls := cls) (k := k) (run := run) hn
  rw [State.startMem_eq]
  unfold State.issueAccesses
  split
  · exact hPQ _ begun
  · rename_i o ho
    obtain ⟨ok, -⟩ := running.runs o (List.mem_of_find?_eq_some ho) (by simpa using List.find?_some ho)
    rw [ok, hk]
    exact hQ _ _ (State.deferOp_stored ..) (hPQ _ (running.stepLanes (fun u f => hgrp u c.gi f) htry begun false (lanesOf o.todo)).1)

/-! ### A word that makes accesses -/

/-- A word's answer leaves a state of which something holds, where it leaves one. -/
def Res.Leaves (Q : State → Prop) : Res → Prop
  | .ok e => Q e
  | .wait _ e => Q e
  | _ => True

theorem Res.leaves_ite {Q : State → Prop} {c : Prop} [Decidable c] {r r' : Res} (h : c → r.Leaves Q) (h' : ¬c → r'.Leaves Q) :
    (if c then r else r').Leaves Q := by
  split
  · exact h ‹_›
  · exact h' ‹_›

theorem stopped_leaves {Q : State → Prop} {w : WordSpec} {c : Wctx} {own : Option Nat} {r : Res} (h : stopped w c own = some r) : r.Leaves Q := by
  have side (b : Bool) (h : c.sideHold b = some r) : r.Leaves Q := by
    unfold Wctx.sideHold at h
    repeat' split at h
    all_goals simp only [Option.some.injEq, reduceCtorEq] at h
    all_goals subst h; trivial
  rw [stopped] at h
  split at h
  · obtain rfl := Option.some.inj h
    trivial
  · split at h
    · cases h
    · split at h
      · obtain rfl := Option.some.inj h
        trivial
      · split at h
        · split at h
          · obtain rfl := Option.some.inj h
            trivial
          · split at h
            · exact side _ h
            · cases h
        · split at h
          · exact side _ h
          · cases h

theorem settleRes_leaves {Q : State → Prop} (hQ : OfStored Q) {w : WordSpec} {c : Wctx} {s : State} {r : Res} (h : Q s) (hr : r.Leaves Q) :
    Q (settleRes w c s r) := by
  cases r with
  | ok e => exact hQ e _ (by simp [settleRes, apply_ite State.stored]) hr
  | raise cause detail => exact hQ s _ (by simp [settleRes]) h
  | hold k => exact hQ s _ (by simp [settleRes]) h
  | wait k e => exact hQ e _ (by simp [settleRes, apply_ite State.stored]) hr

/-- What holds of what memory holds before a word and after what its body does holds after the word. -/
theorem word_leaves {Q : State → Prop} (hQ : OfStored Q) {w : WordSpec} {s : State} {body : Wctx → State → Res} (h : Q s)
    (hb : (body (wctx w.h s) s.advance).Leaves Q) : Q (word w s body) := by
  refine settleRes_leaves hQ h ?_
  split
  · exact stopped_leaves ‹_›
  · beta_reduce
    split
    · exact hQ s _ s.advance_stored h
    · exact hb

theorem State.advance_grp_ops (s : State) (gi : Nat) : (s.advance.grp gi).ops = (s.grp gi).ops :=
  s.advance_grp_same Group.ops gi (fun _ _ => rfl) Group.onLanes_ops

theorem State.advance_grp_nextOp (s : State) (gi : Nat) : (s.advance.grp gi).nextOp = (s.grp gi).nextOp :=
  s.advance_grp_same Group.nextOp gi (fun _ _ => rfl) Group.onLanes_nextOp

theorem State.advance_whoOf (s : State) (gi : Nat) : s.advance.whoOf (s.advance.grp gi) = s.whoOf (s.grp gi) :=
  State.whoOf_congr s.advance_kernels (s.advance_grp_same Group.origin gi (fun _ _ => rfl) fun _ _ _ => by simp [Group.origin])

/-- The same for the operation that a word starts, of the group as it stood before the word. -/
theorem State.startMem_advance_keeps {s : State} {h : Hdr} {cls : Cls} {k : OpKind} {run : List Nat} {P Q : State → Prop}
    (hgrp : ∀ u gi f, P u → P (u.onGrp gi f)) (hQ : OfStored Q) (hPQ : ∀ u, P u → Q u)
    (htry : ∀ u o (l : Fin 32) b, P u →
      u.Running s.iss.gi (s.whoOf (s.grp s.iss.gi)) (s.grp s.iss.gi).nextOp k (wctx h s).lanes → o.kind = k →
      (wctx h s).lanes.getLsbD l = true → P (u.tryLane s.iss.gi o l b).1)
    (hn : ∀ o ∈ (s.grp s.iss.gi).ops, o.id < (s.grp s.iss.gi).nextOp) (hk : k.ordered = false) (hP : P s.advance) :
    Q (s.advance.startMem (wctx h s) cls k run) := by
  refine State.startMem_keeps (c := wctx h s) hgrp hQ hPQ ?_ ?_ hk hP
  · rw [show (wctx h s).gi = s.iss.gi from rfl, s.advance_whoOf, s.advance_grp_nextOp]
    exact htry
  · rw [show (wctx h s).gi = s.iss.gi from rfl, s.advance_grp_ops, s.advance_grp_nextOp]
    exact hn

end
end Sys2Proof.Machine
end

