-- ==== Sys2Proof/Proofs/ScratchpadStores.lean ====
section
/-! PROOFS. Stores to the scratchpad (R153, R163): O18. -/
namespace Sys2Proof.Machine
open Sys2Proof.Claims

noncomputable section

/-! ### Bytes of the scratchpads -/

theorem getElem?_updAt_ne {α : Type} (l : List α) {i j : Nat} (f : α → α) (h : i ≠ j) : (updAt l i f)[j]? = l[j]? := by
  induction l generalizing i j with
  | nil => rfl
  | cons x l ih =>
    cases i with
    | zero =>
      obtain ⟨j, rfl⟩ := Nat.exists_eq_succ_of_ne_zero (Ne.symm h)
      rfl
    | succ i =>
      cases j with
      | zero => rfl
      | succ j => exact ih (by omega)

theorem toBytes_length (n v : Nat) : (toBytes n v).length = n := by
  induction n generalizing v with
  | zero => rfl
  | succ n ih => rw [toBytes, List.length_cons, ih]

theorem spByte_eq (s : State) (n off : Nat) :
    spByte s n off = match (s.teams.map Team.stored)[n]? with | some x => Memory.byte x.1 off | none => 0 := by
  rw [spByte, List.getElem?_map]
  cases s.teams[n]? <;> rfl

theorem spByte_of_stored {s t : State} (h : t.stored = s.stored) (n off : Nat) : spByte t n off = spByte s n off := by
  have teams : t.teams.map Team.stored = s.teams.map Team.stored := congrArg (fun x => x.1.2.2) h
  rw [spByte_eq, spByte_eq, teams]

theorem spByte_congr {s t : State} (h : t.teams = s.teams) (n off : Nat) : spByte t n off = spByte s n off := by
  rw [spByte, spByte, h]

/-- A scratchpad changed in bytes that are not looked at. -/
theorem spByte_onTeam {s : State} {t n off : Nat} {f : Team → Team} (h : n = t → ∀ x, Memory.byte (f x).sp off = Memory.byte x.sp off) :
    spByte (s.onTeam t f) n off = spByte s n off := by
  unfold spByte
  rw [State.onTeam_teams]
  by_cases e : t = n
  · subst e
    rw [getElem?_updAt_same]
    cases s.teams[t]? with
    | none => rfl
    | some x => exact h rfl x
  · rw [getElem?_updAt_ne _ _ e]

theorem spByte_setFe (s : State) (loc : Loc) (full : Bool) (n off : Nat) : spByte (s.setFe loc full) n off = spByte s n off := by
  cases loc with
  | gl _ _ => rfl
  | sp t a => exact spByte_onTeam fun _ _ => rfl
  | bb _ => rfl

theorem spByte_writeLoc_sp {s : State} {t a n off : Nat} {bs : List Byte} (h : n = t → ¬(a ≤ off ∧ off < a + bs.length)) :
    spByte (s.writeLoc (.sp t a) bs) n off = spByte s n off :=
  spByte_onTeam fun e x => (Memory.byte_writeN ..).trans (if_neg (h e))

/-! ### Stores to the scratchpad (R153, R163) -/

/-- A check of an address of the scratchpad changes nothing, and the place is the address in the team's own scratchpad. -/
theorem State.locate_sp {s u : State} {w : Who} {r : Req} {ea : Dword} (hr : r.space = .sp) :
    (s.locate w r ea).1 = s ∧ ∀ loc, s.locate w r ea = (u, .ok loc) → u = s ∧ loc = .sp w.team ea.toNat := by
  unfold State.locate
  simp only [hr]
  split
  · exact ⟨rfl, nofun⟩
  · split
    · exact ⟨rfl, nofun⟩
    · refine ⟨rfl, fun loc h => ?_⟩
      cases h
      exact ⟨rfl, rfl⟩

/-- Memory, the L2 and the boarding buffers stand as before, and the scratchpads but for bytes that a store may write. -/
def KeptButScratchpad (s : State) (may : Nat → Nat → Prop) (u : State) : Prop :=
  u.mem = s.mem ∧ u.l2 = s.l2 ∧ u.bb = s.bb ∧ ∀ n off, ¬may n off → spByte u n off = spByte s n off

theorem keptButScratchpad_ofStored (s : State) (may : Nat → Nat → Prop) : OfStored (KeptButScratchpad s may) := by
  rintro u v e ⟨mem, l2, bb, sp⟩
  exact ⟨(congrArg (fun x => x.1.1) e).trans mem, (congrArg (fun x => x.2.1.1) e).trans l2, (congrArg (fun x => x.1.2.1) e).trans bb,
    fun n off h => (spByte_of_stored e n off).trans (sp n off h)⟩

/-- A byte of the scratchpad of a team that a store of `bytes` names for an issuing lane. -/
def Named (team : Nat) (ls : Lanes) (addr : PerLane Dword) (bytes : Nat) (n off : Nat) : Prop :=
  n = team ∧ ∃ l : Fin 32, ls.getLsbD l = true ∧ (addr[l]).toNat ≤ off ∧ off < (addr[l]).toNat + bytes

theorem keptButScratchpad_refl (s : State) (may : Nat → Nat → Prop) : KeptButScratchpad s may s := ⟨rfl, rfl, rfl, fun _ _ _ => rfl⟩

/-- The access of a store to the scratchpad. -/
theorem perform_scratchpad {s u : State} {may : Nat → Nat → Prop} (hu : KeptButScratchpad s may u) {n : Nat} {z : Space} {fe : Bool}
    {addr : PerLane Dword} {data : PerLane (BitVec 128)} {l : Fin 32} {team a : Nat}
    (hm : ∀ off, a ≤ off → off < a + n → may team off) : KeptButScratchpad s may (u.perform (.store n z fe addr data) l (.sp team a)).1 := by
  obtain ⟨mem, l2, bb, sp⟩ := hu
  refine ⟨?_, ?_, ?_, fun m off hoff => ?_⟩
  · exact Eq.trans (by cases fe <;> rfl) mem
  · exact Eq.trans (by cases fe <;> rfl) l2
  · exact Eq.trans (by cases fe <;> rfl) bb
  · have written : spByte (u.writeLoc (.sp team a) (toBytes n data[l].toNat)) m off = spByte u m off :=
      spByte_writeLoc_sp fun e r => hoff (e ▸ hm off r.1 (by rw [toBytes_length] at r; exact r.2))
    refine Eq.trans ?_ (written.trans (sp m off hoff))
    cases fe
    · rfl
    · exact spByte_setFe (u.writeLoc (.sp team a) (toBytes n data[l].toNat)) (.sp team a) true m off

theorem storeWord_scratchpad {h : Hdr} {d a b : BitVec 6} {n : Nat} {fe : Bool} {s : State}
    (hn : ∀ o ∈ (s.grp s.iss.gi).ops, o.id < (s.grp s.iss.gi).nextOp) :
    KeptButScratchpad s (Named (s.grp s.iss.gi).team (wctx h s).lanes (addrOf (wctx h s) h 1#2 a b) n) (storeWord h 1#2 d a b n fe s) := by
  have closed := keptButScratchpad_ofStored s (Named (s.grp s.iss.gi).team (wctx h s).lanes (addrOf (wctx h s) h 1#2 a b) n)
  refine word_leaves closed (keptButScratchpad_refl s _) ?_
  refine State.startMem_advance_keeps (fun _ _ _ h => h) closed (fun _ h => h) ?_ hn rfl (closed s _ s.advance_stored (keptButScratchpad_refl s _))
  intro u o l check hu running hk hl
  refine State.tryLane_induct hu (fun r addr hr => ?_) fun r addr v loc hr e => ?_
  all_goals
    rw [hk] at hr
    cases hr
  · rw [(State.locate_sp (u := u) rfl).1]
    exact hu
  · obtain ⟨rfl, rfl⟩ := (State.locate_sp rfl).2 loc e
    rw [hk, running.who]
    exact perform_scratchpad hu fun off h1 h2 => ⟨rfl, l, hl, h1, h2⟩

/-- Settles O18: the store's accesses change what they name, and the word nothing else that memory holds. -/
theorem scratchpadStoreFrame : Obligations.ScratchpadStoreFrame := by
  unfold Obligations.ScratchpadStoreFrame
  intro x hx h d a b s t hn he c
  rw [exec_of_mem_stores x hx] at he
  cases he
  obtain ⟨mem, l2, bb, sp⟩ := storeWord_scratchpad (h := h) (d := d) (a := a) (b := b) (n := x.1) (fe := x.2.1) hn
  exact ⟨mem, l2, bb, fun n off hoff => sp n off fun ⟨e, l, hl, h1, h2⟩ => hoff e l hl ⟨h1, h2⟩⟩

end
end Sys2Proof.Machine
end

