-- ==== Sys2Proof/Proofs/GlobalMemory.lean ====
section
/-! PROOFS. Accesses of global memory whose lines stand under the key pairs of their pages (R159, R384). -/
namespace Sys2Proof.Machine
open Sys2Proof.Claims

noncomputable section

/-! ### Accesses of a memory that every access sees alike -/

section
variable {s t : State} {K : Nat → List Byte} {f : Nat → Byte} {pa n a : Nat} {x : Xlat} {key key' : List Byte} {b : Byte} {bs : List Byte}

/-- Behind a host port every key pair sees a byte alike. -/
theorem State.Shows.of_behind (h : s.Shows key a b) (ha : behindPort a = true) : s.Shows key' a b := by
  refine ⟨fun x hx hl => ⟨State.clear_iff.mpr (.inl ?_), (h.held x hx hl).2⟩, h.kept.imp_right fun ⟨hb, _⟩ => ⟨hb, .inl ha⟩⟩
  rw [hl, behindPort_line]
  exact ha

theorem State.Placed.of_stored (h : s.Placed) (e : t.stored = s.stored) : t.Placed :=
  ⟨placesApart_congr h.apart (congrArg (fun x => x.2.2.1) e), (show t.l2 = s.l2 from congrArg (fun x => x.2.1.1) e) ▸ h.whole⟩

theorem State.Shows.of_stored (h : s.Shows key a b) (e : t.stored = s.stored) : t.Shows key a b := by
  simp only [State.stored, Prod.mk.injEq] at e
  obtain ⟨⟨mem, -, -⟩, ⟨l2, keys, -, -, -⟩, ports, ctl⟩ := e
  exact h.congr l2 mem keys ports ctl

theorem State.ShowsAll.of_stored (h : s.ShowsAll K f) (e : t.stored = s.stored) : t.ShowsAll K f :=
  ⟨h.placed.of_stored e, fun a => (h.shows a).of_stored e⟩

theorem State.ShowsAll.toPort (h : s.ShowsAll K f) (loc : Loc) : (s.toPort loc).ShowsAll K f := by
  unfold State.toPort
  split
  · split
    · exact ⟨h.placed.evict _, fun a => (h.shows a).evict _ h.placed⟩
    · exact h
  · exact h

/-- The lines of a place stand under the key pair of its page, or behind a host port. -/
def State.PlaceUnder (s : State) (K : Nat → List Byte) (loc : Loc) (n : Nat) : Prop :=
  ∀ q y, loc = .gl q y → ∀ p, q ≤ p → p < q + n → behindPort p = true ∨ K (p / 128) = s.keyOf y.key

theorem State.PlaceUnder.congr {loc : Loc} (h : s.PlaceUnder K loc n) (e : t.ctl = s.ctl) : t.PlaceUnder K loc n := by
  rw [State.PlaceUnder, State.keyOf_congr e]
  exact h

theorem State.PlaceUnder.portLoc {loc : Loc} (h : s.PlaceUnder K loc n) (sys : Bool) : s.PlaceUnder K (portLoc sys loc) n := by
  intro q y e
  cases loc with
  | gl pa x =>
    rw [Machine.portLoc] at e
    split at e
    · cases e
      exact h _ x rfl
    · cases e
      exact h _ _ rfl
  | sp _ _ => cases e
  | bb _ => cases e

theorem State.ShowsAll.readLoc (h : s.ShowsAll K f) {loc : Loc} (hn : 0 < n) (hk : s.PlaceUnder K loc n) (m : Nat) :
    (s.readLoc loc m).1.ShowsAll K f := by
  cases loc with
  | gl q y =>
    refine ⟨h.placed.readLoc, fun a => (h.shows a).readLoc h.placed fun e => ?_⟩
    rw [e]
    exact hk q y rfl q (Nat.le_refl q) (by omega)
  | sp _ _ => exact h
  | bb _ => exact h

/-- Bytes written at a place of global memory, as every access sees them. -/
theorem State.ShowsAll.writeLoc (h : s.ShowsAll K f) (hb : 0 < bs.length) (hk : s.PlaceUnder K (.gl pa x) bs.length) :
    (s.writeLoc (.gl pa x) bs).ShowsAll K fun a => if pa ≤ a ∧ a < pa + bs.length then bs.getD (a - pa) 0 else f a := by
  refine ⟨h.placed.writeLoc, fun a => ?_⟩
  split
  · rename_i ha
    obtain ⟨i, rfl⟩ := Nat.exists_eq_add_of_le ha.1
    rw [Nat.add_sub_cancel_left]
    have written := State.shows_writeLoc (pa := pa) (x := x) h.placed (Nat.lt_of_add_lt_add_left ha.2)
    obtain behind | e := hk pa x rfl (pa + i) ha.1 ha.2
    · exact written.of_behind behind
    · rwa [e]
  · rename_i ha
    refine (h.shows a).writeLoc h.placed hb ha fun p h1 h2 e => ?_
    rw [e]
    exact hk pa x rfl p h1 h2

theorem State.ShowsAll.setFe (h : s.ShowsAll K f) (loc : Loc) (full : Bool) : (s.setFe loc full).ShowsAll K f := by
  have same : (s.setFe loc full).l2 = s.l2 ∧ (s.setFe loc full).mem = s.mem ∧ (s.setFe loc full).memKeys = s.memKeys
      ∧ (s.setFe loc full).ports = s.ports ∧ (s.setFe loc full).ctl = s.ctl := by
    cases loc <;> exact ⟨rfl, rfl, rfl, rfl, rfl⟩
  obtain ⟨l2, mem, keys, ports, ctl⟩ := same
  exact ⟨⟨placesApart_congr h.placed.apart ports, l2 ▸ h.placed.whole⟩, fun a => (h.shows a).congr l2 mem keys ports ctl⟩

end

/-! ### What accesses of global memory keep -/

/-- Every byte of memory is seen as before, but for bytes that an access may write; the boarding buffers and the scratchpads stand. -/
structure KeptGlobal (s : State) (K : Nat → List Byte) (may : Nat → Prop) (u : State) : Prop where
  shows : ∃ f, u.ShowsAll K f ∧ ∀ pa, ¬may pa → f pa = plainByte s pa
  bb : u.bb = s.bb
  sp : ∀ n off, spByte u n off = spByte s n off

section
variable {s u v : State} {K : Nat → List Byte} {may : Nat → Prop}

theorem keptGlobal_ofStored (s : State) (K : Nat → List Byte) (may : Nat → Prop) : OfStored (KeptGlobal s K may) := by
  rintro u v e ⟨⟨f, shows, same⟩, bb, sp⟩
  exact ⟨⟨f, shows.of_stored e, same⟩, (congrArg (fun x => x.1.2.1) e).trans bb, fun n off => (spByte_of_stored e n off).trans (sp n off)⟩

theorem keptGlobal_refl (h : s.ShowsAll K (plainByte s)) : KeptGlobal s K may s :=
  ⟨⟨_, h, fun _ _ => rfl⟩, rfl, fun _ _ => rfl⟩

/-- What an operation on memory leaves of memory, where the rest stands. -/
theorem KeptGlobal.next (h : KeptGlobal s K may u) (hf : ∀ f, u.ShowsAll K f → ∃ f', v.ShowsAll K f' ∧ ∀ pa, ¬may pa → f' pa = f pa)
    (hb : v.around = u.around) (ht : ∀ n off, spByte v n off = spByte u n off) : KeptGlobal s K may v := by
  obtain ⟨⟨f, shows, same⟩, bb, sp⟩ := h
  obtain ⟨f', shows', same'⟩ := hf f shows
  exact ⟨⟨f', shows', fun pa h => (same' pa h).trans (same pa h)⟩, (congrArg (fun x => x.2.2.2.1) hb).trans bb,
    fun n off => (ht n off).trans (sp n off)⟩

theorem KeptGlobal.setFe (h : KeptGlobal s K may u) (loc : Loc) (full : Bool) : KeptGlobal s K may (u.setFe loc full) :=
  h.next (fun f hf => ⟨f, hf.setFe loc full, fun _ _ => rfl⟩) (State.setFe_around ..) fun n off => spByte_setFe ..

theorem State.MemOnly.spByte (h : u.MemOnly v) (n off : Nat) : spByte v n off = spByte u n off := spByte_congr (by rw [h]) n off

theorem KeptGlobal.readLoc (h : KeptGlobal s K may u) {loc : Loc} {n : Nat} (hn : 0 < n) (hk : u.PlaceUnder K loc n) (m : Nat) :
    KeptGlobal s K may (u.readLoc loc m).1 :=
  h.next (fun f hf => ⟨f, hf.readLoc hn hk m, fun _ _ => rfl⟩) (u.readLoc_memOnly loc m).around (u.readLoc_memOnly loc m).spByte

theorem KeptGlobal.toPort (h : KeptGlobal s K may u) (loc : Loc) : KeptGlobal s K may (u.toPort loc) :=
  h.next (fun f hf => ⟨f, hf.toPort loc, fun _ _ => rfl⟩) (u.toPort_memOnly loc).around (u.toPort_memOnly loc).spByte

theorem KeptGlobal.writeLoc (h : KeptGlobal s K may u) {pa : Nat} {x : Xlat} {bs : List Byte} (hb : 0 < bs.length)
    (hk : u.PlaceUnder K (.gl pa x) bs.length) (hm : ∀ a, pa ≤ a → a < pa + bs.length → may a) : KeptGlobal s K may (u.writeLoc (.gl pa x) bs) :=
  h.next (fun f hf => ⟨_, hf.writeLoc hb hk, fun a ha => if_neg fun r => ha (hm a r.1 r.2)⟩) (u.writeLoc_memOnly pa x bs).around
    (u.writeLoc_memOnly pa x bs).spByte

/-- A load's access. -/
theorem KeptGlobal.perform_load (h : KeptGlobal s K may u) {n d : Nat} {sg fe clr : Bool} {z : Space} {addr : PerLane Dword} {l : Fin 32}
    {loc : Loc} (hn : 0 < n) (hk : u.PlaceUnder K loc n) : KeptGlobal s K may (u.perform (.load n sg z d fe clr addr) l loc).1 := by
  have read := h.readLoc hn hk n
  dsimp only [State.perform]
  split
  · exact read.setFe loc false
  · exact read

/-- A store's access of global memory. -/
theorem KeptGlobal.perform_store (h : KeptGlobal s K may u) {n pa : Nat} {fe : Bool} {z : Space} {addr : PerLane Dword}
    {data : PerLane (BitVec 128)} {l : Fin 32} {x : Xlat} (hn : 0 < n) (hk : u.PlaceUnder K (.gl pa x) n)
    (hm : ∀ a, pa ≤ a → a < pa + n → may a) : KeptGlobal s K may (u.perform (.store n z fe addr data) l (.gl pa x)).1 := by
  have written := h.writeLoc (pa := pa) (x := x) (bs := toBytes n data[l].toNat) (by rwa [toBytes_length]) (by rwa [toBytes_length])
    (by rwa [toBytes_length])
  cases fe
  · exact written
  · exact written.setFe (.gl pa x) true

/-- A read-modify-write of global memory, at its host port where it is made there. -/
theorem KeptGlobal.modify (h : KeptGlobal s K may u) {n pa : Nat} {x : Xlat} {sys : Bool} (hn : 0 < n) (hk : u.PlaceUnder K (.gl pa x) n)
    (hm : ∀ a, pa ≤ a → a < pa + n → may a) (g : List Byte → Nat) :
    KeptGlobal s K may (((if sys then u.toPort (.gl pa x) else u).readLoc (portLoc sys (.gl pa x)) n).1.writeLoc (portLoc sys (.gl pa x))
      (toBytes n (g ((if sys then u.toPort (.gl pa x) else u).readLoc (portLoc sys (.gl pa x)) n).2))) := by
  have ready : KeptGlobal s K may (if sys then u.toPort (.gl pa x) else u) ∧ (if sys then u.toPort (.gl pa x) else u).ctl = u.ctl := by
    split
    · exact ⟨h.toPort _, (u.toPort_memOnly _).ctl⟩
    · exact ⟨h, rfl⟩
  generalize (if sys then u.toPort (.gl pa x) else u) = v at ready ⊢
  obtain ⟨kept, ctl⟩ := ready
  have under : v.PlaceUnder K (portLoc sys (.gl pa x)) n := (hk.congr ctl).portLoc sys
  obtain ⟨y, e⟩ : ∃ y, portLoc sys (.gl pa x) = .gl pa y := by
    rw [portLoc]
    split <;> exact ⟨_, rfl⟩
  rw [e] at under ⊢
  have read := kept.readLoc hn under n
  refine read.writeLoc ?_ ?_ ?_ <;> rw [toBytes_length]
  · exact hn
  · exact under.congr (v.readLoc_memOnly (.gl pa y) n).ctl
  · exact hm

theorem KeptGlobal.perform_atom (h : KeptGlobal s K may u) {fn : AtomFn} {n pa d : Nat} {z : Space} {sys ord rt : Bool}
    {addr y y' : PerLane Dword} {l : Fin 32} {x : Xlat} (hn : 0 < n) (hk : u.PlaceUnder K (.gl pa x) n)
    (hm : ∀ a, pa ≤ a → a < pa + n → may a) : KeptGlobal s K may (u.perform (.atom fn n z sys ord rt d addr y y') l (.gl pa x)).1 :=
  h.modify hn hk hm fun bs => fn.apply (8 * n) (ofBytes bs) y[l].toNat y'[l].toNat

theorem KeptGlobal.perform_aadd (h : KeptGlobal s K may u) {pa : Nat} {z : Space} {sys i32 : Bool} {addr : PerLane Dword}
    {term : PerLane Word} {l : Fin 32} {x : Xlat} (hk : u.PlaceUnder K (.gl pa x) 16)
    (hm : ∀ a, pa ≤ a → a < pa + 16 → may a) : KeptGlobal s K may (u.perform (.aadd z sys i32 addr term) l (.gl pa x)).1 :=
  h.modify (Nat.succ_pos 15) hk hm fun bs => aaddCell i32 (ofBytes bs) term[l]

end

/-! ### Translations that the core holds -/

/-- All that a translation that the core holds depends on. -/
def State.tables (s : State) := (s.tlb, s.kernels, s.ports, s.ctl)

theorem State.tables_of_around {s t : State} (h : t.around = s.around) : t.tables = s.tables :=
  congrArg (fun x => (x.2.2.1, x.2.1, x.2.2.2.2.1, x.2.2.2.2.2)) h

/-- A translation that changes nothing is one that the TLB holds. -/
theorem State.xlat_held {s : State} {n c va : Nat} {x : Xlat} (h : s.xlat (some n) c va = (s, .ok x)) :
    ∃ e, (s.tlb.find? fun e => e.core = n && e.ctx = c && va / e.x.size = e.va / e.x.size) = some e ∧ e.x = x := by
  unfold State.xlat at h
  extract_lets walk at h
  clear_value walk
  cases hf : s.tlb.find? fun e => e.core = n && e.ctx = c && va / e.x.size = e.va / e.x.size with
  | some e =>
    simp only [hf, Prod.mk.injEq, Except.ok.injEq, true_and] at h
    exact ⟨e, rfl, h⟩
  | none =>
    cases walk with
    | error f => simp [hf] at h
    | ok y =>
      simp only [hf, Prod.mk.injEq] at h
      have tlb := congrArg State.tlb h.1
      have mem : (⟨n, c, va / y.size * y.size, y⟩ : TlbEntry) ∈ s.tlb := by
        rw [← tlb]
        simp
      have missed := List.find?_eq_none.mp hf _ mem
      refine absurd ?_ missed
      have round : va / y.size = va / y.size * y.size / y.size := by
        rcases Nat.eq_zero_or_pos y.size with h0 | h0
        · rw [h0, Nat.div_zero, Nat.div_zero]
        · rw [Nat.mul_div_cancel _ h0]
      simp [← round]

theorem State.xlat_stays {s u : State} {n c va : Nat} {x : Xlat} (h : s.xlat (some n) c va = (s, .ok x)) (e : u.tlb = s.tlb) :
    u.xlat (some n) c va = (u, .ok x) := by
  obtain ⟨y, hy, rfl⟩ := State.xlat_held h
  unfold State.xlat
  simp only [e, hy]

/-- The checks of a global access that follow its translation, and its place (R159). -/
def State.judge (s : State) (u : Who) (r : Req) (ea : Nat) (x : Xlat) : Except (Nat × Nat) Loc :=
  let pa := x.pa + ea % x.size
  if !s.paOk pa then .error (cPAGE, 3)
  else if !x.permits r.acc then .error (cPROT, 1)
  else if r.noPort && behindPort pa then .error (cPROT, 5)
  else
    match (s.kernels[u.kernel]?).bind fun k => k.rangeFault ea r.bytes r.acc with
    | some f => .error f
    | none => .ok (.gl pa { x with owner := some u.owner })

theorem State.locateGl_of_ok {s v : State} {u : Who} {r : Req} {ea : Nat} {x : Xlat} (h : s.xlat u.core u.ctx ea = (v, .ok x)) :
    s.locateGl u r ea = (v, v.judge u r ea x) := by
  unfold State.locateGl State.judge
  simp only [h]
  split
  · rfl
  · split
    · rfl
    · split
      · rfl
      · cases (v.kernels[u.kernel]?).bind fun k => k.rangeFault ea r.bytes r.acc <;> rfl

theorem State.judge_congr {s t : State} (hp : t.ports = s.ports) (hk : t.kernels = s.kernels) : t.judge = s.judge := by
  have paOk : t.paOk = s.paOk := by
    funext p
    unfold State.paOk State.poolSize
    rw [hp]
  funext u r ea x
  rw [State.judge, State.judge, paOk, hk]

theorem State.locateGl_stays {s u : State} {w : Who} {r : Req} {ea : Nat} {loc : Loc} (hw : w.core.isSome)
    (h : s.locateGl w r ea = (s, .ok loc)) (e : u.tables = s.tables) : u.locateGl w r ea = (u, .ok loc) := by
  obtain ⟨tlb, kernels, ports, -⟩ : u.tlb = s.tlb ∧ u.kernels = s.kernels ∧ u.ports = s.ports ∧ u.ctl = s.ctl := by
    simpa [State.tables] using e
  obtain ⟨n, hn⟩ := Option.isSome_iff_exists.mp hw
  have first : (s.xlat w.core w.ctx ea).1 = s := by rw [← s.locateGl_fst w r, h]
  cases hx : (s.xlat w.core w.ctx ea).2 with
  | error f =>
    rw [State.locateGl, show s.xlat w.core w.ctx ea = (s, .error f) from Prod.ext first hx] at h
    cases h
  | ok x =>
    have found : s.xlat w.core w.ctx ea = (s, .ok x) := Prod.ext first hx
    rw [State.locateGl_of_ok found] at h
    have judged : s.judge w r ea x = .ok loc := congrArg Prod.snd h
    have held : u.xlat w.core w.ctx ea = (u, .ok x) := by
      rw [hn] at found ⊢
      exact State.xlat_stays found tlb
    rw [State.locateGl_of_ok held, State.judge_congr ports kernels, judged]

/-- A place of global memory is one that the checks of a canonical address find. -/
theorem State.locate_gl {s v : State} {w : Who} {r : Req} {ea : Dword} {q : Nat} {y : Xlat} (h : s.locate w r ea = (v, .ok (.gl q y))) :
    ∀ u : State, u.locate w r ea = u.locateGl w r ea.toNat := by
  unfold State.locate at h ⊢
  dsimp only at h ⊢
  split at h
  · cases h
  · rename_i ha
    split at h
    · rename_i hs
      split at h
      · cases h
      · rename_i hc
        intro u
        rw [if_neg ha]
        exact if_neg hc
    · split at h <;> cases h
    · split at h <;> cases h

/-- A check that changes nothing and finds a place of global memory finds it while translations, kernels and ports stand. -/
theorem State.locate_stays {s u : State} {w : Who} {r : Req} {ea : Dword} {q : Nat} {y : Xlat} (hw : w.core.isSome)
    (h : s.locate w r ea = (s, .ok (.gl q y))) (e : u.tables = s.tables) : u.locate w r ea = (u, .ok (.gl q y)) := by
  have gl := State.locate_gl h
  rw [gl s] at h
  rw [gl u]
  exact State.locateGl_stays hw h e

/-! ### What the accesses of an operation on global memory keep -/

/-- The accesses of an operation keep a memory that every access sees alike: while the tables stand as `T` says the check of every lane's
address leaves them so, and the access at the place that it finds changes only bytes that it may. -/
structure KeepsGlobal (s : State) (K : Nat → List Byte) (may : Nat → Prop) (w : Who) (k : OpKind) (ls : Lanes) (T : State → Prop) : Prop where
  tables : ∀ u v : State, v.tables = u.tables → T u → T v
  checks : ∀ (u : State) (l : Fin 32) r addr, T u → ls.getLsbD l = true → k.req = some (r, addr) → T (u.locate w r addr[l]).1
  access : ∀ (u v : State) (l : Fin 32) r addr loc, T u → ls.getLsbD l = true → k.req = some (r, addr) →
    u.locate w r addr[l] = (v, .ok loc) → KeptGlobal s K may v → KeptGlobal s K may (v.perform k l loc).1

section
variable {s : State} {K : Nat → List Byte} {may : Nat → Prop} {w : Who} {k : OpKind} {ls : Lanes} {T : State → Prop}
  (hk : KeepsGlobal s K may w k ls T)
include hk

theorem KeepsGlobal.tryLane {u : State} {gi id : Nat} {o : Op} {l : Fin 32} {check : Bool} (h : KeptGlobal s K may u ∧ T u)
    (running : u.Running gi w id k ls) (ho : o.kind = k) (hl : ls.getLsbD l = true) :
    KeptGlobal s K may (u.tryLane gi o l check).1 ∧ T (u.tryLane gi o l check).1 := by
  obtain ⟨kept, tabs⟩ := h
  have checked (r : Req) (ea : Dword) : KeptGlobal s K may (u.locate w r ea).1 := by
    obtain ⟨e, he⟩ := u.locate_eq w r ea
    rw [he]
    exact keptGlobal_ofStored s K may u _ rfl kept
  refine State.tryLane_induct (P := fun v => KeptGlobal s K may v ∧ T v) ⟨kept, tabs⟩ (fun r addr hr => ?_) fun r addr v loc hr e => ?_
  all_goals rw [ho] at hr
  · rw [running.who]
    exact ⟨checked r addr[l], hk.checks u l r addr tabs hl hr⟩
  · rw [running.who] at e
    have here := checked r addr[l]
    have there := hk.checks u l r addr tabs hl hr
    rw [e] at here there
    rw [ho]
    exact ⟨hk.access u v l r addr loc tabs hl hr e here, hk.tables v _ (State.tables_of_around (v.perform_around k l loc)) there⟩

end

theorem State.advance_tables (s : State) : s.advance.tables = s.tables := by
  have tlb : s.advance.tlb = s.tlb := by unfold State.advance; split <;> rfl
  have ports : s.advance.ports = s.ports := by unfold State.advance; split <;> rfl
  have ctl : s.advance.ctl = s.ctl := by unfold State.advance; split <;> rfl
  rw [State.tables, tlb, ports, ctl, State.advance_kernels, State.tables]

/-- The operation that a word starts, where its accesses are made as the lanes' turns come. -/
theorem KeepsGlobal.startMem {s : State} {h : Hdr} {K : Nat → List Byte} {may : Nat → Prop} {k : OpKind} {T : State → Prop} {cls : Cls}
    {run : List Nat} (hk : KeepsGlobal s K may (s.whoOf (s.grp s.iss.gi)) k (wctx h s).lanes T) (hs : s.ShowsAll K (plainByte s)) (hT : T s)
    (hn : ∀ o ∈ (s.grp s.iss.gi).ops, o.id < (s.grp s.iss.gi).nextOp) (ho : k.ordered = false) :
    KeptGlobal s K may (s.advance.startMem (wctx h s) cls k run) := by
  have closed := keptGlobal_ofStored s K may
  exact State.startMem_advance_keeps (P := fun u => KeptGlobal s K may u ∧ T u)
    (fun u gi f hu => ⟨closed u _ rfl hu.1, hk.tables u _ rfl hu.2⟩) closed (fun _ hu => hu.1)
    (fun u o l check hu running hkind hl => hk.tryLane hu running hkind hl) hn ho
    ⟨closed s _ s.advance_stored (keptGlobal_refl hs), hk.tables s _ s.advance_tables hT⟩

/-! ### Loads (R162, R167) -/

theorem loadWord_kept {s : State} {h : Hdr} {mode : BitVec 2} {d a b : BitVec 6} {n : Nat} {sg fe clr : Bool} {K : Nat → List Byte}
    {T : State → Prop} (hs : s.ShowsAll K (plainByte s)) (hnum : ∀ o ∈ (s.grp s.iss.gi).ops, o.id < (s.grp s.iss.gi).nextOp) (hn : 0 < n)
    (hT : T s) (tables : ∀ u v : State, v.tables = u.tables → T u → T v)
    (place : ∀ (u : State) (l : Fin 32), T u → (wctx h s).lanes.getLsbD l = true →
      T (u.locate (s.whoOf (s.grp s.iss.gi)) { space := spaceOf mode, bytes := n, acc := .r } (addrOf (wctx h s) h mode a b)[l]).1
      ∧ ∀ v loc, u.locate (s.whoOf (s.grp s.iss.gi)) { space := spaceOf mode, bytes := n, acc := .r } (addrOf (wctx h s) h mode a b)[l]
        = (v, .ok loc) → v.PlaceUnder K loc n) :
    KeptGlobal s K (fun _ => False) (loadWord h mode d a b n sg fe clr s) := by
  refine word_leaves (keptGlobal_ofStored s K _) (keptGlobal_refl hs) ?_
  split
  · trivial
  · refine KeepsGlobal.startMem (T := T) ⟨tables, fun u l r addr hu hl hr => ?_, fun u v l r addr loc hu hl hr e kept => ?_⟩ hs hT hnum rfl
    · cases hr
      exact (place u l hu hl).1
    · cases hr
      exact kept.perform_load hn ((place u l hu hl).2 v loc e)

end
end Sys2Proof.Machine
end

