-- ==== Sys2Proof/Proofs/Loads.lean ====
section
/-! PROOFS. Loads change no byte (R162, R167): O20. -/
namespace Sys2Proof.Machine
open Sys2Proof.Claims

noncomputable section

/-! ### Loads leave the boarding buffers and the scratchpads -/

/-- The boarding buffers and the scratchpads stand. -/
def KeptBuffers (s u : State) : Prop := u.bb = s.bb ∧ ∀ n off, spByte u n off = spByte s n off

theorem keptBuffers_ofStored (s : State) : OfStored (KeptBuffers s) := by
  rintro u v e ⟨bb, sp⟩
  exact ⟨(congrArg (fun x => x.1.2.1) e).trans bb, fun n off => (spByte_of_stored e n off).trans (sp n off)⟩

theorem keptBuffers_refl (s : State) : KeptBuffers s s := ⟨rfl, fun _ _ => rfl⟩

theorem KeptBuffers.perform_load {s u : State} (h : KeptBuffers s u) {n d : Nat} {sg fe clr : Bool} {z : Space} {addr : PerLane Dword}
    (l : Fin 32) (loc : Loc) : KeptBuffers s (u.perform (.load n sg z d fe clr addr) l loc).1 := by
  obtain ⟨bb, sp⟩ := h
  have read := u.readLoc_memOnly loc n
  have around := u.perform_around (.load n sg z d fe clr addr) l loc
  refine ⟨(congrArg (fun x => x.2.2.2.1) around).trans bb, fun m off => Eq.trans ?_ ((read.spByte m off).trans (sp m off))⟩
  dsimp only [State.perform]
  split
  · exact spByte_setFe ..
  · rfl

theorem loadWord_keptBuffers {s : State} {h : Hdr} {mode : BitVec 2} {d a b : BitVec 6} {n : Nat} {sg fe clr : Bool}
    (hn : ∀ o ∈ (s.grp s.iss.gi).ops, o.id < (s.grp s.iss.gi).nextOp) : KeptBuffers s (loadWord h mode d a b n sg fe clr s) := by
  have closed := keptBuffers_ofStored s
  refine word_leaves closed (keptBuffers_refl s) ?_
  split
  · trivial
  · refine State.startMem_advance_keeps (P := KeptBuffers s) (fun u gi f hu => closed u _ rfl hu) closed (fun _ hu => hu) ?_ hn rfl
      (closed s _ s.advance_stored (keptBuffers_refl s))
    intro u o l check hu running hk _
    have checked (r : Req) (w : Who) (ea : Dword) : KeptBuffers s (u.locate w r ea).1 := by
      obtain ⟨e, he⟩ := u.locate_eq w r ea
      rw [he]
      exact closed u _ rfl hu
    refine State.tryLane_induct (P := KeptBuffers s) hu (fun r addr _ => checked ..) fun r addr v loc _ e => ?_
    have here := checked r (u.whoOf (u.grp s.iss.gi)) addr[l]
    rw [e] at here
    rw [hk]
    exact here.perform_load l loc

/-! ### Where a load's place may lie -/

theorem State.locate_space {s v : State} {w : Who} {r : Req} {ea : Dword} {q : Nat} {y : Xlat} (h : s.locate w r ea = (v, .ok (.gl q y))) :
    r.space = .gl := by
  unfold State.locate at h
  dsimp only at h
  split at h
  · cases h
  · split at h
    · assumption
    · split at h <;> cases h
    · split at h <;> cases h

theorem spaceOf_gl {mode : BitVec 2} (h1 : mode ≠ 1#2) (h2 : mode ≠ 2#2) : spaceOf mode = .gl := by rw [spaceOf, if_neg h1, if_neg h2]

theorem spaceOf_ne_gl {mode : BitVec 2} (h : mode = 1#2 ∨ mode = 2#2) : spaceOf mode ≠ .gl := by
  obtain rfl | rfl := h <;> decide

theorem State.locate_ctl (u : State) (w : Who) (r : Req) (ea : Dword) : (u.locate w r ea).1.ctl = u.ctl := by
  obtain ⟨e, he⟩ := u.locate_eq w r ea
  rw [he]

theorem State.ctl_of_locate {u v : State} {w : Who} {r : Req} {ea : Dword} {x : Except (Nat × Nat) Loc} (h : u.locate w r ea = (v, x)) :
    v.ctl = u.ctl := by
  rw [← u.locate_ctl w r ea, h]

theorem State.ctl_of_tables {u v : State} (h : v.tables = u.tables) : v.ctl = u.ctl := congrArg (fun x => x.2.2.2) h

/-- The range of an access under a key pair is under it line by line. -/
theorem UnderKey.place {s : State} {q n : Nat} {y : Xlat} (h : UnderKey s (s.keyOf y.key) q n) : s.PlaceUnder (lineKey s) (.gl q y) n := by
  intro q' y' e p h1 h2
  cases e
  obtain ⟨i, rfl⟩ := Nat.exists_eq_add_of_le h1
  exact h i (by omega)

theorem bytes_pos_of_mem_loads : ∀ x ∈ loads, 0 < x.1 := by decide

section
variable {s : State} {h : Hdr} {mode : BitVec 2} {d a b : BitVec 6} {n : Nat} {sg fe clr : Bool} (hs : SoundLines s) (hn : 0 < n)
  (hnum : ∀ o ∈ (s.grp s.iss.gi).ops, o.id < (s.grp s.iss.gi).nextOp)
include hs hn hnum

/-- Where nothing is enciphered a load shows every byte as before, whatever its addresses. -/
theorem loadWord_physByte (hm : s.memKeys = []) (hk : ∀ k, s.keyOf k = []) (pa : Nat) :
    (loadWord h mode d a b n sg fe clr s).physByte pa = s.physByte pa := by
  have plain : lineKey s = fun _ => [] := by
    funext line
    rw [lineKey, State.memKey, hm]
    split
    · exact hk _
    · rfl
  have all := showsAll_of_soundLines hs
  rw [plain] at all
  have kept : KeptGlobal s (fun _ => []) (fun _ => False) (loadWord h mode d a b n sg fe clr s) := by
    refine loadWord_kept (T := fun u => u.ctl = s.ctl) all hnum hn rfl (fun u v e hu => (State.ctl_of_tables e).trans hu) fun u l hu _ =>
      ⟨(State.locate_ctl ..).trans hu, fun v loc e q y _ p _ _ => .inr ?_⟩
    rw [State.keyOf_congr ((State.ctl_of_locate e).trans hu), hk]
  obtain ⟨⟨f, shows, same⟩, -, -⟩ := kept
  exact ((shows.shows pa).plainByte.2.trans (same pa not_false)).trans (all.shows pa).plainByte.2.symm

/-- A load whose lines stand under the key pairs of their pages shows every byte as before. -/
theorem loadWord_plainByte (hl : mode = 1#2 ∨ mode = 2#2
      ∨ Lands s { space := .gl, bytes := n, acc := .r } (wctx h s).lanes (addrOf (wctx h s) h mode a b)) (pa : Nat) :
    plainByte (loadWord h mode d a b n sg fe clr s) pa = plainByte s pa := by
  have all := showsAll_of_soundLines hs
  have kept : KeptGlobal s (lineKey s) (fun _ => False) (loadWord h mode d a b n sg fe clr s) := by
    by_cases hm : mode = 1#2 ∨ mode = 2#2
    · refine loadWord_kept (T := fun _ => True) all hnum hn trivial (fun _ _ _ _ => trivial) fun u l _ _ =>
        ⟨trivial, fun v loc e q y he => ?_⟩
      rw [he] at e
      exact absurd (State.locate_space e) (spaceOf_ne_gl hm)
    · have lands : Lands s { space := .gl, bytes := n, acc := .r } (wctx h s).lanes (addrOf (wctx h s) h mode a b) := by tauto
      refine loadWord_kept (T := fun u => u.tables = s.tables) all hnum hn rfl (fun u v e hu => e.trans hu) fun u l hu hl => ?_
      obtain ⟨q, y, found, under⟩ := lands l hl
      rw [spaceOf_gl (fun e => hm (.inl e)) fun e => hm (.inr e), State.locate_stays rfl found hu]
      refine ⟨hu, fun v loc e => ?_⟩
      cases e
      exact (UnderKey.place under).congr (State.ctl_of_tables hu)
  obtain ⟨⟨f, shows, same⟩, -, -⟩ := kept
  exact (shows.plainByte pa).trans (same pa not_false)

end

/-- Settles O20: the accesses of a load keep what every access sees of memory. -/
theorem loadFrame : Obligations.LoadFrame := by
  unfold Obligations.LoadFrame
  intro x hx h mode d a b s t hs hnum he
  rw [exec_of_mem_loads x hx] at he
  cases he
  have hn := bytes_pos_of_mem_loads x hx
  obtain ⟨bb, sp⟩ := loadWord_keptBuffers (h := h) (mode := mode) (d := d) (a := a) (b := b) (n := x.1) (sg := x.2.1) (fe := x.2.2.1)
    (clr := x.2.2.2.1) hnum
  exact ⟨loadWord_physByte hs hn hnum, loadWord_plainByte hs hn hnum, bb, sp⟩

end
end Sys2Proof.Machine
end

