-- ==== Sys2Proof/Proofs/OrderedAtomics.lean ====
section
/-! PROOFS. Accesses of ordered atomics (R189, R192). -/
namespace Sys2Proof.Machine
open Sys2Proof.Claims

noncomputable section

/-! ### Faults leave the operations of a group -/

theorem State.still_ops (s : State) (gi : Nat) : (s.still.grp gi).ops = (s.grp gi).ops := by
  rw [State.grp, State.grp, List.getD_eq_getElem?_getD, List.getD_eq_getElem?_getD,
    show s.still.groups[gi]? = (s.groups[gi]?).map Group.still from List.getElem?_map ..]
  cases s.groups[gi]? <;> rfl

theorem State.ops_of_still {s t : State} (h : t.still = s.still) (gi : Nat) : (t.grp gi).ops = (s.grp gi).ops := by
  rw [← t.still_ops, h, s.still_ops]

theorem Group.markBy_ops (g : Group) (ls : Lanes) (pc : Word) (setRpc torn : Bool) (fcs : Fin 32 → Word) (addr : Fin 32 → Dword) :
    (g.markBy ls pc setRpc torn fcs addr).ops = g.ops := Group.onLanes_ops ..

section
variable (s : State) (gi : Nat)

theorem State.noteTile_ops (ls : Lanes) (fcs : Fin 32 → Word) (addr : Fin 32 → Dword) (notes : List TileNote) :
    ((s.noteTile gi ls fcs addr notes).grp gi).ops = (s.grp gi).ops := by
  unfold State.noteTile
  split
  · rfl
  · exact State.grp_onGrp_same Group.ops rfl gi

theorem State.handlerFault_ops (fs : List LaneFault) (pc : Word) (notes : List TileNote) :
    ((s.handlerFault gi fs pc notes).grp gi).ops = (s.grp gi).ops := by
  unfold State.handlerFault
  split
  · rfl
  · split
    · rfl
    · exact State.ops_of_still (State.fallHandler_still ..) gi

theorem State.markLanes_ops (gone : Lanes) (pc : Word) (replayAt torn : Bool) (ls : Lanes) (fcs : Fin 32 → Word)
    (addr : Fin 32 → Dword) (notes : List TileNote) : ((s.markLanes gi gone pc replayAt torn ls fcs addr notes).grp gi).ops = (s.grp gi).ops := by
  unfold State.markLanes
  extract_lets g old new s1 s2 iss s3 s4
  have h1 : (s1.grp gi).ops = (s.grp gi).ops :=
    State.grp_onGrp_same (f := fun x => x.markBy new pc replayAt torn fcs addr) Group.ops (Group.markBy_ops ..) gi
  have h2 : (s2.grp gi).ops = (s1.grp gi).ops := by
    simp only [s2]
    split
    · exact State.grp_onGrp_same Group.ops (Group.onLanes_ops ..) gi
    · rfl
  have h3 : (s3.grp gi).ops = (s2.grp gi).ops := by
    simp only [s3]
    split <;> rfl
  have h4 : (s4.grp gi).ops = (s3.grp gi).ops := State.noteTile_ops ..
  split <;> exact h4.trans (h3.trans (h2.trans h1))

theorem State.deferMain_ops (ls : Lanes) (pc : Word) (replayAt torn : Bool) (fcs : Fin 32 → Word) (addr : Fin 32 → Dword)
    (notes : List TileNote) : ((s.deferMain gi ls pc replayAt torn fcs addr notes).grp gi).ops = (s.grp gi).ops := by
  unfold State.deferMain
  dsimp only
  split
  · split
    · exact State.markLanes_ops ..
    · exact (State.grp_onGrp_same Group.ops rfl gi).trans (State.markLanes_ops ..)
  · exact State.markLanes_ops ..

theorem State.deferAll_ops (pc : Word) (hm replayAt : Bool) (fs : List LaneFault) (notes : List TileNote) (torn : Bool) :
    ((s.deferAll gi pc hm replayAt fs notes torn).grp gi).ops = (s.grp gi).ops := by
  unfold State.deferAll
  split
  · rfl
  · split
    · exact State.handlerFault_ops ..
    · exact State.deferMain_ops ..

end

/-! ### Ordered atomics whose group holds the token (R189) -/

theorem mem_ordLanes {g : Group} {o : Op} {l : Fin 32} (h : l ∈ g.ordLanes o) : o.todo.getLsbD l = true := by
  unfold Group.ordLanes at h
  split at h
  · rw [mem_lanesOf, BitVec.getLsbD_and, Bool.and_eq_true] at h
    exact h.1
  · exact mem_lanesOf.mp h

theorem State.tryLane_grp (s : State) (gi : Nat) (o : Op) (l : Fin 32) (b : Bool) (j : Nat) : (s.tryLane gi o l b).1.grp j = s.grp j := by
  refine State.tryLane_induct (P := fun u => u.grp j = s.grp j) rfl (fun r addr _ => ?_) fun r addr u loc _ e => ?_
  · obtain ⟨e, he⟩ := s.locate_eq (s.whoOf (s.grp gi)) r addr[l]
    rw [he]
    rfl
  · obtain ⟨e', he⟩ := s.locate_eq (s.whoOf (s.grp gi)) r addr[l]
    rw [e] at he
    rw [State.grp_of_around (u.perform_around o.kind l loc), show u = _ from he]
    rfl

/-- No ordered atomic of a group but one operation has a lane to apply. -/
def Group.OrdersOnly (g : Group) (id : Nat) : Prop := ∀ o ∈ g.ops, o.id ≠ id → o.kind.ordered = true → o.todo = 0#32

/-- No ordered atomic of a group has a lane to apply. -/
def Group.OrdersNone (g : Group) : Prop := ∀ o ∈ g.ops, o.kind.ordered = true → o.todo = 0#32

theorem Group.nextOrd_of_ordersNone {g : Group} (h : g.OrdersNone) : g.nextOrd = none := by
  rw [Group.nextOrd, List.find?_eq_none]
  intro o ho
  cases hk : o.kind.ordered
  · simp
  · simp [h o ho hk]

theorem Group.OrdersOnly.onOp {g : Group} {id n : Nat} {f : Op → Op} (h : g.OrdersOnly id) (hf : Op.Shrinks f) : (g.onOp n f).OrdersOnly id := by
  intro o ho hne hk
  obtain ⟨p, hp, ⟨-, rfl⟩ | ⟨-, rfl⟩⟩ := mem_onOp ho
  · rw [hf.id] at hne
    rw [hf.kind] at hk
    obtain ⟨m, hm⟩ := hf.todo p
    rw [hm, h p hp hne hk, BitVec.zero_and]
  · exact h _ hp hne hk

/-- The operation stopped, no ordered atomic has a lane to apply. -/
theorem Group.OrdersOnly.stop {g : Group} {id : Nat} (h : g.OrdersOnly id) : (g.onOp id fun o => { o with todo := 0 }).OrdersNone := by
  intro o ho hk
  obtain ⟨p, hp, ⟨-, rfl⟩ | ⟨hne, rfl⟩⟩ := mem_onOp ho
  · rfl
  · exact h _ hp hne hk

section
variable {gi : Nat} {w : Who} {id : Nat} {k : OpKind} {ls : Lanes} {P Q : State → Prop}
  (hgrp : ∀ u gi f, P u → P (u.onGrp gi f)) (hQ : OfStored Q) (hPQ : ∀ u, P u → Q u)
  (htry : ∀ u o (l : Fin 32) b, P u → u.Running gi w id k ls → o.kind = k → ls.getLsbD l = true → P (u.tryLane gi o l b).1)

/-- A state whose group applies one ordered atomic, or has none to apply any more. -/
def Applying (gi : Nat) (w : Who) (id : Nat) (k : OpKind) (ls : Lanes) (P Q : State → Prop) (u : State) : Prop :=
  (P u ∧ u.Running gi w id k ls ∧ (u.grp gi).OrdersOnly id) ∨ (Q u ∧ (u.grp gi).OrdersNone)

theorem State.ordAbort_stored (s : State) (gi : Nat) (o : Op) (l : Fin 32) (cause detail : Nat) :
    (s.ordAbort gi o l cause detail).stored = s.stored := (State.deferAll_stored ..).trans (State.onGrp_stored ..)

theorem State.ordAbort_ordersNone {s : State} {o : Op} (h : (s.grp gi).OrdersOnly o.id) (l : Fin 32) (cause detail : Nat) :
    ((s.ordAbort gi o l cause detail).grp gi).OrdersNone := by
  unfold State.ordAbort
  dsimp only
  rw [Group.OrdersNone, State.deferAll_ops]
  by_cases hl : gi < s.groups.length
  · rw [s.grp_onGrp gi _ hl]
    exact h.stop
  · rw [State.onGrp, State.setGrp, List.set_eq_of_length_le (Nat.le_of_not_lt hl), show s.grp gi = Group.blank by simp [State.grp, hl],
      show Group.blank.ops = [] from rfl]
    exact fun o ho => absurd ho List.not_mem_nil

include hgrp hQ hPQ htry

theorem Applying.ordStep {u : State} (h : Applying gi w id k ls P Q u) : Applying gi w id k ls P Q (u.ordStep gi).1 := by
  obtain ⟨hp, running, only⟩ | ⟨hq, none_left⟩ := h
  · unfold State.ordStep
    dsimp only
    split
    · exact .inl ⟨hp, running, only⟩
    · rename_i o hn
      have ho := List.mem_of_find?_eq_some hn
      have found := List.find?_some hn
      simp only [Bool.and_eq_true, decide_eq_true_eq] at found
      obtain ⟨⟨hord, htodo⟩, -⟩ := found
      have oid : o.id = id := by
        by_contra hne
        exact htodo (only o ho hne hord)
      obtain ⟨hk, hl⟩ := running.runs o ho oid
      split
      · exact .inl ⟨hp, running, only⟩
      · split
        · exact .inl ⟨hp, running, only⟩
        · rename_i l rest hlanes
          have hlane : ls.getLsbD l = true := hl l (mem_ordLanes (hlanes ▸ List.mem_cons_self))
          split
          · exact .inl ⟨hp, running, only⟩
          · have tried := htry u o l false hp running hk hlane
            have running' := running.tryLane o l false
            have only' : ((u.tryLane gi o l false).1.grp gi).OrdersOnly id := by rwa [State.tryLane_grp]
            split
            · rename_i e
              rw [e] at tried running' only'
              exact .inl ⟨tried, running', only'⟩
            · rename_i v cause detail e
              rw [e] at tried running' only'
              exact .inr ⟨hQ v _ (State.ordAbort_stored ..) (hPQ v tried), State.ordAbort_ordersNone (by rwa [oid]) l cause detail⟩
            · rename_i v cause detail e
              rw [e] at tried running' only'
              exact .inr ⟨hQ v _ (State.ordAbort_stored ..) (hPQ v tried), State.ordAbort_ordersNone (by rwa [oid]) l cause detail⟩
            · rename_i v d _ _ _ e
              rw [e] at tried running' only'
              have shrinks := Op.shrinks_lane l (fun o => o.ea l) d
              dsimp only
              refine .inl ⟨hgrp _ _ _ tried, running'.onGrp rfl (running'.runs.onOp shrinks), ?_⟩
              obtain e | e := v.grp_onGrp_or gi fun g => { g.onOp o.id (fun o => o.lane l (o.ea l) d) with
                redo := if o.pc == g.redoPc then g.redo &&& ~~~(lane1 l) else g.redo } <;> rw [e]
              · exact only'.onOp shrinks
              · exact only'
  · refine .inr ?_
    rw [State.ordStep, Group.nextOrd_of_ordersNone none_left]
    exact ⟨hq, none_left⟩

end

/-! ### An ordered atomic begins -/

section
variable {s : State} {c : Wctx} {cls : Cls} {k : OpKind} {run : List Nat}

theorem State.begun_ordersOnly (hn : ∀ o ∈ (s.grp c.gi).ops, o.kind.ordered = true → o.todo = 0#32) :
    ((s.begun c cls k run).grp c.gi).OrdersOnly (s.grp c.gi).nextOp := by
  obtain ⟨-, ops⟩ := State.begun_grp (s := s) (c := c) (cls := cls) (k := k) (run := run)
  intro o ho hne hk
  obtain e | e := ops <;> rw [e] at ho
  · obtain ho | ho := List.mem_append.mp ho
    · exact hn o ho hk
    · rw [List.mem_singleton.mp ho] at hne
      exact absurd rfl hne
  · exact hn o ho hk

variable {P Q : State → Prop} (hgrp : ∀ u gi f, P u → P (u.onGrp gi f)) (hQ : OfStored Q) (hPQ : ∀ u, P u → Q u)
  (htry : ∀ u o (l : Fin 32) b, P u → u.Running c.gi (s.whoOf (s.grp c.gi)) (s.grp c.gi).nextOp k c.lanes → o.kind = k →
    c.lanes.getLsbD l = true → P (u.tryLane c.gi o l b).1)
  (hn : ∀ o ∈ (s.grp c.gi).ops, o.id < (s.grp c.gi).nextOp ∧ (o.kind.ordered = true → o.todo = 0#32)) (hP : P s)
include hgrp hQ hPQ htry hn hP

theorem State.startMem_ordered_keeps (hk : k.ordered = true) : Q (s.startMem c cls k run) := by
  have begun : P (s.begun c cls k run) := hgrp _ _ _ (hgrp _ _ _ hP)
  have running := State.begun_running (cls := cls) (k := k) (run := run) fun o ho => (hn o ho).1
  have only := State.begun_ordersOnly (cls := cls) (k := k) (run := run) fun o ho => (hn o ho).2
  rw [State.startMem_eq]
  unfold State.issueAccesses
  split
  · exact hPQ _ begun
  · rename_i o ho
    obtain ⟨ok, -⟩ := running.runs o (List.mem_of_find?_eq_some ho) (by simpa using List.find?_some ho)
    rw [ok, hk, if_pos rfl]
    have folded (xs : List Nat) (u : State) (hu : Applying c.gi (s.whoOf (s.grp c.gi)) (s.grp c.gi).nextOp k c.lanes P Q u) :
        Applying c.gi (s.whoOf (s.grp c.gi)) (s.grp c.gi).nextOp k c.lanes P Q (xs.foldl (fun s _ => (s.ordStep c.gi).1) u) := by
      induction xs generalizing u with
      | nil => exact hu
      | cons x xs ih => exact ih _ (Applying.ordStep hgrp hQ hPQ htry hu)
    obtain ⟨done, -⟩ | ⟨done, -⟩ := folded (List.range 32) _ (.inl ⟨begun, running, only⟩)
    · exact hPQ _ done
    · exact done

end

/-- The same for the operation that a word starts, of the group as it stood before the word. -/
theorem State.startMem_advance_numbered_keeps {s : State} {h : Hdr} {cls : Cls} {k : OpKind} {run : List Nat} {P Q : State → Prop}
    (hgrp : ∀ u gi f, P u → P (u.onGrp gi f)) (hQ : OfStored Q) (hPQ : ∀ u, P u → Q u)
    (htry : ∀ u o (l : Fin 32) b, P u →
      u.Running s.iss.gi (s.whoOf (s.grp s.iss.gi)) (s.grp s.iss.gi).nextOp k (wctx h s).lanes → o.kind = k →
      (wctx h s).lanes.getLsbD l = true → P (u.tryLane s.iss.gi o l b).1)
    (hn : Numbered s) (hP : P s.advance) : Q (s.advance.startMem (wctx h s) cls k run) := by
  cases hk : k.ordered with
  | false => exact State.startMem_advance_keeps hgrp hQ hPQ htry (fun o ho => (hn o ho).1) hk hP
  | true =>
    refine State.startMem_ordered_keeps (c := wctx h s) hgrp hQ hPQ ?_ ?_ hP hk
    · rw [show (wctx h s).gi = s.iss.gi from rfl, s.advance_whoOf, s.advance_grp_nextOp]
      exact htry
    · rw [show (wctx h s).gi = s.iss.gi from rfl, s.advance_grp_ops, s.advance_grp_nextOp]
      exact hn

theorem KeepsGlobal.startMem_of_numbered {s : State} {h : Hdr} {K : Nat → List Byte} {may : Nat → Prop} {k : OpKind} {T : State → Prop}
    {cls : Cls} {run : List Nat} (hk : KeepsGlobal s K may (s.whoOf (s.grp s.iss.gi)) k (wctx h s).lanes T) (hs : s.ShowsAll K (plainByte s))
    (hT : T s) (hn : Numbered s) : KeptGlobal s K may (s.advance.startMem (wctx h s) cls k run) := by
  have closed := keptGlobal_ofStored s K may
  exact State.startMem_advance_numbered_keeps (P := fun u => KeptGlobal s K may u ∧ T u)
    (fun u gi f hu => ⟨closed u _ rfl hu.1, hk.tables u _ rfl hu.2⟩) closed (fun _ hu => hu.1)
    (fun u o l check hu running hkind hl => hk.tryLane hu running hkind hl) hn
    ⟨closed s _ s.advance_stored (keptGlobal_refl hs), hk.tables s _ s.advance_tables hT⟩

end
end Sys2Proof.Machine
end

