-- ==== Sys2Proof/Proofs/OneLane.lean ====
section
/-! PROOFS. A word of one lane makes its access at the place that its address has, and what stands there is read back (R159 to R165). -/
namespace Sys2Proof.Machine
open Sys2Proof.Claims

noncomputable section

/-! ### Checks and reads depend on no group -/

/-- The same memory and tables with other groups and another issue. -/
def State.withRun (s : State) (gs : List Group) (i : Issue) : State := { s with groups := gs, iss := i }

section
variable (s : State) (gs : List Group) (i : Issue)

theorem State.advance_eq_withRun : s.advance = s.withRun s.advance.groups s.advance.iss := by
  unfold State.advance
  split <;> rfl

theorem State.walk_withRun (fn va n t : Nat) : (s.withRun gs i).walk fn va n t = s.walk fn va n t := by
  induction n generalizing t with
  | zero => rfl
  | succ n ih =>
    simp only [State.walk, ih]
    rfl

theorem State.xlat_withRun (core : Option Nat) (c va : Nat) :
    (s.withRun gs i).xlat core c va = ((s.xlat core c va).1.withRun gs i, (s.xlat core c va).2) := by
  have walk : (s.withRun gs i).walk ((s.withRun gs i).ctx c).d.fn va 4 ((s.withRun gs i).ctx c).d.root
      = s.walk (s.ctx c).d.fn va 4 (s.ctx c).d.root := s.walk_withRun gs i ..
  unfold State.xlat
  rw [walk]
  generalize s.walk (s.ctx c).d.fn va 4 (s.ctx c).d.root = walked
  cases core with
  | none => rfl
  | some n =>
    dsimp only
    rw [show (s.withRun gs i).tlb = s.tlb from rfl]
    generalize s.tlb.find? (fun e => e.core = n && e.ctx = c && va / e.x.size = e.va / e.x.size) = held
    cases held with
    | some e => rfl
    | none => cases walked <;> rfl

theorem State.judge_withRun : (s.withRun gs i).judge = s.judge := State.judge_congr rfl rfl

theorem State.locateGl_withRun (u : Who) (r : Req) (a : Nat) :
    (s.withRun gs i).locateGl u r a = ((s.locateGl u r a).1.withRun gs i, (s.locateGl u r a).2) := by
  have moved := s.xlat_withRun gs i u.core u.ctx a
  rcases found : s.xlat u.core u.ctx a with ⟨v, f | x⟩
  · rw [found] at moved
    rw [State.locateGl, State.locateGl, moved, found]
  · rw [found] at moved
    rw [State.locateGl_of_ok found, State.locateGl_of_ok moved, State.judge_withRun]

theorem State.locate_withRun (u : Who) (r : Req) (ea : Dword) :
    (s.withRun gs i).locate u r ea = ((s.locate u r ea).1.withRun gs i, (s.locate u r ea).2) := by
  unfold State.locate
  dsimp only
  split
  · rfl
  · split
    · split
      · rfl
      · exact s.locateGl_withRun gs i u r ea.toNat
    · rw [show (s.withRun gs i).spSize u.kernel = s.spSize u.kernel from rfl]
      split <;> rfl
    · rw [show (s.withRun gs i).boardAt = s.boardAt from rfl]
      split <;> rfl

theorem State.putLine_withRun (line : Nat) (data key : List Byte) :
    (s.withRun gs i).putLine line data key = (s.putLine line data key).withRun gs i := by
  unfold State.putLine
  split <;> rfl

theorem State.foldl_writeLine_withRun (xs : List L2Line) :
    xs.foldl State.writeLine (s.withRun gs i) = (xs.foldl State.writeLine s).withRun gs i := by
  induction xs generalizing s with
  | nil => rfl
  | cons x xs ih =>
    rw [List.foldl_cons, List.foldl_cons, ← ih, State.writeLine, State.writeLine]
    exact congrArg (xs.foldl State.writeLine) (s.putLine_withRun gs i ..)

theorem State.evict_withRun (p : L2Line → Bool) : (s.withRun gs i).evict p true = (s.evict p true).withRun gs i := by
  unfold State.evict
  rw [if_pos rfl, if_pos rfl, show (s.withRun gs i).l2 = s.l2 from rfl, State.foldl_writeLine_withRun]
  rfl

theorem State.makeWay_withRun (sb : Nat) : (s.withRun gs i).makeWay sb = (s.makeWay sb).withRun gs i := by
  unfold State.makeWay
  extract_lets of may of' may'
  have same : may = may' := rfl
  have same' : of = of' := rfl
  rw [same, same', show (s.withRun gs i).hasWay sb = s.hasWay sb from rfl]
  clear_value of' may'
  split
  · rfl
  · split
    · exact s.evict_withRun gs i _
    · rfl

theorem State.fillLine_withRun (pa : Nat) (x : Xlat) : (s.withRun gs i).fillLine pa x = (s.fillLine pa x).withRun gs i := by
  unfold State.fillLine
  rw [show (s.withRun gs i).l2? pa = s.l2? pa from rfl, State.makeWay_withRun]
  generalize s.makeWay (pa / 512) = u
  dsimp only
  split
  · rfl
  · rw [show (u.withRun gs i).hasWay (pa / 512) = u.hasWay (pa / 512) from rfl]
    split <;> rfl

theorem State.readLoc_withRun (loc : Loc) (n : Nat) :
    (s.withRun gs i).readLoc loc n = ((s.readLoc loc n).1.withRun gs i, (s.readLoc loc n).2) := by
  cases loc with
  | gl pa x =>
    simp only [State.readLoc, State.fillLine_withRun]
    rfl
  | sp _ _ => rfl
  | bb _ => rfl

theorem State.toPort_withRun (loc : Loc) : (s.withRun gs i).toPort loc = (s.toPort loc).withRun gs i := by
  cases loc with
  | gl pa x =>
    unfold State.toPort
    dsimp only
    split
    · exact s.evict_withRun gs i _
    · rfl
  | sp _ _ => rfl
  | bb _ => rfl

end

/-! ### One lane whose access may be made -/

theorem lanesOf_lane1 : ∀ l : Fin 32, lanesOf (lane1 l.val) = [l] := by decide

theorem lane1_ne_zero : ∀ l : Fin 32, lane1 l.val ≠ 0#32 := by decide

/-- The access of a lane finds its place, its data fail nothing and no port holds it, and its granule is full where it waits for that. -/
def State.MayAccess (u : State) (w : Who) (k : OpKind) (l : Fin 32) (v : State) (loc : Loc) : Prop :=
  (∃ r addr, k.req = some (r, addr) ∧ u.locate w r addr[l] = (v, .ok loc) ∧ u.heldFault w loc r.bytes = none)
    ∧ (k.waitsFull = true → u.feAt loc = true)

section
variable {u v : State} {w : Who} {k : OpKind} {l : Fin 32} {loc : Loc}

theorem State.MayAccess.withRun (h : u.MayAccess w k l v loc) (gs : List Group) (i : Issue) :
    (u.withRun gs i).MayAccess w k l (v.withRun gs i) loc := by
  obtain ⟨⟨r, addr, hr, found, free⟩, full⟩ := h
  exact ⟨⟨r, addr, hr, by rw [u.locate_withRun gs i w r addr[l], found], free⟩, full⟩

theorem State.tryLane_of_mayAccess {gi : Nat} {o : Op} (h : u.MayAccess (u.whoOf (u.grp gi)) o.kind l v loc) :
    u.tryLane gi o l false = ((v.perform o.kind l loc).1, .made (v.perform o.kind l loc).2) := by
  obtain ⟨⟨r, addr, hr, found, free⟩, full⟩ := h
  obtain ⟨e, he⟩ := u.locate_eq (u.whoOf (u.grp gi)) r addr[l]
  rw [found] at he
  dsimp only at he
  have waits : ¬(o.kind.waitsFull && !v.feAt loc) = true := by
    rw [he]
    intro hw
    rw [Bool.and_eq_true, Bool.not_eq_true'] at hw
    exact absurd (full hw.1) (ne_true_of_eq_false hw.2)
  have held : v.heldFault (v.whoOf (v.grp gi)) loc r.bytes = none := by
    rw [he]
    exact free
  unfold State.tryLane
  simp only [hr, found, held, if_neg waits]
  rfl

end

/-! ### An operation of one lane, alone in its group -/

/-- An operation has made its one access at a place. -/
structure State.Accessed (v : State) (k : OpKind) (l : Fin 32) (loc : Loc) (gi : Nat) (cls : Cls) (t : State) : Prop where
  memory : t.stored = (v.perform k l loc).1.stored
  op : ∃ o, (t.grp gi).ops = [o] ∧ o.cls = cls ∧ o.todo = 0#32 ∧ ∀ x, (v.perform k l loc).2 = some x → o.got[l] = some x

theorem Group.onOp_alone {g : Group} {o : Op} (h : g.ops = [o]) (f : Op → Op) : (g.onOp o.id f).ops = [f o] := by
  simp [Group.onOp, h]

theorem Group.op?_alone {g : Group} {o : Op} (h : g.ops = [o]) : g.op? o.id = some o := by
  simp [Group.op?, h]

theorem Group.turn_alone {g : Group} {o : Op} (h : g.ops = [o]) (l : Fin 32) : g.turn o.id l = true := by
  simp [Group.turn, h]

theorem State.laneTurn_alone {u : State} {gi : Nat} {o : Op} {l : Fin 32} (h : (u.grp gi).ops = [o]) (ht : o.todo = lane1 l.val) :
    u.laneTurn gi o l = true := by
  rw [State.laneTurn, Group.turn_alone h, ht, lanesOf_lane1]
  split <;> simp

theorem Op.lane_cls (o : Op) (l : Fin 32) (ea : Dword) (d : Did) : (o.lane l ea d).cls = o.cls := by
  unfold Op.lane
  split <;> rfl

theorem Op.lane_todo_alone {o : Op} {l : Fin 32} (h : o.todo = lane1 l.val) (ea : Dword) (d : Did) : (o.lane l ea d).todo = 0#32 := by
  rw [Op.lane_todo, h]
  exact BitVec.and_not_self ..

theorem Op.lane_got (o : Op) (l : Fin 32) (ea : Dword) (x : BitVec 128) : (o.lane l ea (.made (some x))).got[l] = some x := by
  simp [Op.lane]

section
variable {u v : State} {gi : Nat} {o : Op} {l : Fin 32} {loc : Loc} (hg : gi < u.groups.length) (ho : (u.grp gi).ops = [o])
  (ht : o.todo = lane1 l.val) (h : u.MayAccess (u.whoOf (u.grp gi)) o.kind l v loc)
include hg ho ht h

/-- The access made, the group is left with the operation, its lane done. -/
theorem State.accessed_onGrp {f : Group → Group} {p : Op} (hf : ∀ g : Group, g.ops = [o] → (f g).ops = [p])
    (hp : ∃ ns, { p with notes := ns } = { o.lane l (o.ea l) (.made (v.perform o.kind l loc).2) with notes := ns }) :
    v.Accessed o.kind l loc gi o.cls ((v.perform o.kind l loc).1.onGrp gi f) := by
  obtain ⟨⟨r, addr, -, found, -⟩, -⟩ := h
  obtain ⟨e, he⟩ := u.locate_eq (u.whoOf (u.grp gi)) r addr[l]
  rw [found] at he
  dsimp only at he
  have around := v.perform_around o.kind l loc
  have groups : (v.perform o.kind l loc).1.groups = u.groups := (congrArg Prod.fst around).trans (by rw [he]; rfl)
  obtain ⟨ns, hp⟩ := hp
  have got (x) (hx : (v.perform o.kind l loc).2 = some x) : p.got[l] = some x := by
    rw [hx] at hp
    have same := congrArg Op.got hp
    dsimp only at same
    rw [same]
    exact Op.lane_got ..
  refine ⟨State.onGrp_stored .., p, ?_, (congrArg Op.cls hp).trans (Op.lane_cls ..), (congrArg Op.todo hp).trans (Op.lane_todo_alone ht ..), got⟩
  rw [State.grp_onGrp _ _ _ (by rwa [groups])]
  exact hf _ (by rw [State.grp, groups]; exact ho)

theorem State.stepLanes_alone : ∃ t, u.stepLanes gi o.id false (lanesOf o.todo) = (t, []) ∧ v.Accessed o.kind l loc gi o.cls t := by
  have todo : o.todo.getLsbD l = true := by rw [ht, lane1_getLsbD _ _ l.isLt]; simp
  have turn : (false || !u.laneTurn gi o l) = false := by rw [State.laneTurn_alone ho ht]; rfl
  have stepped : State.stepLane gi o.id false (u, []) l = ((v.perform o.kind l loc).1.onGrp gi fun g => g.onOp o.id fun p =>
      { p.lane l (p.ea l) (.made (v.perform o.kind l loc).2) with notes := p.notes ++ [] }, []) := by
    rw [State.stepLane]
    dsimp only
    rw [Group.op?_alone ho]
    dsimp only
    rw [todo, turn, State.tryLane_of_mayAccess h]
    rfl
  rw [ht, lanesOf_lane1, State.stepLanes, List.foldl_cons, List.foldl_nil, stepped]
  exact ⟨_, rfl, State.accessed_onGrp hg ho ht h (fun _ hg => Group.onOp_alone hg _) ⟨o.notes, rfl⟩⟩

theorem State.ordStep_alone (ord : o.kind.ordered = true) (owed : (u.grp gi).owed = 0#32) (token : u.holdsToken (u.grp gi) = true)
    (core : u.onCore gi = true) : v.Accessed o.kind l loc gi o.cls (u.ordStep gi).1 := by
  have some_todo : o.todo ≠ 0#32 := ht ▸ lane1_ne_zero l
  have next : (u.grp gi).nextOrd = some o := by
    simp [Group.nextOrd, ho, ord, some_todo, owed]
  have todo : (u.grp gi).ordLanes o = [l] := by
    simp [Group.ordLanes, owed, ht, lanesOf_lane1]
  unfold State.ordStep
  dsimp only
  rw [next]
  dsimp only
  rw [token, core, todo]
  dsimp only
  rw [Group.turn_alone ho, State.tryLane_of_mayAccess h]
  simp only [Bool.and_self, Bool.not_true, Bool.false_eq_true, if_false]
  exact State.accessed_onGrp hg ho ht h (fun _ hg => Group.onOp_alone hg _) ⟨o.notes, rfl⟩

end

/-- Where no lane faults the operations stay as they are. -/
theorem State.deferOp_nil_ops (s : State) (gi : Nat) (o : Op) : ((s.deferOp gi o []).grp gi).ops = (s.grp gi).ops := by
  unfold State.deferOp
  split
  · rfl
  · exact State.grp_onGrp_same (s := s) Group.ops (by simp [Group.onOp]) gi

section
variable {v t : State} {k : OpKind} {l : Fin 32} {loc : Loc} {gi : Nat} {cls : Cls} (h : v.Accessed k l loc gi cls t)
include h

theorem State.Accessed.deferOp (o : Op) : v.Accessed k l loc gi cls (t.deferOp gi o []) := by
  obtain ⟨memory, op⟩ := h
  exact ⟨(State.deferOp_stored ..).trans memory, by rwa [State.deferOp_nil_ops]⟩

/-- The operation's only access made, no ordered atomic of its group has a lane to apply. -/
theorem State.Accessed.ordStep : (t.ordStep gi).1 = t := by
  obtain ⟨-, o, ops, -, todo, -⟩ := h
  rw [State.ordStep, Group.nextOrd_of_ordersNone]
  intro p hp _
  rw [ops, List.mem_singleton] at hp
  rw [hp, todo]

theorem State.Accessed.foldl_ordStep (xs : List Nat) : xs.foldl (fun u _ => (u.ordStep gi).1) t = t := by
  induction xs with
  | nil => rfl
  | cons x xs ih => rw [List.foldl_cons, h.ordStep, ih]

end

/-! ### The operation of a word of one lane -/

theorem Group.inState_onLanes (g : Group) (ls : Lanes) {f : Fin 32 → Lane → Lane} (hf : ∀ l x, (f l x).st = x.st) (st : LaneSt) :
    (g.onLanes ls f).inState st = g.inState st := by
  refine congrArg lanesWhere (funext fun l => ?_)
  rw [show (g.onLanes ls f).lanes[l] = _ from g.onLanes_lane ls f l]
  split
  · rw [hf]
    rfl
  · rfl

/-- Holding the token is said of a group's place in its team alone. -/
theorem State.holdsToken_congr {s t : State} {g g' : Group} (hk : t.kernels = s.kernels) (ht : t.teams = s.teams) (hg : g'.origin = g.origin) :
    t.holdsToken g' = s.holdsToken g := by
  obtain ⟨-, k, m, i⟩ : g'.core = g.core ∧ g'.kernel = g.kernel ∧ g'.team = g.team ∧ g'.idx = g.idx := by simpa [Group.origin] using hg
  have pos : t.tokenPos g' = s.tokenPos g := by rw [State.tokenPos, State.tokenPos, hk, ht, k, m, i]
  rw [State.holdsToken, State.holdsToken, hk, k, pos]

theorem State.onCore_congr {s t : State} {gi : Nat} (ht : t.teams = s.teams) (hg : (t.grp gi).origin = (s.grp gi).origin) :
    t.onCore gi = s.onCore gi := by
  rw [State.onCore, State.onCore, ht, show (t.grp gi).team = (s.grp gi).team from congrArg (fun x => x.2.2.1) hg]

theorem State.advance_grp_owed (s : State) (gi : Nat) : (s.advance.grp gi).owed = (s.grp gi).owed := by
  unfold State.advance
  split
  · rfl
  · rw [State.grp_withIss, State.grp_onGrp_same Group.owed]
    split
    · rfl
    · rw [Group.owed, Group.owed, Group.inState_onLanes _ _ fun l x => by split <;> rfl, Group.onLanes_redo]

section
variable {s s' : State} {c : Wctx} {cls : Cls} {k : OpKind} {run : List Nat} {l : Fin 32} {loc : Loc}

theorem State.begun_eq_withRun : s.begun c cls k run = s.withRun (s.begun c cls k run).groups s.iss := rfl

theorem State.begun_grp_owed : ((s.begun c cls k run).grp c.gi).owed = (s.grp c.gi).owed :=
  (State.grp_onGrp_same Group.owed (Group.foldl_setV_same Group.owed (fun _ _ _ _ => rfl) run _) c.gi).trans
    (State.grp_onGrp_same Group.owed rfl c.gi)

variable (hg : c.gi < s.groups.length) (hops : (s.grp c.gi).ops = []) (hl : c.lanes = lane1 l.val)
include hg hops

theorem State.begun_alone : ((s.begun c cls k run).grp c.gi).ops = [c.newOp cls k (s.grp c.gi).nextOp] := by
  refine (State.grp_onGrp_same Group.ops (Group.foldl_setV_same Group.ops (fun _ _ _ _ => rfl) run _) c.gi).trans ?_
  rw [State.start, s.grp_onGrp _ _ hg]
  dsimp only
  rw [hops]
  rfl

include hl

/-- An operation alone in its group makes the access of its one lane as it starts. -/
theorem State.startMem_accessed (h : s.MayAccess (s.whoOf (s.grp c.gi)) k l s' loc)
    (ord : k.ordered = true → (s.grp c.gi).owed = 0#32 ∧ s.holdsToken (s.grp c.gi) = true ∧ s.onCore c.gi = true) :
    ∃ gs i, (s'.withRun gs i).Accessed k l loc c.gi cls (s.startMem c cls k run) := by
  have alone := State.begun_alone (cls := cls) (k := k) (run := run) hg hops
  obtain ⟨origin, -⟩ := State.begun_grp (s := s) (c := c) (cls := cls) (k := k) (run := run)
  have may := h.withRun (s.begun c cls k run).groups s.iss
  rw [← State.begun_eq_withRun, ← State.whoOf_congr (s := s) (t := s.begun c cls k run) rfl origin] at may
  have inside : c.gi < (s.begun c cls k run).groups.length := by
    simpa [State.begun, State.start, State.onGrp, State.setGrp] using hg
  have todo : (c.newOp cls k (s.grp c.gi).nextOp).todo = lane1 l.val := hl
  refine ⟨(s.begun c cls k run).groups, s.iss, ?_⟩
  rw [State.startMem_eq, State.issueAccesses, show (s.grp c.gi).nextOp = (c.newOp cls k (s.grp c.gi).nextOp).id from rfl, Group.op?_alone alone]
  dsimp only
  split
  · rename_i hk
    obtain ⟨owed, token, core⟩ := ord hk
    have first := State.ordStep_alone inside alone todo may hk (State.begun_grp_owed.trans owed)
      ((State.holdsToken_congr rfl rfl origin).trans token) ((State.onCore_congr (s := s) (t := s.begun c cls k run) rfl origin).trans core)
    rw [List.range_succ_eq_map, List.foldl_cons]
    exact (first.foldl_ordStep _).symm ▸ first
  · obtain ⟨t, e, made⟩ := State.stepLanes_alone inside alone todo may
    rw [e]
    exact made.deferOp _

end

/-! ### A word of one lane makes its access -/

section
variable {v e t : State} {k : OpKind} {l : Fin 32} {loc : Loc} {gi : Nat} {cls : Cls}

theorem State.Accessed.congr (h : v.Accessed k l loc gi cls e) (hs : t.stored = e.stored) (ho : (t.grp gi).ops = (e.grp gi).ops) :
    v.Accessed k l loc gi cls t := ⟨hs.trans h.memory, by rw [ho]; exact h.op⟩

theorem State.Accessed.opened (h : v.Accessed k l loc gi cls e) (w : WordSpec) (s : State) : v.Accessed k l loc gi cls (opened w s e) := by
  unfold Claims.opened
  split
  · refine h.congr (State.region_stored ..) ?_
    unfold State.region
    split
    · rfl
    · refine State.grp_onGrp_same Group.ops ?_ gi
      dsimp only
      rw [Group.onLanes_ops]
  · exact h

end

theorem State.MayAccess.advance {s s' : State} {w : Who} {k : OpKind} {l : Fin 32} {loc : Loc} (h : s.MayAccess w k l s' loc) :
    s.advance.MayAccess w k l (s'.withRun s.advance.groups s.advance.iss) loc := by
  rw [State.advance_eq_withRun]
  exact h.withRun ..

/-- A word of one lane whose group has nothing outstanding makes its access at the place that its address has. -/
theorem accessed_of_does {i : Instr} {w : WordSpec} {s s' : State} {cls : Cls} {k : OpKind} {run : List Nat} {l : Fin 32} {loc : Loc}
    (hd : Does i w s (s.advance.startMem (wctx w.h s) cls k run)) (hc : Clear w s) (hl : (wctx w.h s).lanes = lane1 l.val) (hq : Quiet s)
    (may : s.MayAccess (s.whoOf s.iss.snap) k l s' loc)
    (ord : k.ordered = true → s.iss.snap.owed = 0#32 ∧ s.holdsToken s.iss.snap = true ∧ s.onCore s.iss.gi = true) :
    ∃ t, exec i s = .next t ∧ ∃ gs j, (s'.withRun gs j).Accessed k l loc s.iss.gi cls t := by
  obtain ⟨snap, ops, inside⟩ := hq
  obtain ⟨t, ht, still⟩ := hd hc
  rw [if_neg] at still
  swap
  · rw [lanes, hl]
    exact lane1_ne_zero l
  rw [← snap] at may ord ops
  rw [← s.advance_whoOf] at may
  have origin : (s.advance.grp s.iss.gi).origin = (s.grp s.iss.gi).origin :=
    s.advance_grp_same Group.origin _ (fun _ _ => rfl) fun _ _ _ => by simp [Group.origin]
  obtain ⟨gs, j, made⟩ := State.startMem_accessed (c := wctx w.h s) (cls := cls) (run := run) (by rwa [State.advance_groups_length])
    ((s.advance_grp_ops _).trans ops) hl may.advance fun hk => by
      obtain ⟨owed, token, core⟩ := ord hk
      exact ⟨(s.advance_grp_owed _).trans owed, (State.holdsToken_congr s.advance_kernels s.advance_teams origin).trans token,
        (State.onCore_congr s.advance_teams origin).trans core⟩
  exact ⟨t, ht, gs, j, (made.opened w s).congr (State.stored_of_still still) (State.ops_of_still still _)⟩

/-! ### Places and what stands there -/

/-- A place in global memory, or in the scratchpad of a team that there is. -/
def State.HasPlace (s : State) : Loc → Prop
  | .gl _ _ => True
  | .sp n _ => n < s.teams.length
  | .bb _ => False

theorem State.place_of_locate_gl {s v : State} {w : Who} {r : Req} {ea : Dword} {loc : Loc} (hr : r.space = .gl)
    (h : s.locate w r ea = (v, .ok loc)) : ∃ q y, loc = .gl q y := by
  unfold State.locate at h
  simp only [hr] at h
  split at h
  · cases h
  · split at h
    · cases h
    · rcases found : s.xlat w.core w.ctx ea.toNat with ⟨u, f | x⟩
      · rw [State.locateGl, found] at h
        cases h
      · rw [State.locateGl_of_ok found] at h
        have judged : u.judge w r ea.toNat x = .ok loc := congrArg Prod.snd h
        unfold State.judge at judged
        dsimp only at judged
        repeat' split at judged
        all_goals cases judged
        exact ⟨_, _, rfl⟩

theorem State.locate_hasPlace {s v : State} {w : Who} {r : Req} {ea : Dword} {loc : Loc} (h : s.locate w r ea = (v, .ok loc))
    (hr : r.space ≠ .bb) (hw : w.team < s.teams.length) : s.HasPlace loc := by
  cases hz : r.space with
  | gl =>
    obtain ⟨q, y, rfl⟩ := State.place_of_locate_gl hz h
    trivial
  | sp =>
    obtain ⟨-, rfl⟩ := (State.locate_sp hz).2 loc h
    exact hw
  | bb => exact absurd hz hr

section
variable {s t : State} {loc : Loc}

/-! ### Granules full and empty (R164) -/

theorem State.feAt_sp (s : State) (n off : Nat) :
    s.feAt (.sp n off) = match (s.teams.map Team.stored)[n]? with | some x => !x.2.1.contains (off / 16) | none => true := by
  rw [State.feAt, List.getElem?_map]
  cases s.teams[n]? <;> rfl

theorem State.feAt_of_stored (h : t.stored = s.stored) : t.feAt loc = s.feAt loc := by
  cases loc with
  | gl pa x => rw [State.feAt, State.feAt, show t.empty = s.empty from congrArg (fun x => x.2.1.2.2.1) h]
  | sp n off =>
    have teams : t.teams.map Team.stored = s.teams.map Team.stored := congrArg (fun x => x.1.2.2) h
    rw [State.feAt_sp, State.feAt_sp, teams]
  | bb _ => rfl

theorem State.MemOnly.feAt (h : s.MemOnly t) (loc : Loc) : t.feAt loc = s.feAt loc := by
  rw [h]
  rfl

theorem State.MemOnly.hasPlace (h : s.MemOnly t) : t.HasPlace loc ↔ s.HasPlace loc := by
  rw [h]
  rfl

theorem mem_setAdd (n : Nat) (xs : List Nat) : n ∈ setAdd n xs := by
  induction xs with
  | nil => exact List.mem_singleton_self n
  | cons x xs ih =>
    rw [setAdd]
    split
    · exact List.mem_cons_self
    · split
      · rename_i e
        exact e ▸ List.mem_cons_self
      · exact List.mem_cons_of_mem x ih

theorem not_mem_setDel (n : Nat) (xs : List Nat) : n ∉ setDel n xs := by simp [setDel]

theorem State.feAt_setFe (h : s.HasPlace loc) (full : Bool) : (s.setFe loc full).feAt loc = full := by
  have granule (n : Nat) (xs : List Nat) : (!((if full then setDel n xs else setAdd n xs).contains n)) = full := by
    cases full
    · simp [mem_setAdd]
    · simp [not_mem_setDel]
  cases loc with
  | gl pa x => exact granule ..
  | sp n off =>
    unfold State.setFe State.feAt
    dsimp only
    rw [State.onTeam_teams, getElem?_updAt_same, List.getElem?_eq_getElem h]
    exact granule ..
  | bb _ => exact h.elim

theorem State.feAt_writeLoc (bs : List Byte) : (s.writeLoc loc bs).feAt loc = s.feAt loc := by
  cases loc with
  | gl pa x => exact (s.writeLoc_memOnly pa x bs).feAt _
  | sp n off =>
    unfold State.writeLoc State.feAt
    dsimp only
    rw [State.onTeam_teams, getElem?_updAt_same]
    cases s.teams[n]? <;> rfl
  | bb _ => rfl

end

/-! ### Bytes read back at a place -/

/-- A read at a place finds these bytes. -/
def State.ReadsAs (s : State) (loc : Loc) (bs : List Byte) : Prop :=
  match loc with
  | .gl pa x => s.Placed ∧ ∀ i, i < bs.length → s.Shows (s.keyOf x.key) (pa + i) (bs.getD i 0)
  | .sp n off => ∀ i, i < bs.length → spByte s n (off + i) = bs.getD i 0
  | .bb _ => False

section
variable {s t : State} {loc : Loc} {bs : List Byte}

theorem State.readLoc_sp (s : State) (n off m : Nat) : (s.readLoc (.sp n off) m).2 = (List.range m).map fun i => spByte s n (off + i) := by
  unfold State.readLoc spByte
  dsimp only
  cases s.teams[n]? with
  | some x => rfl
  | none => simp

theorem State.ReadsAs.readLoc (h : s.ReadsAs loc bs) : (s.readLoc loc bs.length).2 = bs := by
  cases loc with
  | gl pa x =>
    obtain ⟨placed, shows⟩ := h
    exact State.readLoc_of_shows placed shows
  | sp n off =>
    rw [State.readLoc_sp]
    refine List.ext_getElem (by simp) fun i h1 h2 => ?_
    rw [List.getElem_map, List.getElem_range, h i h2, List.getD_eq_getElem _ _ h2]
  | bb _ => exact h.elim

theorem State.ReadsAs.of_stored (h : s.ReadsAs loc bs) (e : t.stored = s.stored) : t.ReadsAs loc bs := by
  cases loc with
  | gl pa x =>
    obtain ⟨placed, shows⟩ := h
    refine ⟨placed.of_stored e, fun i hi => ?_⟩
    rw [State.keyOf_congr (congrArg (fun x => x.2.2.2) e)]
    exact (shows i hi).of_stored e
  | sp n off => exact fun i hi => (spByte_of_stored e ..).trans (h i hi)
  | bb _ => exact h.elim

theorem State.ReadsAs.setFe (h : s.ReadsAs loc bs) (full : Bool) : (s.setFe loc full).ReadsAs loc bs := by
  cases loc with
  | gl pa x =>
    obtain ⟨placed, shows⟩ := h
    exact ⟨⟨placed.apart, placed.whole⟩, fun i hi => (shows i hi).congr rfl rfl rfl rfl rfl⟩
  | sp n off => exact fun i hi => (spByte_setFe ..).trans (h i hi)
  | bb _ => exact h.elim

/-- Bytes written at a place, at its host port where the write is made there, are read back. -/
theorem State.readsAs_writeLoc (hs : s.Placed) (hp : s.HasPlace loc) (sys : Bool) : (s.writeLoc (portLoc sys loc) bs).ReadsAs loc bs := by
  cases loc with
  | gl pa x =>
    obtain ⟨y, e, key⟩ : ∃ y, portLoc sys (.gl pa x) = .gl pa y ∧ y.key = x.key := by
      rw [portLoc]
      split <;> exact ⟨_, rfl, rfl⟩
    rw [e]
    refine ⟨hs.writeLoc, fun i hi => ?_⟩
    rw [State.keyOf_congr (s.writeLoc_memOnly pa y bs).ctl, ← key]
    exact State.shows_writeLoc hs hi
  | sp n off =>
    intro i hi
    unfold portLoc State.writeLoc spByte
    dsimp only
    rw [State.onTeam_teams, getElem?_updAt_same, List.getElem?_eq_getElem hp]
    dsimp only [Option.map_some]
    rw [Memory.byte_writeN, if_pos (by omega), Nat.add_sub_cancel_left]
  | bb _ => exact hp.elim

end

end
end Sys2Proof.Machine
end

