-- ==== Sys2Proof/Proofs/GlobalStores.lean ====
section
/-! PROOFS. Words that write global memory (R159, R163, R172, R176): O19. -/
namespace Sys2Proof.Machine
open Sys2Proof.Claims

noncomputable section

/-! ### Words that write global memory (R163, R172, R176) -/

section
variable {s : State} {ls : Lanes} {r : Req} {addr : PerLane Dword} {k : OpKind}

/-- An operation whose addresses have their places in memory changes bytes in the accesses of its lanes alone. -/
theorem KeepsGlobal.of_lands (hreq : k.req = some (r, addr)) (hl : Lands s r ls addr)
    (hdo : ∀ (u : State) l q y, KeptGlobal s (lineKey s) (Hit s r ls addr) u → u.PlaceUnder (lineKey s) (.gl q y) r.bytes →
      (∀ a, q ≤ a → a < q + r.bytes → Hit s r ls addr a) → KeptGlobal s (lineKey s) (Hit s r ls addr) (u.perform k l (.gl q y)).1) :
    KeepsGlobal s (lineKey s) (Hit s r ls addr) (s.whoOf (s.grp s.iss.gi)) k ls fun u => u.tables = s.tables := by
  refine ⟨fun u v e hu => e.trans hu, fun u l r' addr' hu hlane hr => ?_, fun u v l r' addr' loc hu hlane hr e kept => ?_⟩
  all_goals
    rw [hreq] at hr
    cases hr
    obtain ⟨q, y, found, under⟩ := hl l hlane
    have here := State.locate_stays rfl found hu
  · rw [here]
    exact hu
  · rw [here] at e
    cases e
    exact hdo u l q y kept ((UnderKey.place under).congr (State.ctl_of_tables hu)) fun a h1 h2 => ⟨l, q, y, hlane, found, h1, h2⟩

end

theorem spaceOf_global {mode : BitVec 2} (hm : mode = 0#2 ∨ mode = 3#2) : spaceOf mode = .gl := by obtain rfl | rfl := hm <;> rfl

section
variable {s : State} {h : Hdr} {mode : BitVec 2} (hm : mode = 0#2 ∨ mode = 3#2) (hn : Numbered s) (hs : SoundLines s)
include hm hn hs

theorem storeWord_kept {d a b : BitVec 6} {n : Nat} {fe : Bool} (hb : 0 < n)
    (hl : Lands s { space := .gl, bytes := n, acc := .w } (wctx h s).lanes (addrOf (wctx h s) h mode a b)) :
    KeptGlobal s (lineKey s) (Hit s { space := .gl, bytes := n, acc := .w } (wctx h s).lanes (addrOf (wctx h s) h mode a b))
      (storeWord h mode d a b n fe s) := by
  have all := showsAll_of_soundLines hs
  refine word_leaves (keptGlobal_ofStored s _ _) (keptGlobal_refl all) ?_
  refine KeepsGlobal.startMem_of_numbered (KeepsGlobal.of_lands ?_ hl fun u l q y kept under may => kept.perform_store hb under may) all rfl hn
  rw [OpKind.req, spaceOf_global hm]
  rfl

theorem atomWord_kept {f : AtomFn} {m : Bool} {d a b sr : BitVec 6} {scope : BitVec 2} {w rt : Bool} {cr : BitVec 6} {bs cs : Bool} {r : Req}
    (hr : r = { space := .gl, bytes := if w then 8 else 4, acc := .a, noPort := scope = 3#2 && !f.portable })
    (hl : Lands s r (wctx h s).lanes (addrOf (wctx h s) h mode a sr)) :
    KeptGlobal s (lineKey s) (Hit s r (wctx h s).lanes (addrOf (wctx h s) h mode a sr))
      (atomWord f h m d a b mode sr scope w rt cr bs cs s) := by
  subst hr
  have all := showsAll_of_soundLines hs
  refine word_leaves (keptGlobal_ofStored s _ _) (keptGlobal_refl all) ?_
  have width : 0 < if w then 8 else 4 := by cases w <;> decide
  refine Res.leaves_ite (fun _ => trivial) fun _ => Res.leaves_ite (fun _ => trivial) fun _ => ?_
  refine KeepsGlobal.startMem_of_numbered (KeepsGlobal.of_lands ?_ hl fun u l q y kept under may => kept.perform_atom width under may) all rfl hn
  rw [OpKind.req, spaceOf_global hm]
  rfl

theorem aadd_kept {a b sr : BitVec 6} {scope : BitVec 2} {w bs : Bool}
    (hl : Lands s { space := .gl, bytes := 16, acc := .a, noPort := scope = 3#2 } (wctx h s).lanes (addrOf (wctx h s) h mode a sr)) {t : State}
    (ht : exec (.aadd h a b mode sr scope w bs) s = .next t) : KeptGlobal s (lineKey s)
      (Hit s { space := .gl, bytes := 16, acc := .a, noPort := scope = 3#2 } (wctx h s).lanes (addrOf (wctx h s) h mode a sr)) t := by
  have all := showsAll_of_soundLines hs
  cases ht
  refine word_leaves (keptGlobal_ofStored s _ _) (keptGlobal_refl all) ?_
  refine KeepsGlobal.startMem_of_numbered (KeepsGlobal.of_lands ?_ hl fun u l q y kept under may => kept.perform_aadd under may) all rfl hn
  rw [OpKind.req, spaceOf_global hm]
  rfl

end

theorem bytes_pos_of_mem_stores : ∀ x ∈ stores, 0 < x.1 := by decide

/-- Every word that writes global memory changes bytes in the accesses of its lanes alone. -/
theorem writers_kept {h : Hdr} {m : Bool} {d a b : BitVec 6} {mode : BitVec 2} {sr : BitVec 6} {scope : BitVec 2} {w rt : Bool} {cr : BitVec 6}
    {bs cs : Bool} {s t : State} {x : Instr × Req × PerLane Dword} (hx : x ∈ writers (wctx h s) h m d a b mode sr scope w rt cr bs cs)
    (hm : mode = 0#2 ∨ mode = 3#2) (hn : Numbered s) (hs : SoundLines s) (hl : Lands s x.2.1 (wctx h s).lanes x.2.2)
    (ht : exec x.1 s = .next t) : KeptGlobal s (lineKey s) (Hit s x.2.1 (wctx h s).lanes x.2.2) t := by
  simp only [writers, List.mem_append, List.mem_map, List.mem_cons, List.not_mem_nil, or_false] at hx
  obtain (⟨y, hy, rfl⟩ | ⟨y, hy, rfl⟩) | rfl | rfl := hx
  · rw [exec_of_mem_stores y hy] at ht
    cases ht
    exact storeWord_kept hm hn hs (bytes_pos_of_mem_stores y hy) hl
  · rw [(exec_of_mem_atoms y hy h m d a b mode sr scope w rt bs s).2] at ht
    cases ht
    exact atomWord_kept hm hn hs rfl hl
  · cases ht
    exact atomWord_kept (f := .cas) hm hn hs (by simp [AtomFn.portable]) hl
  · exact aadd_kept hm hn hs hl ht

/-! ### Stores to global memory (R159, R163) -/

theorem State.eq_of_locate {s s' : State} {w : Who} {r : Req} {ea : Dword} {x : Except (Nat × Nat) Loc} (h : s.locate w r ea = (s', x)) :
    ∃ e, s' = { s with tlb := e } := by
  obtain ⟨e, he⟩ := s.locate_eq w r ea
  exact ⟨e, by rw [← he, h]⟩

/-- A check keeps what memory holds, whatever groups there are. -/
theorem State.stored_of_locate {s s' : State} {w : Who} {r : Req} {ea : Dword} {x : Except (Nat × Nat) Loc} (h : s.locate w r ea = (s', x))
    (gs : List Group) (j : Issue) : (s'.withRun gs j).stored = s.stored := by
  obtain ⟨e, rfl⟩ := State.eq_of_locate h
  rfl

theorem does_store {x : Nat × Bool × Mem} (hx : x ∈ stores) (h : Hdr) (mode : BitVec 2) (d a b : BitVec 6) (s : State) :
    Does (x.2.2 h mode d a b) (specSt h x.1 mode d a b) s (s.advance.startMem (wctx h s) .st
      (.store x.1 (spaceOf mode) x.2.1 (addrOf (wctx h s) h mode a b) (dataOf (wctx h s) d x.1)) []) :=
  does_of (exec_of_mem_stores x hx ..) rfl

/-- Every byte after the access of a store to global memory whose lines stand under the key pair of its page. -/
theorem State.Accessed.plainByte_store {s v t : State} {n q : Nat} {y : Xlat} {z : Space} {fe : Bool} {addr : PerLane Dword} {data : PerLane (BitVec 128)}
    {l : Fin 32} {gi : Nat} {cls : Cls} (made : v.Accessed (.store n z fe addr data) l (.gl q y) gi cls t) (hs : SoundLines s)
    (hn : 0 < n) (hk : UnderKey s (s.keyOf y.key) q n) (hv : v.stored = s.stored) (pa : Nat) :
    plainByte t pa = if q ≤ pa ∧ pa < q + n then (toBytes n data[l].toNat).getD (pa - q) 0 else plainByte s pa := by
  have all : v.ShowsAll (lineKey s) (plainByte s) := (showsAll_of_soundLines hs).of_stored hv
  have under : v.PlaceUnder (lineKey s) (.gl q y) n := (UnderKey.place hk).congr (congrArg (fun x => x.2.2.2) hv)
  have written := all.writeLoc (bs := toBytes n data[l].toNat) (by rwa [toBytes_length]) (by rwa [toBytes_length])
  have marked {f} (h : (v.writeLoc (.gl q y) (toBytes n data[l].toNat)).ShowsAll (lineKey s) f) :
      (v.perform (.store n z fe addr data) l (.gl q y)).1.ShowsAll (lineKey s) f := by
    cases fe
    · exact h
    · exact h.setFe (.gl q y) true
  rw [((marked written).of_stored made.memory).plainByte, toBytes_length]

/-- Settles O19: the one lane's access runs out as written, and accesses of many lanes change what their addresses name. -/
theorem globalStore : Obligations.GlobalStore := by
  unfold Obligations.GlobalStore
  constructor
  · intro x hx h mode d a b s s' l q y c hm hc hl hq hs found free hk
    obtain ⟨snap, -, -⟩ := id hq
    rw [snap] at found free
    obtain ⟨t, ht, gs, j, made⟩ := accessed_of_does (does_store hx h mode d a b s) hc hl hq
      ⟨⟨_, _, by rw [OpKind.req, spaceOf_global hm], found, free⟩, nofun⟩ nofun
    exact ⟨t, ht, made.plainByte_store hs (bytes_pos_of_mem_stores x hx) hk (State.stored_of_locate found gs j)⟩
  · intro h m d a b mode sr scope w rt cr bs cs s t c x hx hm hn hs hl ht
    obtain ⟨⟨f, shows, same⟩, bb, sp⟩ := writers_kept hx hm hn hs hl ht
    exact ⟨fun pa hpa => (shows.plainByte pa).trans (same pa hpa), bb, sp⟩

end
end Sys2Proof.Machine
end

