-- ==== Sys2Proof/Proofs/OneLaneAccesses.lean ====
section
/-! PROOFS. The accesses of one lane and their data (R162, R163, R167, R169, R172, R176): O16. -/
namespace Sys2Proof.Machine
open Sys2Proof.Claims

noncomputable section

/-! ### The data of an access (R162, R163, R167, R169, R172, R176) -/

theorem State.ReadsAs.readLoc_toBytes {s : State} {loc : Loc} {n v : Nat} (h : s.ReadsAs loc (toBytes n v)) : (s.readLoc loc n).2 = toBytes n v := by
  have read := h.readLoc
  rwa [toBytes_length] at read

section
variable {s v : State} {loc : Loc} {n : Nat}

/-- A read-modify-write made at the host port where it is one of the system (R173). -/
def State.atPort (s : State) (sys : Bool) (loc : Loc) : State := if sys then s.toPort loc else s

theorem State.atPort_memOnly (s : State) (sys : Bool) (loc : Loc) : s.MemOnly (s.atPort sys loc) := by
  unfold State.atPort
  split
  · exact s.toPort_memOnly loc
  · exact .refl s

theorem State.atPort_withRun (s : State) (gs : List Group) (j : Issue) (sys : Bool) (loc : Loc) :
    (s.withRun gs j).atPort sys loc = (s.atPort sys loc).withRun gs j := by
  unfold State.atPort
  split
  · exact s.toPort_withRun gs j loc
  · rfl

theorem State.Placed.atPort (h : s.Placed) (sys : Bool) (loc : Loc) : (s.atPort sys loc).Placed := by
  unfold State.atPort State.toPort
  repeat' split
  · exact h.evict _
  · exact h
  · exact h
  · exact h

theorem State.Placed.readLoc_any (h : s.Placed) (loc : Loc) (n : Nat) : (s.readLoc loc n).1.Placed := by
  cases loc with
  | gl _ _ => exact h.readLoc
  | sp _ _ => exact h
  | bb _ => exact h

/-- What a read-modify-write leaves at its place is read there. -/
theorem State.readsAs_modify (h : v.Placed) (hp : v.HasPlace loc) (sys : Bool) (x : Nat) :
    (((v.atPort sys loc).readLoc (portLoc sys loc) n).1.writeLoc (portLoc sys loc) (toBytes n x)).ReadsAs loc (toBytes n x) := by
  have read := (v.atPort_memOnly sys loc).trans (State.readLoc_memOnly _ (portLoc sys loc) n)
  exact State.readsAs_writeLoc ((h.atPort sys loc).readLoc_any _ _) (read.hasPlace.mpr hp) sys

end

/-- The value that a read-modify-write finds. -/
def State.oldAt (s : State) (sys : Bool) (loc : Loc) (n : Nat) : Nat := ofBytes ((s.atPort sys loc).readLoc (portLoc sys loc) n).2

theorem State.oldAt_withRun (s : State) (gs : List Group) (j : Issue) (sys : Bool) (loc : Loc) (n : Nat) :
    (s.withRun gs j).oldAt sys loc n = s.oldAt sys loc n := by
  rw [State.oldAt, State.atPort_withRun, State.readLoc_withRun]
  rfl

section
variable {s v t : State} {gs : List Group} {j : Issue} {l : Fin 32} {loc : Loc} {gi n : Nat} {cls : Cls}

theorem State.Accessed.feAt {k : OpKind} (made : v.Accessed k l loc gi cls t) : t.feAt loc = (v.perform k l loc).1.feAt loc :=
  State.feAt_of_stored made.memory

/-- A load gets the bytes at its place, and leaves its granule empty where it clears it. -/
theorem State.Accessed.of_load {sg fe clr : Bool} {z : Space} {d : Nat} {addr : PerLane Dword}
    (made : (s.withRun gs j).Accessed (.load n sg z d fe clr addr) l loc gi cls t) (hf : fe = true → s.HasPlace loc ∧ s.feAt loc = true) :
    ∃ o, (t.grp gi).ops = [o] ∧ o.cls = cls ∧ o.todo = 0#32 ∧ o.got[l] = some (BitVec.ofNat 128 (ofBytes (s.readLoc loc n).2))
      ∧ (fe = true → t.feAt loc = !clr) := by
  obtain ⟨o, ops, hcls, todo, got⟩ := made.op
  refine ⟨o, ops, hcls, todo, ?_, fun h => ?_⟩
  · rw [← congrArg Prod.snd (s.readLoc_withRun gs j loc n)]
    exact got _ rfl
  · obtain ⟨place, full⟩ := hf h
    have read := (s.withRun gs j).readLoc_memOnly loc n
    rw [made.feAt, h]
    cases clr
    · exact (read.feAt loc).trans full
    · exact State.feAt_setFe (read.hasPlace.mpr place) false

/-- A store leaves its data at its place, and its granule full where it fills it. -/
theorem State.Accessed.of_store {fe : Bool} {z : Space} {addr : PerLane Dword} {data : PerLane (BitVec 128)}
    (made : v.Accessed (.store n z fe addr data) l loc gi cls t) (placed : v.Placed) (place : v.HasPlace loc) :
    (t.readLoc loc n).2 = toBytes n data[l].toNat ∧ t.feAt loc = (fe || v.feAt loc) := by
  have written : (v.writeLoc loc (toBytes n data[l].toNat)).ReadsAs loc (toBytes n data[l].toNat) := by
    have := State.readsAs_writeLoc (bs := toBytes n data[l].toNat) placed place false
    cases loc <;> exact this
  have room : (v.writeLoc loc (toBytes n data[l].toNat)).HasPlace loc := by
    cases loc with
    | gl _ _ => trivial
    | sp _ _ => exact Nat.lt_of_lt_of_eq place (updAt_length ..).symm
    | bb _ => exact place
  rw [made.feAt]
  cases fe
  · exact ⟨(written.of_stored made.memory).readLoc_toBytes, State.feAt_writeLoc _⟩
  · exact ⟨((written.setFe true).of_stored made.memory).readLoc_toBytes, State.feAt_setFe room true⟩

/-- An atomic gets the old value and leaves the new one. -/
theorem State.Accessed.of_atom {f : AtomFn} {z : Space} {sys ord rt : Bool} {d : Nat} {addr : PerLane Dword} {y y' : PerLane Dword}
    (made : (s.withRun gs j).Accessed (.atom f n z sys ord rt d addr y y') l loc gi cls t) (placed : s.Placed) (place : s.HasPlace loc) :
    ∃ o, (t.grp gi).ops = [o] ∧ o.cls = cls ∧ o.todo = 0#32 ∧ o.got[l] = some (BitVec.ofNat 128 (s.oldAt sys loc n))
      ∧ (t.readLoc loc n).2 = toBytes n (f.apply (8 * n) (s.oldAt sys loc n) y[l].toNat y'[l].toNat) := by
  obtain ⟨o, ops, hcls, todo, got⟩ := made.op
  rw [← s.oldAt_withRun gs j]
  have left := State.readsAs_modify (n := n) (v := s.withRun gs j) (loc := loc) ⟨placed.apart, placed.whole⟩ place sys
  exact ⟨o, ops, hcls, todo, got _ rfl, ((left _).of_stored made.memory).readLoc_toBytes⟩

/-- An anchored add leaves its cell with the term added. -/
theorem State.Accessed.of_aadd {z : Space} {sys i32 : Bool} {addr : PerLane Dword} {term : PerLane Word}
    (made : (s.withRun gs j).Accessed (.aadd z sys i32 addr term) l loc gi cls t) (placed : s.Placed) (place : s.HasPlace loc) :
    (t.readLoc loc 16).2 = toBytes 16 (aaddCell i32 (s.oldAt sys loc 16) term[l]) := by
  rw [← s.oldAt_withRun gs j]
  have left := State.readsAs_modify (n := 16) (v := s.withRun gs j) (loc := loc) ⟨placed.apart, placed.whole⟩ place sys
  exact ((left _).of_stored made.memory).readLoc_toBytes

end

theorem AtomFn.apply_atomOp {f : AtomFn} (n old : Nat) (y z z' : PerLane Dword) (l : Fin 32) (hz : f = .cas → z' = z) :
    f.apply n old (if f = .inc then Vector.replicate 32 0 else y)[l].toNat (if f = .cas then z' else Vector.replicate 32 0)[l].toNat
      = f.apply n old y[l].toNat z[l].toNat := by
  cases f with
  | cas => rw [hz rfl]; rfl
  | _ => rfl

/-! ### The words -/

theorem spaceOf_ne_bb {mode : BitVec 2} (h : mode ≠ 2#2) : spaceOf mode ≠ .bb := by
  unfold spaceOf
  rw [if_neg h]
  split <;> decide

section
variable {s s' : State} {w : Who} {r : Req} {ea : Dword} {loc : Loc} (h : s.locate w r ea = (s', .ok loc))
include h

theorem State.placed_of_locate (hs : s.Placed) : s'.Placed := by
  obtain ⟨e, rfl⟩ := State.eq_of_locate h
  exact ⟨hs.apart, hs.whole⟩

theorem State.hasPlace_of_locate {mode : BitVec 2} (hm : mode ≠ 2#2) (hr : r.space = spaceOf mode) (hw : w.team < s.teams.length) :
    s'.HasPlace loc := by
  have place := State.locate_hasPlace h (hr ▸ spaceOf_ne_bb hm) hw
  obtain ⟨e, rfl⟩ := State.eq_of_locate h
  exact place

theorem State.feAt_of_locate : s'.feAt loc = s.feAt loc := by
  obtain ⟨e, rfl⟩ := State.eq_of_locate h
  rfl

end
section
variable {h : Hdr} {mode : BitVec 2} {d a b : BitVec 6} {s s' : State} {l : Fin 32} {loc : Loc} (hl : (wctx h s).lanes = lane1 l.val) (hq : Quiet s)
  (team : s.iss.snap.team < s.teams.length)
include hl hq team

theorem load_accesses {x : Nat × Bool × Bool × Bool × Mem} (hx : x ∈ loads) (hc : Clear (specLd h x.1 mode d a b) s)
    (hp : partialHaar (wctx h s) (dataRun x.1 d) = false)
    (found : s.locate (s.whoOf s.iss.snap) { space := spaceOf mode, bytes := x.1, acc := .r } (addrOf (wctx h s) h mode a b)[l] = (s', .ok loc))
    (free : s.heldFault (s.whoOf s.iss.snap) loc x.1 = none) (full : x.2.2.1 = true → mode ≠ 2#2 ∧ s.feAt loc = true) :
    ∃ t o, exec (x.2.2.2.2 h mode d a b) s = .next t ∧ (t.grp s.iss.gi).ops = [o] ∧ o.cls = .ld ∧ o.todo = 0#32
      ∧ o.got[l] = some (BitVec.ofNat 128 (ofBytes (s'.readLoc loc x.1).2)) ∧ (x.2.2.1 = true → t.feAt loc = !x.2.2.2.1) := by
  obtain ⟨t, ht, gs, j, made⟩ := accessed_of_does (does_load (exec_of_mem_loads x hx h mode d a b s) hp) hc hl hq
    ⟨⟨_, _, rfl, found, free⟩, fun hf => (full hf).2⟩ nofun
  obtain ⟨o, result⟩ := made.of_load fun hf =>
    ⟨State.hasPlace_of_locate found (full hf).1 rfl team, (State.feAt_of_locate found).trans (full hf).2⟩
  exact ⟨t, o, ht, result⟩

variable (placed : s.Placed) (hm : mode ≠ 2#2)
include placed hm

theorem store_accesses {x : Nat × Bool × Mem} (hx : x ∈ stores) (hc : Clear (specSt h x.1 mode d a b) s)
    (found : s.locate (s.whoOf s.iss.snap) { space := spaceOf mode, bytes := x.1, acc := .w } (addrOf (wctx h s) h mode a b)[l] = (s', .ok loc))
    (free : s.heldFault (s.whoOf s.iss.snap) loc x.1 = none) :
    ∃ t o, exec (x.2.2 h mode d a b) s = .next t ∧ (t.grp s.iss.gi).ops = [o] ∧ o.cls = .st ∧ o.todo = 0#32
      ∧ (t.readLoc loc x.1).2 = toBytes x.1 ((dataOf (wctx h s) d x.1)[l]).toNat ∧ t.feAt loc = (x.2.1 || s.feAt loc) := by
  obtain ⟨t, ht, gs, j, made⟩ := accessed_of_does (does_store hx h mode d a b s) hc hl hq ⟨⟨_, _, rfl, found, free⟩, nofun⟩ nofun
  obtain ⟨o, ops, cls, todo, -⟩ := made.op
  have here := State.placed_of_locate found placed
  have place := State.hasPlace_of_locate found hm rfl team
  obtain ⟨read, full⟩ := made.of_store ⟨here.apart, here.whole⟩ place
  have before := State.feAt_of_locate found
  exact ⟨t, o, ht, ops, cls, todo, read, full.trans (congrArg (x.2.1 || ·) before)⟩

variable {f : AtomFn} {m : Bool} {sr : BitVec 6} {scope : BitVec 2} {w rt : Bool} {cr : BitVec 6} {bs cs : Bool}

theorem atom_accesses {i : Instr} (hx : exec i s = .next (atomWord f h m d a b mode sr scope w rt cr bs cs s))
    (hc : Clear (specOfAtom f h d a b mode sr w rt bs cs cr) s) (hp : partialHaar (wctx h s) (atomRun w rt d) = false)
    (ord : (m && s.det s.iss.snap) = true → s.iss.snap.tokenDone = false ∧ s.iss.snap.owed = 0#32 ∧ s.holdsToken s.iss.snap = true
      ∧ s.onCore s.iss.gi = true)
    {r : Req} (hr : r = { space := spaceOf mode, bytes := if w then 8 else 4, acc := .a, noPort := scope = 3#2 && !f.portable })
    (found : s.locate (s.whoOf s.iss.snap) r (addrOf (wctx h s) h mode a sr)[l] = (s', .ok loc))
    (free : s.heldFault (s.whoOf s.iss.snap) loc (if w then 8 else 4) = none) {z : PerLane Dword}
    (hz : f = .cas → atomArg (wctx h s) w cs cr = z) :
    ∃ t o, exec i s = .next t ∧ (t.grp s.iss.gi).ops = [o] ∧ o.cls = (if rt then .ld else .st) ∧ o.todo = 0#32
      ∧ o.got[l] = some (BitVec.ofNat 128 (s'.oldAt (scope = 3#2) loc (if w then 8 else 4)))
      ∧ (t.readLoc loc (if w then 8 else 4)).2 = toBytes (if w then 8 else 4) (f.apply (8 * if w then 8 else 4)
        (s'.oldAt (scope = 3#2) loc (if w then 8 else 4)) ((atomArg (wctx h s) w bs b)[l]).toNat (z[l]).toNat) := by
  subst hr
  have undone : (m && s.det s.iss.snap && s.iss.snap.tokenDone) = false := by
    cases hd : m && s.det s.iss.snap with
    | false => rfl
    | true => exact (ord hd).1
  obtain ⟨t, ht, gs, j, made⟩ := accessed_of_does (does_atom hx hp undone) hc hl hq ⟨⟨_, _, rfl, found, free⟩, nofun⟩ fun hk => (ord hk).2
  obtain ⟨o, result⟩ := made.of_atom (State.placed_of_locate found placed) (State.hasPlace_of_locate found hm rfl team)
  rw [AtomFn.apply_atomOp _ _ _ _ _ l hz] at result
  exact ⟨t, o, ht, result⟩

theorem aadd_accesses (hc : Clear (specAtom h 0#6 a b mode sr false false bs true false false 0#6) s)
    (found : s.locate (s.whoOf s.iss.snap) { space := spaceOf mode, bytes := 16, acc := .a, noPort := scope = 3#2 }
      (addrOf (wctx h s) h mode a sr)[l] = (s', .ok loc)) (free : s.heldFault (s.whoOf s.iss.snap) loc 16 = none) :
    ∃ t o, exec (.aadd h a b mode sr scope w bs) s = .next t ∧ (t.grp s.iss.gi).ops = [o] ∧ o.cls = .st ∧ o.todo = 0#32
      ∧ (t.readLoc loc 16).2 = toBytes 16 (aaddCell w (s'.oldAt (scope = 3#2) loc 16) (lowW (atomArg (wctx h s) false bs b)[l])) := by
  have hd : Does (.aadd h a b mode sr scope w bs) (specAtom h 0#6 a b mode sr false false bs true false false 0#6) s
      (s.advance.startMem (wctx h s) .st (.aadd (spaceOf mode) (scope = 3#2) w (addrOf (wctx h s) h mode a sr)
        ((atomArg (wctx h s) false bs b).map fun x => lowW x)) []) := does_of rfl rfl
  obtain ⟨t, ht, gs, j, made⟩ := accessed_of_does hd hc hl hq ⟨⟨_, _, rfl, found, free⟩, nofun⟩ nofun
  obtain ⟨o, ops, cls, todo, -⟩ := made.op
  have read := made.of_aadd (State.placed_of_locate found placed) (State.hasPlace_of_locate found hm rfl team)
  rw [Fin.getElem_fin, Vector.getElem_map] at read
  exact ⟨t, o, ht, ops, cls, todo, read⟩

end

/-- Settles O16: the one lane's access runs out at its place, and what it leaves there is read back. -/
theorem memoryAccesses : Obligations.MemoryAccesses := by
  unfold Obligations.MemoryAccesses
  intro h mode d a b s s' l loc c who
  have ordend := does_ordend h s
  refine ⟨fun hd => ?_, fun hd => ?_, fun hl hq team whole apart => ⟨?_, ?_, ?_⟩⟩
  · rwa [if_pos hd] at ordend
  · rwa [if_neg (ne_true_of_eq_false hd)] at ordend
  · intro x hx r hc hp found free full
    exact load_accesses hl hq team hx hc hp found free full
  · intro x hx r hm hc found free
    exact store_accesses hl hq team ⟨apart, whole⟩ hm hx hc found free
  · intro m sr scope w rt cr bs cs n ord at_ sys old made hm
    refine ⟨fun hp token free => ⟨?_, ?_⟩, ?_⟩
    · intro x hx hc found
      obtain ⟨ne, he⟩ := exec_of_mem_atoms x hx h m d a b mode sr scope w rt bs s
      rw [← specOfAtom_of_ne_cas ne] at hc
      exact atom_accesses hl hq team ⟨apart, whole⟩ hm he hc hp token rfl found free fun e => absurd e ne
    · intro hc found
      exact atom_accesses (f := .cas) hl hq team ⟨apart, whole⟩ hm rfl hc hp token (by simp [n, AtomFn.portable]) found free fun _ => rfl
    · intro hc free found
      exact aadd_accesses hl hq team ⟨apart, whole⟩ hm hc found free

end
end Sys2Proof.Machine
end

