-- ==== Sys2Proof/Proofs/TeamEvents.lean ====
section
/-! PROOFS. The scheduler's steps: ranges, placement, resumption, parks (R191, R315, R324 to R326, R345, R442, R494): O38. -/
namespace Sys2Proof.Machine
open Sys2Proof.Claims

noncomputable section

/-! ### Ranges (R324) -/

section
variable {s : State} {k : Nat} {kn : Kernel} (hk : s.kernels[k]? = some kn)
include hk

/-- The range that a die takes is the next `chunk` teams of the kernel. -/
theorem dieRangeTake_zero (h : s.wantsRange 0 kn = true) : exec (.dieRangeTake 0 k) s = .next (s.onKernel k fun x =>
    { x with next := min (x.next + x.h.chunk) x.h.nteam, range0 := some (kn.next, min (kn.next + kn.h.chunk) kn.h.nteam) }) := by
  refine next_congr ?_
  simp [hk, h]

theorem dieRangeTake_one (h0 : s.wantsRange 0 kn = false) (h1 : s.wantsRange 1 kn = true) :
    exec (.dieRangeTake 1 k) s = .next (s.onKernel k fun x =>
      { x with next := min (x.next + x.h.chunk) x.h.nteam, range1 := some (kn.next, min (kn.next + kn.h.chunk) kn.h.nteam) }) := by
  refine next_congr ?_
  simp [hk, h0, h1]

/-- Die 0 is served first. -/
theorem dieRangeTake_one_of_zero (h0 : s.wantsRange 0 kn = true) : exec (.dieRangeTake 1 k) s = .next s := by
  refine next_congr ?_
  simp [hk, h0]

end

/-- Die 0 asks for a range of a running kernel of which it has none, while teams are left and a core of it has room. -/
theorem State.wantsRange_zero {s : State} {kn : Kernel} (hr : kn.range 0 = none) (hs : kn.st = .running)
    (hc : (s.ctx kn.ctx).st.live = true) (hl : kn.loose = false) (hn : kn.next < kn.h.nteam)
    (room : ((List.range 256).any fun i => s.fits i ⟨2 ^ kn.h.w1, spUp kn.h.scr, 0⟩ []) = true) : s.wantsRange 0 kn = true := by
  simp only [State.wantsRange, hr, hs, hc, hl, hn, Nat.zero_mul, Nat.zero_add, room]
  decide

/-! ### Placement and resumption (R325, R326, R345) -/

section
variable {s : State} {core : Nat} {c y : NextTeam}

/-- Where the best candidate fits on a core of its die, a new team that the core has chosen starts there. -/
theorem teamPlacement_of_chosen (hc : (s.cands core).head? = some c)
    (fits : ((List.range 256).any fun i => s.fits (dieOf core * 256 + i) (s.need c) []) = true) (hy : s.chosen core = some y)
    (hp : y.parked = none) (hh : s.templateHeld y.kernel = false) :
    exec (.teamPlacement core) s = .next (s.placeTeam y.kernel y.idx core) := by
  have room : ((List.range 256).all fun i => !s.fits (dieOf core * 256 + i) (s.need c) []) = false := by
    rw [← List.not_any_eq_all_not, fits]
    rfl
  obtain ⟨cs, cands⟩ := List.head?_eq_some_iff.mp hc
  refine next_congr ?_
  simp only [cands, room, Bool.and_false, Bool.false_eq_true, if_false, hy, hp, hh, Option.isNone_none, Bool.not_false, Bool.and_self, if_true]

theorem teamResume_of_chosen {n : Nat} (hy : s.chosen core = some y) (hp : y.parked = some n) :
    exec (.teamResume core) s = .next (s.resumeTeam n core) := by
  refine next_congr ?_
  simp only [hy, hp]

end

/-! ### Parks (R191, R315, R442, R494) -/

section
variable {s : State} {t : Nat} {x : Team} (ht : s.teams[t]? = some x)
include ht

theorem tokenPark_of_wait (h : s.tokenWait x = true) : exec (.tokenPark t) s = .next (s.askPark t .token) := by
  refine next_congr ?_
  simp only [ht, h, if_true]

theorem gridBarrierPark_of_wait (h : s.gridWait x = true) : exec (.gridBarrierPark t) s = .next (s.askPark t .grid) := by
  refine next_congr ?_
  simp only [ht, h, if_true]

theorem teamPark_of_place {kn : Kernel} {why : ParkWhy} {off : Nat} (hx : x.st = .leaving why) (can : s.canPark x = true)
    (hk : s.kernels[x.kernel]? = some kn) (place : s.savePlace kn.ctx kn.h.recordSize = some off) :
    exec (.teamPark t) s = .next (s.parkTeam t off why) := by
  refine next_congr ?_
  simp only [ht, hx, can, hk, place, Bool.not_true, Bool.false_eq_true, if_false]

end

end
end Sys2Proof.Machine

namespace Sys2Proof.Claims
open Sys2Proof.Machine

noncomputable section

/-- Settles O38: each step of the scheduler finds what its own lemma names. -/
theorem teamEvents : Obligations.TeamEvents := by
  unfold Obligations.TeamEvents
  intro s core k t kn x c
  exact ⟨fun hk hr hs hc hl hn room => dieRangeTake_zero hk (State.wantsRange_zero hr hs hc hl hn room), dieRangeTake_one_of_zero,
    dieRangeTake_one, fun _ hc fits y hy => ⟨teamPlacement_of_chosen hc fits hy, fun n => teamResume_of_chosen hy⟩,
    fun ht => ⟨tokenPark_of_wait ht, gridBarrierPark_of_wait ht, fun why off => teamPark_of_place ht⟩⟩

end
end Sys2Proof.Claims
end

