-- ==== Sys2Proof/Proofs/EngineAccess.lean ====
section
/-! PROOFS. Accesses of engines, and the jobs and records that operations on memory leave alone (R159, R160, R195, R385). -/
namespace Sys2Proof.Machine
open Sys2Proof.Claims

noncomputable section

/-! ### Jobs and contexts left alone -/

/-- The jobs and the contexts, which no access and no page operation changes. -/
def State.staff (s : State) : List Job × List Ctx := (s.jobs, s.ctxs)

section
variable {s t : State}

theorem State.MemOnly.staff (h : s.MemOnly t) : t.staff = s.staff := by rw [h]; rfl

theorem State.jobs_of_staff (h : t.staff = s.staff) : t.jobs = s.jobs := congrArg Prod.fst h

theorem State.job?_of_jobs (h : t.jobs = s.jobs) (uid : Nat) : t.job? uid = s.job? uid := by rw [State.job?, State.job?, h]

variable (s)

@[simp] theorem State.readLoc_staff (loc : Loc) (n : Nat) : (s.readLoc loc n).1.staff = s.staff := (s.readLoc_memOnly loc n).staff

@[simp] theorem State.writeLoc_staff (loc : Loc) (bs : List Byte) : (s.writeLoc loc bs).staff = s.staff := by
  cases loc with
  | gl pa x => exact (s.writeLoc_memOnly pa x bs).staff
  | sp _ _ => rfl
  | bb _ => rfl

@[simp] theorem State.setFe_staff (loc : Loc) (full : Bool) : (s.setFe loc full).staff = s.staff := by cases loc <;> rfl

@[simp] theorem State.locate_staff (u : Who) (r : Req) (ea : Dword) : (s.locate u r ea).1.staff = s.staff := by
  obtain ⟨e, he⟩ := s.locate_eq u r ea
  rw [he]
  rfl

end

/-! ### Places of engines (R159, R385) -/

section
variable {s s1 : State} {u : Who} {r : Req} {ea : Dword}

/-- An engine's translation is a walk, which no TLB keeps. -/
theorem State.locate_engine (hu : u.core = none) : (s.locate u r ea).1 = s := by
  have xlat (c a : Nat) : (s.xlat u.core c a).1 = s := by rw [hu]; rfl
  unfold State.locate
  dsimp only
  split
  · rfl
  · split
    · split
      · rfl
      · rw [State.locateGl_fst, xlat]
    · split <;> rfl
    · split <;> rfl

theorem State.eq_of_locate_engine {x : Except (Nat × Nat) Loc} (hu : u.core = none) (h : s.locate u r ea = (s1, x)) : s1 = s := by
  have same := State.locate_engine (s := s) (r := r) (ea := ea) hu
  rwa [h] at same

/-- An address that is aligned passes the check of its alignment, and no other check looks at it. -/
theorem State.locate_unaligned {z : Space} {acc : Acc} {n : Nat} (h : ea.toNat % n = 0) :
    s.locate u { space := z, bytes := n, acc := acc, align := 1 } ea = s.locate u { space := z, bytes := n, acc := acc } ea := by
  unfold State.locate
  dsimp only
  rw [Nat.mod_one, if_neg (not_not_intro rfl), if_neg (not_not_intro h)]
  rfl

theorem ofNat_aligned {a : Nat} (h : a % 16 = 0) : (BitVec.ofNat 64 a).toNat % 16 = 0 := by
  rw [BitVec.toNat_ofNat]
  omega

theorem State.lateFault_of_heldFault {loc : Loc} {n : Nat} (h : s.heldFault u loc n = none) : s.lateFault u loc n = none := by
  unfold State.heldFault at h
  split at h
  · cases h
  · exact h

end

/-! ### Reads of engines -/

section
variable {s s1 : State} {u : Who} {z : Space} {a n : Nat} {acc : Acc} {loc : Loc}

theorem State.readLoc_length (s : State) (loc : Loc) (n : Nat) : (s.readLoc loc n).2.length = n := by
  cases loc with
  | gl _ _ => simp [State.readLoc]
  | sp t off =>
    unfold State.readLoc Memory.readN
    dsimp only
    split <;> simp
  | bb _ => simp [State.readLoc, Memory.readN]

theorem State.fetch_of_locate (hl : s.locate u { space := z, bytes := n, acc := acc, align := 1 } (BitVec.ofNat 64 a) = (s1, .ok loc))
    (hf : s1.heldFault u loc n = none) : s.fetch u z a n acc = ((s1.readLoc loc n).1, .ok (s1.readLoc loc n).2) := by
  rw [State.fetch, hl]
  simp only [hf]

theorem State.fetch_memOnly (hu : u.core = none) : s.MemOnly (s.fetch u z a n acc).1 := by
  rcases hl : s.locate u { space := z, bytes := n, acc := acc, align := 1 } (BitVec.ofNat 64 a) with ⟨v, f | loc⟩
  all_goals
    obtain rfl := State.eq_of_locate_engine hu hl
    rw [State.fetch, hl]
    dsimp only
  · exact .refl v
  · split
    · exact .refl v
    · exact v.readLoc_memOnly loc n

theorem State.fetchLong_memOnly (hu : u.core = none) (k : Nat) (s : State) (a n : Nat) :
    s.MemOnly (State.fetchLong k s u z a n acc).1 := by
  induction k generalizing s a n with
  | zero => exact .refl s
  | succ k ih =>
    rw [State.fetchLong]
    split
    · exact .refl s
    · dsimp only
      have first := State.fetch_memOnly (s := s) (z := z) (a := a) (n := min n (16 - a % 16)) (acc := acc) hu
      rcases hf : s.fetch u z a (min n (16 - a % 16)) acc with ⟨v, f | bs⟩
      all_goals rw [hf] at first
      · exact first
      · have rest := ih v (a + min n (16 - a % 16)) (n - min n (16 - a % 16))
        rcases hr : State.fetchLong k v u z (a + min n (16 - a % 16)) (n - min n (16 - a % 16)) acc with ⟨w, f | cs⟩
        all_goals
          rw [hr] at rest
          simp only [hr]
          exact first.trans rest

/-- A read of an engine changes memory alone. -/
theorem State.readVa_memOnly (hu : u.core = none) : s.MemOnly (s.readVa u z a n acc).1 := State.fetchLong_memOnly hu _ s a n

end

/-! ### Writes of engines (R195) -/

section
variable {s s1 : State} {u : Who} {z : Space} {a : Nat} {bs : List Byte} {loc : Loc}

/-- A granule is written in one access, which fills it. -/
theorem State.store_of_locate (ha : a % 16 = 0) (len : bs.length = 16)
    (hl : s.locate u { space := z, bytes := 16, acc := .w } (BitVec.ofNat 64 a) = (s1, .ok loc)) (hf : s1.heldFault u loc 16 = none) :
    s.store u z a bs (some true) = ((s1.writeLoc loc bs).setFe loc true, none) := by
  rw [State.store, len, State.locate_unaligned (ofNat_aligned ha), hl]
  simp only [State.lateFault_of_heldFault hf]

theorem State.store_of_locate_error {f : Nat × Nat} (ha : a % 16 = 0) (len : bs.length = 16)
    (hl : s.locate u { space := z, bytes := 16, acc := .w } (BitVec.ofNat 64 a) = (s1, .error f)) :
    s.store u z a bs (some true) = (s1, some f) := by
  rw [State.store, len, State.locate_unaligned (ofNat_aligned ha), hl]

theorem State.store_staff (s : State) (u : Who) (z : Space) (a : Nat) (bs : List Byte) (fe : Option Bool) :
    (s.store u z a bs fe).1.staff = s.staff := by
  have same := s.locate_staff u { space := z, bytes := bs.length, acc := .w, align := 1 } (BitVec.ofNat 64 a)
  rcases hl : s.locate u { space := z, bytes := bs.length, acc := .w, align := 1 } (BitVec.ofNat 64 a) with ⟨v, f | loc⟩
  all_goals
    rw [hl] at same
    rw [State.store, hl]
    dsimp only
  · exact same
  · split
    · exact same
    · cases fe <;> simpa using same

theorem State.HasPlace.writeLoc (h : s.HasPlace loc) : (s.writeLoc loc bs).HasPlace loc := by
  cases loc with
  | gl _ _ => trivial
  | sp n off => exact Nat.lt_of_lt_of_eq h (updAt_length ..).symm
  | bb _ => exact h

/-- What a write leaves at its place is read there, and the granule is full where the write fills it. -/
theorem State.read_of_written {v : State} (hs : s.Placed) (hp : s.HasPlace loc) {full : Bool}
    (hv : v.stored = ((s.writeLoc loc bs).setFe loc full).stored) : (v.readLoc loc bs.length).2 = bs ∧ v.feAt loc = full := by
  have here : portLoc false loc = loc := by cases loc <;> rfl
  have written := State.readsAs_writeLoc (bs := bs) hs hp false
  rw [here] at written
  have reads := (written.setFe full).of_stored hv
  exact ⟨reads.readLoc, (State.feAt_of_stored hv).trans (State.feAt_setFe hp.writeLoc full)⟩

end

end
end Sys2Proof.Machine
end

