-- ==== Sys2Proof/Proofs/JobEnds.lean ====
section
/-! PROOFS. Jobs and records: what ends a job, and what it leaves of the others (R294, R296, R298, R395, R428). -/
namespace Sys2Proof.Machine
open Sys2Proof.Claims

noncomputable section

/-! ### Pages let go of (R394, R395, R411) -/

section
variable (s : State)

/-- The place of a record is in global memory. -/
theorem State.recLoc_gl {c n : Nat} {p : Pool} {loc : Loc} (h : s.recLoc c p n = .ok loc) : ∃ pa x, loc = .gl pa x := by
  unfold State.recLoc at h
  dsimp only at h
  repeat' split at h
  all_goals cases h
  exact ⟨_, _, rfl⟩

theorem State.putRec_memOnly (c : Nat) (p : Pool) (n : Nat) (r : PRec) : s.MemOnly (s.putRec c p n r) := by
  unfold State.putRec
  split
  · exact .refl s
  · rename_i found
    obtain ⟨pa, x, rfl⟩ := s.recLoc_gl found
    exact s.writeLoc_memOnly pa x _

@[simp] theorem State.putRec_staff (c : Nat) (p : Pool) (n : Nat) (r : PRec) : (s.putRec c p n r).staff = s.staff := (s.putRec_memOnly c p n r).staff

@[simp] theorem State.freeIfDue_staff (c pi : Nat) (p : Pool) (n : Nat) : (s.freeIfDue c pi p n).staff = s.staff := by
  unfold State.freeIfDue
  dsimp only
  split
  · exact s.putRec_staff ..
  · rfl

@[simp] theorem State.dropRequests_staff : s.dropRequests.staff = s.staff :=
  (foldl_same State.staff (fun (s : State) (q : Nat × Nat × Nat) => s.pageCame q.1 q.2.1 q.2.2) (fun _ _ => rfl) _ _).trans rfl

theorem State.startPageIn_staff (acc : State × List (Nat × Nat)) (q : Nat × Nat × Nat) :
    (State.startPageIn acc q).1.staff = acc.1.staff := by
  unfold State.startPageIn
  dsimp only
  repeat' split
  all_goals try rfl
  exact State.putRec_staff ..

@[simp] theorem State.startPageIns_staff : s.startPageIns.staff = s.staff :=
  (foldl_same (fun acc : State × List (Nat × Nat) => acc.1.staff) State.startPageIn State.startPageIn_staff _ _).trans
    s.dropRequests_staff

@[simp] theorem State.pinsGone_staff (ps : List Pin) : (s.pinsGone ps).staff = s.staff := by
  refine (State.startPageIns_staff _).trans (foldl_same State.staff _ (fun s k => ?_) ps s)
  split
  · exact s.freeIfDue_staff ..
  · rfl

end

/-! ### Records that stay (R428) -/

/-- No record of a context goes. -/
structure State.KeepsRecs (s t : State) : Prop where
  mem : ∀ c, ∀ r ∈ (s.ctx c).recs, r ∈ (t.ctx c).recs

section
variable {s t u : State}

theorem State.KeepsRecs.trans (h : s.KeepsRecs t) (h' : t.KeepsRecs u) : s.KeepsRecs u :=
  ⟨fun c r hr => h'.mem c r (h.mem c r hr)⟩

theorem State.keepsRecs_of_ctxs (h : t.ctxs = s.ctxs) : s.KeepsRecs t := by
  refine ⟨fun c r hr => ?_⟩
  rwa [State.ctx, h]

theorem State.keepsRecs_of_staff (h : t.staff = s.staff) : s.KeepsRecs t := State.keepsRecs_of_ctxs (congrArg Prod.snd h)

theorem State.KeepsRecs.refl (s : State) : s.KeepsRecs s := State.keepsRecs_of_ctxs rfl

theorem State.foldl_keepsRecs {α : Type} {f : State → α → State} (h : ∀ (s : State) x, s.KeepsRecs (f s x)) (xs : List α) (s : State) :
    s.KeepsRecs (xs.foldl f s) := by
  induction xs generalizing s with
  | nil => exact .refl s
  | cons x xs ih => exact (h s x).trans (ih _)

theorem State.post_ctx (s : State) (c n : Nat) (r : Rec) : (s.post c r).ctx n
    = if c = n ∧ c < s.ctxs.length then { s.ctx n with recs := (s.ctx n).recs ++ [r] } else s.ctx n := by
  rw [State.ctx, State.ctx, State.post_ctxs, List.getD_eq_getElem?_getD, List.getD_eq_getElem?_getD]
  by_cases e : c = n
  · subst e
    rw [getElem?_updAt_same]
    by_cases hc : c < s.ctxs.length
    · rw [if_pos ⟨rfl, hc⟩, List.getElem?_eq_getElem hc]
      rfl
    · rw [if_neg fun h => hc h.2, List.getElem?_eq_none (Nat.le_of_not_lt hc)]
      rfl
  · rw [if_neg fun h => e h.1, getElem?_updAt_ne _ _ e]

theorem State.post_keepsRecs (s : State) (c : Nat) (r : Rec) : s.KeepsRecs (s.post c r) := by
  refine ⟨fun n x hx => ?_⟩
  rw [State.post_ctx]
  split
  · exact List.mem_append_left _ hx
  · exact hx

theorem State.mem_recs_post {c : Nat} {r : Rec} (h : c < s.ctxs.length) : r ∈ ((s.post c r).ctx c).recs := by
  rw [State.post_ctx, if_pos ⟨rfl, h⟩]
  exact List.mem_append_right _ (List.mem_singleton_self r)

/-! ### Records that a trap leaves (R420) -/

theorem State.parkSystem_keepsRecs (s : State) (gi : Nat) (hm : Bool) (r : Rec) : s.KeepsRecs (s.parkSystem gi hm r) := by
  refine State.KeepsRecs.trans ?_ (State.post_keepsRecs _ _ r)
  refine State.keepsRecs_of_ctxs (foldl_same State.ctxs _ (fun t j => ?_) _ _)
  split <;> rfl

theorem State.trapSystem_keepsRecs (s : State) (gi : Nat) (ls : Lanes) (due : Option Nat) (flg : Nat) :
    s.KeepsRecs (s.trapSystem gi ls due flg) := by
  unfold State.trapSystem
  dsimp only
  split <;> exact s.parkSystem_keepsRecs ..

theorem State.takeTrap_keepsRecs (s : State) (gi : Nat) (rep : Bool) : s.KeepsRecs (s.takeTrap gi rep) := by
  have put (g : Group) : s.KeepsRecs (s.setGrp gi g) := State.keepsRecs_of_ctxs rfl
  unfold State.takeTrap
  dsimp only
  split
  · exact (put _).trans (State.trapSystem_keepsRecs ..)
  · split
    · exact put _
    · exact (put _).trans (State.trapSystem_keepsRecs ..)

theorem State.settleGrp_keepsRecs (s : State) (gi : Nat) (e : Bool) : s.KeepsRecs (s.settleGrp gi e) := by
  have put (s : State) (g : Group) : s.KeepsRecs (s.setGrp gi g) := State.keepsRecs_of_ctxs rfl
  have trap {t : State} (h : s.KeepsRecs t) (rep : Bool) : s.KeepsRecs (t.takeTrap gi rep) := h.trans (t.takeTrap_keepsRecs gi rep)
  unfold State.settleGrp
  split
  · exact .refl s
  · dsimp only
    have settled := put s ((s.grp gi).settle 16)
    generalize s.setGrp gi ((s.grp gi).settle 16) = t at settled ⊢
    have next (g : Group) : s.KeepsRecs (t.setGrp gi g) := settled.trans (put t g)
    split
    on_goal 3 => exact settled
    all_goals
      repeat' split
      exacts [trap (next _) _, trap settled _, trap settled _, trap (next _) _, trap (next _) _, next _, settled]

theorem State.endWaits_keepsRecs (s : State) (gi : Nat) (p : StallKind → Bool) : s.KeepsRecs (s.endWaits gi p) :=
  have ended : s.KeepsRecs (s.onGrp gi fun g => g.endWaits p) := State.keepsRecs_of_ctxs rfl
  ended.trans (State.settleGrp_keepsRecs ..)

theorem State.gridCheck_keepsRecs (s : State) (k : Nat) : s.KeepsRecs (s.gridCheck k) := by
  unfold State.gridCheck
  split
  · exact .refl s
  · dsimp only
    split
    · refine State.KeepsRecs.trans ?_ (State.foldl_keepsRecs (fun s gi => s.endWaits_keepsRecs gi _) _ _)
      exact State.keepsRecs_of_ctxs rfl
    · exact .refl s

theorem State.settle_keepsRecs (s : State) (gi : Nat) (e : Bool) : s.KeepsRecs (s.settle gi e) := by
  unfold State.settle
  dsimp only
  split
  · exact (s.settleGrp_keepsRecs gi e).trans (State.gridCheck_keepsRecs ..)
  · exact s.settleGrp_keepsRecs gi e

/-! ### Operations that complete (R44) -/

theorem State.complete_keepsRecs (s : State) (gi id : Nat) : s.KeepsRecs (s.complete gi id) := by
  refine State.KeepsRecs.trans ?_ (State.settle_keepsRecs ..)
  exact State.keepsRecs_of_ctxs rfl

theorem State.complete_jobs (s : State) (gi id : Nat) : (s.complete gi id).jobs = s.jobs := by
  have still := State.settle_still (s.onGrp gi fun g => (g.onOp id fun o => { o with done := true, todo := 0 }).retire) gi false
  have same := congrArg State.jobs still
  exact same

theorem mem_of_mem_retireCls {c : Cls} {os : List Op} {o : Op} (h : o ∈ retireCls c os) : o ∈ os := by
  induction os with
  | nil => exact h
  | cons x xs ih =>
    rw [retireCls] at h
    split at h
    · split at h
      · exact List.mem_cons_of_mem x (ih h)
      · exact h
    · rcases List.mem_cons.mp h with rfl | h
      · exact List.mem_cons_self
      · exact List.mem_cons_of_mem x (ih h)

theorem Group.mem_of_mem_retire {g : Group} {o : Op} (h : o ∈ g.retire.ops) : o ∈ g.ops :=
  mem_of_mem_retireCls (mem_of_mem_retireCls (mem_of_mem_retireCls (mem_of_mem_retireCls h)))

theorem Group.mem_onOp {g : Group} {id : Nat} {f : Op → Op} {o : Op} (h : o ∈ (g.onOp id f).ops) :
    ∃ x ∈ g.ops, o = if x.id = id then f x else x := by
  obtain ⟨x, hx, e⟩ := List.mem_map.mp h
  exact ⟨x, hx, e.symm⟩

/-- What is left of an operation that has completed, until those before it have, is done. -/
theorem State.done_of_complete {s : State} {gi id : Nat} {o : Op} (h : o ∈ ((s.complete gi id).grp gi).ops) (hid : o.id = id) : o.done = true := by
  rw [State.complete, State.ops_of_still (State.settle_still ..)] at h
  by_cases hg : gi < s.groups.length
  · rw [s.grp_onGrp gi _ hg] at h
    obtain ⟨x, -, rfl⟩ := Group.mem_onOp (Group.mem_of_mem_retire h)
    split at hid
    · rw [if_pos ‹_›]
    · exact absurd hid ‹_›
  · have none : ((s.onGrp gi fun g => (g.onOp id fun o => { o with done := true, todo := 0 }).retire).grp gi).ops = [] := by
      rw [State.grp, List.getD_eq_default _ _ (by rw [State.onGrp_groups, List.length_set]; omega)]
      rfl
    rw [none] at h
    cases h

end

/-! ### Jobs changed in place -/

section
variable {s t : State} {uid : Nat} {j : Job} {f g : Job → Job}

theorem State.uid_of_job? (h : s.job? uid = some j) : j.uid = uid := by simpa using List.find?_some h

theorem State.job?_map (hf : ∀ x, (f x).uid = x.uid) (ht : t.jobs = s.jobs.map f) (uid : Nat) : t.job? uid = (s.job? uid).map f := by
  rw [State.job?, ht, List.find?_map, State.job?]
  congr 2
  funext x
  rw [Function.comp_apply, hf]

theorem State.job?_onJob (hf : ∀ x, (f x).uid = x.uid) (h : s.job? uid = some j) : (s.onJob uid f).job? uid = some (f j) := by
  rw [State.job?_map (s := s) (f := fun x => if x.uid = uid then f x else x) (fun x => by split <;> simp [hf]) rfl, h, Option.map_some,
    if_pos (State.uid_of_job? h)]

theorem State.onJob_onJob (hf : ∀ x, (f x).uid = x.uid) : (s.onJob uid f).onJob uid g = s.onJob uid fun x => g (f x) := by
  simp only [State.onJob, List.map_map]
  congr 1
  refine List.map_congr_left fun x _ => ?_
  simp only [Function.comp_apply]
  by_cases e : x.uid = uid
  · rw [if_pos e, if_pos e, if_pos ((hf x).trans e)]
  · rw [if_neg e, if_neg e, if_neg e]

end

/-! ### The end of a job (R294, R298) -/

/-- A job as its end leaves it. -/
def Job.close (status : Nat) (away : Bool) (j : Job) : Job :=
  { j with st := if status = 0 then .done else .failed, status := status, waits := false, saved := away }

/-- A job that learns of the end of another: it has no edge from it any more, knows of a failure, and goes on where nothing else holds it. -/
def Job.learns (uid status : Nat) (x : Job) : Job :=
  if x.edges.contains uid then
    let es := x.edges.filter fun e => e ≠ uid
    { x with edges := es, depfail := x.depfail || status ≠ 0,
             st := if es = [] && status = 0 && !x.depfail && x.st = JSt.blocked then JSt.submitted else x.st }
  else x

section
variable (x : Job) (uid status : Nat)

@[simp] theorem Job.learns_uid : (x.learns uid status).uid = x.uid := by unfold Job.learns; split <;> rfl
@[simp] theorem Job.learns_status : (x.learns uid status).status = x.status := by unfold Job.learns; split <;> rfl
@[simp] theorem Job.learns_at : (x.learns uid status).at_ = x.at_ := by unfold Job.learns; split <;> rfl

theorem Job.learns_st (h : x.st ≠ .blocked) : (x.learns uid status).st = x.st := by
  unfold Job.learns
  split
  · simp [h]
  · rfl

theorem Job.learns_edges : (x.learns uid status).edges = x.edges.filter fun e => e ≠ uid := by
  unfold Job.learns
  split
  · rfl
  · rename_i h
    refine (List.filter_eq_self.mpr fun e he => ?_).symm
    simp only [decide_eq_true_eq]
    rintro rfl
    exact h (List.contains_iff_mem.mpr he)

theorem Job.learns_depfail : (x.learns uid status).depfail = (x.depfail || (x.edges.contains uid && decide (status ≠ 0))) := by
  unfold Job.learns
  split
  · rename_i h
    simp only [h, Bool.true_and]
  · rename_i h
    rw [Bool.not_eq_true] at h
    simp only [h, Bool.false_and, Bool.or_false]

end

section
variable {s : State} {uid status : Nat} {record : Bool} {j : Job}

theorem State.jobRec_keepsRecs (s : State) (j : Job) (cause detail addr : Nat) (ask : Bool) : s.KeepsRecs (s.jobRec j cause detail addr ask) :=
  s.post_keepsRecs ..

theorem State.jobRec_jobs (s : State) (j : Job) (cause detail addr : Nat) (ask : Bool) : (s.jobRec j cause detail addr ask).jobs = s.jobs := rfl

/-- A completion record goes to memory, or is reported. -/
theorem State.completion_keeps (s : State) (j : Job) : (s.completion j).jobs = s.jobs ∧ s.KeepsRecs (s.completion j) := by
  unfold State.completion
  dsimp only
  split
  · exact ⟨rfl, .refl s⟩
  · generalize toBytes 4 j.word.toNat ++ toBytes 4 j.counts.toNat ++ toBytes 4 j.granules ++ toBytes 4 j.handle.toNat = bs
    have written := s.store_staff (jobWho j false) .gl (cardCaddr j.card) bs (some true)
    rcases hs : s.store (jobWho j false) .gl (cardCaddr j.card) bs (some true) with ⟨v, f | f⟩
    all_goals
      rw [hs] at written
      dsimp only
    · exact ⟨State.jobs_of_staff written, State.keepsRecs_of_staff written⟩
    · exact ⟨(v.jobRec_jobs ..).trans (State.jobs_of_staff written), (State.keepsRecs_of_staff written).trans (v.jobRec_keepsRecs ..)⟩

/-- The state of a job's end before its operation completes: its own end and what the others learn of it, its pins gone, its record written. -/
theorem State.jobClose_eq (hj : s.job? uid = some j) (ho : j.ended = false) : ∃ t : State, s.jobClose uid status record = t.complete j.gi j.op
    ∧ t.jobs = s.jobs.map (fun x => (if x.uid = uid then x.close status (s.jobAway x) else x).learns uid status) ∧ s.KeepsRecs t := by
  unfold State.jobClose
  rw [hj]
  simp only [ho, Bool.false_eq_true, if_false]
  refine ⟨_, rfl, ?_⟩
  generalize hu : State.pinsGone _ _ = u
  have jobs : u.jobs = s.jobs.map fun x => (if x.uid = uid then x.close status (s.jobAway x) else x).learns uid status := by
    rw [← hu, State.jobs_of_staff (State.pinsGone_staff ..), State.onJob, List.map_map]
    rfl
  have recs : s.KeepsRecs u := by
    rw [← hu]
    refine .trans ?_ (State.keepsRecs_of_staff (State.pinsGone_staff ..))
    exact State.keepsRecs_of_ctxs rfl
  split
  · split
    · obtain ⟨same, kept⟩ := u.completion_keeps ‹_›
      exact ⟨same.trans jobs, recs.trans kept⟩
    · exact ⟨jobs, recs⟩
  · exact ⟨jobs, recs⟩

theorem State.jobClose_jobs (hj : s.job? uid = some j) (ho : j.ended = false) : (s.jobClose uid status record).jobs
    = s.jobs.map fun x => (if x.uid = uid then x.close status (s.jobAway x) else x).learns uid status := by
  obtain ⟨t, e, jobs, -⟩ := State.jobClose_eq (status := status) (record := record) hj ho
  rw [e, State.complete_jobs, jobs]

theorem State.jobClose_keepsRecs (hj : s.job? uid = some j) (ho : j.ended = false) : s.KeepsRecs (s.jobClose uid status record) := by
  obtain ⟨t, e, -, recs⟩ := State.jobClose_eq (status := status) (record := record) hj ho
  rw [e]
  exact recs.trans (t.complete_keepsRecs ..)

/-- The job's `cp` operation has completed (R44). -/
theorem State.done_of_jobClose (hj : s.job? uid = some j) (ho : j.ended = false) :
    ∀ x ∈ ((s.jobClose uid status record).grp j.gi).ops, x.id = j.op → x.done = true := by
  obtain ⟨t, e, -⟩ := State.jobClose_eq (status := status) (record := record) hj ho
  rw [e]
  exact fun x => State.done_of_complete

/-- A job that has ended has its status. -/
theorem State.job?_jobClose (hj : s.job? uid = some j) (ho : j.ended = false) : ∃ k, (s.jobClose uid status record).job? uid = some k
    ∧ k.st = (if status = 0 then .done else .failed) ∧ k.status = status ∧ k.at_ = j.at_ := by
  refine ⟨_, (State.job?_map (fun x => ?_) (State.jobClose_jobs hj ho) uid).trans (congrArg _ hj), ?_⟩
  · rw [Job.learns_uid]
    split <;> rfl
  · dsimp only
    rw [if_pos (State.uid_of_job? hj)]
    refine ⟨(Job.learns_st _ _ _ ?_).trans rfl, Job.learns_status .., Job.learns_at ..⟩
    dsimp only [Job.close]
    split <;> exact nofun

/-- Another job has no edge from one that has ended, and knows whether it failed. -/
theorem State.learnt_of_jobClose (hj : s.job? uid = some j) (ho : j.ended = false) {n : Nat} {y : Job} (hy : s.jobs[n]? = some y)
    (ne : y.uid ≠ uid) : ∃ z, (s.jobClose uid status record).jobs[n]? = some z ∧ z.uid = y.uid
      ∧ z.edges = y.edges.filter (fun e => e ≠ uid) ∧ z.depfail = (y.depfail || (y.edges.contains uid && status ≠ 0)) := by
  refine ⟨y.learns uid status, ?_, Job.learns_uid .., Job.learns_edges .., Job.learns_depfail ..⟩
  rw [State.jobClose_jobs hj ho, List.getElem?_map, hy, Option.map_some, if_neg ne]

/-! ### Accesses that fail (R296, R388) -/

/-- An access that fails for PAGE suspends its job, any other fails it; each has its record. -/
theorem State.jobFault_spec {cause detail addr : Nat} (hj : s.job? uid = some j) (ho : j.ended = false) (hc : cause ≠ cHOLD) :
    ∃ k, (s.jobFault uid cause detail addr).job? uid = some k ∧ k.at_ = j.at_
      ∧ (cause = cPAGE → k.st = .suspended ∧ k.waits = true)
      ∧ (cause ≠ cPAGE → k.st = .failed ∧ k.status = if cause = cMACHINE then 5 else if cause = cRANGE then 3 else 4)
      ∧ (j.ctx < s.ctxs.length → ∃ x ∈ ((s.jobFault uid cause detail addr).ctx j.ctx).recs, x.kind = 2 ∧ x.cause = cause ∧ x.detail = detail
        ∧ x.addr = BitVec.ofNat 64 addr) := by
  have posted (ask : Bool) (h : j.ctx < s.ctxs.length) : ∃ x ∈ ((s.jobRec j cause detail addr ask).ctx j.ctx).recs,
      x.kind = 2 ∧ x.cause = cause ∧ x.detail = detail ∧ x.addr = BitVec.ofNat 64 addr :=
    ⟨_, State.mem_recs_post h, rfl, rfl, rfl, rfl⟩
  unfold State.jobFault
  rw [hj]
  simp only [ho, hc, Bool.false_or, decide_false, Bool.false_eq_true, if_false]
  by_cases page : cause = cPAGE
  · rw [if_pos page]
    exact ⟨_, State.job?_onJob (fun _ => rfl) hj, rfl, fun _ => ⟨rfl, rfl⟩, fun ne => absurd page ne, posted true⟩
  · rw [if_neg page]
    set status := if cause = cMACHINE then 5 else if cause = cRANGE then 3 else 4 with hstatus
    have failed : status ≠ 0 := by
      rw [hstatus]
      split
      · exact nofun
      · split <;> exact nofun
    obtain ⟨k, hk, st, hs, at_⟩ := State.job?_jobClose (s := s.jobRec j cause detail addr false) (status := status) (record := true) hj ho
    rw [if_neg failed] at st
    refine ⟨k, hk, at_, fun e => absurd e page, fun _ => ⟨st, hs⟩, fun h => ?_⟩
    obtain ⟨x, hx, told⟩ := posted false h
    exact ⟨x, (State.jobClose_keepsRecs (s := s.jobRec j cause detail addr false) hj ho).mem _ x hx, told⟩

end

end
end Sys2Proof.Machine
end

