-- ==== Sys2Proof/Proofs/JobSteps.lean ====
section
/-! PROOFS. The steps of running jobs that write their granules in turn (R195, R292, R293, R294, R372). -/
namespace Sys2Proof.Machine
open Sys2Proof.Claims

noncomputable section

/-! ### Whose step it is (R294) -/

/-- A running job that no save has suspended. -/
def JobRuns (s : State) (uid : Nat) (j : Job) : Prop := s.job? uid = some j ∧ j.st = .running ∧ j.saved = false

/-- A running job, which no save stops, takes the step of an operation. -/
def JobTurn (s : State) (uid : Nat) (j : Job) (op : Nat) : Prop :=
  JobRuns s uid j ∧ s.saveStop j = false ∧ cardOp j.card = op ∧ j.card.length = 256

section
variable {s : State} {uid : Nat} {j : Job}

theorem JobRuns.not_ended (h : JobRuns s uid j) : j.ended = false := by
  obtain ⟨-, st, -⟩ := h
  simp [Job.ended, st]

theorem exec_of_mem_jobSteps (s : State) (uid : Nat) : ∀ x ∈ jobSteps uid, exec x.2.1 s = .next (s.jobStep uid [x.1] x.2.2) := by
  simp only [jobSteps, List.forall_mem_cons, List.not_mem_nil, false_imp_iff, implies_true, and_true]
  and_intros <;> rfl

theorem engineStep_of_mem_jobSteps (s : State) (j : Job) : ∀ x ∈ jobSteps uid, cardOp j.card = x.1 → engineStep s j = x.2.2 s j := by
  simp only [jobSteps, List.forall_mem_cons, List.not_mem_nil, false_imp_iff, implies_true, and_true]
  and_intros <;> (intro h; simp [engineStep, h])

variable (hr : JobRuns s uid j)
include hr

theorem State.jobStep_of_runs (hs : s.saveStop j = false) (ops : List Nat) (f : State → Job → State) :
    s.jobStep uid ops f = if ops.contains (cardOp j.card) then f s j else s := by
  obtain ⟨hj, st, saved⟩ := hr
  rw [State.jobStep, hj]
  simp only [st, saved, hs, ne_eq, not_true_eq_false, decide_false, Bool.or_self, Bool.false_or, Bool.false_eq_true, if_false]
  cases ops.contains (cardOp j.card) <;> rfl

theorem State.jobStep_of_stop (hs : s.saveStop j = true) (f : State → Job → State) :
    s.jobStep uid [cardOp j.card] f = s.onJob uid fun x => { x with st := .suspended, saved := true } := by
  obtain ⟨hj, st, saved⟩ := hr
  rw [State.jobStep, hj]
  simp [st, saved, hs]

theorem exec_of_jobStep (hs : s.saveStop j = false) : ∀ x ∈ jobSteps uid, cardOp j.card = x.1 → exec x.2.1 s = .next (x.2.2 s j) := by
  intro x hx op
  rw [exec_of_mem_jobSteps s uid x hx, State.jobStep_of_runs hr hs, if_pos (by simp [op])]

theorem exec_of_other_jobStep (hs : s.saveStop j = false) : ∀ x ∈ jobSteps uid, cardOp j.card ≠ x.1 → exec x.2.1 s = .next s := by
  intro x hx op
  rw [exec_of_mem_jobSteps s uid x hx, State.jobStep_of_runs hr hs, if_neg (by simp [op])]

theorem exec_of_stopped_jobStep (hs : s.saveStop j = true) : ∀ x ∈ jobSteps uid, cardOp j.card = x.1 →
    exec x.2.1 s = .next (s.onJob uid fun x => { x with st := .suspended, saved := true }) := by
  intro x hx op
  rw [exec_of_mem_jobSteps s uid x hx, ← op, State.jobStep_of_stop hr hs]

/-- An access of the engine is the step of the card's operation. -/
theorem jobGranuleAccess_of_runs (hs : s.saveStop j = false) : exec (.jobGranuleAccess uid) s = .next (engineStep s j) := by
  refine next_congr ?_
  rw [hr.1]
  exact (State.jobStep_of_runs hr hs ..).trans (if_pos (by simp))

end

/-- The step of a job whose turn it is. -/
theorem JobTurn.step {s : State} {uid op : Nat} {j : Job} {i : Instr} {f : State → Job → State} (h : JobTurn s uid j op)
    (hx : (op, i, f) ∈ jobSteps uid) : exec i s = .next (f s j) := by
  obtain ⟨runs, stop, hop, -⟩ := h
  exact exec_of_jobStep runs stop _ hx hop

/-! ### Granules written (R195) -/

section
variable {s s1 u : State} {j : Job} {loc : Loc} {bs : List Byte} {total : Nat}

theorem State.granule_of_place (hp : WritePlace s s1 j loc) (len : bs.length = 16) :
    s.granule j (regionAt j.wr 0).sp ((regionAt j.wr 0).base + 16 * j.at_) bs = ((s1.writeLoc loc bs).setFe loc true).wrote j.uid := by
  obtain ⟨aligned, free, found, open_⟩ := hp
  rw [State.granule, free, State.store_of_locate aligned len found open_]
  rfl

/-- A job that has written a granule goes on, or is done with its last. -/
theorem State.endAt_wrote {k : Job} (hk : u.job? j.uid = some k) (at_ : k.at_ = j.at_) (on : k.ended = false) :
    (u.wrote j.uid).endAt j.uid total = if total ≤ j.at_ + 1 then (u.wrote j.uid).jobEnd j.uid 0 else u.wrote j.uid := by
  obtain ⟨x, hx, hat, hon⟩ : ∃ x, (u.wrote j.uid).job? j.uid = some x ∧ x.at_ = j.at_ + 1 ∧ x.ended = false :=
    ⟨_, State.job?_onJob (fun _ => rfl) hk, congrArg (· + 1) at_, on⟩
  rw [State.endAt, hx]
  simp only [hat, hon, Bool.not_false, Bool.and_true, decide_eq_true_eq]

/-- A step that makes its granule's write leaves what R195 and R294 say. -/
theorem writesGranule_of_exec {i : Instr} {k : Job} (hx : exec i s = .next ((((u.writeLoc loc bs).setFe loc true).wrote j.uid).endAt j.uid total))
    (hk : u.job? j.uid = some k) (at_ : k.at_ = j.at_) (on : k.ended = false) (len : bs.length = 16) (placed : s.Placed → u.Placed)
    (place : j.team < s.teams.length → u.HasPlace loc) : WritesGranule i s u j loc bs total := by
  have same : ((u.writeLoc loc bs).setFe loc true).job? j.uid = u.job? j.uid := State.job?_of_jobs (State.jobs_of_staff (by simp)) _
  refine ⟨?_, fun team apart whole => ?_⟩
  · rw [hx, State.endAt_wrote (same.trans hk) at_ on]
    rfl
  · exact len ▸ State.read_of_written (placed ⟨apart, whole⟩) (place team) rfl

/-- The place of a write is in the scratchpad of the job's team, or in global memory. -/
theorem State.hasPlace_of_writePlace (h : WritePlace s s1 j loc) (team : j.team < s.teams.length) : s.HasPlace loc := by
  obtain ⟨-, -, found, -⟩ := h
  refine State.locate_hasPlace found ?_ team
  cases (regionAt j.wr 0).sp <;> exact nofun

theorem eq_of_writePlace (h : WritePlace s s1 j loc) : s1 = s := by
  obtain ⟨-, -, found, -⟩ := h
  exact State.eq_of_locate_engine rfl found

/-- A step that writes a granule in a state that a read has left. -/
theorem writesGranule_of_granule {i : Instr} (hj : s.job? j.uid = some j) (on : j.ended = false) (only : s.MemOnly u)
    (placed : s.Placed → u.Placed) (hp : WritePlace u s1 j loc) (len : bs.length = 16)
    (hx : exec i s = .next ((u.granule j (regionAt j.wr 0).sp ((regionAt j.wr 0).base + 16 * j.at_) bs).endAt j.uid total)) :
    WritesGranule i s s1 j loc bs total := by
  obtain rfl := eq_of_writePlace hp
  rw [State.granule_of_place hp len] at hx
  refine writesGranule_of_exec hx ((State.job?_of_jobs (State.jobs_of_staff only.staff) _).trans hj) rfl on len placed fun team => ?_
  exact State.hasPlace_of_writePlace hp (Nat.lt_of_lt_of_eq team (by rw [only]))

end

/-! ### Each operation (R292, R372) -/

section
variable {s s1 : State} {uid : Nat} {j : Job} {loc : Loc}

theorem JobTurn.writes {op total : Nat} {i : Instr} {bs : List Byte} {f : State → Job → State} (ht : JobTurn s uid j op)
    (hx : (op, i, f) ∈ jobSteps uid) (hp : WritePlace s s1 j loc) (len : bs.length = 16)
    (hf : f s j = (s.granule j (regionAt j.wr 0).sp ((regionAt j.wr 0).base + 16 * j.at_) bs).endAt j.uid total) :
    WritesGranule i s s1 j loc bs total := by
  have step := ht.step hx
  obtain ⟨runs, -⟩ := ht
  have on := runs.not_ended
  obtain ⟨hj, -⟩ := runs
  obtain rfl := State.uid_of_job? hj
  rw [hf] at step
  exact writesGranule_of_granule hj on (.refl s) id hp len step

theorem jobMark_ends (ht : JobTurn s uid j 0x00) : exec (.jobMark uid) s = .next (s.jobEnd uid 0) := by
  have step := ht.step (i := .jobMark uid) (f := stepMark) (by simp [jobSteps])
  obtain ⟨⟨hj, -⟩, -⟩ := ht
  obtain rfl := State.uid_of_job? hj
  exact step

theorem jobFill_writes (ht : JobTurn s uid j 0x02) (hp : WritePlace s s1 j loc) :
    WritesGranule (.jobFill uid) s s1 j loc ((j.card.drop 16).take 16) ((regionAt j.wr 0).len / 16) := by
  obtain ⟨-, -, -, len⟩ := id ht
  exact ht.writes (f := stepFill) (by simp [jobSteps]) hp (by simp [len]) rfl

theorem jobAllgather_writes {bs : List Byte} (ht : JobTurn s uid j 0x21) (busy : j.busy = true)
    (all : allIn (s.parts j) (collSize j.card) = true)
    (part : (((partOf (s.parts j) (16 * j.at_ / (regionAt j.rd 0).len)).getD []).drop (16 * j.at_ % (regionAt j.rd 0).len)).take 16 = bs)
    (len : bs.length = 16) (hp : WritePlace s s1 j loc) :
    WritesGranule (.jobAllgather uid) s s1 j loc bs ((regionAt j.wr 0).len / 16) := by
  refine ht.writes (f := stepAllgather) (by simp [jobSteps]) hp len ?_
  simp only [stepAllgather, busy, all, part, Bool.not_true, Bool.false_eq_true, if_false]

theorem jobBcast_writes {bs : List Byte} (ht : JobTurn s uid j 0x22) (busy : j.busy = true)
    (root : partOf (s.parts j) (fld (cardP1 j.card) 63 48) = some bs) (inside : 16 * j.at_ + 16 ≤ bs.length)
    (room : 16 * j.at_ < (regionAt j.wr 0).len) (hp : WritePlace s s1 j loc) :
    WritesGranule (.jobBcast uid) s s1 j loc ((bs.drop (16 * j.at_)).take 16) (bs.length / 16) := by
  refine ht.writes (f := stepBcast) (by simp [jobSteps]) hp (by rw [List.length_take, List.length_drop]; omega) ?_
  have more : ¬bs.length ≤ 16 * j.at_ := by omega
  simp only [stepBcast, busy, root, more, Nat.not_le.mpr room, Bool.not_true, Bool.false_eq_true, if_false]

theorem jobSuffix_writes (ht : JobTurn s uid j 0x30) (busy : j.busy = true) (hp : WritePlace s s1 j loc) :
    let bs := (j.data.drop (16 * j.at_)).take 16
    WritesGranule (.jobSuffix uid) s s1 j loc (bs ++ List.replicate (16 - bs.length) 0) ((regionAt j.wr 0).len / 16) := by
  refine ht.writes (f := stepSuffix) (by simp [jobSteps]) hp ?_ ?_
  · rw [List.length_append, List.length_replicate]
    have short := List.length_take_le 16 (j.data.drop (16 * j.at_))
    omega
  · simp only [stepSuffix, busy, Bool.not_true, Bool.false_eq_true, if_false]

theorem jobCopy_writes {s2 : State} {from_ : Loc} (ht : JobTurn s uid j 0x01)
    (found : s.locate (jobWho j (regionAt j.rd 0).sp) { space := spaceIf (regionAt j.rd 0).sp, bytes := 16, acc := .r, align := 1 }
      (BitVec.ofNat 64 ((regionAt j.rd 0).base + 16 * j.at_)) = (s1, .ok from_))
    (free : s1.heldFault (jobWho j (regionAt j.rd 0).sp) from_ 16 = none) (hp : WritePlace (s1.readLoc from_ 16).1 s2 j loc) :
    WritesGranule (.jobCopy uid) s s2 j loc (s1.readLoc from_ 16).2 ((regionAt j.wr 0).len / 16) := by
  have step := ht.step (i := .jobCopy uid) (f := stepCopy) (by simp [jobSteps])
  obtain ⟨runs, -⟩ := ht
  have on := runs.not_ended
  obtain ⟨hj, -⟩ := runs
  obtain rfl := State.uid_of_job? hj
  obtain rfl := State.eq_of_locate_engine rfl found
  rw [stepCopy, State.fetch_of_locate found free] at step
  exact writesGranule_of_granule hj on (s1.readLoc_memOnly from_ 16) (fun h => h.readLoc_any from_ 16) hp (State.readLoc_length ..) step

end

/-! ### Accesses of `fill` that fail (R296, R388) -/

theorem jobFill_fails {s s1 : State} {uid cause detail : Nat} {j : Job} (ht : JobTurn s uid j 0x02)
    (aligned : ((regionAt j.wr 0).base + 16 * j.at_) % 16 = 0) (left : j.at_ < (regionAt j.wr 0).len / 16)
    (free : s.vaHeld (jobWho j (regionAt j.wr 0).sp) (spaceIf (regionAt j.wr 0).sp) ((regionAt j.wr 0).base + 16 * j.at_) 16 = false)
    (hc : cause ≠ cHOLD)
    (found : s.locate (jobWho j (regionAt j.wr 0).sp) { space := spaceIf (regionAt j.wr 0).sp, bytes := 16, acc := .w }
      (BitVec.ofNat 64 ((regionAt j.wr 0).base + 16 * j.at_)) = (s1, .error (cause, detail))) :
    ∃ t k, exec (.jobFill uid) s = .next t ∧ t.job? uid = some k ∧ k.at_ = j.at_
      ∧ (cause = cPAGE → k.st = .suspended ∧ k.waits = true)
      ∧ (cause ≠ cPAGE → k.st = .failed ∧ k.status = if cause = cMACHINE then 5 else if cause = cRANGE then 3 else 4)
      ∧ (j.ctx < s.ctxs.length → ∃ x ∈ (t.ctx j.ctx).recs, x.kind = 2 ∧ x.cause = cause ∧ x.detail = detail
        ∧ x.addr = BitVec.ofNat 64 ((regionAt j.wr 0).base + 16 * j.at_)) := by
  have step := ht.step (i := .jobFill uid) (f := stepFill) (by simp [jobSteps])
  obtain ⟨runs, -, -, len⟩ := ht
  have on := runs.not_ended
  obtain ⟨hj, -⟩ := runs
  obtain rfl := State.uid_of_job? hj
  obtain rfl := State.eq_of_locate_engine rfl found
  obtain ⟨k, hk, at_, fate⟩ := State.jobFault_spec (detail := detail) (addr := (regionAt j.wr 0).base + 16 * j.at_) hj on hc
  have stays : ¬(regionAt j.wr 0).len / 16 ≤ k.at_ := by omega
  have bytes : ((j.card.drop 16).take 16).length = 16 := by simp [len]
  rw [stepFill, State.granule, free, State.store_of_locate_error aligned bytes found] at step
  simp only [Bool.false_eq_true, if_false, State.endAt, hk, stays, decide_false, Bool.false_and] at step
  exact ⟨_, k, step, hk, at_, fate⟩

/-! ### Elements (R292, R293) -/

/-- Elements of a power of two of bits fill a granule without a rest. -/
theorem elems_of_granule {w : Nat} (hw : w ∈ [4, 8, 16, 32]) (i : Nat) : 128 * i / w = 128 / w * i ∧ (128 * i + w - 1) / w = 128 / w * i
    ∧ (128 * (i + 1) + w - 1) / w = 128 / w * (i + 1) ∧ 128 / w * w = 128 := by
  simp only [List.mem_cons, List.not_mem_nil, or_false] at hw
  rcases hw with rfl | rfl | rfl | rfl <;> omega

/-- Codes of `w` bits laid end to end. -/
theorem foldr_codes_lt (w : Nat) (xs : List Nat) : xs.foldr (fun x acc => x % 2 ^ w + acc * 2 ^ w) 0 < 2 ^ (xs.length * w) := by
  induction xs with
  | nil => simp
  | cons x xs ih =>
    have low : x % 2 ^ w < 2 ^ w := Nat.mod_lt _ (by positivity)
    have high := Nat.mul_le_mul_right (2 ^ w) (Nat.succ_le_of_lt ih)
    rw [Nat.succ_mul] at high
    rw [List.foldr_cons, List.length_cons, Nat.succ_mul, Nat.pow_add]
    omega

theorem ofBytes_lt (bs : List Byte) : ofBytes bs < 2 ^ (8 * bs.length) := by
  induction bs with
  | nil => simp [ofBytes]
  | cons b bs ih =>
    have low := b.isLt
    rw [ofBytes, List.length_cons, Nat.mul_succ, Nat.pow_add]
    omega

section
variable {s s1 : State} {j : Job} {loc : Loc} {w total : Nat} {elem : Nat → Conv} {cnt : Word}

/-- A granule of whole elements none of which exceeds the threshold: each in its place, and their counts added. -/
theorem stepElems_of_place (hw : w ∈ [4, 8, 16, 32]) (ht : 128 / w * (j.at_ + 1) ≤ total)
    (hc : countElems (fld (cardCth j.card) 10 10 = 1) (fld (cardCth j.card) 9 0) j.counts
      ((List.range (128 / w)).map fun k => elem (128 / w * j.at_ + k))
        = (cnt, (List.range (128 / w)).map (fun k => elem (128 / w * j.at_ + k)), false))
    (hp : WritePlace (s.onJob j.uid fun x => { x with counts := cnt }) s1 j loc) :
    stepElems s j w total elem = (((((s1.readLoc loc 16).1.writeLoc loc (toBytes 16
      (((List.range (128 / w)).map fun k => elem (128 / w * j.at_ + k)).foldr (fun x acc => x.code % 2 ^ w + acc * 2 ^ w) 0))).setFe loc true).wrote
        j.uid).endAt j.uid ((regionAt j.wr 0).len / 16)) := by
  obtain ⟨-, -, found, free⟩ := hp
  obtain ⟨first, start, stop, whole⟩ := elems_of_granule hw j.at_
  have count : min total (128 / w * (j.at_ + 1)) - 128 / w * j.at_ = 128 / w := by
    rw [Nat.min_eq_right ht, Nat.mul_succ, Nat.add_sub_cancel_left]
  have bits : (128 / w * j.at_ + 128 / w) * w - 128 * j.at_ = 128 := by
    have e : (128 / w * j.at_ + 128 / w) * w = 128 / w * w * j.at_ + 128 / w * w := by ring
    rw [e, whole, Nat.add_sub_cancel_left]
  set es := (List.range (128 / w)).map fun k => elem (128 / w * j.at_ + k) with hes
  have len : es.length = 128 / w := by rw [hes, List.length_map, List.length_range]
  unfold stepElems
  simp only [first, start, stop, count, hc, len, bits, ← hes]
  rw [found]
  simp only [free]
  have offset : 128 * j.at_ - w * (128 / w * j.at_) = 0 := by
    rw [← Nat.mul_assoc, Nat.mul_comm w, whole, Nat.sub_self]
  have codes := foldr_codes_lt w (es.map Conv.code)
  rw [List.length_map, len, whole, List.foldr_map] at codes
  have old := ofBytes_lt (s1.readLoc loc 16).2
  rw [State.readLoc_length] at old
  have some_ : ¬(128 = 0) := by decide
  simp only [Nat.min_self, some_, Nat.lt_irrefl, if_false, List.nil_append, List.foldr_map, offset, Nat.pow_zero, Nat.div_one,
    Nat.mod_eq_of_lt codes, Nat.div_eq_of_lt old, Nat.zero_mul, Nat.add_zero, Bool.false_eq_true]

theorem writesElems_of_exec {i : Instr} (hj : s.job? j.uid = some j) (on : j.ended = false)
    (hx : exec i s = .next (stepElems s j w total elem)) : WritesElems i s j w total elem := by
  intro cnt s1 loc n es s0 hw ht hc hp
  obtain rfl := eq_of_writePlace hp
  have counted : s0.job? j.uid = some { j with counts := cnt } := State.job?_onJob (f := fun x => { x with counts := cnt }) (fun _ => rfl) hj
  have read : (s0.readLoc loc 16).1.job? j.uid = s0.job? j.uid := State.job?_of_jobs (State.jobs_of_staff (State.readLoc_staff ..)) _
  rw [stepElems_of_place hw ht hc hp] at hx
  refine writesGranule_of_exec hx (read.trans counted) rfl on (toBytes_length ..) (fun h => ?_) fun team => ?_
  · have placed : s0.Placed := ⟨h.apart, h.whole⟩
    exact placed.readLoc_any loc 16
  · exact (s0.readLoc_memOnly loc 16).hasPlace.mpr (State.hasPlace_of_writePlace hp team)

end

section
variable {s : State} {uid : Nat} {j : Job}

theorem JobTurn.writesElems {op w total : Nat} {i : Instr} {elem : Nat → Conv} {f : State → Job → State} (ht : JobTurn s uid j op)
    (hx : (op, i, f) ∈ jobSteps uid) (hf : f s j = stepElems s j w total elem) : WritesElems i s j w total elem := by
  have step := ht.step hx
  obtain ⟨runs, -⟩ := ht
  have on := runs.not_ended
  obtain ⟨hj, -⟩ := runs
  obtain rfl := State.uid_of_job? hj
  exact writesElems_of_exec hj on (hf ▸ step)

theorem jobReduce_writes (ht : JobTurn s uid j 0x20) (busy : j.busy = true) (all : allIn (s.parts j) (collSize j.card) = true) :
    WritesElems (.jobReduce uid) s j 32 ((regionAt j.wr 0).len / 4) (reduceElem j (s.parts j)) := by
  refine ht.writesElems (f := stepReduce) (by simp [jobSteps]) ?_
  simp only [stepReduce, busy, all, Bool.not_true, Bool.false_eq_true, if_false]

/-- Elements of a `conv`, from the bytes that hold those of its next granule. -/
def convElem (card : List Byte) (lo : Nat) (bs : List Byte) (k : Nat) : Conv :=
  let p0 := cardP0 card
  let src := convType (p0 % 16)
  let dst := convType (p0 / 16 % 16)
  conv dst (if fld p0 10 10 = 1 then .dither (ditherOff k (fld p0 13 11)) else .mode (Rm.of (BitVec.ofNat 2 (fld p0 9 8))))
    (decide (fld (cardCth card) 11 11 = 1) && !widens src dst) false
    (src.val (ofBytes bs / 2 ^ (k * src.width - 8 * lo) % 2 ^ src.width))

theorem jobConv_writes {bs : List Byte} (ht : JobTurn s uid j 0x03) :
    let src := convType (cardP0 j.card % 16)
    let dst := convType (cardP0 j.card / 16 % 16)
    let n := convCount j.card
    let first := 128 * j.at_ / dst.width
    let last := min n ((128 * (j.at_ + 1) + dst.width - 1) / dst.width)
    let lo := first * src.width / 8
    first < last → rdMem s j (regionAt j.rd 0) ((regionAt j.rd 0).base + lo) ((last * src.width + 7) / 8 - lo) = .ok bs →
      WritesElems (.jobConv uid) s j dst.width n (convElem j.card lo bs) := by
  intro src dst n first last lo some_ read
  refine ht.writesElems (f := stepConv) (by simp [jobSteps]) ?_
  unfold stepConv
  dsimp only
  rw [if_neg (Nat.not_le.mpr some_), read]
  rfl

end

end
end Sys2Proof.Machine
end

