-- ==== Sys2Proof/Proofs/JobPages.lean ====
section
/-! PROOFS. Edges and emptyings of jobs, slots, gathers, the page engine's cards, and copies of pages (R290, R294, R297, R302, R395, R400 to
R404, R411). -/
namespace Sys2Proof.Machine
open Sys2Proof.Claims

noncomputable section

/-! ### Edges and emptyings (R290, R294, R297) -/

section
variable {s : State} {uid : Nat} {j : Job} (hj : s.job? uid = some j)
include hj

theorem jobEdgeCheck_of_other (hs : ¬(j.st = .submitted ∨ j.st = .blocked)) : exec (.jobEdgeCheck uid) s = .next s := by
  refine next_congr ?_
  rw [State.edgeCheck, hj]
  exact if_pos (by simpa using hs)

variable (hs : j.st = .submitted ∨ j.st = .blocked)
include hs

/-- The edge check of a job that waits for its start (R294). -/
theorem State.edgeCheck_of_waiting : s.edgeCheck uid = if j.eoa.isSome then s.eoaRun uid
    else if j.depfail then s.jobEnd uid 2
    else if j.edges ≠ [] then s.onJob uid fun j => { j with st := .blocked }
    else s.onJob uid fun j => { j with st := .running } := by
  rw [State.edgeCheck, hj]
  exact if_neg (by simpa using fun h => hs.resolve_left h)

section
variable (he : j.eoa = none)
include he

theorem jobEdgeCheck_fails (hd : j.depfail = true) : exec (.jobEdgeCheck uid) s = .next (s.jobEnd uid 2) := by
  refine next_congr ((State.edgeCheck_of_waiting hj hs).trans ?_)
  simp only [he, hd, Option.isSome_none, Bool.false_eq_true, if_false, if_true]

theorem jobEdgeCheck_blocks (hd : j.depfail = false) (held : j.edges ≠ []) :
    exec (.jobEdgeCheck uid) s = .next (s.onJob uid fun x => { x with st := .blocked }) := by
  refine next_congr ((State.edgeCheck_of_waiting hj hs).trans ?_)
  simp only [he, hd, Option.isSome_none, Bool.false_eq_true, if_false, if_pos held]

theorem jobEdgeCheck_starts (hd : j.depfail = false) (free : j.edges = []) :
    exec (.jobEdgeCheck uid) s = .next (s.onJob uid fun x => { x with st := .running }) := by
  refine next_congr ((State.edgeCheck_of_waiting hj hs).trans ?_)
  simp only [he, hd, free, Option.isSome_none, Bool.false_eq_true, if_false, ne_eq, not_true_eq_false]

end

/-- The last granule of a write footprint is emptied. -/
theorem jobEdgeCheck_empties {n a : Nat} {sp : Bool} {s1 : State} {loc : Loc} (he : j.eoa = some n) (last : (eoaPlaces j).drop n = [(sp, a)])
    (found : s.locate (jobWho j sp) { space := spaceIf sp, bytes := 16, acc := .w } (BitVec.ofNat 64 a) = (s1, .ok loc))
    (free : s1.heldFault (jobWho j sp) loc 16 = none) :
    exec (.jobEdgeCheck uid) s = .next ((s1.setFe loc false).onJob uid fun x => { x with eoa := none })
      ∧ (j.team < s.teams.length → (s1.setFe loc false).feAt loc = false) := by
  refine ⟨next_congr ((State.edgeCheck_of_waiting hj hs).trans ?_), fun team => ?_⟩
  · rw [he, Option.isSome_some, if_pos rfl, State.eoaRun, hj]
    simp only [he, last, State.eoaFrom, hj, found, free]
  · obtain rfl := State.eq_of_locate_engine rfl found
    exact State.feAt_setFe (State.locate_hasPlace found (by cases sp <;> exact nofun) team) false

end

/-! ### Slots (R302) -/

theorem jobSlotGrant_of_first {s : State} {core gi d op n : Nat} {t : Stall} {cmd : SlotCmd}
    (first : (s.slotQ.find? fun gi => (s.grp gi).core = core && (match (s.grp gi).status with
      | .running => true | .handler => true | .sleeping _ => true | _ => false)) = some gi)
    (ht : (s.grp gi).cur = some t) (hk : t.kind = .slot d op cmd) (free : s.freeSlot core = some n) :
    exec (.jobSlotGrant core) s = .next
      (({ s with slotQ := s.slotQ.erase gi }.submitCmd gi d op cmd n).endWaits gi StallKind.isSlot) := by
  refine next_congr ?_
  generalize hf : List.find? _ s.slotQ = found
  obtain rfl : found = some gi := hf.symm.trans first
  simp only [ht, hk, free]

/-! ### Gathers (R409, R411, R413) -/

/-- A gather writes the next granule of an image whose page is near. -/
theorem jobGather_fills {s s1 s2 : State} {uid pi k x slot : Nat} {j : Job} {p : Pool} {from_ loc : Loc} (ht : JobTurn s uid j 0x10)
    (pool : j.gpool s = some (pi, p)) (started : j.imgs ≠ []) (next : gatherNext s j p (gImage j.card p / 16) = .fill k x slot)
    (found : s.locate (jobWho j false) { space := .gl, bytes := 16, acc := .r, align := 1 }
      (BitVec.ofNat 64 (p.frame 0 slot + gOffset j.card p (j.image k).done)) = (s1, .ok from_))
    (free : s1.heldFault (jobWho j false) from_ 16 = none)
    (aligned : ((regionAt j.wr 0).base + k * gImage j.card p + 16 * (j.image k).done) % 16 = 0)
    (open_ : (s1.readLoc from_ 16).1.vaHeld (jobWho j (regionAt j.wr 0).sp) (spaceIf (regionAt j.wr 0).sp)
      ((regionAt j.wr 0).base + k * gImage j.card p + 16 * (j.image k).done) 16 = false)
    (found' : (s1.readLoc from_ 16).1.locate (jobWho j (regionAt j.wr 0).sp) { space := spaceIf (regionAt j.wr 0).sp, bytes := 16, acc := .w }
      (BitVec.ofNat 64 ((regionAt j.wr 0).base + k * gImage j.card p + 16 * (j.image k).done)) = (s2, .ok loc))
    (free' : s2.heldFault (jobWho j (regionAt j.wr 0).sp) loc 16 = none) :
    exec (.jobGather uid) s = .next ((((s2.writeLoc loc (s1.readLoc from_ 16).2).setFe loc true).onJob uid fun x =>
      { x with granules := x.granules + 1, at_ := x.at_ + 1, imgs := updAt x.imgs k fun m => { m with done := m.done + 1 } }).unpinFor
        uid pi x (gImage j.card p / 16)) := by
  have step := ht.step (i := .jobGather uid) (f := stepGather) (by simp [jobSteps])
  obtain ⟨⟨hj, -⟩, -⟩ := ht
  obtain rfl := State.uid_of_job? hj
  refine step.trans (next_congr ?_)
  simp only [stepGather, pool, if_neg started, next, gatherCopy, gatherDst, State.fetch_of_locate found free, open_, Bool.false_eq_true, if_false,
    State.store_of_locate aligned (State.readLoc_length s1 from_ 16) found' free']
  exact congrArg (fun t : State => t.unpinFor j.uid pi x (gImage j.card p / 16)) (State.onJob_onJob fun _ => rfl)

/-! ### Cards of the page engine (R400 to R404) -/

/-- What the page engine does with what an operation of a card has answered (R400). -/
theorem State.pageStep_of_op {s : State} {j : Job} (hj : s.job? j.uid = some j) (st : j.st = .running) (busy : j.busy = false) :
    (∀ t, pageOp s j (cardOp j.card) (cardB j.card 16 8) (j.entries.getD j.at_ 0) (cardB j.card 4 4) = .done t → s.pageStep j.uid = t.pageNext j.uid)
    ∧ ∀ t, pageOp s j (cardOp j.card) (cardB j.card 16 8) (j.entries.getD j.at_ 0) (cardB j.card 4 4) = .busy t →
      s.pageStep j.uid = t.onJob j.uid fun k => { k with busy := true } := by
  unfold State.pageStep
  rw [hj]
  simp only [st, busy, ne_eq, not_true_eq_false, decide_false, Bool.or_self, Bool.false_eq_true, if_false]
  exact ⟨fun t h => by rw [h], fun t h => by rw [h]⟩

/-- The next operation of a card, or its end. -/
theorem State.pageNext_of_job {t : State} {j : Job} {uid : Nat} (hj : t.job? uid = some j) : t.pageNext uid
    = let v := t.onJob uid fun k => { k with at_ := k.at_ + 1, busy := false }
      if j.at_ + 1 < j.entries.length then v else v.jobEnd uid 0 := by
  rw [State.pageNext, hj]

section
variable {s : State} {u : Who} {cat i : Nat} (hu : u.core = none)
include hu

theorem State.catHdr_memOnly : s.MemOnly (s.catHdr u cat).1 := by
  have read := State.readVa_memOnly (s := s) (z := .gl) (a := cat) (n := 16) (acc := .r) hu
  unfold State.catHdr
  rcases hr : s.readVa u .gl cat 16 .r with ⟨v, f | bs⟩ <;> rwa [hr] at read

theorem State.catRead_memOnly : s.MemOnly (s.catRead u cat i).1 := by
  have read := State.readVa_memOnly (s := s) (z := .gl) (a := catEntry cat i) (n := 8) (acc := .r) hu
  unfold State.catRead
  rcases hr : s.readVa u .gl (catEntry cat i) 8 .r with ⟨v, f | bs⟩ <;> rwa [hr] at read

end

section
variable {s s1 s2 : State} {j : Job} {p : Pool} {cat i : Nat} {hd : CatHdr} {e x : Nat} {r : PRec}

/-- The checks of R401 that a card's operation on a valid entry passes: the record of the entry's page is looked at. -/
structure PageReady (s s1 s2 : State) (j : Job) (p : Pool) (cat i : Nat) (hd : CatHdr) (e : Nat) (r : PRec) : Prop where
  pool : (s.ctx j.ctx).pool? j.inst = some p
  aligned : cat % 64 = 0
  header : covers j.rd cat 16 = true
  read : s.catHdr (jobWho j false) cat = (s1, .ok hd)
  below : i < hd.cmax
  same : hd.pool = j.inst
  entry : covers j.rd (catEntry cat i) 8 = true
  found : s1.catRead (jobWho j false) cat i = (s2, .ok e)
  valid : eValid e = true
  inside : ePage e < p.np
  first : s2.earlierOp j.ctx j.inst (ePage e) j.uid = false
  rec_ : s2.pageRec j.ctx p (ePage e) = .ok r

variable (h : PageReady s s1 s2 j p cat i hd e r)
include h

/-- The reads of the catalogue change memory alone. -/
theorem PageReady.memOnly : s.MemOnly s2 := by
  obtain ⟨-, -, -, read, -, -, -, found, -⟩ := h
  have first : s.MemOnly (s.catHdr (jobWho j false) cat).1 := State.catHdr_memOnly rfl
  have second : s1.MemOnly (s1.catRead (jobWho j false) cat i).1 := State.catRead_memOnly rfl
  rw [read] at first
  rw [found] at second
  exact first.trans second

theorem PageReady.pageOp_ref (hx : x < 2) : pageOp s j 0x42 cat i x
    = (opRef s2 (jobWho j false) j.ctx j.inst p cat i x e hd.nv j.fe).inFoot j s2 0x42 cat
      i x := by
  obtain ⟨pool, aligned, header, read, below, same, entry, found, valid, inside, first, rec_⟩ := h
  simp [pageOp, pool, aligned, header, read, entry, found, Nat.not_le.mpr below, same, valid, Nat.not_le.mpr inside, first, rec_,
    Nat.not_le.mpr hx]

theorem PageReady.pageOp_move : pageOp s j 0x40 cat i x
    = (opMove s2 j.ctx j.inst p x e j.uid).inFoot j s2 0x40 cat i x := by
  obtain ⟨pool, aligned, header, read, below, same, entry, found, valid, inside, first, rec_⟩ := h
  simp [pageOp, pool, aligned, header, read, entry, found, Nat.not_le.mpr below, same, valid, Nat.not_le.mpr inside, first, rec_]

theorem PageReady.recD : s2.recD j.ctx p (ePage e) = r := by rw [State.recD, h.rec_]

/-- A reference taken to a page that is in use (R402). -/
theorem PageReady.opRef_takes {nv : Nat} {fe : Option Bool} (room : r.ref < 65535) (st : r.st ∈ [pReserved, pFilling, pResident, pShared]) :
    opRef s2 (jobWho j false) j.ctx j.inst p cat i 0 e nv fe
      = .done (s2.putRec j.ctx p (ePage e) { r with ref := r.ref + 1, st := pShared }) := by
  have near : [pReserved, pFilling, pResident, pShared].contains r.st = true := List.contains_iff_mem.mpr st
  simp only [opRef, h.recD, h.valid, near, Nat.not_le.mpr room]
  rfl

/-- A page that lies where the card wants it (R404). -/
theorem PageReady.opMove_stays (hx : x < 3) (used : r.st ≠ pFree) (here : x = r.tier) :
    opMove s2 j.ctx j.inst p x e j.uid = .done s2 := by
  rw [opMove, h.recD]
  exact (if_neg (Nat.not_le.mpr hx)).trans (if_pos (by simp [used, here]))

/-- A page starts on its way to an outer tier (R404). -/
theorem PageReady.opMove_starts {n : Nat} (outer : 1 ≤ x) (hx : x < 3) (away : x ≠ r.tier) (free : r.pin = 0)
    (st : r.st ∈ [pResident, pShared, pFar, pPooled]) (unread : ∀ k ∈ s2.pins, ¬(k.ctx = j.ctx ∧ k.pool = j.inst ∧ k.page = ePage e))
    (table : s2.tableFault j.ctx p = none) (frame : s2.freeFrame j.ctx j.inst p x = some n) :
    let t := s2.putRec j.ctx p (ePage e) { r with st := pEvicting }
    opMove s2 j.ctx j.inst p x e j.uid
      = .busy { t with copies := t.copies ++ [(⟨j.ctx, j.inst, ePage e, .move, (r.tier, r.slot), (x, n), some j.uid, none, 0, 0, 0⟩ : PageCopy)] } := by
  have movable : [pResident, pShared, pFar, pPooled].contains r.st = true := List.contains_iff_mem.mpr st
  have read : (s2.pins.any fun k => k.ctx = j.ctx && k.pool = j.inst && k.page = ePage e) = false := by
    simpa [and_assoc] using unread
  have notNear : ¬x = 0 := by omega
  rw [opMove, h.recD]
  dsimp only
  rw [if_neg (Nat.not_le.mpr hx), if_neg (by simp [away]), if_neg (by simp [notNear]), if_neg (by simp [free]), movable, read, table, frame,
    if_neg notNear]
  rfl

end

section
variable {s s1 s2 : State} {uid : Nat} {j : Job} {p : Pool} {hd : CatHdr} {e : Nat} {r : PRec}

/-- A card has done one of its operations. -/
def State.cardWent (t : State) (uid : Nat) (j : Job) : State :=
  let t := t.onJob uid fun k => { k with at_ := k.at_ + 1, busy := false }
  if j.at_ + 1 < j.entries.length then t else t.jobEnd uid 0

variable (ready : PageReady s s1 s2 j p (cardB j.card 16 8) (j.entries.getD j.at_ 0) hd e r) (busy : j.busy = false)
include ready busy

theorem JobTurn.page_done {op : Nat} {i : Instr} {t : State} (ht : JobTurn s uid j op)
    (hx : (op, i, fun (s : State) (j : Job) => s.pageStep j.uid) ∈ jobSteps uid)
    (hop : pageOp s j op (cardB j.card 16 8) (j.entries.getD j.at_ 0) (cardB j.card 4 4) = .done t) (only : s2.MemOnly t) :
    exec i s = .next (t.cardWent uid j) := by
  have step := ht.step hx
  obtain ⟨⟨hj, st, -⟩, -, rfl, -⟩ := ht
  obtain rfl := State.uid_of_job? hj
  have now : t.job? j.uid = some j := (State.job?_of_jobs (State.jobs_of_staff (ready.memOnly.trans only).staff) _).trans hj
  obtain ⟨done, -⟩ := State.pageStep_of_op hj st busy
  rw [step, done t hop, State.pageNext_of_job now]
  rfl

theorem jobPgrefCard_takes (ht : JobTurn s uid j 0x42) (hx : cardB j.card 4 4 = 0) (room : r.ref < 65535)
    (st : r.st ∈ [pReserved, pFilling, pResident, pShared]) :
    exec (.jobPgrefCard uid) s = .next ((s2.putRec j.ctx p (ePage e) { r with ref := r.ref + 1, st := pShared }).cardWent uid j) := by
  refine ht.page_done ready busy (by simp [jobSteps]) ?_ (State.putRec_memOnly ..)
  rw [hx, ready.pageOp_ref (by decide), ready.opRef_takes room st]
  simp [PRes.inFoot]

theorem jobPgmoveCard_stays (ht : JobTurn s uid j 0x40) (hx : cardB j.card 4 4 < 3) (used : r.st ≠ pFree) (here : cardB j.card 4 4 = r.tier) :
    exec (.jobPgmoveCard uid) s = .next (s2.cardWent uid j) := by
  refine ht.page_done ready busy (by simp [jobSteps]) ?_ (.refl s2)
  rw [ready.pageOp_move, ready.opMove_stays hx used here]
  simp [PRes.inFoot]

theorem jobPgmoveCard_starts (ht : JobTurn s uid j 0x40) {n : Nat} (outer : 1 ≤ cardB j.card 4 4) (hx : cardB j.card 4 4 < 3)
    (away : cardB j.card 4 4 ≠ r.tier) (free : r.pin = 0) (st : r.st ∈ [pResident, pShared, pFar, pPooled])
    (unread : ∀ k ∈ s2.pins, ¬(k.ctx = j.ctx ∧ k.pool = j.inst ∧ k.page = ePage e)) (table : s2.tableFault j.ctx p = none)
    (frame : s2.freeFrame j.ctx j.inst p (cardB j.card 4 4) = some n) :
    exec (.jobPgmoveCard uid) s = .next (
      let t := s2.putRec j.ctx p (ePage e) { r with st := pEvicting }
      { t with copies := t.copies
        ++ [(⟨j.ctx, j.inst, ePage e, .move, (r.tier, r.slot), (cardB j.card 4 4, n), some uid, none, 0, 0, 0⟩ : PageCopy)] }.onJob uid
          fun k => { k with busy := true }) := by
  have step := ht.step (i := .jobPgmoveCard uid) (f := fun s j => s.pageStep j.uid) (by simp [jobSteps])
  obtain ⟨⟨hj, running, -⟩, -, op, -⟩ := ht
  obtain rfl := State.uid_of_job? hj
  obtain ⟨-, starts⟩ := State.pageStep_of_op hj running busy
  rw [step, starts _ ?_]
  rw [op, ready.pageOp_move, ready.opMove_starts outer hx away free st unread table frame]
  simp [PRes.inFoot]

end

/-! ### Copies of pages (R395, R404, R411) -/

/-- Each kind of copy has its own event. -/
theorem exec_pageCopy {s : State} {k : Nat} {c : PageCopy} (hk : s.copies[k]? = some c) :
    exec (if c.why = .pageIn then .pageInComplete k else .pageCopyComplete k) s = .next (s.copyStep c) := by
  split
  · refine next_congr ?_
    rw [hk]
    exact if_pos ‹_›
  · refine next_congr ?_
    rw [hk]
    exact if_neg ‹_›

section
variable {s s1 s2 : State} {l1 l2 : Loc}

/-- A granule copied at the places that its addresses have, with its full-empty bit (R404). -/
def State.copiedAt (s : State) (l1 l2 : Loc) : State :=
  let r := s.readLoc l1 16
  (r.1.writeLoc l2 r.2).setFe l2 (r.1.feAt l1)

variable {src dst : Nat} {u : Who}
  (found : s.locate u { space := .gl, bytes := 16, acc := .r } (BitVec.ofNat 64 src) = (s1, .ok l1))
  (found' : s1.locate u { space := .gl, bytes := 16, acc := .w } (BitVec.ofNat 64 dst) = (s2, .ok l2))
include found found'

theorem State.copyGranule_of_locate (free : s2.heldFault u l1 16 = none) (free' : s2.heldFault u l2 16 = none) :
    s.copyGranule u src dst = (s2.copiedAt l1 l2, none) := by
  rw [State.copyGranule, found]
  simp only [found', free, free']
  rfl

/-- What is read of a granule that has been copied (R404). -/
theorem State.read_of_copiedAt (hu : u.core = none) : (s.Placed → ((s2.copiedAt l1 l2).readLoc l2 16).2 = (s2.readLoc l1 16).2)
    ∧ (s2.copiedAt l1 l2).feAt l2 = (s2.readLoc l1 16).1.feAt l1 := by
  obtain rfl := State.eq_of_locate_engine hu found
  obtain rfl := State.eq_of_locate_engine hu found'
  obtain ⟨pa, y, rfl⟩ := State.place_of_locate_gl rfl found'
  refine ⟨fun placed => ?_, State.feAt_setFe (loc := .gl pa y) trivial _⟩
  obtain ⟨reads, -⟩ := State.read_of_written (loc := .gl pa y) (bs := (s2.readLoc l1 16).2) (placed.readLoc_any l1 16) trivial
    (full := (s2.readLoc l1 16).1.feAt l1) rfl
  rwa [State.readLoc_length] at reads

end

/-- The copy as its granules leave it, in the list of the copies under way. -/
def State.copyAt (v : State) (c : PageCopy) (n : Nat) : State :=
  { v with copies := v.copies.map fun y => if y = c then { c with done := n } else y }

section
variable {s v : State} {c : PageCopy} {p : Pool} {n : Nat} (why : c.why = .pageIn) (pool : (s.ctx c.ctx).pool? c.pool = some p)
  (live : s.copyLive c = true) (going : s.copyHeld c = false)
include why pool live going

/-- A page-in all of whose granules have been copied is done (R411). -/
theorem State.copyStep_of_copied
    (copied : State.copyPage (p.pg / 16 - c.done) s (agent c.ctx) (p.frame c.src.1 c.src.2) (p.frame c.dst.1 c.dst.2) c.done = (v, n, none))
    (sound : (v.copyAt c n).copyRecFault p { c with done := n } = none) : s.copyStep c = (v.copyAt c n).moveDone p { c with done := n } := by
  unfold State.copyStep
  rw [pool]
  refine (if_neg (by simp [live])).trans ((if_neg (by simp [going])).trans ?_)
  simp only [copied, Option.none_or]
  generalize hf : State.copyRecFault _ p _ = f
  obtain rfl : f = none := hf.symm.trans sound
  obtain ⟨ctx, n, page, w, src, dst, job, ld, cat, ix, done⟩ := c
  obtain rfl : w = .pageIn := why
  rfl

/-- The last granule of a page-in, and its end. -/
theorem pageInComplete_of_last {s1 s2 : State} {k : Nat} {l1 l2 : Loc} (hk : s.copies[k]? = some c) (last : c.done + 1 = p.pg / 16)
    (found : s.locate (agent c.ctx) { space := .gl, bytes := 16, acc := .r }
      (BitVec.ofNat 64 (p.frame c.src.1 c.src.2 + 16 * c.done)) = (s1, .ok l1))
    (found' : s1.locate (agent c.ctx) { space := .gl, bytes := 16, acc := .w }
      (BitVec.ofNat 64 (p.frame c.dst.1 c.dst.2 + 16 * c.done)) = (s2, .ok l2))
    (free : s2.heldFault (agent c.ctx) l1 16 = none) (free' : s2.heldFault (agent c.ctx) l2 16 = none)
    (sound : ((s2.copiedAt l1 l2).copyAt c (c.done + 1)).copyRecFault p { c with done := c.done + 1 } = none) :
    exec (.pageInComplete k) s = .next (((s2.copiedAt l1 l2).copyAt c (c.done + 1)).moveDone p { c with done := c.done + 1 }) := by
  have one : p.pg / 16 - c.done = 1 := by omega
  have copied : State.copyPage (p.pg / 16 - c.done) s (agent c.ctx) (p.frame c.src.1 c.src.2) (p.frame c.dst.1 c.dst.2) c.done
      = (s2.copiedAt l1 l2, c.done + 1, none) := by
    rw [one, State.copyPage, State.copyGranule_of_locate found found' free free']
    rfl
  have step := exec_pageCopy hk
  rw [if_pos why] at step
  exact step.trans (next_congr (State.copyStep_of_copied why pool live going copied sound))

end

end
end Sys2Proof.Machine
end

