-- ==== Sys2Proof/Proofs/JobEvents.lean ====
section
/-! PROOFS. What the steps of jobs do, in the order of the statement: O36. -/
namespace Sys2Proof.Claims
open Sys2Proof.Machine

noncomputable section

/-- Settles O36: a step of a running job is that of its card's operation, and each operation, edge, slot and copy has its own lemma. -/
theorem jobEvents : Obligations.JobEvents := by
  unfold Obligations.JobEvents
  intro s uid j
  refine ⟨fun runs on => ⟨fun x hx => ⟨fun op => ⟨exec_of_jobStep runs on x hx op, ?_⟩, exec_of_other_jobStep runs on x hx⟩,
      jobGranuleAccess_of_runs runs on⟩,
    exec_of_stopped_jobStep, jobMark_ends, fun _ _ turn => jobFill_writes turn, fun _ _ _ => jobFill_fails,
    fun _ _ _ _ turn => jobCopy_writes turn, fun _ turn => jobConv_writes turn, jobReduce_writes,
    fun _ _ _ turn => jobAllgather_writes turn, fun _ _ _ turn => jobBcast_writes turn, fun _ _ turn => jobSuffix_writes turn,
    fun _ _ _ _ _ _ _ _ _ turn => jobGather_fills turn, ?pages, fun hj hs => ⟨fun he => ?_, fun _ _ _ _ _ => jobEdgeCheck_empties hj hs⟩,
    jobEdgeCheck_of_other, fun status hj on => ⟨?_, fun _ _ => State.learnt_of_jobClose hj on, State.done_of_jobClose hj on⟩,
    fun _ _ _ _ _ _ _ => jobSlotGrant_of_first, fun _ _ => exec_pageCopy, ?pageIns⟩
  · rw [jobGranuleAccess_of_runs runs on, engineStep_of_mem_jobSteps s j x hx op]
  case pages =>
    intro p s1 s2 hd e r c u cat i x gone busy pool aligned header read below same entry found valid inside first rec_
    have ready : ∀ {op : Nat}, JobTurn s uid j op → PageReady s s1 s2 j p cat i hd e r := by
      intro op turn
      obtain ⟨⟨hj, -⟩, -⟩ := turn
      obtain rfl := State.uid_of_job? hj
      exact ⟨pool, aligned, header, read, below, same, entry, found, valid, inside, first, rec_⟩
    exact ⟨fun turn => jobPgrefCard_takes (ready turn) busy turn, fun turn => jobPgmoveCard_stays (ready turn) busy turn,
      fun turn outer near away free st unread table n => jobPgmoveCard_starts (ready turn) busy turn outer near away free st unread table⟩
  · exact ⟨jobEdgeCheck_fails hj hs he, jobEdgeCheck_blocks hj hs he, jobEdgeCheck_starts hj hs he⟩
  · obtain ⟨k, hk, st, status_, -⟩ := State.job?_jobClose (status := status) (record := true) hj on
    exact ⟨k, hk, st, status_⟩
  case pageIns =>
    intro k c p s1 s2 l1 l2 hk why pool live going last found found' free free' rd v done v1 sound
    obtain ⟨reads, full⟩ := State.read_of_copiedAt found found' rfl
    obtain rfl := State.eq_of_locate_engine rfl found
    obtain rfl := State.eq_of_locate_engine rfl found'
    exact ⟨pageInComplete_of_last why pool live going hk last found found' free free' sound, fun apart whole => reads ⟨apart, whole⟩, full⟩

end
end Sys2Proof.Claims
end

