-- ==== Sys2Proof/Proofs/GangWords.lean ====
section
/-! PROOFS. The words of class TILE: gangs, words on a band, tags (R209, R211, R229 to R233): O24. -/
namespace Sys2Proof.Machine
open Sys2Proof.Claims

noncomputable section

theorem raises_of_ends {i : Instr} {w : WordSpec} {s : State} {cause detail : Nat} (h : Ends i w s (.raise cause detail)) :
    Raises i w s cause detail := by
  intro hc hl
  obtain ⟨t, ht, hr⟩ := h hc
  rw [if_neg hl] at hr
  exact ht.trans (next_congr hr)

@[simp] theorem State.advance_meets (s : State) : s.advance.meets = s.meets := by
  unfold State.advance
  split <;> rfl

/-! ### `gang` (R209, R211) -/

/-- What a `gang` for `nacc` accumulators answers, behind no `mma` that waits. -/
def gangForms (c : Wctx) (s : State) (k mask nacc : Nat) : Res :=
  let lim := s.gangLimits c.snap
  if gangBad lim (s.teamOf c.snap) c.snap.idx k mask then .raise cGANG 4
  else if 128 < nacc * popN 16 mask || lim.2.1 < nacc * popN 16 mask then .raise cGANG 5
  else if (s.teamOf c.snap).gangs.any fun x => x.k = k then .hold (.gangWait k mask nacc)
  else s.gangMeet c k mask nacc

/-- What a `gang` with a count of 0 answers, behind no `mma` that waits. -/
def gangLeaves (c : Wctx) (s : State) : Res :=
  match (s.teamOf c.snap).gangOf c.snap.idx with
  | none => .ok s
  | some x => .wait (.ungang x.k) (s.onTeam c.snap.team fun t => { t with gangs := t.gangs.map fun y =>
      if y.k = x.k then { y with leaving := addOnce y.leaving c.snap.idx } else y })

theorem holds_gang {h : Hdr} {k : BitVec 3} {a b : BitVec 6} {s : State} (hm : (wctx h s).snap.mmaWaits = true) :
    Holds (.gang h k a b) (specGang h a) s .side :=
  holds_of rfl (if_pos hm)

section
variable {h : Hdr} (k : BitVec 3) {a b : BitVec 6} {s : State} (hm : (wctx h s).snap.mmaWaits = false)
include hm

theorem ends_gang_of_count (hb : b.toNat ≠ 0) : Ends (.gang h k a b) (specGang h a) s
    (gangForms (wctx h s) s.advance k.toNat (((wctx h s).snap.sreg a.toNat).toNat % 65536) b.toNat) :=
  ends_as rfl ((if_neg (Bool.eq_false_iff.mp hm)).trans (if_pos hb))

theorem ends_gang_of_zero (hb : b.toNat = 0) : Ends (.gang h k a b) (specGang h a) s (gangLeaves (wctx h s) s.advance) :=
  ends_as rfl ((if_neg (Bool.eq_false_iff.mp hm)).trans (if_neg (not_not.mpr hb)))

end

section
variable {c : Wctx} {s : State} {k mask nacc : Nat}

theorem gangForms_of_bad (bad : gangBad (s.gangLimits c.snap) (s.teamOf c.snap) c.snap.idx k mask = true) :
    gangForms c s k mask nacc = .raise cGANG 4 := if_pos bad

/-- A valid request names two groups at least (R209). -/
theorem two_le_popN_of_valid {lim : Nat × Nat × Nat} {t : Team} {idx : Nat} (valid : gangBad lim t idx k mask = false) :
    2 ≤ popN 16 mask := by
  simp only [gangBad, Bool.or_eq_false_iff, decide_eq_false_iff_not] at valid
  omega

section
variable (valid : gangBad (s.gangLimits c.snap) (s.teamOf c.snap) c.snap.idx k mask = false)
include valid

theorem gangForms_of_too_many (many : 128 < nacc * popN 16 mask ∨ (s.gangLimits c.snap).2.1 < nacc * popN 16 mask) :
    gangForms c s k mask nacc = .raise cGANG 5 := by
  simp [gangForms, valid, many]

variable (few : nacc * popN 16 mask ≤ 128) (within : nacc * popN 16 mask ≤ (s.gangLimits c.snap).2.1)
include few within

theorem gangForms_of_standing (stands : ∃ x ∈ (s.teamOf c.snap).gangs, x.k = k) :
    gangForms c s k mask nacc = .hold (.gangWait k mask nacc) := by
  simp [gangForms, valid, few, within, stands]

theorem gangForms_of_new (new : ∀ x ∈ (s.teamOf c.snap).gangs, x.k ≠ k) : gangForms c s k mask nacc = s.gangMeet c k mask nacc := by
  have allowed : ¬(128 < nacc * popN 16 mask || (s.gangLimits c.snap).2.1 < nacc * popN 16 mask) = true := by simp [few, within]
  have absent : ¬((s.teamOf c.snap).gangs.any fun x => x.k = k) = true := by simpa using new
  exact (if_neg (Bool.eq_false_iff.mp valid)).trans ((if_neg allowed).trans (if_neg absent))

end

/-- A first request stands and waits for the others. -/
theorem State.gangMeet_of_first (first : (s.teamOf c.snap).reqs = []) (others : 2 ≤ popN 16 mask) :
    s.gangMeet c k mask nacc = .wait (.gang k mask nacc) (s.onTeam c.snap.team fun t =>
      { t with reqs := [⟨c.gi, c.snap.idx, k, mask, nacc, c.lanes, c.pc⟩] }) := by
  have wanting : 1 ≠ popN 16 mask := by omega
  simp [State.gangMeet, State.openReqs, first, wanting]

/-- The last member's request meets those of all others. -/
theorem State.gangMeet_of_last
    (same : ∀ r ∈ (s.teamOf c.snap).reqs, s.reqStands r = true ∧ r.gi ≠ c.gi ∧ r.k = k ∧ mask.testBit r.idx = true ∧ r.mask = mask
      ∧ r.nacc = nacc)
    (last : (s.teamOf c.snap).reqs.length + 1 = popN 16 mask) :
    s.gangMeet c k mask nacc = .wait (.gang k mask nacc)
      { s.onTeam c.snap.team (fun t => { t with reqs := [], gangs := t.gangs ++ [⟨k, mask, nacc, false, [], s.meets⟩] }) with
        meets := s.meets + 1 } := by
  have all_open : s.openReqs (s.teamOf c.snap) c.gi = (s.teamOf c.snap).reqs := by
    refine List.filter_eq_self.mpr fun r hr => ?_
    obtain ⟨stands, other, -⟩ := same r hr
    simp [stands, other]
  have no_mismatch : (s.teamOf c.snap).reqs.find? (fun r =>
      r.k = k && (mask.testBit r.idx || r.mask.testBit c.snap.idx) && (r.mask ≠ mask || r.nacc ≠ nacc)) = none := by
    refine List.find?_eq_none.mpr fun r hr => ?_
    obtain ⟨-, -, -, -, mask_, nacc_⟩ := same r hr
    simp [mask_, nacc_]
  have all_mine : ∀ r ∈ (s.teamOf c.snap).reqs, (r.k = k && mask.testBit r.idx) = true := by
    intro r hr
    obtain ⟨-, -, k_, bit, -⟩ := same r hr
    simp [k_, bit]
  have none_left : (s.teamOf c.snap).reqs.filter (fun r => !(r.k = k && mask.testBit r.idx)) = [] :=
    List.filter_eq_nil_iff.mpr fun r hr => by simp [all_mine r hr]
  simp only [State.gangMeet, all_open, no_mismatch, List.filter_eq_self.mpr all_mine, none_left, last, if_true]

theorem gangLeaves_of_none (hg : (s.teamOf c.snap).gangOf c.snap.idx = none) : gangLeaves c s = .ok s := by
  simp only [gangLeaves, hg]

theorem gangLeaves_of_member {x : Gang} (hg : (s.teamOf c.snap).gangOf c.snap.idx = some x) :
    gangLeaves c s = .wait (.ungang x.k) (s.onTeam c.snap.team fun t => { t with gangs := t.gangs.map fun y =>
      if y.k = x.k then { y with leaving := addOnce y.leaving c.snap.idx } else y }) := by
  simp only [gangLeaves, hg]

end

/-! ### The words on a band (R229 to R231) -/

section
variable {i : Instr} {w : WordSpec} {acc : Nat} {dv : List Nat} {s : State} {f : Wctx → State → Except (Nat × Nat) TileFn}
  (hx : exec i s = .next (bandWord w acc dv s f))
include hx

theorem does_bandWord {x : Gang} {fn : TileFn} (hg : (s.advance.teamOf (wctx w.h s).snap).gangOf (wctx w.h s).snap.idx = some x)
    (ha : acc < x.nacc) (hf : f (wctx w.h s) s.advance = .ok fn) :
    Does i w s (s.advance.start (wctx w.h s) .tl 0 (.tile acc fn) dv []) :=
  does_of hx (by simp only [hg, Nat.not_le.mpr ha, if_false, hf])

theorem raises_bandWord (hg : ∀ x, (s.advance.teamOf (wctx w.h s).snap).gangOf (wctx w.h s).snap.idx = some x → x.nacc ≤ acc) :
    Raises i w s cGANG 1 := by
  refine raises_of hx ?_
  cases member : (s.advance.teamOf (wctx w.h s).snap).gangOf (wctx w.h s).snap.idx with
  | none => rfl
  | some x => simp only [hg x member, if_true]

end

/-- A band word with its registers, its pending destinations and its effect: it has no check of its own. -/
def RunsBand (h : Hdr) (acc : Nat) (s : State) (x : Instr × WordSpec × List Nat × TileFn) : Prop :=
  x.2.1.h = h ∧ ∃ f, exec x.1 s = .next (bandWord x.2.1 acc x.2.2.1 s f) ∧ f (wctx h s) s.advance = .ok x.2.2.2

section
variable {h : Hdr} {acc : Nat} {s : State} {x : Instr × WordSpec × List Nat × TileFn} (hx : RunsBand h acc s x)
include hx

theorem RunsBand.does {y : Gang} (hg : (s.advance.teamOf (wctx h s).snap).gangOf (wctx h s).snap.idx = some y) (ha : acc < y.nacc) :
    Does x.1 x.2.1 s (s.advance.start (wctx h s) .tl 0 (.tile acc x.2.2.2) x.2.2.1 []) := by
  obtain ⟨rfl, f, runs, effect⟩ := hx
  exact does_bandWord runs hg ha effect

theorem RunsBand.raises
    (hg : ∀ y, (s.advance.teamOf (wctx h s).snap).gangOf (wctx h s).snap.idx = some y → y.nacc ≤ acc) :
    Raises x.1 x.2.1 s cGANG 1 := by
  obtain ⟨rfl, f, runs, -⟩ := hx
  exact raises_bandWord runs hg

end

theorem bandOffset_eq_none {c : Wctx} {s : State} {off : Nat} (aligned : off % 16 = 0) (inside : off + imageBytes ≤ s.spSize c.snap.kernel) :
    bandOffset c s off = none := by
  simp [bandOffset, aligned, inside]

section
variable {h : Hdr} {acc : BitVec 3} {b : BitVec 6} {s : State} {y : Gang}
  (hg : (s.advance.teamOf (wctx h s).snap).gangOf (wctx h s).snap.idx = some y) (ha : acc.toNat < y.nacc)
  (aligned : ((wctx h s).snap.sreg b.toNat).toNat % 16 = 0)
  (inside : ((wctx h s).snap.sreg b.toNat).toNat + imageBytes ≤ s.advance.spSize (wctx h s).snap.kernel)
include hg ha aligned inside

theorem does_acst : Does (.acst h acc b) (specBand h [b.toNat]) s
    (s.advance.start (wctx h s) .tl 0 (.tile acc.toNat (.acst ((wctx h s).snap.sreg b.toNat))) [] []) :=
  does_bandWord (w := specBand h [b.toNat]) rfl hg ha (by simp only [specBand, specSc, bandOffset_eq_none aligned inside])

theorem does_acld : Does (.acld h acc b) (specBand h [b.toNat]) s
    (s.advance.start (wctx h s) .tl 0 (.tile acc.toNat (.acld ((wctx h s).snap.sreg b.toNat))) [] []) :=
  does_bandWord (w := specBand h [b.toNat]) rfl hg ha (by simp only [specBand, specSc, bandOffset_eq_none aligned inside])

end

/-! ### Tags (R232, R233) -/

section
variable {h : Hdr} {d a b : BitVec 6} {s : State}

theorem does_tgset (hr : descReserved (((wctx h s).snap.sreg a.toNat).extractLsb' 0 8) = false) :
    Does (.tgset h d a b) (specTgset h d a b) s (group s fun x =>
      x.setV d.toNat (x.vreg d.toNat) ⟨((wctx h s).snap.sreg a.toNat).extractLsb' 0 8, (wctx h s).snap.sreg b.toNat⟩) :=
  does_of rfl (if_neg (Bool.eq_false_iff.mp hr))

theorem raises_tgset (hr : descReserved (((wctx h s).snap.sreg a.toNat).extractLsb' 0 8) = true) :
    Raises (.tgset h d a b) (specTgset h d a b) s cDOMAIN 3 :=
  raises_of rfl (if_pos hr)

/-- The parts of a band's header that `tgget` reads once the earlier operations on the band have taken effect. -/
theorem putsS_tgget_of_band {x : Gang} {bd : Band} {sel : BitVec 3} {part : Nat} (h0 : sel ≠ 0#3) (h1 : sel ≠ 1#3)
    (hg : (s.advance.teamOf (wctx h s).snap).gangOf (wctx h s).snap.idx = some x) (ha : a.toNat < x.nacc)
    (hf : (wctx h s).snap.bandFree a.toNat (wctx h s).snap.nextOp = true)
    (hb : (s.advance.teamOf (wctx h s).snap).band? x.k a.toNat (memberIx x.mask (wctx h s).snap.idx) = some bd)
    (hp : (if sel = 2#3 then bd.header else if sel = 3#3 then bd.header / 2 ^ 64 else bd.header / 2 ^ 96) = part) :
    PutsS (.tgget h d a sel) (specTgget h d a sel) s d (BitVec.ofNat 32 part) := by
  refine does_of rfl ((if_neg h0).trans ((if_neg h1).trans ?_))
  simp only [specTgget, hg, Nat.not_le.mpr ha, if_false, hf, Bool.not_true, Bool.false_eq_true, hb, hp]
  rfl

end

/-- Settles O24: a `gang` answers by its count, a band word starts its operation where its checks let it, a tag's words end as their bodies
say. -/
theorem gangWords : Obligations.GangWords := by
  unfold Obligations.GangWords
  refine ⟨fun h k a b s => ?gang, fun h i acc j d b c0 dt n noba nobb s => ?band, fun h d a b s => ?tags⟩
  case gang =>
    intro c g t mask lim w
    refine ⟨holds_gang, fun hm => ⟨fun hb bad => ?_, fun hb valid many => ?_, fun hb valid few within stands => ?_,
      fun hb valid new first few within => ?_, fun hb valid new same last few within => ?_, fun hb hg => ?_, fun x hb hg => ?_⟩⟩
    · exact raises_of_ends (gangForms_of_bad bad ▸ ends_gang_of_count k hm hb)
    · exact raises_of_ends (gangForms_of_too_many valid many ▸ ends_gang_of_count k hm hb)
    · exact holds_of_ends (gangForms_of_standing valid few within stands ▸ ends_gang_of_count k hm hb)
    · have meets := (gangForms_of_new valid few within new).trans (State.gangMeet_of_first first (two_le_popN_of_valid valid))
      exact meets ▸ ends_gang_of_count k hm hb
    · have meets := (gangForms_of_new valid few within new).trans (State.gangMeet_of_last same last)
      rw [State.advance_meets] at meets
      exact meets ▸ ends_gang_of_count k hm hb
    · exact does_of_ends (gangLeaves_of_none hg ▸ ends_gang_of_zero k hm hb)
    · exact gangLeaves_of_member hg ▸ ends_gang_of_zero k hm hb
  case band =>
    intro c g t off all
    have runs : ∀ x ∈ all, RunsBand h acc.toNat s x := by
      simp only [all, List.forall_mem_cons, List.not_mem_nil, false_imp_iff, implies_true, and_true]
      refine ⟨?_, ?_, ?_, ?_⟩ <;> exact ⟨rfl, _, rfl, rfl⟩
    exact ⟨fun x y hg ha hx => (runs x hx).does hg ha, fun x hg hx => (runs x hx).raises hg,
      fun y hg ha aligned inside => ⟨does_acst hg ha aligned inside, does_acld hg ha aligned inside⟩⟩
  case tags =>
    exact ⟨does_tgset, raises_tgset, does_of rfl rfl, does_of rfl rfl, fun x bd hg ha hf hb =>
      ⟨putsS_tgget_of_band (by decide) (by decide) hg ha hf hb (if_pos rfl),
        putsS_tgget_of_band (by decide) (by decide) hg ha hf hb ((if_neg (by decide)).trans (if_pos rfl)),
        putsS_tgget_of_band (by decide) (by decide) hg ha hf hb ((if_neg (by decide)).trans (if_neg (by decide)))⟩⟩

end
end Sys2Proof.Machine
end

