-- ==== Sys2Proof/Proofs/MmaWords.lean ====
section
/-! PROOFS. The words of class MMA (R213 to R220, R235): O25. -/
namespace Sys2Proof.Machine
open Sys2Proof.Claims

noncomputable section

/-- The plain formats have no scale operands, and `.e2m1` no place of its scale (R213, R215). -/
theorem exec_of_mem_mmas : ∀ x ∈ mmas, ∀ (h : Hdr) (reuse : Bool) (acc : BitVec 3) (a b sa : BitVec 6) (sel : BitVec 2) (bsp clr : Bool)
    (s : State), let plain := x.1 = .i8 ∨ x.1 = .bf16 ∨ x.1 = .f16
    let sa := if plain then 0#6 else sa
    let sel := if plain ∨ x.1 = .e2m1 then 0#2 else sel
    exec (x.2 h reuse acc a b sa sel bsp clr) s = .next (mmaWord x.1 h reuse acc a b sa sel bsp clr s) := by
  simp only [mmas, List.forall_mem_cons, List.not_mem_nil, false_imp_iff, implies_true, and_true]
  and_intros <;> intros <;> rfl

/-! ### The accumulator (R217, R235) -/

/-- A band is cleared first, or no `acld` is still to bring its tag, and it is clear or of a tag that matches the operand's. -/
def TakesOperand (g : Group) (t : Team) (y : Gang) (acc : Nat) (clr : Bool) (l : ALatch) : Prop :=
  let dom := g.domAt t y.k acc (memberIx y.mask g.idx)
  clr = false → g.loading acc = false ∧ (dom.2 = true ∨ domAgrees l.desc dom.1 = true)

section
variable {g : Group} {t : Team} {y : Gang} {acc : Nat} {clr : Bool} {l : ALatch} (takes : TakesOperand g t y acc clr l)
include takes

theorem TakesOperand.not_loading : (g.loading acc && !clr) = false := by
  cases clr with
  | true => exact Bool.and_false _
  | false => simp [(takes rfl).1]

theorem TakesOperand.agrees : ((g.domAt t y.k acc (memberIx y.mask g.idx)).2 || clr
    || domAgrees l.desc (g.domAt t y.k acc (memberIx y.mask g.idx)).1) = true := by
  cases clr with
  | true => simp
  | false => simpa using (takes rfl).2

end

/-! ### An `mma` that passes its checks (R217, R219) -/

section
variable (f : MmaFmt) (h : Hdr) (reuse : Bool) (acc : BitVec 3) (a b sa : BitVec 6) (sel : BitVec 2) (bsp clr : Bool) (s : State)

/-- The operand of an `mma`: the one that its group keeps, else the registers' (R217). -/
def mmaLatch (g : Group) : ALatch :=
  match g.keptA with
  | some k => k
  | none => latchOf g f a sa sel

/-- The state in which an `mma` stands at its rendezvous (R219). -/
def mmaStarted : State :=
  let c := wctx h s
  let g := c.snap
  let l := mmaLatch f a sa sel g
  let op : MmaOp := { fmt := f, acc := acc.toNat, reuse := reuse, bsp := bsp, clr := clr, sa := sa.toNat, sel := sel.toNat, a := a.toNat,
                      breg := b.toNat, boff := g.sreg b.toNat, hc := h.c, hg := h.g, latch := l, prev := g.keptA }
  (s.advance.start c .tl c.lanes (.mma op g.mmaCount) [] []).onGrp c.gi fun g =>
    { g with mmaCount := g.mmaCount + 1, keptA := if reuse then some l else none }

variable {y : Gang} (held : extBad (mmaSpec h f a b sa) (wctx h s).snap = false) (issues : (wctx h s).lanes ≠ 0#32)
  (gang : (s.teamOf (wctx h s).snap).gangOf (wctx h s).snap.idx = some y) (has : acc.toNat < y.nacc)
  (fresh : (wctx h s).snap.keptA = none →
    leastOf (pendingOf (mmaSpec h f a b sa) (wctx h s).snap) = none ∧ runTagsOk (wctx h s).snap f a = true)
  (kept : ∀ k, (wctx h s).snap.keptA = some k → k.fmt = f ∧ k.a = a.toNat ∧ k.sa = sa.toNat ∧ k.sel = sel.toNat
    ∧ leastOf (pendingOf { mmaSpec h f a b sa with vr := [] } (wctx h s).snap) = none)
  (takes : TakesOperand (wctx h s).snap (s.teamOf (wctx h s).snap) y acc.toNat clr (mmaLatch f a sa sel (wctx h s).snap))
  (room : (wctx h s).now.cnt .tl < 63) (free : sideHeld (wctx h s).snap true = false) (applied : (wctx h s).ownOrd = false)
  (few : ((wctx h s).snap.ops.filter fun o => !o.done && (match o.kind with | .mma _ _ => true | _ => false)).length < 4)
include held issues gang has fresh kept takes room free applied few

/-- An `mma` that passes the checks of R217 starts its operation, opens its region and tries its rendezvous. -/
theorem mmaWord_of_checked : mmaWord f h reuse acc a b sa sel bsp clr s
    = (((mmaStarted f h reuse acc a b sa sel bsp clr s).region (wctx h s) 0#32).meets4 (wctx h s).snap.team y).finish := by
  have agrees := takes.agrees
  unfold mmaWord mmaStarted
  unfold mmaLatch at agrees ⊢
  cases keeps : (wctx h s).snap.keptA with
  | none =>
    obtain ⟨ready, tags⟩ := fresh keeps
    rw [keeps] at agrees
    simp only [held, issues, gang, Nat.not_le.mpr has, keeps, ready, tags, takes.not_loading, agrees, Nat.not_le.mpr room, free, applied,
      Option.isSome_none, Option.isNone_none, Bool.false_and, Bool.true_and, Bool.not_true, Bool.or_self, Bool.false_eq_true, if_false]
    exact congrArg (settleRes _ _ s) (if_neg (Nat.not_le.mpr few))
  | some k =>
    obtain ⟨fmt, a_, sa_, sel_, ready⟩ := kept k keeps
    rw [keeps] at agrees
    simp only [held, issues, gang, Nat.not_le.mpr has, keeps, fmt, a_, sa_, sel_, ready, takes.not_loading, agrees,
      Nat.not_le.mpr room, free, applied, decide_true, Option.isSome_some, Option.isNone_some, Bool.and_self, Bool.and_false, Bool.false_and,
      Bool.not_true, Bool.or_self, Bool.false_eq_true, if_false, if_true]
    exact congrArg (settleRes _ _ s) (if_neg (Nat.not_le.mpr few))

end

/-- Settles O25: the words of the table run as one word, which starts its operation where it passes the checks of R217. -/
theorem mmaWords : Obligations.MmaWords := by
  unfold Obligations.MmaWords
  intro x hx h reuse acc a b sa sel bsp clr s y plain sa' sel' w c g t l op s1 dom held issues gang has fresh kept takes room free applied few
  refine ⟨_, exec_of_mem_mmas x hx h reuse acc a b sa sel bsp clr s, ?_⟩
  have runs := mmaWord_of_checked x.1 h reuse acc a b sa' sel' bsp clr s held issues gang has fresh kept takes room free applied few
  exact (congrArg State.still runs).trans (State.finish_still _)

end
end Sys2Proof.Machine
end

