-- ==== Sys2Proof/Proofs/TileEvents.lean ====
section
/-! PROOFS. Bands granted and given back, band words in their turn, passes (R207, R209, R220, R224 to R227): O33. -/
namespace Sys2Proof.Machine
open Sys2Proof.Claims

noncomputable section

/-! ### Bands granted and given back (R207, R209) -/

/-- The state in which a gang of a team has its bands and its members go on. -/
def State.granted (s : State) (t k : Nat) (tm : Team) (x : Gang) : State :=
  let bands := (List.range x.nacc).flatMap fun acc => (List.range (popN 16 x.mask)).map fun i => Band.fresh k acc i
  let v := s.onTeam t fun u => { u with
    gangs := u.gangs.map fun y => if y.k = k && !y.formed then { y with formed := true } else y, bands := u.bands ++ bands }
  (v.members tm x.mask).foldl (fun s gi =>
    (s.onGrp gi fun g => { g with gng := gngOf k x.mask x.nacc, mmaCount := 0 }).endWaits gi StallKind.isGang) v

theorem bandGrant_of_first {s : State} {t k : Nat} {tm : Team} {x : Gang} {kn : Kernel} (ht : s.teams[t]? = some tm)
    (hk : s.kernels[tm.kernel]? = some kn) (hx : (tm.gangs.find? fun x => x.k = k && !x.formed) = some x)
    (first : (s.teams.all fun u => !u.holds || u.core / 4 ≠ tm.core / 4 || u.gangs.all fun y => y.formed || x.seq ≤ y.seq) = true)
    (holds : tm.holds = true) (engine : s.bandsUsed (tm.core / 4) + x.nacc * popN 16 x.mask ≤ 128)
    (limit : tm.bands.length + x.nacc * popN 16 x.mask ≤ kn.h.bands) : exec (.bandGrant t k) s = .next (s.granted t k tm x) := by
  refine next_congr ?_
  simp only [ht, hx, first, holds, hk, Nat.not_lt.mpr engine, Nat.not_lt.mpr limit, Bool.not_true, decide_false, Bool.or_self,
    Bool.false_eq_true, if_false]
  rfl

/-- Every member of a gang has left it or ended, with no operation on its bands left (R209, R211). -/
def State.gangOver (s : State) (tm : Team) (x : Gang) : Bool :=
  x.formed && (s.members tm x.mask).all fun gi =>
    ((s.grp gi).gone || x.leaving.contains (s.grp gi).idx) && (s.grp gi).ops.all fun o => !o.tile

/-- The state in which a gang of a team has given its bands back and its members go on. -/
def State.dissolved (s : State) (t : Nat) (tm : Team) (x : Gang) : State :=
  let u := s.onTeam t fun u => { u with gangs := u.gangs.filter (fun y => y.k != x.k), bands := u.bands.filter (fun b => b.gang != x.k) }
  (u.members tm x.mask).foldl (fun s gi =>
    (s.onGrp gi fun g => { g with gng := 0, keptA := none, mmaCount := 0 }).endWaits gi StallKind.isUngang) u

section
variable {s : State} {t : Nat} {tm : Team} (ht : (s.gangAbsent t).teams[t]? = some tm)
include ht

theorem gangDissolve_of_none (hx : tm.gangs.find? ((s.gangAbsent t).gangOver tm) = none) :
    exec (.gangDissolve t) s = .next (s.gangAbsent t) := by
  unfold State.gangOver at hx
  refine next_congr ?_
  simp only [ht, hx]

theorem gangDissolve_of_over {x : Gang} (hx : tm.gangs.find? ((s.gangAbsent t).gangOver tm) = some x) :
    exec (.gangDissolve t) s = .next ((s.gangAbsent t).dissolved t tm x) := by
  unfold State.gangOver at hx
  refine next_congr ?_
  simp only [ht, hx]
  rfl

end

/-! ### A band word in its turn (R220, R224, R231) -/

theorem Group.mmaPassed_iff {g : Group} {id : Nat} :
    g.mmaPassed id = true ↔ ∀ p ∈ g.ops, p.id < id → p.done = false → p.kind.isMma = true → p.todo = 0#32 := by
  simp only [Group.mmaPassed, List.all_eq_true, Bool.or_eq_true, decide_eq_true_eq, Bool.not_eq_true']
  refine forall₂_congr fun p _ => ⟨fun passed early going mma => ?_, fun passed => ?_⟩
  · simpa [Nat.not_le.mpr early, going, mma] using passed
  · by_cases early : p.id < id
    · cases going : p.done <;> cases mma : p.kind.isMma <;> simp_all
    · exact .inl (.inl (.inl (Nat.not_lt.mp early)))

theorem Group.tileTurn_of {g : Group} {acc id : Nat} {fn : TileFn} (free : g.bandFree acc id = true) (passed : g.mmaPassed id = true)
    (placed : fn.image = true → g.accessed id = true) : g.tileTurn acc id fn = true := by
  cases image : fn.image <;> simp_all [Group.tileTurn]

theorem tileOperationComplete_of_turn {s : State} {gi id acc : Nat} {o : Op} {fn : TileFn} {x : Gang} (ho : (s.grp gi).op? id = some o)
    (hk : o.kind = .tile acc fn) (hd : o.done = false) (turn : (s.grp gi).tileTurn acc id fn = true)
    (hx : (s.teamOf (s.grp gi)).gangOf (s.grp gi).idx = some x) :
    exec (.tileOperationComplete gi id) s
      = .next ((s.tileDone gi o x.k acc (memberIx x.mask (s.grp gi).idx) fn).complete gi id) := by
  refine next_congr ?_
  simp only [State.tileStep, ho, hk, hd, turn, hx, Bool.not_true, Bool.or_self, Bool.false_eq_true, if_false]

/-- Settles O33: each event finds what its own lemma names; an engine's clk is the model's own step. -/
theorem tileEvents : Obligations.TileEvents := by
  unfold Obligations.TileEvents
  intro s t k gi id tm
  refine ⟨fun x kn ht hk hx first holds engine limit => bandGrant_of_first ht hk hx first holds engine limit,
    fun ht => ⟨gangDissolve_of_none ht, fun x => gangDissolve_of_over ht⟩,
    fun o acc fn x ho hk hd free passed placed hx =>
      tileOperationComplete_of_turn ho hk hd (Group.tileTurn_of free (Group.mmaPassed_iff.mpr passed) placed) hx,
    fun isl => rfl⟩

end
end Sys2Proof.Machine
end

