-- ==== Sys2Proof/Proofs/CoefficientWords.lean ====
section
/-! PROOFS. The words of class WAVE: transforms, thresholds, stored segments (R24, R32, R41, R242 to R251): O26. -/
namespace Sys2Proof.Machine
open Sys2Proof.Claims

noncomputable section

/-- FUNC is the lowest code that a word's registers and its own rule have (R41). -/
theorem unlawful_of_func {i : Instr} {w : WordSpec} {s : State} (hw : specOf i = some w) (hm : isMma i = false)
    (ho : ownRule i s = some 0x02) : Unlawful i w s 0x02 :=
  (checksBeforeWords i w s hw hm).1 ho

/-- A word whose own rule is kept, and which has no effect where no lane issues, ends as its answer says. -/
theorem ends_of_own {i : Instr} {w : WordSpec} {s : State} {own : Wctx → State → Option Nat} {body : Wctx → State → Res} (r : Res)
    (hx : exec i s = .next (wordOwn w own s body)) (ho : own (wctx w.h s) s = none)
    (h0 : lanes w s = 0#32 → body (wctx w.h s) s.advance = .ok s.advance) (hb : lanes w s ≠ 0#32 → body (wctx w.h s) s.advance = r) :
    Ends i w s r :=
  ends_as (exec_eq_word_of_own r hx ho h0 hb) rfl

/-! ### Thresholds (R242, R247) -/

section
variable {h : Hdr} {d a : BitVec 6} {n : BitVec 3} {s : State}

theorem unlawful_wthr (bad : modeBad ((wctx h s).snap.wth.getD n.toNat 0) = true) :
    Unlawful (.wthr h d a n) (specWv h d a) s 0x02 :=
  unlawful_of_func rfl rfl (if_pos (of_decide_eq_true bad))

variable (lawful : modeBad ((wctx h s).snap.wth.getD n.toNat 0) = false)
include lawful

theorem thresholdBad_of_lawful : thresholdBad (wctx h s) n = none := if_neg (Bool.eq_false_iff.mp lawful)

theorem raises_wthr (hd : ((wctx h s).snap.tag a.toNat).haar = false ∨ descM ((wctx h s).snap.tag a.toNat).desc = mSTR) :
    Raises (.wthr h d a n) (specWv h d a) s cDOMAIN 4 := by
  refine raises_of_ends (ends_of_own _ rfl (thresholdBad_of_lawful lawful) (fun hl => if_pos hl) fun hl => (if_neg hl).trans (if_pos ?_))
  obtain spatial | str := hd
  · simp only [specWv, spatial, Bool.not_false, Bool.true_or]
  · simp only [specWv, str, decide_true, Bool.or_true]

theorem does_wthr (haar : ((wctx h s).snap.tag a.toNat).haar = true) (unlike : descM ((wctx h s).snap.tag a.toNat).desc ≠ mSTR) :
    let c := wctx h s
    let t := c.snap.tag a.toNat
    let v := thresholdReg (c.snap.wth.getD n.toNat 0) (descL t.desc) (c.snap.vreg a.toNat)
    Does (.wthr h d a n) (specWv h d a) s (s.advance.startWave c true
      [(d.toNat, v, valueTag (descL t.desc) (descX t.desc) (n.toNat + 1) v)] (Vector.replicate 32 0) [d.toNat]) := by
  refine does_of_ends (ends_of_own _ rfl (thresholdBad_of_lawful lawful) (fun hl => if_pos hl) fun hl => (if_neg hl).trans (if_neg ?_))
  simp only [specWv, haar, unlike, Bool.not_true, decide_false, Bool.or_self, Bool.false_eq_true, not_false_eq_true]

end

/-! ### The accesses of a stored segment (R243, R248 to R250) -/

/-- How many bytes of a slot are read: its header and the rows that its mask names (R243, R249). -/
def slotLen (w : Nat) (header : List Byte) : Nat := 8 + 4 * w * popN 32 (slotHeader header).2

/-- The registers that the slots of a run fill (R249). -/
def slotRegs (q : SegReq) (desc : Nat) (slots : List (List Byte)) : List (Nat × PerLane Word × Tag) :=
  let L := desc / 32
  let mask := fun i => (slotHeader (slots.getD i [])).2
  (List.range q.w).map fun r => (q.d + r,
    Vector.ofFn fun (l : Fin 32) => slotWord (slots.getD (l.val / 2 ^ L) []) q.w (mask (l.val / 2 ^ L)) (l.val % 2 ^ L) r,
    ⟨BitVec.ofNat 8 desc, BitVec.ofNat 32 (((List.range (32 / 2 ^ L)).map fun i => mask i * 2 ^ (i * 2 ^ L)).foldl (· + ·) 0)⟩)

section
variable {s s1 s2 : State} {u : Who} {q : SegReq}

theorem State.storeSegs_of_scan (scan : s.scanExtent u q.space .w q.base q.n (List.range q.n) = (s1, none)) :
    s.storeSegs u q = ((s1.writeVa u q.space q.base q.img none).1, .ok []) := by
  simp only [State.storeSegs, scan]

variable {s3 s4 s5 s6 : State} {g0 : List Byte} {hs slots : List (List Byte)} {desc z k : Nat}

/-- A run whose extent is accessible, whose headers are consistent and whose rows have no error is read. How a slot's bytes are fetched is
put away before the reads are compared. -/
theorem State.loadSegs_of_slots (scan : s.scanExtent u q.space .r q.base 1 [0] = (s1, none))
    (first : s1.readVa u q.space q.base 16 .r = (s2, .ok g0)) (form : fld (slotHeader g0).1 31 24 = desc)
    (lawful : descReserved (BitVec.ofNat 8 desc) = false) (haar : desc / 32 ≠ 0)
    (size : slotBytes (desc / 32) q.w = z) (count : 32 / 2 ^ (desc / 32) = k)
    (extent : s2.scanExtent u q.space .r q.base (k * z / 16) ((List.range k).map fun i => i * z / 16) = (s3, none))
    (headers : readSlots s3 u q.space q.base z (fun _ => 16) k = (s4, hs))
    (sound : ∀ i, i < k → slotFault (desc / 32) q.w desc (slotHeader (hs.getD i [])) = none)
    (late : s4.lateScan u q.space .r q.base ((List.range k).flatMap fun i =>
      (List.range ((slotLen q.w (hs.getD i []) + 15) / 16)).map fun j => i * z / 16 + j) = (s5, none))
    (rows : readSlots s5 u q.space q.base z (fun i => slotLen q.w (hs.getD i [])) k = (s6, slots)) :
    s.loadSegs u q = (s6, .ok (slotRegs q desc slots)) := by
  have consistent : (List.range k).filterMap (fun i => (slotFault (desc / 32) q.w desc (slotHeader (hs.getD i []))).map
      fun e => (cDOMAIN, e, q.base + i * z)) = [] :=
    List.filterMap_eq_nil_iff.mpr fun i hi => by rw [sound i (List.mem_range.mp hi), Option.map_none]
  simp only [slotLen] at late rows
  simp only [State.loadSegs, scan, first, form, lawful, haar, size, count, extent, decide_false, Bool.or_self, Bool.false_eq_true, if_false]
  unfold readSlots at headers rows
  generalize State.readVa = readVa at headers rows ⊢
  generalize read : List.foldl _ (s3, []) _ = p
  obtain rfl : p = (s4, hs) := read.symm.trans headers
  simp only [consistent, late]
  generalize read : List.foldl _ (s5, []) _ = p
  obtain rfl : p = (s6, slots) := read.symm.trans rows
  rw [slotRegs, count]

end

/-! ### When a stored segment makes its accesses (R32, R251) -/

section
variable {c : Wctx} {q : SegReq} {s s1 : State} (dv : List Nat)

theorem segWord_of_prior (blocked : c.groupBlocked = true) (prior : c.priorBlocked = true) : segWord c q dv s = .hold c.blockKind :=
  (if_pos blocked).trans (if_pos prior)

theorem segWord_of_chain (blocked : c.groupBlocked = true) (chain : c.priorBlocked = false) :
    segWord c q dv s = .ok (s.start c .tl 0 (.seg q) dv []) :=
  (if_pos blocked).trans (if_neg (Bool.eq_false_iff.mp chain))

variable (free : c.groupBlocked = false)
include free

theorem segWord_of_stored (store : q.load = false)
    (scan : s.scanExtent (s.whoOf c.snap) q.space .w q.base q.n (List.range q.n) = (s1, none)) :
    segWord c q dv s = .ok ((s1.writeVa (s.whoOf c.snap) q.space q.base q.img none).1.startWave c q.quiet [] q.flags dv) := by
  simp only [segWord, free, State.doSegs, store, State.storeSegs_of_scan scan, Bool.false_eq_true, if_false]

theorem segWord_of_loaded (load : q.load = true) {outs : List (Nat × PerLane Word × Tag)}
    (done : s.loadSegs (s.whoOf c.snap) q = (s1, .ok outs)) :
    segWord c q dv s = .ok (s1.startWave c q.quiet outs q.flags dv) := by
  simp only [segWord, free, State.doSegs, load, done, Bool.false_eq_true, if_false, if_true]

end

/-! ### `stw` and `ldw` (R242, R248, R249) -/

/-- What `stw` stores (R248). -/
def stwReq (c : Wctx) (m : Bool) (a b : BitVec 6) (mode : BitVec 2) (l : BitVec 3) (x sc t : Bool) (n : BitVec 3) (rw : BitVec 4) :
    SegReq :=
  let L := l.toNat
  let w := rw.toNat + 1
  let cs := (runOf a.toNat w).map fun r => coeffReg c.snap L x sc r
  { space := (slotBase c mode b).1, base := (slotBase c mode b).2, load := false, d := 0, w := w,
    img := (List.range (32 / 2 ^ L)).flatMap fun g =>
      slotImage (mkDesc L x (if sc then mSTR else if t then n.toNat + 1 else 0)) L w
        (if t then some (c.snap.wth.getD n.toNat 0) else none) sc
        ((List.range (2 ^ L)).map fun o => cs.map fun v => v.1.toList.getD (g * 2 ^ L + o) 0),
    n := 32 / 2 ^ L * slotBytes L w / 16, quiet := m,
    flags := Vector.ofFn fun i => cs.foldl (fun f v => f ||| v.2[i]) 0#5 }

/-- What `ldw` loads (R249). -/
def ldwReq (c : Wctx) (d b : BitVec 6) (mode : BitVec 2) (rw : BitVec 4) : SegReq :=
  { space := (slotBase c mode b).1, base := (slotBase c mode b).2, load := true, d := d.toNat, w := rw.toNat + 1, img := [], n := 0,
    quiet := true, flags := Vector.replicate 32 0 }

theorem ends_ldw (h : Hdr) (d b : BitVec 6) (mode : BitVec 2) (rw : BitVec 4) (s : State) :
    Ends (.ldw h d b mode rw) (specLdw h d b mode rw) s
      (segWord (wctx h s) (ldwReq (wctx h s) d b mode rw) (runOf d.toNat (rw.toNat + 1)) s.advance) :=
  ends_as rfl rfl

section
variable {h : Hdr} {m : Bool} {d b : BitVec 6} {mode : BitVec 2} {l : BitVec 3} {x sc t : Bool} {n : BitVec 3} {rw : BitVec 4} {s : State}

theorem unlawful_stw (bad : (t && modeBad ((wctx h s).snap.wth.getD n.toNat 0)) = true) :
    Unlawful (.stw h m d b mode l x sc t n rw) (specStw h d b mode rw) s 0x02 := by
  obtain ⟨thresholds, mode3⟩ := Bool.and_eq_true_iff.mp bad
  exact unlawful_of_func rfl rfl (if_pos ⟨thresholds, of_decide_eq_true mode3⟩)

theorem ends_stw (lawful : (t && modeBad ((wctx h s).snap.wth.getD n.toNat 0)) = false) :
    Ends (.stw h m d b mode l x sc t n rw) (specStw h d b mode rw) s
      (segWord (wctx h s) (stwReq (wctx h s) m d b mode l x sc t n rw) [] s.advance) := by
  have keeps : (if t then thresholdBad (wctx h s) n else none) = none := by
    cases t with
    | false => rfl
    | true => exact thresholdBad_of_lawful lawful
  exact ends_of_own _ rfl keeps (fun hl => if_pos hl) fun hl => if_neg hl

end

/-- Settles O26: a word of one register ends as its body says, a stored segment as `segWord` does with what it stores or loads. -/
theorem coefficientWords : Obligations.CoefficientWords := by
  unfold Obligations.CoefficientWords
  refine ⟨fun h m d a s => ?registers, fun h m d b mode l x sc t n rw s s1 s2 s3 s4 s5 s6 g0 hs slots => ?segments⟩
  case registers =>
    exact ⟨fun u sc x l => does_of rfl rfl, does_of rfl rfl, fun n => ⟨unlawful_wthr, raises_wthr, does_wthr⟩⟩
  case segments =>
    intro c w sb u th L cs bytes fl granules
    have ldw := ends_ldw h d b mode rw s
    refine ⟨unlawful_stw, fun blocked prior => ⟨?_, fun lawful => ?_⟩, fun blocked chain => ⟨?_, fun lawful => ?_⟩,
      fun free => ⟨fun lawful scan => ?_, fun scan0 get0 => ?_⟩⟩
    · exact holds_of_ends (segWord_of_prior _ blocked prior ▸ ldw)
    · exact holds_of_ends (segWord_of_prior _ blocked prior ▸ ends_stw lawful)
    · exact does_of_ends (segWord_of_chain _ blocked chain ▸ ldw)
    · exact does_of_ends (segWord_of_chain _ blocked chain ▸ ends_stw lawful)
    · have stores := segWord_of_stored (q := stwReq c m d b mode l x sc t n rw) [] free rfl scan
      exact does_of_ends (stores ▸ ends_stw lawful)
    · intro desc L z k len mask lawful haar scan1 get1 sound scan2 get2
      have loads : s.advance.loadSegs u (ldwReq c d b mode rw) = (s6, .ok (slotRegs (ldwReq c d b mode rw) desc slots)) :=
        State.loadSegs_of_slots scan0 get0 rfl lawful haar rfl rfl scan1 get1 sound scan2 get2
      exact does_of_ends (segWord_of_loaded _ free rfl loads ▸ ldw)

end
end Sys2Proof.Machine
end
